-- ==== Sys2Proof/Word.lean ====
section
/-! DEFINITION. The word types of the Syurn Z6 and their plainest arithmetic (R5, R6, R85). -/

namespace Sys2Proof

/-- A 64-bit value: an s or a register, a control register, an instruction word (R61, R85). -/
abbrev Word := BitVec 64

/-- A byte of any memory (R6). -/
abbrev Byte := BitVec 8

/-- The 2048-byte image of a vector register, operand register, latch or queue entry (R63): byte b of
row y is byte 128·y + b of the image, and byte 0 is the least significant. -/
abbrev VImage := BitVec 16384

/-- The n-bit field of w whose lowest bit is lo (R6). -/
def fld (w lo n : Nat) : Nat := w / 2 ^ lo % 2 ^ n

end Sys2Proof
end

