-- ==== Sys2Proof/Syntax.lean ====
section
/-! DEFINITION. The words of every column and the events of the part, as one inductive: one constructor for
each row of the opcode table. A word's WAIT and SIGNAL fields are common to every column (R85), so they stand beside
the instruction in `Code`. -/

namespace Sys2Proof

/-! ## Fields shared by the words -/

/-- The five columns and the channel sequencer (R60). -/
inductive Col where
  | ctl | acs | vec | mat | cpy | chn
  deriving DecidableEq, Repr

/-- The WAIT field (R89). `tok c n` pops n + 1 tokens from column c. -/
inductive Wait where
  | none
  | idle (n : BitVec 7)
  | tok (c : Col) (n : BitVec 2)
  | flag (f : BitVec 5)
  | cnt (j : BitVec 5)
  | bar (b : BitVec 3)
  | colIdle (c : Col)
  | plait
  | landed
  deriving DecidableEq, Repr

/-- The SIGNAL field (R91). `tok c n` pushes n + 1 tokens towards column c. -/
inductive Signal where
  | none
  | clr (f : BitVec 5)
  | link (j : BitVec 5)
  | tok (c : Col) (n : BitVec 2)
  | flag (f : BitVec 5)
  | cnt (j : BitVec 5)
  | bar (b : BitVec 3)
  deriving DecidableEq, Repr

/-- An s register number (R61). -/
abbrev SReg := BitVec 6
/-- An a register number (R61). -/
abbrev AReg := BitVec 4

/-- The branch conditions of CB (R97). -/
inductive Cond where
  | eq | ne | lt | ge | ltu | geu | al
  deriving DecidableEq, Repr

/-- The address spaces of CM (R97, R124). -/
inductive Space where
  | sp | gl | hp | ap
  deriving DecidableEq, Repr

/-- The order field of CM (R97, R126). -/
inductive Order where
  | plain | acq | rel | ar
  deriving DecidableEq, Repr

/-- The access sizes of CM (R97, R125). -/
inductive Size where
  | b | h | w | d | nib | crm
  deriving DecidableEq, Repr

/-- The operations of amo (R129). -/
inductive AmoOp where
  | swap | add | and | or | xor | min | max | minu | maxu
  deriving DecidableEq, Repr

/-- The agent scopes of fence (R136). -/
inductive Scope where
  | stream | team | die | pkg | sys
  deriving DecidableEq, Repr

/-- The kinds of fence (R136). -/
inductive FenceKind where
  | full | acq | rel
  deriving DecidableEq, Repr

/-- The signal codes of csig (R139). -/
inductive CsigCode where
  | clr (f : BitVec 5)
  | link (j : BitVec 5)
  | flag (f : BitVec 5)
  | cnt (j : BitVec 5)
  deriving DecidableEq, Repr

/-- The wait codes of cwait (R140). -/
inductive CwaitCode where
  | flag (f : BitVec 5)
  | cnt (j : BitVec 5)
  | bar (b : BitVec 3)
  | colIdle (c : Col)
  | plait
  | landed
  deriving DecidableEq, Repr

/-- The exception registers that popx names (R142). -/
inductive ExcReg where
  | vexc | mexc | cexc
  deriving DecidableEq, Repr

/-- What cntrd reads (R147). -/
inductive CntSrc where
  | head (c : Col)
  | tail (c : Col)
  | put (c : Col)
  | launch
  | graph
  | phase
  | job
  | handle (a : SReg)
  deriving DecidableEq, Repr

/-- A source operand of a vec word (R66). -/
inductive VSrc where
  | v (r : BitVec 6)
  | o (r : BitVec 3)
  | q (r : BitVec 2)
  | lat
  | s (r : BitVec 6)
  | imm (k : BitVec 5)
  deriving DecidableEq, Repr

/-- A destination operand of a vec word (R66). -/
inductive VDst where
  | v (r : BitVec 6)
  | o (r : BitVec 3)
  | w (r : BitVec 2)
  | lat
  deriving DecidableEq, Repr

/-- The element types 0x0 to 0xF (R13). -/
inductive ElemTy where
  | f64 | f32 | bf16 | f16 | e4m3 | e5m2 | e3m2 | e2m3 | q4 | c4 | i8 | i16 | i32 | i64 | r32 | r64
  deriving DecidableEq, Repr

/-- The mask field and the invert bit (R69, R99). -/
structure Mask where
  k : BitVec 3
  inv : Bool
  deriving DecidableEq, Repr

/-- The overflow option of viadd and visub (R188). -/
inductive IOpt where
  | wrap | ss | us
  deriving DecidableEq, Repr

/-- The predicates of vcmp (R184). -/
inductive FPred where
  | eq | ne | lt | le | gt | ge | un | ord
  deriving DecidableEq, Repr

/-- The predicates of vicmp (R184). -/
inductive IPred where
  | eq | ne | lt | le | gt | ge | ltu | leu | gtu | geu
  deriving DecidableEq, Repr

/-- How vmred reads its source; the wide modes name the low half (R213). -/
inductive RedMode where
  | u
  | s
  | w (b : VSrc)
  | sw (b : VSrc)
  deriving DecidableEq, Repr

/-- The modes of vperm (R194). -/
inductive PermMode where
  | idx (b : VSrc)
  | stride (k : BitVec 3)
  | unstride (k : BitVec 3)
  | brev
  deriving DecidableEq, Repr

/-- The functions of vtab (R203). -/
inductive TabFn where
  | exp2 | log2 | rcp | rsqrt | sinpi | cospi | tanh | sigmoid | erf | gelu | silu
  deriving DecidableEq, Repr

/-- What vtab evaluates: a built-in table or a user slot (R203). -/
inductive TabSel where
  | fn (f : TabFn)
  | slot (n : BitVec 2)
  deriving DecidableEq, Repr

/-- The operand rings of mat (R167, R222). -/
inductive Ring where
  | a | b
  deriving DecidableEq, Repr

/-- The plaits that mplait writes (R217, R247). -/
inductive PlaitSel where
  | drain | transposed | checkpoint
  deriving DecidableEq, Repr

/-- The count source of a loop word (R103). -/
inductive LoopSrc where
  | reg (r : SReg)
  | mbx (m : BitVec 4)
  | imm
  deriving DecidableEq, Repr

/-! ## What the events carry -/

/-- A timed group: every stream of a launch, by its handle, or the columns of one team (R174). -/
inductive Group where
  | launch (h : Nat)
  | team (cid : Nat)
  deriving DecidableEq, Repr

/-- A vector register's image with one taint bit for each 32-bit word (R63, R180). -/
structure VVal where
  bits : VImage
  taint : BitVec 512
  deriving DecidableEq, Repr

/-- An access pattern: rows, row length in bytes, stride and wrap size (R158). -/
structure Pattern where
  rows : Nat
  rb : Nat
  str : Int
  wrap : Nat
  deriving DecidableEq, Repr

/-- An entry of a modulus set; the reduction constant is 2^(2w) / q (R70, R211). -/
structure ModEntry where
  q : Nat
  wide : Bool
  recip : Nat
  taint : Bool
  deriving DecidableEq, Repr

/-- A loop level of a nest table (R224). -/
structure NestLevel where
  trips : Nat
  aadv : Nat
  badv : Nat
  gstep : Int
  zero : Bool
  drain : Bool
  ckpt : Bool
  deriving DecidableEq, Repr

/-- A drain descriptor (R224). -/
structure DrainDesc where
  seq0 : Nat
  mode : Nat
  trec : Nat
  record : Nat
  deriving DecidableEq, Repr

/-- How a csr word changes its register: csrw, csrs or csrc (R148). -/
inductive CsrOp where
  | write | set | clear
  deriving DecidableEq, Repr

/-- A register write on its way to its landing beat (R74). -/
inductive RegWrite where
  | s (r : SReg) (v : Word) (t : Bool)
  | a (r : AReg) (v : Word) (t : Bool)
  | csr (op : CsrOp) (n : Nat) (v : Word) (t : Bool)
  | pat (p : BitVec 3) (x : Pattern)
  | bfmt (bank : Nat) (v : Word)
  | mfmt (v : Word)
  | mring (a b : Word)
  | mnest (l : List NestLevel) (d : Option DrainDesc)
  | minbox (g : Nat) (v : Word)
  | vshape (rows rowb : Nat)
  | modset (m : BitVec 3) (l : List (Nat × ModEntry))
  | bitpat (n : BitVec 3) (v : VImage) (t : Bool)
  | tab (n : BitVec 2) (f : TabFn) (nodes : List (BitVec 32 × BitVec 32)) (t : Bool)
  | tail (c : Col) (v : Nat)
  | elastic (c : Col)
  deriving DecidableEq, Repr

/-- Where a slice goes. A w queue push names the entry it fills (R68). -/
inductive SliceDst where
  | reg (d : VDst) (entry : Nat)
  | mask (k : BitVec 3)
  deriving DecidableEq, Repr

/-- What lat receives with a slice (R177, R195, R196). -/
inductive LatMode where
  | same
  | keep
  | value (v : VVal)
  deriving DecidableEq, Repr

/-- One slice of a vec word's result: rows row0 to row0 + rows - 1 of `data`, under the bit enables `en`, with the
new taint of each 32-bit word it writes; the exceptions land with the last slice (R46, R78, R177). -/
structure Slice where
  dst : SliceDst
  row0 : Nat
  rows : Nat
  data : VImage
  en : VImage
  taint : BitVec 512
  lat : LatMode
  exc : BitVec 5
  last : Bool
  deriving DecidableEq, Repr

/-- What a signal does when it fires: a SIGNAL field's event, or csig's counted one (R91, R139). -/
inductive SigEvent where
  | code (g : Signal)
  | count (g : CsigCode) (n : Nat)
  deriving DecidableEq, Repr

/-- A sector of a transfer on its way to a scratchpad: its stored bytes with their addresses and taint, the package beat
and the sender of its start, the sending word, the path that started it, its number in the transfer, whether it is the
last, whether its sender was timed, the 32-bit words whose old taint the transfer replaces though this sector fills them only
in part, and the scratchpad sectors into which the transfer has still to send another landing (R256 to R258, R288, R349). -/
structure Sector where
  cells : List (Nat × BitVec 8 × Bool)
  start : Nat
  sender : Nat
  id : Nat
  path : Col
  index : Nat
  last : Bool
  timed : Bool
  entire : List Nat := []
  more : List Nat := []
  deriving DecidableEq, Repr

/-- A row group of a peer-add contribution: sender, sequence number, type, shape, and its 16 rows (R243). -/
structure Contribution where
  sender : Nat
  seq : Nat
  acc : Nat
  m : Nat
  n : Nat
  row : Nat
  vals : List (BitVec 64)
  taint : List Bool
  deriving DecidableEq, Repr

/-- The format of a destination beyond a Reedlink frame: its type, how it quantises, its tensor scale and its codebook
(R255, R420). -/
structure LinkDest where
  ty : ElemTy
  qt : Nat
  tscale : BitVec 32
  book : List Nat
  deriving DecidableEq, Repr

/-- A Reedlink frame: the port it comes in at, its minor version, the port it goes on to (none for this device), the lane
that had a CRC error, the block format code of its units with the tensor scale and the codebook that the units' tensor has,
the units, and the format that its destination in this device requires, if its blocks are to be converted (R419, R420, R433). -/
structure LinkUnits where
  port : Nat
  minor : Nat
  out : Option Nat
  crc : Option Nat
  code : Nat
  tscale : BitVec 32
  book : List Nat
  payload : List (BitVec 8)
  dest : Option LinkDest := none
  deriving DecidableEq, Repr

/-- The causes of an emergency (R450). -/
inductive Emergency where
  | thermal | hbmTemp | undervolt | hotDebt
  deriving DecidableEq, Repr

/-- A unit that Kensia can mark and retire (R435, R440). (Log: 111 DEDUCED.) -/
structure UnitId where
  kind : Nat
  index : Nat
  deriving DecidableEq, Repr

/-- Who makes a demand request (R325). -/
inductive DemandKind where
  | read | write | refresh | scrub
  deriving DecidableEq, Repr

/-! ## Instructions and events -/

/-- One row of the opcode table: a word of a column, or an event of the part. -/
inductive Instr where
  -- ctl: arithmetic in form CA (R118, R119)
  | add (d a b : SReg) | sub (d a b : SReg) | and (d a b : SReg) | or (d a b : SReg) | xor (d a b : SReg)
  | andn (d a b : SReg) | shl (d a b : SReg) | shr (d a b : SReg) | sar (d a b : SReg)
  | mul (d a b : SReg) | mulh (d a b : SReg) | mulhu (d a b : SReg)
  | div (d a b : SReg) | divu (d a b : SReg) | rem (d a b : SReg) | remu (d a b : SReg)
  | min (d a b : SReg) | max (d a b : SReg) | minu (d a b : SReg) | maxu (d a b : SReg)
  | slt (d a b : SReg) | sltu (d a b : SReg) | seq (d a b : SReg)
  | clz (d a : SReg) | ctz (d a : SReg) | popc (d a : SReg) | bswap (d a : SReg) | sel (d a b : SReg)
  -- ctl: arithmetic in form CI (R120)
  | addi (d a : SReg) (i : BitVec 28) | andi (d a : SReg) (i : BitVec 28) | ori (d a : SReg) (i : BitVec 28)
  | xori (d a : SReg) (i : BitVec 28) | shli (d a : SReg) (i : BitVec 28) | shri (d a : SReg) (i : BitVec 28)
  | sari (d a : SReg) (i : BitVec 28) | slti (d a : SReg) (i : BitVec 28) | sltiu (d a : SReg) (i : BitVec 28)
  | lui (d a : SReg) (i : BitVec 28) | muli (d a : SReg) (i : BitVec 28)
  -- ctl: transfers (R122, R123)
  | b (c : Cond) (a b : SReg) (off : BitVec 22)
  | jmp (off : BitVec 40) | call (off : BitVec 40) | callr (a : SReg) | jr (a : SReg)
  -- ctl: memory (R124 to R134)
  | ld (d base : SReg) (cls : BitVec 4) (spc : Space) (o : Order) (z : Size) (off : BitVec 17)
  | st (d base : SReg) (cls : BitVec 4) (spc : Space) (o : Order) (z : Size) (off : BitVec 17)
  | amo (d base : SReg) (cls : BitVec 4) (spc : Space) (o : Order) (z : Size) (x : SReg) (op : AmoOp)
  | cas (d base : SReg) (cls : BitVec 4) (spc : Space) (o : Order) (z : Size) (x : SReg)
  | pref (base : SReg) (cls : BitVec 4) (off : BitVec 17)
  | cboClean (base : SReg) (cls : BitVec 4) (off : BitVec 17)
  | cboFlush (base : SReg) (cls : BitVec 4) (off : BitVec 17)
  | ways (d a : SReg)
  -- ctl: form CS (R135 to R153)
  | fence (sc : Scope) (stor : BitVec 4) (classes : BitVec 16) (paths : BitVec 6) (k : FenceKind)
  | bar (b : BitVec 3)
  | csig (c : CsigCode) (a : SReg)
  | cwait (c : CwaitCode) (a : SReg)
  | tchk (a : SReg) | tchkSp (a b : SReg) | tchkGl (a b : SReg)
  | popx (d : SReg) (r : ExcReg)
  | qput (c : Col) (a : SReg) | qpub (c : Col)
  | launch (d : SReg) (spc : Space) (a : SReg)
  | cancelLaunch (a : SReg) | cancelGraph (a : SReg) | cancelPhase (a : SReg) | cancelJob (a : SReg)
  | cntrd (d : SReg) (src : CntSrc)
  | csrr (d : SReg) (n : BitVec 12)
  | csrw (d : SReg) (n : BitVec 12) (a : SReg)
  | csrs (d : SReg) (n : BitVec 12) (a : SReg)
  | csrc (d : SReg) (n : BitVec 12) (a : SReg)
  | trap (code : BitVec 32) | ebrk (code : BitVec 32)
  | fuseReadWord (d a : SReg) | fuseReadIdentity (d a : SReg) | fuseReadLifecycle (d a : SReg)
  | kwipe (d a : SReg)
  -- acs (R157 to R168)
  | aadd (d a b : AReg) | asub (d a b : AReg) | ashl (d a b : AReg) | amul (d a b : AReg)
  | amov (d : AReg) (x : SReg) | aaddi (d a : AReg) (i : BitVec 28) | amovi (d : AReg) (i : BitVec 28)
  | amin (d a b : AReg)
  | pat (p : BitVec 3) (rows : BitVec 4) (rb : BitVec 4) (str : BitVec 19)
  | patld (p : BitVec 3) (x : AReg) (off : BitVec 27)
  | lq (q : BitVec 2) (p : BitVec 3) (x : AReg) (cls : BitVec 4) (off : BitVec 14) (inc : BitVec 13)
  | lqb (q : BitVec 2) (p : BitVec 3) (x : AReg) (cls : BitVec 4) (off : BitVec 14)
  | lqx (q : BitVec 2) (p : BitVec 3) (x : AReg) (cls : BitVec 4) (i : BitVec 2) (off : BitVec 12)
  | lqg (q : BitVec 2) (p : BitVec 3) (x : AReg) (cls : BitVec 4) (off : BitVec 14)
  | sq (q : BitVec 2) (p : BitVec 3) (x : AReg) (cls : BitVec 4) (off : BitVec 14) (inc : BitVec 13)
  | sqx (q : BitVec 2) (p : BitVec 3) (x : AReg) (cls : BitVec 4) (i : BitVec 2) (off : BitVec 12)
  | sqg (q : BitVec 2) (p : BitVec 3) (x : AReg) (cls : BitVec 4) (off : BitVec 14)
  | bfmt (bank : BitVec 4) (a : AReg)
  | radv (r : Ring) (n : BitVec 28)
  | qclr (w : Bool) (q : BitVec 2)
  -- vec: floating point (R182 to R187)
  | vadd (d : VDst) (a b : VSrc) (t : ElemTy) (m : Mask) | vsub (d : VDst) (a b : VSrc) (t : ElemTy) (m : Mask)
  | vmul (d : VDst) (a b : VSrc) (t : ElemTy) (m : Mask)
  | vfma (d : VDst) (a b c : VSrc) (t : ElemTy) (m : Mask) | vfms (d : VDst) (a b c : VSrc) (t : ElemTy) (m : Mask)
  | vfnma (d : VDst) (a b c : VSrc) (t : ElemTy) (m : Mask)
  | vdiv (d : VDst) (a b : VSrc) (t : ElemTy) (m : Mask) | vsqrt (d : VDst) (a : VSrc) (t : ElemTy) (m : Mask)
  | vmin (d : VDst) (a b : VSrc) (t : ElemTy) (m : Mask) | vmax (d : VDst) (a b : VSrc) (t : ElemTy) (m : Mask)
  | vabs (d : VDst) (a : VSrc) (t : ElemTy) (m : Mask) | vneg (d : VDst) (a : VSrc) (t : ElemTy) (m : Mask)
  | vcmp (p : FPred) (k : BitVec 3) (a b : VSrc) (t : ElemTy) (m : Mask)
  | vclass (k : BitVec 3) (a : VSrc) (set : BitVec 10) (t : ElemTy) (m : Mask)
  | vcvt (d : VDst) (a : VSrc) (dt st : ElemTy) (usrc udst : Bool) (m : Mask)
  | vrnd (d : VDst) (a : VSrc) (t : ElemTy) (m : Mask)
  | vsum (d : VDst) (a b : VSrc) (t : ElemTy) (m : Mask) | vmaxr (d : VDst) (a b : VSrc) (t : ElemTy) (m : Mask)
  | vminr (d : VDst) (a b : VSrc) (t : ElemTy) (m : Mask)
  | vdot (d : VDst) (a b c : VSrc) (t : ElemTy) (m : Mask)
  -- vec: integer (R188)
  | viadd (o : IOpt) (d : VDst) (a b : VSrc) (t : ElemTy) (m : Mask)
  | visub (o : IOpt) (d : VDst) (a b : VSrc) (t : ElemTy) (m : Mask)
  | vimul (d : VDst) (a b : VSrc) (t : ElemTy) (m : Mask)
  | vimulh (u : Bool) (d : VDst) (a b : VSrc) (t : ElemTy) (m : Mask)
  | vand (d : VDst) (a b : VSrc) (t : ElemTy) (m : Mask) | vor (d : VDst) (a b : VSrc) (t : ElemTy) (m : Mask)
  | vxor (d : VDst) (a b : VSrc) (t : ElemTy) (m : Mask) | vshl (d : VDst) (a b : VSrc) (t : ElemTy) (m : Mask)
  | vshr (d : VDst) (a b : VSrc) (t : ElemTy) (m : Mask) | vsar (d : VDst) (a b : VSrc) (t : ElemTy) (m : Mask)
  | vimin (u : Bool) (d : VDst) (a b : VSrc) (t : ElemTy) (m : Mask)
  | vimax (u : Bool) (d : VDst) (a b : VSrc) (t : ElemTy) (m : Mask)
  | viabsd (u : Bool) (d : VDst) (a b : VSrc) (t : ElemTy) (m : Mask)
  | vicmp (p : IPred) (k : BitVec 3) (a b : VSrc) (t : ElemTy) (m : Mask)
  -- vec: modular (R207 to R216)
  | vmmul (d : VDst) (a b : VSrc) (ms : BitVec 3) (t : ElemTy) (m : Mask)
  | vmadd (d : VDst) (a b : VSrc) (ms : BitVec 3) (t : ElemTy) (m : Mask)
  | vmsub (d : VDst) (a b : VSrc) (ms : BitVec 3) (t : ElemTy) (m : Mask)
  | vmmac (d : VDst) (a b : VSrc) (ms : BitVec 3) (t : ElemTy) (m : Mask)
  | vmred (r : RedMode) (d : VDst) (a : VSrc) (ms : BitVec 3) (t : ElemTy) (m : Mask)
  | vbfly (d : VDst) (a b : VSrc) (ms k : BitVec 3) (t : ElemTy) (m : Mask)
  | vibfly (d : VDst) (a b : VSrc) (ms k : BitVec 3) (t : ElemTy) (m : Mask)
  | vmset (ms : BitVec 3) (a : VSrc) (t : ElemTy) (m : Mask)
  -- vec: movement (R190 to R197)
  | vmov (d : VDst) (a : VSrc) (t : ElemTy) (m : Mask) | vbcast (d : VDst) (a : VSrc) (t : ElemTy) (m : Mask)
  | vtr (d : VDst) (a : VSrc) (t : ElemTy) (m : Mask)
  | vrot (d : VDst) (a : VSrc) (r : BitVec 7) (rows : Bool) (t : ElemTy) (m : Mask)
  | vcomp (d : VDst) (a : VSrc) (t : ElemTy) (m : Mask) | vexp (d : VDst) (a : VSrc) (t : ElemTy) (m : Mask)
  | vpart (d : VDst) (a : VSrc) (m : Mask)
  | vperm (p : PermMode) (d : VDst) (a : VSrc) (t : ElemTy) (m : Mask)
  | vshape (rows rowb : BitVec 5)
  | vext (d : VDst) (a : VSrc) (row : BitVec 4) (el : BitVec 7) (t : ElemTy) (m : Mask)
  | vins (d : VDst) (a : VSrc) (row : BitVec 4) (el : BitVec 7) (t : ElemTy) (m : Mask)
  -- vec: bits, tables, select and masks (R198 to R206)
  | vbnet (d : VDst) (a : VSrc) (p : BitVec 3) (t : ElemTy) (m : Mask)
  | vbnld (p : BitVec 3) (a : VSrc)
  | vpopc (d : VDst) (a : VSrc) (t : ElemTy) (m : Mask) | vclz (d : VDst) (a : VSrc) (t : ElemTy) (m : Mask)
  | vpack (d : VDst) (a : VSrc) (t : ElemTy) (m : Mask) | vunpk (d : VDst) (a : VSrc) (t : ElemTy) (m : Mask)
  | vtab (f : TabSel) (d : VDst) (a : VSrc) (t : ElemTy) (m : Mask)
  | vtabld (f : TabFn) (n : BitVec 2) (a b : VSrc)
  | vsel (d : VDst) (a b : VSrc) (t : ElemTy) (m : Mask)
  | kand (d a b : BitVec 3) (t : ElemTy) | kor (d a b : BitVec 3) (t : ElemTy) | knot (d a : BitVec 3) (t : ElemTy)
  | kmov (d : BitVec 3) (a : VSrc) (t : ElemTy)
  -- mat (R217)
  | mfmt (a : SReg) | mring (a b : SReg) | mnest (a b : SReg)
  | mgo (g : BitVec 5) | mgoQuad (g : BitVec 5)
  | mop (g : BitVec 5) (z : Bool) (ia ib : BitVec 4)
  | mzero (g : BitVec 5) (n : BitVec 5)
  | mdrain (g : BitVec 5) (a : SReg) (m : BitVec 5) (n : BitVec 4)
  | mdrainT (g : BitVec 5) (a b : SReg) (m : BitVec 5) (n : BitVec 4)
  | mdrainPeer (g : BitVec 5) (a : SReg) (m : BitVec 5) (n : BitVec 4) (seq : BitVec 12)
  | mplait (w : PlaitSel) (a : SReg)
  | mchk (a : SReg)
  | mpop (r : Ring) (n : BitVec 4)
  | minbox (g : BitVec 5) (a : SReg)
  -- cpy (R249)
  | cp (s d : SReg) (cls : BitVec 4) | cpWs (s d : SReg) (cls : BitVec 4)
  | cpCb (s : SReg) (slot : BitVec 3) (cls : BitVec 4)
  | cpd (s d e k : SReg) (cls : BitVec 4)
  | cpchk (s k : SReg)
  | cpfill (d v : SReg) (cls : BitVec 4)
  | cpres (s d x : SReg) (cls : BitVec 4)
  | cpxHost (a : SReg) (cls : BitVec 4) | cpxPeer (a : SReg) (cls : BitVec 4) | cpxColl (a : SReg) (cls : BitVec 4)
  -- channel words (R102, R326)
  | act (bg bk : BitVec 2) (row : BitVec 18)
  | rd (bg bk : BitVec 2) (col : BitVec 6) (core : BitVec 11) (granule : BitVec 16)
  | rdL2 (bg bk : BitVec 2) (col : BitVec 6) (alloc : Bool)
  | wr (bg bk : BitVec 2) (col : BitVec 6) (slot : BitVec 16)
  | pre (bg bk : BitVec 2) | refsb (bk : BitVec 2)
  | pass (n : BitVec 16)
  | mrw (mr : BitVec 4) (v : BitVec 8)
  -- the common group (R103)
  | loopf (src : LoopSrc) (bound len : BitVec 12)
  | loope (src : LoopSrc) (bound len : BitVec 12)
  | hoop (x : SReg) (u : BitVec 34)
  -- events of a team
  | alignmentPulse (g : Group) | hoopOverdue (g : Group)
  | registerWriteLands (w : RegWrite)
  | sliceLands (x : Slice)
  | queueEntryLands (q : BitVec 2) (entry : Nat) (v : VVal)
  | signalFire (e : SigEvent)
  | barrierCompletionObserved (b : BitVec 3) (gen : Nat)
  | linkIncrementArrives (j : BitVec 5) (n : Nat)
  | peerAddArrival (c : Contribution)
  | sectorLanding (x : Sector)
  | rdLanding (pc : Nat) (granule : Nat) (data : BitVec 256) (taint bad : Bool)
  | rdL2Fill (pc : Nat) (pa : Nat) (data : BitVec 256) (taint alloc bad : Bool)
  | demandRequest (pc : Nat) (k : DemandKind) (bank row : Nat)
  | stackTempCrossing (stack : Nat) (level : Nat)
  | scrubRow (pc bank row : Nat)
  | tlbMissWalk (job : Nat) (va : Nat) (write : Bool)
  -- freezes, stretches and power
  | freeze (g : Group)
  | emergencyFreezeRequest (c : Emergency)
  -- the dispatcher
  -- checking and repair, fabric
  | retirementDeadline (u : UnitId) | unitRetirement (u : UnitId)
  | fabricResponse (id : Nat) (epoch : Nat) (status : Nat) (data : List (BitVec 8))
  | linkFrame (x : LinkUnits)
  | peerInterruptFrame (job ord core : Nat)
  | hostMemoryAccess (pa : Nat) (len : Nat) (data : Option (List (BitVec 8)))
  | ptmSlew (t : Nat)
  -- management registers
  | versWrite (i : Nat) (v : Word) | rsvctlWrite (n : Nat) (v : Word) | jrootWrite (n : Nat) (v : Word)
  | winownWrite (p : Nat) (v : Word) | wingeoWrite (v : Word) | apctlWrite (die n : Nat) (v : Word)
  | xinvGo (v : Word)
  | qctlWrite (q : Nat) (v : Word) | submit (q : Nat) (v : Word) | hostint (q : Nat) (v : Word)
  | retreq (v : Word) | ksdataHighWrite (v : BitVec 32)
  | fwctlGo (v : Word) | attctlGo (v : Word) | keyctlGo (v : Word)
  | managementRegisterWrite (addr : Nat) (v : Word)
  | partnerAttach (port : Nat) (major : Nat) (minor : Nat) (codes : Nat)
  -- words with no operand, and events whose operands stand in the issue context (`cur`)
  | ret | eret | wfi | prea | ref | rdv | elas | nop
  | mchkResult | mgoActivation | stepStart | rowGroupComplete | rowGroupCommit | drainStart | borderRelease
  | peerAddApply | bodkinArbitration | cpdCheckDwordLands | copyChunk | copyPerforms | cpxComplete
  | demandServe | refreshOverdue | hotDebtTick | l2Scrub | timerInterruptPend | stretch | stretchEnd
  | powerCheck | emergencyClear | emergencyTimeout | hostQueueEntryNop | hostQueueEntryOpenGraph
  | hostQueueEntryAdd | dependencePoll | dispatchPlace | gangStart | launchComplete | eventRecordWrite
  | cancelCut | drainBegin | forcedSave | restore | reservationWindowStart | rimFailure | dieReset
  | fabricTimeout | traceSync | xinvComplete | dstopStop | dstopResume | ksdataLowRead | pwrstReqFull
  | pwrstReqRims | unlockDebug | advanceLifecycle | bringUp | powerOff | emptyRingFault
  | reservationWindowEnd | recordWalk | demandRefresh | headClassification
  deriving DecidableEq, Repr

/-- A whole word: its WAIT and SIGNAL fields and its instruction (R85). -/
structure Code where
  wait : Wait
  signal : Signal
  instr : Instr
  deriving DecidableEq, Repr

end Sys2Proof
end

