-- ==== Sys2Proof/WellFormed.lean ====
section
/-! DEFINITION. Which terms of `Code` are legal words of which column: the checks of R94 on the values of fields,
each beside the rule that makes it. A reserved code has no term at all, so it is refused by `Decode`. -/

namespace Sys2Proof

/-- The floating-point element types 0x0 to 0x5 (R13, R178). -/
def ElemTy.isFloat : ElemTy → Bool
  | .f64 | .f32 | .bf16 | .f16 | .e4m3 | .e5m2 => true
  | .e3m2 | .e2m3 | .q4 | .c4 | .i8 | .i16 | .i32 | .i64 | .r32 | .r64 => false

/-- The integer element types 0xA to 0xD (R13). -/
def ElemTy.isInt : ElemTy → Bool
  | .i8 | .i16 | .i32 | .i64 => true
  | .f64 | .f32 | .bf16 | .f16 | .e4m3 | .e5m2 | .e3m2 | .e2m3 | .q4 | .c4 | .r32 | .r64 => false

/-- The residue types 0xE and 0xF (R13, R40). -/
def ElemTy.isRes : ElemTy → Bool
  | .r32 | .r64 => true
  | .f64 | .f32 | .bf16 | .f16 | .e4m3 | .e5m2 | .e3m2 | .e2m3 | .q4 | .c4 | .i8 | .i16 | .i32 | .i64 => false

/-- The sub-byte types 0x6 to 0x9 (R14). -/
def ElemTy.isSub : ElemTy → Bool
  | .e3m2 | .e2m3 | .q4 | .c4 => true
  | .f64 | .f32 | .bf16 | .f16 | .e4m3 | .e5m2 | .i8 | .i16 | .i32 | .i64 | .r32 | .r64 => false

/-- The types that movement, bit, select and mask words accept (R178). -/
def ElemTy.isMove (t : ElemTy) : Bool := !t.isSub

/-- The width in bits of an element of a type (R13). -/
def ElemTy.width : ElemTy → Nat
  | .f64 | .i64 | .r64 => 64
  | .f32 | .i32 | .r32 => 32
  | .bf16 | .f16 | .i16 => 16
  | .e4m3 | .e5m2 | .i8 => 8
  | .e3m2 | .e2m3 => 6
  | .q4 | .c4 => 4

/-- The control register numbers of the CSR map (R82). -/
def csrListed (n : Nat) : Bool :=
  n ≤ 4 || (8 ≤ n && n ≤ 9) || (0x10 ≤ n && n ≤ 0x15) || (0x20 ≤ n && n ≤ 0x22) || n = 0x30 || n = 0x40 || n = 0x50 ||
  (0x100 ≤ n && n ≤ 0x10F) || (0x120 ≤ n && n ≤ 0x17F) || (0x180 ≤ n && n ≤ 0x187) ||
  (0x800 ≤ n && n ≤ 0x807) || n = 0x810

/-- A WAIT that a word of column c may carry (R89, R90). -/
def Wait.wf (c : Col) : Wait → Bool
  | .none => true
  | .idle n => n != 0
  | .tok src _ => c != .chn && src != .chn && src != c
  | .bar _ => true
  | .colIdle k => c != .chn && k != .chn
  | .flag _ | .cnt _ | .plait | .landed => c != .chn

/-- A SIGNAL that a word of column c may carry (R91). -/
def Signal.wf (c : Col) : Signal → Bool
  | .none => true
  | .tok dst _ => c != .chn && dst != .chn && dst != c
  | .bar _ => true
  | .clr _ | .link _ | .flag _ | .cnt _ => c != .chn

/-- The pairs of types that vcvt accepts (R186). -/
def cvtOk (dt st : ElemTy) (usrc udst : Bool) : Bool :=
  dt.isMove && st.isMove &&
  (if dt.isRes || st.isRes then dt = st || ((dt.isInt || st.isInt) && dt.width = st.width) else true) &&
  (!usrc || st.isInt) && (!udst || dt.isInt)

/-- The columns whose rings ctl appends to (R143, R147). -/
def Col.isFed : Col → Bool
  | .acs | .vec | .mat | .cpy => true
  | .ctl | .chn => false

/-- A loop word of column c (R103, R169). -/
def loopOk (c : Col) (src : LoopSrc) (len : BitVec 12) : Bool :=
  len != 0 && (c != .chn || match src with | .reg _ => false | .mbx _ | .imm => true)

/-- The field values that a form marks illegal (R94). A word with no such field is legal in its column.
(Log: 39 DEDUCED.) -/
def Instr.wf (c : Col) : Instr → Bool
  | .shli _ _ i | .shri _ _ i | .sari _ _ i => i.toNat < 64
  | .b k ra rb _ => k != .al || (ra == 0 && rb == 0)
  | .ld _ _ _ _ o _ _ => o = .plain || o = .acq
  | .st _ _ _ _ o _ _ => o = .plain || o = .rel
  | .amo _ _ _ e _ z _ _ | .cas _ _ _ e _ z _ => (e = .sp || e = .gl) && (z = .w || z = .d)
  | .csig k a => match k with | .clr _ | .flag _ => a == 0 | .link _ | .cnt _ => true
  | .cwait k a => match k with
    | .cnt _ => true
    | .colIdle c' => a == 0 && c' != .chn
    | .flag _ | .bar _ | .plait | .landed => a == 0
  | .qput k _ | .qpub k => k.isFed
  | .launch _ e _ => e = .sp || e = .gl
  | .cntrd _ s => match s with
    | .head k | .tail k | .put k => k.isFed
    | .launch | .graph | .phase | .job | .handle _ => true
  | .csrr _ n | .csrw _ n _ | .csrs _ n _ | .csrc _ n _ => csrListed n.toNat
  | .fuseReadIdentity _ _ | .fuseReadLifecycle _ _ => false
  | .radv _ n => 1 ≤ n.toNat && n.toNat ≤ 4095
  | .vadd _ _ _ t _ | .vsub _ _ _ t _ | .vmul _ _ _ t _ | .vfma _ _ _ _ t _ | .vfms _ _ _ _ t _
  | .vfnma _ _ _ _ t _ | .vdiv _ _ _ t _ | .vsqrt _ _ t _ | .vmin _ _ _ t _ | .vmax _ _ _ t _
  | .vabs _ _ t _ | .vneg _ _ t _ | .vcmp _ _ _ _ t _ | .vclass _ _ _ t _ | .vrnd _ _ t _ => t.isFloat
  | .vcvt _ _ td ts us ud _ => cvtOk td ts us ud
  | .vsum _ _ _ t _ | .vmaxr _ _ _ t _ | .vminr _ _ _ t _ | .vdot _ _ _ _ t _ => t.isFloat || t.isInt
  | .viadd _ _ _ _ t _ | .visub _ _ _ _ t _ | .vimul _ _ _ t _ | .vimulh _ _ _ _ t _ | .vand _ _ _ t _
  | .vor _ _ _ t _ | .vxor _ _ _ t _ | .vshl _ _ _ t _ | .vshr _ _ _ t _ | .vsar _ _ _ t _
  | .vimin _ _ _ _ t _ | .vimax _ _ _ _ t _ | .viabsd _ _ _ _ t _ | .vicmp _ _ _ _ t _ => t.isInt
  | .vmmul _ _ _ _ t _ | .vmadd _ _ _ _ t _ | .vmsub _ _ _ _ t _ | .vmred _ _ _ _ t _
  | .vbfly _ _ _ _ _ t _ | .vibfly _ _ _ _ _ t _ | .vmset _ _ t _ => t.isRes
  | .vmmac d _ _ _ t _ => t.isRes && (match d with | .w _ => false | .v _ | .o _ | .lat => true)
  | .vmov _ _ t _ | .vbcast _ _ t _ | .vtr _ _ t _ | .vrot _ _ _ _ t _ | .vexp _ _ t _ | .vperm _ _ _ t _
  | .vext _ _ _ _ t _ | .vins _ _ _ _ t _ | .vbnet _ _ _ t _ | .vpopc _ _ t _ | .vclz _ _ t _
  | .vsel _ _ _ t _ | .kand _ _ _ t | .kor _ _ _ t | .knot _ _ t | .kmov _ _ t => t.isMove
  | .vcomp d _ t _ => t.isMove && d != .lat
  | .vpart d _ _ => d != .lat
  | .vshape r rb => r.toNat ≤ 16 && rb.toNat ≤ 16
  | .vpack _ _ t _ | .vunpk _ _ t _ => t.isSub
  | .vtab _ _ _ t _ => t = .f32 || t = .bf16 || t = .f16
  | .mgo g | .mgoQuad g | .mop g _ _ _ | .mzero g _ | .mdrain g _ _ _ | .mdrainT g _ _ _ _
  | .mdrainPeer g _ _ _ _ | .minbox g _ => g.toNat < 24
  | .rd _ _ k _ _ | .rdL2 _ _ k _ => k.toNat < 32
  | .wr _ _ k s => k.toNat < 32 && s.toNat < 1024
  | .pass n => n != 0
  | .loopf s n l => loopOk c s l && n != 0
  | .loope s _ l => loopOk c s l && c != .chn
  | .elas => c != .chn
  | .hoop x u => c != .chn || (x == 0 && u == 0)
  | _ => true

/-- A legal word of column c (R94): its fields, its WAIT and SIGNAL, and bar's own limits (R138). -/
def Code.wf (c : Col) (x : Code) : Bool :=
  x.wait.wf c && x.signal.wf c && x.instr.wf c &&
  (match x.instr with
   | .bar b => (match x.signal with | .bar _ => false | _ => true) && x.wait != .bar b
   | _ => true)

end Sys2Proof
end

