-- ==== Sys2Proof/Decode.lean ====
section
/-! DEFINITION. From 64 bits to a word of a column and back (R85 to R104). `decode` reads every field, checks the
field values (R94) and then that no bit outside the fields is set, by encoding the word again: every must-be-zero bit
of a form is a bit that `encode` leaves 0. -/

namespace Sys2Proof

/-- Field of n bits at bit lo of w (R6). -/
def fb (w lo n : Nat) : BitVec n := BitVec.ofNat n (w / 2 ^ lo)

/-- The number x placed at bit lo. -/
def sh (x lo : Nat) : Nat := x * 2 ^ lo

/-! ## Codes of the enumerated fields -/

/-- Column codes (R60); 5 stands for the channel sequencer, which no field names. -/
def Col.code : Col → Nat
  | .ctl => 0
  | .acs => 1
  | .vec => 2
  | .mat => 3
  | .cpy => 4
  | .chn => 5

/-- The Col of a code, if it has one. -/
def Col.ofCode : Nat → Option Col
  | 0 => some .ctl
  | 1 => some .acs
  | 2 => some .vec
  | 3 => some .mat
  | 4 => some .cpy
  | 5 => some .chn
  | _ => none

/-- Conditions of CB (R97). -/
def Cond.code : Cond → Nat
  | .eq => 0
  | .ne => 1
  | .lt => 2
  | .ge => 3
  | .ltu => 4
  | .geu => 5
  | .al => 6

/-- The Cond of a code, if it has one. -/
def Cond.ofCode : Nat → Option Cond
  | 0 => some .eq
  | 1 => some .ne
  | 2 => some .lt
  | 3 => some .ge
  | 4 => some .ltu
  | 5 => some .geu
  | 6 => some .al
  | _ => none

/-- Spaces of CM (R97). -/
def Space.code : Space → Nat
  | .sp => 0
  | .gl => 1
  | .hp => 2
  | .ap => 3

/-- The Space of a code, if it has one. -/
def Space.ofCode : Nat → Option Space
  | 0 => some .sp
  | 1 => some .gl
  | 2 => some .hp
  | 3 => some .ap
  | _ => none

/-- Orders of CM (R97). -/
def Order.code : Order → Nat
  | .plain => 0
  | .acq => 1
  | .rel => 2
  | .ar => 3

/-- The Order of a code, if it has one. -/
def Order.ofCode : Nat → Option Order
  | 0 => some .plain
  | 1 => some .acq
  | 2 => some .rel
  | 3 => some .ar
  | _ => none

/-- Sizes of CM (R97). -/
def Size.code : Size → Nat
  | .b => 0
  | .h => 1
  | .w => 2
  | .d => 3
  | .nib => 4
  | .crm => 5

/-- The Size of a code, if it has one. -/
def Size.ofCode : Nat → Option Size
  | 0 => some .b
  | 1 => some .h
  | 2 => some .w
  | 3 => some .d
  | 4 => some .nib
  | 5 => some .crm
  | _ => none

/-- Operations of amo (R129). -/
def AmoOp.code : AmoOp → Nat
  | .swap => 0
  | .add => 1
  | .and => 2
  | .or => 3
  | .xor => 4
  | .min => 5
  | .max => 6
  | .minu => 7
  | .maxu => 8

/-- The AmoOp of a code, if it has one. -/
def AmoOp.ofCode : Nat → Option AmoOp
  | 0 => some .swap
  | 1 => some .add
  | 2 => some .and
  | 3 => some .or
  | 4 => some .xor
  | 5 => some .min
  | 6 => some .max
  | 7 => some .minu
  | 8 => some .maxu
  | _ => none

/-- Agent scopes of fence (R136). -/
def Scope.code : Scope → Nat
  | .stream => 0
  | .team => 1
  | .die => 2
  | .pkg => 3
  | .sys => 4

/-- The Scope of a code, if it has one. -/
def Scope.ofCode : Nat → Option Scope
  | 0 => some .stream
  | 1 => some .team
  | 2 => some .die
  | 3 => some .pkg
  | 4 => some .sys
  | _ => none

/-- Kinds of fence (R136). -/
def FenceKind.code : FenceKind → Nat
  | .full => 0
  | .acq => 1
  | .rel => 2

/-- The FenceKind of a code, if it has one. -/
def FenceKind.ofCode : Nat → Option FenceKind
  | 0 => some .full
  | 1 => some .acq
  | 2 => some .rel
  | _ => none

/-- Registers of popx (R142). -/
def ExcReg.code : ExcReg → Nat
  | .vexc => 0
  | .mexc => 1
  | .cexc => 2

/-- The ExcReg of a code, if it has one. -/
def ExcReg.ofCode : Nat → Option ExcReg
  | 0 => some .vexc
  | 1 => some .mexc
  | 2 => some .cexc
  | _ => none

/-- Element type codes (R13). -/
def ElemTy.code : ElemTy → Nat
  | .f64 => 0
  | .f32 => 1
  | .bf16 => 2
  | .f16 => 3
  | .e4m3 => 4
  | .e5m2 => 5
  | .e3m2 => 6
  | .e2m3 => 7
  | .q4 => 8
  | .c4 => 9
  | .i8 => 10
  | .i16 => 11
  | .i32 => 12
  | .i64 => 13
  | .r32 => 14
  | .r64 => 15

/-- The ElemTy of a code, if it has one. -/
def ElemTy.ofCode : Nat → Option ElemTy
  | 0 => some .f64
  | 1 => some .f32
  | 2 => some .bf16
  | 3 => some .f16
  | 4 => some .e4m3
  | 5 => some .e5m2
  | 6 => some .e3m2
  | 7 => some .e2m3
  | 8 => some .q4
  | 9 => some .c4
  | 10 => some .i8
  | 11 => some .i16
  | 12 => some .i32
  | 13 => some .i64
  | 14 => some .r32
  | 15 => some .r64
  | _ => none

/-- Overflow options of viadd and visub (R188). -/
def IOpt.code : IOpt → Nat
  | .wrap => 0
  | .ss => 1
  | .us => 2

/-- The IOpt of a code, if it has one. -/
def IOpt.ofCode : Nat → Option IOpt
  | 0 => some .wrap
  | 1 => some .ss
  | 2 => some .us
  | _ => none

/-- Predicates of vcmp (R184). -/
def FPred.code : FPred → Nat
  | .eq => 0
  | .ne => 1
  | .lt => 2
  | .le => 3
  | .gt => 4
  | .ge => 5
  | .un => 6
  | .ord => 7

/-- The FPred of a code, if it has one. -/
def FPred.ofCode : Nat → Option FPred
  | 0 => some .eq
  | 1 => some .ne
  | 2 => some .lt
  | 3 => some .le
  | 4 => some .gt
  | 5 => some .ge
  | 6 => some .un
  | 7 => some .ord
  | _ => none

/-- Predicates of vicmp (R184). -/
def IPred.code : IPred → Nat
  | .eq => 0
  | .ne => 1
  | .lt => 2
  | .le => 3
  | .gt => 4
  | .ge => 5
  | .ltu => 6
  | .leu => 7
  | .gtu => 8
  | .geu => 9

/-- The IPred of a code, if it has one. -/
def IPred.ofCode : Nat → Option IPred
  | 0 => some .eq
  | 1 => some .ne
  | 2 => some .lt
  | 3 => some .le
  | 4 => some .gt
  | 5 => some .ge
  | 6 => some .ltu
  | 7 => some .leu
  | 8 => some .gtu
  | 9 => some .geu
  | _ => none

/-- Functions of vtab (R203). -/
def TabFn.code : TabFn → Nat
  | .exp2 => 0
  | .log2 => 1
  | .rcp => 2
  | .rsqrt => 3
  | .sinpi => 4
  | .cospi => 5
  | .tanh => 6
  | .sigmoid => 7
  | .erf => 8
  | .gelu => 9
  | .silu => 10

/-- The TabFn of a code, if it has one. -/
def TabFn.ofCode : Nat → Option TabFn
  | 0 => some .exp2
  | 1 => some .log2
  | 2 => some .rcp
  | 3 => some .rsqrt
  | 4 => some .sinpi
  | 5 => some .cospi
  | 6 => some .tanh
  | 7 => some .sigmoid
  | 8 => some .erf
  | 9 => some .gelu
  | 10 => some .silu
  | _ => none

/-- Rings of radv and mpop (R98, R217). -/
def Ring.code : Ring → Nat
  | .a => 0
  | .b => 1

/-- The Ring of a code, if it has one. -/
def Ring.ofCode : Nat → Option Ring
  | 0 => some .a
  | 1 => some .b
  | _ => none

/-- Plaits of mplait (R217). -/
def PlaitSel.code : PlaitSel → Nat
  | .drain => 0
  | .transposed => 1
  | .checkpoint => 2

/-- The PlaitSel of a code, if it has one. -/
def PlaitSel.ofCode : Nat → Option PlaitSel
  | 0 => some .drain
  | 1 => some .transposed
  | 2 => some .checkpoint
  | _ => none

/-- A truth value as one bit. -/
def boolCode (b : Bool) : Nat := if b then 1 else 0

/-- The column that a token, ring or idle code names: 0 to 4 (R60, R89). -/
def Col.ofToken (n : Nat) : Option Col := if n < 5 then Col.ofCode n else none

/-- The WAIT byte (R89). -/
def Wait.code : Wait → Nat
  | .none => 0
  | .idle n => n.toNat
  | .tok c n => 0x80 + n.toNat * 8 + c.code
  | .flag f => 0xA0 + f.toNat
  | .cnt j => 0xC0 + j.toNat
  | .bar b => 0xE0 + b.toNat
  | .colIdle c => 0xE8 + c.code
  | .plait => 0xED
  | .landed => 0xEE

/-- The WAIT of a byte; 0xEF to 0xFF and token sources 5 to 7 are reserved (R89). -/
def Wait.ofCode (n : Nat) : Option Wait :=
  if n = 0 then some .none
  else if n < 0x80 then some (.idle (fb n 0 7))
  else if n < 0xA0 then (Col.ofToken (n % 8)).map fun c => .tok c (fb n 3 2)
  else if n < 0xC0 then some (.flag (fb n 0 5))
  else if n < 0xE0 then some (.cnt (fb n 0 5))
  else if n < 0xE8 then some (.bar (fb n 0 3))
  else if n < 0xED then (Col.ofToken (n - 0xE8)).map .colIdle
  else if n = 0xED then some .plait
  else if n = 0xEE then some .landed
  else Option.none

/-- The SIGNAL byte (R91). -/
def Signal.code : Signal → Nat
  | .none => 0
  | .clr f => 0x20 + f.toNat
  | .link j => 0x40 + j.toNat
  | .tok c n => 0x80 + n.toNat * 8 + c.code
  | .flag f => 0xA0 + f.toNat
  | .cnt j => 0xC0 + j.toNat
  | .bar b => 0xE0 + b.toNat

/-- The SIGNAL of a byte; 0x01 to 0x1F, 0x60 to 0x7F and 0xE8 to 0xFF are reserved (R91). -/
def Signal.ofCode (n : Nat) : Option Signal :=
  if n = 0 then some .none
  else if n < 0x20 then Option.none
  else if n < 0x40 then some (.clr (fb n 0 5))
  else if n < 0x60 then some (.link (fb n 0 5))
  else if n < 0x80 then Option.none
  else if n < 0xA0 then (Col.ofToken (n % 8)).map fun c => .tok c (fb n 3 2)
  else if n < 0xC0 then some (.flag (fb n 0 5))
  else if n < 0xE0 then some (.cnt (fb n 0 5))
  else if n < 0xE8 then some (.bar (fb n 0 3))
  else Option.none

/-- The signal code of csig (R139). -/
def CsigCode.code : CsigCode → Nat
  | .clr f => 0x20 + f.toNat
  | .link j => 0x40 + j.toNat
  | .flag f => 0xA0 + f.toNat
  | .cnt j => 0xC0 + j.toNat

/-- The csig event of a code; any other code is an illegal word (R139). -/
def CsigCode.ofCode (n : Nat) : Option CsigCode :=
  if n < 0x20 then none
  else if n < 0x40 then some (.clr (fb n 0 5))
  else if n < 0x60 then some (.link (fb n 0 5))
  else if n < 0xA0 then none
  else if n < 0xC0 then some (.flag (fb n 0 5))
  else if n < 0xE0 then some (.cnt (fb n 0 5))
  else none

/-- The wait code of cwait (R140). -/
def CwaitCode.code : CwaitCode → Nat
  | .flag f => 0xA0 + f.toNat
  | .cnt j => 0xC0 + j.toNat
  | .bar b => 0xE0 + b.toNat
  | .colIdle c => 0xE8 + c.code
  | .plait => 0xED
  | .landed => 0xEE

/-- The condition of a cwait code; any other code is an illegal word (R140). -/
def CwaitCode.ofCode (n : Nat) : Option CwaitCode :=
  if n < 0xA0 then none
  else if n < 0xC0 then some (.flag (fb n 0 5))
  else if n < 0xE0 then some (.cnt (fb n 0 5))
  else if n < 0xE8 then some (.bar (fb n 0 3))
  else if n < 0xED then (Col.ofToken (n - 0xE8)).map .colIdle
  else if n = 0xED then some .plait
  else if n = 0xEE then some .landed
  else none

/-- A source selector (R66). -/
def VSrc.code : VSrc → Nat
  | .v r => r.toNat
  | .o r => 0x40 + r.toNat
  | .q r => 0x48 + r.toNat
  | .lat => 0x50
  | .s r => 0x80 + r.toNat
  | .imm k => 0xC0 + k.toNat

/-- The source of a selector; destinations and reserved selectors have none (R66). -/
def VSrc.ofCode (n : Nat) : Option VSrc :=
  if n < 0x40 then some (.v (fb n 0 6))
  else if n < 0x48 then some (.o (fb n 0 3))
  else if n < 0x4C then some (.q (fb n 0 2))
  else if n = 0x50 then some .lat
  else if n < 0x80 then none
  else if n < 0xC0 then some (.s (fb n 0 6))
  else if n < 0xE0 then some (.imm (fb n 0 5))
  else none

/-- A destination selector (R66). -/
def VDst.code : VDst → Nat
  | .v r => r.toNat
  | .o r => 0x40 + r.toNat
  | .w r => 0x4C + r.toNat
  | .lat => 0x50

/-- The destination of a selector; sources and reserved selectors have none (R66). -/
def VDst.ofCode (n : Nat) : Option VDst :=
  if n < 0x40 then some (.v (fb n 0 6))
  else if n < 0x48 then some (.o (fb n 0 3))
  else if n < 0x4C then none
  else if n < 0x50 then some (.w (fb n 0 2))
  else if n = 0x50 then some .lat
  else none

/-- A mask number field of 8 bits: 8 to 255 are illegal (R184, R206). -/
def maskOf (n : Nat) : Option (BitVec 3) := if n < 8 then some (fb n 0 3) else none

/-- An 8-bit field that names one of four table slots (R204). -/
def slotOf (n : Nat) : Option (BitVec 2) := if n < 4 then some (fb n 0 2) else none

/-- The low byte of VA and VI: type, mask and invert (R99). -/
def tailOf (t : ElemTy) (m : Mask) : Nat := sh t.code 4 + sh m.k.toNat 1 + boolCode m.inv

/-- The mask of a VA or VI word (R99). -/
def maskField (w : Nat) : Mask := ⟨fb w 1 3, w % 2 = 1⟩

/-- The plain mask k0 with no inversion, which a zero field names (R69). -/
def mask0 : Mask := ⟨0, false⟩

/-- The count source fields [39:32] of a loop word (R103). -/
def LoopSrc.code : LoopSrc → Nat
  | .reg r => sh r.toNat 2
  | .mbx m => sh m.toNat 2 + 1
  | .imm => 2

/-- The count source; mailboxes 16 to 63 and source 3 are illegal, and an immediate names no register (R103). -/
def LoopSrc.ofCode (n : Nat) : Option LoopSrc :=
  if n % 4 = 0 then some (.reg (fb n 2 6))
  else if n % 4 = 1 then (if n / 4 < 16 then some (.mbx (fb n 2 4)) else none)
  else if n = 2 then some .imm
  else none

/-- The cntrd source fields [31:0] (R135, R147). -/
def CntSrc.code : CntSrc → Nat
  | .head c => c.code
  | .tail c => sh 1 28 + c.code
  | .put c => sh 2 28 + c.code
  | .launch => sh 3 28
  | .graph => sh 4 28
  | .phase => sh 5 28
  | .job => sh 6 28
  | .handle a => sh 7 28 + sh a.toNat 22

/-- The cntrd source (R147). -/
def CntSrc.ofCode (n : Nat) : Option CntSrc :=
  match fld n 28 4 with
  | 0 => (Col.ofToken (fld n 0 3)).map .head
  | 1 => (Col.ofToken (fld n 0 3)).map .tail
  | 2 => (Col.ofToken (fld n 0 3)).map .put
  | 3 => some .launch
  | 4 => some .graph
  | 5 => some .phase
  | 6 => some .job
  | 7 => some (.handle (fb n 22 6))
  | _ => none

/-- The option byte of vmred: mode in [7:6] (R208). -/
def RedMode.code : RedMode → Nat
  | .u => 0
  | .s => 1
  | .w _ => 2
  | .sw _ => 3

/-- The b field of vmred (R213). -/
def RedMode.bField : RedMode → Nat
  | .u | .s => 0
  | .w x | .sw x => x.code

/-- The mode of vmred from its mode and b fields (R213). -/
def RedMode.ofCode (m n : Nat) : Option RedMode :=
  match m with
  | 0 => some .u
  | 1 => some .s
  | 2 => (VSrc.ofCode n).map .w
  | 3 => (VSrc.ofCode n).map .sw
  | _ => none

/-- The fields [23:8] of vperm: b selector, mode and k (R194). -/
def PermMode.code : PermMode → Nat
  | .idx x => sh x.code 8
  | .stride k => sh 1 4 + k.toNat
  | .unstride k => sh 2 4 + k.toNat
  | .brev => sh 3 4

/-- The mode of vperm; modes 4 to 15 are illegal (R194). -/
def PermMode.ofCode (n : Nat) : Option PermMode :=
  match fld n 4 4 with
  | 0 => (VSrc.ofCode (fld n 8 8)).map .idx
  | 1 => some (.stride (fb n 0 3))
  | 2 => some (.unstride (fb n 0 3))
  | 3 => some .brev
  | _ => none

/-- The fields [15:8] of vtab (R203). -/
def TabSel.code : TabSel → Nat
  | .fn f => f.code
  | .slot n => sh n.toNat 6 + sh 1 5

/-- The table that vtab names (R203). -/
def TabSel.ofCode (n : Nat) : Option TabSel :=
  if n / 32 % 2 = 1 then some (.slot (fb n 6 2)) else (TabFn.ofCode (n % 16)).map .fn

/-! ## The encoder -/

/-- The column whose opcode a word has: none stands for the common group, and an event has no word (R104). -/
inductive WordCol where
  | one (c : Col)
  | any
  deriving DecidableEq, Repr

/-- Column, OPC and body of a word, from the forms R97 to R103 and the opcode map R104; an event has none. -/
def Instr.fields : Instr → Option (WordCol × Nat × Nat)
  | .add x_d x_a x_b => some (.one .ctl, 0x00, sh x_d.toNat 34 + sh x_a.toNat 28 + sh x_b.toNat 22)
  | .sub x_d x_a x_b => some (.one .ctl, 0x01, sh x_d.toNat 34 + sh x_a.toNat 28 + sh x_b.toNat 22)
  | .and x_d x_a x_b => some (.one .ctl, 0x02, sh x_d.toNat 34 + sh x_a.toNat 28 + sh x_b.toNat 22)
  | .or x_d x_a x_b => some (.one .ctl, 0x03, sh x_d.toNat 34 + sh x_a.toNat 28 + sh x_b.toNat 22)
  | .xor x_d x_a x_b => some (.one .ctl, 0x04, sh x_d.toNat 34 + sh x_a.toNat 28 + sh x_b.toNat 22)
  | .andn x_d x_a x_b => some (.one .ctl, 0x05, sh x_d.toNat 34 + sh x_a.toNat 28 + sh x_b.toNat 22)
  | .shl x_d x_a x_b => some (.one .ctl, 0x06, sh x_d.toNat 34 + sh x_a.toNat 28 + sh x_b.toNat 22)
  | .shr x_d x_a x_b => some (.one .ctl, 0x07, sh x_d.toNat 34 + sh x_a.toNat 28 + sh x_b.toNat 22)
  | .sar x_d x_a x_b => some (.one .ctl, 0x08, sh x_d.toNat 34 + sh x_a.toNat 28 + sh x_b.toNat 22)
  | .mul x_d x_a x_b => some (.one .ctl, 0x09, sh x_d.toNat 34 + sh x_a.toNat 28 + sh x_b.toNat 22)
  | .mulh x_d x_a x_b => some (.one .ctl, 0x0A, sh x_d.toNat 34 + sh x_a.toNat 28 + sh x_b.toNat 22)
  | .mulhu x_d x_a x_b => some (.one .ctl, 0x0B, sh x_d.toNat 34 + sh x_a.toNat 28 + sh x_b.toNat 22)
  | .div x_d x_a x_b => some (.one .ctl, 0x0C, sh x_d.toNat 34 + sh x_a.toNat 28 + sh x_b.toNat 22)
  | .divu x_d x_a x_b => some (.one .ctl, 0x0D, sh x_d.toNat 34 + sh x_a.toNat 28 + sh x_b.toNat 22)
  | .rem x_d x_a x_b => some (.one .ctl, 0x0E, sh x_d.toNat 34 + sh x_a.toNat 28 + sh x_b.toNat 22)
  | .remu x_d x_a x_b => some (.one .ctl, 0x0F, sh x_d.toNat 34 + sh x_a.toNat 28 + sh x_b.toNat 22)
  | .min x_d x_a x_b => some (.one .ctl, 0x10, sh x_d.toNat 34 + sh x_a.toNat 28 + sh x_b.toNat 22)
  | .max x_d x_a x_b => some (.one .ctl, 0x11, sh x_d.toNat 34 + sh x_a.toNat 28 + sh x_b.toNat 22)
  | .minu x_d x_a x_b => some (.one .ctl, 0x12, sh x_d.toNat 34 + sh x_a.toNat 28 + sh x_b.toNat 22)
  | .maxu x_d x_a x_b => some (.one .ctl, 0x13, sh x_d.toNat 34 + sh x_a.toNat 28 + sh x_b.toNat 22)
  | .slt x_d x_a x_b => some (.one .ctl, 0x14, sh x_d.toNat 34 + sh x_a.toNat 28 + sh x_b.toNat 22)
  | .sltu x_d x_a x_b => some (.one .ctl, 0x15, sh x_d.toNat 34 + sh x_a.toNat 28 + sh x_b.toNat 22)
  | .seq x_d x_a x_b => some (.one .ctl, 0x16, sh x_d.toNat 34 + sh x_a.toNat 28 + sh x_b.toNat 22)
  | .clz x_d x_a => some (.one .ctl, 0x17, sh x_d.toNat 34 + sh x_a.toNat 28)
  | .ctz x_d x_a => some (.one .ctl, 0x18, sh x_d.toNat 34 + sh x_a.toNat 28)
  | .popc x_d x_a => some (.one .ctl, 0x19, sh x_d.toNat 34 + sh x_a.toNat 28)
  | .bswap x_d x_a => some (.one .ctl, 0x1A, sh x_d.toNat 34 + sh x_a.toNat 28)
  | .sel x_d x_a x_b => some (.one .ctl, 0x1B, sh x_d.toNat 34 + sh x_a.toNat 28 + sh x_b.toNat 22)
  | .addi x_d x_a x_i => some (.one .ctl, 0x20, sh x_d.toNat 34 + sh x_a.toNat 28 + sh x_i.toNat 0)
  | .andi x_d x_a x_i => some (.one .ctl, 0x21, sh x_d.toNat 34 + sh x_a.toNat 28 + sh x_i.toNat 0)
  | .ori x_d x_a x_i => some (.one .ctl, 0x22, sh x_d.toNat 34 + sh x_a.toNat 28 + sh x_i.toNat 0)
  | .xori x_d x_a x_i => some (.one .ctl, 0x23, sh x_d.toNat 34 + sh x_a.toNat 28 + sh x_i.toNat 0)
  | .shli x_d x_a x_i => some (.one .ctl, 0x24, sh x_d.toNat 34 + sh x_a.toNat 28 + sh x_i.toNat 0)
  | .shri x_d x_a x_i => some (.one .ctl, 0x25, sh x_d.toNat 34 + sh x_a.toNat 28 + sh x_i.toNat 0)
  | .sari x_d x_a x_i => some (.one .ctl, 0x26, sh x_d.toNat 34 + sh x_a.toNat 28 + sh x_i.toNat 0)
  | .slti x_d x_a x_i => some (.one .ctl, 0x27, sh x_d.toNat 34 + sh x_a.toNat 28 + sh x_i.toNat 0)
  | .sltiu x_d x_a x_i => some (.one .ctl, 0x28, sh x_d.toNat 34 + sh x_a.toNat 28 + sh x_i.toNat 0)
  | .lui x_d x_a x_i => some (.one .ctl, 0x29, sh x_d.toNat 34 + sh x_a.toNat 28 + sh x_i.toNat 0)
  | .muli x_d x_a x_i => some (.one .ctl, 0x2A, sh x_d.toNat 34 + sh x_a.toNat 28 + sh x_i.toNat 0)
  | .b x_k x_a x_b x_off => some (.one .ctl, 0x30, sh x_k.code 36 + sh x_a.toNat 28 + sh x_b.toNat 22 + sh x_off.toNat 0)
  | .jmp x_off => some (.one .ctl, 0x31, sh x_off.toNat 0)
  | .call x_off => some (.one .ctl, 0x32, sh x_off.toNat 0)
  | .callr x_a => some (.one .ctl, 0x33, sh x_a.toNat 28)
  | .ret => some (.one .ctl, 0x34, 0)
  | .jr x_a => some (.one .ctl, 0x35, sh x_a.toNat 28)
  | .ld x_d x_base x_cls x_e x_o x_z x_off => some (.one .ctl, 0x40, sh x_d.toNat 34 + sh x_base.toNat 28 + sh x_cls.toNat 24 + sh x_e.code 22 + sh x_o.code 20 + sh x_z.code 17 + sh x_off.toNat 0)
  | .st x_d x_base x_cls x_e x_o x_z x_off => some (.one .ctl, 0x41, sh x_d.toNat 34 + sh x_base.toNat 28 + sh x_cls.toNat 24 + sh x_e.code 22 + sh x_o.code 20 + sh x_z.code 17 + sh x_off.toNat 0)
  | .amo x_d x_base x_cls x_e x_o x_z x_x x_op => some (.one .ctl, 0x42, sh x_d.toNat 34 + sh x_base.toNat 28 + sh x_cls.toNat 24 + sh x_e.code 22 + sh x_o.code 20 + sh x_z.code 17 + sh x_x.toNat 11 + sh x_op.code 7)
  | .cas x_d x_base x_cls x_e x_o x_z x_x => some (.one .ctl, 0x43, sh x_d.toNat 34 + sh x_base.toNat 28 + sh x_cls.toNat 24 + sh x_e.code 22 + sh x_o.code 20 + sh x_z.code 17 + sh x_x.toNat 11)
  | .pref x_base x_cls x_off => some (.one .ctl, 0x44, sh 1 22 + sh x_base.toNat 28 + sh x_cls.toNat 24 + sh x_off.toNat 0)
  | .cboClean x_base x_cls x_off => some (.one .ctl, 0x45, sh 1 22 + sh x_base.toNat 28 + sh x_cls.toNat 24 + sh x_off.toNat 0)
  | .cboFlush x_base x_cls x_off => some (.one .ctl, 0x45, sh 1 34 + sh 1 22 + sh x_base.toNat 28 + sh x_cls.toNat 24 + sh x_off.toNat 0)
  | .ways x_d x_a => some (.one .ctl, 0x46, sh x_d.toNat 34 + sh x_a.toNat 28)
  | .fence x_sc x_stor x_classes x_paths x_k => some (.one .ctl, 0x50, sh x_sc.code 37 + sh x_stor.toNat 33 + sh x_classes.toNat 16 + sh x_paths.toNat 10 + sh x_k.code 8)
  | .bar x_x => some (.one .ctl, 0x51, sh x_x.toNat 32)
  | .csig x_k x_a => some (.one .ctl, 0x52, sh x_k.code 32 + sh x_a.toNat 26)
  | .cwait x_k x_a => some (.one .ctl, 0x53, sh x_k.code 32 + sh x_a.toNat 26)
  | .tchk x_a => some (.one .ctl, 0x54, sh x_a.toNat 26)
  | .tchkSp x_a x_b => some (.one .ctl, 0x54, sh 1 32 + sh x_a.toNat 26 + sh x_b.toNat 20)
  | .tchkGl x_a x_b => some (.one .ctl, 0x54, sh 2 32 + sh x_a.toNat 26 + sh x_b.toNat 20)
  | .popx x_d x_r => some (.one .ctl, 0x55, sh x_d.toNat 34 + sh x_r.code 32)
  | .qput x_k x_a => some (.one .ctl, 0x60, sh x_k.code 37 + sh x_a.toNat 26)
  | .qpub x_k => some (.one .ctl, 0x61, sh x_k.code 37)
  | .launch x_d x_e x_a => some (.one .ctl, 0x62, sh x_d.toNat 34 + sh x_e.code 32 + sh x_a.toNat 26)
  | .cancelLaunch x_a => some (.one .ctl, 0x63, sh x_a.toNat 26)
  | .cancelGraph x_a => some (.one .ctl, 0x63, sh 1 32 + sh x_a.toNat 26)
  | .cancelPhase x_a => some (.one .ctl, 0x63, sh 2 32 + sh x_a.toNat 26)
  | .cancelJob x_a => some (.one .ctl, 0x63, sh 3 32 + sh x_a.toNat 26)
  | .cntrd x_d x_k => some (.one .ctl, 0x64, sh x_d.toNat 34 + sh x_k.code 0)
  | .csrr x_d x_n => some (.one .ctl, 0x70, sh x_d.toNat 34 + sh x_n.toNat 20)
  | .csrw x_d x_n x_a => some (.one .ctl, 0x71, sh x_d.toNat 34 + sh x_n.toNat 20 + sh x_a.toNat 14)
  | .csrs x_d x_n x_a => some (.one .ctl, 0x72, sh x_d.toNat 34 + sh x_n.toNat 20 + sh x_a.toNat 14)
  | .csrc x_d x_n x_a => some (.one .ctl, 0x73, sh x_d.toNat 34 + sh x_n.toNat 20 + sh x_a.toNat 14)
  | .trap x_n => some (.one .ctl, 0x74, sh x_n.toNat 0)
  | .eret => some (.one .ctl, 0x75, 0)
  | .wfi => some (.one .ctl, 0x76, 0)
  | .ebrk x_n => some (.one .ctl, 0x77, sh x_n.toNat 0)
  | .fuseReadWord x_d x_a => some (.one .ctl, 0x78, sh x_d.toNat 34 + sh x_a.toNat 26)
  | .kwipe x_d x_a => some (.one .ctl, 0x79, sh x_d.toNat 34 + sh x_a.toNat 26)
  | .aadd x_d x_a x_b => some (.one .acs, 0x00, sh x_d.toNat 36 + sh x_a.toNat 32 + sh x_b.toNat 28)
  | .asub x_d x_a x_b => some (.one .acs, 0x01, sh x_d.toNat 36 + sh x_a.toNat 32 + sh x_b.toNat 28)
  | .ashl x_d x_a x_b => some (.one .acs, 0x02, sh x_d.toNat 36 + sh x_a.toNat 32 + sh x_b.toNat 28)
  | .amul x_d x_a x_b => some (.one .acs, 0x03, sh x_d.toNat 36 + sh x_a.toNat 32 + sh x_b.toNat 28)
  | .amov x_d x_x => some (.one .acs, 0x04, sh x_d.toNat 36 + sh x_x.toNat 22)
  | .aaddi x_d x_a x_i => some (.one .acs, 0x05, sh x_d.toNat 36 + sh x_a.toNat 32 + sh x_i.toNat 0)
  | .amovi x_d x_i => some (.one .acs, 0x06, sh x_d.toNat 36 + sh x_i.toNat 0)
  | .amin x_d x_a x_b => some (.one .acs, 0x07, sh x_d.toNat 36 + sh x_a.toNat 32 + sh x_b.toNat 28)
  | .lq x_q x_p x_x x_cls x_off x_inc => some (.one .acs, 0x10, sh x_q.toNat 38 + sh x_p.toNat 35 + sh x_x.toNat 31 + sh x_cls.toNat 27 + sh x_off.toNat 13 + sh x_inc.toNat 0)
  | .lqx x_q x_p x_x x_cls x_k x_off => some (.one .acs, 0x11, sh x_q.toNat 38 + sh x_p.toNat 35 + sh x_x.toNat 31 + sh x_cls.toNat 27 + sh x_k.toNat 25 + sh x_off.toNat 13)
  | .lqg x_q x_p x_x x_cls x_off => some (.one .acs, 0x12, sh x_q.toNat 38 + sh x_p.toNat 35 + sh x_x.toNat 31 + sh x_cls.toNat 27 + sh x_off.toNat 13)
  | .lqb x_q x_p x_x x_cls x_off => some (.one .acs, 0x13, sh x_q.toNat 38 + sh x_p.toNat 35 + sh x_x.toNat 31 + sh x_cls.toNat 27 + sh x_off.toNat 13)
  | .sq x_q x_p x_x x_cls x_off x_inc => some (.one .acs, 0x20, sh x_q.toNat 38 + sh x_p.toNat 35 + sh x_x.toNat 31 + sh x_cls.toNat 27 + sh x_off.toNat 13 + sh x_inc.toNat 0)
  | .sqx x_q x_p x_x x_cls x_k x_off => some (.one .acs, 0x21, sh x_q.toNat 38 + sh x_p.toNat 35 + sh x_x.toNat 31 + sh x_cls.toNat 27 + sh x_k.toNat 25 + sh x_off.toNat 13)
  | .sqg x_q x_p x_x x_cls x_off => some (.one .acs, 0x22, sh x_q.toNat 38 + sh x_p.toNat 35 + sh x_x.toNat 31 + sh x_cls.toNat 27 + sh x_off.toNat 13)
  | .pat x_p x_rows x_rb x_str => some (.one .acs, 0x30, sh x_p.toNat 35 + sh x_rows.toNat 23 + sh x_rb.toNat 19 + sh x_str.toNat 0)
  | .patld x_p x_x x_off => some (.one .acs, 0x31, sh x_p.toNat 35 + sh x_x.toNat 31 + sh x_off.toNat 0)
  | .bfmt x_bank x_a => some (.one .acs, 0x40, sh x_bank.toNat 36 + sh x_a.toNat 32)
  | .radv x_r x_n => some (.one .acs, 0x41, sh x_r.code 36 + sh x_n.toNat 0)
  | .qclr x_w x_q => some (.one .acs, 0x42, sh (boolCode x_w) 26 + sh x_q.toNat 38)
  | .vadd x_d x_a x_b x_t x_m => some (.one .vec, 0x00, sh x_d.code 32 + sh x_a.code 24 + sh x_b.code 16 + sh x_t.code 4 + sh x_m.k.toNat 1 + boolCode x_m.inv)
  | .vsub x_d x_a x_b x_t x_m => some (.one .vec, 0x01, sh x_d.code 32 + sh x_a.code 24 + sh x_b.code 16 + sh x_t.code 4 + sh x_m.k.toNat 1 + boolCode x_m.inv)
  | .vmul x_d x_a x_b x_t x_m => some (.one .vec, 0x02, sh x_d.code 32 + sh x_a.code 24 + sh x_b.code 16 + sh x_t.code 4 + sh x_m.k.toNat 1 + boolCode x_m.inv)
  | .vfma x_d x_a x_b x_c x_t x_m => some (.one .vec, 0x03, sh x_d.code 32 + sh x_a.code 24 + sh x_b.code 16 + sh x_c.code 8 + sh x_t.code 4 + sh x_m.k.toNat 1 + boolCode x_m.inv)
  | .vfms x_d x_a x_b x_c x_t x_m => some (.one .vec, 0x04, sh x_d.code 32 + sh x_a.code 24 + sh x_b.code 16 + sh x_c.code 8 + sh x_t.code 4 + sh x_m.k.toNat 1 + boolCode x_m.inv)
  | .vfnma x_d x_a x_b x_c x_t x_m => some (.one .vec, 0x05, sh x_d.code 32 + sh x_a.code 24 + sh x_b.code 16 + sh x_c.code 8 + sh x_t.code 4 + sh x_m.k.toNat 1 + boolCode x_m.inv)
  | .vdiv x_d x_a x_b x_t x_m => some (.one .vec, 0x06, sh x_d.code 32 + sh x_a.code 24 + sh x_b.code 16 + sh x_t.code 4 + sh x_m.k.toNat 1 + boolCode x_m.inv)
  | .vsqrt x_d x_a x_t x_m => some (.one .vec, 0x07, sh x_d.code 32 + sh x_a.code 24 + sh x_t.code 4 + sh x_m.k.toNat 1 + boolCode x_m.inv)
  | .vmin x_d x_a x_b x_t x_m => some (.one .vec, 0x08, sh x_d.code 32 + sh x_a.code 24 + sh x_b.code 16 + sh x_t.code 4 + sh x_m.k.toNat 1 + boolCode x_m.inv)
  | .vmax x_d x_a x_b x_t x_m => some (.one .vec, 0x09, sh x_d.code 32 + sh x_a.code 24 + sh x_b.code 16 + sh x_t.code 4 + sh x_m.k.toNat 1 + boolCode x_m.inv)
  | .vabs x_d x_a x_t x_m => some (.one .vec, 0x0A, sh x_d.code 32 + sh x_a.code 24 + sh x_t.code 4 + sh x_m.k.toNat 1 + boolCode x_m.inv)
  | .vneg x_d x_a x_t x_m => some (.one .vec, 0x0B, sh x_d.code 32 + sh x_a.code 24 + sh x_t.code 4 + sh x_m.k.toNat 1 + boolCode x_m.inv)
  | .vcmp x_p x_k x_a x_b x_t x_m => some (.one .vec, 0x0C, sh x_p.code 12 + sh x_k.toNat 32 + sh x_a.code 24 + sh x_b.code 16 + sh x_t.code 4 + sh x_m.k.toNat 1 + boolCode x_m.inv)
  | .vclass x_k x_a x_set x_t x_m => some (.one .vec, 0x0D, sh x_k.toNat 32 + sh x_a.code 24 + sh x_set.toNat 8 + sh x_t.code 4 + sh x_m.k.toNat 1 + boolCode x_m.inv)
  | .vcvt x_d x_a x_t x_ts x_us x_ud x_m => some (.one .vec, 0x0E, sh x_d.code 32 + sh x_a.code 24 + sh x_t.code 4 + sh x_ts.code 20 + sh (boolCode x_us) 19 + sh (boolCode x_ud) 18 + sh x_m.k.toNat 1 + boolCode x_m.inv)
  | .vrnd x_d x_a x_t x_m => some (.one .vec, 0x0F, sh x_d.code 32 + sh x_a.code 24 + sh x_t.code 4 + sh x_m.k.toNat 1 + boolCode x_m.inv)
  | .vsum x_d x_a x_b x_t x_m => some (.one .vec, 0x10, sh x_d.code 32 + sh x_a.code 24 + sh x_b.code 16 + sh x_t.code 4 + sh x_m.k.toNat 1 + boolCode x_m.inv)
  | .vmaxr x_d x_a x_b x_t x_m => some (.one .vec, 0x11, sh x_d.code 32 + sh x_a.code 24 + sh x_b.code 16 + sh x_t.code 4 + sh x_m.k.toNat 1 + boolCode x_m.inv)
  | .vminr x_d x_a x_b x_t x_m => some (.one .vec, 0x12, sh x_d.code 32 + sh x_a.code 24 + sh x_b.code 16 + sh x_t.code 4 + sh x_m.k.toNat 1 + boolCode x_m.inv)
  | .vdot x_d x_a x_b x_c x_t x_m => some (.one .vec, 0x13, sh x_d.code 32 + sh x_a.code 24 + sh x_b.code 16 + sh x_c.code 8 + sh x_t.code 4 + sh x_m.k.toNat 1 + boolCode x_m.inv)
  | .viadd x_o x_d x_a x_b x_t x_m => some (.one .vec, 0x20, sh x_o.code 8 + sh x_d.code 32 + sh x_a.code 24 + sh x_b.code 16 + sh x_t.code 4 + sh x_m.k.toNat 1 + boolCode x_m.inv)
  | .visub x_o x_d x_a x_b x_t x_m => some (.one .vec, 0x21, sh x_o.code 8 + sh x_d.code 32 + sh x_a.code 24 + sh x_b.code 16 + sh x_t.code 4 + sh x_m.k.toNat 1 + boolCode x_m.inv)
  | .vimul x_d x_a x_b x_t x_m => some (.one .vec, 0x22, sh x_d.code 32 + sh x_a.code 24 + sh x_b.code 16 + sh x_t.code 4 + sh x_m.k.toNat 1 + boolCode x_m.inv)
  | .vimulh x_u x_d x_a x_b x_t x_m => some (.one .vec, 0x23, sh (boolCode x_u) 8 + sh x_d.code 32 + sh x_a.code 24 + sh x_b.code 16 + sh x_t.code 4 + sh x_m.k.toNat 1 + boolCode x_m.inv)
  | .vand x_d x_a x_b x_t x_m => some (.one .vec, 0x24, sh x_d.code 32 + sh x_a.code 24 + sh x_b.code 16 + sh x_t.code 4 + sh x_m.k.toNat 1 + boolCode x_m.inv)
  | .vor x_d x_a x_b x_t x_m => some (.one .vec, 0x25, sh x_d.code 32 + sh x_a.code 24 + sh x_b.code 16 + sh x_t.code 4 + sh x_m.k.toNat 1 + boolCode x_m.inv)
  | .vxor x_d x_a x_b x_t x_m => some (.one .vec, 0x26, sh x_d.code 32 + sh x_a.code 24 + sh x_b.code 16 + sh x_t.code 4 + sh x_m.k.toNat 1 + boolCode x_m.inv)
  | .vshl x_d x_a x_b x_t x_m => some (.one .vec, 0x27, sh x_d.code 32 + sh x_a.code 24 + sh x_b.code 16 + sh x_t.code 4 + sh x_m.k.toNat 1 + boolCode x_m.inv)
  | .vshr x_d x_a x_b x_t x_m => some (.one .vec, 0x28, sh x_d.code 32 + sh x_a.code 24 + sh x_b.code 16 + sh x_t.code 4 + sh x_m.k.toNat 1 + boolCode x_m.inv)
  | .vsar x_d x_a x_b x_t x_m => some (.one .vec, 0x29, sh x_d.code 32 + sh x_a.code 24 + sh x_b.code 16 + sh x_t.code 4 + sh x_m.k.toNat 1 + boolCode x_m.inv)
  | .vimin x_u x_d x_a x_b x_t x_m => some (.one .vec, 0x2A, sh (boolCode x_u) 8 + sh x_d.code 32 + sh x_a.code 24 + sh x_b.code 16 + sh x_t.code 4 + sh x_m.k.toNat 1 + boolCode x_m.inv)
  | .vimax x_u x_d x_a x_b x_t x_m => some (.one .vec, 0x2B, sh (boolCode x_u) 8 + sh x_d.code 32 + sh x_a.code 24 + sh x_b.code 16 + sh x_t.code 4 + sh x_m.k.toNat 1 + boolCode x_m.inv)
  | .viabsd x_u x_d x_a x_b x_t x_m => some (.one .vec, 0x2C, sh (boolCode x_u) 8 + sh x_d.code 32 + sh x_a.code 24 + sh x_b.code 16 + sh x_t.code 4 + sh x_m.k.toNat 1 + boolCode x_m.inv)
  | .vicmp x_p x_k x_a x_b x_t x_m => some (.one .vec, 0x2D, sh x_p.code 12 + sh x_k.toNat 32 + sh x_a.code 24 + sh x_b.code 16 + sh x_t.code 4 + sh x_m.k.toNat 1 + boolCode x_m.inv)
  | .vmmul x_d x_a x_b x_ms x_t x_m => some (.one .vec, 0x30, sh x_d.code 32 + sh x_a.code 24 + sh x_b.code 16 + sh x_ms.toNat 8 + sh x_t.code 4 + sh x_m.k.toNat 1 + boolCode x_m.inv)
  | .vmadd x_d x_a x_b x_ms x_t x_m => some (.one .vec, 0x31, sh x_d.code 32 + sh x_a.code 24 + sh x_b.code 16 + sh x_ms.toNat 8 + sh x_t.code 4 + sh x_m.k.toNat 1 + boolCode x_m.inv)
  | .vmsub x_d x_a x_b x_ms x_t x_m => some (.one .vec, 0x32, sh x_d.code 32 + sh x_a.code 24 + sh x_b.code 16 + sh x_ms.toNat 8 + sh x_t.code 4 + sh x_m.k.toNat 1 + boolCode x_m.inv)
  | .vmmac x_d x_a x_b x_ms x_t x_m => some (.one .vec, 0x33, sh x_d.code 32 + sh x_a.code 24 + sh x_b.code 16 + sh x_ms.toNat 8 + sh x_t.code 4 + sh x_m.k.toNat 1 + boolCode x_m.inv)
  | .vmred x_r x_d x_a x_ms x_t x_m => some (.one .vec, 0x34, sh x_r.bField 16 + sh x_r.code 14 + sh x_d.code 32 + sh x_a.code 24 + sh x_ms.toNat 8 + sh x_t.code 4 + sh x_m.k.toNat 1 + boolCode x_m.inv)
  | .vbfly x_d x_a x_b x_ms x_k x_t x_m => some (.one .vec, 0x35, sh x_d.code 32 + sh x_a.code 24 + sh x_b.code 16 + sh x_ms.toNat 8 + sh x_k.toNat 11 + sh x_t.code 4 + sh x_m.k.toNat 1 + boolCode x_m.inv)
  | .vibfly x_d x_a x_b x_ms x_k x_t x_m => some (.one .vec, 0x36, sh x_d.code 32 + sh x_a.code 24 + sh x_b.code 16 + sh x_ms.toNat 8 + sh x_k.toNat 11 + sh x_t.code 4 + sh x_m.k.toNat 1 + boolCode x_m.inv)
  | .vmset x_k x_a x_t x_m => some (.one .vec, 0x37, sh x_k.toNat 32 + sh x_a.code 24 + sh x_t.code 4 + sh x_m.k.toNat 1 + boolCode x_m.inv)
  | .vmov x_d x_a x_t x_m => some (.one .vec, 0x40, sh x_d.code 32 + sh x_a.code 24 + sh x_t.code 4 + sh x_m.k.toNat 1 + boolCode x_m.inv)
  | .vbcast x_d x_a x_t x_m => some (.one .vec, 0x41, sh x_d.code 32 + sh x_a.code 24 + sh x_t.code 4 + sh x_m.k.toNat 1 + boolCode x_m.inv)
  | .vtr x_d x_a x_t x_m => some (.one .vec, 0x42, sh x_d.code 32 + sh x_a.code 24 + sh x_t.code 4 + sh x_m.k.toNat 1 + boolCode x_m.inv)
  | .vrot x_d x_a x_r x_rows x_t x_m => some (.one .vec, 0x43, sh x_d.code 32 + sh x_a.code 24 + sh x_r.toNat 8 + sh (boolCode x_rows) 16 + sh x_t.code 4 + sh x_m.k.toNat 1 + boolCode x_m.inv)
  | .vcomp x_d x_a x_t x_m => some (.one .vec, 0x44, sh x_d.code 32 + sh x_a.code 24 + sh x_t.code 4 + sh x_m.k.toNat 1 + boolCode x_m.inv)
  | .vexp x_d x_a x_t x_m => some (.one .vec, 0x45, sh x_d.code 32 + sh x_a.code 24 + sh x_t.code 4 + sh x_m.k.toNat 1 + boolCode x_m.inv)
  | .vpart x_d x_a x_m => some (.one .vec, 0x46, sh x_d.code 32 + sh x_a.code 24 + sh 12 4 + sh x_m.k.toNat 1 + boolCode x_m.inv)
  | .vperm x_p x_d x_a x_t x_m => some (.one .vec, 0x47, sh x_p.code 8 + sh x_d.code 32 + sh x_a.code 24 + sh x_t.code 4 + sh x_m.k.toNat 1 + boolCode x_m.inv)
  | .vshape x_rows x_rowb => some (.one .vec, 0x48, sh x_rows.toNat 16 + sh x_rowb.toNat 8)
  | .vext x_d x_a x_row x_el x_t x_m => some (.one .vec, 0x49, sh x_d.code 32 + sh x_a.code 24 + sh x_row.toNat 20 + sh x_el.toNat 12 + sh x_t.code 4 + sh x_m.k.toNat 1 + boolCode x_m.inv)
  | .vins x_d x_a x_row x_el x_t x_m => some (.one .vec, 0x4A, sh x_d.code 32 + sh x_a.code 24 + sh x_row.toNat 20 + sh x_el.toNat 12 + sh x_t.code 4 + sh x_m.k.toNat 1 + boolCode x_m.inv)
  | .vbnet x_d x_a x_p x_t x_m => some (.one .vec, 0x50, sh x_d.code 32 + sh x_a.code 24 + sh x_p.toNat 8 + sh x_t.code 4 + sh x_m.k.toNat 1 + boolCode x_m.inv)
  | .vbnld x_k x_a => some (.one .vec, 0x51, sh x_k.toNat 32 + sh x_a.code 24 + sh 11 4)
  | .vpopc x_d x_a x_t x_m => some (.one .vec, 0x52, sh x_d.code 32 + sh x_a.code 24 + sh x_t.code 4 + sh x_m.k.toNat 1 + boolCode x_m.inv)
  | .vclz x_d x_a x_t x_m => some (.one .vec, 0x53, sh x_d.code 32 + sh x_a.code 24 + sh x_t.code 4 + sh x_m.k.toNat 1 + boolCode x_m.inv)
  | .vpack x_d x_a x_t x_m => some (.one .vec, 0x54, sh x_d.code 32 + sh x_a.code 24 + sh x_t.code 4 + sh x_m.k.toNat 1 + boolCode x_m.inv)
  | .vunpk x_d x_a x_t x_m => some (.one .vec, 0x55, sh x_d.code 32 + sh x_a.code 24 + sh x_t.code 4 + sh x_m.k.toNat 1 + boolCode x_m.inv)
  | .vtab x_f x_d x_a x_t x_m => some (.one .vec, 0x58, sh x_f.code 8 + sh x_d.code 32 + sh x_a.code 24 + sh x_t.code 4 + sh x_m.k.toNat 1 + boolCode x_m.inv)
  | .vtabld x_f x_n x_a x_b => some (.one .vec, 0x59, sh x_f.code 8 + sh x_n.toNat 32 + sh x_a.code 24 + sh x_b.code 16 + sh 1 4)
  | .vsel x_d x_a x_b x_t x_m => some (.one .vec, 0x60, sh x_d.code 32 + sh x_a.code 24 + sh x_b.code 16 + sh x_t.code 4 + sh x_m.k.toNat 1 + boolCode x_m.inv)
  | .kand x_d x_a x_b x_t => some (.one .vec, 0x61, sh x_d.toNat 32 + sh x_a.toNat 24 + sh x_b.toNat 16 + sh x_t.code 4)
  | .kor x_d x_a x_b x_t => some (.one .vec, 0x62, sh x_d.toNat 32 + sh x_a.toNat 24 + sh x_b.toNat 16 + sh x_t.code 4)
  | .knot x_d x_a x_t => some (.one .vec, 0x63, sh x_d.toNat 32 + sh x_a.toNat 24 + sh x_t.code 4)
  | .kmov x_d x_a x_t => some (.one .vec, 0x64, sh x_d.toNat 32 + sh x_a.code 24 + sh x_t.code 4)
  | .mfmt x_a => some (.one .mat, 0x00, sh x_a.toNat 34)
  | .mring x_a x_b => some (.one .mat, 0x01, sh x_a.toNat 34 + sh x_b.toNat 28)
  | .mnest x_a x_b => some (.one .mat, 0x02, sh x_a.toNat 34 + sh x_b.toNat 28)
  | .mgo x_g => some (.one .mat, 0x03, sh x_g.toNat 23)
  | .mgoQuad x_g => some (.one .mat, 0x03, sh 1 22 + sh x_g.toNat 23)
  | .mop x_g x_z x_ia x_ib => some (.one .mat, 0x04, sh x_g.toNat 23 + sh (boolCode x_z) 22 + sh x_ia.toNat 18 + sh x_ib.toNat 14)
  | .mzero x_g x_n => some (.one .mat, 0x05, sh x_g.toNat 23 + sh x_n.toNat 18)
  | .mdrain x_g x_a x_rm x_rn => some (.one .mat, 0x06, sh x_g.toNat 23 + sh x_a.toNat 34 + sh x_rm.toNat 16 + sh x_rn.toNat 12)
  | .mdrainT x_g x_a x_b x_rm x_rn => some (.one .mat, 0x06, sh 1 21 + sh x_g.toNat 23 + sh x_a.toNat 34 + sh x_b.toNat 28 + sh x_rm.toNat 16 + sh x_rn.toNat 12)
  | .mdrainPeer x_g x_a x_rm x_rn x_sq => some (.one .mat, 0x06, sh 2 21 + sh x_g.toNat 23 + sh x_a.toNat 34 + sh x_rm.toNat 16 + sh x_rn.toNat 12 + sh x_sq.toNat 0)
  | .mplait x_k x_a => some (.one .mat, 0x07, sh x_k.code 21 + sh x_a.toNat 34)
  | .mchk x_a => some (.one .mat, 0x08, sh x_a.toNat 34)
  | .mpop x_r x_n => some (.one .mat, 0x09, sh x_r.code 22 + sh x_n.toNat 18)
  | .minbox x_g x_a => some (.one .mat, 0x0A, sh x_g.toNat 23 + sh x_a.toNat 34)
  | .cp x_x x_y x_cls => some (.one .cpy, 0x00, sh x_x.toNat 34 + sh x_y.toNat 28 + sh x_cls.toNat 24)
  | .cpWs x_x x_y x_cls => some (.one .cpy, 0x00, sh 1 22 + sh x_x.toNat 34 + sh x_y.toNat 28 + sh x_cls.toNat 24)
  | .cpCb x_x x_slot x_cls => some (.one .cpy, 0x00, sh 2 22 + sh x_x.toNat 34 + sh x_slot.toNat 19 + sh x_cls.toNat 24)
  | .cpd x_x x_y x_e x_k x_cls => some (.one .cpy, 0x01, sh x_x.toNat 34 + sh x_y.toNat 28 + sh x_e.toNat 18 + sh x_k.toNat 12 + sh x_cls.toNat 24)
  | .cpchk x_x x_k => some (.one .cpy, 0x02, sh x_x.toNat 34 + sh x_k.toNat 18)
  | .cpfill x_y x_v x_cls => some (.one .cpy, 0x03, sh x_y.toNat 28 + sh x_v.toNat 18 + sh x_cls.toNat 24)
  | .cpres x_x x_y x_k x_cls => some (.one .cpy, 0x04, sh x_x.toNat 34 + sh x_y.toNat 28 + sh x_k.toNat 18 + sh x_cls.toNat 24)
  | .cpxHost x_a x_cls => some (.one .cpy, 0x05, sh x_a.toNat 34 + sh x_cls.toNat 24)
  | .cpxPeer x_a x_cls => some (.one .cpy, 0x05, sh 1 22 + sh x_a.toNat 34 + sh x_cls.toNat 24)
  | .cpxColl x_a x_cls => some (.one .cpy, 0x05, sh 2 22 + sh x_a.toNat 34 + sh x_cls.toNat 24)
  | .act x_bg x_bk x_row => some (.one .chn, 0x00, sh x_bg.toNat 36 + sh x_bk.toNat 34 + sh x_row.toNat 16)
  | .rd x_bg x_bk x_col x_core x_gr => some (.one .chn, 0x01, sh x_bg.toNat 36 + sh x_bk.toNat 34 + sh x_col.toNat 28 + sh x_core.toNat 16 + sh x_gr.toNat 0)
  | .rdL2 x_bg x_bk x_col x_al => some (.one .chn, 0x01, sh 1 27 + sh x_bg.toNat 36 + sh x_bk.toNat 34 + sh x_col.toNat 28 + sh (boolCode x_al) 25)
  | .wr x_bg x_bk x_col x_sl => some (.one .chn, 0x02, sh x_bg.toNat 36 + sh x_bk.toNat 34 + sh x_col.toNat 28 + sh x_sl.toNat 0)
  | .pre x_bg x_bk => some (.one .chn, 0x03, sh x_bg.toNat 36 + sh x_bk.toNat 34)
  | .prea => some (.one .chn, 0x04, 0)
  | .ref => some (.one .chn, 0x05, 0)
  | .refsb x_bk => some (.one .chn, 0x06, sh x_bk.toNat 34)
  | .pass x_n => some (.one .chn, 0x07, sh x_n.toNat 0)
  | .mrw x_mr x_v => some (.one .chn, 0x08, sh x_mr.toNat 24 + sh x_v.toNat 0)
  | .loopf x_k x_n x_len => some (.any, 0x38, sh x_k.code 32 + sh x_n.toNat 20 + sh x_len.toNat 8)
  | .loope x_k x_n x_len => some (.any, 0x39, sh x_k.code 32 + sh x_n.toNat 20 + sh x_len.toNat 8)
  | .rdv => some (.any, 0x3B, 0)
  | .elas => some (.any, 0x3C, 0)
  | .hoop x_x x_u => some (.any, 0x3E, sh x_x.toNat 34 + sh x_u.toNat 0)
  | .nop => some (.any, 0x3F, 0)
  | _ => none

/-- The 64 bits of a word of column c, or none if the instruction is no word of that column (R85). -/
def encode (c : Col) (x : Code) : Option Nat :=
  match x.instr.fields with
  | some (k, opc, body) =>
    if k = .any || k = .one c then some (sh x.wait.code 56 + sh x.signal.code 48 + sh opc 40 + body) else none
  | none => none

/-! ## The decoder -/

/-- The instruction of an OPC and a body in ctl; field values are checked by `Instr.wf` (R104). -/
def parseCtl (opc w : Nat) : Option Instr :=
  match opc with
  | 0x00 => some (.add (fb w 34 6) (fb w 28 6) (fb w 22 6))
  | 0x01 => some (.sub (fb w 34 6) (fb w 28 6) (fb w 22 6))
  | 0x02 => some (.and (fb w 34 6) (fb w 28 6) (fb w 22 6))
  | 0x03 => some (.or (fb w 34 6) (fb w 28 6) (fb w 22 6))
  | 0x04 => some (.xor (fb w 34 6) (fb w 28 6) (fb w 22 6))
  | 0x05 => some (.andn (fb w 34 6) (fb w 28 6) (fb w 22 6))
  | 0x06 => some (.shl (fb w 34 6) (fb w 28 6) (fb w 22 6))
  | 0x07 => some (.shr (fb w 34 6) (fb w 28 6) (fb w 22 6))
  | 0x08 => some (.sar (fb w 34 6) (fb w 28 6) (fb w 22 6))
  | 0x09 => some (.mul (fb w 34 6) (fb w 28 6) (fb w 22 6))
  | 0x0A => some (.mulh (fb w 34 6) (fb w 28 6) (fb w 22 6))
  | 0x0B => some (.mulhu (fb w 34 6) (fb w 28 6) (fb w 22 6))
  | 0x0C => some (.div (fb w 34 6) (fb w 28 6) (fb w 22 6))
  | 0x0D => some (.divu (fb w 34 6) (fb w 28 6) (fb w 22 6))
  | 0x0E => some (.rem (fb w 34 6) (fb w 28 6) (fb w 22 6))
  | 0x0F => some (.remu (fb w 34 6) (fb w 28 6) (fb w 22 6))
  | 0x10 => some (.min (fb w 34 6) (fb w 28 6) (fb w 22 6))
  | 0x11 => some (.max (fb w 34 6) (fb w 28 6) (fb w 22 6))
  | 0x12 => some (.minu (fb w 34 6) (fb w 28 6) (fb w 22 6))
  | 0x13 => some (.maxu (fb w 34 6) (fb w 28 6) (fb w 22 6))
  | 0x14 => some (.slt (fb w 34 6) (fb w 28 6) (fb w 22 6))
  | 0x15 => some (.sltu (fb w 34 6) (fb w 28 6) (fb w 22 6))
  | 0x16 => some (.seq (fb w 34 6) (fb w 28 6) (fb w 22 6))
  | 0x17 => some (.clz (fb w 34 6) (fb w 28 6))
  | 0x18 => some (.ctz (fb w 34 6) (fb w 28 6))
  | 0x19 => some (.popc (fb w 34 6) (fb w 28 6))
  | 0x1A => some (.bswap (fb w 34 6) (fb w 28 6))
  | 0x1B => some (.sel (fb w 34 6) (fb w 28 6) (fb w 22 6))
  | 0x20 => some (.addi (fb w 34 6) (fb w 28 6) (fb w 0 28))
  | 0x21 => some (.andi (fb w 34 6) (fb w 28 6) (fb w 0 28))
  | 0x22 => some (.ori (fb w 34 6) (fb w 28 6) (fb w 0 28))
  | 0x23 => some (.xori (fb w 34 6) (fb w 28 6) (fb w 0 28))
  | 0x24 => some (.shli (fb w 34 6) (fb w 28 6) (fb w 0 28))
  | 0x25 => some (.shri (fb w 34 6) (fb w 28 6) (fb w 0 28))
  | 0x26 => some (.sari (fb w 34 6) (fb w 28 6) (fb w 0 28))
  | 0x27 => some (.slti (fb w 34 6) (fb w 28 6) (fb w 0 28))
  | 0x28 => some (.sltiu (fb w 34 6) (fb w 28 6) (fb w 0 28))
  | 0x29 => some (.lui (fb w 34 6) (fb w 28 6) (fb w 0 28))
  | 0x2A => some (.muli (fb w 34 6) (fb w 28 6) (fb w 0 28))
  | 0x30 => (Cond.ofCode (fld w 36 4)).bind fun x_k => some (.b x_k (fb w 28 6) (fb w 22 6) (fb w 0 22))
  | 0x31 => some (.jmp (fb w 0 40))
  | 0x32 => some (.call (fb w 0 40))
  | 0x33 => some (.callr (fb w 28 6))
  | 0x34 => some (.ret)
  | 0x35 => some (.jr (fb w 28 6))
  | 0x40 => (Space.ofCode (fld w 22 2)).bind fun x_e => (Order.ofCode (fld w 20 2)).bind fun x_o => (Size.ofCode (fld w 17 3)).bind fun x_z => some (.ld (fb w 34 6) (fb w 28 6) (fb w 24 4) x_e x_o x_z (fb w 0 17))
  | 0x41 => (Space.ofCode (fld w 22 2)).bind fun x_e => (Order.ofCode (fld w 20 2)).bind fun x_o => (Size.ofCode (fld w 17 3)).bind fun x_z => some (.st (fb w 34 6) (fb w 28 6) (fb w 24 4) x_e x_o x_z (fb w 0 17))
  | 0x42 => (Space.ofCode (fld w 22 2)).bind fun x_e => (Order.ofCode (fld w 20 2)).bind fun x_o => (Size.ofCode (fld w 17 3)).bind fun x_z => (AmoOp.ofCode (fld w 7 4)).bind fun x_op => some (.amo (fb w 34 6) (fb w 28 6) (fb w 24 4) x_e x_o x_z (fb w 11 6) x_op)
  | 0x43 => (Space.ofCode (fld w 22 2)).bind fun x_e => (Order.ofCode (fld w 20 2)).bind fun x_o => (Size.ofCode (fld w 17 3)).bind fun x_z => some (.cas (fb w 34 6) (fb w 28 6) (fb w 24 4) x_e x_o x_z (fb w 11 6))
  | 0x44 => some (.pref (fb w 28 6) (fb w 24 4) (fb w 0 17))
  | 0x45 => match fld w 34 6 with
    | 0 => some (.cboClean (fb w 28 6) (fb w 24 4) (fb w 0 17))
    | 1 => some (.cboFlush (fb w 28 6) (fb w 24 4) (fb w 0 17))
    | _ => none
  | 0x46 => some (.ways (fb w 34 6) (fb w 28 6))
  | 0x50 => (Scope.ofCode (fld w 37 3)).bind fun x_sc => (FenceKind.ofCode (fld w 8 2)).bind fun x_k => some (.fence x_sc (fb w 33 4) (fb w 16 16) (fb w 10 6) x_k)
  | 0x51 => some (.bar (fb w 32 3))
  | 0x52 => (CsigCode.ofCode (fld w 32 8)).bind fun x_k => some (.csig x_k (fb w 26 6))
  | 0x53 => (CwaitCode.ofCode (fld w 32 8)).bind fun x_k => some (.cwait x_k (fb w 26 6))
  | 0x54 => match fld w 32 8 with
    | 0 => some (.tchk (fb w 26 6))
    | 1 => some (.tchkSp (fb w 26 6) (fb w 20 6))
    | 2 => some (.tchkGl (fb w 26 6) (fb w 20 6))
    | _ => none
  | 0x55 => (ExcReg.ofCode (fld w 32 2)).bind fun x_r => some (.popx (fb w 34 6) x_r)
  | 0x60 => (Col.ofCode (fld w 37 3)).bind fun x_k => some (.qput x_k (fb w 26 6))
  | 0x61 => (Col.ofCode (fld w 37 3)).bind fun x_k => some (.qpub x_k)
  | 0x62 => (Space.ofCode (fld w 32 2)).bind fun x_e => some (.launch (fb w 34 6) x_e (fb w 26 6))
  | 0x63 => match fld w 32 2 with
    | 0 => some (.cancelLaunch (fb w 26 6))
    | 1 => some (.cancelGraph (fb w 26 6))
    | 2 => some (.cancelPhase (fb w 26 6))
    | _ => some (.cancelJob (fb w 26 6))
  | 0x64 => (CntSrc.ofCode (fld w 0 32)).bind fun x_k => some (.cntrd (fb w 34 6) x_k)
  | 0x70 => some (.csrr (fb w 34 6) (fb w 20 12))
  | 0x71 => some (.csrw (fb w 34 6) (fb w 20 12) (fb w 14 6))
  | 0x72 => some (.csrs (fb w 34 6) (fb w 20 12) (fb w 14 6))
  | 0x73 => some (.csrc (fb w 34 6) (fb w 20 12) (fb w 14 6))
  | 0x74 => some (.trap (fb w 0 32))
  | 0x75 => some (.eret)
  | 0x76 => some (.wfi)
  | 0x77 => some (.ebrk (fb w 0 32))
  | 0x78 => some (.fuseReadWord (fb w 34 6) (fb w 26 6))
  | 0x79 => some (.kwipe (fb w 34 6) (fb w 26 6))
  | _ => none

/-- The instruction of an OPC and a body in acs; field values are checked by `Instr.wf` (R104). -/
def parseAcs (opc w : Nat) : Option Instr :=
  match opc with
  | 0x00 => some (.aadd (fb w 36 4) (fb w 32 4) (fb w 28 4))
  | 0x01 => some (.asub (fb w 36 4) (fb w 32 4) (fb w 28 4))
  | 0x02 => some (.ashl (fb w 36 4) (fb w 32 4) (fb w 28 4))
  | 0x03 => some (.amul (fb w 36 4) (fb w 32 4) (fb w 28 4))
  | 0x04 => some (.amov (fb w 36 4) (fb w 22 6))
  | 0x05 => some (.aaddi (fb w 36 4) (fb w 32 4) (fb w 0 28))
  | 0x06 => some (.amovi (fb w 36 4) (fb w 0 28))
  | 0x07 => some (.amin (fb w 36 4) (fb w 32 4) (fb w 28 4))
  | 0x10 => some (.lq (fb w 38 2) (fb w 35 3) (fb w 31 4) (fb w 27 4) (fb w 13 14) (fb w 0 13))
  | 0x11 => some (.lqx (fb w 38 2) (fb w 35 3) (fb w 31 4) (fb w 27 4) (fb w 25 2) (fb w 13 12))
  | 0x12 => some (.lqg (fb w 38 2) (fb w 35 3) (fb w 31 4) (fb w 27 4) (fb w 13 14))
  | 0x13 => some (.lqb (fb w 38 2) (fb w 35 3) (fb w 31 4) (fb w 27 4) (fb w 13 14))
  | 0x20 => some (.sq (fb w 38 2) (fb w 35 3) (fb w 31 4) (fb w 27 4) (fb w 13 14) (fb w 0 13))
  | 0x21 => some (.sqx (fb w 38 2) (fb w 35 3) (fb w 31 4) (fb w 27 4) (fb w 25 2) (fb w 13 12))
  | 0x22 => some (.sqg (fb w 38 2) (fb w 35 3) (fb w 31 4) (fb w 27 4) (fb w 13 14))
  | 0x30 => some (.pat (fb w 35 3) (fb w 23 4) (fb w 19 4) (fb w 0 19))
  | 0x31 => some (.patld (fb w 35 3) (fb w 31 4) (fb w 0 27))
  | 0x40 => some (.bfmt (fb w 36 4) (fb w 32 4))
  | 0x41 => (Ring.ofCode (fld w 36 4)).bind fun x_r => some (.radv x_r (fb w 0 28))
  | 0x42 => some (.qclr (fld w 26 1 = 1) (fb w 38 2))
  | _ => none

/-- The instruction of an OPC and a body in vec; field values are checked by `Instr.wf` (R104). -/
def parseVec (opc w : Nat) : Option Instr :=
  match opc with
  | 0x00 => (VDst.ofCode (fld w 32 8)).bind fun x_d => (VSrc.ofCode (fld w 24 8)).bind fun x_a => (VSrc.ofCode (fld w 16 8)).bind fun x_b => (ElemTy.ofCode (fld w 4 4)).bind fun x_t => some (.vadd x_d x_a x_b x_t (maskField w))
  | 0x01 => (VDst.ofCode (fld w 32 8)).bind fun x_d => (VSrc.ofCode (fld w 24 8)).bind fun x_a => (VSrc.ofCode (fld w 16 8)).bind fun x_b => (ElemTy.ofCode (fld w 4 4)).bind fun x_t => some (.vsub x_d x_a x_b x_t (maskField w))
  | 0x02 => (VDst.ofCode (fld w 32 8)).bind fun x_d => (VSrc.ofCode (fld w 24 8)).bind fun x_a => (VSrc.ofCode (fld w 16 8)).bind fun x_b => (ElemTy.ofCode (fld w 4 4)).bind fun x_t => some (.vmul x_d x_a x_b x_t (maskField w))
  | 0x03 => (VDst.ofCode (fld w 32 8)).bind fun x_d => (VSrc.ofCode (fld w 24 8)).bind fun x_a => (VSrc.ofCode (fld w 16 8)).bind fun x_b => (VSrc.ofCode (fld w 8 8)).bind fun x_c => (ElemTy.ofCode (fld w 4 4)).bind fun x_t => some (.vfma x_d x_a x_b x_c x_t (maskField w))
  | 0x04 => (VDst.ofCode (fld w 32 8)).bind fun x_d => (VSrc.ofCode (fld w 24 8)).bind fun x_a => (VSrc.ofCode (fld w 16 8)).bind fun x_b => (VSrc.ofCode (fld w 8 8)).bind fun x_c => (ElemTy.ofCode (fld w 4 4)).bind fun x_t => some (.vfms x_d x_a x_b x_c x_t (maskField w))
  | 0x05 => (VDst.ofCode (fld w 32 8)).bind fun x_d => (VSrc.ofCode (fld w 24 8)).bind fun x_a => (VSrc.ofCode (fld w 16 8)).bind fun x_b => (VSrc.ofCode (fld w 8 8)).bind fun x_c => (ElemTy.ofCode (fld w 4 4)).bind fun x_t => some (.vfnma x_d x_a x_b x_c x_t (maskField w))
  | 0x06 => (VDst.ofCode (fld w 32 8)).bind fun x_d => (VSrc.ofCode (fld w 24 8)).bind fun x_a => (VSrc.ofCode (fld w 16 8)).bind fun x_b => (ElemTy.ofCode (fld w 4 4)).bind fun x_t => some (.vdiv x_d x_a x_b x_t (maskField w))
  | 0x07 => (VDst.ofCode (fld w 32 8)).bind fun x_d => (VSrc.ofCode (fld w 24 8)).bind fun x_a => (ElemTy.ofCode (fld w 4 4)).bind fun x_t => some (.vsqrt x_d x_a x_t (maskField w))
  | 0x08 => (VDst.ofCode (fld w 32 8)).bind fun x_d => (VSrc.ofCode (fld w 24 8)).bind fun x_a => (VSrc.ofCode (fld w 16 8)).bind fun x_b => (ElemTy.ofCode (fld w 4 4)).bind fun x_t => some (.vmin x_d x_a x_b x_t (maskField w))
  | 0x09 => (VDst.ofCode (fld w 32 8)).bind fun x_d => (VSrc.ofCode (fld w 24 8)).bind fun x_a => (VSrc.ofCode (fld w 16 8)).bind fun x_b => (ElemTy.ofCode (fld w 4 4)).bind fun x_t => some (.vmax x_d x_a x_b x_t (maskField w))
  | 0x0A => (VDst.ofCode (fld w 32 8)).bind fun x_d => (VSrc.ofCode (fld w 24 8)).bind fun x_a => (ElemTy.ofCode (fld w 4 4)).bind fun x_t => some (.vabs x_d x_a x_t (maskField w))
  | 0x0B => (VDst.ofCode (fld w 32 8)).bind fun x_d => (VSrc.ofCode (fld w 24 8)).bind fun x_a => (ElemTy.ofCode (fld w 4 4)).bind fun x_t => some (.vneg x_d x_a x_t (maskField w))
  | 0x0C => (FPred.ofCode (fld w 12 4)).bind fun x_p => (maskOf (fld w 32 8)).bind fun x_k => (VSrc.ofCode (fld w 24 8)).bind fun x_a => (VSrc.ofCode (fld w 16 8)).bind fun x_b => (ElemTy.ofCode (fld w 4 4)).bind fun x_t => some (.vcmp x_p x_k x_a x_b x_t (maskField w))
  | 0x0D => (maskOf (fld w 32 8)).bind fun x_k => (VSrc.ofCode (fld w 24 8)).bind fun x_a => (ElemTy.ofCode (fld w 4 4)).bind fun x_t => some (.vclass x_k x_a (fb w 8 10) x_t (maskField w))
  | 0x0E => (VDst.ofCode (fld w 32 8)).bind fun x_d => (VSrc.ofCode (fld w 24 8)).bind fun x_a => (ElemTy.ofCode (fld w 4 4)).bind fun x_t => (ElemTy.ofCode (fld w 20 4)).bind fun x_ts => some (.vcvt x_d x_a x_t x_ts (fld w 19 1 = 1) (fld w 18 1 = 1) (maskField w))
  | 0x0F => (VDst.ofCode (fld w 32 8)).bind fun x_d => (VSrc.ofCode (fld w 24 8)).bind fun x_a => (ElemTy.ofCode (fld w 4 4)).bind fun x_t => some (.vrnd x_d x_a x_t (maskField w))
  | 0x10 => (VDst.ofCode (fld w 32 8)).bind fun x_d => (VSrc.ofCode (fld w 24 8)).bind fun x_a => (VSrc.ofCode (fld w 16 8)).bind fun x_b => (ElemTy.ofCode (fld w 4 4)).bind fun x_t => some (.vsum x_d x_a x_b x_t (maskField w))
  | 0x11 => (VDst.ofCode (fld w 32 8)).bind fun x_d => (VSrc.ofCode (fld w 24 8)).bind fun x_a => (VSrc.ofCode (fld w 16 8)).bind fun x_b => (ElemTy.ofCode (fld w 4 4)).bind fun x_t => some (.vmaxr x_d x_a x_b x_t (maskField w))
  | 0x12 => (VDst.ofCode (fld w 32 8)).bind fun x_d => (VSrc.ofCode (fld w 24 8)).bind fun x_a => (VSrc.ofCode (fld w 16 8)).bind fun x_b => (ElemTy.ofCode (fld w 4 4)).bind fun x_t => some (.vminr x_d x_a x_b x_t (maskField w))
  | 0x13 => (VDst.ofCode (fld w 32 8)).bind fun x_d => (VSrc.ofCode (fld w 24 8)).bind fun x_a => (VSrc.ofCode (fld w 16 8)).bind fun x_b => (VSrc.ofCode (fld w 8 8)).bind fun x_c => (ElemTy.ofCode (fld w 4 4)).bind fun x_t => some (.vdot x_d x_a x_b x_c x_t (maskField w))
  | 0x20 => (IOpt.ofCode (fld w 8 8)).bind fun x_o => (VDst.ofCode (fld w 32 8)).bind fun x_d => (VSrc.ofCode (fld w 24 8)).bind fun x_a => (VSrc.ofCode (fld w 16 8)).bind fun x_b => (ElemTy.ofCode (fld w 4 4)).bind fun x_t => some (.viadd x_o x_d x_a x_b x_t (maskField w))
  | 0x21 => (IOpt.ofCode (fld w 8 8)).bind fun x_o => (VDst.ofCode (fld w 32 8)).bind fun x_d => (VSrc.ofCode (fld w 24 8)).bind fun x_a => (VSrc.ofCode (fld w 16 8)).bind fun x_b => (ElemTy.ofCode (fld w 4 4)).bind fun x_t => some (.visub x_o x_d x_a x_b x_t (maskField w))
  | 0x22 => (VDst.ofCode (fld w 32 8)).bind fun x_d => (VSrc.ofCode (fld w 24 8)).bind fun x_a => (VSrc.ofCode (fld w 16 8)).bind fun x_b => (ElemTy.ofCode (fld w 4 4)).bind fun x_t => some (.vimul x_d x_a x_b x_t (maskField w))
  | 0x23 => (VDst.ofCode (fld w 32 8)).bind fun x_d => (VSrc.ofCode (fld w 24 8)).bind fun x_a => (VSrc.ofCode (fld w 16 8)).bind fun x_b => (ElemTy.ofCode (fld w 4 4)).bind fun x_t => some (.vimulh (fld w 8 1 = 1) x_d x_a x_b x_t (maskField w))
  | 0x24 => (VDst.ofCode (fld w 32 8)).bind fun x_d => (VSrc.ofCode (fld w 24 8)).bind fun x_a => (VSrc.ofCode (fld w 16 8)).bind fun x_b => (ElemTy.ofCode (fld w 4 4)).bind fun x_t => some (.vand x_d x_a x_b x_t (maskField w))
  | 0x25 => (VDst.ofCode (fld w 32 8)).bind fun x_d => (VSrc.ofCode (fld w 24 8)).bind fun x_a => (VSrc.ofCode (fld w 16 8)).bind fun x_b => (ElemTy.ofCode (fld w 4 4)).bind fun x_t => some (.vor x_d x_a x_b x_t (maskField w))
  | 0x26 => (VDst.ofCode (fld w 32 8)).bind fun x_d => (VSrc.ofCode (fld w 24 8)).bind fun x_a => (VSrc.ofCode (fld w 16 8)).bind fun x_b => (ElemTy.ofCode (fld w 4 4)).bind fun x_t => some (.vxor x_d x_a x_b x_t (maskField w))
  | 0x27 => (VDst.ofCode (fld w 32 8)).bind fun x_d => (VSrc.ofCode (fld w 24 8)).bind fun x_a => (VSrc.ofCode (fld w 16 8)).bind fun x_b => (ElemTy.ofCode (fld w 4 4)).bind fun x_t => some (.vshl x_d x_a x_b x_t (maskField w))
  | 0x28 => (VDst.ofCode (fld w 32 8)).bind fun x_d => (VSrc.ofCode (fld w 24 8)).bind fun x_a => (VSrc.ofCode (fld w 16 8)).bind fun x_b => (ElemTy.ofCode (fld w 4 4)).bind fun x_t => some (.vshr x_d x_a x_b x_t (maskField w))
  | 0x29 => (VDst.ofCode (fld w 32 8)).bind fun x_d => (VSrc.ofCode (fld w 24 8)).bind fun x_a => (VSrc.ofCode (fld w 16 8)).bind fun x_b => (ElemTy.ofCode (fld w 4 4)).bind fun x_t => some (.vsar x_d x_a x_b x_t (maskField w))
  | 0x2A => (VDst.ofCode (fld w 32 8)).bind fun x_d => (VSrc.ofCode (fld w 24 8)).bind fun x_a => (VSrc.ofCode (fld w 16 8)).bind fun x_b => (ElemTy.ofCode (fld w 4 4)).bind fun x_t => some (.vimin (fld w 8 1 = 1) x_d x_a x_b x_t (maskField w))
  | 0x2B => (VDst.ofCode (fld w 32 8)).bind fun x_d => (VSrc.ofCode (fld w 24 8)).bind fun x_a => (VSrc.ofCode (fld w 16 8)).bind fun x_b => (ElemTy.ofCode (fld w 4 4)).bind fun x_t => some (.vimax (fld w 8 1 = 1) x_d x_a x_b x_t (maskField w))
  | 0x2C => (VDst.ofCode (fld w 32 8)).bind fun x_d => (VSrc.ofCode (fld w 24 8)).bind fun x_a => (VSrc.ofCode (fld w 16 8)).bind fun x_b => (ElemTy.ofCode (fld w 4 4)).bind fun x_t => some (.viabsd (fld w 8 1 = 1) x_d x_a x_b x_t (maskField w))
  | 0x2D => (IPred.ofCode (fld w 12 4)).bind fun x_p => (maskOf (fld w 32 8)).bind fun x_k => (VSrc.ofCode (fld w 24 8)).bind fun x_a => (VSrc.ofCode (fld w 16 8)).bind fun x_b => (ElemTy.ofCode (fld w 4 4)).bind fun x_t => some (.vicmp x_p x_k x_a x_b x_t (maskField w))
  | 0x30 => (VDst.ofCode (fld w 32 8)).bind fun x_d => (VSrc.ofCode (fld w 24 8)).bind fun x_a => (VSrc.ofCode (fld w 16 8)).bind fun x_b => (ElemTy.ofCode (fld w 4 4)).bind fun x_t => some (.vmmul x_d x_a x_b (fb w 8 3) x_t (maskField w))
  | 0x31 => (VDst.ofCode (fld w 32 8)).bind fun x_d => (VSrc.ofCode (fld w 24 8)).bind fun x_a => (VSrc.ofCode (fld w 16 8)).bind fun x_b => (ElemTy.ofCode (fld w 4 4)).bind fun x_t => some (.vmadd x_d x_a x_b (fb w 8 3) x_t (maskField w))
  | 0x32 => (VDst.ofCode (fld w 32 8)).bind fun x_d => (VSrc.ofCode (fld w 24 8)).bind fun x_a => (VSrc.ofCode (fld w 16 8)).bind fun x_b => (ElemTy.ofCode (fld w 4 4)).bind fun x_t => some (.vmsub x_d x_a x_b (fb w 8 3) x_t (maskField w))
  | 0x33 => (VDst.ofCode (fld w 32 8)).bind fun x_d => (VSrc.ofCode (fld w 24 8)).bind fun x_a => (VSrc.ofCode (fld w 16 8)).bind fun x_b => (ElemTy.ofCode (fld w 4 4)).bind fun x_t => some (.vmmac x_d x_a x_b (fb w 8 3) x_t (maskField w))
  | 0x34 => (RedMode.ofCode (fld w 14 2) (fld w 16 8)).bind fun x_r => (VDst.ofCode (fld w 32 8)).bind fun x_d => (VSrc.ofCode (fld w 24 8)).bind fun x_a => (ElemTy.ofCode (fld w 4 4)).bind fun x_t => some (.vmred x_r x_d x_a (fb w 8 3) x_t (maskField w))
  | 0x35 => (VDst.ofCode (fld w 32 8)).bind fun x_d => (VSrc.ofCode (fld w 24 8)).bind fun x_a => (VSrc.ofCode (fld w 16 8)).bind fun x_b => (ElemTy.ofCode (fld w 4 4)).bind fun x_t => some (.vbfly x_d x_a x_b (fb w 8 3) (fb w 11 3) x_t (maskField w))
  | 0x36 => (VDst.ofCode (fld w 32 8)).bind fun x_d => (VSrc.ofCode (fld w 24 8)).bind fun x_a => (VSrc.ofCode (fld w 16 8)).bind fun x_b => (ElemTy.ofCode (fld w 4 4)).bind fun x_t => some (.vibfly x_d x_a x_b (fb w 8 3) (fb w 11 3) x_t (maskField w))
  | 0x37 => (maskOf (fld w 32 8)).bind fun x_k => (VSrc.ofCode (fld w 24 8)).bind fun x_a => (ElemTy.ofCode (fld w 4 4)).bind fun x_t => some (.vmset x_k x_a x_t (maskField w))
  | 0x40 => (VDst.ofCode (fld w 32 8)).bind fun x_d => (VSrc.ofCode (fld w 24 8)).bind fun x_a => (ElemTy.ofCode (fld w 4 4)).bind fun x_t => some (.vmov x_d x_a x_t (maskField w))
  | 0x41 => (VDst.ofCode (fld w 32 8)).bind fun x_d => (VSrc.ofCode (fld w 24 8)).bind fun x_a => (ElemTy.ofCode (fld w 4 4)).bind fun x_t => some (.vbcast x_d x_a x_t (maskField w))
  | 0x42 => (VDst.ofCode (fld w 32 8)).bind fun x_d => (VSrc.ofCode (fld w 24 8)).bind fun x_a => (ElemTy.ofCode (fld w 4 4)).bind fun x_t => some (.vtr x_d x_a x_t (maskField w))
  | 0x43 => (VDst.ofCode (fld w 32 8)).bind fun x_d => (VSrc.ofCode (fld w 24 8)).bind fun x_a => (ElemTy.ofCode (fld w 4 4)).bind fun x_t => some (.vrot x_d x_a (fb w 8 7) (fld w 16 1 = 1) x_t (maskField w))
  | 0x44 => (VDst.ofCode (fld w 32 8)).bind fun x_d => (VSrc.ofCode (fld w 24 8)).bind fun x_a => (ElemTy.ofCode (fld w 4 4)).bind fun x_t => some (.vcomp x_d x_a x_t (maskField w))
  | 0x45 => (VDst.ofCode (fld w 32 8)).bind fun x_d => (VSrc.ofCode (fld w 24 8)).bind fun x_a => (ElemTy.ofCode (fld w 4 4)).bind fun x_t => some (.vexp x_d x_a x_t (maskField w))
  | 0x46 => (VDst.ofCode (fld w 32 8)).bind fun x_d => (VSrc.ofCode (fld w 24 8)).bind fun x_a => some (.vpart x_d x_a (maskField w))
  | 0x47 => (PermMode.ofCode (fld w 8 16)).bind fun x_p => (VDst.ofCode (fld w 32 8)).bind fun x_d => (VSrc.ofCode (fld w 24 8)).bind fun x_a => (ElemTy.ofCode (fld w 4 4)).bind fun x_t => some (.vperm x_p x_d x_a x_t (maskField w))
  | 0x48 => some (.vshape (fb w 16 5) (fb w 8 5))
  | 0x49 => (VDst.ofCode (fld w 32 8)).bind fun x_d => (VSrc.ofCode (fld w 24 8)).bind fun x_a => (ElemTy.ofCode (fld w 4 4)).bind fun x_t => some (.vext x_d x_a (fb w 20 4) (fb w 12 7) x_t (maskField w))
  | 0x4A => (VDst.ofCode (fld w 32 8)).bind fun x_d => (VSrc.ofCode (fld w 24 8)).bind fun x_a => (ElemTy.ofCode (fld w 4 4)).bind fun x_t => some (.vins x_d x_a (fb w 20 4) (fb w 12 7) x_t (maskField w))
  | 0x50 => (VDst.ofCode (fld w 32 8)).bind fun x_d => (VSrc.ofCode (fld w 24 8)).bind fun x_a => (ElemTy.ofCode (fld w 4 4)).bind fun x_t => some (.vbnet x_d x_a (fb w 8 3) x_t (maskField w))
  | 0x51 => (maskOf (fld w 32 8)).bind fun x_k => (VSrc.ofCode (fld w 24 8)).bind fun x_a => some (.vbnld x_k x_a)
  | 0x52 => (VDst.ofCode (fld w 32 8)).bind fun x_d => (VSrc.ofCode (fld w 24 8)).bind fun x_a => (ElemTy.ofCode (fld w 4 4)).bind fun x_t => some (.vpopc x_d x_a x_t (maskField w))
  | 0x53 => (VDst.ofCode (fld w 32 8)).bind fun x_d => (VSrc.ofCode (fld w 24 8)).bind fun x_a => (ElemTy.ofCode (fld w 4 4)).bind fun x_t => some (.vclz x_d x_a x_t (maskField w))
  | 0x54 => (VDst.ofCode (fld w 32 8)).bind fun x_d => (VSrc.ofCode (fld w 24 8)).bind fun x_a => (ElemTy.ofCode (fld w 4 4)).bind fun x_t => some (.vpack x_d x_a x_t (maskField w))
  | 0x55 => (VDst.ofCode (fld w 32 8)).bind fun x_d => (VSrc.ofCode (fld w 24 8)).bind fun x_a => (ElemTy.ofCode (fld w 4 4)).bind fun x_t => some (.vunpk x_d x_a x_t (maskField w))
  | 0x58 => (TabSel.ofCode (fld w 8 8)).bind fun x_f => (VDst.ofCode (fld w 32 8)).bind fun x_d => (VSrc.ofCode (fld w 24 8)).bind fun x_a => (ElemTy.ofCode (fld w 4 4)).bind fun x_t => some (.vtab x_f x_d x_a x_t (maskField w))
  | 0x59 => (TabFn.ofCode (fld w 8 4)).bind fun x_f => (slotOf (fld w 32 8)).bind fun x_n => (VSrc.ofCode (fld w 24 8)).bind fun x_a => (VSrc.ofCode (fld w 16 8)).bind fun x_b => some (.vtabld x_f x_n x_a x_b)
  | 0x60 => (VDst.ofCode (fld w 32 8)).bind fun x_d => (VSrc.ofCode (fld w 24 8)).bind fun x_a => (VSrc.ofCode (fld w 16 8)).bind fun x_b => (ElemTy.ofCode (fld w 4 4)).bind fun x_t => some (.vsel x_d x_a x_b x_t (maskField w))
  | 0x61 => (maskOf (fld w 32 8)).bind fun x_d => (maskOf (fld w 24 8)).bind fun x_a => (maskOf (fld w 16 8)).bind fun x_b => (ElemTy.ofCode (fld w 4 4)).bind fun x_t => some (.kand x_d x_a x_b x_t)
  | 0x62 => (maskOf (fld w 32 8)).bind fun x_d => (maskOf (fld w 24 8)).bind fun x_a => (maskOf (fld w 16 8)).bind fun x_b => (ElemTy.ofCode (fld w 4 4)).bind fun x_t => some (.kor x_d x_a x_b x_t)
  | 0x63 => (maskOf (fld w 32 8)).bind fun x_d => (maskOf (fld w 24 8)).bind fun x_a => (ElemTy.ofCode (fld w 4 4)).bind fun x_t => some (.knot x_d x_a x_t)
  | 0x64 => (maskOf (fld w 32 8)).bind fun x_d => (VSrc.ofCode (fld w 24 8)).bind fun x_a => (ElemTy.ofCode (fld w 4 4)).bind fun x_t => some (.kmov x_d x_a x_t)
  | _ => none

/-- The instruction of an OPC and a body in mat; field values are checked by `Instr.wf` (R104). -/
def parseMat (opc w : Nat) : Option Instr :=
  match opc with
  | 0x00 => some (.mfmt (fb w 34 6))
  | 0x01 => some (.mring (fb w 34 6) (fb w 28 6))
  | 0x02 => some (.mnest (fb w 34 6) (fb w 28 6))
  | 0x03 => match fld w 22 1 with
    | 0 => some (.mgo (fb w 23 5))
    | _ => some (.mgoQuad (fb w 23 5))
  | 0x04 => some (.mop (fb w 23 5) (fld w 22 1 = 1) (fb w 18 4) (fb w 14 4))
  | 0x05 => some (.mzero (fb w 23 5) (fb w 18 5))
  | 0x06 => match fld w 21 2 with
    | 0 => some (.mdrain (fb w 23 5) (fb w 34 6) (fb w 16 5) (fb w 12 4))
    | 1 => some (.mdrainT (fb w 23 5) (fb w 34 6) (fb w 28 6) (fb w 16 5) (fb w 12 4))
    | 2 => some (.mdrainPeer (fb w 23 5) (fb w 34 6) (fb w 16 5) (fb w 12 4) (fb w 0 12))
    | _ => none
  | 0x07 => (PlaitSel.ofCode (fld w 21 2)).bind fun x_k => some (.mplait x_k (fb w 34 6))
  | 0x08 => some (.mchk (fb w 34 6))
  | 0x09 => (Ring.ofCode (fld w 22 1)).bind fun x_r => some (.mpop x_r (fb w 18 4))
  | 0x0A => some (.minbox (fb w 23 5) (fb w 34 6))
  | _ => none

/-- The instruction of an OPC and a body in cpy; field values are checked by `Instr.wf` (R104). -/
def parseCpy (opc w : Nat) : Option Instr :=
  match opc with
  | 0x00 => match fld w 22 2 with
    | 0 => some (.cp (fb w 34 6) (fb w 28 6) (fb w 24 4))
    | 1 => some (.cpWs (fb w 34 6) (fb w 28 6) (fb w 24 4))
    | 2 => some (.cpCb (fb w 34 6) (fb w 19 3) (fb w 24 4))
    | _ => none
  | 0x01 => some (.cpd (fb w 34 6) (fb w 28 6) (fb w 18 6) (fb w 12 6) (fb w 24 4))
  | 0x02 => some (.cpchk (fb w 34 6) (fb w 18 6))
  | 0x03 => some (.cpfill (fb w 28 6) (fb w 18 6) (fb w 24 4))
  | 0x04 => some (.cpres (fb w 34 6) (fb w 28 6) (fb w 18 6) (fb w 24 4))
  | 0x05 => match fld w 22 2 with
    | 0 => some (.cpxHost (fb w 34 6) (fb w 24 4))
    | 1 => some (.cpxPeer (fb w 34 6) (fb w 24 4))
    | 2 => some (.cpxColl (fb w 34 6) (fb w 24 4))
    | _ => none
  | _ => none

/-- The instruction of an OPC and a body in chn; field values are checked by `Instr.wf` (R104). -/
def parseChn (opc w : Nat) : Option Instr :=
  match opc with
  | 0x00 => some (.act (fb w 36 2) (fb w 34 2) (fb w 16 18))
  | 0x01 => match fld w 27 1 with
    | 0 => some (.rd (fb w 36 2) (fb w 34 2) (fb w 28 6) (fb w 16 11) (fb w 0 16))
    | _ => some (.rdL2 (fb w 36 2) (fb w 34 2) (fb w 28 6) (fld w 25 1 = 1))
  | 0x02 => some (.wr (fb w 36 2) (fb w 34 2) (fb w 28 6) (fb w 0 16))
  | 0x03 => some (.pre (fb w 36 2) (fb w 34 2))
  | 0x04 => some (.prea)
  | 0x05 => some (.ref)
  | 0x06 => some (.refsb (fb w 34 2))
  | 0x07 => some (.pass (fb w 0 16))
  | 0x08 => some (.mrw (fb w 24 4) (fb w 0 8))
  | _ => none

/-- The instruction of an OPC and a body in the common group of every column; field values are checked by `Instr.wf` (R104). -/
def parseAny (opc w : Nat) : Option Instr :=
  match opc with
  | 0x38 => (LoopSrc.ofCode (fld w 32 8)).bind fun x_k => some (.loopf x_k (fb w 20 12) (fb w 8 12))
  | 0x39 => (LoopSrc.ofCode (fld w 32 8)).bind fun x_k => some (.loope x_k (fb w 20 12) (fb w 8 12))
  | 0x3B => some (.rdv)
  | 0x3C => some (.elas)
  | 0x3E => some (.hoop (fb w 34 6) (fb w 0 34))
  | 0x3F => some (.nop)
  | _ => none

/-- Why 64 bits are no legal word of a column (R94). -/
inductive Illegal where
  /-- The WAIT byte is reserved (R89). -/
  | wait
  /-- The SIGNAL byte is reserved (R91). -/
  | signal
  /-- The OPC is unassigned, or a field holds a reserved code (R104, R94). -/
  | operation
  /-- A field holds a value that its form or its column does not allow (R94). -/
  | field
  /-- A must-be-zero bit is set (R94). -/
  | mustBeZero
  deriving DecidableEq, Repr

/-- The instruction of an OPC and a body in column c, before the checks on values. -/
def parse (c : Col) (opc w : Nat) : Option Instr :=
  if 0x38 ≤ opc && opc ≤ 0x3F then parseAny opc w
  else match c with
    | .ctl => parseCtl opc w
    | .acs => parseAcs opc w
    | .vec => parseVec opc w
    | .mat => parseMat opc w
    | .cpy => parseCpy opc w
    | .chn => parseChn opc w

/-- The word that 64 bits are in column c, or why they are an illegal word (R85, R94). -/
def decode (c : Col) (w : Nat) : Except Illegal Code :=
  match Wait.ofCode (fld w 56 8) with
  | none => .error .wait
  | some wt => match Signal.ofCode (fld w 48 8) with
    | none => .error .signal
    | some sg => match parse c (fld w 40 8) (fld w 0 40) with
      | none => .error .operation
      | some i =>
        let x : Code := ⟨wt, sg, i⟩
        if !x.wf c then .error .field
        else if encode c x != some w then .error .mustBeZero
        else .ok x

/-- The columns in the order in which a word of unknown column is tried. -/
def allCols : List Col := [.ctl, .acs, .vec, .mat, .cpy, .chn]

/-- The first column of the list in which w decodes. -/
def firstCol (w : Nat) : List Col → Option (Col × Code)
  | [] => none
  | c :: cs => match decode c w with
    | .ok x => some (c, x)
    | .error _ => firstCol w cs

/-- The instruction of an opcode-table word: nbits is at most 64, and bits above it are zero. -/
def decodeTableWord (nbits w : Nat) : Option Instr :=
  if 64 < nbits then none else (firstCol (w % 2 ^ nbits) allCols).map fun p => p.2.instr

end Sys2Proof
end

