-- ==== Sys2Proof/Config.lean ====
section
/-! DEFINITION. What a part fixes, and the free values: values the manual leaves open, as constants with no
body, so that nothing can be proved of what they are (guide; each is named in the assumption log). -/

namespace Sys2Proof.Config

/-! ## Free values of elastic timing (log 7) -/

/-- Beats that an elastic access to memory takes to return, beyond the first (R80, R254).
(Log: 5, 7 DESIGN CHOICE.) -/
opaque memLatency : Nat → Nat
/-- Beats of a launch's set-up before the 512 of R367 (R281). (Log: 5, 94 DESIGN CHOICE.) -/
opaque setupBeats : Nat → Nat
/-- Beats that a Kensia request takes, below 60,000 for fuse (R152). (Log: 5, 128 DESIGN CHOICE.) -/
opaque kensiaLatency : Nat → Nat
/-- The mean power in W that is projected for the next millisecond with a stretch of some beats (R449).
(Log: 5 DESIGN CHOICE.) -/
opaque projectedPower : Nat → Nat → BitVec 16

/-- Which line of a full cache set is the victim (R298). (Log: 5 DESIGN CHOICE.) -/
opaque victim : Nat → Nat

/-! ## Free values of data -/

/-- Which of two values an element takes where a copy overlaps, by the use and the element: true takes the later one, what an
earlier chunk wrote or what a later destination element gives (R253, R306). (Log: 5, 77 DESIGN CHOICE.) -/
opaque overlapNew : Nat → Nat → Bool
/-- The bytes that a read beyond the package returns where no route reaches an I/O die (R1).
(Log: 5, 138 DESIGN CHOICE.) -/
opaque stranded : Nat → Nat
/-- How many beats after it is made an elastic scratchpad write becomes visible to another path: by the package's beat, the
core, the atomic unit that holds the byte and the path (R332, R338). (Log: 5, 7 DESIGN CHOICE.) -/
opaque buffered : Nat → Nat → Nat → Nat → Nat
/-- Whether an access of a job to a 64 KiB granule on a beat uses the leaf that a TLB holds (R402, R406).
(Log: 5, 8 DESIGN CHOICE.) -/
opaque tlbHit : Nat → Nat → Nat → Bool
/-- What a 64-bit random word of Kensia is (R447 DNONCE, R455 identity). (Log: 5 DESIGN CHOICE.) -/
opaque randomWord : Nat → Word
/-- The fuse words of R152 operation 0, by lifecycle state, unlock count and index; 0 where the state withholds one.
(Log: 5, 128 DESIGN CHOICE.) -/
opaque fuseWord : Nat → Nat → Nat → Word
/-- The module serial number fused at manufacture (R455). (Log: 5 DESIGN CHOICE.) -/
opaque serial : Word
/-- The mean module power in W over a millisecond (R447 PWRAVG). (Log: 5 DESIGN CHOICE.) -/
opaque meanPower : Nat → BitVec 16

/-! ## Published standards named by title only (log 12) -/

/-- SHA3-384 of a list of bytes, as 48 bytes in one number (R453, R458). (Log: 12 DESIGN CHOICE.) -/
opaque sha3x384 : List Byte → BitVec 384
/-- Whether an ML-DSA-87 signature over a message verifies under the vendor key (R453, R456).
(Log: 12 DESIGN CHOICE.) -/
opaque mlDsaVerify : List Byte → List Byte → Bool
/-- A byte of the ML-DSA-87 signature that Kensia's device key gives an entry of the harvest log (R442).
(Log: 12 DESIGN CHOICE.) -/
opaque mlDsaDevice : List Byte → Nat → Byte
/-- A byte of the ML-DSA-87 signature that Kensia's attestation key gives a message (R459).
(Log: 12 DESIGN CHOICE.) -/
opaque mlDsaSign : List Byte → Nat → Byte
/-- AES-XTS encryption of one 32-byte unit: data key, tweak key, tweak, plain text (R461). (Log: 12 DESIGN CHOICE.) -/
opaque aesXts : BitVec 256 → BitVec 256 → Nat → BitVec 256 → BitVec 256
/-- AES-XTS decryption of one 32-byte unit (R461). (Log: 12 DESIGN CHOICE.) -/
opaque aesXtsInv : BitVec 256 → BitVec 256 → Nat → BitVec 256 → BitVec 256

/-! ## Constants of the part -/

/-- Highest minor version of each of the five interfaces (R410 HIGH). (Log: 5 DESIGN CHOICE.) -/
opaque versHigh : Nat → BitVec 8
/-- Rows above 61,036 in each bank of a rim (R311). (Log: 5 DESIGN CHOICE.) -/
opaque rimRowsRaw : Nat → Nat
/-- NROWS of a rim's banks, in its stated range (R311). -/
def rimRows (d : Nat) : Nat := 61036 + rimRowsRaw d % 4501
/-- The fused value of a rim's timing parameter as a distance below the architectural one (R317).
(Log: 5 DESIGN CHOICE.) -/
opaque fusedSlack : Nat → Nat → Nat
/-- Whether a mode register may be written, in the fused mrw mask of a rim (R326). (Log: 5 DESIGN CHOICE.) -/
opaque mrwMask : Nat → Nat → Bool
/-- The version that a firmware image carries, the image as its bytes; no byte stands for the image of manufacture (R453).
(Log: 5 DESIGN CHOICE.) -/
opaque imageVersion : List Byte → BitVec 32
/-- The floor that a firmware image carries (R453). (Log: 5 DESIGN CHOICE.) -/
opaque imageFloor : List Byte → BitVec 32
/-- Whether a function attaches as a CXL Type 2 device and not as a PCIe one (R409).
(Log: 5 DESIGN CHOICE; 106 DEDUCED.) -/
opaque attachesCxl : Nat → Bool
/-- Whether a firmware image's signature verifies under the vendor key (R453). (Log: 5 DESIGN CHOICE.) -/
opaque imageGood : List Byte → Bool

/-- The architectural values of the timing table, in ticks, by index (R317). -/
def archTiming : List Nat := [40, 40, 96, 136, 4, 6, 48, 1, 2, 40, 16, 12, 5850, 540, 240, 16]

/-- The fused value of timing parameter i in a rim's table: at most the architectural one, and for tREFI (index 12) at
least it (R317). -/
def fusedTiming (rim i : Nat) : Nat :=
  let a := archTiming.getD i 0
  if i = 12 then a + fusedSlack rim i else a - fusedSlack rim i

end Sys2Proof.Config
end

