-- ==== Sys2Proof/Machine/State.lean ====
section
/-! DEFINITION. The state of the module as plain data, the reasons a step can stop, and the state at power-on. -/

namespace Sys2Proof.Machine

/-! ## Reasons to stop -/

/-- Why the model stops with a fault. (Log: 129 DESIGN CHOICE.) -/
inductive Fault where
  /-- Raised by a word or a team event whose issue context names no live team or channel program: no step of the
  machine makes such a context, so it is a safe stop. -/
  | noStream
  deriving DecidableEq, Repr

/-- Why the model refuses an instruction. -/
inductive Refusal where
  /-- Raised by an arm of `exec` whose instruction has no meaning yet: safe. -/
  | notModelled (mnemonic : String)
  deriving DecidableEq, Repr

/-! ## Pieces of a team -/

/-- A 64-bit register with its taint bit (R116, R156). -/
structure TW where
  v : Word
  t : Bool
  deriving DecidableEq, Repr

/-- Where in its life a word or a team event is executed. -/
inductive Phase where
  /-- A word is tried at its scheduled beat or later (R86). -/
  | issue
  /-- A timed word that could not issue at its scheduled beat faults (R86). -/
  | final
  /-- A word's memory access takes place, one beat after its issue (R131). -/
  | access
  /-- A word that issued earlier has its condition met and performs (R92). -/
  | perform
  deriving DecidableEq, Repr

/-- An open loop (R169, R170): body start and length, bound, whether loopf, count and iteration index. -/
structure LoopRec where
  start : Nat
  len : Nat
  bound : Nat
  fixed : Bool
  count : Nat
  idx : Nat
  deriving DecidableEq, Repr

/-- The context in which a word or an event of a team is executed: the stream, the ring position, the WAIT and
SIGNAL of the word, its bits, whether it is nullified (R88), its number, its issue beat, whether its column was
timed, numbers kept from its issue, and the loops that were open before it. -/
structure Cur where
  cid : Nat
  col : Col
  pc : Nat
  pos : Nat
  wait : Wait
  signal : Signal
  word : Word
  phase : Phase
  nul : Bool
  id : Nat
  issued : Nat
  timed : Bool
  args : List Nat
  loops : List LoopRec
  deriving DecidableEq, Repr

/-- A hoop that has issued and stalls: its target, its issue beat, whether its alignment is complete, its ring position,
the loops open before it, and the SIGNAL of a channel program's hoop (R174, R384). -/
structure HoopRec where
  target : Word
  issued : Nat
  joined : Bool
  pos : Nat
  loops : List LoopRec
  signal : Signal
  deriving DecidableEq, Repr

/-- A column, or a channel program, as a stream (R86, R143, R170, R174, R283, R285). `next` is the beat after the
issue beat P of the previous word, `floor` the beat before which no word issues after an eret (R388), `word` the
word that the column fetched when its predecessor issued (R144), and `ask` the number of the demand requests that the
word at the head has made (R325). -/
structure Column where
  base : Nat
  size : Nat
  tail : Nat
  put : Nat
  head : Nat
  next : Nat
  floor : Nat
  portFree : Nat
  timed : Bool
  ended : Bool
  stopped : Bool
  tried : Bool
  word : Option Nat
  ask : Option Nat
  loops : List LoopRec
  hoop : Option HoopRec
  joined : Vector Nat 8
  deriving DecidableEq, Repr

/-- A token of a FIFO, in the order of its reservation (R93, R171). -/
structure Tok where
  src : Col
  dst : Col
  id : Nat
  ready : Bool
  deriving DecidableEq, Repr

/-- An entry of a q or w queue (R68). -/
structure QEntry where
  id : Nat
  landed : Bool
  v : VVal
  deriving DecidableEq, Repr

/-- A mask register with one taint bit for each row (R69, R180). -/
structure KReg where
  bits : BitVec 2048
  taint : BitVec 16
  deriving DecidableEq, Repr

/-- A bit-network pattern (R71, R198). -/
structure NPat where
  bits : VImage
  t : Bool
  deriving DecidableEq, Repr

/-- A table slot: loaded bit, function code and 257 nodes of value and slope (R202). -/
structure TabSlot where
  loaded : Bool
  fn : TabFn
  nodes : List (BitVec 32 × BitVec 32)
  t : Bool
  deriving DecidableEq, Repr

/-- A counter j: value, target and link (R72, R82). -/
structure Counter where
  val : BitVec 32
  tgt : BitVec 32
  link : BitVec 17
  deriving DecidableEq, Repr

/-- A barrier as a team sees it: its configuration, and how many generations it has observed complete (R285). -/
structure Barrier where
  valid : Bool
  package : Bool
  parts : Nat
  seen : Nat
  deriving DecidableEq, Repr

/-- An effect on its way: the beat at which it takes place, its rank among the effects of that beat, the context of
the word that made it, and the event or word itself (R74, R92, R131). -/
structure Pend where
  due : Nat
  rank : Nat
  cx : Cur
  act : Instr
  deriving DecidableEq, Repr

/-- A trap or interrupt that a team has raised and not yet taken: where its column goes on and what TEPC names differ for a
word that has performed (R149, R377, R378, R384). -/
structure TrapRec where
  col : Col
  pos : Nat
  cause : Nat
  tval : Word
  due : Nat
  aux : Word
  epc : Nat
  deriving DecidableEq, Repr

/-- A job's or launch's barrier: arrivals A of the current generation and completed generations G; and the beat of the
last arrival with A and G as that beat found them and the streams that have arrived on it, in the order of R285. A stream
is a logical core and a column code; a channel program stands as core 2048 + its pseudo-channel and column 5. -/
structure BarCount where
  a : Nat
  g : Nat
  parts : Nat
  beat : Nat
  a0 : Nat
  g0 : Nat
  joiners : List (Nat × Nat)
  deriving DecidableEq, Repr

/-! ## The matrix path of a team -/

/-- A ring of mat: configuration value, head and tail in slots (R222), and for each head advance that timed words may
not observe yet the beat from which they may and the head before it (R234). (Log: 26, 46 DEDUCED.) -/
structure RingSt where
  cfg : Word
  head : Nat
  tail : Nat
  hidden : List (Nat × Nat)
  deriving DecidableEq, Repr

/-- A nest as taken by mgo (R224, R226). -/
structure Nest where
  levels : List NestLevel
  desc : Option DrainDesc
  deriving DecidableEq, Repr

/-- A leaf that some TLB of the package holds: its job, its level, the page of virtual addresses that it maps, and the entry
(R402). (Log: 8 DESIGN CHOICE.) -/
structure TlbEntry where
  job : Nat
  lvl : Nat
  page : Nat
  entry : Nat
  deriving DecidableEq, Repr

/-- A layout record as read (R303), or the endpoint it stands for once the bank format is applied (R251); a
drain's to global memory keeps the leaves that its word translated (R404). -/
structure Layout where
  kind : Nat
  ty : ElemTy
  axis : Nat
  qt : Nat
  cb : Nat
  ndim : Nat
  loc : Nat
  mexp : Nat
  bsl : Nat
  tscale : Nat
  base : Nat
  ext : List Nat
  strides : List Int
  core : Nat
  raen : Bool
  rring : Ring
  rcnt : Nat
  book : List Nat
  pages : List TlbEntry := []
  deriving DecidableEq, Repr

/-- The configuration that a nest or a step runs under: the format, the two ring configurations, the format registers of
the banks that hold the rings, the codebook slots as they stood, the nest, and a row Y + 1 core of a quad, whose B slots
are those of another core (R219, R225, R228). -/
structure MatCfg where
  fmt : Word
  ringA : Word
  ringB : Word
  bankA : Word
  bankB : Word
  books : List (List Nat)
  nest : Option Nest
  bFrom : Option Nat
  deriving DecidableEq, Repr

/-- A word in the engine queue (R218): its number, context and instruction, the configuration it took, the endpoints of
its drain, the next step `k` of its nest and how many drains it has made, the ring heads at activation, whether the engine
has begun it, the drain of the last step's exit that is still to start, the beat at which a quad's activation was reached
and the beat Q (R228), and the beat at which its engine time ended. -/
structure MatJob where
  id : Nat
  cx : Cur
  act : Instr
  cfg : MatCfg
  recs : List Layout
  k : Nat
  drains : Nat
  hA : Nat
  hB : Nat
  begun : Bool
  exit : Bool
  reach : Option Nat
  quadAt : Option Nat
  ended : Option Nat
  deriving DecidableEq, Repr

/-- A row group in the Border (R232, R233): its number, its job (0 for the inbox), its kind (0 step, 1 drain, 2 peer-add
application), the tile's base granule, shape and type, its row group number, the step it belongs to with its ring
positions, whether acc_old is +0, the row groups it waits for, its completion beat, where it stands, its values in the
accumulator type with taint and exceptions, a drain's stored bytes in storage order with what own scratchpad held before,
the drain's destination (0 own, 1 another core, 2 global, 3 a peer's inbox) and core, the exclusive OR that makes the
stake engine's image wrong in its first word, what the freeze has found of it, and the leaves that its word
has translated (R404). -/
structure RowGroup where
  id : Nat
  job : Nat
  kind : Nat
  g : Nat
  m : Nat
  n : Nat
  acc : Nat
  row : Nat
  step : Nat
  posA : Nat
  posB : Nat
  zero : Bool
  deps : List Nat
  complete : Nat
  done : Bool
  failed : Bool
  committed : Bool
  released : Bool
  part : Nat
  vals : List (BitVec 64)
  taint : List Bool
  exc : BitVec 5
  bytes : List (Nat × BitVec 8 × Bool)
  saved : List (Nat × BitVec 8 × Bool)
  loc : Nat
  core : Nat
  seq : Nat
  stake : Word
  cx : Cur
  found : Word := 0
  pages : List TlbEntry := []
  deriving DecidableEq, Repr

/-- A drain or a checkpoint that mplait can name: its word, whether it is a checkpoint, its row groups and those of a
transposed copy, the endpoints drained to, and its two plaits once every row group has committed (R226, R247). -/
structure PlaitRec where
  job : Nat
  ckpt : Bool
  rgs : List Nat
  trans : List Nat
  dst : List Layout
  value : Option (Word × Word)
  obs : Nat
  deriving DecidableEq, Repr

/-- The inbox: configuration, next sequence number, the early contribution's rows, the rows of the contribution being
applied that have arrived, the next row group to apply, whether an application is in progress, and the numbers already
applied (R244 to R246). -/
structure Inbox where
  g : Nat
  cfg : Word
  seq : Nat
  active : Bool
  early : List Contribution
  rows : List Contribution
  row : Nat
  busy : Bool
  applied : List Nat
  deriving DecidableEq, Repr

/-! ## Copies and requests of a team -/

/-- A copy word in flight (R252 to R254, R262, R263): what its resume dword and registers hold, its endpoints, the first
chunk that it applies, the chunk that it has reached and how many there are, the beat at which that chunk's sectors were
sent and how many are still to land, the exceptions of that chunk, the source bytes sampled by image offset, the expected
plait, the fill value, and whether it stands still after a fault or a watchpoint. -/
structure Copy where
  id : Nat
  cx : Cur
  op : Nat
  body : Nat
  regS : Word
  regD : Word
  regs : List Word
  cls : Nat
  src : Option Layout
  dst : Option Layout
  first : Nat
  chunk : Nat
  chunks : Nat
  sent : Nat
  left : Nat
  exc : BitVec 5
  image : List Host.Cell
  expect : Word
  fill : TW
  kept : List (Nat × BitVec 8 × Bool)
  timed : Bool
  faulted : Bool
  halted : Bool
  deriving DecidableEq, Repr

/-- A cpx request outstanding (R266): its number, engine, ordering class (R328), descriptor and context. -/
structure CpxReq where
  id : Nat
  engine : Nat
  cls : Nat
  desc : List (BitVec 8)
  cx : Cur
  deriving DecidableEq, Repr

/-- A line of the local cache: way-independent physical line number, valid bits of its four sectors, crumb write
mask, data and taint (R297), for each sector the column that filled it and the phase (R345), and the key of its page (R461).
(Log: 20 DEDUCED.) -/
structure CLine where
  line : Nat
  way : Nat
  valid : BitVec 4
  mask : BitVec 4096
  data : BitVec 8192
  taint : BitVec 32
  note : List (Nat × Col × Nat)
  key : Option (Fin 64)
  deriving DecidableEq, Repr

/-- A byte of scratchpad that an elastic access of one path has written and that another path may not see yet: the paths (0 ctl,
1 acs, 2 cpy, 3 mat), the access's class and the number of its word, the address, what the byte held before with its taint,
and the team's beat from which the other path sees it (R332). -/
structure Unseen where
  src : Nat
  dst : Nat
  cls : Nat
  id : Nat
  a : Nat
  old : BitVec 8
  taint : Bool
  till : Nat
  deriving DecidableEq, Repr

/-! ## A team -/

/-- The state of a team on a logical core (R61, INVENTORY). `clk` counts the beats that have elapsed for it; `held` are the
effects that a freeze cut and the frame records; `svcClk` and `svcPend` are the service beats of a handler; `hidden` holds,
for each counter increment that timed words may not observe yet, the counter and the beat from which they may (R234);
`inbound` holds the timed drains into the team that have not landed: sender, word and beat of start (R89). `sick` and
`accSick` hold the 64-bit words of scratchpad and accumulators that are not sound, with 1 where ECC corrects what it reads
and 2 where it cannot; no step adds one. `unseen` holds the elastic writes that some path may not see yet, oldest first
(R332). `found` holds the check events of ECC, kind and unit, that wait for the end of the beat (R438), `coming` the sectors
in which a copy has still to land, with the copy (R349). While a handler runs, `parked` keeps the words that were waiting at
the cut, and `hoop` the hoop that ctl stalled in (R382, R384). `told` holds, for each event of the team that has fired, the
path and the number of the last word of that path that fired it, and `heard` for each path the last word whose completion
ctl has observed, with those before it (R136). (Log: 9 DESIGN CHOICE.) -/
structure Team where
  cid : Nat
  launch : Nat
  job : Nat
  ord : Nat
  patch : Word
  pext : Word
  ndet : Nat
  tgroup : Bool
  banks : BitVec 16
  granules : BitVec 24
  inboxBase : Option Nat
  tfLen : Nat
  clk : Nat
  delta : Int
  frozen : Bool
  frozenNs : Nat
  frozenWhy : Nat
  svc : Bool
  handler : Bool
  depth : Nat
  svcClk : Nat
  svcPend : List Pend
  held : List Pend
  parked : List Pend
  hoop : Option HoopRec
  cols : Vector Column 5
  s : Vector TW 64
  a : Vector TW 16
  v : Vector VVal 64
  o : Vector VVal 8
  lat : VVal
  q : Vector (List QEntry) 4
  w : Vector (List QEntry) 4
  k : Vector KReg 8
  m : Vector (Vector (Option ModEntry) 16) 8
  n : Vector NPat 8
  tab : Vector TabSlot 4
  p : Vector (Option Pattern) 8
  toks : List Tok
  flags : BitVec 32
  cnt : Vector Counter 32
  bars : Vector Barrier 8
  mbx : Vector Word 16
  vrm : Word
  vsat : Word
  vshape : Word
  vexc : Word
  mexc : Word
  cexc : Word
  stkb : Word
  stkl : Word
  stkp : Word
  dbgctl : Word
  tfb : Word
  tcause : Word
  tval : Word
  tepc : Word
  tstat : Word
  tie : Word
  tip : Word
  tscratch : Word
  timecmp : Word
  csrTaint : List Nat
  spad : List Host.Cell
  spadTaint : List Nat
  sick : List (Nat × Nat)
  unseen : List Unseen
  told : List (Nat × Nat × Nat)
  heard : List (Nat × Nat)
  fresh : List (Nat × Nat × Nat)
  touch : List (Nat × Nat)
  coming : List (Nat × Nat)
  ways : Nat
  bfmt : Vector Word 16
  books : Vector (List Nat) 8
  cache : List CLine
  acc : List Host.Cell
  accTaint : List Nat
  accSick : List (Nat × Nat)
  found : List (Nat × Nat)
  mfmt : Word
  mringA : Word
  mringB : Word
  mnest : Option Nest
  active : Option MatCfg
  rA : RingSt
  rB : RingSt
  engine : List MatJob
  engineFree : Nat
  plaitObs : Nat
  hidden : List (Nat × Nat)
  inbound : List (Nat × Nat × Nat)
  border : List RowGroup
  inbox : Inbox
  plaits : List PlaitRec
  copies : List Copy
  xferFree : Nat
  advances : List (Nat × Ring × Nat)
  cpx : List CpxReq
  pend : List Pend
  waiting : List Pend
  traps : List TrapRec
  freezeReq : Option Nat
  lastPulse : Word
  nextId : Nat
  deriving DecidableEq, Repr

/-! ## Pseudo-channels -/

/-- A channel program on its sequencer (R276, R319): launch, grant number, owner, level, words, stream state on the
owner's clock, and the beat and ring position of the last word issued (R324). -/
structure ChanProg where
  launch : Nat
  grant : Nat
  owner : Nat
  svc : Bool
  words : List Word
  st : Column
  lastAt : Nat
  lastPos : Nat
  deriving DecidableEq, Repr

/-- A command in a pseudo-channel's history: tick, kind, bank and row (R317). -/
structure CmdRec where
  tick : Nat
  kind : Nat
  bank : Nat
  deriving DecidableEq, Repr

/-- A demand request (R325): its kind, bank and row, and the core and number under which a word, a copy or a request of the core
waits for it; number 0 stands for one that nobody of the module waits for. -/
structure DemandReq where
  kind : DemandKind
  bank : Nat
  row : Nat
  cid : Nat
  id : Nat
  deriving DecidableEq, Repr

/-- A pseudo-channel (R311, R317, R320, R321, R325, R401). `hotQ` is the time of the program's schedule spent above 85 degrees
that no rise of the hot debt has counted yet, in quarters of a tick or, under beat interleave, in sixteenths (R322);
`busyTill` is the beat at which the demand sequencer's last sequence ends. -/
structure Pc where
  pc : Nat
  banks : Vector (Option Nat) 16
  hist : List CmdRec
  prog : Option ChanProg
  slots : List Host.Cell
  slotTaint : List Nat
  slotLand : List (Nat × Nat)
  refs : Vector Nat 16
  t0 : Nat
  debt : Vector Nat 16
  hotQ : Nat
  queue : List DemandReq
  busyTill : Nat
  winEnd : Nat
  winown : Word
  stopPos : Word
  deriving DecidableEq, Repr

/-! ## The package -/

/-- A channel-window sector in the L2, filled by rd.l2: which of its eight parts have been filled, their bytes, and one
taint bit for each part; with all eight it is valid (R270, R316). -/
structure L2Sector where
  sector : Nat
  parts : BitVec 8
  data : BitVec 2048
  taint : BitVec 8
  deriving DecidableEq, Repr

/-- A logical die: its BEAT and its sixteen apertures APVB, APLEN, APPB, APCTL (R84, R308). -/
structure Die where
  beat : Word
  apertures : Vector (Vector Word 4) 16
  deriving DecidableEq, Repr

/-- Where a launch stands (R364). -/
inductive LState where
  | waiting | ready | setup | running | draining | saved | done
  deriving DecidableEq, Repr

/-- A launch on the scoreboard (R364): its number in the model, its identity, the source that submitted it (a queue, or
`ctlSource` of a team) with the queue and the tag of its records (R361), packet dwords, tables read at acceptance, mailbox
snapshot, the table that could not be read, placement, launch-scope barriers, what its completion record will say, a cut or a
drain under way, its place in the context pool, and what set-up has prepared or a save has kept of it. -/
structure Launch where
  handle : Nat
  job : Nat
  ord : Nat
  phase : Nat
  graph : Nat
  order : Nat
  state : LState
  source : Nat
  queue : Option Nat
  tag : Nat
  pkt : List Word
  grants : List (List Word)
  sync : List Word
  bankimg : List (List Word)
  mbx : List Word
  unread : Option Nat
  cids : List Nat
  pcs : List Nat
  bars : Vector BarCount 8
  taint : Bool
  conflicts : Nat
  status : Nat
  offset : Nat
  cut : Option Nat
  drain : Option Nat
  image : Option (Nat × Nat)
  savedTeams : List Team
  savedPcs : List Pc
  savedBeat : Word
  deriving DecidableEq, Repr

/-- A graph (R362). -/
structure Graph where
  id : Nat
  job : Nat
  closed : Bool
  launches : Nat
  completed : Nat
  queue : Nat
  deriving DecidableEq, Repr

/-- A job: phase number, ordinals, package barriers and counters, and for the phase the sources that have submitted to it and
whether it has held a watched launch (R342, R343, R359, R285). -/
structure Job where
  job : Nat
  phase : Nat
  nextOrd : Nat
  bars : Vector BarCount 8
  nextGraph : Nat
  completed : Nat
  phaseDone : Nat
  sources : List Nat
  watched : Bool
  deriving DecidableEq, Repr

/-- A host queue's registers (R412), its open graph, the completion records that wait for room with their launches, and
whether a fault on the event queue holds them (R413, R414). -/
structure HQueue where
  qctl : Word
  qbase : Word
  qsize : Nat
  qhead : Nat
  tail : Nat
  eqbase : Word
  eqsize : Nat
  eqta : Word
  eqhead : Nat
  eqt : Nat
  openGraph : Option Nat
  pendRecs : List (Nat × List Word)
  held : Bool
  deriving DecidableEq, Repr

/-- Observation registers of a logical core: counters, watchpoints, and the stop vector HEAD0 to HEAD4 and STOPF (R423,
R424, R428, R431). `watchWas` holds what the watchpoints were before each write to them: the launch whose accesses it is
still in force for, the clock from which it is not, and the registers. -/
structure CoreObs where
  classes : Vector (Vector Nat 4) 5
  waits : Vector Nat 79
  watch : Vector (Vector Word 5) 4
  watchWas : List (Nat × Nat × Vector (Vector Word 5) 4)
  heads : Vector Word 5
  stopF : Word
  deriving DecidableEq, Repr

/-- A trace ring of a job slot (R426), with the BEAT of each logical die's last record and the records it has
dropped since its last sync (R425). -/
structure Trace where
  base : Word
  size : Word
  tail : Nat
  head : Nat
  drop : Nat
  last : Vector (Option Word) 5
  lost : Vector Nat 5
  deriving DecidableEq, Repr

/-- A debug stop slot: DSTOP, with ORD and STOPPED, and the launch that a stop is requested of or in force for (R431). -/
structure DStop where
  ctl : Word
  launch : Option Nat
  deriving DecidableEq, Repr

/-- A request of an I/O-die engine to the fabric: its number, the die that sent it (6 X0, 7 X1), the count of resets that
it carries, and the team and cpx request that it serves (R416, R421). -/
structure FabReq where
  id : Nat
  die : Nat
  epoch : Nat
  cid : Nat
  launch : Nat
  req : Nat
  deriving DecidableEq, Repr

/-- Kensia, the part and its power (R437, R447 to R461). `rimMap` holds the rims of the memory map in force (R315, R444),
`torn` says that the last flash write was interrupted, `cxl` which functions attached as CXL devices (R409), `harvestSig`
holds the signature of each entry of the harvest log, `causes` holds the causes of an emergency that are present and
`emergencyLate` the beats of stretches between its request and its freeze, `nonces` counts the unlock nonces drawn,
`rimsNext` says that the module enters RIMS when an emergency ends, `stretchFrom` is the ns at which a stretch began. -/
structure Kensia where
  step : Nat
  interleave : Bool
  health : Word
  cethr : Word
  retdl : Word
  clogTail : Nat
  clogIdx : Nat
  hlogIdx : Nat
  rmapIdx : Nat
  checkLog : List (List Word)
  clogNew : Nat × Nat
  harvestLog : List (List Word)
  harvestSig : List (List (BitVec 8))
  events : List (UnitId × Nat × Nat)
  marks : List (UnitId × Nat × Nat)
  remapDie : Vector Nat 5
  remapCore : List (Nat × Nat)
  retired : List UnitId
  rimMap : List Nat
  ksidx : Nat
  ksLatch : BitVec 32
  ksLow : BitVec 32
  pwrst : Word
  pwrlim : Word
  pwravg : Word
  emgto : Word
  err : Nat
  fwver : Word
  fwaddr : Word
  fwctl : Word
  dnonce : List Word
  unlkaddr : Word
  unlkctl : Word
  attaddr : Word
  attctl : Word
  keyaddr : Word
  keyctl : Word
  lifecycle : Nat
  floor : BitVec 32
  unlocks : Nat
  identity : List Word
  cxl : Vector Bool 2
  image : List (BitVec 8)
  torn : Bool
  boots : Nat
  meas : Vector (BitVec 384) 3
  keys : Vector (Option (BitVec 512)) 64
  emergency : Option (Emergency × Nat)
  emergencyNs : Nat
  emergencyLate : Nat
  causes : List Emergency
  rimsNext : Bool
  stretchReq : Option Nat
  stretchLeft : Nat
  stretchFrom : Option Nat
  deriving DecidableEq, Repr

/-- A malfunction of the hardware that its checks exist to find: in the word, row group or unit of a number on a core, at a
place (0 the stake engine, 1 the weaver engine, 2 Bodkin, 3 a vec unit under the residue check, 4 the answers of mchk, 5 a
chunk of a copy, 6 a transfer between cores or to a pseudo-channel, 7 a 32-byte unit in DRAM, 8 one in an L2 slice, 9
bring-up, 10 the record of a sector in an L2 slice), what it does to the result (R59, R236, R239, R433, R438, R439, R452).
No step adds one: it comes from outside the model. (Log: 9 DESIGN CHOICE.) -/
structure Upset where
  cid : Nat
  id : Nat
  place : Nat
  x : Word
  deriving DecidableEq, Repr

/-- The whole module (INVENTORY, State). `cur` is the context of the word or event being executed; `agenda` and
`inputs` are events of the package and from outside with the package beats at which they take place.
(Log: 134 DESIGN CHOICE.) -/
structure State where
  now : Nat
  nsThirds : Nat
  nsOffset : Int
  slew : Int
  dies : Vector Die 5
  teams : List Team
  pcs : List Pc
  mem : List Host.Cell
  memTaint : List Nat
  poison : List Nat
  recs : List (Nat × BitVec 128 × Nat)
  l2 : List L2Sector
  host : List Host.Cell
  mrs : List (Nat × BitVec 8)
  temps : List (Nat × Nat)
  launches : List Launch
  graphs : List Graph
  jobs : List Job
  nextHandle : Nat
  nextOrder : Nat
  drainlim : Word
  rsv : Vector (Vector Word 3) 16
  ctxbase : Word
  ctxlen : Word
  vers : Vector Word 5
  jroot : Vector Word 64
  jid : Vector Word 64
  mbx : Vector (Vector Word 16) 64
  queues : Vector HQueue 64
  xinv : Word
  xinvva : Word
  tlb : List TlbEntry
  wrows : Nat
  upsets : List Upset
  obs : List (Nat × CoreObs)
  traces : Vector Trace 64
  dstop : Vector DStop 64
  resets : Vector Nat 8
  stale : Vector Nat 8
  partners : List (Nat × Nat × Nat)
  fabric : List FabReq
  nextReq : Nat
  linkIn : List (Nat × Nat × List (BitVec 8))
  linkOut : List (Nat × Nat × List (BitVec 8))
  hostData : Option (List (BitVec 8))
  linkDrops : Nat
  msix : List Nat
  kensia : Kensia
  agenda : List Pend
  inputs : List Pend
  synced : List Nat
  free : Nat
  cur : Cur
  deriving DecidableEq, Repr

/-! ## The state at power-on -/

/-- No word. (Log: 4 DESIGN CHOICE.) -/
def Cur.none : Cur :=
  ⟨0, .ctl, 0, 0, .none, .none, 0, .issue, false, 0, 0, false, [], []⟩

/-- A logical die at power-on: BEAT 0, no aperture valid, TSCALE 1.0 (R308). (Log: 2 DESIGN CHOICE.) -/
def Die.reset : Die := ⟨0, Vector.replicate 16 #v[0, 0, 0, 0x3F80000000000000]⟩

/-- A queue at power-on: QSIZE and EQSIZE 4 (R412). (Log: 2 DESIGN CHOICE.) -/
def HQueue.reset : HQueue := ⟨0, 0, 4, 0, 0, 0, 4, 0, 0, 0, none, [], false⟩

/-- Kensia at power-on (R437, R447). (Log: 2 DESIGN CHOICE.) -/
def Kensia.reset : Kensia where
  step := 0
  interleave := false
  health := 0x100060
  cethr := 86400 <<< 32 ||| 16
  retdl := 3600
  clogTail := 0
  clogIdx := 0
  hlogIdx := 0
  rmapIdx := 0
  checkLog := []
  clogNew := (0, 0)
  harvestLog := []
  harvestSig := []
  events := []
  marks := []
  remapDie := #v[0, 1, 2, 3, 4]
  remapCore := []
  retired := []
  rimMap := [0, 1, 2, 3, 4, 5]
  ksidx := 0
  ksLatch := 0
  ksLow := 0
  pwrst := 0
  pwrlim := 4200
  pwravg := 0
  emgto := 2000
  err := 0
  fwver := 0
  fwaddr := 0
  fwctl := 0
  dnonce := []
  unlkaddr := 0
  unlkctl := 0
  attaddr := 0
  attctl := 0
  keyaddr := 0
  keyctl := 0
  lifecycle := 0
  floor := 0
  unlocks := 0
  identity := []
  cxl := #v[false, false]
  image := []
  torn := false
  boots := 0
  meas := Vector.replicate 3 0
  keys := Vector.replicate 64 none
  emergency := none
  emergencyNs := 0
  emergencyLate := 0
  causes := []
  rimsNext := false
  stretchReq := none
  stretchLeft := 0
  stretchFrom := none

/-- The module right after power is applied, before Kensia's bring-up (R452): nothing is stored anywhere, no launch
is live, and every register holds the reset value of INVENTORY. (Log: 1, 11 DEDUCED; 2, 3, 4 DESIGN CHOICE.) -/
def State.reset : State where
  now := 0
  nsThirds := 0
  nsOffset := 0
  slew := 0
  dies := Vector.replicate 5 Die.reset
  teams := []
  pcs := []
  mem := []
  memTaint := []
  poison := []
  recs := []
  l2 := []
  host := []
  mrs := []
  temps := []
  launches := []
  graphs := []
  jobs := []
  nextHandle := 1
  nextOrder := 0
  drainlim := 2000
  rsv := Vector.replicate 16 (Vector.replicate 3 0)
  ctxbase := 0
  ctxlen := 0
  vers := Vector.replicate 5 0
  jroot := Vector.replicate 64 0
  jid := Vector.replicate 64 0
  mbx := Vector.replicate 64 (Vector.replicate 16 0)
  queues := Vector.replicate 64 HQueue.reset
  xinv := 0
  xinvva := 0
  tlb := []
  wrows := 0
  upsets := []
  obs := []
  traces := Vector.replicate 64 ⟨0, 14, 0, 0, 0, Vector.replicate 5 none, Vector.replicate 5 0⟩
  dstop := Vector.replicate 64 ⟨0, none⟩
  resets := Vector.replicate 8 0
  stale := Vector.replicate 8 0
  partners := []
  fabric := []
  nextReq := 0
  linkIn := []
  linkOut := []
  hostData := none
  linkDrops := 0
  msix := []
  kensia := Kensia.reset
  agenda := []
  inputs := []
  synced := []
  free := 0
  cur := Cur.none

end Sys2Proof.Machine
end

