-- ==== Sys2Proof/Machine/Memory.lean ====
section
/-! DEFINITION. Byte memories as lists of cells in one canonical form, and sets of taint units. An address that no
cell lists reads as 0 (R281, R452). -/

namespace Sys2Proof.Machine

/-- The canonical form of a memory: addresses strictly rise and no cell holds 0, which unlisted addresses read as.
(Log: 3 DESIGN CHOICE.) -/
def Memory.wf : List Host.Cell → Bool
  | [] => true
  | [c] => c.2 != 0
  | c :: d :: m => c.2 != 0 && c.1 < d.1 && Memory.wf (d :: m)

/-- The byte at address a (R6). (Log: 3, 134 DESIGN CHOICE.) -/
def readByte : List Host.Cell → Nat → Byte
  | [], _ => 0
  | c :: m, a => if c.1 = a then c.2 else if a < c.1 then 0 else readByte m a

/-- The memory with byte x at address a, kept in canonical form (R6). -/
def writeByte : List Host.Cell → Nat → Byte → List Host.Cell
  | [], a, x => if x = 0 then [] else [(a, x)]
  | c :: m, a, x =>
    if c.1 < a then c :: writeByte m a x
    else if c.1 = a then (if x = 0 then m else (a, x) :: m)
    else if x = 0 then c :: m else (a, x) :: c :: m

/-- n bytes from address a as one little-endian number (R6). (Log: 3 DESIGN CHOICE.) -/
def readNat (m : List Host.Cell) (a : Nat) : Nat → Nat
  | 0 => 0
  | n + 1 => (readByte m a).toNat + 256 * readNat m (a + 1) n

/-- The memory with the n low bytes of x at address a, little-endian (R6). -/
def writeNat (m : List Host.Cell) (a x : Nat) : Nat → List Host.Cell
  | 0 => m
  | n + 1 => writeNat (writeByte m a (BitVec.ofNat 8 x)) (a + 1) (x / 256) n

/-- n bytes from address a. -/
def readBytes (m : List Host.Cell) (a : Nat) : Nat → List Byte
  | 0 => []
  | n + 1 => readByte m a :: readBytes m (a + 1) n

/-- The memory with a list of bytes at address a; `none` keeps the old byte (R258). -/
def writeBytes (m : List Host.Cell) (a : Nat) : List (Option Byte) → List Host.Cell
  | [] => m
  | some x :: l => writeBytes (writeByte m a x) (a + 1) l
  | none :: l => writeBytes m (a + 1) l

/-- The memory without the cells of addresses lo to hi - 1: they read as 0 (R134, R230). -/
def clearRange (m : List Host.Cell) (lo hi : Nat) : List Host.Cell :=
  m.filter fun c => c.1 < lo || hi ≤ c.1

/-- The cells of a list of bytes from address a on. -/
def cellsFrom (a : Nat) : List Byte → List Host.Cell
  | [] => []
  | b :: l => if b = 0 then cellsFrom (a + 1) l else (a, b) :: cellsFrom (a + 1) l

/-- The memory with a list of bytes laid over it from address a on. -/
def layBytes (m : List Host.Cell) (a : Nat) (l : List Byte) : List Host.Cell :=
  m.filter (fun c => c.1 < a) ++ cellsFrom a l ++ m.filter fun c => a + l.length ≤ c.1

/-- A set of taint units with unit n put in or taken out, kept sorted (R127). -/
def setUnit : List Nat → Nat → Bool → List Nat
  | [], n, t => if t then [n] else []
  | x :: l, n, t =>
    if x < n then x :: setUnit l n t
    else if x = n then (if t then x :: l else l)
    else if t then n :: x :: l else x :: l

/-- A set of taint units without those from lo to hi - 1. -/
def clearTaint (l : List Nat) (lo hi : Nat) : List Nat := l.filter fun u => u < lo || hi ≤ u

/-- Some unit from lo to hi - 1 is in the set (R127). -/
def anyUnit (l : List Nat) (lo hi : Nat) : Bool := l.any fun x => lo ≤ x && x < hi

/-- Bytes of a little-endian number. -/
def bytesOf (x : Nat) : Nat → List Byte
  | 0 => []
  | n + 1 => BitVec.ofNat 8 x :: bytesOf (x / 256) n

/-- The little-endian number of a list of bytes. -/
def natOfBytes : List Byte → Nat
  | [] => 0
  | b :: l => b.toNat + 256 * natOfBytes l

end Sys2Proof.Machine
end

