-- ==== Sys2Proof/Machine/Trace.lean ====
section
/-! DEFINITION. Where physical addresses lie (R311, R313, R315, R460), and the trace rings (R425, R426). -/

namespace Sys2Proof.Machine

/-! ## Logical dies -/

/-- The logical die of a core (R83). -/
def dieOf (cid : Nat) : Nat := cid / 256 % 8

/-- A logical die; numbers 5 to 7 name none and read as die 0. -/
def State.die (s : State) (z : Nat) : Die := if h : z < 5 then s.dies[z] else s.dies[0]

/-! ## Physical addresses -/

/-- The live rims, in ascending physical die number (R315, R440). -/
def State.liveRims (s : State) : List Nat := (List.range 6).filter fun d => !s.kensia.retired.contains ⟨4, d⟩

/-- Where a physical address lies: pseudo-channel, bank, row and column (R313, R315). -/
structure Place where
  pc : Nat
  bank : Nat
  row : Nat
  col : Nat
  deriving DecidableEq, Repr

/-- The exclusive OR of the five 7-bit groups of a frame group (R315). -/
def foldPc (g : Nat) : Nat :=
  Nat.xor (fld g 0 7) (Nat.xor (fld g 7 7) (Nat.xor (fld g 14 7) (Nat.xor (fld g 21 7) (fld g 28 7))))

/-- NROWS as WINGEO reports it: the smallest over the live rims (R314). (Log: 158 DEDUCED.) -/
def State.nrows (s : State) : Nat := (s.liveRims.map Config.rimRows).foldl min 65536

/-- The place of a physical address, if it addresses memory: its rim must be live, and no row of its striped frame may reach
NROWS of that rim (R311, R313, R315, R460). -/
def State.placeOf (s : State) (pa : Nat) : Option Place :=
  if 2 ^ 52 ≤ pa then none
  else if fld pa 51 1 = 1 then
    let p := fld pa 32 10
    if fld pa 42 9 ≠ 0 || 768 ≤ p || !s.liveRims.contains (p / 128) then none
    else some ⟨p, fld pa 10 4, fld pa 14 18, fld pa 5 5⟩
  else
    let l := s.kensia.rimMap
    let f := pa / 2 ^ 16
    let g := f / l.length
    let row := s.wrows + 4 * (g / 128)
    match l[f % l.length]? with
    | none => none
    | some d =>
      if Config.rimRows d ≤ row + 3 || !s.liveRims.contains d then none
      else some ⟨128 * d + foldPc g, fld pa 10 4, row + fld pa 14 2, fld pa 5 5⟩

/-- A physical address that addresses memory (R460). -/
def State.addressable (s : State) (pa : Nat) : Bool := (s.placeOf pa).isSome

/-- Every 64 KiB frame of n bytes from pa addresses memory (R460). -/
def State.rangeOk (s : State) (pa n : Nat) : Bool :=
  (List.range ((pa + n + 65535) / 65536 - pa / 65536)).all fun i => s.addressable ((pa / 65536 + i) * 65536)

/-! ## Trace (R425, R426) -/

/-- Wall-clock nanoseconds since bring-up; a beat is a third of one (R427, R451). -/
def State.ns (s : State) : Nat := ((s.nsThirds : Int) / 3 + s.nsOffset).toNat

/-- log2 of a ring's records (R426). -/
def Trace.log (x : Trace) : Nat := x.size.toNat / 2 % 32
/-- The ring records (R426). -/
def Trace.on (x : Trace) : Bool := x.size.getLsbD 0
/-- The ring has room for another record (R426). -/
def Trace.room (x : Trace) : Bool := x.tail < x.head + 2 ^ x.log

/-- The four dwords of a record as one number (R425). -/
def recordOf (delta col core sub die kind d1 d2 d3 : Nat) : Nat :=
  kind + die * 2 ^ 8 + sub % 32 * 2 ^ 11 + core % 2048 * 2 ^ 16 + col * 2 ^ 27 + delta % 2 ^ 32 * 2 ^ 32 +
  d1 % 2 ^ 64 * 2 ^ 64 + d2 % 2 ^ 64 * 2 ^ 128 + d3 % 2 ^ 64 * 2 ^ 192

/-- The physical address of a ring's record (R426). -/
def Trace.at (x : Trace) (k : Nat) : Nat := x.base.toNat + 32 * (k % 2 ^ x.log)

/-- A record put into a ring that has room, at the BEAT `now` of its die: no byte of one that would lie where there is no memory
is written (R460). (Log: 158 DEDUCED.) -/
def writeRecord (real : Nat → Bool) (mem : List Host.Cell) (x : Trace) (z : Fin 5) (now : Word) (r : Nat) : List Host.Cell × Trace :=
  (if real (x.at x.tail) then writeNat mem (x.at x.tail) r 32 else mem,
   { x with tail := x.tail + 1, last := x.last.set z (some now) })

/-- A ring with one record lost (R426). -/
def Trace.loseOne (x : Trace) (z : Fin 5) : Trace :=
  { x with drop := x.drop + 1, lost := x.lost.set z (x.lost[z] + 1) }

/-- The beats since a die's last record (R425). -/
def Trace.delta (x : Trace) (z : Fin 5) (now : Word) : Nat :=
  match x.last[z] with
  | some b => (now - b).toNat
  | none => 0

/-- TRACE_RECORD_WRITE (R426): a full ring drops the record; after a drop or after EN was set, a sync record comes first.
`after` is the BEAT from which the die's next record counts. -/
def Trace.emit (real : Nat → Bool) (x : Trace) (mem : List Host.Cell) (z : Fin 5) (now after : Word) (ns : Nat) (r : Nat → Nat) :
    List Host.Cell × Trace :=
  if !x.on then (mem, x)
  else if !x.room then (mem, x.loseOne z)
  else
    let m := if (x.last[z]).isNone || 0 < x.lost[z] then
        let y := writeRecord real mem x z now (recordOf (x.delta z now) 7 0 0 z 0 now.toNat ns (x.lost[z]))
        (y.1, { y.2 with lost := y.2.lost.set z 0 })
      else (mem, x)
    if m.2.room then writeRecord real m.1 m.2 z after (r (m.2.delta z now)) else (m.1, m.2.loseOne z)

/-- The trace slot of a job: the valid root slot whose JID names it (R422, R426). -/
def State.slotOf (s : State) (job : Nat) : Option (Fin 64) :=
  (List.finRange 64).find? fun n => s.jroot[n].getLsbD 0 && (s.jid[n]).toNat = job

/-- The logical die of a number, if there is one. -/
def dieFin (z : Nat) : Fin 5 := ⟨z % 5, Nat.mod_lt _ (by decide)⟩

/-- The state after a trace ring has moved from x to y: the units of its new records are clean (R338, R351, R438). -/
def State.ringMoved (s : State) (n : Fin 64) (x y : Trace) (m : List Host.Cell) : State :=
  let units := (((List.range (y.tail - x.tail)).map fun i => x.at (x.tail + i)).filter s.addressable).map (· / 32)
  { s with mem := m, traces := s.traces.set n y, memTaint := units.foldl (fun l u => setUnit l u false) s.memTaint,
           poison := units.foldl (fun l u => setUnit l u false) s.poison }

/-- Write a trace record of a job on a logical die; `after` is the BEAT from which the next one counts.
(Log: 92, 102 DEDUCED.) -/
def State.traceAt (s : State) (job : Nat) (die : Nat) (after : Option Word) (kind sub col core d1 d2 d3 : Nat) : State :=
  match s.slotOf job with
  | none => s
  | some n =>
    let z := dieFin die
    let now := (s.die die).beat
    let r := (s.traces[n]).emit s.addressable s.mem z now (after.getD now) s.ns fun delta =>
      recordOf delta col core sub z kind d1 d2 d3
    s.ringMoved n s.traces[n] r.2 r.1

/-- A trace record of a team; one of no column has COL 7 and CORE 0 (R425). (Log: 92 DEDUCED.) -/
def State.trace (s : State) (t : Team) (kind sub col d1 d2 d3 : Nat) : State :=
  s.traceAt t.job (dieOf t.cid) none kind sub (if col = 6 then 7 else col) (if 6 ≤ col then 0 else t.cid) d1 d2 d3

end Sys2Proof.Machine
end

