-- ==== Sys2Proof/Machine/Ops.lean ====
section
/-! DEFINITION. The shared operations of every word: registers, effects on their way to their landing beat, the issue
of a word (R86 to R95), loops (R170), signals, and taking a trap and returning from it (R377 to R390). -/

namespace Sys2Proof.Machine

/-! ## Trap causes (R377) -/

/-- The CODE of each cause (R377). -/
inductive Cause where
  | illegal | privilege | bounds | stack | misalign | translation | protection | schedule | hoopOverdue | dramTiming
  | refreshOverdue | ringConflict | reduction | underflow | matrixCheck | copyCheck | residue | ecc | conflict | taint
  | modular | tokenOver | counterOver | watchpoint | debugBreak | software | hostInt | timerInt | peerInt
  | eccFound (kind unit : Nat)
  deriving DecidableEq, Repr

/-- The CODE field of TCAUSE (R377). -/
def Cause.code : Cause → Nat
  | .illegal => 0x01 | .privilege => 0x02 | .bounds => 0x03 | .stack => 0x04 | .misalign => 0x05
  | .translation => 0x06 | .protection => 0x07 | .schedule => 0x08 | .hoopOverdue => 0x09 | .dramTiming => 0x0A
  | .refreshOverdue => 0x0B | .ringConflict => 0x0C | .reduction => 0x0D | .underflow => 0x0E
  | .matrixCheck => 0x0F | .copyCheck => 0x10 | .residue => 0x11 | .ecc | .eccFound .. => 0x12 | .conflict => 0x13
  | .taint => 0x14 | .modular => 0x15 | .tokenOver => 0x16 | .counterOver => 0x17 | .watchpoint => 0x18
  | .debugBreak => 0x19 | .software => 0x1A | .hostInt => 0x40 | .timerInt => 0x41 | .peerInt => 0x42

/-- The check events that wait for the end of a beat, with the one that a trap's cause carries (R433, R438). -/
def Cause.noted : Cause → List (Nat × Nat) → List (Nat × Nat)
  | .eccFound kind unit, l => l ++ [(kind, unit)]
  | _, l => l

/-- A trap to raise: its cause and its TVAL. -/
abbrev Trap := Cause × Word

/-! ## Upsets (R236, R438) -/

/-- What an upset of a place does to the word, row group or unit of a number; 0 where there is none (R236, R239, R438).
(Log: 9 DESIGN CHOICE.) -/
def State.upset (s : State) (cid id place : Nat) : Word :=
  match s.upsets.find? fun u => u.cid = cid && u.id = id && u.place = place with
  | some u => u.x
  | none => 0

/-- The upsets without those of a 32-byte unit of memory at a place. (Log: 9 DESIGN CHOICE.) -/
def State.cured (s : State) (place unit : Nat) : State :=
  { s with upsets := s.upsets.filter fun u => !(u.place = place && u.id = unit) }

/-! ## Teams and columns -/

/-- The live team on a logical core (R280). -/
def State.team (s : State) (cid : Nat) : Option Team := s.teams.find? fun t => t.cid == cid

/-- The state with a team replaced by its new self. -/
def State.setTeam (s : State) (t : Team) : State :=
  { s with teams := s.teams.map fun u => if u.cid = t.cid then t else u }

/-- Index of a column in a team's vector; a channel word has no column of the team. -/
def colIdx : Col → Fin 5
  | .ctl => 0 | .acs => 1 | .vec => 2 | .mat => 3 | .cpy => 4 | .chn => 0

/-- A column of a team (R60). -/
def Team.col (t : Team) (c : Col) : Column := t.cols[colIdx c]

/-- The team with a column replaced. -/
def Team.setCol (t : Team) (c : Col) (x : Column) : Team := { t with cols := t.cols.set (colIdx c) x }

/-- The team with a column changed. -/
def Team.modCol (t : Team) (c : Col) (f : Column → Column) : Team := t.setCol c (f (t.col c))

/-- ctl of a team whose handler runs: its words issue on service beats (R382). -/
def Team.inSvc (t : Team) (c : Col) : Bool := t.handler && c = .ctl

/-- The beat of the clock that column c of the team runs on (R290, R382). -/
def Team.clock (t : Team) (c : Col) : Nat := if t.inSvc c then t.svcClk else t.clk

/-- BEAT as the streams of a team read it: the die's count plus the launch's offset (R84, R394). -/
def State.beatOf (s : State) (t : Team) : Word := (s.die (dieOf t.cid)).beat + BitVec.ofInt 64 t.delta

/-- The timed group of a team (R174). -/
def Team.group (t : Team) : Group := if t.tgroup then .launch t.launch else .team t.cid

/-- Whether a team belongs to a group. -/
def Team.inGroup (t : Team) (g : Group) : Bool := t.group = g

/-! ## Registers -/

/-- s_r: s0 reads 0 (R62). -/
def Team.getS (t : Team) (r : SReg) : TW := if r = 0 then ⟨0, false⟩ else t.s.get r.toFin

/-- The team with s_r written: a write to s0 is discarded (R62). -/
def Team.setS (t : Team) (r : SReg) (x : TW) : Team :=
  if r = 0 then t else { t with s := t.s.set r.toNat x r.isLt }

/-- a_r (R156). -/
def Team.getA (t : Team) (r : AReg) : TW := t.a.get r.toFin

/-- The team with a_r written. -/
def Team.setA (t : Team) (r : AReg) (x : TW) : Team := { t with a := t.a.set r.toNat x r.isLt }

/-- k_r: k0 reads all ones (R62). -/
def Team.getK (t : Team) (r : BitVec 3) : KReg := if r = 0 then ⟨BitVec.allOnes 2048, 0⟩ else t.k.get r.toFin

/-- The team with k_r written: a write to k0 is discarded (R62). -/
def Team.setK (t : Team) (r : BitVec 3) (x : KReg) : Team :=
  if r = 0 then t else { t with k := t.k.set r.toNat x r.isLt }

/-! ## Effects on their way -/

/-- Put an effect into a list kept by beat, then rank, then order of making (R77, R131). (Log: 4 DESIGN CHOICE.) -/
def insertPend (p : Pend) : List Pend → List Pend
  | [] => [p]
  | x :: l => if p.due < x.due || (p.due = x.due && p.rank < x.rank) then p :: x :: l else x :: insertPend p l

/-- When and by whom a transfer into a scratchpad was started; a channel rd ranks below every core (R288). -/
def landKey (p : Pend) : Option (Nat × Nat) :=
  match p.act with
  | .sectorLanding x => some (x.start, x.sender + 1)
  | .rdLanding .. => some (p.cx.issued, 0)
  | .cpdCheckDwordLands => some (p.cx.args.getD 1 0, p.cx.args.headD 0 + 1)
  | _ => none

/-- Put a landing before the landings of its beat that were started later, or on the same beat by a higher sender
(R288). -/
def insertLand (p : Pend) : List Pend → List Pend
  | [] => [p]
  | x :: l =>
    let sooner := match landKey p, landKey x with
      | some a, some b => p.due = x.due && p.rank = x.rank && (a.1 < b.1 || (a.1 = b.1 && a.2 < b.2))
      | _, _ => false
    if p.due < x.due || (p.due = x.due && p.rank < x.rank) || sooner then p :: x :: l else x :: insertLand p l

/-- Rank of a CSR write, before every OR, increment and vshape of the beat (R46, R63, R72). -/
def rankCsr : Nat := 0

/-- Rank of timed landings, before every access of the beat (R131). -/
def rankLand : Nat := 1

/-- Rank of untimed writes that arrive from another core, after every access of the team's own columns (R131). -/
def rankFar : Nat := 5

/-- Rank of the memory accesses of a column on one beat (R131). (Log: 15 DEDUCED.) -/
def rankOf : Col → Nat
  | .ctl => 2 | .acs => 3 | .vec => 3 | .mat => 4 | .cpy => 4 | .chn => 1

/-- Rank of signals, after the effects they announce: a flag's clear comes before its set (R72, R92). -/
def rankSignal : Signal → Nat
  | .clr _ => 6
  | _ => 7

/-- Rank of an event that fires (R72, R139). -/
def rankEvent : SigEvent → Nat
  | .code g => rankSignal g
  | .count (.clr _) _ => 6
  | .count .. => 7

/-- Rank of a register write: CSR writes come before the effects that R46, R63 and R72 order after them; of the writes
of FLAGS a csrc ranks with the clear signals, and a csrw or csrs, which is the latest-issued write that can land on its
beat, after every signal (R72, R77). (Log: 14 DEDUCED.) -/
def rankWrite : RegWrite → Nat
  | .csr op n _ _ => if n = 0x30 then (if op = .clear then 6 else 8) else rankCsr
  | _ => rankLand

/-- The team with an effect of a column due on its clock: a handler's effects land on service beats (R382). -/
def Team.later (t : Team) (c : Col) (p : Pend) : Team :=
  if t.inSvc c then { t with svcPend := insertPend p t.svcPend } else { t with pend := insertPend p t.pend }

/-- The team with a register write of the word landing at a beat (R74). -/
def Team.land (t : Team) (cx : Cur) (due : Nat) (w : RegWrite) : Team :=
  t.later cx.col ⟨due, rankWrite w, cx, .registerWriteLands w⟩

/-- The team with the word's SIGNAL to fire at a beat; the event stands for the word's performing too (R89, R92).
(Log: 14 DEDUCED.) -/
def Team.signalAt (t : Team) (cx : Cur) (due : Nat) : Team :=
  t.later cx.col ⟨due, rankSignal cx.signal, cx, .signalFire (.code cx.signal)⟩

/-- The team with the word to be executed again in another phase at a beat (R131, R164). -/
def Team.again (t : Team) (cx : Cur) (due : Nat) (ph : Phase) (args : List Nat) (i : Instr) : Team :=
  t.later cx.col ⟨due, rankOf cx.col, { cx with phase := ph, args := args }, i⟩

/-- Rank of a waiting word among the effects of the beat on which its condition comes to hold: after all of them. -/
def rankWait : Nat := 9

/-- The team with the word left waiting until its condition holds. -/
def Team.await (t : Team) (cx : Cur) (args : List Nat) (i : Instr) : Team :=
  { t with waiting := t.waiting ++ [⟨0, rankWait, { cx with phase := .perform, args := args }, i⟩] }

/-- Every effect of the team on its way, on either clock; while a handler runs, also those that the cut has set aside. -/
def Team.inFlight (t : Team) : List Pend := t.pend ++ t.svcPend ++ t.waiting ++ t.held ++ t.parked

/-- What an interlock protects (R75). -/
inductive RName where
  | s (r : SReg)
  | a (r : AReg)
  | p (r : BitVec 3)
  | csr (n : Nat)
  deriving DecidableEq, Repr

/-- The interlocked register that an effect on its way still has to write (R75). -/
def pendDest : Instr → Option RName
  | .registerWriteLands (.s r _ _) => some (.s r)
  | .registerWriteLands (.a r _ _) => some (.a r)
  | .registerWriteLands (.csr _ n _ _) => some (.csr n)
  | .registerWriteLands (.pat p _) => some (.p p)
  | .ld d .. => some (.s d)
  | .amo d .. => some (.s d)
  | .cas d .. => some (.s d)
  | .patld p .. => some (.p p)
  | .ways d .. => some (.s d)
  | .launch d .. => some (.s d)
  | .fuseReadWord d .. | .fuseReadIdentity d .. | .fuseReadLifecycle d .. => some (.s d)
  | .kwipe d .. => some (.s d)
  | _ => none

/-- The interlocked register that a pending effect still has to write: an OR into a flag register, which no word wrote, holds
nothing (R46, R75). -/
def Pend.dest (p : Pend) : Option RName :=
  match pendDest p.act with
  | some (.csr n) => if 0x13 ≤ n && n ≤ 0x15 && p.rank != rankCsr then none else some (.csr n)
  | r => r

/-- Some write to a register of the list is still to land: the interlock of R75. ctl at S is not held by the writes
in latch records (R382). -/
def Team.busy (t : Team) (c : Col) (l : List RName) : Bool :=
  ((if t.inSvc c then t.svcPend else t.pend) ++ t.waiting).any fun p =>
    match p.dest with
    | some r => r != .s 0 && l.contains r
    | none => false

/-! ## Waits -/

/-- The tokens of one FIFO, oldest reservation first (R93). -/
def Team.fifo (t : Team) (src dst : Col) : List Tok := t.toks.filter fun k => k.src = src && k.dst = dst

/-- The oldest n tokens of a FIFO are there and poppable (R89, R171). -/
def Team.tokensReady (t : Team) (src dst : Col) (n : Nat) : Bool :=
  let l := t.fifo src dst
  n ≤ l.length && (l.take n).all (·.ready)

/-- The tokens without the oldest n of a FIFO. -/
def popToks (src dst : Col) : Nat → List Tok → List Tok
  | 0, l => l
  | _, [] => []
  | n + 1, k :: l => if k.src = src && k.dst = dst then popToks src dst n l else k :: popToks src dst (n + 1) l

/-- An effect that reaches the team from elsewhere, or that no word of its columns makes: an arrival, a landing, a pulse. -/
def arrives : Instr → Bool
  | .linkIncrementArrives .. | .barrierCompletionObserved .. | .sectorLanding _ | .rdLanding .. | .rdL2Fill .. | .cpdCheckDwordLands
  | .peerAddArrival _ | .alignmentPulse _ => true
  | _ => false

/-- Every word that column c issued before this beat has performed; of a handler's ctl, what the cut has set aside has not
(R89, R382). -/
def Team.colIdle (t : Team) (c : Col) : Bool :=
  !((t.pend ++ t.svcPend ++ t.waiting).any fun p => p.cx.col = c && !arrives p.act && p.cx.issued < t.clock c)
  && !((t.held ++ t.parked).any fun p => p.cx.col = c)
  && (c != .cpy || t.copies.all fun k => t.clock c ≤ k.cx.issued)
  && (c != .cpy || t.cpx.all fun k => t.clock c ≤ k.cx.issued)
  && (c != .mat || t.engine.all fun j => t.clock c ≤ j.cx.issued)

/-- Every row group of every earlier mat word has committed, and a timed word may observe it (R89, R234). -/
def Team.plaitsDone (t : Team) (timed : Bool) : Bool :=
  t.engine.all (fun j => j.ended.isSome || match j.act with
    | .mzero .. | .mchk _ => true
    | _ => false) &&
  t.border.all (fun r => r.kind = 2 || r.committed) && (!timed || t.plaitObs ≤ t.clk)

/-- An effect on its way is a timed transfer into the team started before this beat (R89). -/
def isTransfer (clk : Nat) : Pend → Bool := fun p =>
  match p.act with
  | .sectorLanding x => x.timed && p.cx.issued < clk
  | .rdLanding .. => p.cx.issued < clk
  | .cpdCheckDwordLands => p.cx.timed && p.cx.issued < clk
  | _ => false

/-- Every timed transfer into the team has landed (R89). -/
def Team.landed (t : Team) : Bool := !(t.pend.any (isTransfer t.clk)) && t.inbound.all fun x => t.clk ≤ x.2.2

/-- A counter's value as a word sees it: a timed one without the increments that it may not observe yet (R72,
R234). -/
def Team.cntSeen (t : Team) (timed : Bool) (j : BitVec 5) : Nat :=
  (t.cnt.get j.toFin).val.toNat - (if timed then (t.hidden.filter fun x => x.1 = j.toNat && t.clk < x.2).length else 0)

/-- A counter's wait holds (R72). -/
def Team.cntDone (t : Team) (timed : Bool) (j : BitVec 5) : Bool := (t.cnt.get j.toFin).tgt.toNat ≤ t.cntSeen timed j

/-- The barrier generation that a stream last joined has been observed complete (R285). -/
def Team.barDone (t : Team) (x : Column) (b : BitVec 3) : Bool := x.joined.get b.toFin < (t.bars.get b.toFin).seen

/-- A WAIT holds for a word of column c (R89). -/
def Team.waitOk (t : Team) (c : Col) (x : Column) : Wait → Bool
  | .none | .idle _ => true
  | .tok src n => t.tokensReady src c (n.toNat + 1)
  | .flag f => t.flags.getLsbD f.toNat
  | .cnt j => t.cntDone x.timed j
  | .bar b => t.barDone x b
  | .colIdle k => t.colIdle k
  | .plait => t.plaitsDone x.timed
  | .landed => t.landed

/-- The barrier that a WAIT or a SIGNAL names while its valid bit is clear, or a disabled link: the bounds checks
of R89, R91 and R285. -/
def Team.syncTrap (t : Team) (w : Wait) (g : Signal) : Option Trap :=
  let off := fun (b : BitVec 3) => if (t.bars.get b.toFin).valid then none else some (Cause.bounds, b.setWidth 64)
  (match w with
    | .bar b => off b
    | _ => none).orElse fun _ => match g with
    | .bar b => off b
    | .link j => if (t.cnt.get j.toFin).link.getLsbD 0 then none else some (.bounds, 0)
    | _ => none

/-- A SIGNAL's tokens find room in their FIFO once the WAIT's pops have been made (R93). -/
def Team.pushOk (t : Team) (c : Col) (w : Wait) : Signal → Bool
  | .tok dst n =>
    let l := match w with
      | .tok src k => popToks src c (k.toNat + 1) t.toks
      | _ => t.toks
    (l.filter fun k => k.src = c && k.dst = dst).length + n.toNat + 1 ≤ 16
  | _ => true

/-! ## Loops -/

/-- The iterations that a loop runs: B of a loopf, count of a loope (R171). -/
def LoopRec.total (l : LoopRec) : Nat := if l.fixed then l.bound else l.count

/-- The iteration is nullified: its index is at or above a loopf's count (R171). -/
def LoopRec.nullifies (l : LoopRec) : Bool := l.fixed && l.count ≤ l.idx

/-- A word of this column is nullified by an open loop (R171). -/
def Column.nullified (x : Column) : Bool := x.loops.any (·.nullifies)

/-- Head and open loops after the word at position p: at the end of the innermost body the loop iterates or closes,
and its end may be an enclosing body's end too (R170). Loops are listed innermost first. (Log: 16 DEDUCED.) -/
def afterWord (p : Nat) : List LoopRec → Nat × List LoopRec
  | [] => (p + 1, [])
  | l :: ls =>
    if p + 1 = l.start + l.len then
      if l.idx + 1 < l.total then (l.start, { l with idx := l.idx + 1 } :: ls) else afterWord p ls
    else (p + 1, l :: ls)

/-- The column past the word at its head. -/
def Column.step (x : Column) (p : Nat) : Column :=
  let r := afterWord p x.loops
  { x with head := r.1, loops := r.2, word := none, ask := none }

/-- The open loops that a transfer from p to t leaves open: each loop whose body holds p and not t is abandoned with
every loop inside it (R170). -/
def keepLoops (p t : Nat) : List LoopRec → List LoopRec
  | [] => []
  | l :: ls =>
    let holds := fun q => decide (l.start ≤ q) && decide (q < l.start + l.len)
    let rest := keepLoops p t ls
    if rest.length < ls.length || (holds p && !holds t) then rest else l :: rest

/-! ## Traps -/

/-- The earliest of two requests. -/
def earlier : Option Nat → Nat → Option Nat
  | none, b => some b
  | some a, b => some (min a b)

/-- The TCAUSE value of a cause in a column (R377). -/
def tcauseOf (c : Col) (k : Cause) : Nat := c.code * 256 + k.code

/-- A team with a trap pending: the column issues nothing further, and a freeze of the group is requested at this
beat (R291, R379). (Log: 17 DESIGN CHOICE.) -/
def Team.pendTrap (t : Team) (col : Col) (pos : Nat) (k : Cause) (tval aux : Word) (order : Nat) : Team :=
  let t := if col = .chn then t else t.modCol col fun x => { x with stopped := true }
  { t with traps := t.traps ++ [⟨col, pos, tcauseOf col k, tval, order, aux, pos⟩], freezeReq := earlier t.freezeReq t.clk,
           found := k.noted t.found }

/-- A team with a trap pending that no word of a column raised: COL is 6 (R377). -/
def Team.pendTeamTrap (t : Team) (k : Cause) (tval : Word) : Team :=
  { t with traps := t.traps ++ [⟨.chn, 0, 6 * 256 + k.code, tval, t.clk, 0, 0⟩], freezeReq := earlier t.freezeReq t.clk }

/-- The rank of a pending trap: order beat, then column, then code (R378). -/
def TrapRec.before (x y : TrapRec) : Bool :=
  x.due < y.due || (x.due = y.due && x.cause < y.cause)

/-- The first of the pending traps under R378. -/
def firstTrap : List TrapRec → Option TrapRec
  | [] => none
  | x :: l => match firstTrap l with
    | none => some x
    | some y => some (if y.before x then y else x)

/-- Bytes of the trap frame below the latch area (R383). -/
def frameHead : Nat := 0x800

/-- Write a dword into the scratchpad. -/
def putD (m : List Host.Cell) (a : Nat) (x : Nat) : List Host.Cell := writeNat m a x 8

/-- The words of a loop record in a column record (R384). -/
def putLoops (m : List Host.Cell) (a : Nat) : List LoopRec → List Host.Cell
  | [] => m
  | l :: ls =>
    let m := putD m a l.start
    let m := putD m (a + 8) (l.len + l.bound * 4096 + (if l.fixed then 0 else 1) * 2 ^ 24)
    let m := putD m (a + 16) l.count
    let m := putD m (a + 24) l.idx
    putLoops m (a + 32) ls

/-- The descriptor of R159 for a pattern. -/
def patEnc (x : Pattern) : Nat :=
  x.rows + x.rb / 8 * 2 ^ 8 + (x.str % 2 ^ 32).toNat * 2 ^ 32 + x.wrap * 2 ^ 64

/-- A dword of a nest table (R224). -/
def levelEnc (l : NestLevel) : Nat :=
  l.trips + l.aadv * 2 ^ 16 + l.badv * 2 ^ 20 + (l.gstep % 256).toNat * 2 ^ 24 + (if l.zero then 2 ^ 32 else 0) +
  (if l.drain then 2 ^ 33 else 0) + (if l.ckpt then 2 ^ 34 else 0)

/-- A drain descriptor's dword (R224). -/
def descEnc (d : DrainDesc) : Nat := d.record + d.trec * 2 ^ 21 + d.mode * 2 ^ 42 + d.seq0 * 2 ^ 44

/-- The little-endian number of a list of dwords. -/
def natOfDwords : List Nat → Nat
  | [] => 0
  | x :: l => x + 2 ^ 64 * natOfDwords l

/-- The nodes of a table as one number (R204). -/
def natOfNodes : List (BitVec 32 × BitVec 32) → Nat
  | [] => 0
  | x :: l => x.1.toNat + x.2.toNat * 2 ^ 32 + 2 ^ 64 * natOfNodes l

/-- The sixteen entries of a modulus-set payload (R386). -/
def modPayload (l : List (Nat × ModEntry)) : Nat :=
  l.foldl (fun acc e => acc + 2 ^ e.1 + (e.2.q + (if e.2.wide then 2 ^ 64 else 0) + 2 ^ 65 +
    (if e.2.taint then 2 ^ 66 else 0)) * 2 ^ (128 + 128 * e.1)) 0

/-- One latch record: KIND, DSEL, ROW0 and NROWS bits of dword 0, VALUE, TAINT, and payload with its length (R386). -/
structure Latch where
  kind : Nat
  dsel : Nat
  rows : Nat
  value : Nat
  taint : Bool
  payload : Nat
  len : Nat
  deriving DecidableEq, Repr

/-- The bytes of a slice that its bit enables cover wholly or in part, as a byte mask (R386). -/
def byteEn (en : VImage) : Nat → Nat
  | 0 => 0
  | n + 1 => byteEn en n + (if (en.toNat >>> (8 * n)) % 256 = 0 then 0 else 2 ^ n)

/-- One byte for each of n rows of a mask, which holds the row's taint bit (R386). -/
def taintBytes (x : Nat) : Nat → Nat
  | 0 => 0
  | n + 1 => taintBytes x n + (x >>> n) % 2 * 2 ^ (8 * n)

/-- The destination selector of a vec operand (R66, R386). -/
def dstSel : SliceDst → Nat
  | .reg d _ => d.code
  | .mask k => k.toNat

/-- The latch record of an effect, if it has one of its own (R386). A signal has one only when nothing else of its
word is in flight. -/
def latchOf (alone : Bool) : Instr → List Latch
  | .registerWriteLands w => match w with
    | .s r v t => [⟨1, r.toNat, 0, v.toNat, t, 0, 0⟩]
    | .a r v t => [⟨2, r.toNat, 0, v.toNat, t, 0, 0⟩]
    | .csr _ n v t => [⟨6, 0x21, 0, n * 2 ^ 32, false, v.toNat + (if t then 2 ^ 64 else 0), 9⟩]
    | .pat p x => [⟨6, 0x08 + p.toNat, 0, 0, false, patEnc x, 16⟩]
    | .vshape r rb => [⟨6, 0x20, 0, 0, false, r + rb * 256, 9⟩]
    | .modset m l => [⟨6, m.toNat, 0, 0, false, modPayload l, 272⟩]
    | .bitpat n v t => [⟨6, 0x18 + n.toNat, 0, 0, false, v.toNat + (if t then 2 ^ 16384 else 0), 2049⟩]
    | .tab n f nodes t =>
      [⟨6, 0x10 + n.toNat, 0, 0, false, natOfNodes nodes + (f.code + 16 + (if t then 32 else 0)) * 2 ^ 16448, 2064⟩]
    | .mfmt v => [⟨6, 0x30, 0, 0, false, v.toNat, 8⟩]
    | .mring a b => [⟨6, 0x31, 0, 0, false, a.toNat + b.toNat * 2 ^ 64, 16⟩]
    | .mnest l d => [⟨6, 0x32, 0, 0, false, natOfDwords (l.map levelEnc) +
        (match d with | some d => descEnc d * 2 ^ 384 + 2 ^ 448 | none => 0), 64⟩]
    | .minbox _ v => [⟨6, 0x33, 0, 0, false, v.toNat, 8⟩]
    | .bfmt _ _ | .tail _ _ | .elastic _ => []
  | .sliceLands x => match x.dst with
    | .reg _ _ => [⟨3, dstSel x.dst, x.row0 + x.rows * 16, 0, false,
        (x.data.toNat >>> (1024 * x.row0)) % 2 ^ (1024 * x.rows)
        + (byteEn x.en 2048 >>> (128 * x.row0)) % 2 ^ (128 * x.rows) * 2 ^ (1024 * x.rows)
        + (x.taint.toNat >>> (32 * x.row0)) % 2 ^ (32 * x.rows) * 2 ^ (1152 * x.rows), x.rows * 148⟩] ++ (if x.exc = 0 then [] else [⟨7, 0, 0, x.exc.toNat, false, 0, 0⟩])
    | .mask _ => [⟨4, dstSel x.dst, x.row0 + x.rows * 16, 0, false,
        (x.data.toNat >>> (128 * x.row0)) % 2 ^ (128 * x.rows)
        + taintBytes (x.taint.toNat >>> x.row0) x.rows * 2 ^ (128 * x.rows), x.rows * 17⟩] ++ (if x.exc = 0 then [] else [⟨7, 0, 0, x.exc.toNat, false, 0, 0⟩])
  | .queueEntryLands q _ _ => [⟨5, 0x48 + q.toNat, 0, 0, false, 0, 0⟩]
  | .signalFire e => if !alone then [] else match e with
    | .code g => if g = .none then [] else [⟨8, 0, 0, g.code, false, 0, 0⟩]
    | .count g n => [⟨8, 0, 0, g.code + n * 256, false, 0, 0⟩]
  | _ => []

/-- The records of the effects that a freeze cuts, in the issue order of their words, with the effect each stands
for. -/
def latches (all : List Pend) : List Pend → List (Pend × Latch)
  | [] => []
  | p :: l =>
    let alone := !(all.any fun q => q.cx.id = p.cx.id && !(latchOf false q.act).isEmpty)
    (latchOf alone p.act).map (fun x => (p, x)) ++ latches all l

/-- Effects in the issue order of their words. -/
def byIssue (l : List Pend) : List Pend := l.foldr insertIssue []
where
  /-- Put an effect before the later issued ones. -/
  insertIssue (p : Pend) : List Pend → List Pend
    | [] => [p]
    | x :: l => if p.cx.id ≤ x.cx.id then p :: x :: l else x :: insertIssue p l

/-- Bytes of a record: the descriptor and the payload padded to 32 bytes (R386). -/
def Latch.size (x : Latch) : Nat := 32 + (x.len + 31) / 32 * 32

/-- Write latch records one after another from address a (R386). -/
def putLatches (clk : Nat) (m : List Host.Cell) (a : Nat) : List (Pend × Latch) → List Host.Cell
  | [] => m
  | (p, x) :: l =>
    let m := putD m a (x.kind + p.cx.col.code * 16 + x.dsel * 256 + x.rows * 2 ^ 16 + x.len * 2 ^ 32)
    let m := putD m (a + 8) (p.due - clk)
    let m := putD m (a + 16) x.value
    let m := putD m (a + 24) (if x.taint then 1 else 0)
    let m := writeNat m (a + 32) x.payload (x.size - 32)
    putLatches clk m (a + x.size) l

/-- A column's record of the frame (R384). (Log: 31, 133 DEDUCED.) -/
def putColumn (m : List Host.Cell) (a : Nat) (beat : Word) (clk : Nat) (x : Column) (tr : Option TrapRec) :
    List Host.Cell :=
  let head := match tr, x.hoop with
    | _, some h => h.pos
    | some r, none => r.pos
    | none, none => x.head
  let loops := match x.hoop with
    | some h => h.loops
    | none => x.loops
  let m := putD m a head
  let m := putD m (a + 8) (if x.size = 0 then 0 else (beat - BitVec.ofNat 64 (clk + 1 - x.next)).toNat)
  let m := putD m (a + 16) ((if x.timed then 1 else 0) + (if x.ended then 2 else 0) +
    (if x.hoop.isSome then 4 else 0) + loops.length * 8)
  let m := putD m (a + 24) (match tr with | some r => r.cause | none => 0)
  let m := putD m (a + 32) (match tr with | some r => r.tval.toNat | none => 0)
  let m := putD m (a + 40) (match tr with | some r => r.aux.toNat | none => 0)
  putLoops m (a + 64) loops.reverse

/-- The traps of one column. -/
def trapsOf (c : Col) (l : List TrapRec) : List TrapRec := l.filter fun x => x.col = c

/-- The dwords of a copy record (R385). -/
def putCopies (m : List Host.Cell) (a : Nat) : List Copy → List Host.Cell
  | [] => m
  | k :: l =>
    let m := putD m a (k.body + k.op * 2 ^ 28 + k.chunk * 2 ^ 32)
    let m := putD m (a + 8) k.regS.toNat
    let m := putD m (a + 16) k.regD.toNat
    let m := putD m (a + 24) ((k.regs.map BitVec.toNat).getD 0 0)
    let m := putD m (a + 32) ((k.regs.map BitVec.toNat).getD 1 0)
    let m := putD m (a + 40) (k.cls + 16 + (if k.faulted then 32 else 0))
    putCopies m (a + 64) l

/-- The trap frame of a team cut at this beat, above TFB and below the latch area, HVEC untouched (R383 to R385).
(Log: 133 DEDUCED.) -/
def Team.frameOf (t : Team) (beat req : Word) (cause tval tepc : Word) (recs : List (Pend × Latch)) :
    List Host.Cell :=
  let b := t.tfb.toNat
  let m := clearRange (clearRange t.spad b (b + 0xF8)) (b + 0x100) (b + frameHead)
  let m := putD m b cause.toNat
  let m := putD m (b + 0x08) tval.toNat
  let m := putD m (b + 0x10) tepc.toNat
  let m := putD m (b + 0x18) t.tstat.toNat
  let m := putD m (b + 0x20) beat.toNat
  let m := putD m (b + 0x28) req.toNat
  let m := putD m (b + 0x30) (recs.length + (recs.map fun r => r.2.size).sum * 2 ^ 32)
  let m := putD m (b + 0x38) t.tip.toNat
  let m := putD m (b + 0x60) 1
  let col := fun (m : List Host.Cell) (c : Col) =>
    putColumn m (b + 0x100 + 256 * c.code) beat t.clk (t.col c) (firstTrap (trapsOf c t.traps))
  let m := [Col.ctl, .acs, .vec, .mat, .cpy].foldl col m
  let m := [Col.acs, .vec, .mat, .cpy].foldl
    (fun m c => putD m (b + 0x100 + 0xC0 + 8 * (c.code - 1)) (t.col c).put) m
  let m := putCopies m (b + 0x600) ((t.copies.filter fun k => !k.timed).take 8)
  putLatches t.clk m (b + frameHead) recs

/-- Effects that a handler entry takes out of flight into latch records; landings and the engines' work stay in
place (R381). -/
def isLatched (i : Instr) : Bool :=
  match i with
  | .registerWriteLands _ | .sliceLands _ | .queueEntryLands .. | .signalFire _ => true
  | _ => false

/-- A step of an elastic copy: a copy record of the frame takes its place (R381, R385). -/
def isCopyStep (p : Pend) : Bool :=
  !p.cx.timed && match p.act with
    | .copyChunk | .copyPerforms => true
    | _ => false

/-- A target ring position of ctl is valid (R121). -/
def Column.inRing (x : Column) (p : Nat) : Bool := p < x.tail && x.tail ≤ p + x.size

/-- HANDLER ENTRY, the one operation by which a team takes an exception at a cut (R382): the frame is written, TCAUSE,
TVAL and TEPC are set, TSTAT[0] takes the previous level, the level becomes S, a host or peer interrupt's TIP bit is
cleared, and ctl continues at HVEC, elastic, on service beats. none: no handler can run and the launch ends.
(Log: 28, 31, 32, 157 DEDUCED.) -/
def Team.enterHandler (t : Team) (beat req : Word) (cause tval tepc : Word) (tipClear : Word) : Option Team :=
  let hvec := readNat t.spad (t.tfb.toNat + 0xF8) 8
  if hvec = 0 || !(t.col .ctl).inRing hvec then none
  else
    let held := byIssue (t.pend.filter fun p => isLatched p.act)
    let recs := latches held held
    let spad := t.frameOf beat req cause tval tepc recs
    let lo := t.tfb.toNat / 4
    let tn := clearTaint (clearTaint t.spadTaint lo (lo + 62)) (lo + 64) (lo + (frameHead + (recs.map fun r => r.2.size).sum) / 4)
    let t := { t with spad := spad, spadTaint := tn, unseen := [], held := held, hoop := (t.col .ctl).hoop,
                      parked := t.waiting.filter fun p => !isCopyStep p, waiting := [], pend := t.pend.filter fun p => !isLatched p.act && !isCopyStep p,
                      tcause := cause, tval := tval, tepc := tepc,
                      tstat := (t.tstat &&& 2) ||| (if t.svc then 1 else 0), svc := true, handler := true,
                      tip := t.tip &&& ~~~tipClear, depth := 1, svcClk := 0, svcPend := [], traps := [] }
    some (t.modCol .ctl fun x => { x with head := hvec, timed := false, stopped := false, ended := false, next := 0,
                                          portFree := 0, floor := 0, tried := false, word := none, ask := none,
                                          loops := [], hoop := none })

/-- NESTED TRAP, raised by ctl at S at depth 1: the outer entry is saved in NESTED and the handler is entered again,
at level S (R387). none at depth 2: the launch ends. (Log: 35 DEDUCED.) -/
def Team.nestHandler (t : Team) (cause tval tepc : Word) : Option Team :=
  if t.depth ≠ 1 then none
  else
    let b := t.tfb.toNat
    let hvec := readNat t.spad (b + 0xF8) 8
    if hvec = 0 || !(t.col .ctl).inRing hvec then none
    else
      let m := writeNat t.spad (b + 0x40) (readNat t.spad b 32) 32
      let m := putD m (b + 0x60) 2
      let t := { t with spad := m, spadTaint := clearTaint t.spadTaint (b / 4 + 16) (b / 4 + 26), tcause := cause, tval := tval,
                        tepc := tepc, tstat := t.tstat ||| 1, depth := 2 }
      some (t.modCol .ctl fun x => { x with head := hvec, next := t.svcClk, portFree := t.svcClk, stopped := false,
                                            loops := [], tried := false, word := none, ask := none })

/-- The launch's end by a cut at this beat with a status, to be carried out by CANCEL_CUT (R369, R382). -/
def State.endLaunch (s : State) (h status : Nat) : State :=
  { s with launches := s.launches.map (fun l => if l.handle = h then { l with status := status, cut := some s.now } else l),
           agenda := s.agenda ++ [⟨s.now, 0, { Cur.none with args := [h] }, .cancelCut⟩] }

/-- The trace record of a team's handler entry (R382, R387, R425). -/
def State.traceEntry (s : State) (t : Team) (cause tval tepc : Word) : State :=
  s.trace t 5 0 (fld cause.toNat 8 3) cause.toNat tval.toNat tepc.toNat

/-- RAISE A TRAP in a stream of the team (R377 to R379, R387): at level U, or in another column, it stays pending for the
freeze, with the issue beat of the context as its order beat; of ctl at S in a handler, it nests at once.
(Log: 155 DEDUCED.) -/
def State.raiseAt (s : State) (t : Team) (cx : Cur) (k : Cause) (tval : Word) (pos : Nat) : State :=
  if t.inSvc cx.col then
    let t := { t with found := k.noted t.found }
    match t.nestHandler (BitVec.ofNat 64 (tcauseOf cx.col k)) tval (BitVec.ofNat 64 pos) with
    | some t' => (s.setTeam t').traceEntry t (BitVec.ofNat 64 (tcauseOf cx.col k)) tval (BitVec.ofNat 64 pos)
    | none => (s.setTeam (t.modCol .ctl fun x => { x with stopped := true })).endLaunch t.launch 1
  else s.setTeam (t.pendTrap cx.col pos k tval 0 cx.issued)

/-- RAISE A TRAP of a word that has performed: its column goes on at `next`, and of ctl TEPC is the position after the word
(R149, R384, R429). (Log: 151 DEDUCED.) -/
def State.raiseDone (s : State) (t : Team) (cx : Cur) (k : Cause) (tval : Word) (next : Nat) : State :=
  if t.inSvc cx.col then s.raiseAt t cx k tval (cx.pos + 1)
  else
    let u := t.pendTrap cx.col next k tval 0 cx.issued
    s.setTeam { u with traps := t.traps ++ [⟨cx.col, next, tcauseOf cx.col k, tval, cx.issued, 0, cx.pos + 1⟩] }

/-- The team as if the word had not issued: head and loops as before it, its WAIT's tokens back and its SIGNAL's
reservations gone (R95, R115). -/
def Team.unissue (t : Team) (cx : Cur) : Team :=
  let back := match cx.wait with
    | .tok src n => List.replicate (n.toNat + 1) (⟨src, cx.col, 0, true⟩ : Tok)
    | _ => []
  let kept := t.toks.filter fun k => k.id != cx.id
  let t := { t with toks := back ++ kept }
  t.modCol cx.col fun x =>
    { x with head := cx.pos, loops := cx.loops, word := none, ask := none }

/-- The idle count of a WAIT (R86). -/
def idleOf : Wait → Nat
  | .idle n => n.toNat
  | _ => 0

/-- The scheduled beat of the column's next word (R86, R388). -/
def Column.sched (x : Column) (w : Wait) : Nat := max (x.next + idleOf w) x.floor

/-- A trap of the word at its own position (R115): its order beat is its issue beat, or its scheduled beat if it has not
issued (R378); a check made one beat after issue finds the word with no effect yet (R159, R217).
(Log: 17 DESIGN CHOICE.) -/
def State.raise (s : State) (t : Team) (cx : Cur) (x : Trap) : State :=
  match cx.phase with
  | .access => s.raiseAt (t.unissue cx) cx x.1 x.2 cx.pos
  | .perform => s.raiseAt t cx x.1 x.2 cx.pos
  | .issue | .final => s.raiseAt t { cx with issued := (t.col cx.col).sched cx.wait } x.1 x.2 cx.pos

/-! ## Return from a trap (R388) -/

/-- A latch record as read from the frame. -/
structure LatchIn where
  offset : Nat
  kind : Nat
  col : Nat
  dsel : Nat
  row0 : Nat
  rows : Nat
  rem : Nat
  value : Nat
  taint : Bool
  payload : Nat
  len : Nat
  deriving DecidableEq, Repr

/-- n latch records from address a of the frame at b (R386). -/
def readLatches (m : List Host.Cell) (b : Nat) : Nat → Nat → List LatchIn
  | 0, _ => []
  | n + 1, a =>
    let d := readNat m a 8
    let len := fld d 32 32
    ⟨a - b, fld d 0 4, fld d 4 4, fld d 8 8, fld d 16 4, fld d 20 5, readNat m (a + 8) 4, readNat m (a + 16) 8,
      readByte m (a + 24) &&& 1 == 1, readNat m (a + 32) len, len⟩ :: readLatches m b n (a + 32 + (len + 31) / 32 * 32)

/-- Bit enables of rows row0 onward from their byte enables (R386). -/
def bitEn (bytes n : Nat) : Nat → Nat
  | 0 => 0
  | k + 1 => bitEn bytes n k + (if (bytes >>> k) % 2 = 1 then 255 * 2 ^ (8 * (n + k)) else 0)

/-- Row bits repeated over a mask's rows. -/
def rowTaint (x : Nat) : Nat → Nat
  | 0 => 0
  | k + 1 => rowTaint x k + (if (x >>> (8 * k)) % 2 = 1 then 2 ^ k else 0)

/-- A nest level of a dword of the table, if its reserved bits are 0 and TRIPS is not (R224). -/
def levelOf (d : Nat) : Option NestLevel :=
  if d / 2 ^ 35 ≠ 0 || fld d 0 16 = 0 then none
  else some ⟨fld d 0 16, fld d 16 4, fld d 20 4, (BitVec.ofNat 8 (fld d 24 8)).toInt, fld d 32 1 = 1, fld d 33 1 = 1,
    fld d 34 1 = 1⟩

/-- A drain descriptor of a dword, if its fields are valid (R224). -/
def descOf (d : Nat) : Option DrainDesc :=
  if d / 2 ^ 56 ≠ 0 || fld d 42 2 = 3 || (fld d 21 21 ≠ 0 && fld d 42 2 ≠ 1) then none
  else some ⟨fld d 44 12, fld d 42 2, fld d 21 21, fld d 0 21⟩

/-- A pattern of a 16-byte descriptor, if its fields are valid (R159). -/
def patOf (d : Nat) : Option Pattern :=
  let str := (BitVec.ofNat 32 (fld d 32 32)).toInt
  let w := fld d 64 32
  if 1 ≤ fld d 0 5 && fld d 0 5 ≤ 16 && fld d 5 3 = 0 && 1 ≤ fld d 8 5 && fld d 8 5 ≤ 16 && fld d 13 19 = 0 &&
     str % 8 = 0 && d / 2 ^ 96 = 0 && (w = 0 || ((List.range 11).any fun k => w = 2 ^ (11 + k))) then
    some ⟨fld d 0 5, 8 * fld d 8 5, str, w⟩
  else none

/-- The six levels of a nest table image; none names the index of the first failing dword (R224). -/
def levelsOf (img : Nat) : Nat → Except Nat (List NestLevel)
  | 0 => .ok []
  | n + 1 => match levelsOf img n with
    | .error e => .error e
    | .ok l => match levelOf (fld img (64 * n) 64) with
      | some x => .ok (l ++ [x])
      | none => .error n

/-- Modulus-set entries of a payload (R386): none if a modulus is out of range or an entry is not loaded, as no vmset leaves one
(R210). -/
def modsOf (img : Nat) : Nat → Option (List (Nat × ModEntry))
  | 0 => some []
  | n + 1 => match modsOf img n with
    | none => none
    | some l =>
      if fld img n 1 = 0 then some l
      else
        let q := fld img (128 + 128 * n) 64
        let wide := fld img (192 + 128 * n) 1 = 1
        if q < 2 || (!wide && 2 ^ 31 ≤ q) || (wide && 2 ^ 62 ≤ q) || fld img (193 + 128 * n) 1 = 0 then none
        else some (l ++ [(n, ⟨q, wide, (if wide then 2 ^ 128 else 2 ^ 64) / q, fld img (194 + 128 * n) 1 = 1⟩)])

/-- A ring configuration value fails a check of R222. (Log: 34 DEDUCED.) -/
def ringValueBad (w : Word) : Bool :=
  fld w.toNat 40 24 ≠ 0 || fld w.toNat 35 1 ≠ 0 || fld w.toNat 21 3 ≠ 0 || fld w.toNat 24 11 = 0 || fld w.toNat 0 8 ≠ 0

/-- A VSHAPE value that the vshape word would refuse (R63, R197, R386). (Log: 34 DEDUCED.) -/
def shapeBad (v : Nat) : Bool := fld v 5 3 ≠ 0 || fld v 13 51 ≠ 0 || 16 < fld v 0 5 || 16 < fld v 8 5

/-- A minbox value that the word would refuse (R244). (Log: 34 DEDUCED.) -/
def minboxBad (v : Nat) : Bool := v / 2 ^ 29 ≠ 0 || fld v 21 2 = 3

/-- The 257 nodes of a table payload (R386). -/
def nodesOf (img n : Nat) : List (BitVec 32 × BitVec 32) :=
  (List.range n).map fun i => (fb img (64 * i) 32, fb img (64 * i + 32) 32)

/-- A node whose value or slope is an infinity or a NaN (R204). -/
def badNode (x : BitVec 32 × BitVec 32) : Bool := fld x.1.toNat 23 8 = 255 || fld x.2.toNat 23 8 = 255

/-- The effect that a latch record brings back, if it is valid; `some none` skips it (R386, R388). The effect it was
written for supplies what a record does not hold; `csrOk` tells the CSR values that a csrw takes. -/
def relatch (csrOk : Nat → Word → Bool) (orig : Option Instr) (r : LatchIn) : Option (Option Instr) :=
  if r.kind ≠ 0 && r.rem = 0 then none
  else match r.kind with
  | 0 => some none
  | 1 => if r.dsel < 64 && r.len = 0 then
      some (some (.registerWriteLands (.s (BitVec.ofNat 6 r.dsel) (BitVec.ofNat 64 r.value) r.taint))) else none
  | 2 => if r.dsel < 16 && r.len = 0 then
      some (some (.registerWriteLands (.a (BitVec.ofNat 4 r.dsel) (BitVec.ofNat 64 r.value) r.taint))) else none
  | 3 => match VDst.ofCode r.dsel with
    | none => none
    | some d =>
      if r.len ≠ 148 * r.rows || 16 < r.row0 + r.rows then none
      else
        let bytes := fld r.payload (1024 * r.rows) (128 * r.rows)
        let o : Slice := match orig with
          | some (.sliceLands x) => x
          | _ => ⟨.reg d 0, 0, 0, 0, 0, 0, .same, 0, true⟩
        let same := (byteEn o.en 2048 >>> (128 * r.row0)) % 2 ^ (128 * r.rows) = bytes && o.row0 = r.row0
        let dst := match o.dst with
          | .reg _ e => SliceDst.reg d e
          | .mask _ => .reg d 0
        some (some (.sliceLands { o with
          dst := dst, row0 := r.row0, rows := r.rows, exc := 0,
          data := BitVec.ofNat 16384 (fld r.payload 0 (1024 * r.rows) <<< (1024 * r.row0)),
          en := if same then o.en else BitVec.ofNat 16384 (bitEn bytes (128 * r.row0) (128 * r.rows)),
          taint := BitVec.ofNat 512 (fld r.payload (1152 * r.rows) (32 * r.rows) <<< (32 * r.row0)) }))
  | 4 =>
    if 8 ≤ r.dsel || r.len ≠ 17 * r.rows || 16 < r.row0 + r.rows then none
    else
      let o : Slice := match orig with
        | some (.sliceLands x) => x
        | _ => ⟨.mask 0, 0, 0, 0, BitVec.allOnes 16384, 0, .keep, 0, true⟩
      some (some (.sliceLands { o with
        dst := .mask (BitVec.ofNat 3 r.dsel), row0 := r.row0, rows := r.rows, exc := 0,
        data := BitVec.ofNat 16384 (fld r.payload 0 (128 * r.rows) <<< (128 * r.row0)),
        taint := BitVec.ofNat 512 (rowTaint (r.payload >>> (128 * r.rows)) r.rows <<< r.row0) }))
  | 5 => match orig with
    | some (.queueEntryLands q e v) => if r.dsel = 0x48 + q.toNat then some (some (.queueEntryLands q e v)) else none
    | _ => none
  | 6 =>
    let p := r.payload
    if r.dsel < 8 then
      if r.len ≠ 272 then none
      else (modsOf p 16).map fun l => some (.registerWriteLands (.modset (BitVec.ofNat 3 r.dsel) l))
    else if r.dsel < 0x10 then
      if r.len ≠ 16 then none
      else (patOf p).map fun x => some (.registerWriteLands (.pat (BitVec.ofNat 3 r.dsel) x))
    else if r.dsel < 0x14 then
      if r.len ≠ 2064 || (nodesOf p 257).any badNode || fld p 16452 1 = 0 then none
      else (TabFn.ofCode (fld p 16448 4)).map fun f =>
        some (.registerWriteLands (.tab (BitVec.ofNat 2 r.dsel) f (nodesOf p 257) (fld p 16453 1 = 1)))
    else if 0x18 ≤ r.dsel && r.dsel < 0x20 then
      if r.len ≠ 2049 || ((List.range 1024).any fun i => fld p (16 * i + 10) 4 ≠ 0) then none
      else some (some (.registerWriteLands (.bitpat (BitVec.ofNat 3 r.dsel) (BitVec.ofNat 16384 p) (fld p 16384 1 = 1))))
    else if r.dsel = 0x20 then
      if r.len ≠ 9 || shapeBad (fld p 0 64) then none else some (some (.registerWriteLands (.vshape (fld p 0 5) (fld p 8 5))))
    else if r.dsel = 0x21 then
      let op := match orig with
        | some (.registerWriteLands (.csr op _ _ _)) => op
        | _ => CsrOp.write
      if r.len ≠ 9 || !csrListed (fld r.value 32 12) || !csrOk (fld r.value 32 12) (BitVec.ofNat 64 p) then none
      else some (some (.registerWriteLands (.csr op (fld r.value 32 12) (BitVec.ofNat 64 p) (fld p 64 1 = 1))))
    else if r.dsel = 0x30 then
      if r.len ≠ 8 || p / 2 ^ 15 ≠ 0 || fld p 13 2 = 3 then none
      else some (some (.registerWriteLands (.mfmt (BitVec.ofNat 64 p))))
    else if r.dsel = 0x31 then
      if r.len ≠ 16 || ringValueBad (BitVec.ofNat 64 p) || ringValueBad (BitVec.ofNat 64 (p >>> 64)) then none
      else some (some (.registerWriteLands (.mring (BitVec.ofNat 64 p) (BitVec.ofNat 64 (p >>> 64)))))
    else if r.dsel = 0x32 then
      if r.len ≠ 64 then none
      else match levelsOf p 6 with
        | .error _ => none
        | .ok l => if fld p 448 1 = 1 then (descOf (fld p 384 64)).map fun d => some (.registerWriteLands (.mnest l (some d)))
                   else if l.any (·.drain) then none else some (some (.registerWriteLands (.mnest l none)))
    else if r.dsel = 0x33 then
      if r.len ≠ 8 || minboxBad p then none
      else some (some (.registerWriteLands (.minbox (match orig with
        | some (.registerWriteLands (.minbox g _)) => g
        | _ => 0) (BitVec.ofNat 64 p))))
    else none
  | 7 => if r.dsel < 3 && r.len = 0 then
      some (some (.registerWriteLands (.csr .set (0x13 + r.dsel) (BitVec.ofNat 64 (r.value % 32)) false))) else none
  | 8 =>
    if r.len ≠ 0 || r.dsel ≠ 0 then none
    else match orig with
      | some (.signalFire (.count _ _)) =>
        (CsigCode.ofCode (r.value % 256)).map fun g => some (.signalFire (.count g (fld r.value 8 32)))
      | _ => (Signal.ofCode (r.value % 256)).map fun g => some (.signalFire (.code g))
  | _ => none

/-- A record names the kind, the column and the destination of a record that the entry wrote. -/
def Latch.fits (x : Pend × Latch) (r : LatchIn) : Bool := x.2.kind = r.kind && x.2.dsel = r.dsel && x.1.cx.col.code = r.col

/-- The effects that the latch records bring back, each with the word that it was written for: the one of its place, or, for a
record that software has moved, the first that it fits. An invalid record gives its offset (R388). -/
def relatchAll (csrOk : Nat → Word → Bool) (clk : Nat) (all : List (Pend × Latch)) :
    List (Pend × Latch) → List LatchIn → Except Nat (List Pend)
  | _, [] => .ok []
  | os, r :: rs =>
    let o := match os.head? with
      | some x => if Latch.fits x r then some x else all.find? fun y => Latch.fits y r
      | none => all.find? fun y => Latch.fits y r
    match relatch csrOk (o.map fun x => x.1.act) r with
    | none => .error r.offset
    | some x => match relatchAll csrOk clk all os.tail rs with
      | .error e => .error e
      | .ok l => match x with
        | none => .ok l
        | some i =>
          let cx := match o with | some y => y.1.cx | none => Cur.none
          let rank := match o with | some y => y.1.rank | none => rankLand
          .ok (⟨clk + r.rem, rank, cx, i⟩ :: l)

/-- The loops of a column record, outermost first (R384); none if a field is outside R169. -/
def readLoops (m : List Host.Cell) (a : Nat) : Nat → Option (List LoopRec)
  | 0 => some []
  | n + 1 =>
    let d := readNat m (a + 8) 8
    let l : LoopRec := ⟨readNat m a 8, fld d 0 12, fld d 12 12, fld d 24 1 = 0, readNat m (a + 16) 8, readNat m (a + 24) 8⟩
    if l.len = 0 || (l.fixed && (l.bound < l.count || l.bound = 0)) || (!l.fixed && 2 ^ 32 ≤ l.count) then none
    else (readLoops m (a + 32) n).map (l :: ·)

/-- Each loop whose loop word lies within the body around it ends within that body; the loops are outermost first (R169, R170).
(Log: 34 DEDUCED.) -/
def loopsNest : List LoopRec → Bool
  | l :: m :: ls =>
    !(l.start < m.start && m.start ≤ l.start + l.len && l.start + l.len < m.start + m.len) && loopsNest (m :: ls)
  | _ => true

/-- The word that lies at a ring position (R85). -/
def Team.ringWord (t : Team) (x : Column) (p : Nat) : Nat := readNat t.spad (x.base + 8 * (p % x.size)) 8

/-- The word that a column issues next: the one it fetched when its predecessor issued, else the one that its ring holds at
its head (R144, R283). -/
def Team.headWord (t : Team) (x : Column) : Nat := x.word.getD (t.ringWord x x.head)

/-- A column holds no word that it may fetch: its head has reached its published tail, or a skipped loop body has moved it
past it (R283, R355). -/
def Column.isEmpty (x : Column) : Bool := x.tail ≤ x.head

/-- Some byte of n from lo lies in a sector that a drain has written and that has not committed, or, for a timed word,
whose commit it may not observe yet (R128, R164, R234, R235). -/
def Team.unsealed (t : Team) (timed : Bool) (lo n : Nat) : Bool :=
  n != 0 && t.border.any fun r =>
    r.kind = 1 && r.loc = 0 && r.done && (!r.committed || (timed && t.clk < r.complete + 560)) &&
    r.bytes.any fun b => lo / 256 ≤ b.1 / 256 && b.1 / 256 ≤ (lo + n - 1) / 256

/-- Some byte lies in a sector whose drain has not committed (R128, R235). -/
def Team.unsealedNow (t : Team) (lo n : Nat) : Bool := t.unsealed false lo n

/-- A column holds no word that it may fetch: none is published, or the sector of the next is unsealed (R283, R445). -/
def Team.noWord (t : Team) (x : Column) : Bool :=
  x.isEmpty || (x.word.isNone && t.unsealed x.timed (x.base + 8 * (x.head % x.size)) 8)

/-- A column that has fetched the word at its head, if that is published and sealed (R144, R445).
(Log: 10 DEDUCED.) -/
def Team.fetched (t : Team) (x : Column) : Column :=
  if x.size = 0 || t.noWord x then x else { x with word := some (t.headWord x) }

/-- The hoop word that lies at a ring position of a column: its register, its offset and its SIGNAL (R174). -/
def Team.hoopAt (t : Team) (c : Col) (p : Nat) : Option (SReg × BitVec 34 × Signal) :=
  match decode c (t.ringWord (t.col c) p) with
  | .ok k => match k.instr with
    | .hoop x u => some (x, u, k.signal)
    | _ => none
  | .error _ => none

/-- A word of a column that a cut has set aside keeps its port: a bar, a cwait or an rdv that has not performed (R138, R140,
R172). -/
def Team.parkedWait (t : Team) (c : Col) : Bool :=
  t.parked.any fun p => p.cx.col = c && match p.act with
    | .bar _ | .cwait .. | .rdv => true
    | _ => false

/-- A column as its frame record resumes it at this beat (R388); the error is the record's offset. A hoop that the record says
is waiting is the one that was held, or, where software has named another, one that joins the alignment anew.
(Log: 34 DEDUCED.) -/
def Team.resumeCol (t : Team) (beat : Word) (c : Col) : Except Nat Column :=
  let a := t.tfb.toNat + 0x100 + 256 * c.code
  let m := t.spad
  let x := t.col c
  let mode := readNat m (a + 16) 8
  let head := readNat m a 8
  let n := fld mode 3 3
  if 4 < n then .error (0x110 + 256 * c.code)
  else match readLoops m (a + 64) n with
    | none => .error (0x140 + 256 * c.code)
    | some l =>
      if !loopsNest l then .error (0x140 + 256 * c.code)
      else if fld mode 2 1 = 1 && (t.hoopAt c head).isNone then .error (0x100 + 256 * c.code)
      else
        let prev := readNat m (a + 8) 8
        let next := if beat.toNat < prev then t.clk + 1 + (prev - beat.toNat) else t.clk + 1 - (beat.toNat - prev)
        let y := { x with head := head, timed := fld mode 0 1 = 1, ended := fld mode 1 1 = 1, stopped := false,
                          tried := false, word := none, ask := none, loops := l.reverse, next := next, floor := t.clk }
        let was := if c = .ctl then t.hoop else x.hoop
        match (if fld mode 2 1 = 1 then t.hoopAt c head else none) with
        | some (r, u, g) =>
          let anew : HoopRec := ⟨(t.getS r).v + u.setWidth 64, next - 1, false, head, l.reverse, g⟩
          let h := match was with
            | some h => if h.pos = head then { h with loops := l.reverse } else anew
            | none => anew
          .ok { (y.step head) with hoop := some h, portFree := 2 ^ 64 }
        | none => .ok { y with hoop := none, portFree := if t.parkedWait c then 2 ^ 64
                                 else if x.hoop.isSome || c = .ctl then t.clk else x.portFree }

/-- The waiting words of the hoops that a return leaves in force: those set aside, and one for each that joins anew
(R388). -/
def Team.hoopWords (t u : Team) : List Pend :=
  [Col.ctl, .acs, .vec, .mat, .cpy].filterMap fun c => match (u.col c).hoop with
    | none => none
    | some h =>
      let was := t.parked.find? fun p => p.cx.col = c && p.cx.pos = h.pos && match p.act with
        | .hoop .. => true
        | _ => false
      match was, t.hoopAt c h.pos with
      | some p, _ => some p
      | none, some (r, v, g) =>
        let cx : Cur := { Cur.none with
          cid := t.cid, col := c, pos := h.pos, signal := g, phase := .perform, id := t.nextId + 8 + c.code,
          issued := h.issued, timed := (u.col c).timed, args := [h.target.toNat] }
        some ⟨0, rankWait, cx, .hoop r v⟩
      | none, none => none

/-- Copy words to issue again from the first n copy records of the frame, each with the context of the word that it was
written for, whose SIGNAL and whose fill value's taint it keeps (R261, R385, R388, R429). -/
def Team.resumeCopies (t : Team) : Nat → List Pend
  | 0 => []
  | n + 1 =>
    let a := t.tfb.toNat + 0x600 + 64 * n
    let d := readNat t.spad (a + 40) 8
    let was := (t.copies.filter fun k => !k.timed)[n]?
    let tainted := match was with
      | some k => k.fill.t
      | none => false
    let args := [readNat t.spad a 8, readNat t.spad (a + 8) 8, readNat t.spad (a + 16) 8, readNat t.spad (a + 24) 8,
      readNat t.spad (a + 32) 8, fld d 0 4, if tainted then 1 else 0]
    let old := match was with
      | some k => k.cx
      | none => { Cur.none with id := t.nextId + n, pos := (t.col .cpy).head }
    let cx := { old with cid := t.cid, col := .cpy, phase := .perform, issued := t.clk, timed := false, args := args }
    t.resumeCopies n ++ (if fld d 4 1 = 1 then [⟨t.clk, 4, cx, .cpres 0 0 0 (BitVec.ofNat 4 d)⟩] else [])

/-- A signal that has no latch record of its own, due when the last effect of its word that comes back lands (R92). Where
the handler has discarded every record of the word, it keeps its beat. -/
def lastOf (back : List Pend) (p : Pend) : Pend :=
  match (back.filter fun q => q.cx.id = p.cx.id && q.cx.col = p.cx.col).map (·.due) with
  | [] => p
  | d :: l => { p with due := l.foldl max d }

/-- RETURN FROM A HANDLER AT DEPTH 1 (R388): the frame is checked, the level, TEPC and TSTAT come back, every column
resumes from its record, recorded copies are issued again, and each latch record lands at F + REM; what the handler
itself still has under way lands as many beats after F as were left to it, and the words that the cut set aside wait on. The
error is the TVAL of the bounds trap. (Log: 29 DEDUCED.) -/
def Team.eretOuter (t : Team) (csrOk : Nat → Word → Bool) (beat : Word) : Except Nat Team :=
  let b := t.tfb.toNat
  let recs := latches t.held t.held
  match relatchAll csrOk t.clk recs recs (readLatches t.spad b (readNat t.spad (b + 0x30) 4) (b + frameHead)) with
  | .error e => .error e
  | .ok back =>
    let cols := [Col.ctl, .acs, .vec, .mat, .cpy].foldl (fun (r : Except Nat Team) c => match r with
      | .error e => .error e
      | .ok u => match t.resumeCol beat c with
        | .error e => .error e
        | .ok x => .ok (u.setCol c x)) (.ok t)
    match cols with
    | .error e => .error e
    | .ok u =>
      let stat := BitVec.ofNat 64 (readNat t.spad (b + 0x18) 8)
      let riding := (t.held.filter fun p => !(recs.any fun r => r.1 = p)).map (lastOf back)
      let own := t.svcPend.map fun p => { p with due := t.clk + (p.due - t.svcClk) }
      let all := back ++ riding ++ t.resumeCopies 8 ++ t.pend ++ own
      .ok { u with svc := stat.getLsbD 0, tstat := stat &&& 3, tepc := BitVec.ofNat 64 (readNat t.spad (b + 0x10) 8),
                   handler := false, depth := 0, held := [], svcPend := [], parked := [], hoop := none, nextId := t.nextId + 16,
                   copies := t.copies.filter (·.timed),
                   advances := t.advances.filter fun x => !(t.copies.any fun k => !k.timed && k.id = x.1),
                   waiting := t.parked.filter (fun p => match p.act with
                     | .hoop .. => false
                     | _ => true) ++ t.hoopWords u ++ t.waiting,
                   pend := all.foldl (fun l p => insertPend p l) [] }

/-- RETURN FROM A NESTED TRAP (R388): the outer entry's registers come back and ctl continues at TEPC, still at S.
(Log: 34 DEDUCED.) -/
def Team.eretInner (t : Team) : Team :=
  let b := t.tfb.toNat
  let w := fun k => BitVec.ofNat 64 (readNat t.spad (b + 0x40 + 8 * k) 8)
  let t := { t with tcause := w 0, tval := w 1, tepc := w 2, tstat := w 3 &&& 3, depth := 1,
                    spad := putD t.spad (b + 0x60) 1 }
  t.modCol .ctl fun x => { x with head := (w 2).toNat, loops := [], word := none, ask := none }

/-! ## Demand requests (R325) -/

/-- A pseudo-channel of the package. -/
def State.pc (s : State) (n : Nat) : Option Pc := s.pcs.find? fun p => p.pc = n

/-- The state with a pseudo-channel replaced. -/
def State.setPc (s : State) (p : Pc) : State := { s with pcs := s.pcs.map fun q => if q.pc = p.pc then p else q }

/-- The state with requests in the queues of their pseudo-channels (R325). (Log: 82 DEDUCED.) -/
def State.request (s : State) (l : List (Nat × DemandReq)) : State :=
  l.foldl (fun (s : State) r => match s.pc r.1 with
    | some p => s.setPc { p with queue := p.queue ++ [r.2] }
    | none => s) s

/-- A demand request of a core under a number is still to be served (R325). -/
def State.unserved (s : State) (cid id : Nat) : Bool := s.pcs.any fun p => p.queue.any fun r => r.cid = cid && r.id = id

/-! ## Issue -/

/-- What a word needs before it takes effect (R95, R181): service level, or that the level may read what it names; a bounds
or like trap of its own fields; the interlocked registers it names; rejection in timed mode; a stall of its own; a queue
it would pop while it is empty; a check of the operands that are present; a trap that is judged only once the word could
issue; the demand requests that have to be served before it can issue (R325); and the beats its port stays busy (R78, R80). -/
structure Gate where
  svc : Bool := false
  deny : Bool := false
  fault : Option Trap := none
  regs : List RName := []
  reject : Bool := false
  stall : Bool := false
  under : Option Nat := none
  range : Option Trap := none
  late : Option Trap := none
  asks : List (Nat × DemandReq) := []
  occ : Nat := 1
  deriving DecidableEq, Repr

/-- What a word at its head does now (R86, R95). -/
inductive Verdict where
  | trap (x : Trap)
  | hold
  | go
  deriving DecidableEq, Repr

/-- The word may issue: port free, WAIT satisfied, room for its tokens, no interlock, and no stall of its own
(R86). -/
def Team.canIssue (t : Team) (cx : Cur) (g : Gate) : Bool :=
  let x := t.col cx.col
  decide (x.portFree ≤ t.clock cx.col) && t.waitOk cx.col x cx.wait && t.pushOk cx.col cx.wait cx.signal &&
  (cx.nul || (!t.busy cx.col g.regs && !g.stall && g.under.isNone && !(g.reject && x.timed)))

/-- What a word does at this beat, in the order of R95 and R181: the bounds of the operands that are present, a pop of an
empty queue, and then the other check of the operands that are present, come before the schedule fault. A nullified word
checks only its WAIT and SIGNAL (R88). (Log: 150 DEDUCED.) -/
def Team.judge (t : Team) (beat : Word) (cx : Cur) (g : Gate) : Verdict :=
  let x := t.col cx.col
  if (g.svc && !t.svc || g.deny) && !cx.nul then .trap (.privilege, cx.word)
  else match t.syncTrap cx.wait cx.signal with
    | some e => .trap e
    | none => match (if cx.nul then none else g.fault) with
      | some e => .trap e
      | none =>
        if t.canIssue cx g then
          match (if cx.nul then none else g.range.orElse fun _ => g.late) with
          | some e => .trap e
          | none => .go
        else if t.inSvc cx.col && !t.pushOk cx.col cx.wait cx.signal then
          .trap (.tokenOver, match cx.signal with | .tok dst _ => BitVec.ofNat 64 dst.code | _ => 0)
        else if cx.phase = .final && x.timed then
          match (if cx.nul then none else g.under), (if cx.nul then none else g.range) with
          | some _, some (.bounds, v) => .trap (.bounds, v)
          | some q, _ => .trap (.underflow, BitVec.ofNat 64 q)
          | none, some e => .trap e
          | none, none => .trap (.schedule, beat)
        else .hold

/-- Reserve the tokens of a SIGNAL at issue (R93). -/
def reserve (cx : Cur) : List Tok :=
  match cx.signal with
  | .tok dst n => List.replicate (n.toNat + 1) ⟨cx.col, dst, cx.id, false⟩
  | _ => []

/-- The path of R349 that a column's accesses take: ctl 0, acs 1, cpy 2. -/
def pathOf : Col → Option Nat
  | .ctl => some 0
  | .acs => some 1
  | .cpy => some 2
  | .vec | .mat | .chn => none

/-- The path of R332 that a column's accesses take: ctl 0, acs 1, cpy 2, mat 3. -/
def pathIndex : Col → Option Nat
  | .mat => some 3
  | c => pathOf c

/-- An event of a path's word of a number has fired: whoever waits for that event observes the word's completion, and that of the
path's words before it, since a SIGNAL releases them (R136, R335). -/
def Team.tells (t : Team) (c : Col) (id code : Nat) : Team :=
  match pathIndex c with
  | none => t
  | some k => { t with told := (t.told.filter fun x => !(x.1 = code && x.2.1 = k)) ++ [(code, k, id)] }

/-- The words whose completion a satisfied wait shows: for each path, those up to a number (R136). -/
def Team.shown (t : Team) (c : Col) : Wait → List (Nat × Nat)
  | .none | .idle _ | .landed => []
  | .tok src n => match pathIndex src with
    | none => []
    | some k => ((t.fifo src c).take (n.toNat + 1)).map fun x => (k, x.id)
  | .colIdle src => match pathIndex src with
    | none => []
    | some k => [(k, t.nextId)]
  | .plait => [(3, t.nextId)]
  | w => t.told.filterMap fun x => if x.1 = w.code then some x.2 else none

/-- The team once ctl has observed the completion of some paths' words (R136). (Log: 157 DEDUCED.) -/
def Team.hears (t : Team) (l : List (Nat × Nat)) : Team :=
  { t with heard := l.foldl (fun h x =>
      if h.any fun y => y.1 = x.1 && x.2 ≤ y.2 then h else (h.filter fun y => y.1 ≠ x.1) ++ [x]) t.heard }

/-- Elastic landings into a scratchpad sector are still under way, or to come from a transfer that has landed in it (R349). -/
def Team.landing (t : Team) (sector : Nat) : Bool :=
  (t.coming.any fun e => e.1 = sector) || t.pend.any fun p => match p.act with
    | .sectorLanding x => !x.timed && x.cells.any fun c => c.1 / 256 = sector
    | _ => false

/-- A satisfied wait acquires for its column's path: TOUCH is cleared, and FRESH of every sector whose landings have all
landed (R349). -/
def Team.acquire (t : Team) (c : Col) : Team :=
  match pathOf c with
  | none => t
  | some k =>
    { t with touch := t.touch.filter fun x => x.2 != k, fresh := t.fresh.filter fun x => x.2.1 != k || t.landing x.1 }

/-- A WAIT of 0x80 to 0xEE (R349). -/
def waitAcquires : Wait → Bool
  | .none | .idle _ => false
  | .tok .. | .flag _ | .cnt _ | .bar _ | .colIdle _ | .plait | .landed => true

/-- The team after a word has issued, before its own effect: WAIT tokens popped, SIGNAL tokens reserved, the head past
the word, the port busy, and every stalled column to be tried again on this beat (R68, R86, R93).
(Log: 16 DEDUCED.) -/
def Team.commit (t : Team) (cx : Cur) (occ : Nat) : Team :=
  let now := t.clock cx.col
  let toks := match cx.wait with
    | .tok src n => popToks src cx.col (n.toNat + 1) t.toks
    | _ => t.toks
  let t := if waitAcquires cx.wait then t.acquire cx.col else t
  let t := if cx.col = .ctl then t.hears (t.shown .ctl cx.wait) else t
  let t := { t with toks := toks ++ reserve cx, nextId := t.nextId + 1,
                    cols := t.cols.map fun (x : Column) => ({ x with tried := false } : Column) }
  t.modCol cx.col fun x => { x.step cx.pos with next := now + 1, portFree := now + occ }

/-- The column has been tried on this beat and stalls (R86). -/
def Team.hold (t : Team) (cx : Cur) : Team := t.modCol cx.col fun x => { x with tried := true }

/-- The team as a word sees it while it is judged: if its WAIT holds and acquires, the acquire has been made (R349). -/
def Team.seen (t : Team) (cx : Cur) : Team :=
  if waitAcquires cx.wait && t.waitOk cx.col (t.col cx.col) cx.wait then t.acquire cx.col else t

/-- The context of a word that issues at this beat. -/
def State.curAt (s : State) (t : Team) : Cur := { s.cur with issued := t.clock s.cur.col }

/-- The state in which a word takes effect: its context has the issue beat. -/
def State.atIssue (s : State) (t : Team) : State := { s with cur := s.curAt t }

/-- A word that could issue makes its demand requests, and stalls until the last of them has been served (R325): the state that it
leaves then, or none where it issues. -/
def State.stalls (s : State) (t : Team) (cx : Cur) (asks : List (Nat × DemandReq)) : Option State :=
  match (t.col cx.col).ask with
  | some id => if s.unserved t.cid id then some (s.setTeam (t.hold cx)) else none
  | none =>
    if asks.isEmpty then none
    else
      let u := ({ t with nextId := t.nextId + 1 } : Team).modCol cx.col fun x => { x with ask := some t.nextId }
      some ((s.request (asks.map fun r => (r.1, { r.2 with cid := t.cid, id := t.nextId }))).setTeam (u.hold cx))

/-- THE ISSUE OF A WORD of a team's column: judged under R95, it traps, stalls, or issues; it takes its effect `eff`,
or, nullified, what `nul` leaves of it (R88). -/
def runWordN (s : State) (gate : State → Team → Gate) (nul eff : State → Team → State) :
    Host.Outcome State Fault Refusal :=
  match s.team s.cur.cid with
  | none => .fault .noStream
  | some t =>
    let g := gate (s.atIssue t) (t.seen s.cur)
    match t.judge (s.beatOf t) (s.curAt t) g with
    | .trap x => .next ((s.atIssue t).raise t (s.curAt t) x)
    | .hold => .next ((s.atIssue t).setTeam (t.hold (s.curAt t)))
    | .go =>
      if s.cur.nul then .next (nul (s.atIssue t) (t.commit (s.curAt t) 1))
      else match (s.atIssue t).stalls t (s.curAt t) g.asks with
        | some s' => .next s'
        | none => .next (eff (s.atIssue t) (t.commit (s.curAt t) g.occ))

/-- The word's effects have performed one beat after its issue, and its SIGNAL fires (R92). -/
def done1 (s : State) (t : Team) : State := s.setTeam (t.signalAt s.cur (t.clock s.cur.col + 1))

/-- The issue of a word that has only its SIGNAL when it is nullified (R88). (Log: 129 DESIGN CHOICE.) -/
def runWord (s : State) (gate : State → Team → Gate) (eff : State → Team → State) :
    Host.Outcome State Fault Refusal := runWordN s gate done1 eff

/-- An event of a team: executed with the team of its context. (Log: 129 DESIGN CHOICE.) -/
def onTeam (s : State) (f : Team → State) : Host.Outcome State Fault Refusal :=
  match s.team s.cur.cid with
  | none => .fault .noStream
  | some t => .next (f t)

/-- The beat at which the word being executed issued. -/
def Team.now (t : Team) (cx : Cur) : Nat := t.clock cx.col

end Sys2Proof.Machine
end

