-- ==== Sys2Proof/Machine/Csr.lean ====
section
/-! DEFINITION. The control registers of R82: who may read and write each, what it reads, and what a write leaves. -/

namespace Sys2Proof.Machine

/-- The access codes of R9. -/
inductive CsrAccess where
  | ro | rw | srw | sro
  deriving DecidableEq, Repr

/-- The access code of a listed CSR (R82). -/
def csrAccess (n : Nat) : CsrAccess :=
  if (0x10 ≤ n && n ≤ 0x15) || n = 0x22 || n = 0x30 || (0x120 ≤ n && n ≤ 0x17F) then .rw
  else if n = 0x20 || n = 0x21 || n = 0x50 || n = 0x800 || n = 0x804 || n = 0x805 || n = 0x807 || n = 0x810 then .srw
  else if 0x801 ≤ n && n ≤ 0x806 then .sro
  else .ro

/-- Bits c of COLMODE (R82). -/
def Team.colmode (t : Team) : Word :=
  [Col.ctl, .acs, .vec, .mat, .cpy].foldl (fun w c => if (t.col c).timed then w ||| (1 <<< c.code) else w) 0

/-- The launch of a handle. -/
def State.launch (s : State) (h : Nat) : Option Launch := s.launches.find? fun l => l.handle = h

/-- The job of a number. -/
def State.job (s : State) (j : Nat) : Option Job := s.jobs.find? fun x => x.job = j

/-- A barrier at which nothing has arrived (R285). -/
def BarCount.zero : BarCount := ⟨0, 0, 0, 0, 0, 0, []⟩

/-- A barrier's counts: a launch's own, or its job's for package scope (R285). -/
def State.barCount (s : State) (t : Team) (b : BitVec 3) : BarCount :=
  if (t.bars.get b.toFin).package then
    match s.job t.job with
    | some j => j.bars.get b.toFin
    | none => BarCount.zero
  else match s.launch t.launch with
    | some l => l.bars.get b.toFin
    | none => BarCount.zero

/-- BARCFG of a barrier: valid, scope, participants and generation (R82). -/
def State.barcfg (s : State) (t : Team) (b : BitVec 3) : Word :=
  let x := t.bars.get b.toFin
  if x.valid then
    BitVec.ofNat 64 (1 + (if x.package then 2 else 0) + x.parts % 2 ^ 16 * 2 ^ 16 + (s.barCount t b).g % 2 ^ 32 * 2 ^ 32)
  else 0

/-- The value of a CSR (R82). -/
def State.csr (s : State) (t : Team) (n : Nat) : Word :=
  if n = 0x000 then s.beatOf t
  else if n = 0x001 then BitVec.ofNat 64 (t.cid % 2 ^ 11)
  else if n = 0x002 then BitVec.ofNat 64 (t.ord % 2 ^ 32 + t.job * 2 ^ 32)
  else if n = 0x003 then t.patch
  else if n = 0x004 then t.pext
  else if n = 0x008 then BitVec.ofNat 64 t.ndet
  else if n = 0x009 then t.colmode
  else if n = 0x010 then t.vrm
  else if n = 0x011 then t.vsat
  else if n = 0x012 then t.vshape
  else if n = 0x013 then t.vexc
  else if n = 0x014 then t.mexc
  else if n = 0x015 then t.cexc
  else if n = 0x020 then t.stkb
  else if n = 0x021 then t.stkl
  else if n = 0x022 then t.stkp
  else if n = 0x030 then t.flags.setWidth 64
  else if n = 0x040 then s.kensia.health
  else if n = 0x050 then t.dbgctl
  else if n < 0x110 then t.mbx.get (BitVec.ofNat 4 n).toFin
  else if n < 0x140 then (t.cnt.get (BitVec.ofNat 5 n).toFin).val.setWidth 64
  else if n < 0x160 then (t.cnt.get (BitVec.ofNat 5 n).toFin).tgt.setWidth 64
  else if n < 0x180 then (t.cnt.get (BitVec.ofNat 5 n).toFin).link.setWidth 64
  else if n < 0x188 then s.barcfg t (BitVec.ofNat 3 n)
  else if n = 0x800 then t.tfb
  else if n = 0x801 then t.tcause
  else if n = 0x802 then t.tval
  else if n = 0x803 then t.tepc
  else if n = 0x804 then t.tstat
  else if n = 0x805 then t.tie
  else if n = 0x806 then t.tip
  else if n = 0x807 then t.tscratch
  else if n = 0x810 then t.timecmp
  else 0

/-- The taint that a read of a CSR carries: BEAT by the mode of ctl, mailboxes never, any other by what was written
to it (R73, R84, R116). -/
def Team.csrTainted (t : Team) (n : Nat) : Bool :=
  if n = 0 then !(t.col .ctl).timed else t.csrTaint.contains n

/-- A field of VSHAPE after a write: 0 and values above 16 leave it (R63). -/
def shapeField (old new : Nat) : Nat := if new = 0 || 16 < new then old else new

/-- VSHAPE after ROWS and ROWB are written (R63). -/
def shapeOf (old : Word) (rows rowb : Nat) : Word :=
  BitVec.ofNat 64 (shapeField (old.toNat % 32) rows + shapeField (old.toNat / 256 % 32) rowb * 256)

/-- A counter of the team changed. -/
def Team.modCnt (t : Team) (n : Nat) (f : Counter → Counter) : Team :=
  let j : BitVec 5 := BitVec.ofNat 5 n
  { t with cnt := t.cnt.set j.toNat (f (t.cnt.get j.toFin)) j.isLt }

/-- What a write leaves of a value in a CSR: reserved bits read 0, and a reserved rounding mode is refused (R43, R63,
R82). (Log: 148 DESIGN CHOICE.) -/
def Team.writeCsr (t : Team) (beat : Word) (n : Nat) (v : Word) : Team :=
  if n = 0x010 then (if v.toNat % 8 ≤ 4 then { t with vrm := v &&& 7 } else t)
  else if n = 0x011 then { t with vsat := v &&& 1 }
  else if n = 0x012 then { t with vshape := shapeOf t.vshape (v.toNat % 32) (v.toNat / 256 % 32) }
  else if n = 0x013 then { t with vexc := v &&& 31 }
  else if n = 0x014 then { t with mexc := v &&& 31 }
  else if n = 0x015 then { t with cexc := v &&& 31 }
  else if n = 0x020 then { t with stkb := v }
  else if n = 0x021 then { t with stkl := v }
  else if n = 0x022 then { t with stkp := v }
  else if n = 0x030 then { t with flags := v.setWidth 32 }
  else if n = 0x050 then { t with dbgctl := v &&& 1 }
  else if 0x120 ≤ n && n < 0x140 then t.modCnt n fun c => { c with val := v.setWidth 32 }
  else if 0x140 ≤ n && n < 0x160 then t.modCnt n fun c => { c with tgt := v.setWidth 32 }
  else if 0x160 ≤ n && n < 0x180 then t.modCnt n fun c => { c with link := v.setWidth 17 }
  else if n = 0x800 then { t with tfb := v }
  else if n = 0x804 then { t with tstat := v &&& 3 }
  else if n = 0x805 then { t with tie := v &&& 7 }
  else if n = 0x807 then { t with tscratch := v }
  else if n = 0x810 then
    { t with timecmp := v, tip := (t.tip &&& 5) ||| (if v.toNat ≤ beat.toNat then 2 else 0) }
  else t

/-- The value that a csr word gives to its register (R148). -/
def csrNew (op : CsrOp) (old v : Word) : Word :=
  match op with
  | .write => v
  | .set => old ||| v
  | .clear => old &&& ~~~v

/-- A write at level S or U reaches the register (R81). -/
def csrWritable (svc : Bool) (n : Nat) : Bool :=
  match csrAccess n with
  | .rw => true
  | .srw => svc
  | .ro | .sro => false

/-- An interrupt is requested at the first beat at which TIP AND TIE is nonzero, TSTAT[1] is set and the level is U
(R389). -/
def Team.takeable (t : Team) : Bool := !t.svc && t.tstat.getLsbD 1 && (t.tip &&& t.tie) != 0

/-- The team with a freeze requested for an interrupt that has become takeable (R291, R389). (Log: 33 DEDUCED.) -/
def Team.requestInt (t : Team) : Team :=
  if t.takeable && t.freezeReq.isNone then { t with freezeReq := some t.clk } else t

/-- A CSR write landing: the operation is applied to the register as it stands (R72, R148). (Log: 132 DEDUCED.) -/
def Team.landCsr (t : Team) (beat : Word) (old : Word) (op : CsrOp) (n : Nat) (v : Word) (tn : Bool) : Team :=
  let t := t.writeCsr beat n (csrNew op old v)
  ({ t with csrTaint := setUnit t.csrTaint n (tn || (op != CsrOp.write && t.csrTaint.contains n)) }).requestInt

/-! ## Counters, barriers and signals -/

/-- A counter with n more: past 2^32 - 1 it stays there and the counter-overflow trap is raised in its team
(R72). -/
def Team.addCnt (t : Team) (j : BitVec 5) (n : Nat) : Team :=
  let v := (t.cnt.get j.toFin).val.toNat + n
  if v < 2 ^ 32 then t.modCnt j.toNat fun c => { c with val := BitVec.ofNat 32 v }
  else (t.modCnt j.toNat fun c => { c with val := BitVec.allOnes 32 }).pendTeamTrap .counterOver (j.setWidth 64)

/-- The delay of a link or of a transfer between two cores (R92, R286). (Log: 54 DEDUCED.) -/
def crossDelay (a b : Nat) : Nat := if dieOf a = dieOf b then 96 else 320

/-- The state with an effect due in another team, on that team's clock (R92, R286). -/
def State.sendTo (s : State) (cid delay rank : Nat) (cx : Cur) (i : Instr) : State :=
  match s.team cid with
  | none => s
  | some t => s.setTeam { t with pend := insertPend ⟨t.clk + delay, rank, { cx with cid := cid }, i⟩ t.pend }

/-- Rank of a sector on its beat: a timed one lands before every access, an untimed one of the team itself with cpy's
accesses, and one from another core after them (R131). -/
def rankSector (cid : Nat) (x : Sector) : Nat :=
  if x.timed then rankLand else if x.sender = cid then rankOf .cpy else rankFar

/-- The state with a sector on its way to a team's scratchpad (R131, R286, R288). (Log: 55 DEDUCED.) -/
def State.sendSector (s : State) (cid delay : Nat) (cx : Cur) (x : Sector) : State :=
  match s.team cid with
  | none => s
  | some t => s.setTeam { t with pend := insertLand ⟨t.clk + delay, rankSector cid x, { cx with cid := cid }, .sectorLanding x⟩ t.pend }

/-- A counted link increment fires: it takes effect at the remote counter 96 or 320 beats later (R92, R139).
(Log: 149 DEDUCED.) -/
def State.fireLink (s : State) (t : Team) (cx : Cur) (j : BitVec 5) (n : Nat) : State :=
  let l := (t.cnt.get j.toFin).link
  let far := l.toNat / 64
  s.sendTo far (crossDelay t.cid far) 7 cx (.linkIncrementArrives (BitVec.ofNat 5 (l.toNat / 2)) n)

/-- The delay from a barrier's completion to its observation (R285). -/
def Launch.barDelay (l : Launch) (package : Bool) : Nat :=
  if package || !l.pcs.isEmpty then 320
  else match l.cids with
    | [] => 96
    | c :: cs => if cs.all fun d => dieOf d = dieOf c then 96 else 320

/-- The teams that observe a barrier of a launch: the launch's own, or every team of the job that has it valid
(R285). -/
def Team.sees (t : Team) (b : BitVec 3) (u : Team) : Bool :=
  (u.bars.get b.toFin).valid &&
  (if (t.bars.get b.toFin).package then u.job = t.job && (u.bars.get b.toFin).package
   else u.launch = t.launch && !(u.bars.get b.toFin).package)

/-- Replace a barrier's counts. -/
def State.setBar (s : State) (t : Team) (b : BitVec 3) (x : BarCount) : State :=
  if (t.bars.get b.toFin).package then
    { s with jobs := s.jobs.map fun j => if j.job = t.job then { j with bars := j.bars.set b.toNat x b.isLt } else j }
  else
    { s with launches := s.launches.map fun l =>
        if l.handle = t.launch then { l with bars := l.bars.set b.toNat x b.isLt } else l }

/-- A job enters its next phase: ordinals, the phase's counter and its source start again (R342, R343, R359). -/
def State.nextPhase (s : State) (job : Nat) : State :=
  { s with jobs := s.jobs.map fun j =>
    if j.job = job then { j with phase := (j.phase + 1) % 2 ^ 16, nextOrd := 1, phaseDone := 0, sources := [], watched := false }
    else j }

/-- A generation of a barrier completes: G rises and A restarts, every team that has the barrier observes it after
the barrier's delay, and a package barrier advances the job's phase (R285, R342). -/
def State.completeGen (s : State) (t : Team) (b : BitVec 3) (cx : Cur) (x : BarCount) (a : Nat) : State :=
  let package := (t.bars.get b.toFin).package
  let s := s.setBar t b { x with a := a, g := x.g + 1 }
  let s := if package then s.nextPhase t.job else s
  { s with teams := s.teams.map fun u =>
      if t.sees b u then
        let d := match s.launch u.launch with | some l => l.barDelay package | none => 320
        { u with pend := insertPend ⟨u.clk + d, 1, { cx with cid := u.cid }, .barrierCompletionObserved b (x.g + 1)⟩ u.pend }
      else u }

/-- The number of a stream at a barrier (R285). -/
def streamKey (cx : Cur) : Nat × Nat := if cx.col = .chn then (2048 + cx.pc, 5) else (cx.cid, cx.col.code)

/-- Put a stream into the ascending order of R285. -/
def insertStream (k : Nat × Nat) : List (Nat × Nat) → List (Nat × Nat)
  | [] => [k]
  | x :: l => if k.1 < x.1 || (k.1 = x.1 && k.2 < x.2) then k :: x :: l else x :: insertStream k l

/-- A stream records the generation that it has joined (R285). -/
def State.join (s : State) (b : BitVec 3) (k : Nat × Nat) (g : Nat) : State :=
  let join := fun (c : Column) => ({ c with joined := c.joined.set b.toNat g b.isLt } : Column)
  if k.2 = 5 then
    { s with pcs := s.pcs.map fun p =>
        if p.pc + 2048 = k.1 then { p with prog := p.prog.map fun x => { x with st := join x.st } } else p }
  else match s.team k.1 with
    | some u => s.setTeam ([Col.ctl, .acs, .vec, .mat, .cpy].foldl (fun (u : Team) c => if c.code = k.2 then u.modCol c join else u) u)
    | none => s

/-- An arrival of a stream at a barrier: the streams that arrive on one beat join the current generation in the order of
R285, those beyond parts the next one, and parts arrivals complete a generation (R285). -/
def State.arrive (s : State) (t : Team) (b : BitVec 3) (cx : Cur) : State :=
  let x := s.barCount t b
  let x := if x.beat = s.now && x.joiners != [] then x else { x with beat := s.now, a0 := x.a, g0 := x.g, joiners := [] }
  let x := { x with joiners := insertStream (streamKey cx) x.joiners }
  let s := x.joiners.zipIdx.foldl (fun s k => s.join b k.1 (x.g0 + (x.a0 + k.2) / max 1 x.parts)) s
  if x.a + 1 < x.parts then s.setBar t b { x with a := x.a + 1 } else s.completeGen t b cx x 0

/-- The tokens reserved by a word become poppable (R93). -/
def readyToks (src dst : Col) (id : Nat) (l : List Tok) : List Tok :=
  l.map fun k => if k.src = src && k.dst = dst && k.id = id then { k with ready := true } else k

/-- The WAIT code that waits for an event (R89, R91); a token's own word stands in its FIFO. -/
def waitCodeOf : SigEvent → Option Nat
  | .code (.flag f) | .count (.flag f) _ => some (Wait.flag f).code
  | .code (.cnt j) | .count (.cnt j) _ => some (Wait.cnt j).code
  | .code (.bar b) => some (Wait.bar b).code
  | _ => none

/-- An increment by the SIGNAL of a mat word that its row groups' commits make: timed words may not observe it before the last of
them has been complete for 560 beats (R234). -/
def Team.hide (t : Team) (cx : Cur) (j : BitVec 5) : Team :=
  let obs := (t.border.filter fun r => r.kind != 2 && r.job = cx.id).foldl (fun m r => max m (r.complete + 560)) 0
  if cx.col = .mat && t.clk < obs then { t with hidden := (t.hidden.filter fun x => t.clk < x.2) ++ [(j.toNat, obs)] } else t

/-- A SIGNAL fires (R91, R92): the event of each code. -/
def State.fire (s : State) (t₀ : Team) (cx : Cur) (e : SigEvent) : State :=
  let t := match waitCodeOf e with
    | some k => t₀.tells cx.col cx.id k
    | none => t₀
  match e with
  | .code .none => s
  | .code (.clr f) => s.setTeam { t with flags := t.flags &&& ~~~((1 : BitVec 32) <<< f.toNat) }
  | .code (.flag f) => s.setTeam { t with flags := t.flags ||| ((1 : BitVec 32) <<< f.toNat) }
  | .code (.tok dst _) => s.setTeam { t with toks := readyToks cx.col dst cx.id t.toks }
  | .code (.cnt j) => s.setTeam ((t.hide cx j).addCnt j 1)
  | .code (.link j) => s.fireLink t cx j 1
  | .code (.bar b) => s.arrive t b cx
  | .count (.clr f) _ => s.setTeam { t with flags := t.flags &&& ~~~((1 : BitVec 32) <<< f.toNat) }
  | .count (.flag f) _ => s.setTeam { t with flags := t.flags ||| ((1 : BitVec 32) <<< f.toNat) }
  | .count (.cnt j) n => s.setTeam (t.addCnt j n)
  | .count (.link j) n => if n = 0 then s else s.fireLink t cx j n

end Sys2Proof.Machine
end

