-- ==== Sys2Proof/Machine/Observe.lean ====
section
/-! DEFINITION. Watchpoints (R428, R429), the conflicts of FRESH and TOUCH (R349), and the ECC of
scratchpad and accumulators (R438). -/

namespace Sys2Proof.Machine

/-! ## Watchpoints (R428, R429) -/

/-- Observation registers of a core at reset (R423, R428). -/
def CoreObs.reset : CoreObs := ⟨Vector.replicate 5 (Vector.replicate 4 0), Vector.replicate 79 0, Vector.replicate 4 (Vector.replicate 5 0),
  [], Vector.replicate 5 0, 0⟩

/-- The observation block of a core. -/
def State.coreObs (s : State) (cid : Nat) : CoreObs :=
  match s.obs.find? fun x => x.1 = cid with
  | some x => x.2
  | none => .reset

/-- The state with a core's observation block replaced. -/
def State.setObs (s : State) (cid : Nat) (x : CoreObs) : State :=
  { s with obs := if (s.obs.any fun y => y.1 = cid) then s.obs.map fun y => if y.1 = cid then (cid, x) else y
                  else s.obs ++ [(cid, x)] }

/-- What an access of a path did: its space, whether it wrote, its bytes, each aligned 8-byte unit before and after it, and
whether it is an atomic, which reads too (R339, R429). -/
structure Touch where
  path : Nat
  space : Nat
  write : Bool
  lo : Nat
  n : Nat
  before : Nat → Nat
  after : Nat → Nat
  atomic : Bool := false

/-- A watchpoint's first matching address and unit, if the access matches (R429). -/
def watchMatch (w : Vector Word 5) (job : Nat) (x : Touch) : Option (Nat × Nat) :=
  let ctl := (w[0]).toNat
  let mode := fld ctl 3 2
  let lo := max x.lo (w[1]).toNat
  let hi := min (x.lo + x.n - 1) (w[2]).toNat
  let mask := (w[4]).toNat
  let same := fun v => Nat.land (Nat.xor v (w[3]).toNat) mask = 0
  if !(w[0]).getLsbD 0 || fld ctl 32 32 ≠ job || fld ctl 1 2 ≠ x.space || fld ctl (5 + x.path) 1 = 0 || x.n = 0 || hi < lo
  then none
  else
    let units := (List.range (hi / 8 - lo / 8 + 1)).map fun i => 8 * (lo / 8 + i)
    (units.find? fun u =>
      mode = 0 || (mode = 1 && (!x.write || x.atomic) && same (if x.write then x.before u else x.after u)) || (mode = 2 && x.write && same (x.after u)) ||
      (mode = 3 && x.write && Nat.land (Nat.xor (x.after u) (x.before u)) mask != 0)).map fun u =>
        (max u lo, x.after u)

/-- The watchpoints in force for an access issued at a beat: what they were before the first write that had not performed by
then (R428). -/
def CoreObs.watchAt (o : CoreObs) (launch issued : Nat) : Vector (Vector Word 5) 4 :=
  match o.watchWas.find? fun x => x.1 = launch && issued < x.2.1 with
  | some x => x.2.2
  | none => o.watch

/-- The core's observation block with the watchpoints kept as they stand before a write to them (R428). -/
def CoreObs.keepWatch (o : CoreObs) : Option Team → CoreObs
  | none => { o with watchWas := [] }
  | some t => { o with watchWas := (o.watchWas.filter fun x => x.1 = t.launch) ++
      [(t.launch, if t.frozen then t.clk else t.clk + 1, o.watch)] }

/-- WATCHPOINT_MATCH (R429): every matching watchpoint writes its record, and the lowest-numbered one of ACTION 0 traps the word,
which has its whole effect. `next` is where the column continues. -/
def State.watch (s : State) (cid : Nat) (cx : Cur) (next : Nat) (x : Touch) : State :=
  match s.team cid with
  | none => s
  | some t =>
    let o := s.coreObs t.cid
    let regs := if t.inSvc cx.col then o.watch else o.watchAt t.launch cx.issued
    let hits := (List.finRange 4).filterMap fun w => (watchMatch regs[w] t.job x).map fun r => (w, r)
    let s := hits.foldl (fun s h => s.trace t 6 h.1 cx.col.code h.2.1 h.2.2 0) s
    match hits.find? fun h => !(regs[h.1])[0].getLsbD 8 with
    | some h => s.raiseDone t cx .watchpoint (BitVec.ofNat 64 h.2.1) next
    | none => s

/-! ## What each path sees of the scratchpad (R331 to R334) -/

/-- What a byte holds for a path that does not see its last writes yet, with its taint: what stood there before the first write
after the last that the path sees. `l` are the path's entries, oldest first (R329, R332). -/
def oldAt (l : List Unseen) (clk a : Nat) : Option (BitVec 8 × Bool) :=
  l.foldl (fun o e => if e.a ≠ a then o else if e.till ≤ clk then none else o.orElse fun _ => some (e.old, e.taint)) none

/-- The team with its scratchpad as a path sees it: 0 ctl, 1 acs, 2 cpy, 3 mat (R332).
(Log: 7 DESIGN CHOICE; 157 DEDUCED.) -/
def Team.view (t : Team) (path : Nat) : Team :=
  match t.unseen.filter fun e => e.dst = path with
  | [] => t
  | l =>
    let old := (l.map (·.a)).eraseDups.filterMap fun a => (oldAt l t.clk a).map fun v => (a, v)
    let words := (old.map fun x => x.1 / 4).eraseDups
    { t with spad := old.foldl (fun m x => writeByte m x.1 x.2.1) t.spad,
             spadTaint := words.foldl (fun z u =>
               let mine := old.filter fun x => x.1 / 4 = u
               setUnit z u (mine.any (fun x => x.2.2) || (mine.length < 4 && z.contains u))) t.spadTaint }

/-- The list without the entries of writes that the paths now see, and without those that such a write has passed (R329).
(Log: 157 DEDUCED.) -/
def performedFor (p : Unseen → Bool) : List Unseen → List Unseen
  | [] => []
  | e :: l =>
    let r := performedFor p l
    if p e || l.any (fun x => p x && x.dst = e.dst && x.a = e.a) then r else e :: r

/-- Every write to some bytes has performed for every path (R331, R334). -/
def Team.performed (t : Team) (bytes : List Nat) : Team :=
  { t with unseen := t.unseen.filter fun e => !bytes.contains e.a }

/-- A path has written rows of n bytes: a timed write has performed for every path, and one of an elastic word may stay unseen
by the others for a free number of beats, the same for each byte of an atomic unit: 8 bytes of ctl and acs, 32 of a copy (R332,
R334, R338). `before` is the team before it. (Log: 7 DESIGN CHOICE; 157 DEDUCED.) -/
def Team.wrote (t before : Team) (now path cls id : Nat) (timed : Bool) (bytes : List Nat) : Team :=
  if timed then t.performed bytes
  else
    let unit := fun (a : Nat) => if path = 2 then a / 32 else a / 8
    let mine := fun (d : Nat) => bytes.map fun a =>
      (⟨path, d, cls, id, a, readByte before.spad a, before.spadTaint.contains (a / 4),
        t.clk + Config.buffered now t.cid (unit a) d⟩ : Unseen)
    { t with unseen := (before.unseen.filter fun e => !(e.dst = path && bytes.contains e.a)) ++
      ((List.range 4).filter (· ≠ path)).flatMap mine }

/-- The ordering class of a store to scratchpad (R328). -/
def storeClass (cx : Cur) : Nat :=
  match decode cx.col cx.word.toNat with
  | .ok k => match k.instr with
    | .st _ _ c .. | .amo _ _ c .. | .cas _ _ c .. | .sq _ _ _ c .. | .sqx _ _ _ c .. => c.toNat
    | _ => 0
  | .error _ => 0

/-- A scratchpad access of a word, tested against the watchpoints: the state `s` after it, the memory before it. -/
def State.watchSpad (s : State) (cx : Cur) (path : Nat) (write : Bool) (before : List Host.Cell) (lo n : Nat)
    (atomic : Bool := false) : State :=
  match s.team cx.cid with
  | none => s
  | some t => s.watch cx.cid cx (t.col cx.col).head
      ⟨path, 0, write, lo, n, fun u => readNat before u 8,
        fun u => readNat (if write || atomic then t else t.view path).spad u 8, atomic⟩

/-- Rows of a scratchpad access tested in order. -/
def State.watchRows (s : State) (cx : Cur) (path : Nat) (write : Bool) (before : List Host.Cell) (n : Nat)
    (rows : List Nat) (atomic : Bool := false) : State := rows.foldl (fun s a => s.watchSpad cx path write before a n atomic) s

/-! ## Conflicts (R347 to R349) -/

/-- An access's identity as a dword of a conflict record (R343, R425). -/
def identOf (ord core src : Nat) : Nat := ord % 2 ^ 32 + core % 2048 * 2 ^ 32 + src % 8 * 2 ^ 43

/-- A conflict resolved permissively of an access that a core of the team's launch made: its trace record, and one more in the
launch's count (R348). -/
def State.noteConflictOf (s : State) (t : Team) (core : Nat) (col : Col) (kind addr recorded : Nat) : State :=
  let s := s.trace t 7 kind col.code addr (identOf t.ord core col.code) recorded
  { s with launches := s.launches.map fun l => if l.handle = t.launch then { l with conflicts := l.conflicts + 1 } else l }

/-- A conflict resolved permissively of the team's own access (R348). -/
def State.noteConflict (s : State) (t : Team) (col : Col) (kind addr recorded : Nat) : State :=
  s.noteConflictOf t t.cid col kind addr recorded

/-- TVAL of the deterministic-conflict trap (R347). -/
def conflictTval (kind addr : Nat) : Word := BitVec.ofNat 64 (addr % 2 ^ 55 + kind * 2 ^ 55)

/-- The first sector of n bytes from lo whose FRESH bit of a path is set, in a watched team (R349). -/
def Team.freshHit (t : Team) (path lo n : Nat) : Option Nat :=
  if t.ndet = 0 || n = 0 then none
  else ((List.range ((lo + n - 1) / 256 - lo / 256 + 1)).find? fun i => t.fresh.any fun f => f.1 = lo / 256 + i && f.2.1 = path).map fun i =>
    max lo (256 * (lo / 256 + i))

/-- The trap of kind 4 under strict (R347, R349). -/
def freshTrap (t : Team) (path n : Nat) (rows : List Nat) : Option Trap :=
  if t.ndet = 2 then (rows.findSome? fun a => t.freshHit path a n).map fun a => (.conflict, conflictTval 4 a) else none

/-! ## ECC of scratchpad and accumulators (R438) -/

/-- The 64-bit words of SRAM that n bytes from an address touch (R438). -/
def unitsOf (a n : Nat) : List Nat := if n = 0 then [] else (List.range ((a + n - 1) / 8 - a / 8 + 1)).map (a / 8 + ·)

/-- The trap of a read of rows of n bytes: the first byte touched of the first 64-bit word that ECC cannot correct (R377, R438).
(Log: 25 DEDUCED.) -/
def Team.eccTrap (t : Team) (n : Nat) (rows : List Nat) : Option Trap :=
  if t.sick.isEmpty then none
  else rows.findSome? fun a => ((unitsOf a n).find? fun u => t.sick.contains (u, 2)).map fun u =>
    (.eccFound 0x09 t.cid, BitVec.ofNat 64 (max a (8 * u)))

/-- The trap of a read of n accumulator bytes; no rule gives it a TVAL (R438). (Log: 17 DESIGN CHOICE; 25 DEDUCED.) -/
def Team.accEccTrap (t : Team) (lo n : Nat) : Option Trap :=
  if t.accSick.isEmpty then none
  else if (unitsOf lo n).any fun u => t.accSick.contains (u, 2) then some (.eccFound 0x09 t.cid, 0) else none

/-- The team with a check event for each corrected word of n accumulator bytes that are read (R433, R438). -/
def Team.readAccEcc (t : Team) (lo n : Nat) : Team :=
  if t.accSick.isEmpty then t
  else { t with found := t.found ++ ((unitsOf lo n).filter fun u => t.accSick.contains (u, 1)).map fun _ => (0x08, t.cid) }

/-- The traps of a read of rows of n bytes that passes the checks of its place: ECC, then a conflict of kind 4 (R349, R438).
(Log: 25 DEDUCED.) -/
def Team.readsTrap (t : Team) (path n : Nat) (rows : List Nat) : Option Trap :=
  (t.eccTrap n rows).orElse fun _ => freshTrap t path n rows

/-- The team with a check event for each corrected word that its read of rows of n bytes of a team's scratchpad touches
(R433, R438). (Log: 9 DESIGN CHOICE.) -/
def Team.readEccOf (t own : Team) (n : Nat) (rows : List Nat) : Team :=
  if own.sick.isEmpty then t
  else
    let l := rows.flatMap fun a => (unitsOf a n).filter fun u => own.sick.contains (u, 1)
    { t with found := t.found ++ l.map fun _ => (0x08, own.cid) }

/-- The same of its own scratchpad. -/
def Team.readEcc (t : Team) (n : Nat) (rows : List Nat) : Team := t.readEccOf t n rows

/-- The list of unsound words without those that a write of bytes lo to hi - 1 covers whole (R438). -/
def soundAfter (l : List (Nat × Nat)) (lo hi : Nat) : List (Nat × Nat) := l.filter fun x => 8 * x.1 < lo || hi < 8 * x.1 + 8

/-- The team after a write of rows of n bytes: a word that a row covers whole is sound (R438).
(Log: 9 DESIGN CHOICE.) -/
def Team.writeEcc (t : Team) (n : Nat) (rows : List Nat) : Team :=
  if t.sick.isEmpty then t else { t with sick := rows.foldl (fun l a => soundAfter l a (a + n)) t.sick }

/-- Some row meets a FRESH sector under permissive: its words are tainted (R349). -/
def Team.freshTaints (t : Team) (path n : Nat) (rows : List Nat) : Bool :=
  t.ndet = 1 && rows.any fun a => (t.freshHit path a n).isSome

/-- The sectors of rows touched by an elastic access of a path in a watched team (R349). -/
def Team.touchRows (t : Team) (timed : Bool) (path n : Nat) (rows : List Nat) : Team :=
  if timed || t.ndet = 0 then t
  else
    let l := rows.flatMap fun a => (List.range ((a + n - 1) / 256 - a / 256 + 1)).map fun i => (a / 256 + i, path)
    { t with touch := l.foldl (fun acc x => if acc.contains x then acc else acc ++ [x]) t.touch }

/-- A scratchpad access of a path to rows of n bytes, after it: ECC, what the other paths see, TOUCH bits, a conflict of kind 4, and
watchpoints. `before` is the team before it. A word that meets several FRESH sectors makes one conflict, at the first (R332, R349,
R429, R438). (Log: 65 DEDUCED.) -/
def State.afterRows (s : State) (cx : Cur) (path : Nat) (write : Bool) (before : Team) (n : Nat)
    (rows : List Nat) (atomic : Bool := false) : State :=
  match s.team cx.cid with
  | none => s
  | some t =>
    let hit := if t.ndet = 1 then rows.findSome? fun a => t.freshHit path a n else none
    let t := if write then (t.writeEcc n rows).wrote before s.now path (storeClass cx) cx.id cx.timed
      (rows.flatMap fun a => (List.range n).map (a + ·)) else t.readEcc n rows
    let s := s.setTeam (t.touchRows cx.timed path n rows)
    let s := match hit with
      | some a => s.noteConflict t cx.col 4 a 0
      | none => s
    s.watchRows cx path write before.spad n rows atomic

end Sys2Proof.Machine
end

