-- ==== Sys2Proof/Machine/Scalar.lean ====
section
/-! DEFINITION. ctl integer arithmetic, transfers of control, traps, CSR words and synchronisation words (R115 to R123,
R135 to R151). -/

namespace Sys2Proof.Machine

/-! ## Arithmetic (R118 to R120) -/

/-- 1 or 0. -/
def flagW (b : Bool) : Word := if b then 1 else 0

/-- Signed quotient rounded towards zero, with the cases of R119. -/
def sdivW (a b : Word) : Word :=
  if b = 0 then BitVec.allOnes 64 else BitVec.ofInt 64 (Int.tdiv a.toInt b.toInt)

/-- Unsigned quotient (R119). -/
def udivW (a b : Word) : Word := if b = 0 then BitVec.allOnes 64 else BitVec.ofNat 64 (a.toNat / b.toNat)

/-- Signed remainder with the sign of a (R118, R119). -/
def sremW (a b : Word) : Word := if b = 0 then a else BitVec.ofInt 64 (Int.tmod a.toInt b.toInt)

/-- Unsigned remainder (R119). -/
def uremW (a b : Word) : Word := if b = 0 then a else BitVec.ofNat 64 (a.toNat % b.toNat)

/-- High 64 bits of the signed product (R118). -/
def mulhW (a b : Word) : Word := BitVec.ofInt 64 (a.toInt * b.toInt / 2 ^ 64)

/-- High 64 bits of the unsigned product (R118). -/
def mulhuW (a b : Word) : Word := BitVec.ofNat 64 (a.toNat * b.toNat / 2 ^ 64)

/-- Leading zero bits of the low w bits of x. -/
def clzN (w x : Nat) : Nat :=
  match w with
  | 0 => 0
  | n + 1 => if x / 2 ^ n % 2 = 1 then 0 else 1 + clzN n x

/-- Trailing zero bits of the low w bits of x. -/
def ctzN (w x : Nat) : Nat :=
  match w with
  | 0 => 0
  | n + 1 => if x % 2 = 1 then 0 else 1 + ctzN n (x / 2)

/-- The 1 bits among the low w bits of x. -/
def popN (w x : Nat) : Nat :=
  match w with
  | 0 => 0
  | n + 1 => x % 2 + popN n (x / 2)

/-- The bytes of x in reverse order (R118). -/
def bswapN (n x : Nat) : Nat :=
  match n with
  | 0 => 0
  | k + 1 => x % 256 * 256 ^ k + bswapN k (x / 256)

/-- The effect of an arithmetic word: its result, tainted as its sources are, lands in s_d after L beats, and its
SIGNAL fires then (R74, R80, R92, R116). -/
def landS (s : State) (t : Team) (d : SReg) (lat : Nat) (x : TW) : State :=
  let cx := s.cur
  let due := t.clock cx.col + lat
  s.setTeam ((t.land cx due (.s d x.v x.t)).signalAt cx due)

/-- An arithmetic word of two s registers (R118). -/
def caWord (s : State) (d a b : SReg) (lat occ : Nat) (f : Word → Word → Word) : Host.Outcome State Fault Refusal :=
  runWord s (fun _ _ => { regs := [.s a, .s b, .s d], occ := occ }) fun s t =>
    let x := t.getS a
    let y := t.getS b
    landS s t d lat ⟨f x.v y.v, x.t || y.t⟩

/-- An arithmetic word of one s register (R118). -/
def caUnary (s : State) (d a : SReg) (f : Word → Word) : Host.Outcome State Fault Refusal :=
  runWord s (fun _ _ => { regs := [.s a, .s d] }) fun s t =>
    let x := t.getS a
    landS s t d 1 ⟨f x.v, x.t⟩

/-- An arithmetic word of an s register and a signed immediate (R120). -/
def ciWord (s : State) (d a : SReg) (i : BitVec 28) (lat : Nat) (f : Word → Word → Word) :
    Host.Outcome State Fault Refusal :=
  runWord s (fun _ _ => { regs := [.s a, .s d] }) fun s t =>
    let x := t.getS a
    landS s t d lat ⟨f x.v (i.signExtend 64), x.t⟩

/-- ADD (R118). -/
def execAdd (d a b : SReg) (s : State) := caWord s d a b 1 1 (· + ·)
/-- SUB (R118). -/
def execSub (d a b : SReg) (s : State) := caWord s d a b 1 1 (· - ·)
/-- AND (R118). -/
def execAnd (d a b : SReg) (s : State) := caWord s d a b 1 1 (· &&& ·)
/-- OR (R118). -/
def execOr (d a b : SReg) (s : State) := caWord s d a b 1 1 (· ||| ·)
/-- XOR (R118). -/
def execXor (d a b : SReg) (s : State) := caWord s d a b 1 1 (· ^^^ ·)
/-- ANDN (R118). -/
def execAndn (d a b : SReg) (s : State) := caWord s d a b 1 1 fun x y => x &&& ~~~y
/-- SHL (R118). -/
def execShl (d a b : SReg) (s : State) := caWord s d a b 1 1 fun x y => x <<< (y.toNat % 64)
/-- SHR (R118). -/
def execShr (d a b : SReg) (s : State) := caWord s d a b 1 1 fun x y => x >>> (y.toNat % 64)
/-- SAR (R118). -/
def execSar (d a b : SReg) (s : State) := caWord s d a b 1 1 fun x y => x.sshiftRight (y.toNat % 64)
/-- MUL, 3 beats (R80, R118). -/
def execMul (d a b : SReg) (s : State) := caWord s d a b 3 1 (· * ·)
/-- MULH (R118). -/
def execMulh (d a b : SReg) (s : State) := caWord s d a b 3 1 mulhW
/-- MULHU (R118). -/
def execMulhu (d a b : SReg) (s : State) := caWord s d a b 3 1 mulhuW
/-- DIV, 24 beats, port busy throughout (R80, R119). -/
def execDiv (d a b : SReg) (s : State) := caWord s d a b 24 24 sdivW
/-- DIVU (R119). -/
def execDivu (d a b : SReg) (s : State) := caWord s d a b 24 24 udivW
/-- REM (R119). -/
def execRem (d a b : SReg) (s : State) := caWord s d a b 24 24 sremW
/-- REMU (R119). -/
def execRemu (d a b : SReg) (s : State) := caWord s d a b 24 24 uremW
/-- MIN, signed (R118). -/
def execMin (d a b : SReg) (s : State) := caWord s d a b 1 1 fun x y => if x.slt y then x else y
/-- MAX, signed (R118). -/
def execMax (d a b : SReg) (s : State) := caWord s d a b 1 1 fun x y => if x.slt y then y else x
/-- MINU (R118). -/
def execMinu (d a b : SReg) (s : State) := caWord s d a b 1 1 fun x y => if x.ult y then x else y
/-- MAXU (R118). -/
def execMaxu (d a b : SReg) (s : State) := caWord s d a b 1 1 fun x y => if x.ult y then y else x
/-- SLT (R118). -/
def execSlt (d a b : SReg) (s : State) := caWord s d a b 1 1 fun x y => flagW (x.slt y)
/-- SLTU (R118). -/
def execSltu (d a b : SReg) (s : State) := caWord s d a b 1 1 fun x y => flagW (x.ult y)
/-- SEQ (R118). -/
def execSeq (d a b : SReg) (s : State) := caWord s d a b 1 1 fun x y => flagW (x == y)
/-- CLZ (R118). -/
def execClz (d a : SReg) (s : State) := caUnary s d a fun x => BitVec.ofNat 64 (clzN 64 x.toNat)
/-- CTZ (R118). -/
def execCtz (d a : SReg) (s : State) := caUnary s d a fun x => BitVec.ofNat 64 (ctzN 64 x.toNat)
/-- POPC (R118). -/
def execPopc (d a : SReg) (s : State) := caUnary s d a fun x => BitVec.ofNat 64 (popN 64 x.toNat)
/-- BSWAP (R118). -/
def execBswap (d a : SReg) (s : State) := caUnary s d a fun x => BitVec.ofNat 64 (bswapN 8 x.toNat)

/-- SEL: s_d is the condition, and the taint is that of the condition and of the source selected (R116, R118). -/
def execSel (d a b : SReg) (s : State) : Host.Outcome State Fault Refusal :=
  runWord s (fun _ _ => { regs := [.s a, .s b, .s d] }) fun s t =>
    let c := t.getS d
    let x := if c.v != 0 then t.getS a else t.getS b
    landS s t d 1 ⟨x.v, c.t || x.t⟩

/-- ADDI (R120). -/
def execAddi (d a : SReg) (i : BitVec 28) (s : State) := ciWord s d a i 1 (· + ·)
/-- ANDI (R120). -/
def execAndi (d a : SReg) (i : BitVec 28) (s : State) := ciWord s d a i 1 (· &&& ·)
/-- ORI (R120). -/
def execOri (d a : SReg) (i : BitVec 28) (s : State) := ciWord s d a i 1 (· ||| ·)
/-- XORI (R120). -/
def execXori (d a : SReg) (i : BitVec 28) (s : State) := ciWord s d a i 1 (· ^^^ ·)
/-- SHLI (R120). -/
def execShli (d a : SReg) (i : BitVec 28) (s : State) := ciWord s d a i 1 fun x _ => x <<< (i.toNat % 64)
/-- SHRI (R120). -/
def execShri (d a : SReg) (i : BitVec 28) (s : State) := ciWord s d a i 1 fun x _ => x >>> (i.toNat % 64)
/-- SARI (R120). -/
def execSari (d a : SReg) (i : BitVec 28) (s : State) := ciWord s d a i 1 fun x _ => x.sshiftRight (i.toNat % 64)
/-- SLTI (R120). -/
def execSlti (d a : SReg) (i : BitVec 28) (s : State) := ciWord s d a i 1 fun x y => flagW (x.slt y)
/-- SLTIU (R120). -/
def execSltiu (d a : SReg) (i : BitVec 28) (s : State) := ciWord s d a i 1 fun x y => flagW (x.ult y)
/-- LUI: 28 bits shifted in, the immediate unsigned (R120). -/
def execLui (d a : SReg) (i : BitVec 28) (s : State) := ciWord s d a i 1 fun x _ => (x <<< 28) ||| i.setWidth 64
/-- MULI, 3 beats (R80, R120). -/
def execMuli (d a : SReg) (i : BitVec 28) (s : State) := ciWord s d a i 3 (· * ·)

/-! ## Transfers of control (R121 to R123); the words of the stack are in `Machine/Stack.lean` -/

/-- The ring position P + offset, modulo 2^64 (R122). -/
def target (pos : Nat) (off : Int) : Nat := (((pos : Int) + off) % 2 ^ 64).toNat

/-- A transfer to a position outside the ring's valid range is a bounds trap with TVAL the position (R121). -/
def targetTrap (x : Column) (p : Nat) : Option Trap :=
  if x.inRing p then none else some (.bounds, BitVec.ofNat 64 p)

/-- The team's ctl moved to a target from position p: the next word issues at issue + 2, and the loops that the
transfer leaves are abandoned unless it is a call (R80, R122, R170). (Log: 16 DEDUCED.) -/
def Team.jump (t : Team) (cx : Cur) (p : Nat) (loops : List LoopRec) (call : Bool) : Team :=
  t.modCol .ctl fun x => { x with head := p, portFree := t.clock .ctl + 2,
                                  loops := if call then loops else keepLoops cx.pos p loops }

/-- The loops open in a column before the word being issued. -/
def openLoops (s : State) : List LoopRec :=
  match s.team s.cur.cid with
  | some t => (t.col s.cur.col).loops
  | none => []

/-- Under DETMODE strict a tainted value that steers control raises the taint trap (R117). -/
def strictTaint (t : Team) (l : List (TW × Word)) : Option Trap :=
  if t.ndet = 2 then (l.find? fun p => p.1.t).map fun p => (.taint, p.2) else none

/-- The condition of a branch (R122). -/
def condHolds (c : Cond) (a b : Word) : Bool :=
  match c with
  | .eq => a == b
  | .ne => a != b
  | .lt => a.slt b
  | .ge => !a.slt b
  | .ltu => a.ult b
  | .geu => !a.ult b
  | .al => true

/-- B: a taken branch moves the head; a strict team traps on a tainted comparison (R117, R122). -/
def execB (c : Cond) (a b : SReg) (off : BitVec 22) (s : State) : Host.Outcome State Fault Refusal :=
  let p := target s.cur.pos off.toInt
  runWord s (fun _ t =>
    let x := t.getS a
    let y := t.getS b
    let tr := if c = .al then none
      else strictTaint t [(x, a.setWidth 64), (y, b.setWidth 64)]
    let out := if condHolds c x.v y.v then targetTrap (t.col .ctl) p else none
    { regs := [.s a, .s b], late := tr.orElse fun _ => out }) fun s t =>
    if condHolds c (t.getS a).v (t.getS b).v then done1 s (t.jump s.cur p (openLoops s) false) else done1 s t

/-- JMP (R123). -/
def execJmp (off : BitVec 40) (s : State) : Host.Outcome State Fault Refusal :=
  let p := target s.cur.pos off.toInt
  runWord s (fun _ t => { fault := targetTrap (t.col .ctl) p }) fun s t =>
    done1 s (t.jump s.cur p (openLoops s) false)

/-- JR (R117, R123). -/
def execJr (a : SReg) (s : State) : Host.Outcome State Fault Refusal :=
  runWord s (fun _ t =>
    let x := t.getS a
    { regs := [.s a], late := (strictTaint t [(x, a.setWidth 64)]).orElse fun _ => targetTrap (t.col .ctl) x.v.toNat })
    fun s t => done1 s (t.jump s.cur (t.getS a).v.toNat (openLoops s) false)

/-- The scratchpad taint unit of a byte address is its 32-bit word (R127). -/
def Team.spTainted (t : Team) (lo n : Nat) : Bool := anyUnit t.spadTaint (lo / 4) ((lo + n + 3) / 4)

/-! ## CSR words (R148), popx (R142) and cntrd (R147) -/

/-- A U-level access to an SRO register, which raises the privilege trap (R81). -/
def csrPriv (t : Team) (n : Nat) : Bool := csrAccess n = .sro && !t.svc

/-- The old value of a CSR into s_d two beats after issue (R148). (Log: 26 DEDUCED.) -/
def readCsrInto (s : State) (t : Team) (d : SReg) (n : Nat) : Team :=
  let cx := s.cur
  t.land cx (t.clock .ctl + 2) (.s d (s.csr t n) (t.csrTainted n))

/-- CSRR (R148). -/
def execCsrr (d : SReg) (n : BitVec 12) (s : State) : Host.Outcome State Fault Refusal :=
  runWord s (fun _ t => { regs := [.s d, .csr n.toNat], deny := csrPriv t n.toNat }) fun s t =>
    let cx := s.cur
    s.setTeam ((readCsrInto s t d n.toNat).signalAt cx (t.clock .ctl + 2))

/-- A JLINK value that enables a link to a core outside the launch is refused (R72). -/
def linkTrap (s : State) (t : Team) (n : Nat) (v : Word) : Option Trap :=
  if 0x160 ≤ n && n < 0x180 && v.getLsbD 0 then
    match s.launch t.launch with
    | some l => if l.cids.contains (v.toNat / 64 % 2 ^ 11) then none else some (.bounds, 0)
    | none => some (.bounds, 0)
  else none

/-- The CSR values that a csrw at level S takes (R72, R386). -/
def csrTakes (s : State) (t : Team) (n : Nat) (v : Word) : Bool := (linkTrap s t n v).isNone

/-- A csrw, csrs or csrc: the write lands at issue + 1 if the level may make it, and the old value at issue + 2
(R81, R148). -/
def csrWord (s : State) (op : CsrOp) (d : SReg) (n : BitVec 12) (a : SReg) : Host.Outcome State Fault Refusal :=
  let n := n.toNat
  runWord s (fun s t =>
    let v := csrNew op (s.csr t n) (t.getS a).v
    { regs := [.s a, .s d, .csr n], deny := csrPriv t n,
      late := if csrWritable t.svc n then linkTrap s t n v else none }) fun s t =>
    let cx := s.cur
    let x := t.getS a
    let t' := if csrWritable t.svc n && (op = .write || x.v != 0) then
        t.land cx (t.clock .ctl + 1) (.csr op n x.v x.t) else t
    s.setTeam ((readCsrInto s t' d n).signalAt cx (t.clock .ctl + 2))

/-- CSRW (R148). -/
def execCsrw (d : SReg) (n : BitVec 12) (a : SReg) (s : State) := csrWord s .write d n a
/-- CSRS (R148). -/
def execCsrs (d : SReg) (n : BitVec 12) (a : SReg) (s : State) := csrWord s .set d n a
/-- CSRC (R148). -/
def execCsrc (d : SReg) (n : BitVec 12) (a : SReg) (s : State) := csrWord s .clear d n a

/-- The CSR number of an exception register (R82, R142). -/
def excCsr : ExcReg → Nat
  | .vexc => 0x13 | .mexc => 0x14 | .cexc => 0x15

/-- POPX: the register as it stands goes to s_d at issue + 2 and is cleared at the same point (R142). -/
def execPopx (d : SReg) (r : ExcReg) (s : State) : Host.Outcome State Fault Refusal :=
  let n := excCsr r
  runWord s (fun _ _ => { regs := [.s d, .csr n] }) fun s t =>
    let cx := s.cur
    let t' := (readCsrInto s t d n).writeCsr (s.beatOf t) n 0
    s.setTeam (({ t' with csrTaint := setUnit t'.csrTaint n false }).signalAt cx (t.clock .ctl + 2))

/-! ## Traps and interrupts (R149 to R151) -/

/-- A trap word: complete when the trap is taken, so TEPC is P + 1, and no
signal fires, so the tokens it reserved are withdrawn (R92, R149). -/
def trapWord (s : State) (k : Cause) (code : BitVec 32) : Host.Outcome State Fault Refusal :=
  runWord s (fun _ _ => {}) fun s t =>
    s.raiseDone { t with toks := t.toks.filter fun x => x.id != s.cur.id } s.cur k (code.setWidth 64) (t.col .ctl).head

/-- TRAP (R149). -/
def execTrap (code : BitVec 32) (s : State) := trapWord s .software code
/-- EBRK (R149). -/
def execEbrk (code : BitVec 32) (s : State) := trapWord s .debugBreak code

/-- The bytes of the frame that an eret reads: NESTED at depth 2, else the records that the entry wrote (R383, R388). -/
def Team.frameRead (t : Team) : Nat × Nat :=
  if t.depth = 2 then (t.tfb.toNat + 0x40, 32)
  else (t.tfb.toNat, frameHead + ((latches t.held t.held).map fun r => r.2.size).sum)

/-- The checks of the frame by an eret: ECC of what it reads, and at depth 1 a record that fails R388 gives the bounds trap
with its offset (R388, R438). -/
def frameTrap (s : State) (t : Team) : Option Trap :=
  (t.eccTrap t.frameRead.2 [t.frameRead.1]).orElse fun _ =>
    if t.depth = 2 then none
    else match t.eretOuter (csrTakes s t) (s.beatOf t) with
      | .ok _ => none
      | .error e => some (.bounds, BitVec.ofNat 64 e)

/-- The team with the SIGNAL of a word that returns from its handler: it fires one beat after its issue, counted on the clock that
the word leaves (R92). -/
def Team.eretSignal (t : Team) (cx : Cur) : Team := t.signalAt cx (t.clock .ctl + 1)

/-- ERET: at depth 2 the outer entry comes back; at depth 1 the frame is checked and the team resumes (R388). A handler
that fails the check takes the bounds trap before any effect (R115, R387). (Log: 29, 34 DEDUCED.) -/
def execEret (s : State) : Host.Outcome State Fault Refusal :=
  runWord s (fun s t => { svc := true, late := frameTrap s t }) fun s t =>
    let t := (t.readEcc t.frameRead.2 [t.frameRead.1]).eretSignal s.cur
    if t.depth = 2 then s.setTeam t.eretInner
    else match t.eretOuter (csrTakes s t) (s.beatOf t) with
      | .ok t' => s.setTeam t'
      | .error _ => s.setTeam t

/-- WFI performs at the first beat at which TIP AND TIE is nonzero; ctl issues nothing before an interrupt that it may take
(R151, R154). -/
def execWfi (s : State) : Host.Outcome State Fault Refusal :=
  runWord s (fun _ t => { regs := [.csr 0x805], stall := (t.tip &&& t.tie) == 0 }) fun s t =>
    done1 s (if t.takeable then t.modCol .ctl fun x => { x with stopped := true } else t)

end Sys2Proof.Machine
end

