-- ==== Sys2Proof/Machine/Sync.lean ====
section
/-! DEFINITION. The issue of a channel word, the common group (R169 to R174), and ctl's synchronisation and ring words
(R138 to R144). -/

namespace Sys2Proof.Machine

/-- The list without its first entry that a condition picks out, and that entry. -/
def takeFirst {α : Type} (f : α → Bool) : List α → Option (α × List α)
  | [] => none
  | x :: l => if f x then some (x, l) else (takeFirst f l).map fun r => (r.1, x :: r.2)

/-! ## Reads that EARLYRD watches (R79) -/

/-- A register that R79 covers. -/
inductive RdName where
  | sel (n : Nat)
  | mask (n : Nat)
  | set (n : Nat)
  | net (n : Nat)
  | tab (n : Nat)
  | csr (n : Nat)
  | shadow (n : Nat)
  | bank (n : Nat)
  deriving DecidableEq, Repr

/-- TVAL below the landing beat (R79). -/
def RdName.tval : RdName → Nat
  | .sel n => n
  | .mask n => 0x100 + n
  | .set n => 0x200 + n
  | .net n => 0x300 + n
  | .tab n => 0x400 + n
  | .csr n => 0x500 + n * 4096
  | .shadow n => 0x600 + n
  | .bank n => 0x700 + n

/-- The registers that an effect on its way still has to write (R79). -/
def pendWrites : Instr → List RdName
  | .registerWriteLands w => match w with
    | .s r .. => [.sel (0x80 + r.toNat)]
    | .csr _ n .. => [.csr n]
    | .vshape .. => [.csr 0x12]
    | .bfmt n _ => [.bank n]
    | .mfmt _ => [.shadow 0]
    | .mring .. => [.shadow 1]
    | .mnest .. => [.shadow 2]
    | .minbox .. => [.shadow 3]
    | .modset m _ => [.set m.toNat]
    | .bitpat n .. => [.net n.toNat]
    | .tab n .. => [.tab n.toNat]
    | .a .. | .pat .. | .tail .. | .elastic _ => []
  | .sliceLands x =>
    (match x.dst with
     | .reg d _ => if d.code < 0x48 then [.sel d.code] else []
     | .mask k => [.mask k.toNat]) ++
    (match x.dst, x.lat with
     | .reg .lat _, _ => [.sel 0x50]
     | .reg _ _, .keep => []
     | .reg _ _, _ => [.sel 0x50]
     | .mask _, _ => [])
  | _ => []

/-- The register writes that an effect or a word on its way has still to make, each with its landing beat; `later` is that of an
elastic access or a waiting configuration which has not a beat of its own yet (R79, R80). (Log: 13 DEDUCED.) -/
def Pend.writes (p : Pend) (later : Nat) : List (RdName × Nat) :=
  let at_ := fun (d : SReg) (n : Nat) =>
    [((RdName.sel (0x80 + d.toNat), if p.cx.phase = .access then p.cx.issued + n else later) : RdName × Nat)]
  let due := if p.due = 0 then later else p.due
  match p.act with
  | .ld d .. => at_ d 6
  | .amo d .. | .cas d .. => at_ d 8
  | .fuseReadWord d _ | .fuseReadIdentity d _ | .fuseReadLifecycle d _ | .kwipe d _ | .ways d _ => [(.sel (0x80 + d.toNat), due)]
  | .mnest .. => [(.shadow 2, due)]
  | i => (pendWrites i).map fun r => (r, due)

/-- The debug-break trap of R79: a register that the word reads has a write of an earlier-issued word still to land. Of several
such reads TVAL names the one whose write lands first, and on one beat the first in the order of the word's fields.
(Log: 13 DEDUCED.) -/
def earlyRead (s : State) (t : Team) (reads : List RdName) : Option Trap :=
  if !t.dbgctl.getLsbD 0 then none
  else
    let due := ((t.pend ++ t.waiting).filter fun p => p.cx.issued < t.clk).flatMap (Pend.writes · (t.clk + 1 + Config.memLatency s.free))
    let hits := reads.filterMap fun r => (due.filter fun x => x.1 = r).foldl (fun (m : Option (RdName × Nat)) x => match m with
      | none => some x
      | some y => some (if x.2 < y.2 then x else y)) none
    (hits.foldl (fun (m : Option (RdName × Nat)) x => match m with
      | none => some x
      | some y => some (if x.2 < y.2 then x else y)) none).map fun x =>
      (.debugBreak, BitVec.ofNat 64 ((s.beatOf t + BitVec.ofNat 64 (x.2 - t.clk)).toNat % 2 ^ 32 * 2 ^ 32 + x.1.tval))

/-- The s registers among the reads, for R79; s0 is constant. (Log: 13 DEDUCED.) -/
def sReads (l : List SReg) : List RdName := (l.filter (· != 0)).map fun r => .sel (0x80 + r.toNat)

/-! ## Channel programs as streams (R86, R267, R319) -/

/-- A program owns the pseudo-channel's ticks (R319). (Log: 95 DEDUCED.) -/
def Pc.owned (p : Pc) : Bool :=
  match p.prog with
  | some g => !g.st.ended && !g.st.stopped
  | none => false

/-- The kinds of a command in a pseudo-channel's history. -/
inductive CmdKind where
  | act | rd | wr | close | ref | refsb | mrw | extra
  deriving DecidableEq, Repr

/-- The number that stands for a kind in the history. -/
def CmdKind.code : CmdKind → Nat
  | .act => 0 | .rd => 1 | .wr => 2 | .close => 3 | .ref => 4 | .refsb => 5 | .mrw => 6 | .extra => 7

/-- The rim that holds a pseudo-channel (R311). -/
def rimOf (pc : Nat) : Nat := pc / 128

/-- A bank is open on a row. -/
def Pc.anyOpen (p : Pc) : Bool := p.banks.toList.any (·.isSome)

/-- Beats until the rim may have closed every bank that a program leaves open at a beat of its clock: tRAS after the bank's act, tWR
after its last wr and tRTP after its last rd, and tRP (R317, R319). -/
def Pc.closing (p : Pc) (clk : Nat) : Nat :=
  let par := fun (c : CmdRec) =>
    if c.kind = CmdKind.act.code then some 2 else if c.kind = CmdKind.wr.code then some 9
    else if c.kind = CmdKind.rd.code then some 11 else none
  let left := p.hist.map fun c => match par c with
    | some i => c.tick + 2 * Config.fusedTiming (rimOf p.pc) i - clk
    | none => 0
  if p.anyOpen then left.foldl max 0 + 2 * Config.fusedTiming (rimOf p.pc) 1 else 0

/-- The pseudo-channel as its program ends: the default program takes over once the rim has closed the banks (R319).
(Log: 85 DEDUCED.) -/
def Pc.ending (p : Pc) (now clk : Nat) : Pc := { p with busyTill := max p.busyTill (now + p.closing clk) }

/-- A trap of a channel program: taken in the owning team, the sequencer issues nothing further, and the rim closes the banks
(R269, R319, R376). (Log: 85 DEDUCED.) -/
def State.raiseChan (s : State) (t : Team) (p : Pc) (g : ChanProg) (k : Cause) (tval : Word) : State :=
  (s.setTeam (t.pendTrap .chn s.cur.pos k tval 0 t.clk)).setPc
    { p.ending s.now t.clk with prog := some { g with st := { g.st with stopped := true } } }

/-- A channel word after its issue at this tick: the head is past it. -/
def State.chanStep (s : State) (t : Team) (p : Pc) (g : ChanProg) (ticks : Nat) : State :=
  let st := { g.st.step s.cur.pos with next := t.clk + 2 * ticks, tried := false }
  s.setPc { p with prog := some { g with st := st, lastAt := t.clk, lastPos := s.cur.pos } }

/-- The SIGNAL of a channel word, a barrier arrival at most, when the word performs (R92, R285). -/
def State.chanSignal (s : State) (owner : Nat) (cx : Cur) : State :=
  match cx.signal with
  | .bar b => match s.team owner with
    | some u => s.arrive u b { cx with cid := owner }
    | none => s
  | _ => s

/-- A channel word's barrier arrival takes effect at its issue beat (R285), and its other effects, but those of rd, perform
then too (R358). (Log: 136 DEDUCED.) -/
def State.chanDone (s : State) (t : Team) (p : Pc) (g : ChanProg) (ticks : Nat) : State :=
  (s.chanStep t p g ticks).chanSignal t.cid s.cur

/-- A nullified channel word after its issue: its SIGNAL fires one beat later (R88). (Log: 136 DEDUCED.) -/
def State.chanNul (s : State) (t : Team) (p : Pc) (g : ChanProg) : State :=
  let s := s.chanStep t p g 1
  if s.cur.signal = .none then s else s.setTeam (t.signalAt s.cur (t.clk + 1))

/-- THE ISSUE OF A CHANNEL WORD (R86, R90, R95): privilege, its barrier's valid bit, its WAIT, then its effect `eff`, or,
nullified, what `nul` leaves of it (R88). -/
def runChanN (s : State) (svc : Bool) (nul eff : State → Team → Pc → ChanProg → State) :
    Host.Outcome State Fault Refusal :=
  match s.team s.cur.cid, s.pc s.cur.pc with
  | some t, some p => match p.prog with
    | none => .fault .noStream
    | some g =>
      if svc && !g.svc && !s.cur.nul then .next (s.raiseChan t p g .privilege s.cur.word)
      else match t.syncTrap s.cur.wait s.cur.signal with
        | some e => .next (s.raiseChan t p g e.1 e.2)
        | none =>
          if t.waitOk .chn g.st s.cur.wait then
            .next (if s.cur.nul then nul s t p g else eff s t p g)
          else if s.cur.phase = .final then .next (s.raiseChan t p g .schedule (s.beatOf t))
          else .next (s.setPc { p with prog := some { g with st := { g.st with tried := true } } })
  | _, _ => .fault .noStream

/-- The issue of a channel word that has only its SIGNAL when it is nullified (R88). -/
def runChan (s : State) (svc : Bool) (eff : State → Team → Pc → ChanProg → State) :
    Host.Outcome State Fault Refusal := runChanN s svc State.chanNul eff

/-! ## The common group -/

/-- NOP (R173). -/
def execNop (s : State) : Host.Outcome State Fault Refusal :=
  if s.cur.col = .chn then runChan s false fun s t p g => s.chanDone t p g 1
  else runWord s (fun _ _ => {}) done1

/-- ELAS: elastic mode and a clear COLMODE bit from issue + 1 (R173). -/
def execElas (s : State) : Host.Outcome State Fault Refusal :=
  runWord s (fun _ _ => {}) fun s t => done1 s (t.land s.cur (t.clock s.cur.col + 1) (.elastic s.cur.col))

/-- The debug-break trap of the s registers that a word of vec, mat or cpy reads; ctl and acs words make none (R79). -/
def earlyOf (s : State) (t : Team) (l : List SReg) : Option Trap :=
  match s.cur.col with
  | .vec | .mat | .cpy => earlyRead s t (sReads l)
  | .ctl | .acs | .chn => none

/-- The count of a loop word and its taint (R103, R169). -/
def loopCount (t : Team) (src : LoopSrc) (bound : BitVec 12) : TW :=
  match src with
  | .reg r => t.getS r
  | .mbx m => ⟨t.mbx.get m.toFin, false⟩
  | .imm => ⟨bound.setWidth 64, false⟩

/-- A ring position lies in a loop's body (R170). -/
def LoopRec.holds (l : LoopRec) (pos : Nat) : Bool := l.start ≤ pos && pos < l.start + l.len

/-- The checks of a loop word that is not nullified on its depth and its extent, which its own fields decide; the enclosing body is
that of the innermost open loop that holds the word (R95, R169). -/
def loopRoom (st : Column) (pos len : Nat) : Option Trap :=
  if 4 ≤ st.loops.length then some (.bounds, 4)
  else match st.loops.find? fun l => l.holds pos with
    | some l => if l.start + l.len < pos + 1 + len then some (.bounds, BitVec.ofNat 64 (pos + len)) else none
    | none => none

/-- The checks of a loop word that is not nullified, in the order of R169. (Log: 146 DEDUCED.) -/
def loopTrap (strict : Bool) (st : Column) (pos : Nat) (fixed : Bool) (x : TW) (src : LoopSrc) (bound len : Nat) :
    Option Trap :=
  match loopRoom st pos len with
  | some e => some e
  | none =>
    if fixed && bound < x.v.toNat then some (.bounds, x.v)
    else if !fixed && 2 ^ 32 ≤ x.v.toNat then some (.bounds, x.v)
    else if strict && x.t then some (.taint, match src with | .reg r => r.setWidth 64 | _ => 0)
    else none

/-- The column past a loop word at pos: its body is open, or is skipped by a loope that runs no iteration; the end of a body that
is skipped is the end of the innermost open body only where the loop word lies in that body (R170, R171). -/
def Column.openLoop (x : Column) (pos : Nat) (fixed : Bool) (count bound len : Nat) (skip : Bool) : Column :=
  if skip then
    let r := match x.loops with
      | l :: _ => if l.holds pos then afterWord (pos + len) x.loops else (pos + len + 1, x.loops)
      | [] => (pos + len + 1, [])
    { x with head := r.1, loops := r.2 }
  else { x with head := pos + 1, loops := ⟨pos + 1, len, bound, fixed, count, 0⟩ :: x.loops }

/-- A loop word: count, checks, and the body opened or skipped; nullified, a loopf's body still runs B iterations and
a loope's is skipped (R169 to R171). A nullified loop word makes no check, so that a fifth loop may open.
(Log: 159 DEDUCED.) -/
def loopWord (s : State) (fixed : Bool) (src : LoopSrc) (bound len : BitVec 12) : Host.Outcome State Fault Refusal :=
  let pos := s.cur.pos
  let opened := fun (x0 x : Column) (c : Nat) =>
    let skip := !fixed && (s.cur.nul || c = 0)
    let y := x0.openLoop pos fixed c bound.toNat len.toNat skip
    ({ x with head := y.head, loops := y.loops } : Column)
  if s.cur.col = .chn then
    let go := fun (s : State) (g : ChanProg) (x : TW) => match s.pc s.cur.pc with
      | some p => s.setPc { p with prog := p.prog.map fun g' => { g' with st := opened g.st g'.st x.v.toNat } }
      | none => s
    runChanN s false (fun s t p g => go (s.chanNul t p g) g (loopCount t src bound)) fun s t p g =>
      let x := loopCount t src bound
      match loopTrap (t.ndet = 2) g.st pos fixed x src bound.toNat len.toNat with
      | some e => s.raiseChan t p g e.1 e.2
      | none => go (s.chanDone t p g 1) g x
  else
    let go := fun (s : State) (t : Team) =>
      let st := match s.team s.cur.cid with
        | some t0 => t0.col s.cur.col
        | none => t.col s.cur.col
      done1 s (t.modCol s.cur.col fun y => opened st y (loopCount t src bound).v.toNat)
    runWordN s (fun s t =>
      { regs := match src with | .reg r => (if s.cur.col = .ctl then [.s r] else []) | _ => [],
        fault := loopRoom (t.col s.cur.col) pos len.toNat,
        reject := !fixed && src != .imm,
        late := (loopTrap (t.ndet = 2) (t.col s.cur.col) pos fixed (loopCount t src bound) src bound.toNat len.toNat).orElse
          fun _ => earlyOf s t (match src with | .reg r => [r] | _ => []) })
      go go

/-- LOOPF runs B iterations, nullifying those at or beyond the count (R171). -/
def execLoopf (src : LoopSrc) (bound len : BitVec 12) (s : State) := loopWord s true src bound len
/-- LOOPE runs exactly count iterations (R171). -/
def execLoope (src : LoopSrc) (bound len : BitVec 12) (s : State) := loopWord s false src bound len

/-- An rd of the pseudo-channel that has still to perform (R358). -/
def isRdOf (pc : Nat) (p : Pend) : Bool :=
  p.cx.pc = pc && match p.act with
    | .rdLanding .. | .rdL2Fill .. => true
    | _ => false

/-- Beats until the last rd of a pseudo-channel performs (R358). -/
def State.rdLeft (s : State) (pc : Nat) : Nat :=
  s.teams.foldl (fun m t => (t.pend.filter (isRdOf pc)).foldl (fun m p => max m (p.due - t.clk)) m) 0

/-- A channel program has performed rdv: the default program takes over once every bank is closed (R172, R319). -/
def State.endProg (s : State) (owner : Nat) (cx : Cur) : State :=
  let s := s.chanSignal owner cx
  match s.pc cx.pc with
  | some p =>
    let clk := match s.team owner with
      | some t => t.clk
      | none => 0
    s.setPc { p.ending s.now clk with prog := p.prog.map fun g => { g with st := { g.st with ended := true, loops := [] } } }
  | none => s

/-- RDV ends its stream: it performs once every earlier word of the column has performed, and its SIGNAL fires then
(R172). A channel program's waits for its last rd (R358). (Log: 28, 85 DEDUCED.) -/
def execRdv (s : State) : Host.Outcome State Fault Refusal :=
  if s.cur.col = .chn then
    if s.cur.phase = .perform then onTeam s fun t => s.endProg t.cid s.cur
    else runChan s false fun s t p g =>
      let left := s.rdLeft p.pc
      let s' := s.chanStep t p g (2 ^ 64)
      if left = 0 then s'.endProg t.cid s.cur
      else s'.setTeam { t with pend := insertPend ⟨t.clk + left, 7, { s.cur with phase := .perform }, .rdv⟩ t.pend }
  else if s.cur.phase = .perform then
    onTeam s fun t =>
      s.setTeam ((t.modCol s.cur.col fun x => { x with ended := true, loops := [] }).signalAt s.cur (t.clock s.cur.col))
  else runWord s (fun _ _ => {}) fun s t =>
    s.setTeam ((t.await s.cur [] .rdv).modCol s.cur.col fun x => { x with portFree := 2 ^ 64 })

/-- HOOP: the column stalls in it until its alignment's pulse, and its target is s_x + u (R174). A channel program's
hoop has no target of its own. -/
def execHoop (x : SReg) (u : BitVec 34) (s : State) : Host.Outcome State Fault Refusal :=
  if s.cur.col = .chn then
    runChan s false fun s t p g =>
      let s := s.chanStep t p g 1
      match s.pc s.cur.pc with
      | some p' => s.setPc { p' with prog := p'.prog.map fun g' =>
          { g' with st := { g'.st with hoop := some ⟨0, t.clk, false, s.cur.pos, s.cur.loops, s.cur.signal⟩ } } }
      | none => s
  else runWord s (fun s t => { regs := if s.cur.col = .ctl then [.s x] else [], late := earlyOf s t [x] }) fun s t =>
    let h := (t.getS x).v + u.setWidth 64
    s.setTeam ((t.await s.cur [h.toNat] (.hoop x u)).modCol s.cur.col fun y =>
      { y with hoop := some ⟨h, t.clock s.cur.col, false, s.cur.pos, s.cur.loops, s.cur.signal⟩, portFree := 2 ^ 64 })

/-! ## Accesses that a signal, a bar or a fence releases (R335, R136) -/

/-- A word that reads or writes memory on its column's path (R328). -/
def isAccess : Instr → Bool
  | .ld .. | .st .. | .amo .. | .cas .. | .cboClean .. | .cboFlush .. | .call _ | .callr _ | .ret | .lq .. | .lqx .. | .lqb .. | .lqg ..
  | .sq .. | .sqx .. | .sqg .. | .patld .. | .cp .. | .cpWs .. | .cpCb .. | .cpd .. | .cpchk .. | .cpfill .. | .cpres ..
  | .copyChunk | .copyPerforms => true
  | _ => false

/-- A word that reaches beyond the scratchpad: it has performed when its data have returned (R92). -/
def isFar : Instr → Bool
  | .ld _ _ _ spc .. | .st _ _ _ spc .. | .amo _ _ _ spc .. | .cas _ _ _ spc .. => spc != .sp
  | .cboClean .. | .cboFlush .. | .lqg .. | .sqg .. => true
  | _ => false

/-- The event by which the performing of an access beyond the scratchpad is known (R92). -/
def Pend.returns (p : Pend) : Bool :=
  match p.act with
  | .signalFire (.code _) => match decode p.cx.col p.cx.word.toNat with
    | .ok k => isFar k.instr
    | .error _ => false
  | _ => false

/-- The effect is of a word of its column that reaches beyond the scratchpad. -/
def Pend.far (p : Pend) : Bool :=
  match decode p.cx.col p.cx.word.toNat with
  | .ok k => isFar k.instr
  | .error _ => false

/-- The effect stands for a word whose access has still to perform. -/
def Pend.accesses (p : Pend) : Bool := isAccess p.act || p.returns

/-- The storage that a space names, as the storage mask of a fence numbers it (R136). -/
def storageOf : Space → Nat
  | .sp => 0
  | .gl | .ap => 2
  | .hp => 3

/-- The storage and the class of a ctl word's access (R126, R136, R328). -/
def accessKind : Instr → Option (Nat × Nat)
  | .ld _ _ c spc .. | .st _ _ c spc .. | .amo _ _ c spc .. | .cas _ _ c spc .. => some (storageOf spc, c.toNat)
  | .cboClean _ c _ | .cboFlush _ c _ => some (2, c.toNat)
  | .call _ | .callr _ | .ret => some (0, 0)
  | _ => none

/-- The storage and the class of the ctl access that an effect stands for. -/
def Pend.kind (p : Pend) : Option (Nat × Nat) :=
  match accessKind p.act with
  | some k => some k
  | none => if !p.returns then none else match decode p.cx.col p.cx.word.toNat with
    | .ok k => accessKind k.instr
    | .error _ => none

/-- An earlier access of ctl to storage of a mask, of a class of a mask, has still to perform (R136, R336). -/
def Team.ctlLeft (t : Team) (stor : BitVec 4) (classes : BitVec 16) (id : Nat) : Bool :=
  t.inFlight.any fun p => p.cx.col = .ctl && p.cx.id < id && match p.kind with
    | some k => stor.getLsbD k.1 && classes.getLsbD k.2
    | none => false

/-- An earlier access of the column has still to perform (R335). -/
def Team.accessBefore (t : Team) (c : Col) (id : Nat) : Bool :=
  (t.inFlight.any fun p => p.cx.col = c && p.cx.id < id && p.accesses) ||
  (c = .cpy && ((t.copies.any fun k => k.cx.id < id) || t.cpx.any fun k => k.cx.id < id)) ||
  (c = .mat && ((t.engine.any fun j => j.id < id) || t.border.any fun r => r.kind = 1 && r.cx.id < id && !r.released))

/-! ## Barriers, signals and waits of ctl -/

/-- BAR arrives at its issue beat, which it holds back until every earlier access of ctl has performed (R335), and performs
when that generation is observed complete; the port is busy until then (R138). -/
def execBar (b : BitVec 3) (s : State) : Host.Outcome State Fault Refusal :=
  if s.cur.phase = .perform then
    onTeam s fun t =>
      let now := t.clock .ctl
      s.setTeam ((((t.acquire .ctl).hears (t.shown .ctl (.bar b))).modCol .ctl fun x => { x with portFree := now }).signalAt s.cur now)
  else runWord s (fun _ t =>
      { fault := if (t.bars.get b.toFin).valid then none else some (.bounds, b.setWidth 64),
        stall := t.accessBefore .ctl s.cur.id }) fun s t =>
    (s.setTeam ((t.await s.cur [] (.bar b)).modCol .ctl fun x => { x with portFree := 2 ^ 64 })).arrive t b s.cur

/-- CSIG: the counted event fires at issue + 1, beside the word's own SIGNAL (R139). -/
def execCsig (c : CsigCode) (a : SReg) (s : State) : Host.Outcome State Fault Refusal :=
  runWord s (fun _ t =>
    let n := (t.getS a).v
    let off := match c with
      | .link j => !(t.cnt.get j.toFin).link.getLsbD 0
      | _ => false
    { regs := [.s a], fault := if off then some (.bounds, 0) else none,
      late := if n.toNat < 2 ^ 32 then none else some (.bounds, 0) }) fun s t =>
    let due := t.clock .ctl + 1
    let e := SigEvent.count c (t.getS a).v.toNat
    s.setTeam ((t.later .ctl ⟨due, rankEvent e, s.cur, .signalFire e⟩).signalAt s.cur due)

/-- The condition of a cwait: a counter with a nonzero register compares with it (R140). -/
def cwaitHolds (t : Team) (c : CwaitCode) (a : SReg) : Bool :=
  match c with
  | .cnt j => if a = 0 then t.cntDone (t.col .ctl).timed j else (t.getS a).v.toNat ≤ t.cntSeen (t.col .ctl).timed j
  | .flag f => t.flags.getLsbD f.toNat
  | .bar b => t.barDone (t.col .ctl) b
  | .colIdle k => t.colIdle k
  | .plait => t.plaitsDone (t.col .ctl).timed
  | .landed => t.landed

/-- The WAIT that waits for the condition of a cwait (R89, R140). -/
def cwaitAsWait : CwaitCode → Wait
  | .flag f => .flag f
  | .cnt j => .cnt j
  | .bar b => .bar b
  | .colIdle k => .colIdle k
  | .plait => .plait
  | .landed => .landed

/-- The team once the condition of a cwait has held: it acquires for ctl, which has observed what completed (R136, R140). -/
def Team.cwaited (t : Team) (c : CwaitCode) : Team := (t.acquire .ctl).hears (t.shown .ctl (cwaitAsWait c))

/-- CWAIT issues once its own WAIT holds, and holds its port until it performs: at the first beat at which its condition holds,
which in timed mode is its scheduled beat (R140, R154). -/
def execCwait (c : CwaitCode) (a : SReg) (s : State) : Host.Outcome State Fault Refusal :=
  if s.cur.phase = .perform then
    onTeam s fun t =>
      let now := t.clock .ctl
      s.setTeam (((t.cwaited c).modCol .ctl fun x => { x with portFree := now }).signalAt s.cur now)
  else runWord s (fun _ t =>
    let bad : Option Trap := match c with
      | .bar b => if (t.bars.get b.toFin).valid then none else some (.bounds, b.setWidth 64)
      | _ => none
    let big := !t.busy .ctl [.s a] && 2 ^ 32 ≤ (t.getS a).v.toNat
    { regs := [.s a], fault := bad, stall := (t.col .ctl).timed && !big && !cwaitHolds t c a,
      late := if big then some (.bounds, 0) else none }) fun s t =>
    if cwaitHolds t c a then done1 s (t.cwaited c)
    else s.setTeam ((t.await s.cur [] (.cwait c a)).modCol .ctl fun x => { x with portFree := 2 ^ 64 })

/-- TCHK: a tainted register raises the taint trap with its number (R141). -/
def execTchk (a : SReg) (s : State) : Host.Outcome State Fault Refusal :=
  runWord s (fun _ t => { regs := [.s a], late := if (t.getS a).t then some (.taint, a.setWidth 64) else none }) done1

/-- A bank of the launch that is not serving as a cache way (R124, R134, R293). -/
def Team.bankOk (t : Team) (n : Nat) : Bool := t.banks.getLsbD n && !(15 < n + t.ways && n < 16)

/-- The first scratchpad address of n bytes from lo that is outside the allotted banks (R124, R160). -/
def Team.spBad (t : Team) (lo n : Nat) : Option Nat :=
  if n = 0 then none
  else
    let first := (List.range ((lo + n - 1) / 131072 - lo / 131072 + 1)).find? fun i =>
      let k := lo / 131072 + i
      16 ≤ k || !t.bankOk k
    first.map fun i => max lo ((lo / 131072 + i) * 131072)

/-- TCHK_SP: the first tainted word of a scratchpad range raises the taint trap; it waits for unsealed sectors, and its
reads are accesses of ctl's path (R128, R141, R328, R349, R445). -/
def execTchkSp (a b : SReg) (s : State) : Host.Outcome State Fault Refusal :=
  runWord s (fun _ t =>
    let lo := (t.getS a).v.toNat
    let n := (t.getS b).v.toNat
    let late : Option Trap :=
      if n = 0 then none
      else match t.spBad lo (min n (2 ^ 22)) with
        | some _ => some (.bounds, 0)
        | none => (((t.view 0).spadTaint.find? fun u => lo / 4 ≤ u && u ≤ (lo + n - 1) / 4).map fun u =>
            (Cause.taint, BitVec.ofNat 64 (4 * u))).orElse fun _ => freshTrap t 0 n [lo]
    { regs := [.s a, .s b], stall := n ≤ 2 ^ 22 && (t.spBad lo n).isNone && t.unsealed (t.col .ctl).timed lo n, late := late }) fun s t =>
    let n := (t.getS b).v.toNat
    let s' := done1 s t
    if n = 0 then s' else s'.afterRows s.cur 0 false t n [(t.getS a).v.toNat]

/-! ## Feeding the other columns (R143, R144) -/

/-- The lowest position that a column may still fetch (R143). -/
def Column.lowest (x : Column) : Nat :=
  match x.loops.getLast? with
  | some l => l.start
  | none => x.head

/-- QPUT appends a word to a column's ring: its store, an access of ctl's path, performs at issue + 1 (R143, R295, R349). -/
def execQput (c : Col) (a : SReg) (s : State) : Host.Outcome State Fault Refusal :=
  if s.cur.phase = .access then
    onTeam s fun t => match s.cur.args with
      | [addr, v, k] =>
        let taint := k = 1 || t.freshTaints 0 8 [addr]
        (s.setTeam { t with
          spad := writeNat t.spad addr v 8,
          spadTaint := setUnit (setUnit t.spadTaint (addr / 4) taint) (addr / 4 + 1) taint }).afterRows s.cur 0 true t 8 [addr]
      | _ => s
  else runWord s (fun _ t =>
      let x := t.col c
      { regs := [.s a], fault := if x.ended then some (.bounds, 0) else none,
        stall := decide (x.lowest + x.size ≤ x.put),
        late := freshTrap t 0 8 [x.base + 8 * (x.put % x.size)] }) fun s t =>
    let x := t.col c
    let t := t.setCol c { x with put := x.put + 1 }
    done1 s (t.again s.cur (t.clock .ctl + 1) .access [x.base + 8 * (x.put % x.size), (t.getS a).v.toNat,
      if (t.getS a).t then 1 else 0] (.qput c a))

/-- QPUB makes every appended word fetchable at issue + 1 (R144). -/
def execQpub (c : Col) (s : State) : Host.Outcome State Fault Refusal :=
  runWord s (fun _ t => { fault := if (t.col c).ended then some (.bounds, 0) else none }) fun s t =>
    done1 s (t.land s.cur (t.clock .ctl + 1) (.tail c (t.col c).put))

end Sys2Proof.Machine
end

