-- ==== Sys2Proof/Machine/Access.lean ====
section
/-! DEFINITION. acs: address arithmetic, access patterns, and the words that move rows between scratchpad and the queues
(R156 to R168); and the checks that every scratchpad access makes (R128, R164, R295). -/

namespace Sys2Proof.Machine

/-! ## Checks of scratchpad accesses -/

/-- A ring configuration's base, slot bytes and slot count (R222). -/
def ringBase (w : Word) : Nat := fld w.toNat 0 21
/-- Bytes of a slot (R222). -/
def ringSlot (w : Word) : Nat := 256 * fld w.toNat 24 11
/-- Slots of a ring (R222). -/
def ringCount (w : Word) : Nat := fld w.toNat 36 4 + 1

/-- The byte at address a lies in a live slot of the ring (R222, R300). -/
def RingSt.liveAt (r : RingSt) (a : Nat) : Bool :=
  let b := ringBase r.cfg
  let z := ringSlot r.cfg
  let c := ringCount r.cfg
  b ≤ a && a < b + z * c && (List.range (r.tail - r.head)).any fun i => (r.head + i) % c = (a - b) / z

/-- The first byte of n from lo in a live slot of the team's active rings (R295). -/
def Team.liveHit (t : Team) (lo n : Nat) : Option Nat :=
  match t.active with
  | none => none
  | some _ => ((List.range n).map (lo + ·)).find? fun a => t.rA.liveAt a || t.rB.liveAt a

/-- The bytes lo to lo + n - 1 meet the range from a to b - 1. -/
def meets (lo n a b : Nat) : Bool := lo < b && a < lo + n && n != 0

/-- A byte lies in the trap frame: the tflen bytes at TFB (R273, R376). -/
def Team.inFrame (t : Team) (lo n : Nat) : Bool := meets lo n t.tfb.toNat (t.tfb.toNat + t.tfLen)

/-- A byte lies in the stack allotment or the trap frame (R164, R258). (Log: 30 DEDUCED.) -/
def Team.inStackOrFrame (t : Team) (lo n : Nat) : Bool :=
  meets lo n t.stkb.toNat t.stkl.toNat || t.inFrame lo n

/-- The taint of the 32-bit words from word u on, as bits (R127). -/
def taintBits (l : List Nat) (u : Nat) : Nat → Nat
  | 0 => 0
  | n + 1 => (if l.contains u then 1 else 0) + 2 * taintBits l (u + 1) n

/-- Set the taint of n words from word u on. -/
def setTaintBits (l : List Nat) (u : Nat) (bits : Nat) : Nat → List Nat
  | 0 => l
  | n + 1 => setTaintBits (setUnit l u (bits % 2 = 1)) (u + 1) (bits / 2) n

/-! ## Address arithmetic (R157) -/

/-- An address word: its result lands in a_d (R157). -/
def acsArith (s : State) (d : AReg) (regs : List AReg) (lat : Nat) (f : Team → TW) : Host.Outcome State Fault Refusal :=
  runWord s (fun _ _ => { regs := .a d :: regs.map .a }) fun s t =>
    let x := f t
    let due := t.clk + lat
    s.setTeam ((t.land s.cur due (.a d x.v x.t)).signalAt s.cur due)

/-- A result of two a registers with the taint of both. -/
def aOp (a b : AReg) (f : Word → Word → Word) (t : Team) : TW :=
  ⟨f (t.getA a).v (t.getA b).v, (t.getA a).t || (t.getA b).t⟩

/-- AADD (R157). -/
def execAadd (d a b : AReg) (s : State) := acsArith s d [a, b] 1 (aOp a b (· + ·))
/-- ASUB (R157). -/
def execAsub (d a b : AReg) (s : State) := acsArith s d [a, b] 1 (aOp a b (· - ·))
/-- ASHL (R157). -/
def execAshl (d a b : AReg) (s : State) := acsArith s d [a, b] 1 (aOp a b fun x y => x <<< (y.toNat % 64))
/-- AMUL (R157). -/
def execAmul (d a b : AReg) (s : State) := acsArith s d [a, b] 3 (aOp a b (· * ·))
/-- AMOV (R157). -/
def execAmov (d : AReg) (x : SReg) (s : State) := acsArith s d [] 1 fun t => t.getS x
/-- AADDI (R157). -/
def execAaddi (d a : AReg) (i : BitVec 28) (s : State) :=
  acsArith s d [a] 1 fun t => ⟨(t.getA a).v + i.signExtend 64, (t.getA a).t⟩
/-- AMOVI (R157). -/
def execAmovi (d : AReg) (i : BitVec 28) (s : State) := acsArith s d [] 1 fun _ => ⟨i.signExtend 64, false⟩
/-- AMIN, unsigned (R157). -/
def execAmin (d a b : AReg) (s : State) := acsArith s d [a, b] 1 (aOp a b fun x y => if x.ult y then x else y)

/-! ## Access patterns (R158 to R160) -/

/-- PAT writes a pattern with no wrap, valid at issue + 1 (R158). -/
def execPat (p : BitVec 3) (rows rb : BitVec 4) (str : BitVec 19) (s : State) : Host.Outcome State Fault Refusal :=
  runWord s (fun _ _ => { regs := [.p p] }) fun s t =>
    done1 s (t.land s.cur (t.clk + 1) (.pat p ⟨rows.toNat + 1, 8 * (rb.toNat + 1), 8 * str.toInt, 0⟩))

/-- A 64-bit sum of an address and a signed offset. -/
def addrPlus (a : Nat) (d : Int) : Nat := (((a : Int) + d) % 2 ^ 64).toNat

/-- Under DETMODE strict a tainted address register raises the taint trap (R156). -/
def addrTaint (t : Team) (x : AReg) : Option Trap :=
  if t.ndet = 2 && (t.getA x).t then some (.taint, x.setWidth 64) else none

/-- A scratchpad range that is not wholly in the launch's banks (R124, R160). -/
def bankTrap (t : Team) (lo n : Nat) : Option Trap := (t.spBad lo n).map fun a => (.bounds, BitVec.ofNat 64 a)

/-- PATLD: the descriptor is read at issue + 1 and the pattern is valid at issue + 6 (R159). -/
def execPatld (p : BitVec 3) (x : AReg) (off : BitVec 27) (s : State) : Host.Outcome State Fault Refusal :=
  if s.cur.phase = .access then
    onTeam s fun t =>
      let a := s.cur.args.headD 0
      match patOf (readNat (t.view 1).spad a 16) with
      | some pt =>
        (s.setTeam ((t.land s.cur (s.cur.issued + 6) (.pat p pt)).signalAt s.cur (s.cur.issued + 6))).afterRows s.cur 1
          false t 16 [a]
      | none => s.raise t s.cur (.bounds, BitVec.ofNat 64 a)
  else runWord s (fun _ t =>
      let a := addrPlus (t.getA x).v.toNat (16 * off.toInt)
      { regs := [.a x, .p p],
        stall := t.unsealed (t.col .acs).timed a 16,
        late := (addrTaint t x).orElse fun _ =>
          if a % 16 ≠ 0 then some (.misalign, BitVec.ofNat 64 a)
          else (bankTrap t a 16).orElse fun _ => t.readsTrap 1 16 [a] }) fun s t =>
    let a := addrPlus (t.getA x).v.toNat (16 * off.toInt)
    s.setTeam (t.again s.cur (t.clk + 1) .access [a] (.patld p x off))

/-- The address of row y of a pattern access at base A (R160). -/
def patAddr (p : Pattern) (a y : Nat) : Nat :=
  let x := addrPlus a (y * p.str)
  if p.wrap = 0 then x
  else
    let w := a - a % p.wrap
    w + (((x : Int) - w) % p.wrap).toNat

/-- The first failing row of a list of row addresses: a row must start at a multiple of 8 and lie in the launch's
banks (R160). -/
def rowsTrap (t : Team) (rb : Nat) : List Nat → Option Trap
  | [] => none
  | a :: l =>
    if a % 8 ≠ 0 then some (.misalign, BitVec.ofNat 64 a)
    else match bankTrap t a rb with
      | some e => some e
      | none => rowsTrap t rb l

/-- Row addresses of a pattern access (R160). -/
def patRows (p : Pattern) (a : Nat) : List Nat := (List.range p.rows).map (patAddr p a)

/-- The checks of a scratchpad read of rows (R156, R160). -/
def readTrap (t : Team) (x : AReg) (rb : Nat) (rows : List Nat) : Option Trap :=
  (addrTaint t x).orElse fun _ => (rowsTrap t rb rows).orElse fun _ => t.readsTrap 1 rb rows

/-- The checks of a scratchpad store of rows: the stack and the frame, then live slots and unsealed sectors (R160,
R164). -/
def storeTrap (t : Team) (x : AReg) (rb : Nat) (rows : List Nat) : Option Trap :=
  ((addrTaint t x).orElse fun _ => rowsTrap t rb rows).orElse fun _ =>
    if rows.any fun a => t.inStackOrFrame a rb then some (.bounds, 0)
    else
      let bad := rows.filterMap fun a =>
        let unsealed := if t.unsealedNow a rb then ((List.range rb).map (a + ·)).find? fun b => t.unsealedNow b 1 else none
        match t.liveHit a rb with
        | some b => earlier unsealed b
        | none => unsealed
      (bad.head?.map fun a => (Cause.ringConflict, BitVec.ofNat 64 a)).orElse fun _ => freshTrap t 1 rb rows

/-! ## Moving rows -/

/-- Rows of an entry read from scratchpad: bytes and taint of each listed address, in order; none is a row of +0
(R161, R162). -/
def loadRows (t : Team) (rb : Nat) : List (Option Nat) → Nat × Nat
  | [] => (0, 0)
  | o :: l =>
    let r := loadRows t rb l
    match o with
    | some a => (readNat t.spad a rb + 2 ^ 1024 * r.1, taintBits t.spadTaint (a / 4) (rb / 4) + 2 ^ 32 * r.2)
    | none => (2 ^ 1024 * r.1, 2 ^ 32 * r.2)

/-- Taint of all words of the rows set in a list. (Log: 152 DEDUCED.) -/
def rowsTainted : List Bool → Nat
  | [] => 0
  | b :: l => (if b then 2 ^ 32 - 1 else 0) + 2 ^ 32 * rowsTainted l

/-- A queue of acs or vec. -/
def Team.qAt (t : Team) (q : BitVec 2) : List QEntry := t.q.get q.toFin
/-- A w queue. -/
def Team.wAt (t : Team) (q : BitVec 2) : List QEntry := t.w.get q.toFin
/-- The team with a q queue replaced. -/
def Team.setQ (t : Team) (q : BitVec 2) (l : List QEntry) : Team := { t with q := t.q.set q.toNat l q.isLt }
/-- The team with a w queue replaced. -/
def Team.setW (t : Team) (q : BitVec 2) (l : List QEntry) : Team := { t with w := t.w.set q.toNat l q.isLt }

/-- A full queue holds four entries, reserved ones among them (R68). -/
def full (l : List QEntry) : Bool := 4 ≤ l.length

/-- The queue does not hold n landed entries at its head (R68). -/
def lacks (l : List QEntry) (n : Nat) : Bool := !(n ≤ l.length && (l.take n).all (·.landed))

/-- The entry at the head of a queue. -/
def headV (l : List QEntry) : VVal := match l with
  | e :: _ => e.v
  | [] => ⟨0, 0⟩

/-- Reserve a place in q_Q for the word's entry (R68). -/
def Team.reserveQ (t : Team) (q : BitVec 2) (id : Nat) : Team := t.setQ q (t.qAt q ++ [⟨id, false, ⟨0, 0⟩⟩])

/-- The entry that an access has read lands in its queue at a beat, and the SIGNAL fires then (R161). -/
def landEntry (s : State) (t : Team) (q : BitVec 2) (due bits taint : Nat) : State :=
  s.setTeam ((t.later .acs ⟨due, rankLand, s.cur,
    .queueEntryLands q s.cur.id ⟨BitVec.ofNat 16384 bits, BitVec.ofNat 512 taint⟩⟩).signalAt s.cur due)

/-- The base of a row access: a_x + 8·off (R161). -/
def rowBase (t : Team) (x : AReg) (off : Int) : Nat := addrPlus (t.getA x).v.toNat (8 * off)

/-- The trap of a word that names an invalid pattern (R71). -/
def patTrap (t : Team) (p : BitVec 3) : Option Trap :=
  if t.busy .acs [.p p] then none else if (t.p.get p.toFin).isNone then some (.bounds, 0) else none

/-- The pattern of a word; an invalid one has trapped before (R71). -/
def Team.pattern (t : Team) (p : BitVec 3) : Pattern := (t.p.get p.toFin).getD ⟨1, 8, 0, 0⟩

/-- LQ and LQB: rows are sampled at issue + 1 and the entry lands at issue + 12 (R161, R164). (Log: 152 DEDUCED.) -/
def loadQueue (s : State) (q : BitVec 2) (p : BitVec 3) (x : AReg) (off : BitVec 14) (inc : Int) (same : Bool)
    (i : Instr) : Host.Outcome State Fault Refusal :=
  let rowsOf := fun (t : Team) (a : Nat) => let pt := t.pattern p
    if same then [a] else patRows pt a
  if s.cur.phase = .access then
    onTeam s fun t =>
      let pt := t.pattern p
      let a := s.cur.args.headD 0
      let rows := rowsOf t a
      let tainted := s.cur.args.getD 1 0 = 1 || t.freshTaints 1 pt.rb rows
      let list := if same then List.replicate pt.rows (some a) else (patRows pt a).map some
      let r := loadRows (t.view 1) pt.rb list
      let all := rowsTainted (List.replicate pt.rows tainted)
      (landEntry s t q (s.cur.issued + 12) r.1 (r.2 ||| all)).afterRows s.cur 1 false t pt.rb rows
  else runWord s (fun _ t =>
      let rows := rowsOf t (rowBase t x off.toInt)
      { regs := [.a x, .p p], occ := 2, fault := patTrap t p,
        stall := full (t.qAt q) || rows.any fun a => t.unsealed (t.col .acs).timed a (t.pattern p).rb,
        late := readTrap t x (t.pattern p).rb rows }) fun s t =>
    let v := t.getA x
    let t := t.reserveQ q s.cur.id
    let t := if inc = 0 then t else t.land s.cur (t.clk + 1) (.a x (v.v + BitVec.ofInt 64 (8 * inc)) v.t)
    s.setTeam (t.again s.cur (t.clk + 1) .access [rowBase t x off.toInt, if v.t then 1 else 0] i)

/-- LQ (R161). (Log: 44 DEDUCED.) -/
def execLq (q : BitVec 2) (p : BitVec 3) (x : AReg) (cls : BitVec 4) (off : BitVec 14) (inc : BitVec 13) (s : State) :=
  loadQueue s q p x off inc.toInt false (.lq q p x cls off inc)
/-- LQB (R161). (Log: 44 DEDUCED.) -/
def execLqb (q : BitVec 2) (p : BitVec 3) (x : AReg) (cls : BitVec 4) (off : BitVec 14) (s : State) :=
  loadQueue s q p x off 0 true (.lqb q p x cls off)

/-- The index of row y in an index entry: the signed INT32 at bytes 4y of row 0 (R162). -/
def indexAt (v : VImage) (y : Nat) : Int := (BitVec.ofNat 32 (v.toNat >>> (32 * y))).toInt

/-- The row addresses that an index entry gives; none skips the row (R162). -/
def indexRows (v : VImage) (rows a : Nat) : List (Option Nat) :=
  (List.range 16).map fun y =>
    if rows ≤ y || indexAt v y = -2 ^ 31 then none else some (addrPlus a (8 * indexAt v y))

/-- Under strict a tainted index traps with its row (R162). (Log: 163 DEDUCED.) -/
def indexTaint (t : Team) (v : VVal) (rows : Nat) : Option Trap :=
  if t.ndet = 2 then
    ((List.range rows).find? fun y => v.taint.getLsbD y).map fun y => (.taint, BitVec.ofNat 64 y)
  else none

/-- LQX gathers rows by the indices of a w entry; the entry lands at issue + 16 (R162). (Log: 163 DEDUCED.) -/
def execLqx (q : BitVec 2) (p : BitVec 3) (x : AReg) (cls : BitVec 4) (i : BitVec 2) (off : BitVec 12) (s : State) :
    Host.Outcome State Fault Refusal :=
  if s.cur.phase = .access then
    onTeam s fun t =>
      let pt := t.pattern p
      let a := s.cur.args.headD 0
      let ix : VImage := BitVec.ofNat 16384 (s.cur.args.getD 2 0)
      let it := s.cur.args.getD 3 0
      let r := loadRows (t.view 1) pt.rb (indexRows ix pt.rows a)
      let rows := (indexRows ix pt.rows a).filterMap id
      let fresh := t.freshTaints 1 pt.rb rows
      let all := rowsTainted ((List.range pt.rows).map fun y => fresh || s.cur.args.getD 1 0 = 1 || it >>> y % 2 = 1)
      (landEntry s t q (s.cur.issued + 16) r.1 (r.2 ||| all)).afterRows s.cur 1 false t pt.rb rows
  else runWord s (fun _ t =>
      let e := headV (t.wAt i)
      let rb := (t.pattern p).rb
      let rows := (indexRows e.bits (t.pattern p).rows (rowBase t x off.toInt)).filterMap id
      { regs := [.a x, .p p], occ := 4, fault := patTrap t p,
        under := if lacks (t.wAt i) 1 then some (0x4C + i.toNat) else none,
        stall := full (t.qAt q) || rows.any fun a => t.unsealed (t.col .acs).timed a rb,
        late := (indexTaint t e (t.pattern p).rows).orElse fun _ => readTrap t x rb rows }) fun s t =>
    let e := headV (t.wAt i)
    let t := (t.setW i (t.wAt i).tail).reserveQ q s.cur.id
    s.setTeam (t.again s.cur (t.clk + 1) .access
      [rowBase t x off.toInt, if (t.getA x).t then 1 else 0, e.bits.toNat, e.taint.toNat] (.lqx q p x cls i off))

/-- Store rows of an entry at addresses, rows in ascending order; each written word takes its source's taint, or the
extra taint of its row (R163). -/
def storeRows (t : Team) (rb : Nat) (bits taint : Nat) : List (Option Nat × Bool) → Team
  | [] => t
  | (o, extra) :: l =>
    let t := match o with
      | some a => { t with spad := writeNat t.spad a bits rb,
                           spadTaint := setTaintBits t.spadTaint (a / 4) (if extra then 2 ^ 32 - 1 else taint) (rb / 4) }
      | none => t
    storeRows t rb (bits / 2 ^ 1024) (taint / 2 ^ 32) l

/-- SQ pops an entry and writes its rows at issue + 1 (R163, R164). -/
def execSq (q : BitVec 2) (p : BitVec 3) (x : AReg) (cls : BitVec 4) (off : BitVec 14) (inc : BitVec 13) (s : State) :
    Host.Outcome State Fault Refusal :=
  if s.cur.phase = .access then
    onTeam s fun t =>
      let pt := t.pattern p
      let at_ := patRows pt (s.cur.args.headD 0)
      let fresh := t.freshTaints 1 pt.rb at_
      let rows := at_.map fun a => (some a, fresh || decide (s.cur.args.getD 1 0 = 1))
      (s.setTeam (storeRows t pt.rb (s.cur.args.getD 2 0) (s.cur.args.getD 3 0) rows)).afterRows s.cur 1 true t pt.rb at_
  else runWord s (fun _ t =>
      let rows := patRows (t.pattern p) (rowBase t x off.toInt)
      { regs := [.a x, .p p], occ := 2, fault := patTrap t p,
        under := if lacks (t.wAt q) 1 then some (0x4C + q.toNat) else none,
        late := storeTrap t x (t.pattern p).rb rows }) fun s t =>
    let e := headV (t.wAt q)
    let v := t.getA x
    let t := t.setW q (t.wAt q).tail
    let t := if inc = 0 then t else t.land s.cur (t.clk + 1) (.a x (v.v + BitVec.ofInt 64 (8 * inc.toInt)) v.t)
    done1 s (t.again s.cur (t.clk + 1) .access
      [rowBase t x off.toInt, if v.t then 1 else 0, e.bits.toNat, e.taint.toNat] (.sq q p x cls off inc))

/-- The data and index entries of a sqx: two entries of one queue when it names one queue twice (R163). -/
def sqxPops (t : Team) (q i : BitVec 2) : VVal × VVal × Team :=
  let d := headV (t.wAt q)
  let t := t.setW q (t.wAt q).tail
  let e := headV (t.wAt i)
  (d, e, t.setW i (t.wAt i).tail)

/-- SQX scatters rows of a data entry by the indices of an index entry (R163). -/
def execSqx (q : BitVec 2) (p : BitVec 3) (x : AReg) (cls : BitVec 4) (i : BitVec 2) (off : BitVec 12) (s : State) :
    Host.Outcome State Fault Refusal :=
  if s.cur.phase = .access then
    onTeam s fun t =>
      let pt := t.pattern p
      let ix : VImage := BitVec.ofNat 16384 (s.cur.args.getD 4 0)
      let it := s.cur.args.getD 5 0
      let at_ := (indexRows ix pt.rows (s.cur.args.headD 0)).filterMap id
      let fresh := t.freshTaints 1 pt.rb at_
      let rows := (indexRows ix pt.rows (s.cur.args.headD 0)).zipIdx.map fun r =>
        (r.1, fresh || decide (s.cur.args.getD 1 0 = 1) || decide (it >>> r.2 % 2 = 1))
      (s.setTeam (storeRows t pt.rb (s.cur.args.getD 2 0) (s.cur.args.getD 3 0) rows)).afterRows s.cur 1 true t pt.rb at_
  else runWord s (fun _ t =>
      let lack := if q = i then lacks (t.wAt q) 2 else lacks (t.wAt q) 1 || lacks (t.wAt i) 1
      let sel := if q = i || lacks (t.wAt q) 1 then 0x4C + q.toNat else 0x4C + i.toNat
      let e := (sqxPops t q i).2.1
      let rb := (t.pattern p).rb
      let rows := (indexRows e.bits (t.pattern p).rows (rowBase t x off.toInt)).filterMap id
      { regs := [.a x, .p p], occ := 4, fault := patTrap t p,
        under := if lack then some sel else none,
        late := (indexTaint t e (t.pattern p).rows).orElse fun _ => storeTrap t x rb rows }) fun s t =>
    let r := sqxPops t q i
    let t := r.2.2
    done1 s (t.again s.cur (t.clk + 1) .access
      [rowBase t x off.toInt, if (t.getA x).t then 1 else 0, r.1.bits.toNat, r.1.taint.toNat, r.2.1.bits.toNat,
       r.2.1.taint.toNat] (.sqx q p x cls i off))

/-! ## Configuration words (R166 to R168) -/

/-- A tensor scale is positive and finite (R31). -/
def tscaleOk (w : Nat) : Bool := 0 < w % 2 ^ 32 && w % 2 ^ 32 < 0x7F800000

/-- BFMT: the format is in force from issue + 1 (R166). -/
def execBfmt (bank : BitVec 4) (a : AReg) (s : State) : Host.Outcome State Fault Refusal :=
  runWord s (fun _ t =>
    let v := (t.getA a).v
    let scaled := fld v.toNat 0 4 = 8 || fld v.toNat 0 4 = 9
    let bad := fld v.toNat 11 21 ≠ 0 || (scaled && !tscaleOk (v.toNat >>> 32))
    { regs := [.a a], fault := if t.bankOk bank.toNat then none else some (.bounds, v),
      late := if bad then some (.bounds, v) else none }) fun s t =>
    done1 s (t.land s.cur (t.clk + 1) (.bfmt bank.toNat (t.getA a).v))

/-- The state of a named ring. -/
def Team.ring (t : Team) : Ring → RingSt
  | .a => t.rA
  | .b => t.rB

/-- The team with a ring replaced. -/
def Team.setRing (t : Team) (r : Ring) (x : RingSt) : Team :=
  match r with
  | .a => { t with rA := x }
  | .b => { t with rB := x }

/-- Advances of a ring that are still pending (R301). -/
def Team.pendingAdvance (t : Team) (r : Ring) : Nat :=
  ((t.advances.filter fun x => x.2.1 = r).map fun x => x.2.2).sum

/-- The head of a ring as a timed word may observe it (R234). -/
def RingSt.seen (x : RingSt) (clk : Nat) : Nat := x.hidden.foldl (fun h e => if clk < e.1 then min h e.2 else h) x.head

/-- The ring has room for n more live slots beside every pending advance (R167, R301). -/
def Team.ringRoom (t : Team) (timed : Bool) (r : Ring) (n : Nat) : Bool :=
  let x := t.ring r
  x.tail + t.pendingAdvance r + n ≤ (if timed then x.seen t.clk else x.head) + ringCount x.cfg

/-- The advance made for the word of a number, of path 1 acs or 2 cpy: mat sees that path's writes to the slots that it makes live
(R301, R333). (Log: 157 DEDUCED.) -/
def Team.advance (t : Team) (path id : Nat) : Team :=
  let t' := (t.advances.filter fun x => x.1 = id).foldl (fun (u : Team) x =>
    let y := u.ring x.2.1
    let new : RingSt := { y with head := y.tail, tail := y.tail + x.2.2 }
    { u.setRing x.2.1 { y with tail := y.tail + x.2.2 } with
      unseen := performedFor (fun e => e.src = path && e.dst = 3 && new.liveAt e.a) u.unseen }) t
  { t' with advances := t'.advances.filter fun x => x.1 != id }

/-- RADV performs when every earlier acs store has performed; it then advances the tail at once, and its SIGNAL fires
then (R167). (Log: 46 DEDUCED.) -/
def execRadv (r : Ring) (n : BitVec 28) (s : State) : Host.Outcome State Fault Refusal :=
  if s.cur.phase = .perform then
    onTeam s fun t => s.setTeam ((t.advance 1 s.cur.id).signalAt s.cur t.clk)
  else runWord s (fun _ t =>
      { late := if t.active.isNone then some (.bounds, 0) else none,
        stall := t.active.isSome && !t.ringRoom (t.col .acs).timed r n.toNat }) fun s t =>
    s.setTeam ({ t with advances := t.advances ++ [(s.cur.id, r, n.toNat)] }.await s.cur [] (.radv r n))

/-- An entry of a queue was pushed by a word that issues at this beat (R168). -/
def Team.pushedNow (t : Team) (e : QEntry) : Bool := t.pend.any fun p => p.cx.id = e.id && p.cx.issued = t.clk

/-- QCLR empties a queue at its issue beat, entries still in flight with it; a pop of the beat has been made, and an entry
pushed on the beat stays (R168). -/
def execQclr (w : Bool) (q : BitVec 2) (s : State) : Host.Outcome State Fault Refusal :=
  runWord s (fun _ _ => {}) fun s t =>
    done1 s (if w then t.setW q ((t.wAt q).filter t.pushedNow) else t.setQ q ((t.qAt q).filter t.pushedNow))

end Sys2Proof.Machine
end

