-- ==== Sys2Proof/Machine/Walk.lean ====
section
/-! DEFINITION. The windows of a job (R313), page tables and their walk (R395 to R403), and the check
of a leaf against an access (R399). -/

namespace Sys2Proof.Machine

/-! ## Windows -/

/-- A window address that the job may use: its pseudo-channel is the job's and its row is a window row (R313, R399). -/
def State.windowOk (s : State) (job pa : Nat) : Bool :=
  match s.placeOf pa with
  | none => false
  | some x => x.row < s.wrows && s.pcs.any fun p =>
      p.pc = x.pc && p.winown.getLsbD 0 && decide (p.winown.toNat / 2 ^ 32 = job)

/-! ## The walk (R397, R398) -/

/-- A leaf as a walk returns it: the physical address, its key, the accesses granted and the target (R398). -/
structure Leaf where
  pa : Nat
  key : Option (Fin 64)
  rd : Bool
  wr : Bool
  tgt : Nat
  deriving DecidableEq, Repr

/-- Whether n bytes from a physical address touch a unit that a read finds uncorrectable: a poisoned one, or one that ails
(R438). -/
def State.poisoned (s : State) (pa n : Nat) : Bool :=
  n != 0 && (anyUnit s.poison (pa / 32) ((pa + n - 1) / 32 + 1) ||
    s.upsets.any fun u => u.cid = 0 && (u.place = 7 || u.place = 8) && u.x.toNat % 4 = 2 && pa / 32 ≤ u.id && u.id ≤ (pa + n - 1) / 32)

/-- The ECC trap's cause for an uncorrectable unit: the check event is one of the L2 or of HBM, and a unit that is poisoned already
makes none (R433, R438). (Log: 25 DEDUCED.) -/
def State.eccCause (s : State) (u : Nat) : Cause :=
  if s.poison.contains u then .ecc else .eccFound (if (s.upset 0 u 8).toNat % 4 = 2 then 0x11 else 0x21) u

/-- An entry with a reserved bit set, or with a field that its kind does not allow (R398). -/
def badEntry (e : Nat) : Bool :=
  fld e 0 1 = 0 || fld e 52 12 ≠ 0 || fld e 4 3 ≠ 0 ||
  (if fld e 1 1 = 1 then fld e 7 2 = 3 || (fld e 9 1 = 0 && fld e 10 6 ≠ 0) else fld e 2 14 ≠ 0)

/-- The leaf that an entry at level lvl gives an address (R397, R398). -/
def leafOf (e lvl va : Nat) : Leaf :=
  let low := 2 ^ (13 * lvl + 16)
  { pa := fld e 16 36 * 2 ^ 16 / low * low + va % low,
    key := if fld e 9 1 = 1 then some ⟨fld e 10 6 % 64, Nat.mod_lt _ (by decide)⟩ else none,
    rd := fld e 2 1 = 1, wr := fld e 3 1 = 1, tgt := fld e 7 2 }

/-- The walk from a table of level n - 1 down, to a leaf's entry and its level (R397); an entry that cannot be read is an ECC
trap (R399). -/
def State.walkFrom (s : State) (va : Nat) : Nat → Nat → Except Cause (Nat × Nat)
  | 0, _ => .error .translation
  | n + 1, t =>
    let a := t + 8 * fld va (13 * n + 16) 13
    let e := readNat s.mem a 8
    if !s.addressable a then .error .translation
    else if s.poisoned a 8 then .error (s.eccCause (a / 32))
    else if badEntry e then .error .translation
    else if fld e 1 1 = 1 then
      if fld e 16 36 % 2 ^ (13 * n) ≠ 0 then .error .translation else .ok (e, n)
    else if fld e 51 1 = 1 then .error .translation
    else s.walkFrom va n (fld e 16 36 * 2 ^ 16)

/-- The addresses of the entries that a walk from a table of level n - 1 reads (R397). -/
def State.walkReadsFrom (s : State) (va : Nat) : Nat → Nat → List Nat
  | 0, _ => []
  | n + 1, t =>
    let a := t + 8 * fld va (13 * n + 16) 13
    let e := readNat s.mem a 8
    if !s.addressable a then []
    else a :: (if s.poisoned a 8 || badEntry e || fld e 1 1 = 1 || fld e 51 1 = 1 then [] else s.walkReadsFrom va n (fld e 16 36 * 2 ^ 16))

/-- The addresses of the entries that a walk for an address of a job reads (R396, R397). -/
def State.walkReads (s : State) (job va : Nat) : List Nat :=
  if 2 ^ 55 ≤ va then []
  else match s.slotOf job with
    | none => []
    | some n => s.walkReadsFrom va 3 (fld (s.jroot[n]).toNat 16 36 * 2 ^ 16)

/-- The entry of an address in a job's tables as they stand, with its level (R396, R397). -/
def State.walkTables (s : State) (job va : Nat) : Except Cause (Nat × Nat) :=
  if 2 ^ 55 ≤ va then .error .translation
  else match s.slotOf job with
    | none => .error .translation
    | some n => s.walkFrom va 3 (fld (s.jroot[n]).toNat 16 36 * 2 ^ 16)

/-- A TLB entry maps an address of a job (R402). -/
def TlbEntry.maps (x : TlbEntry) (job va : Nat) : Bool := x.job = job && x.page = va / 2 ^ (13 * x.lvl + 16)

/-- The leaf's entry of an address of a job: a TLB entry where the access hits one, else that of the tables (R397, R402, R406).
(Log: 8 DESIGN CHOICE.) -/
def State.walkEntry (s : State) (job va : Nat) : Except Cause TlbEntry :=
  match (if va < 2 ^ 55 && (s.slotOf job).isSome then s.tlb.find? fun x => x.maps job va && Config.tlbHit s.now job (va / 65536)
      else none) with
  | some x => .ok x
  | none => (s.walkTables job va).map fun e => ⟨job, e.2, va / 2 ^ (13 * e.2 + 16), e.1⟩

/-- The leaf of an address of a job (R397). (Log: 8 DESIGN CHOICE.) -/
def State.walk (s : State) (job va : Nat) : Except Cause Leaf :=
  (s.walkEntry job va).map fun x => leafOf x.entry x.lvl va

/-- The leaves' entries of the pages that some bytes of a job lie in, as far as they translate (R404).
(Log: 8 DESIGN CHOICE.) -/
def State.pagesOf (s : State) (job : Nat) (bytes : List Nat) : List TlbEntry :=
  ((bytes.map (· / 65536)).eraseDups.filterMap fun p => match s.walkEntry job (65536 * p) with
    | .ok x => some x
    | .error _ => none).eraseDups

/-- What an access asks of a leaf: its job, reading, writing, and whether it goes beyond the package (R399). -/
structure Want where
  job : Nat
  rd : Bool
  wr : Bool
  beyond : Bool := false
  deriving DecidableEq, Repr

/-- The checks of a leaf against an access to n bytes of its page, in order; a piece of a window has its first and its last row
below WROWS (R313, R399, R461). -/
def State.leafOk (s : State) (w : Want) (l : Leaf) (n : Nat) : Bool :=
  (!w.rd || l.rd) && (!w.wr || l.wr) && (if w.beyond then l.tgt = 1 || l.tgt = 2 else decide (l.tgt = 0)) &&
  (l.tgt != 0 || (s.addressable l.pa && (fld l.pa 51 1 = 0 || (s.windowOk w.job l.pa && s.windowOk w.job (l.pa + n - 1))))) &&
  (match l.key with | some k => (s.kensia.keys[k]).isSome | none => true)

/-- A piece of an access in one 64 KiB page: its virtual address, its leaf, and its bytes. -/
structure Piece where
  va : Nat
  leaf : Leaf
  n : Nat
  deriving DecidableEq, Repr

/-- The translation of an access of n bytes, page by page in address order; the first byte of the first page that fails
is TVAL (R399). The first number bounds the pages left. -/
def State.translateFrom (s : State) (w : Want) : Nat → Nat → Nat → Except Trap (List Piece)
  | 0, _, _ => .ok []
  | k + 1, va, n =>
    if n = 0 then .ok []
    else
      let m := min n (65536 - va % 65536)
      match s.walk w.job va with
      | .error c => .error (c, BitVec.ofNat 64 va)
      | .ok l =>
        if !s.leafOk w l m then .error (.protection, BitVec.ofNat 64 va)
        else match s.translateFrom w k (va + m) (n - m) with
          | .error e => .error e
          | .ok r => .ok (⟨va, l, m⟩ :: r)

/-- The translation of n bytes from a virtual address (R395 to R399). -/
def State.translate (s : State) (w : Want) (va n : Nat) : Except Trap (List Piece) :=
  s.translateFrom w (n / 65536 + 2) va n

/-- The first byte of the first poisoned unit that an access to translated pieces touches, as the access names it
(R377). (Log: 25 DEDUCED.) -/
def State.eccAt (s : State) (l : List Piece) : Option Trap :=
  l.findSome? fun p =>
    if p.leaf.tgt ≠ 0 then none
    else ((List.range ((p.leaf.pa + p.n - 1) / 32 - p.leaf.pa / 32 + 1)).find? fun i =>
      s.poisoned (32 * (p.leaf.pa / 32 + i)) 32).map fun i =>
        (s.eccCause (p.leaf.pa / 32 + i), BitVec.ofNat 64 (p.va + ((p.leaf.pa / 32 + i) * 32 - p.leaf.pa)))

/-- The pieces of n bytes of a job under leaves translated before; the first number bounds the pages left (R404). -/
def mappedPieces (pages : List TlbEntry) (job : Nat) : Nat → Nat → Nat → List Piece
  | 0, _, _ => []
  | k + 1, va, n =>
    if n = 0 then []
    else
      let m := min n (65536 - va % 65536)
      (match pages.find? fun x => x.maps job va with
        | some x => [⟨va, leafOf x.entry x.lvl va, m⟩]
        | none => []) ++ mappedPieces pages job k (va + m) (n - m)

/-- The TLBs without the leaves that an invalidation names: the leaf that holds an address of a job, every leaf of the job, or
every leaf (R405). (Log: 8 DESIGN CHOICE.) -/
def dropLeaves (scope job va : Nat) (l : List TlbEntry) : List TlbEntry :=
  match scope with
  | 0 => l.filter fun x => !x.maps job va
  | 1 => l.filter fun x => x.job != job
  | 2 => []
  | _ => l

end Sys2Proof.Machine
end

