-- ==== Sys2Proof/Machine/Checks.lean ====
section
/-! DEFINITION. Units, check events, the check log, and marks (R432 to R436, R443). -/

namespace Sys2Proof.Machine

/-- Thirds of a nanosecond that a beat takes: two under beat interleave (R353, R451). -/
def State.perBeat (s : State) : Nat := if s.kensia.interleave then 2 else 1

/-- Beats of a number of nanoseconds of wall-clock time, as beats now pass (R8, R451). -/
def State.beatsOfNs (s : State) (n : Nat) : Nat := 3 * n / s.perBeat

/-- Beats of a number of seconds of wall-clock time. -/
def State.beatsOfSec (s : State) (n : Nat) : Nat := s.beatsOfNs (1000000000 * n)

/-- An event of the package due at a beat, with its operands in its context. (Log: 4 DESIGN CHOICE.) -/
def State.plan (s : State) (due : Nat) (cid : Nat) (args : List Nat) (i : Instr) : State :=
  { s with agenda := insertPend ⟨due, 0, { Cur.none with cid := cid, args := args }, i⟩ s.agenda }

/-- The events of the package that fall due by the wall clock: limits, polls and windows in ns, ms or s (R8). -/
def isWallClock : Instr → Bool
  | .dependencePoll | .powerCheck | .emergencyTimeout | .emergencyClear | .unitRetirement _ | .retirementDeadline _ | .forcedSave
  | .fabricTimeout | .reservationWindowStart | .reservationWindowEnd => true
  | _ => false

/-- The state with what falls due by the wall clock due in as many ns as before, if a beat lasts longer or shorter now than it
did (R8, R353, R451). -/
def State.paced (s : State) (was : Nat) : State :=
  if s.perBeat = was then s
  else
    let move := fun (p : Pend) =>
      if isWallClock p.act && s.now < p.due then { p with due := s.now + ((p.due - s.now) * was + s.perBeat - 1) / s.perBeat } else p
    { s with agenda := (s.agenda.map move).foldl (fun l p => insertPend p l) [] }

/-- The emergency freeze is in force, the beats of stretches before it not counted: every stream of the package stands still
(R292, R450). -/
def State.halted (s : State) : Bool :=
  match s.kensia.emergency with
  | some (_, b) => b + 512 + s.kensia.emergencyLate ≤ s.now
  | none => false

/-- The physical core that serves a logical core (R352, R437). -/
def State.physCore (s : State) (cid : Nat) : Nat :=
  match s.kensia.remapCore.find? fun x => x.1 = cid with
  | some x => x.2
  | none => 272 * s.kensia.remapDie[dieFin (dieOf cid)] + cid % 256

/-- The logical cores of the package (R83). -/
def allCores : List Nat := (List.range 1280).map id

/-- The two physical dies that a die-to-die edge joins; 6 and 7 are the I/O dies (R432). -/
def edgeDies (e : Nat) : List Nat :=
  [[0, 1], [1, 2], [3, 4], [4, 5], [0, 3], [1, 4], [2, 5], [6, 0], [6, 3], [7, 2], [7, 5]].getD e []

/-- A launch holds its logical cores and grants from set-up to completion (R281, R360). -/
def Launch.holds (l : Launch) : Bool := l.state = .setup || l.state = .running || l.state = .draining

/-- No launch holds any of the logical cores (R436). -/
def State.coresFree (s : State) (l : List Nat) : Bool := !s.launches.any fun x => x.holds && x.cids.any (l.contains ·)

/-- The unit awaits its drain (R435). -/
def State.isMarked (s : State) (u : UnitId) : Bool := s.kensia.marks.any fun m => m.1 = u

/-- Retired units of a kind. -/
def Kensia.retiredOf (k : Kensia) (kind : Nat) : List Nat := (k.retired.filter fun u => u.kind = kind).map (·.index)

/-- Die spares left in a physical core field: 16 beyond the 256 in use, less one for each retired core (R440). -/
def Kensia.spares (k : Kensia) (d : Nat) : Nat := 16 - ((k.retiredOf 0).filter fun c => c / 272 = d).length

/-- A physical core field that no logical die uses and that is not parked, its rim live (R441). A parked field is a
retired unit of the model's own kind 5. -/
def Kensia.standing (k : Kensia) : Option Nat :=
  (List.range 6).find? fun d => !k.remapDie.toList.contains d && !k.retired.contains ⟨5, d⟩ && !k.retired.contains ⟨4, d⟩

/-- A die-to-die edge has failed: three or more of its lane groups are retired (R440). -/
def Kensia.edgeFailed (k : Kensia) (e : Nat) : Bool := 3 ≤ ((k.retiredOf 2).filter fun g => g / 8 = e).length

/-- The dies that live edges join to a compute die (R432, R440). -/
def Kensia.neighbours (k : Kensia) (d : Nat) : List Nat :=
  (List.range 11).filterMap fun e =>
    match edgeDies e with
    | [a, b] => if k.edgeFailed e then none else if a = d then some b else if b = d then some a else none
    | _ => none

/-- The dies within n live edges of some dies; a route goes on through compute dies only. -/
def Kensia.within (k : Kensia) (l : List Nat) : Nat → List Nat
  | 0 => l
  | n + 1 => k.within (l ++ ((l.filter (· < 6)).flatMap k.neighbours).filter fun d => !l.contains d) n

/-- The I/O die, 6 or 7, that serves a physical core field, or 8 where no route reaches either (R416). -/
def Kensia.ioDie (k : Kensia) (d : Nat) : Nat :=
  let home := if d = 0 || d = 1 || d = 3 then 6 else 7
  let l := k.within [d] 6
  if l.contains home then home else if l.contains (13 - home) then 13 - home else 8

/-- The healthy physical cores of a field, in ascending number. -/
def State.healthy (s : State) (d : Nat) : List Nat :=
  ((List.range 272).map (272 * d + ·)).filter fun p => !s.kensia.retired.contains ⟨0, p⟩

/-- How many logical cores a physical core serves. -/
def State.load (s : State) (p : Nat) : Nat := (allCores.filter fun c => s.physCore c = p).length

/-- The physical core that takes over a logical core in its field: the lowest-numbered unused die spare, or, under beat
interleave, the lowest one that serves a single logical core (R353, R440). The second result says that it is shared. -/
def State.takerOf (s : State) (d : Nat) : Option (Nat × Bool) :=
  match (s.healthy d).find? fun p => s.load p = 0 with
  | some p => some (p, false)
  | none => ((s.healthy d).find? fun p => s.load p = 1).map fun p => (p, true)

/-- The logical cores that a marked unit concerns (R436): a core's own, and with it, where only a move to the standing spare can
replace it, those of every logical die of its field (R441); of a slice or a lane group, all, since the memory of every logical die
is striped over every rim (R315). (Log: 27, 113 DEDUCED.) -/
def State.concerned (s : State) (u : UnitId) : List Nat :=
  let onField := fun (d : Nat) => allCores.filter fun c => s.kensia.remapDie[dieFin (dieOf c)] = d
  match u.kind with
  | 0 =>
    let mine := allCores.filter fun c => s.physCore c = u.index
    if mine.isEmpty || s.kensia.standing.isNone || (s.healthy (u.index / 272)).any (fun p => p ≠ u.index && s.load p = 0) then mine
    else onField (u.index / 272)
  | 1 | 2 => allCores
  | 4 | 5 => onField u.index
  | _ => []

/-- A logical core has a route to an I/O die, by which alone it reaches anything outside the package (R1, R416, R440).
(Log: 138 DESIGN CHOICE.) -/
def State.reaches (s : State) (cid : Nat) : Bool := s.kensia.ioDie s.kensia.remapDie[dieFin (dieOf cid)] < 8

/-- A Reedlink port is down: all eight of its lanes are retired (R440). -/
def Kensia.portDown (k : Kensia) (p : Nat) : Bool := 8 ≤ ((k.retiredOf 2).filter fun g => g = 128 + 8 * p + g % 8).length

/-- The REASON bits of HEALTH but [14], which stays once set (R443). -/
def Kensia.reasons (k : Kensia) : Nat :=
  (if k.standing.isNone then 2 ^ 8 else 0) + (if k.interleave then 2 ^ 9 else 0) +
  (if (k.retiredOf 4).isEmpty then 0 else 2 ^ 10) + (if (List.range 11).any k.edgeFailed then 2 ^ 11 else 0) +
  (if (k.retiredOf 3).isEmpty then 0 else 2 ^ 12) + (if (List.range 16).any k.portDown then 2 ^ 13 else 0)

/-- The kinds that mark their unit on first occurrence (R433). -/
def atOnceKind (kind : Nat) : Bool := [0x06, 0x09, 0x11, 0x19, 0x21, 0x23, 0x30].contains kind

/-- The harvest log holds a unit that an at-once kind retired (R442, R443). -/
def Kensia.lostAtOnce (k : Kensia) : Bool := k.harvestLog.any fun e => atOnceKind (fld (e.headD 0).toNat 0 8)

/-- HEALTH as the part now stands; `atOnce` adds REASON [14] (R443). (Log: 112 DEDUCED.) -/
def Kensia.healthNow (k : Kensia) (atOnce : Bool) : Nat :=
  let live := 6 - (k.retiredOf 4).length
  let mins := (k.remapDie.toList.map k.spares).foldl min 16
  let reason := k.reasons + (if atOnce || k.lostAtOnce then 2 ^ 14 else 0)
  (if reason = 0 then 0 else 1) + (if !k.remapDie.toList.all (fun d => d < 5) then 2 else 0) +
  (if k.interleave then 4 else 0) + (if k.marks.isEmpty then 0 else 8) + live * 16 + reason + mins * 2 ^ 16

/-- HEALTH brought up to date; a newly set REASON bit sends MSI-X vector 0 (R443). -/
def State.updateHealth (s : State) (atOnce : Bool) : State :=
  let new := s.kensia.healthNow atOnce
  let fresh := Nat.land (new / 256 % 128) (127 - s.kensia.health.toNat / 256 % 128)
  { s with kensia := { s.kensia with health := BitVec.ofNat 64 new },
           msix := if fresh = 0 then s.msix else s.msix ++ [0] }

/-- Mark a unit for retirement under a KIND: it is retired at once if its logical cores are free, and at its drain or
after RETDL otherwise (R435, R436). -/
def State.mark (s : State) (u : UnitId) (kind : Nat) : State :=
  if s.isMarked u || s.kensia.retired.contains u then s
  else
    let s := { s with kensia := { s.kensia with marks := s.kensia.marks ++ [(u, kind, s.ns)] } }
    let s := s.updateHealth false
    if u.kind = 4 then s.plan s.now 0 [u.index] .rimFailure
    else if s.coresFree (s.concerned u) then s.plan s.now 0 [] (.unitRetirement u)
    else s.plan (s.now + s.beatsOfSec (s.kensia.retdl.toNat % 2 ^ 32)) 0 [] (.retirementDeadline u)

/-- The threshold is met: THRESH events of one kind on one unit within WINDOW seconds (R435).
(Log: 130 DESIGN CHOICE.) -/
def Kensia.thresholdMet (k : Kensia) (u : UnitId) (kind : Nat) : Bool :=
  let n := k.cethr.toNat % 256
  let l := (k.events.filter fun e => e.1 = u && e.2.1 = kind).map fun e => e.2.2
  match l.reverse.take n with
  | [] => false
  | last :: _ => n ≠ 0 && n ≤ l.length && last ≤ l.getD (l.length - n) 0 + 10 ^ 9 * (k.cethr.toNat / 2 ^ 32)

/-- The rank of a check record among those of its beat: CORE, then KIND (R434). -/
def checkRank (r : List Word) : Nat := fld (r.headD 0).toNat 32 11 * 256 + fld (r.headD 0).toNat 0 8

/-- A check record put among those of its beat, after those of its own rank (R434). -/
def insertCheck (r : List Word) : List (List Word) → List (List Word)
  | [] => [r]
  | x :: l => if checkRank r < checkRank x then r :: x :: l else x :: insertCheck r l

/-- A check event: its record goes into the log of 4096, it counts against its unit, and a unit that it marks awaits
retirement (R433 to R435). `t` is the team concerned. (Log: 25 DEDUCED; 130 DESIGN CHOICE.) -/
def State.checkEvent (s : State) (u : UnitId) (kind : Nat) (t : Option Team) (granule rowgroup : Nat) : State :=
  let w0 := kind + u.kind * 2 ^ 8 + (if atOnceKind kind then 2 ^ 11 else 0) + u.index * 2 ^ 16 +
    (match t with | some t => t.cid | none => 0x7FF) * 2 ^ 32 + granule * 2 ^ 43 + rowgroup * 2 ^ 48
  let w1 := match t with
    | some t => t.ord % 2 ^ 32 + t.job * 2 ^ 32
    | none => 0
  let w2 : Word := match t with
    | some t => s.beatOf t
    | none => 0
  let r : List Word := [BitVec.ofNat 64 w0, BitVec.ofNat 64 w1, w2, BitVec.ofNat 64 s.ns]
  let k := s.kensia
  let mine := k.events.filter fun e => e.1 = u && e.2.1 = kind
  let keep := if 255 ≤ mine.length then k.events.erase (mine.headD (u, kind, 0)) else k.events
  let n := if k.clogNew.1 = s.now then k.clogNew.2 else 0
  let old := k.checkLog.length - n
  let log := k.checkLog.take old ++ insertCheck r (k.checkLog.drop old)
  let k := { k with clogNew := (s.now, n + 1), checkLog := if 4096 < log.length then log.tail else log, clogTail := k.clogTail + 1,
                    events := keep ++ [(u, kind, s.ns)] }
  let s := { s with kensia := k }
  if atOnceKind kind || k.thresholdMet u kind then s.mark u kind else s

/-! ## Check events of ECC (R433, R438) -/

/-- A check event of a 32-byte unit of memory, by an L2 slice or a pseudo-channel: a corrected unit holds its value again, and an
uncorrectable one is poisoned (R433, R438). The slice stands in the upset's upper bits. -/
def State.memEvent (s : State) (t : Option Team) (kind unit : Nat) : State :=
  let who : UnitId :=
    if kind < 0x20 then ⟨1, (if (s.upset 0 unit 8).toNat % 4 = 0 then s.upset 0 (unit / 8) 10 else s.upset 0 unit 8).toNat / 4⟩
    else ⟨3, match s.placeOf (32 * unit) with | some p => p.pc | none => 0⟩
  let s := ((s.cured 7 unit).cured 8 unit).cured 10 (unit / 8)
  ({ s with poison := if kind % 2 = 1 then setUnit s.poison unit true else s.poison } : State).checkEvent who kind t 0 0

/-- The state after a read of n bytes of memory: each unit of them that ails and can be corrected is, and is logged
(R433, R438). (Log: 25 DEDUCED.) -/
def State.corrected (s : State) (t : Option Team) (pa n : Nat) : State :=
  if n = 0 then s
  else (s.upsets.filter fun u => u.cid = 0 && (u.place = 7 || u.place = 8) && u.x.toNat % 4 = 1 && pa / 32 ≤ u.id &&
      u.id ≤ (pa + n - 1) / 32).foldl (fun s u => s.memEvent t (if u.place = 7 then 0x20 else 0x10) u.id) s

/-- The state after the records of the sectors that n bytes of memory touch have been read: a correctable one is corrected and
logged (R433, R438). (Log: 9 DESIGN CHOICE; 25 DEDUCED.) -/
def State.correctedRecs (s : State) (t : Option Team) (pa n : Nat) : State :=
  if n = 0 then s
  else (s.upsets.filter fun u => u.cid = 0 && u.place = 10 && u.x.toNat % 4 = 1 && pa / 256 ≤ u.id &&
      u.id ≤ (pa + n - 1) / 256).foldl (fun s u => s.memEvent t 0x10 (8 * u.id)) s

/-- The trap of an access whose sector has a record that ECC cannot correct (R377, R438).
(Log: 9 DESIGN CHOICE; 25 DEDUCED.) -/
def State.recEccTrap (s : State) (va pa n : Nat) : Option Trap :=
  if n = 0 then none
  else (s.upsets.find? fun u => u.cid = 0 && u.place = 10 && u.x.toNat % 4 = 2 && pa / 256 ≤ u.id && u.id ≤ (pa + n - 1) / 256).map
    fun u => (.eccFound 0x11 (max (8 * u.id) (pa / 32)), BitVec.ofNat 64 (va + (256 * u.id - pa)))

/-- TLB_MISS_WALK (R402, R403): a walker brings the leaf of an address into a TLB, unless the walk or a check of the leaf fails; an
entry that ECC corrects is logged (R438). Misses, and what a TLB keeps, are free: walks come from outside.
(Log: 8 DESIGN CHOICE; 25 DEDUCED.) -/
def execTlbMissWalk (job va : Nat) (write : Bool) (s : State) : Host.Outcome State Fault Refusal :=
  let s' := (s.walkReads job va).foldl (fun (s : State) a => s.corrected none a 8) s
  match s.walkTables job va with
  | .error _ => .next s'
  | .ok (e, n) =>
    let l := leafOf e n va
    let ok := fun (beyond : Bool) => s.leafOk ⟨job, !write, write, beyond⟩ l 1
    let x : TlbEntry := ⟨job, n, va / 2 ^ (13 * n + 16), e⟩
    .next (if (ok false || ok true) && !s.tlb.contains x then { s' with tlb := s'.tlb ++ [x] } else s')

/-- A check event of ECC that a team has found: in a core's scratchpad or accumulators, or in memory (R433, R438). -/
def State.eccEvent (s : State) (t : Team) (e : Nat × Nat) : State :=
  if e.1 < 0x10 then s.checkEvent ⟨0, s.physCore e.2⟩ e.1 (some ((s.team e.2).getD t)) 0 0 else s.memEvent (some t) e.1 e.2

/-- The events of the words that a team's columns fetch on this beat: the ring slots that ECC corrects (R144, R438). -/
def Team.fetchEcc (t : Team) : List (Nat × Nat) :=
  if t.sick.isEmpty then []
  else (t.cols.toList.filter fun x => x.word.isNone && (t.fetched x).word.isSome &&
    t.sick.contains (x.base / 8 + x.head % x.size, 1)).map fun _ => (0x08, t.cid)

/-- The check events of ECC of the beat that ends (R433, R434, R438). (Log: 25 DEDUCED.) -/
def State.eccEvents (s : State) : State :=
  s.teams.foldl (fun (s : State) t =>
    let l := t.found ++ t.fetchEcc
    if l.isEmpty then s else (l.foldl (fun s e => s.eccEvent t e) s).setTeam { t with found := [] }) s

end Sys2Proof.Machine
end

