-- ==== Sys2Proof/Machine/Records.lean ====
section
/-! DEFINITION. Accesses at the L2: stored bytes, encryption, taint and poison (R296, R351, R438, R461), and the sector
records that judge watched accesses (R342 to R348). The L2 and HBM hold one value for each byte (R331). -/

namespace Sys2Proof.Machine

/-! ## Stored bytes -/

/-- old with the bits that en enables taken from new (R296). -/
def mergeBits (old new en : Nat) : Nat := Nat.lor (Nat.land new en) (Nat.xor old (Nat.land old en))

/-- The keys of a slot, the data key in the low half (R461). -/
def State.keyOf (s : State) (k : Option (Fin 64)) : Option (BitVec 512) := k.bind fun k => s.kensia.keys[k]

/-- The valid L2 copy of a channel-window sector (R270, R316). -/
def State.l2Copy (s : State) (pa : Nat) : Option L2Sector :=
  if fld pa 51 1 = 1 then s.l2.find? fun x => x.sector = pa / 256 && x.parts = BitVec.allOnes 8 else none

/-- A sector of n bytes from pa is allocated in the L2 and not yet filled: a demand read of it waits (R270). -/
def State.filling (s : State) (pa n : Nat) : Bool :=
  fld pa 51 1 = 1 && n != 0 &&
  s.l2.any fun x => pa / 256 ≤ x.sector && x.sector ≤ (pa + n - 1) / 256 && x.parts != BitVec.allOnes 8

/-- n stored bytes of one sector, from the L2 copy of a window or from DRAM (R316). -/
def State.rawNat (s : State) (pa n : Nat) : Nat :=
  match s.l2Copy pa with
  | some x => x.data.toNat / 256 ^ (pa % 256) % 256 ^ n
  | none => readNat s.mem pa n

/-- The taint of a 32-byte unit as a demand read sees it (R127, R316, R351). -/
def State.unitTaint (s : State) (u : Nat) : Bool :=
  match s.l2Copy (32 * u) with
  | some x => x.taint.getLsbD (u % 8)
  | none => s.memTaint.contains u

/-- A demand write updates the bytes of a valid L2 copy of the sector too (R316). -/
def State.updateCopy (s : State) (pa x en : Nat) : State :=
  match s.l2Copy pa with
  | none => s
  | some c =>
    let sh := 256 ^ (pa % 256)
    let d : L2Sector := { c with data := BitVec.ofNat 2048 (mergeBits c.data.toNat (x * sh) (en * sh)) }
    { s with l2 := s.l2.map fun y => if y.sector = c.sector then d else y }

/-- A 32-byte unit in the clear (R461). -/
def State.unitClear (s : State) (k : Option (Fin 64)) (u : Nat) : Nat :=
  let raw := s.rawNat (32 * u) 32
  match s.keyOf k with
  | none => raw
  | some x => (Config.aesXtsInv (x.setWidth 256) ((x >>> 256).setWidth 256) u (BitVec.ofNat 256 raw)).toNat

/-- A 32-byte unit stored under a key (R461). -/
def State.putUnit (s : State) (k : Option (Fin 64)) (u x : Nat) : State :=
  let raw := match s.keyOf k with
    | none => x
    | some y => (Config.aesXts (y.setWidth 256) ((y >>> 256).setWidth 256) u (BitVec.ofNat 256 x)).toNat
  ({ s with mem := writeNat s.mem (32 * u) raw 32 } : State).updateCopy (32 * u) raw (256 ^ 32 - 1)

/-- n 32-byte units from unit u in the clear, as one number. -/
def State.unitsClear (s : State) (k : Option (Fin 64)) (u : Nat) : Nat → Nat
  | 0 => 0
  | n + 1 => s.unitClear k u + 2 ^ 256 * s.unitsClear k (u + 1) n

/-- n 32-byte units stored from unit u on. -/
def State.putUnits (s : State) (k : Option (Fin 64)) (u x : Nat) : Nat → State
  | 0 => s
  | n + 1 => (s.putUnit k u (x % 2 ^ 256)).putUnits k (u + 1) (x / 2 ^ 256) n

/-- The 32-byte units that n bytes from a touch: the first and how many. -/
def unitSpan (a n : Nat) : Nat × Nat := (a / 32, if n = 0 then 0 else (a + n - 1) / 32 + 1 - a / 32)

/-- n bytes of a page from a physical address, as the L2 returns them (R331). -/
def State.l2Read (s : State) (k : Option (Fin 64)) (pa n : Nat) : Nat :=
  match s.keyOf k with
  | none => s.rawNat pa n
  | some _ => s.unitsClear k (pa / 32) (unitSpan pa n).2 / 256 ^ (pa % 32) % 256 ^ n

/-- Some unit of the bytes is tainted (R127, R351). -/
def State.l2Taint (s : State) (pa n : Nat) : Bool := (List.range (unitSpan pa n).2).any fun i => s.unitTaint (pa / 32 + i)

/-- The bit enables of a unit within an access to bytes from a. -/
def unitEnables (a en u : Nat) : Nat := if 32 * u < a then en * 256 ^ (a - 32 * u) % 2 ^ 256 else en / 256 ^ (32 * u - a) % 2 ^ 256

/-- The taint of a unit after a write: a write of the whole unit sets it, a partial one ORs into it, in DRAM and in a valid L2
copy of a window sector (R316, R351). -/
def State.markUnit (s : State) (u : Nat) (whole t : Bool) : State :=
  let bit : BitVec 8 := BitVec.ofNat 8 (2 ^ (u % 8))
  let copy := fun (x : L2Sector) =>
    if x.sector = u / 8 && x.parts = BitVec.allOnes 8 then
      { x with taint := if t then x.taint ||| bit else if whole then x.taint &&& ~~~bit else x.taint }
    else x
  { s with memTaint := setUnit s.memTaint u (t || (s.memTaint.contains u && !whole)), l2 := s.l2.map copy }

/-- Taint and poison of the units that a write touches: a write of a whole unit clears its poison, a partial one leaves it; `entire`
names the units whose old taint a longer write replaces (R256, R351, R438). -/
def State.l2Marks (s : State) (pa n en : Nat) (t entire : Nat → Bool) : State :=
  let sp := unitSpan pa n
  (List.range sp.2).foldl (fun (s : State) i =>
    let u := sp.1 + i
    let e := unitEnables pa en u
    let whole := e = 2 ^ 256 - 1
    if e = 0 then s
    else
      let s' := s.markUnit u (whole || entire u) (t u)
      if whole then (({ s' with poison := setUnit s.poison u false } : State).cured 7 u).cured 8 u else s') s

/-- A write at the L2 of the enabled bits of n bytes from pa; t is the new taint of each unit, and `entire` names the units whose old
taint it replaces though it writes them in part (R256, R296, R331, R351). -/
def State.l2WriteOver (s : State) (k : Option (Fin 64)) (pa n x en : Nat) (t entire : Nat → Bool) : State :=
  let s := match s.keyOf k with
    | none =>
      ({ s with mem := writeNat s.mem pa (mergeBits (readNat s.mem pa n) x en) n } : State).updateCopy pa x en
    | some _ =>
      let sp := unitSpan pa n
      let sh := 256 ^ (pa % 32)
      s.putUnits k sp.1 (mergeBits (s.unitsClear k sp.1 sp.2) (x * sh) (en * sh)) sp.2
  s.l2Marks pa n en t entire

/-- A write at the L2 on its own. -/
def State.l2Write (s : State) (k : Option (Fin 64)) (pa n x en : Nat) (t : Nat → Bool) : State :=
  s.l2WriteOver k pa n x en t fun _ => false

/-- Every bit of n bytes. -/
def allBits (n : Nat) : Nat := 256 ^ n - 1

/-! ## Memory beyond the package (R398, R417) -/

/-- The key of a host or peer address among the cells beyond the package: peers lie above every host address. -/
def beyondAddr (tgt a : Nat) : Nat := if tgt = 2 then 2 ^ 64 + a else a

/-- n bytes beyond the package. (Log: 72 DEDUCED.) -/
def State.beyondRead (s : State) (tgt a n : Nat) : Nat := readNat s.host (beyondAddr tgt a) n

/-- The enabled bits of n bytes beyond the package written. (Log: 134 DESIGN CHOICE.) -/
def State.beyondWrite (s : State) (tgt a n x en : Nat) : State :=
  let a := beyondAddr tgt a
  { s with host := writeNat s.host a (mergeBits (readNat s.host a n) x en) n }

/-! ## Sector records (R343 to R348) -/

/-- An identity (R343). -/
structure Ident where
  ord : Nat
  core : Nat
  src : Nat
  deriving DecidableEq, Repr

/-- The order of identities (R343). -/
def Ident.lt (x y : Ident) : Bool :=
  x.ord < y.ord || (x.ord = y.ord && (x.core < y.core || (x.core = y.core && x.src < y.src)))

/-- The identity of the untracked writer (R343, R345). (Log: 166 DESIGN CHOICE.) -/
def Ident.other : Ident := ⟨0, 0, 7⟩

/-- An identity in the 32 + 14 bits of a record's fields: source, core and ordinal (R344). -/
def Ident.code (x : Ident) : Nat := x.ord % 2 ^ 32 + x.core % 2 ^ 11 * 2 ^ 32 + x.src % 8 * 2 ^ 43

/-- An identity of a record's fields. -/
def identAt (r lo : Nat) : Ident := ⟨fld r lo 32, fld r (lo + 32) 11, fld r (lo + 43) 3⟩

/-- A record of the current phase, taken apart (R344). -/
structure Rec where
  comb : Nat
  several : Bool
  reader : Option Ident
  cfl : Bool
  writer : Option Ident
  phase : Nat
  deriving DecidableEq, Repr

/-- The bits of a record (R344). -/
def Rec.code (r : Rec) : Nat :=
  r.phase % 2 ^ 16 + (match r.writer with | some w => w.code * 2 ^ 16 + 2 ^ 62 | none => 0) + (if r.cfl then 2 ^ 63 else 0) +
  (match r.reader with | some x => x.code * 2 ^ 64 + 2 ^ 110 | none => 0) + (if r.several then 2 ^ 111 else 0) +
  r.comb % 16 * 2 ^ 112

/-- A record as the current phase reads it: one of another phase reads as all zero (R344). -/
def recOf (bits phase : Nat) : Rec :=
  if bits % 2 ^ 16 ≠ phase then ⟨0, false, none, false, none, phase⟩
  else
    { comb := fld bits 112 4, several := fld bits 111 1 = 1,
      reader := if fld bits 110 1 = 1 then some (identAt bits 64) else none,
      cfl := fld bits 63 1 = 1, writer := if fld bits 62 1 = 1 then some (identAt bits 16) else none, phase := phase }

/-- The bits stored for a sector; none stands for all zero. -/
def recBits (l : List (Nat × BitVec 128 × Nat)) (sector : Nat) : Nat :=
  match l.find? fun x => x.1 = sector with
  | some x => x.2.1.toNat
  | none => 0

/-- Store a sector's bits and the job whose phase they count, in ascending order of sectors. -/
def putRec (sector : Nat) (x : BitVec 128 × Nat) : List (Nat × BitVec 128 × Nat) → List (Nat × BitVec 128 × Nat)
  | [] => [(sector, x)]
  | y :: l => if y.1 < sector then y :: putRec sector x l else if y.1 = sector then (sector, x) :: l else (sector, x) :: y :: l

/-- The job's phase number (R342). -/
def State.phaseOf (s : State) (job : Nat) : Nat :=
  match s.job job with
  | some j => j.phase
  | none => 0

/-- What an access does to a record: read, write, a combining amo with its op, or a swap or cas (R346). -/
inductive RecAcc where
  | read | write | comb (op : Nat) | swap
  deriving DecidableEq, Repr

/-- The conflict kinds that an access by I finds in a record, in the order of the table of R346. -/
def Rec.conflicts (r : Rec) (i : Ident) (a : RecAcc) : List Nat :=
  let w : Bool := match r.writer with
    | some w => w ≠ i
    | none => false
  let rd : Bool := r.several || match r.reader with
    | some x => x ≠ i
    | none => false
  let c : Bool := r.comb ≠ 0
  match a with
  | .read => (if w then [0] else []) ++ (if c then [3] else [])
  | .write => (if w then [1] else []) ++ (if rd then [2] else []) ++ (if c then [3] else [])
  | .comb op => if r.writer.isSome || r.reader.isSome || (c && r.comb ≠ op) then [3] else []
  | .swap => (if w then [0, 1] else []) ++ (if rd then [2] else []) ++ (if c then [3] else [])

/-- The record after a read by I (R346). -/
def Rec.readBy (r : Rec) (i : Ident) : Rec :=
  match r.reader with
  | none => { r with reader := some i }
  | some x => if x = i then r else { r with several := true }

/-- A write by I meets a record of a higher writer: permissive mode rejects it (R348). -/
def Rec.rejects (r : Rec) (i : Ident) : Bool :=
  match r.writer with
  | some w => i.lt w
  | none => false

/-- The record after an access by I under permissive, or with no conflict (R346, R348). -/
def Rec.after (r : Rec) (i : Ident) (a : RecAcc) : Rec :=
  let r' := if (r.conflicts i a).isEmpty then r else { r with cfl := true }
  let wr := fun (x : Rec) => if r.rejects i then x else { x with writer := some i }
  match a with
  | .read => r'.readBy i
  | .write => wr r'
  | .comb op => if r.comb ≠ 0 then r' else { r' with comb := op }
  | .swap => wr (r'.readBy i)

/-- What the records say of an access: the conflicts found with their sector and the identity recorded, whether what it
reads is tainted, and the sectors that reject its write. -/
structure Verdict2 where
  found : List (Nat × Nat × Nat)
  taint : Bool
  rejected : List Nat
  deriving DecidableEq, Repr

/-- The sectors that n bytes from a touch (R345). -/
def sectorsOf (a n : Nat) : List Nat := if n = 0 then [] else (List.range ((a + n - 1) / 256 - a / 256 + 1)).map (a / 256 + ·)

/-- Who makes an access: its job, its identity, and whether it is watched (R343, R346). -/
structure Actor where
  job : Nat
  id : Ident
  watched : Bool
  deriving DecidableEq, Repr

/-- An access by a team's column or engine. -/
def Team.actor (t : Team) (src : Nat) : Actor := ⟨t.job, ⟨t.ord, t.cid, src⟩, t.ndet != 0⟩

/-- The records' judgement of an access to n bytes from pa, and the state with the records after it as permissive mode
leaves them (R344 to R348). (Log: 19, 105 DEDUCED.) -/
def State.judgeRecs (s : State) (w : Actor) (a : RecAcc) (pa n : Nat) : Verdict2 × State :=
  let ph := s.phaseOf w.job
  (sectorsOf pa n).foldl (fun (v : Verdict2 × State) x =>
    let r := recOf (recBits v.2.recs x) ph
    if !w.watched then
      if a = .read then v
      else (v.1, { v.2 with recs := putRec x (BitVec.ofNat 128 ({ r with writer := some .other } : Rec).code, w.job) v.2.recs })
    else
      let other := fun (k : Nat) => (((if k = 2 then r.reader else r.writer.orElse fun _ => r.reader).map Ident.code).getD 0)
      let r' := r.after w.id a
      let reads := a = .read || a = .swap
      ({ found := v.1.found ++ (r.conflicts w.id a).map fun k => (k, x, other k),
         taint := v.1.taint || (reads && r'.cfl),
         rejected := if (a = .write || a = .swap) && r.rejects w.id then v.1.rejected ++ [x] else v.1.rejected },
       { v.2 with recs := putRec x (BitVec.ofNat 128 r'.code, w.job) v.2.recs })) (⟨[], false, []⟩, s)

/-- The trap of the first conflict under strict: its kind and the virtual address of the access's first byte in the
sector (R347). (Log: 19 DEDUCED.) -/
def Verdict2.trap (v : Verdict2) (va pa : Nat) : Option Trap :=
  v.found.head?.map fun f => (.conflict, conflictTval f.1 (va + (256 * f.2.1 - pa)))

/-- The bit enables of n bytes from pa without the sectors that reject the write (R348). -/
def Verdict2.enables (v : Verdict2) (pa n en : Nat) : Nat :=
  v.rejected.foldl (fun e x =>
    let lo := max pa (256 * x) - pa
    let hi := min (pa + n) (256 * x + 256) - pa
    Nat.xor e (Nat.land e (allBits hi - allBits lo))) en

/-- Log every conflict of a verdict that a permissive launch resolves (R348). -/
def State.noteAll (s : State) (t : Team) (col : Col) (v : Verdict2) (va pa : Nat) : State :=
  v.found.foldl (fun s f => s.noteConflict t col f.1 (va + (256 * f.2.1 - pa)) f.2.2) s

end Sys2Proof.Machine
end

