-- ==== Sys2Proof/Machine/Cache.lean ====
section
/-! DEFINITION. The local cache (R297, R298), and accesses to memory through it or at the L2 (R331, R336, R345). -/

namespace Sys2Proof.Machine

/-! ## Lines -/

/-- The bits that n crumb enables stand for, two for each (R297). -/
def crumbBits (m : Nat) : Nat → Nat
  | 0 => 0
  | n + 1 => (if m % 2 = 1 then 3 else 0) + 4 * crumbBits (m / 2) n

/-- The crumb enables of bit enables, which cover whole crumbs (R296, R297). -/
def bitCrumbs (e : Nat) : Nat → Nat
  | 0 => 0
  | n + 1 => e % 2 + 2 * bitCrumbs (e / 4) n

/-- The line that holds a physical address (R297). -/
def Team.line (t : Team) (pa : Nat) : Option CLine := t.cache.find? fun c => c.line = pa / 1024

/-- The team with a line replaced by its new self. -/
def Team.setLine (t : Team) (c : CLine) : Team :=
  { t with cache := t.cache.map fun x => if x.line = c.line then c else x }

/-- The enables of the dirty crumbs of sector q, as bits (R298). -/
def CLine.dirty (c : CLine) (q : Nat) : Nat := crumbBits (c.mask.toNat / 2 ^ (1024 * q) % 2 ^ 1024) 1024

/-- The data of sector q. -/
def CLine.bytes (c : CLine) (q : Nat) : Nat := c.data.toNat / 2 ^ (2048 * q) % 2 ^ 2048

/-- The sector has a dirty crumb. -/
def CLine.isDirty (c : CLine) (q : Nat) : Bool := c.mask.toNat / 2 ^ (1024 * q) % 2 ^ 1024 ≠ 0

/-- The line with sector q clean (R298). -/
def CLine.cleanMark (c : CLine) (q : Nat) : CLine :=
  { c with mask := c.mask &&& ~~~(BitVec.ofNat 4096 ((2 ^ 1024 - 1) * 2 ^ (1024 * q))) }

/-- The key of a line's page has been destroyed: its dirty crumbs have nowhere to go (R153).
(Log: 22 DESIGN CHOICE.) -/
def State.keyLost (s : State) (k : Option (Fin 64)) : Bool := k.isSome && (s.keyOf k).isNone

/-- Clean sector q of a line: only its dirty crumbs go to the L2, with their enables (R298, R345).
(Log: 22 DESIGN CHOICE.) -/
def State.cleanSector (s : State) (t : Team) (c : CLine) (q : Nat) : State :=
  if !c.isDirty q || s.keyLost c.key then s
  else
    let pa := 1024 * c.line + 256 * q
    let s := s.l2Write c.key pa 256 (c.bytes q) (c.dirty q) fun u => c.taint.getLsbD (u - 32 * c.line)
    (s.judgeRecs { t.actor 0 with watched := false } .write pa 256).2

/-- Clean every sector of a line (R133, R298). -/
def State.cleanLine (s : State) (t : Team) (c : CLine) : State :=
  [0, 1, 2, 3].foldl (fun s q => s.cleanSector t c q) s

/-- Clean the whole cache of a team, and mark it clean (R137, R298). -/
def State.cleanCache (s : State) (cid : Nat) : State :=
  match s.team cid with
  | none => s
  | some t =>
    let s := t.cache.foldl (fun s c => s.cleanLine t c) s
    s.setTeam { t with cache := t.cache.map fun c => { c with mask := 0 } }

/-- Invalidate every line of a team's cache: dirty crumbs stay dirty (R137, R298). -/
def Team.invalidate (t : Team) : Team :=
  { t with cache := (t.cache.map fun c => ({ c with valid := 0 } : CLine)).filter fun c => c.mask != 0 }

/-- The lines of the set that holds a line (R297). -/
def Team.cacheSet (t : Team) (line : Nat) : List CLine := t.cache.filter fun c => c.line % 128 = line % 128

/-- A line for a physical address: its own, or a new one in a free way or in the victim's, which is cleaned and dropped
(R298). -/
def State.allocLine (s : State) (cid pa : Nat) (k : Option (Fin 64)) : State :=
  match s.team cid with
  | none => s
  | some t =>
    if (t.line pa).isSome then s
    else
      let l := pa / 1024
      let set := t.cacheSet l
      let fresh := fun (w : Nat) => (⟨l, w, 0, 0, 0, 0, [], k⟩ : CLine)
      match (List.range t.ways).find? fun w => !(set.any fun c => c.way = w) with
      | some w => s.setTeam { t with cache := t.cache ++ [fresh w] }
      | none => match set[Config.victim s.free % set.length]? with
        | none => s
        | some v =>
          let s := s.cleanLine t v
          let s := s.setTeam { t with cache := (t.cache.filter fun c => c.line != v.line) ++ [fresh v.way] }
          { s with free := s.free + 1 }

/-! ## Judged accesses -/

/-- A watched launch of the job is live: ctl stores and sqg write through (R345). (Log: 21 DESIGN CHOICE.) -/
def State.writeThrough (s : State) (job : Nat) : Bool :=
  s.launches.any fun l => l.job = job && l.state != .done && fld (l.pkt.headD 0).toNat 19 2 != 0

/-- Judge an access of a team's column: under strict a conflict traps before the access performs, under permissive it is
logged; the records are read first, under ECC (R347, R348, R438). (Log: 20 DEDUCED.) -/
def State.judged (s : State) (cid : Nat) (col : Col) (a : RecAcc) (va pa n : Nat) : Except Trap (Verdict2 × State) :=
  match s.team cid with
  | none => .ok (⟨[], false, []⟩, s)
  | some t =>
    let r := s.judgeRecs (t.actor col.code) a pa n
    match (s.recEccTrap va pa n).orElse fun _ => if t.ndet = 2 then r.1.trap va pa else none with
    | some e => .error e
    | none => .ok (r.1, (r.2.noteAll t col r.1 va pa).correctedRecs (some t) pa n)

/-- What an access returns: its bytes as a number, the taint of each byte's unit, and the state after it. -/
abbrev Got := Nat × List Bool × State

/-- The taint of each of n bytes at the L2, with more taint for all of them (R127, R348). -/
def State.byteTaints (s : State) (pa n : Nat) (more : Bool) : List Bool :=
  (List.range n).map fun i => more || s.unitTaint ((pa + i) / 32)

/-- Read n bytes of one sector at the L2, or beyond the package, which a die without a route does not reach (R1, R331, R438).
(Log: 138 DESIGN CHOICE.) -/
def State.readAtL2 (s : State) (cid : Nat) (col : Col) (p : Piece) : Except Trap Got :=
  if p.leaf.tgt ≠ 0 then
    if s.reaches cid then .ok (s.beyondRead p.leaf.tgt p.leaf.pa p.n, List.replicate p.n false, s)
    else .ok (Config.stranded s.free % 256 ^ p.n, List.replicate p.n false, { s with free := s.free + 1 })
  else match s.eccAt [p] with
    | some e => .error e
    | none => match s.judged cid col .read p.va p.leaf.pa p.n with
      | .error e => .error e
      | .ok r => .ok (s.l2Read p.leaf.key p.leaf.pa p.n, s.byteTaints p.leaf.pa p.n r.1.taint, r.2.corrected (r.2.team cid) p.leaf.pa p.n)

/-- Write the enabled bits of n bytes of one sector at the L2, or beyond the package (R1); also gives the enables that performed
(R331, R348). -/
def State.writeAtL2Over (s : State) (cid : Nat) (col : Col) (p : Piece) (x en : Nat) (t entire : Nat → Bool) :
    Except Trap (Nat × State) :=
  if p.leaf.tgt ≠ 0 then .ok (en, if s.reaches cid then s.beyondWrite p.leaf.tgt p.leaf.pa p.n x en else s)
  else match s.judged cid col .write p.va p.leaf.pa p.n with
    | .error e => .error e
    | .ok r =>
      let en := r.1.enables p.leaf.pa p.n en
      .ok (en, r.2.l2WriteOver p.leaf.key p.leaf.pa p.n x en t entire)

/-- The same write on its own. (Log: 138 DESIGN CHOICE.) -/
def State.writeAtL2 (s : State) (cid : Nat) (col : Col) (p : Piece) (x en : Nat) (t : Nat → Bool) : Except Trap (Nat × State) :=
  s.writeAtL2Over cid col p x en t fun _ => false

/-- Fill an invalid sector from the L2: dirty crumbs keep the cached value. A sector with a poisoned unit does not become
valid (R298, R438). -/
def State.fillSector (s : State) (cid : Nat) (col : Col) (job pa : Nat) (k : Option (Fin 64)) : State :=
  match s.team cid with
  | none => s
  | some t => match t.line pa with
    | none => s
    | some c =>
      let q := pa / 256 % 4
      let base := pa / 256 * 256
      if s.poisoned base 256 then s
      else
        let en := c.dirty q
        let new := mergeBits (s.l2Read k base 256) (c.bytes q) en
        let data := BitVec.ofNat 8192 (mergeBits c.data.toNat (new * 2 ^ (2048 * q)) ((2 ^ 2048 - 1) * 2 ^ (2048 * q)))
        let taint := (List.range 8).foldl (fun (x : BitVec 32) i =>
          let dirty := unitEnables base en (base / 32 + i) ≠ 0
          let b := s.unitTaint (base / 32 + i) || (dirty && x.getLsbD (8 * q + i))
          if b then x ||| BitVec.ofNat 32 (2 ^ (8 * q + i)) else x &&& ~~~(BitVec.ofNat 32 (2 ^ (8 * q + i)))) c.taint
        let note := (q, col, s.phaseOf job) :: c.note.filter fun x => x.1 != q
        s.setTeam (t.setLine { c with data := data, valid := c.valid ||| BitVec.ofNat 4 (2 ^ q), taint := taint, note := note })

/-- The line of a physical address fetched from the L2: every sector that is not valid is filled; the fill is no access, so no
column is noted as having filled it (R132, R328, R345). (Log: 18 DEDUCED.) -/
def State.prefetch (s : State) (cid job pa : Nat) (k : Option (Fin 64)) : State :=
  [0, 1, 2, 3].foldl (fun (s : State) q =>
    match (s.team cid).bind fun t => t.line pa with
    | none => s
    | some c =>
      if c.valid.getLsbD q then s
      else
        let s := (s.fillSector cid .ctl job (1024 * c.line + 256 * q) k).corrected (s.team cid) (1024 * c.line + 256 * q) 256
        match s.team cid with
        | none => s
        | some t => match t.line pa with
          | none => s
          | some c => s.setTeam (t.setLine { c with note := c.note.filter fun x => x.1 != q })) (s.allocLine cid pa k)

/-- The taint of each of n bytes in a line, with more taint for all of them (R297). -/
def CLine.byteTaints (c : CLine) (pa n : Nat) (more : Bool) : List Bool :=
  (List.range n).map fun i => more || c.taint.getLsbD ((pa + i) / 32 - 32 * c.line)

/-- A sector whose CFL is set in the job's phase (R348). -/
def State.cflOf (s : State) (job pa : Nat) : Bool := (recOf (recBits s.recs (pa / 256)) (s.phaseOf job)).cfl

/-- Read n bytes of one sector through the local cache; dirty crumbs keep the cached value, in a sector that a poisoned unit
keeps invalid too (R298, R438). A hit by another column than the one that filled the sector
in the current phase sends a record-only read to the L2 (R345). (Log: 19 DEDUCED.) -/
def State.readCached (s : State) (cid : Nat) (col : Col) (p : Piece) : Except Trap Got :=
  match s.team cid with
  | none => .ok (0, [], s)
  | some t =>
    let pa := p.leaf.pa
    let q := pa / 256 % 4
    let value := fun (s : State) (more : Bool) => match (s.team cid).bind fun u => u.line pa with
      | some c => (c.data.toNat / 2 ^ (8 * (pa % 1024)) % 256 ^ p.n, c.byteTaints pa p.n more)
      | none => (0, [])
    let hit := match t.line pa with
      | some c => c.valid.getLsbD q
      | none => false
    let noted := match t.line pa with
      | some c => c.note.contains (q, col, s.phaseOf t.job)
      | none => false
    if hit then
      let cfl := t.ndet = 1 && s.cflOf t.job pa
      if noted || t.ndet = 0 then .ok ((value s cfl).1, (value s cfl).2, s)
      else match s.judged cid col .read p.va pa p.n with
        | .error e => .error e
        | .ok r =>
          let v := value s (cfl || r.1.taint)
          .ok (v.1, v.2, r.2)
    else match s.eccAt [p] with
      | some e => .error e
      | none => match s.judged cid col .read p.va pa p.n with
        | .error e => .error e
        | .ok r =>
          let s := ((r.2.allocLine cid pa p.leaf.key).fillSector cid col t.job pa p.leaf.key).corrected (some t) (pa / 256 * 256) 256
          if s.poisoned (pa / 256 * 256) 256 then
            let own := match (s.team cid).bind fun u => u.line pa with
              | some c => (c.bytes q / 256 ^ (pa % 256), c.dirty q / 256 ^ (pa % 256) % 256 ^ p.n, c.byteTaints pa p.n false)
              | none => (0, 0, [])
            let taints := (s.byteTaints pa p.n r.1.taint).zipIdx.map fun x =>
              x.1 || (own.2.1 / 256 ^ x.2 % 256 ≠ 0 && own.2.2.getD x.2 false)
            .ok (mergeBits (s.l2Read p.leaf.key pa p.n) own.1 own.2.1, taints, s)
          else .ok ((value s r.1.taint).1, (value s r.1.taint).2, s)

/-- The line with the enabled bits of n bytes written, dirty or clean (R298, R351). -/
def CLine.write (c : CLine) (pa n x en : Nat) (t : Nat → Bool) (dirty : Bool) : CLine :=
  let o := pa % 1024
  let m := BitVec.ofNat 4096 (bitCrumbs en (4 * n) * 2 ^ (4 * o))
  let taint := (List.range (unitSpan pa n).2).foldl (fun (b : BitVec 32) i =>
    let u := pa / 32 + i
    let e := unitEnables pa en u
    let bit := BitVec.ofNat 32 (2 ^ (u - 32 * c.line))
    if e = 0 then b else if t u then b ||| bit else if e = 2 ^ 256 - 1 then b &&& ~~~bit else b) c.taint
  { c with data := BitVec.ofNat 8192 (mergeBits c.data.toNat (x * 2 ^ (8 * o)) (en * 2 ^ (8 * o))), taint := taint,
           mask := if dirty then c.mask ||| m else c.mask &&& ~~~m }

/-- The launch of a team has written a tainted word to memory (R351). -/
def State.markTaint (s : State) (cid : Nat) (b : Bool) : State :=
  match s.team cid with
  | some t => if b then { s with launches := s.launches.map fun l => if l.handle = t.launch then { l with taint := true } else l }
              else s
  | none => s

/-- Write n bytes of one sector through the local cache: the line is allocated without a fill and its crumbs become dirty;
while a watched launch of the job is live the write goes to the L2, and a line that is present keeps a clean copy
(R298, R345). -/
def State.writeCached (s : State) (cid : Nat) (col : Col) (p : Piece) (x en : Nat) (t : Nat → Bool) :
    Except Trap (Nat × State) :=
  match s.team cid with
  | none => .ok (0, s)
  | some u =>
    let pa := p.leaf.pa
    let put := fun (s : State) (en : Nat) (dirty : Bool) => match (s.team cid) with
      | none => s
      | some u => match u.line pa with
        | none => s
        | some c => s.setTeam (u.setLine (c.write pa p.n x en t dirty))
    if s.writeThrough u.job then
      match s.writeAtL2 cid col p x en t with
      | .error e => .error e
      | .ok r => .ok (r.1, put r.2 r.1 false)
    else .ok (en, put (s.allocLine cid pa p.leaf.key) en true)

/-- An access that carries an order is made at the L2: a dirty sector that holds its bytes is cleaned first, and the sector
is dropped (R336). -/
def State.dropSector (s : State) (cid pa : Nat) : State :=
  match s.team cid with
  | none => s
  | some t => match t.line pa with
    | none => s
    | some c =>
      let q := pa / 256 % 4
      let s := s.cleanSector t c q
      let d := { c.cleanMark q with valid := c.valid &&& ~~~(BitVec.ofNat 4 (2 ^ q)) }
      match s.team cid with
      | some t => s.setTeam (t.setLine d)
      | none => s

/-- The page of a piece lies in striped memory: window addresses are never held by the local cache (R316). -/
def Piece.cacheable (p : Piece) : Bool := p.leaf.tgt = 0 && fld p.leaf.pa 51 1 = 0

/-- Read one sector's bytes by the path of a column: through the local cache, or at the L2 for an ordered access, a window
or a cache with no ways (R297, R316, R336). -/
def State.readPiece (s : State) (cid : Nat) (col : Col) (ordered : Bool) (p : Piece) : Except Trap Got :=
  match s.team cid with
  | none => .ok (0, [], s)
  | some t =>
    if t.ways = 0 || !p.cacheable then s.readAtL2 cid col p
    else if ordered then (s.dropSector cid p.leaf.pa).readAtL2 cid col p
    else s.readCached cid col p

/-- Write one sector's bytes by the path of a column (R297, R316, R336). -/
def State.writePiece (s : State) (cid : Nat) (col : Col) (ordered : Bool) (p : Piece) (x en : Nat) (t : Nat → Bool) :
    Except Trap (Nat × State) :=
  match s.team cid with
  | none => .ok (0, s)
  | some u =>
    if u.ways = 0 || !p.cacheable then s.writeAtL2 cid col p x en t
    else if ordered then (s.dropSector cid p.leaf.pa).writeAtL2 cid col p x en t
    else s.writeCached cid col p x en t

/-- Translated pieces cut at 256-byte sectors (R345). -/
def cutPiece (p : Piece) : List Piece :=
  (sectorsOf p.leaf.pa p.n).map fun x =>
    let lo := max p.leaf.pa (256 * x)
    let hi := min (p.leaf.pa + p.n) (256 * x + 256)
    ⟨p.va + (lo - p.leaf.pa), { p.leaf with pa := lo }, hi - lo⟩

/-- Read a list of pieces in address order (R165, R351). -/
def State.readPieces (s : State) (cid : Nat) (col : Col) (ordered : Bool) : List Piece → Except Trap Got
  | [] => .ok (0, [], s)
  | p :: l => match s.readPiece cid col ordered p with
    | .error e => .error e
    | .ok g => match g.2.2.readPieces cid col ordered l with
      | .error e => .error e
      | .ok r => .ok (g.1 + 256 ^ p.n * r.1, g.2.1 ++ r.2.1, r.2.2)

/-- Write a list of pieces in address order from one number; tb is the taint of each byte of the access (R165). -/
def State.writePieces (s : State) (cid : Nat) (col : Col) (ordered : Bool) (x en : Nat) (tb : List Bool) :
    List Piece → Except Trap State
  | [] => .ok s
  | p :: l =>
    let byUnit := fun (u : Nat) =>
      let lo := max (32 * u) p.leaf.pa - p.leaf.pa
      let hi := min (32 * u + 32) (p.leaf.pa + p.n) - p.leaf.pa
      ((tb.take hi).drop lo).any id
    match s.writePiece cid col ordered p (x % 256 ^ p.n) (en % 256 ^ p.n) byUnit with
    | .error e => .error e
    | .ok r => (r.2.markTaint cid ((tb.take p.n).any id && r.1 != 0)).writePieces cid col ordered (x / 256 ^ p.n) (en / 256 ^ p.n)
        (tb.drop p.n) l

/-- A demand read of some pieces waits for an rd.l2 fill (R270). (Log: 81 DEDUCED.) -/
def State.fills (s : State) (e : Except Trap (List Piece)) : Bool :=
  match e with
  | .error _ => false
  | .ok l => l.any fun p => p.leaf.tgt = 0 && s.filling p.leaf.pa p.n

/-- Every piece of an access, cut at sectors. -/
def cutAll (l : List Piece) : List Piece := l.flatMap cutPiece

end Sys2Proof.Machine
end

