-- ==== Sys2Proof/Machine/Num.lean ====
section
/-! DEFINITION. The floating-point formats bit by bit and the exactness rule: decoding, one exact value, one rounding
(R13 to R27, R42 to R53), and the plait (R57, R58). -/

namespace Sys2Proof.Machine

/-- A rounding mode: 0 RNE, 1 RTZ, 2 RDN, 3 RUP, 4 RNA (R42). -/
abbrev Mode := Nat

/-- A floating-point format: exponent and fraction widths, bias, the largest finite code, and what its top codes hold
(R16). -/
structure Fmt where
  e : Nat
  f : Nat
  bias : Nat
  maxCode : Nat
  hasInf : Bool
  hasNan : Bool
  deriving DecidableEq, Repr

/-- The format of a floating-point or FP6 type (R16); other types have none and read as FP32. -/
def fmtOf : ElemTy → Fmt
  | .f64 => ⟨11, 52, 1023, 0x7FEFFFFFFFFFFFFF, true, true⟩
  | .bf16 => ⟨8, 7, 127, 0x7F7F, true, true⟩
  | .f16 => ⟨5, 10, 15, 0x7BFF, true, true⟩
  | .e4m3 => ⟨4, 3, 7, 0x7E, false, true⟩
  | .e5m2 => ⟨5, 2, 15, 0x7B, true, true⟩
  | .e3m2 => ⟨3, 2, 3, 0x1F, false, false⟩
  | .e2m3 => ⟨2, 3, 1, 0x1F, false, false⟩
  | .f32 | .q4 | .c4 | .i8 | .i16 | .i32 | .i64 | .r32 | .r64 => ⟨8, 23, 127, 0x7F7FFFFF, true, true⟩

/-- Width of a format in bits. -/
def Fmt.width (x : Fmt) : Nat := 1 + x.e + x.f

/-- The canonical quiet NaN (R19). -/
def Fmt.nan (x : Fmt) : Nat := if x.hasInf then (2 ^ x.e - 1) * 2 ^ x.f + 2 ^ (x.f - 1) else x.maxCode + 1

/-- A value: NaN (signalling or not), an infinity, or a signed exact rational num / den; a zero keeps its sign
(R17). -/
inductive Val where
  | nan (sig : Bool)
  | inf (neg : Bool)
  | fin (neg : Bool) (num den : Nat)
  deriving DecidableEq, Repr

/-- num / den times 2^k. -/
def scale2 (neg : Bool) (num den : Nat) (k : Int) : Val :=
  if 0 ≤ k then .fin neg (num * 2 ^ k.toNat) den else .fin neg num (den * 2 ^ (-k).toNat)

/-- The value of an encoding (R17, R19). -/
def decodeF (x : Fmt) (code : Nat) : Val :=
  let s := code / 2 ^ (x.e + x.f) % 2 = 1
  let ex := code / 2 ^ x.f % 2 ^ x.e
  let fr := code % 2 ^ x.f
  if x.hasInf && ex = 2 ^ x.e - 1 then (if fr = 0 then .inf s else .nan (fr < 2 ^ (x.f - 1)))
  else if !x.hasInf && x.hasNan && code % 2 ^ (x.e + x.f) = x.maxCode + 1 then .nan false
  else if ex = 0 then scale2 s fr 1 (1 - x.bias - x.f)
  else scale2 s (2 ^ x.f + fr) 1 (ex - x.bias - x.f)

/-- The exceptions of an operation: NV 16, DZ 8, OF 4, UF 2, NX 1 (R45). -/
abbrev Exc := BitVec 5

/-- floor (log2 (num / den)) for positive num and den. -/
def log2Q (num den : Nat) : Int :=
  let k : Int := (num.log2 : Int) - den.log2
  let le := if 0 ≤ k then decide (den * 2 ^ k.toNat ≤ num) else decide (den ≤ num * 2 ^ (-k).toNat)
  if le then k else k - 1

/-- num / den in units of 2^u: quotient, remainder and divisor. -/
def divUnit (num den : Nat) (u : Int) : Nat × Nat × Nat :=
  if 0 ≤ u then
    let d := den * 2 ^ u.toNat
    (num / d, num % d, d)
  else
    let n := num * 2 ^ (-u).toNat
    (n / den, n % den, den)

/-- Whether a quotient q with remainder r of d is rounded away from zero (R42). -/
def roundsUp (mode : Mode) (neg : Bool) (q r d : Nat) : Bool :=
  match mode with
  | 0 => d < 2 * r || (d = 2 * r && q % 2 = 1)
  | 1 => false
  | 2 => neg && r != 0
  | 3 => !neg && r != 0
  | _ => d ≤ 2 * r

/-- A sign and a magnitude code as one encoding. -/
def Fmt.signed (x : Fmt) (neg : Bool) (mag : Nat) : Nat := mag + (if neg then 2 ^ (x.e + x.f) else 0)

/-- The overflow result (R22). -/
def overflowCode (x : Fmt) (mode : Mode) (sat neg : Bool) : Nat :=
  let toMax := sat || (!x.hasInf && !x.hasNan) || mode = 1 || (mode = 2 && !neg) || (mode = 3 && neg)
  if toMax then x.signed neg x.maxCode
  else if x.hasInf then x.signed neg ((2 ^ x.e - 1) * 2 ^ x.f) else x.nan

/-- ROUND AN EXACT NONZERO VALUE ONCE to a format (R44, R45): rounding at the spacing of its binade or of the
subnormals, then overflow, with tininess detected after rounding. -/
def roundQ (x : Fmt) (mode : Mode) (sat neg : Bool) (num den : Nat) : Nat × Exc :=
  if num = 0 then (x.signed neg 0, 0)
  else
    let e := log2Q num den
    let low : Int := 1 - x.bias - x.f
    let u := max (e - x.f) low
    let (q, r, d) := divUnit num den u
    let q' := if roundsUp mode neg q r d then q + 1 else q
    let mag := (u - low).toNat * 2 ^ x.f + q'
    if x.maxCode < mag then (overflowCode x mode sat neg, 5)
    else
      let nx := r != 0
      let emin : Int := 1 - x.bias
      let tiny := e < emin &&
        (let (q2, r2, d2) := divUnit num den (e - x.f)
         let q3 := if roundsUp mode neg q2 r2 d2 then q2 + 1 else q2
         !(e + 1 = emin && q3 = 2 ^ (x.f + 1)))
      (x.signed neg mag, (if nx && tiny then 2 else 0) ||| (if nx then 1 else 0))

/-- Deliver a value to a format: NaN and infinity under R19 and R23, a finite value rounded once (R44). -/
def deliver (x : Fmt) (mode : Mode) (sat : Bool) : Val → Nat × Exc
  | .nan sig => if x.hasNan then (x.nan, if sig then 16 else 0) else (0, 16)
  | .inf neg =>
    if x.hasInf then (x.signed neg ((2 ^ x.e - 1) * 2 ^ x.f), 0)
    else if sat || !x.hasNan then (x.signed neg x.maxCode, 16) else (x.nan, 16)
  | .fin neg n d => roundQ x mode sat neg n d

/-! ## Exact operations -/

/-- A value is a signalling NaN. -/
def Val.isSig : Val → Bool
  | .nan s => s
  | _ => false

/-- A value is a NaN. -/
def Val.isNan : Val → Bool
  | .nan _ => true
  | _ => false

/-- A value with the other sign. -/
def Val.negate : Val → Val
  | .nan s => .nan s
  | .inf n => .inf (!n)
  | .fin n a b => .fin (!n) a b

/-- The exact product; infinity times zero is the NaN that raises invalid (R48). -/
def mulV : Val → Val → Val
  | .nan s, y => .nan (s || y.isSig)
  | x, .nan s => .nan (s || x.isSig)
  | .inf a, .inf b => .inf (a != b)
  | .inf a, .fin b n _ => if n = 0 then .nan true else .inf (a != b)
  | .fin a n _, .inf b => if n = 0 then .nan true else .inf (a != b)
  | .fin a n d, .fin b m e => .fin (a != b) (n * m) (d * e)

/-- What a list of terms adds up to: a NaN, a sum of infinities, the finite sum as a fraction, and what its zeros
are (R48, R52). -/
structure Acc where
  nan : Bool := false
  sig : Bool := false
  pinf : Bool := false
  ninf : Bool := false
  num : Int := 0
  den : Nat := 1
  nonzero : Bool := false
  pzero : Bool := false
  nzero : Bool := false
  deriving DecidableEq, Repr

/-- One more term of an exact sum. -/
def Acc.add (s : Acc) : Val → Acc
  | .nan g => { s with nan := true, sig := s.sig || g }
  | .inf n => if n then { s with ninf := true } else { s with pinf := true }
  | .fin n a b =>
    if a = 0 then (if n then { s with nzero := true } else { s with pzero := true })
    else
      let v : Int := if n then -(a : Int) else a
      if b = s.den then { s with num := s.num + v, nonzero := true }
      else if b % s.den = 0 then { s with num := s.num * (b / s.den : Nat) + v, den := b, nonzero := true }
      else if s.den % b = 0 then { s with num := s.num + v * (s.den / b : Nat), nonzero := true }
      else { s with num := s.num * b + v * s.den, den := s.den * b, nonzero := true }

/-- The exact value of a sum, with the sign of a zero under R52. -/
def Acc.value (s : Acc) (mode : Mode) : Val :=
  if s.nan then .nan s.sig
  else if s.pinf && s.ninf then .nan true
  else if s.pinf then .inf false
  else if s.ninf then .inf true
  else if s.num = 0 then
    let neg := if s.nonzero then mode = 2
      else if s.nzero then (if s.pzero then mode = 2 else true) else false
    .fin neg 0 1
  else .fin (s.num < 0) s.num.natAbs s.den

/-- The exact sum of a list of terms (R47, R48). -/
def sumV (mode : Mode) (l : List Val) : Val := (l.foldl Acc.add {}).value mode

/-- A quotient (R183): the value, and whether it is a division by zero. -/
def divV : Val → Val → Val × Exc
  | .nan s, y => (.nan (s || y.isSig), 0)
  | x, .nan s => (.nan (s || x.isSig), 0)
  | .inf _, .inf _ => (.nan true, 0)
  | .inf a, .fin b _ _ => (.inf (a != b), 0)
  | .fin a _ _, .inf b => (.fin (a != b) 0 1, 0)
  | .fin a n d, .fin b m e =>
    if m = 0 then (if n = 0 then (.nan true, 0) else (.inf (a != b), 8))
    else (.fin (a != b) (n * e) (d * m), 0)

/-- The integer square root, one bit at a time. -/
def isqrt (n : Nat) : Nat → Nat → Nat
  | 0, r => if (r + 1) * (r + 1) ≤ n then r + 1 else r
  | k + 1, r => let r' := r + 2 ^ (k + 1); isqrt n k (if r' * r' ≤ n then r' else r)

/-- A square root (R183). A root that is not exact is given as the middle of the last place of a value finer than any
format's half unit, which every rounding treats as the root itself. -/
def sqrtV : Val → Val
  | .nan s => .nan s
  | .inf n => if n then .nan true else .inf false
  | .fin neg n d =>
    if n = 0 then .fin neg 0 1
    else if neg then .nan true
    else
      let m := n * d * 4 ^ 70
      let r := isqrt m (m.log2 / 2 + 1) 0
      if r * r = m then .fin false r (d * 2 ^ 70) else .fin false (2 * r + 1) (d * 2 ^ 71)

/-- Order of two finite or infinite values, −0 below +0 when `zeros` (R53). -/
def ltV (zeros : Bool) : Val → Val → Bool
  | .nan _, _ => false
  | _, .nan _ => false
  | .inf a, .inf b => a && !b
  | .inf a, .fin .. => a
  | .fin .., .inf b => !b
  | .fin a n d, .fin b m e =>
    if n = 0 && m = 0 then zeros && a && !b
    else
      let x : Int := (if a then -(n : Int) else n) * e
      let y : Int := (if b then -(m : Int) else m) * d
      x < y

/-- Maximum or minimum under R53. -/
def pickV (isMax : Bool) (x y : Val) : Val :=
  if x.isNan || y.isNan then .nan (x.isSig || y.isSig)
  else if isMax then (if ltV true x y then y else x) else (if ltV true y x then y else x)

/-- A finite value rounded to an integer under a mode: magnitude, and whether it changed (R25, R182). -/
def roundInt (mode : Mode) (neg : Bool) (n d : Nat) : Nat × Bool :=
  let q := n / d
  let r := n % d
  (if roundsUp mode neg q r d then q + 1 else q, r != 0)

/-- The nearest end of a range, or the integer itself. -/
def clampI (lo hi x : Int) : Int := if x < lo then lo else if hi < x then hi else x

/-- The range of a w-bit integer (R39). -/
def intRange (w : Nat) (uns : Bool) : Int × Int := if uns then (0, 2 ^ w - 1) else (-(2 ^ (w - 1)), 2 ^ (w - 1) - 1)

/-- The low w bits of an integer. -/
def lowBits (w : Nat) (x : Int) : Nat := (x % 2 ^ w).toNat

/-- The integer that w bits hold (R15). -/
def readInt (w : Nat) (uns : Bool) (x : Nat) : Int :=
  let x := x % 2 ^ w
  if !uns && x / 2 ^ (w - 1) % 2 = 1 then (x : Int) - 2 ^ w else x

/-- Floating point to integer (R25). -/
def floatToInt (w : Nat) (uns : Bool) (mode : Mode) (v : Val) : Nat × Exc :=
  let (lo, hi) := intRange w uns
  match v with
  | .nan _ => (0, 16)
  | .inf n => (lowBits w (if n then lo else hi), 16)
  | .fin neg n d =>
    let (q, nx) := roundInt mode neg n d
    let x : Int := if neg then -(q : Int) else q
    if x < lo || hi < x then (lowBits w (clampI lo hi x), 16) else (lowBits w x, if nx then 1 else 0)

/-- Integer to integer (R27). -/
def intToInt (w : Nat) (uns sat : Bool) (x : Int) : Nat :=
  let (lo, hi) := intRange w uns
  lowBits w (if sat then clampI lo hi x else x)

/-- An integer as an exact value. -/
def intV (x : Int) : Val := .fin (x < 0) x.natAbs 1

/-! ## The plait (R57, R58) -/

/-- mix64 (R57). -/
def mix64 (z : Word) : Word :=
  let z := (z ^^^ (z >>> 30)) * 0xBF58476D1CE4E5B9
  let z := (z ^^^ (z >>> 27)) * 0x94D049BB133111EB
  z ^^^ (z >>> 31)

/-- The plait of words from index i on (R58). -/
def plaitWords (i : Nat) : List Word → Word
  | [] => 0
  | w :: l => mix64 (w ^^^ (BitVec.ofNat 64 i * 0x9E3779B97F4A7C15)) + plaitWords (i + 1) l

/-- Bytes as dwords, the last one filled with 0 (R58). -/
def dwordsOf : Nat → List Byte → List Word
  | 0, _ => []
  | _, [] => []
  | n + 1, l => BitVec.ofNat 64 ((l.take 8).foldr (fun b acc => b.toNat + 256 * acc) 0) :: dwordsOf n (l.drop 8)

/-- The plait of an image of bytes (R58). -/
def plait (l : List Byte) : Word := plaitWords 0 (dwordsOf l.length l)

end Sys2Proof.Machine
end

