-- ==== Sys2Proof/Machine/Flags.lean ====
section
/-! DEFINITION. Operations on the elements of vec words with the exceptions that each raises (R45, R182 to R188), and the
conversions between element types (R20 to R27, R186). -/

namespace Sys2Proof.Machine

/-! ## Floating point (R182, R183) -/

/-- The decoded value of an element. -/
def valOf (ty : ElemTy) (code : Nat) : Val := decodeF (fmtOf ty) code

/-- The exact result of a floating-point word, rounded once (R44, R182). -/
def fpOut (ty : ElemTy) (mode : Mode) (sat : Bool) (v : Val) : Nat × Exc := deliver (fmtOf ty) mode sat v

/-- a + b (R182). -/
def fpAdd (ty : ElemTy) (mode : Mode) (sat : Bool) (a b : Nat) : Nat × Exc :=
  fpOut ty mode sat (sumV mode [valOf ty a, valOf ty b])

/-- a - b (R182). -/
def fpSub (ty : ElemTy) (mode : Mode) (sat : Bool) (a b : Nat) : Nat × Exc :=
  fpOut ty mode sat (sumV mode [valOf ty a, (valOf ty b).negate])

/-- a * b (R182). -/
def fpMul (ty : ElemTy) (mode : Mode) (sat : Bool) (a b : Nat) : Nat × Exc :=
  fpOut ty mode sat (mulV (valOf ty a) (valOf ty b))

/-- The fma family: the product and c, each negated or not, summed and rounded once (R182, R183). -/
def fpFma (np nc : Bool) (ty : ElemTy) (mode : Mode) (sat : Bool) (a b c : Nat) : Nat × Exc :=
  let p := mulV (valOf ty a) (valOf ty b)
  let z := valOf ty c
  fpOut ty mode sat (sumV mode [if np then p.negate else p, if nc then z.negate else z])

/-- a / b, with divide by zero (R183). -/
def fpDiv (ty : ElemTy) (mode : Mode) (sat : Bool) (a b : Nat) : Nat × Exc :=
  let q := divV (valOf ty a) (valOf ty b)
  let r := fpOut ty mode sat q.1
  (r.1, r.2 ||| q.2)

/-- The square root (R183). -/
def fpSqrt (ty : ElemTy) (mode : Mode) (sat : Bool) (a : Nat) : Nat × Exc := fpOut ty mode sat (sqrtV (valOf ty a))

/-- Minimum or maximum (R53). -/
def fpPick (isMax : Bool) (ty : ElemTy) (mode : Mode) (sat : Bool) (a b : Nat) : Nat × Exc :=
  fpOut ty mode sat (pickV isMax (valOf ty a) (valOf ty b))

/-- A word that only changes the sign bit; a NaN becomes canonical (R183). -/
def fpSign (f : Bool → Bool) (ty : ElemTy) (a : Nat) : Nat × Exc :=
  let x := fmtOf ty
  match decodeF x a with
  | .nan s => (x.nan, if s then 16 else 0)
  | _ => (x.signed (f (a / 2 ^ (x.e + x.f) % 2 = 1)) (a % 2 ^ (x.e + x.f)), 0)

/-- A value rounded to an integral value of its type (R183). -/
def fpRound (ty : ElemTy) (mode : Mode) (a : Nat) : Nat × Exc :=
  match valOf ty a with
  | .fin neg n d =>
    let r := roundInt mode neg n d
    ((fpOut ty mode true (.fin neg r.1 1)).1, if r.2 then 1 else 0)
  | v => fpOut ty mode true v

/-! ## Compare and classify (R184, R185) -/

/-- Two finite or infinite values are equal; -0 equals +0. -/
def eqV (x y : Val) : Bool := !x.isNan && !y.isNan && !ltV false x y && !ltV false y x

/-- A floating-point predicate: its truth, and invalid for a signalling NaN or, ordered, for any NaN (R184). -/
def fpCmp (p : FPred) (ty : ElemTy) (a b : Nat) : Nat × Exc :=
  let x := valOf ty a
  let y := valOf ty b
  let un := x.isNan || y.isNan
  let sig := x.isSig || y.isSig
  let truth := match p with
    | .eq => eqV x y
    | .ne => un || !eqV x y
    | .lt => !un && ltV false x y
    | .le => !un && !ltV false y x
    | .gt => !un && ltV false y x
    | .ge => !un && !ltV false x y
    | .un => un
    | .ord => !un
  let strict := match p with
    | .lt | .le | .gt | .ge => true
    | .eq | .ne | .un | .ord => false
  (if truth then 1 else 0, if sig || (strict && un) then 16 else 0)

/-- An integer predicate on w-bit elements (R184). -/
def intCmp (p : IPred) (w a b : Nat) : Bool :=
  let x := readInt w false a
  let y := readInt w false b
  match p with
  | .eq => a = b
  | .ne => a != b
  | .lt => x < y
  | .le => x ≤ y
  | .gt => y < x
  | .ge => y ≤ x
  | .ltu => a < b
  | .leu => a ≤ b
  | .gtu => b < a
  | .geu => b ≤ a

/-- The place of an element's class in the set of vclass (R185). -/
def classOf (ty : ElemTy) (a : Nat) : Nat :=
  let x := fmtOf ty
  let s := a / 2 ^ (x.e + x.f) % 2 = 1
  match decodeF x a with
  | .nan sig => if sig then 0 else 1
  | .inf _ => if s then 2 else 9
  | .fin _ _ _ =>
    let mag := a % 2 ^ (x.e + x.f)
    if mag = 0 then (if s then 5 else 6)
    else if mag < 2 ^ x.f then (if s then 4 else 7)
    else if s then 3 else 8

/-! ## Conversions (R186) -/

/-- An element converted from type st to type dt (R20 to R27, R41, R186). (Log: 38 DEDUCED.) -/
def convert (dt st : ElemTy) (usrc udst : Bool) (mode : Mode) (sat : Bool) (a : Nat) : Nat × Exc :=
  if st.isFloat then
    if dt.isFloat then
      if dt = st then
        match valOf st a with
        | .nan s => ((fmtOf dt).nan, if s then 16 else 0)
        | _ => (a, 0)
      else fpOut dt mode sat (valOf st a)
    else floatToInt dt.width udst mode (valOf st a)
  else if dt.isFloat then fpOut dt mode sat (intV (readInt st.width usrc a))
  else if st.isRes || dt.isRes then (a, 0)
  else (intToInt dt.width udst sat (readInt st.width usrc a), 0)

/-! ## Integer elements (R188) -/

/-- A sum or difference under its overflow option (R188). -/
def intAdd (o : IOpt) (w : Nat) (f : Int → Int → Int) (a b : Nat) : Nat :=
  match o with
  | .wrap => lowBits w (f a b)
  | .ss => intToInt w false true (f (readInt w false a) (readInt w false b))
  | .us => intToInt w true true (f a b)

/-- The high half of a product (R188). -/
def intMulh (u : Bool) (w a b : Nat) : Nat := lowBits w (readInt w u a * readInt w u b / 2 ^ w)

/-- The smaller of two elements (R188). -/
def intMin (u : Bool) (w a b : Nat) : Nat := if readInt w u a ≤ readInt w u b then a else b

/-- The larger of two elements (R188). -/
def intMax (u : Bool) (w a b : Nat) : Nat := if readInt w u a ≤ readInt w u b then b else a

/-- The exact distance of two elements (R188). -/
def intAbsd (u : Bool) (w a b : Nat) : Nat := (readInt w u a - readInt w u b).natAbs % 2 ^ w

/-- A left shift; 0 from w on (R188). -/
def intShl (w a b : Nat) : Nat := if w ≤ b then 0 else a * 2 ^ b % 2 ^ w

/-- A logical right shift; 0 from w on (R188). -/
def intShr (w a b : Nat) : Nat := if w ≤ b then 0 else a / 2 ^ b

/-- An arithmetic right shift; all sign bits from w on (R188). -/
def intSar (w a b : Nat) : Nat := lowBits w (readInt w false a / 2 ^ min b w)

/-! ## Reductions (R187) -/

/-- The result type of vsum and vdot (R187). -/
def sumType : ElemTy → ElemTy
  | .f64 => .f64
  | .f32 | .bf16 | .f16 | .e4m3 | .e5m2 => .f32
  | .i8 | .i16 => .i32
  | .i32 | .i64 => .i64
  | .e3m2 | .e2m3 | .q4 | .c4 | .r32 | .r64 => .f32

/-- The terms of a row, exact, with the initial term, delivered in the result type (R47, R49, R187). -/
def reduceSum (ty : ElemTy) (mode : Mode) (sat : Bool) (init : Nat) (terms : List (List Nat)) : Nat × Exc :=
  let r := sumType ty
  if ty.isFloat then
    let term := fun (l : List Nat) => match l with
      | [a, b] => mulV (valOf ty a) (valOf ty b)
      | l => valOf ty (l.headD 0)
    fpOut r mode sat (sumV mode (valOf r init :: terms.map term))
  else
    let term := fun (l : List Nat) => l.foldl (fun acc a => acc * readInt ty.width false a) (1 : Int)
    (intToInt r.width false true ((terms.map term).foldl (· + ·) (readInt r.width false init)), 0)

/-- The maximum or minimum of a row and the initial term (R53, R187). -/
def reducePick (isMax : Bool) (ty : ElemTy) (mode : Mode) (sat : Bool) (init : Nat) (terms : List Nat) : Nat × Exc :=
  if ty.isFloat then fpOut ty mode sat (terms.foldl (fun acc a => pickV isMax acc (valOf ty a)) (valOf ty init))
  else (terms.foldl (fun acc a => if isMax then intMax false ty.width acc a else intMin false ty.width acc a) init, 0)

end Sys2Proof.Machine
end

