-- ==== Sys2Proof/Machine/Layouts.lean ====
section
/-! DEFINITION. Stored formats (R28 to R39): planes, decoding, quantising; layout records and the order and addresses of
their elements (R303 to R307); bank format registers (R166, R251). -/

namespace Sys2Proof.Machine

/-! ## Scaled formats (R31 to R38) -/

/-- The value of an FP32 code. -/
def f32V (x : Nat) : Val := decodeF (fmtOf .f32) (x % 2 ^ 32)

/-- The value of an FP16 code. -/
def f16V (x : Nat) : Val := decodeF (fmtOf .f16) (x % 2 ^ 16)

/-- Magnitudes of the codes of T = 1 in halves, and of T = 3 in units (R33). -/
def halves : List Nat := [0, 1, 2, 3, 4, 6, 8, 12]

/-- The code value v(T, c) (R33). -/
def q4Code (ty c : Nat) : Val :=
  let neg := decide (8 ≤ c)
  let k := c % 8
  match ty with
  | 0 => .fin neg (if neg then 16 - c else c) 1
  | 1 => .fin neg (halves.getD k 0) 2
  | 2 => .fin neg (if k = 0 then 0 else 2 ^ k) 8
  | _ => .fin neg (halves.getD k 0) 1

/-- The largest positive magnitude V_pos(T) (R33, R35). -/
def q4Max (ty : Nat) : Nat :=
  match ty with
  | 0 => 7
  | 1 => 6
  | 2 => 16
  | _ => 12

/-- The block scale of the low six bits of a scale byte, in units of 2^-10 (R32). -/
def q4Scale (b : Nat) : Nat :=
  let e := b / 4 % 16
  let m := b % 4
  if e = 0 then m else (4 + m) * 2 ^ (e - 1) * 2

/-- The block scale in units of 2^-10 as a value. -/
def q4Sigma (b : Nat) : Val :=
  if b / 4 % 16 = 0 then .fin false (b % 4) 1024 else .fin false ((4 + b % 4) * 2 ^ (b / 4 % 16)) 1024

/-- The exact value of a Q4 element (R34). -/
def q4Value (tau : Val) (scale c : Nat) : Val := mulV (mulV (q4Code (scale / 64 % 4) c) (q4Sigma scale)) tau

/-- The exact value of a C4 element (R37). -/
def c4Value (book : List Nat) (tau : Val) (mu c : Nat) : Val := mulV (mulV (f16V (book.getD c 0)) (f16V mu)) tau

/-- The sources of a block divided by the tensor scale: a NaN gives +0 and an infinity its type's largest magnitude, both
with invalid (R35). -/
def blockIn (tau maxSrc : Val) : Val → Val × Exc
  | .nan _ => (.fin false 0 1, 16)
  | .inf n => ((divV (if n then maxSrc.negate else maxSrc) tau).1, 16)
  | .fin n a b => ((divV (.fin n a b) tau).1, 0)

/-- The magnitude of a value. -/
def absV : Val → Val
  | .fin _ a b => .fin false a b
  | .inf _ => .inf false
  | .nan s => .nan s

/-- The largest of a list of magnitudes. -/
def maxAbs (l : List Val) : Val := l.foldl (fun m x => if ltV false m (absV x) then absV x else m) (.fin false 0 1)

/-- The distance of two finite values. -/
def distV (x y : Val) : Val := absV (sumV 0 [x, y.negate])

/-- A finite value is zero. -/
def isZeroV : Val → Bool
  | .fin _ n _ => n = 0
  | _ => false

/-- The sign of a finite value. -/
def negV : Val → Bool
  | .fin n _ _ => n
  | .inf n => n
  | .nan _ => false

/-- The code of type T whose value is nearest to y: a tie goes to the code with bit 0 clear, and a zero takes the sign of x
where T has -0 (R35). -/
def q4Nearest (ty : Nat) (x y : Val) : Nat :=
  let codes := if ty = 0 then List.range 16 else (List.range 8).map fun k => k + (if negV x then 8 else 0)
  codes.foldl (fun best c =>
    let d := distV y (q4Code ty c)
    let e := distV y (q4Code ty best)
    if ltV false d e || (eqV d e && c % 2 = 0 && best % 2 = 1) then c else best) (codes.headD 0)

/-- A block quantised: its codes, its scale byte or block maximum, and its exceptions. -/
structure Block where
  codes : List Nat
  aux : Nat
  exc : Exc
  deriving DecidableEq, Repr

/-- Quantise a block to Q4 with type T (R35). -/
def quantQ4 (ty : Nat) (tau maxSrc : Val) (src : List Val) : Block :=
  let xs := src.map (blockIn tau maxSrc)
  let a := maxAbs (xs.map fun x => x.1)
  let b := if isZeroV a then 0
    else ((List.range 64).find? fun b => q4Scale b != 0 && !ltV false (mulV (.fin false (q4Max ty) 1) (q4Sigma b)) a).getD 63
  let r := xs.map fun x =>
    let y := if b = 0 then x.1 else (divV x.1 (q4Sigma b)).1
    let c := q4Nearest ty x.1 y
    (c, x.2 ||| (if eqV y (q4Code ty c) then 0 else 1))
  ⟨r.map fun x => x.1, b + 64 * ty, r.foldl (fun e x => e ||| x.2) 0⟩

/-- The index of a normalised value among the entries of a codebook: the number of midpoints below it, and of two indices
at a midpoint the even one (R38). -/
def c4Index (book : List Nat) (y : Val) : Nat :=
  let mid := fun (j : Nat) => mulV (sumV 0 [f16V (book.getD j 0), f16V (book.getD (j + 1) 0)]) (.fin false 1 2)
  let tie := (List.range 15).find? fun j => eqV y (mid j)
  match tie with
  | some j => if j % 2 = 0 then j else j + 1
  | none => ((List.range 15).filter fun j => ltV false (mid j) y).length

/-- Quantise a block to C4 through a codebook (R38). -/
def quantC4 (book : List Nat) (tau maxSrc : Val) (src : List Val) : Block :=
  let xs := src.map (blockIn tau maxSrc)
  let a := maxAbs (xs.map fun x => x.1)
  let mu := (deliver (fmtOf .f16) 3 true a).1
  let one : Val := .fin false 1 1
  let big := ltV false (f16V 0x7BFF) a
  let r := xs.map fun x =>
    let q := if mu = 0 then .fin false 0 1 else (divV x.1 (f16V mu)).1
    let y := if ltV false one q then one else if ltV false q one.negate then one.negate else q
    let c := c4Index book y
    (c, x.2 ||| (if eqV (c4Value book tau mu c) (mulV x.1 tau) then 0 else 1))
  ⟨r.map fun x => x.1, mu, r.foldl (fun e x => e ||| x.2) (if big then 1 else 0)⟩

/-- The largest finite magnitude of a type (R35); of C4, that of a block of maximum 65504 whose largest entry is 1.
(Log: 43 DEDUCED.) -/
def maxOf (ty : ElemTy) (tau : Val) : Val :=
  match ty with
  | .q4 => mulV (.fin false (224 * 16) 1) tau
  | .c4 => mulV (f16V 0x7BFF) tau
  | .i8 | .i16 | .i32 | .i64 | .r32 | .r64 => .fin false (2 ^ 63) 1
  | .f64 | .f32 | .bf16 | .f16 | .e4m3 | .e5m2 | .e3m2 | .e2m3 => decodeF (fmtOf ty) (fmtOf ty).maxCode

/-- The default codebook entries: k / 7.5 - 1 rounded to FP16 (R36). -/
def defaultBook : List Nat :=
  (List.range 16).map fun (k : Nat) =>
    (roundQ (fmtOf .f16) 0 true (2 * k < 15) (if 2 * k < 15 then 15 - 2 * k else 2 * k - 15) 15).1

/-- A codebook that R36 accepts: finite entries in [-1, 1], strictly ascending, at most one zero. -/
def bookOk (book : List Nat) : Bool :=
  book.length = 16 &&
  (book.all fun x => match f16V x with
    | .fin _ n d => n ≤ d
    | _ => false) &&
  (List.range 15).all fun j => ltV false (f16V (book.getD j 0)) (f16V (book.getD (j + 1) 0))

/-! ## Stored elements (R28, R30, R39) -/

/-- Bytes of the second plane hold so many elements each; C4 counts two bytes for a block (R30). -/
def perSecond : ElemTy → Nat
  | .e3m2 | .e2m3 => 4
  | .q4 => 32
  | .c4 => 16
  | .f64 | .f32 | .bf16 | .f16 | .e4m3 | .e5m2 | .i8 | .i16 | .i32 | .i64 | .r32 | .r64 => 1

/-- Bytes of an element of a type that is at least 8 bits wide. -/
def elemBytes (ty : ElemTy) : Nat := ty.width / 8

/-- Where the second plane begins, from the base of n elements (R30). -/
def secondPlane (n : Nat) : Nat := (n / 2 + 255) / 256 * 256

/-- Bytes stored for n elements, both planes (R30). -/
def storedBytes (ty : ElemTy) (n : Nat) : Nat :=
  if ty.isSub then n / 2 + n / perSecond ty else n * elemBytes ty

/-- The nibble of element i in a plane read through `rd` (R28). -/
def nibbleAt (rd : Nat → Nat) (base i : Nat) : Nat := rd (base + i / 2) / 16 ^ (i % 2) % 16

/-- The code of element i of two planes of n elements, with the scale byte or block maximum of its block (R30). -/
def planeElem (ty : ElemTy) (rd : Nat → Nat) (base n i : Nat) : Nat × Nat :=
  let two := base + secondPlane n
  let c := nibbleAt rd base i
  match ty with
  | .q4 => (c, rd (two + i / 32))
  | .c4 => (c, rd (two + 2 * (i / 32)) + 256 * rd (two + 2 * (i / 32) + 1))
  | _ => (4 * c + rd (two + i / 4) / 4 ^ (i % 4) % 4, 0)

/-- The exact value of a stored element: integers signed, residues as unsigned bits (R15, R34, R37). -/
def storedValue (ty : ElemTy) (book : List Nat) (tscale : Nat) (code aux : Nat) : Val :=
  match ty with
  | .q4 => q4Value (f32V tscale) aux code
  | .c4 => c4Value book (f32V tscale) aux code
  | .i8 | .i16 | .i32 | .i64 => intV (readInt ty.width false code)
  | .r32 | .r64 => intV code
  | .f64 | .f32 | .bf16 | .f16 | .e4m3 | .e5m2 | .e3m2 | .e2m3 => decodeF (fmtOf ty) code

/-- An exact value delivered into a type that is not scaled, RNE and saturating, integers signed (R20 to R27, R255). The
flag tells that the source is an integer, whose overflow raises nothing (R27). -/
def storeValue (ty : ElemTy) (fromInt : Bool) (v : Val) : Nat × Exc :=
  if ty.isFloat || ty = .e3m2 || ty = .e2m3 then deliver (fmtOf ty) 0 true v
  else
    let r := floatToInt ty.width false 0 v
    (r.1, if fromInt then 0 else r.2)

/-- Codes packed into bytes, the lower index in the lower bits (R28). -/
def packBits (w : Nat) : Nat → List Nat → List Nat
  | 0, _ => []
  | n + 1, l =>
    let per := 8 / w
    ((l.take per).foldr (fun c acc => c % 2 ^ w + 2 ^ w * acc) 0) :: packBits w n (l.drop per)

/-- Stored bytes of codes of one type, first plane then second, for whole blocks (R30). `aux` holds each block's scale byte
or maximum. -/
def imageOf (ty : ElemTy) (codes aux : List Nat) : List Nat × List Nat :=
  let n := codes.length
  match ty with
  | .q4 => (packBits 4 (n / 2) codes, aux)
  | .c4 => (packBits 4 (n / 2) codes, aux.flatMap fun x => [x % 256, x / 256])
  | .e3m2 | .e2m3 => (packBits 4 (n / 2) (codes.map (· / 4)), packBits 2 (n / 4) (codes.map (· % 4)))
  | .f64 | .f32 | .bf16 | .f16 | .e4m3 | .e5m2 | .i8 | .i16 | .i32 | .i64 | .r32 | .r64 =>
    (codes.flatMap fun c => (bytesOf c (elemBytes ty)).map BitVec.toNat, [])

/-! ## Layout records (R303, R306) -/

/-- Bits of a dword of a record. -/
def recFld (img d lo n : Nat) : Nat := fld img (64 * d + lo) n

/-- A signed stride of a record. -/
def strideAt (img d : Nat) : Int := (BitVec.ofNat 48 (recFld img d 0 48)).toInt

/-- A layout record as its fields stand (R303). -/
def recordFields (img : Nat) : Layout where
  kind := recFld img 0 0 4
  ty := (ElemTy.ofCode (recFld img 0 4 4)).getD .f32
  axis := recFld img 0 8 2
  qt := recFld img 0 10 2
  cb := recFld img 0 12 3
  ndim := recFld img 0 16 2 + 1
  loc := recFld img 0 18 2
  mexp := recFld img 0 20 4
  bsl := recFld img 0 24 5
  tscale := recFld img 0 32 32
  base := recFld img 1 0 55
  ext := [recFld img 2 0 32, recFld img 2 32 32, recFld img 3 0 32, recFld img 3 32 32]
  strides := [strideAt img 4, strideAt img 5, strideAt img 6, strideAt img 7]
  core := recFld img 4 48 11
  raen := recFld img 5 48 1 = 1
  rring := if recFld img 5 49 1 = 1 then .b else .a
  rcnt := recFld img 5 50 4 + 1
  book := []

/-- Extent and stride of a dimension. -/
def Layout.extent (l : Layout) (d : Nat) : Nat := l.ext.getD d 1
/-- Stride of a dimension in bytes. -/
def Layout.stride (l : Layout) (d : Nat) : Int := l.strides.getD d 0

/-- The record's own fields are outside R303, or a reserved bit is set (R306). The format fields of a scratchpad endpoint
are ignored (R303). (Log: 45, 70 DEDUCED.) -/
def recordBad (img : Nat) (l : Layout) (source : Bool) : Bool :=
  recFld img 0 15 1 ≠ 0 || recFld img 0 29 3 ≠ 0 || recFld img 1 55 9 ≠ 0 || recFld img 4 59 5 ≠ 0 ||
  recFld img 5 54 10 ≠ 0 || recFld img 6 48 16 ≠ 0 || recFld img 7 48 16 ≠ 0 ||
  4 < l.kind || l.loc = 3 || (2 ≤ l.kind && l.loc ≠ 2) || (l.loc = 2 && l.ndim ≤ l.axis) ||
  (if l.kind = 1 then l.mexp = 0 || 8 < l.mexp else l.mexp ≠ 0) || (if l.kind = 2 then 20 < l.bsl else l.bsl ≠ 0) ||
  (l.loc ≠ 2 && 2 ^ 21 ≤ l.base) ||
  ((List.range 4).any fun d => l.extent d = 0 || (l.ndim ≤ d && (l.extent d ≠ 1 || l.stride d ≠ 0))) ||
  (l.kind = 1 && (l.ndim < 2 || l.extent 0 % 2 ^ l.mexp ≠ 0 || l.extent 1 % 2 ^ l.mexp ≠ 0)) ||
  (source && l.raen) || (l.loc = 1 && 1280 ≤ l.core)

/-- A type is invalid for its kind, or its scale for its type (R31, R305). -/
def Layout.typeBad (l : Layout) : Bool :=
  (l.ty.isSub && (l.kind ≠ 0 || (List.range 4).any fun d => l.stride d ≠ 0)) ||
  ((l.ty = .q4 || l.ty = .c4) && !tscaleOk l.tscale)

/-- Base or a stride is not a multiple of the element size; two planes begin at a multiple of 256 (R30, R306).
(Log: 45 DEDUCED.) -/
def Layout.misaligned (l : Layout) : Bool :=
  if l.ty.isSub then l.base % 256 ≠ 0
  else l.base % elemBytes l.ty ≠ 0 || (List.range 4).any fun d => l.stride d % (elemBytes l.ty : Int) ≠ 0

/-- A record with the format of a scratchpad bank in place of its own (R166, R251). -/
def Layout.withBank (l : Layout) (fmt : Word) (books : Vector (List Nat) 8) : Layout :=
  let w := fmt.toNat
  { l with ty := (ElemTy.ofCode (fld w 0 4)).getD .f32, qt := fld w 4 2, axis := fld w 6 2, cb := fld w 8 3,
           tscale := fld w 32 32, book := books[fld w 8 3 % 8]'(Nat.mod_lt _ (by decide)) }

/-- The bank of a scratchpad address. -/
def bankAt (a : Nat) : Fin 16 := ⟨a / 131072 % 16, Nat.mod_lt _ (by decide)⟩

/-- The record as an endpoint of a team: a scratchpad endpoint takes its bank's format, in the team whose scratchpad it is
(R251). -/
def Team.endpoint (t : Team) (l : Layout) : Layout :=
  if l.loc = 2 then { l with book := t.books[l.cb % 8]'(Nat.mod_lt _ (by decide)) }
  else l.withBank t.bfmt[bankAt l.base] t.books

/-! ## Order and addresses of elements (R29, R304, R305) -/

/-- The extents in storage order: for two planes the axis first, padded to a multiple of 32 (R29, R305). -/
def Layout.axes (l : Layout) : List Nat :=
  if l.ty.isSub then l.axis :: (List.range 4).filter (· != l.axis) else List.range 4

/-- The stored extent of a dimension. -/
def Layout.stored (l : Layout) (d : Nat) : Nat :=
  if l.ty.isSub && d = l.axis then (l.extent d + 31) / 32 * 32 else l.extent d

/-- How many elements are stored, padding with them. -/
def Layout.count (l : Layout) : Nat := l.stored 0 * l.stored 1 * l.stored 2 * l.stored 3

/-- Every second bit of a Morton index from bit k (R304). -/
def unMorton (m : Nat) : Nat → Nat
  | 0 => 0
  | n + 1 => m % 2 + 2 * unMorton (m / 4) n

/-- The Morton index of two t-bit numbers (R304). -/
def morton (x y : Nat) : Nat → Nat
  | 0 => 0
  | n + 1 => x % 2 + 2 * (y % 2) + 4 * morton (x / 2) (y / 2) n

/-- The coordinates of storage index x; none for padding (R29, R304). -/
def Layout.coords (l : Layout) (x : Nat) : Option (List Nat) :=
  if l.kind = 1 then
    let z := 2 ^ l.mexp
    let m := x % (z * z)
    let t := x / (z * z)
    let n0 := l.extent 0 / z
    let n1 := l.extent 1 / z
    let u := t / (n0 * n1)
    some [t % n0 * z + unMorton m l.mexp, t / n0 % n1 * z + unMorton (m / 2) l.mexp, u % l.extent 2, u / l.extent 2]
  else
    let r := l.axes.foldl (fun (r : List (Nat × Nat) × Nat) d => (r.1 ++ [(d, r.2 % l.stored d)], r.2 / l.stored d)) ([], x)
    let c := (List.range 4).map fun d => ((r.1.find? fun p => p.1 = d).map fun p => p.2).getD 0
    if l.ty.isSub && l.extent l.axis ≤ c.getD l.axis 0 then none else some c

/-- The storage index of coordinates, for two planes (R305). -/
def Layout.indexOf (l : Layout) (c : List Nat) : Nat :=
  l.axes.foldr (fun d acc => c.getD d 0 + l.stored d * acc) 0

/-- The byte address of an element of at least 8 bits; `page` gives the block base that a block table's entry names
(R304). -/
def Layout.addr (l : Layout) (page : Nat → Nat) (c : List Nat) : Nat :=
  let lin := fun (n : Nat) => (List.range n).foldl (fun (a : Int) d => a + c.getD d 0 * l.stride d) 0
  let a : Int :=
    if l.kind = 1 then
      let z := 2 ^ l.mexp
      let m := morton (c.getD 0 0 % z) (c.getD 1 0 % z) l.mexp
      (l.base : Int) + (c.getD 0 0 / z : Nat) * l.stride 0 + (c.getD 1 0 / z : Nat) * l.stride 1 +
        c.getD 2 0 * l.stride 2 + c.getD 3 0 * l.stride 3 + (elemBytes l.ty * m : Nat)
    else if l.kind = 2 then
      let o := l.ndim - 1
      (page (c.getD o 0 / 2 ^ l.bsl) : Int) + (c.getD o 0 % 2 ^ l.bsl : Nat) * l.stride o + lin o
    else l.base + lin l.ndim
  (a % 2 ^ 64).toNat

/-- The bytes of storage index x: its own, or for two planes those of its code and of its block's second plane. -/
def Layout.bytesAt (l : Layout) (page : Nat → Nat) (x : Nat) : List Nat :=
  if l.ty.isSub then
    let two := l.base + secondPlane l.count
    match l.ty with
    | .q4 => [l.base + x / 2, two + x / 32]
    | .c4 => [l.base + x / 2, two + 2 * (x / 32), two + 2 * (x / 32) + 1]
    | _ => [l.base + x / 2, two + x / 4]
  else match l.coords x with
    | none => []
    | some c => (List.range (elemBytes l.ty)).map (l.addr page c + ·)

/-- The stored bytes of an image in order, first plane before second (R58, R257). -/
def Layout.imageAddrs (l : Layout) (page : Nat → Nat) : List Nat :=
  let n := l.count
  if l.ty.isSub then
    (List.range (n / 2)).map (l.base + ·) ++ (List.range (n / perSecond l.ty)).map (l.base + secondPlane n + ·)
  else (List.range n).flatMap (l.bytesAt page)

/-- The code of an element at coordinates, with its block's scale byte or maximum, read through `rd`. -/
def Layout.readElem (l : Layout) (rd : Nat → Nat) (page : Nat → Nat) (c : List Nat) : Nat × Nat :=
  if l.ty.isSub then planeElem l.ty rd l.base l.count (l.indexOf c)
  else ((List.range (elemBytes l.ty)).foldr (fun i acc => rd (l.addr page c + i) + 256 * acc) 0, 0)

/-- Some byte that an element is read from is tainted. -/
def Layout.readTaint (l : Layout) (tn : Nat → Bool) (page : Nat → Nat) (c : List Nat) : Bool :=
  (l.bytesAt page (if l.ty.isSub then l.indexOf c else 0)).any tn && l.ty.isSub ||
  (!l.ty.isSub && (List.range (elemBytes l.ty)).any fun i => tn (l.addr page c + i))

/-- The exact value of an element of an endpoint. -/
def Layout.value (l : Layout) (x : Nat × Nat) : Val := storedValue l.ty l.book l.tscale x.1 x.2

end Sys2Proof.Machine
end

