-- ==== Sys2Proof/Machine/Aperture.lean ====
section
/-! DEFINITION. Apertures: matching and the view transforms (R308 to R310), and writes scattered over stored units
(R296). -/

namespace Sys2Proof.Machine

/-! ## Scattered writes at the L2 -/

/-- A piece of a scattered write: a byte's address, its value, its bit enables and its taint. -/
structure Cellw where
  addr : Nat
  val : Nat
  en : Nat
  taint : Bool
  deriving DecidableEq, Repr

/-- The distinct values of a list, in order of first occurrence. -/
def distinct (l : List Nat) : List Nat := l.foldl (fun acc x => if acc.contains x then acc else acc ++ [x]) []

/-- Write cells at the L2, each 32-byte unit once (R296, R338). -/
def State.l2Cells (s : State) (k : Option (Fin 64)) (l : List Cellw) : State :=
  (distinct (l.map fun c => c.addr / 32)).foldl (fun (s : State) u =>
    let mine := l.filter fun c => c.addr / 32 = u
    let at_ := fun (f : Cellw → Nat) => mine.foldl (fun acc c => Nat.lor acc (f c * 256 ^ (c.addr % 32))) 0
    s.l2Write k (32 * u) 32 (at_ fun c => Nat.land c.val c.en) (at_ Cellw.en) fun _ => mine.any (·.taint)) s

/-- Judge one access to scattered bytes, once for each sector, listed with the virtual address of the access's first byte in
it (R345, R347). -/
def State.judgedEach (s : State) (cid : Nat) (col : Col) (a : RecAcc) :
    List (Nat × Nat) → Except Trap (Bool × List Nat × State)
  | [] => .ok (false, [], s)
  | x :: l => match s.judged cid col a x.2 (256 * x.1) 1 with
    | .error e => .error e
    | .ok r => match r.2.judgedEach cid col a l with
      | .error e => .error e
      | .ok q => .ok (r.1.taint || q.1, r.1.rejected ++ q.2.1, q.2.2)

/-! ## Matching (R308, R310) -/

/-- An aperture's registers. -/
structure Aperture where
  base : Nat
  len : Nat
  job : Nat
  pbase : Nat
  ctl : Nat
  deriving DecidableEq, Repr

/-- An aperture of its four registers (R308). -/
def apertureOf (r : Vector Word 4) : Aperture :=
  ⟨fld r[0].toNat 16 39 * 65536, 65536 * fld r[1].toNat 0 32, fld r[1].toNat 32 32, fld r[2].toNat 16 36 * 65536, r[3].toNat⟩

/-- The fields of APCTL (R308). -/
def Aperture.valid (a : Aperture) : Bool := fld a.ctl 0 1 = 1
/-- WEN (R308). -/
def Aperture.wen (a : Aperture) : Bool := fld a.ctl 1 1 = 1
/-- VIEW (R308). -/
def Aperture.view (a : Aperture) : Nat := fld a.ctl 2 3
/-- STYPE (R308). -/
def Aperture.stype (a : Aperture) : ElemTy := (ElemTy.ofCode (fld a.ctl 5 4)).getD .f64
/-- VTYPE (R308). -/
def Aperture.vtype (a : Aperture) : ElemTy := (ElemTy.ofCode (fld a.ctl 9 4)).getD .f64
/-- TEXP (R308). -/
def Aperture.texp (a : Aperture) : Nat := fld a.ctl 13 4
/-- RLOG (R308). -/
def Aperture.rlog (a : Aperture) : Nat := fld a.ctl 17 4
/-- CB (R308). -/
def Aperture.cb (a : Aperture) : Fin 8 := ⟨fld a.ctl 21 3 % 8, Nat.mod_lt _ (by decide)⟩
/-- TSCALE (R308). -/
def Aperture.tscale (a : Aperture) : Nat := fld a.ctl 32 32

/-- The lowest-numbered valid aperture of a logical die that holds an address (R310). -/
def State.aperture (s : State) (z va : Nat) : Option Aperture :=
  ((s.die z).apertures.toList.map apertureOf).find? fun a => a.valid && a.base ≤ va && va < a.base + a.len

/-- The aperture that an access of n bytes by a job may use (R310). (Log: 74 DEDUCED.) -/
def State.apertureFor (s : State) (t : Team) (write : Bool) (va n : Nat) : Except Trap Aperture :=
  if 2 ^ 55 ≤ va then .error (.translation, BitVec.ofNat 64 va)
  else match s.aperture (dieOf t.cid) va with
    | none => .error (.protection, BitVec.ofNat 64 va)
    | some a =>
      if a.job ≠ t.job || (write && !a.wen) || a.base + a.len < va + n then .error (.protection, BitVec.ofNat 64 va)
      else .ok a

/-! ## Views (R309) -/

/-- How many view elements an aperture has (R309). -/
def Aperture.count (a : Aperture) : Nat := 8 * a.len / a.vtype.width

/-- The stored element that holds view element i (R309). -/
def Aperture.element (a : Aperture) (i : Nat) : Nat :=
  let t := a.texp
  match a.view with
  | 2 =>
    let w := i % 4 ^ t
    (i - w) + (w % 2 ^ t) * 2 ^ t + w / 2 ^ t
  | 4 =>
    let y := i / 2 ^ (t + a.rlog)
    let x := i % 2 ^ (t + a.rlog)
    (y / 2 ^ t * 2 ^ a.rlog + x / 2 ^ t) * 4 ^ t + morton (x % 2 ^ t) (y % 2 ^ t) t
  | _ => i

/-- The stored bit, counted from PBASE, that holds bit j of the view; the decode view has none (R309). -/
def Aperture.storedBit (a : Aperture) (j : Nat) : Nat :=
  if a.view = 3 then
    let i := j / 6
    let b := j % 6
    if b < 2 then 8 * secondPlane a.count + 2 * i + b else 4 * i + (b - 2)
  else
    let w := a.vtype.width
    w * a.element (j / w) + j % w

/-- Bit k, counted in bits, of stored memory. -/
def State.bitAt (s : State) (k : Nat) : Nat := s.rawNat (k / 8) 1 / 2 ^ (k % 8) % 2

/-- n bits of the view from bit j, as stored (R309). -/
def State.viewBits (s : State) (a : Aperture) (j : Nat) : Nat → Nat
  | 0 => 0
  | n + 1 => s.bitAt (8 * a.pbase + a.storedBit j) + 2 * s.viewBits a (j + 1) n

/-- View element i under the decode view: its exact value rounded once, RNE and saturating, with the exceptions (R45,
R309). -/
def State.decoded (s : State) (a : Aperture) (books : Vector (List Nat) 8) (i : Nat) : Nat × BitVec 5 :=
  let rd := fun (x : Nat) => s.rawNat (a.pbase + x) 1
  let c := if a.stype.isSub then planeElem a.stype rd 0 a.count i else (rd i, 0)
  deliver (fmtOf a.vtype) 0 true (storedValue a.stype books[a.cb] a.tscale c.1 c.2)

/-- n bits of the decode view from bit j. -/
def State.decodedBits (s : State) (a : Aperture) (books : Vector (List Nat) 8) (j : Nat) : Nat → Nat
  | 0 => 0
  | n + 1 =>
    let w := a.vtype.width
    (s.decoded a books (j / w)).1 / 2 ^ (j % w) % 2 + 2 * s.decodedBits a books (j + 1) n

/-- The view elements that n bits of the view from bit j lie in. -/
def Aperture.elements (a : Aperture) (j n : Nat) : List Nat :=
  if n = 0 then [] else (List.range ((j + n - 1) / a.vtype.width + 1 - j / a.vtype.width)).map (j / a.vtype.width + ·)

/-- The stored bytes that n bits of the view from bit j touch, each with the first of those bits that touches it (R309,
R345). -/
def Aperture.touched (a : Aperture) (j n : Nat) : List (Nat × Nat) :=
  let l : List (Nat × Nat) :=
    if a.view = 1 then
      let r : Layout := { recordFields 0 with ty := a.stype, base := a.pbase, ext := [a.count, 1, 1, 1] }
      (a.elements j n).flatMap fun i =>
        (if a.stype.isSub then r.bytesAt (fun _ => 0) i else [a.pbase + i]).map fun b => (b, max j (i * a.vtype.width))
    else (List.range n).map fun k => (a.pbase + a.storedBit (j + k) / 8, j + k)
  l.foldl (fun acc x => if acc.any fun y => y.1 = x.1 then acc else acc ++ [x]) []

/-- The sectors of some bytes, each with the virtual address of the access's first byte in it: `va` names the access, whose
first bit is j (R347). -/
def sectorsAt (va j : Nat) (l : List (Nat × Nat)) : List (Nat × Nat) :=
  l.foldl (fun acc x => if acc.any fun y => y.1 = x.1 / 256 then acc else acc ++ [(x.1 / 256, va + (x.2 / 8 - j / 8))]) []

/-- Some byte of an aperture's buffer addresses no memory, or lies in a window that its job may not use: the protection fault
(R313, R460). -/
def State.bufferTrap (s : State) (a : Aperture) (va : Nat) (l : List (Nat × Nat)) : Option Trap :=
  if l.any fun b => !s.addressable b.1 || (fld b.1 51 1 = 1 && !s.windowOk a.job b.1) then
    some (.protection, BitVec.ofNat 64 va)
  else none

/-- A read of an aperture: its bits, their taint, the exceptions of the decode view's conversions, and the state after it. -/
abbrev ViewGot := Nat × Bool × BitVec 5 × State

/-- Read n bits of an aperture from view bit j; `va` names the access (R45, R127, R309, R310, R313, R345).
(Log: 165 DEDUCED.) -/
def State.viewRead (s : State) (cid : Nat) (col : Col) (a : Aperture) (va j n : Nat) : Except Trap ViewGot :=
  let touched := a.touched j n
  let bytes := touched.map fun x => x.1
  match s.bufferTrap a va touched with
  | some e => .error e
  | none =>
    match touched.find? fun x => s.poisoned x.1 1 with
    | some x => .error (s.eccCause (x.1 / 32), BitVec.ofNat 64 (va + (x.2 / 8 - j / 8)))
    | none => match s.judgedEach cid col .read (sectorsAt va j touched) with
      | .error e => .error e
      | .ok r =>
        let books := match s.team cid with
          | some t => t.books
          | none => Vector.replicate 8 []
        let x := if a.view = 1 then s.decodedBits a books j n else s.viewBits a j n
        let exc := if a.view = 1 then (a.elements j n).foldl (fun e i => e ||| (s.decoded a books i).2) 0 else 0
        .ok (x, r.1 || bytes.any fun b => s.unitTaint (b / 32), exc,
          (distinct (bytes.map (· / 32))).foldl (fun (s' : State) u => s'.corrected (s'.team cid) (32 * u) 32) r.2.2)

/-- The stored bits that n view bits from bit j write, as cells (R309). -/
def Aperture.cells (a : Aperture) (j x : Nat) (taint : Bool) (n : Nat) : List Cellw :=
  (List.range n).map fun k =>
    let p := 8 * a.pbase + a.storedBit (j + k)
    ⟨p / 8, x / 2 ^ k % 2 * 2 ^ (p % 8), 2 ^ (p % 8), taint⟩

/-- Write n bits of an aperture from view bit j (R309, R310, R345, R348). -/
def State.viewWrite (s : State) (cid : Nat) (col : Col) (a : Aperture) (va j x n : Nat) (taint : Bool) : Except Trap State :=
  let cells := a.cells j x taint n
  let touched := a.touched j n
  match s.bufferTrap a va touched with
  | some e => .error e
  | none => match s.judgedEach cid col .write (sectorsAt va j touched) with
    | .error e => .error e
    | .ok r =>
      let kept := cells.filter fun c => !r.2.1.contains (c.addr / 256)
      .ok ((r.2.2.l2Cells none kept).markTaint cid (taint && !kept.isEmpty))

end Sys2Proof.Machine
end

