-- ==== Sys2Proof/Machine/Operands.lean ====
section
/-! DEFINITION. The operands of vec words: elements of registers, queues, latch and broadcasts (R63 to R69), what a word
writes slice by slice (R78, R177), taint (R180), the checks before issue (R65, R68, R79, R181), and the landing of a
slice. -/

namespace Sys2Proof.Machine

/-! ## Elements -/

/-- Element e of row y of an image, at width w (R63). -/
def elemOf (v : VImage) (w y e : Nat) : Nat := fld v.toNat (1024 * y + w * e) w

/-- Some of the 32-bit words that element e of row y covers is tainted (R180). -/
def elemTaint (v : VVal) (w y e : Nat) : Bool :=
  v.taint.getLsbD (32 * y + w * e / 32) || (w = 64 && v.taint.getLsbD (32 * y + w * e / 32 + 1))

/-- The active rows of a word issued now (R63, R176). -/
def Team.rows (t : Team) : Nat := t.vshape.toNat % 32
/-- The active bytes of a row, in units of 8 (R63). -/
def Team.rowb (t : Team) : Nat := t.vshape.toNat / 256 % 32
/-- The element count of a row at width w (R176). -/
def Team.elems (t : Team) (w : Nat) : Nat := 64 * t.rowb / w
/-- The rounding mode in force (R43). -/
def Team.mode (t : Team) : Mode := t.vrm.toNat % 8
/-- The saturation setting in force (R22). -/
def Team.sat (t : Team) : Bool := t.vsat.getLsbD 0

/-- The image that a source names, if it is no broadcast (R66). -/
def Team.image (t : Team) : VSrc → Option VVal
  | .v r => some (t.v.get r.toFin)
  | .o r => some (t.o.get r.toFin)
  | .q r => some (headV (t.qAt r))
  | .lat => some t.lat
  | .s _ | .imm _ => none

/-- The value of a broadcast immediate (R66). (Log: 37 DEDUCED.) -/
def immVal (k : BitVec 5) : Int := (k.toNat : Int) - 16

/-- An integer as the low bits of an element, or converted to a floating-point element under the mode; one that the type cannot
hold is rounded and raises nothing (R26, R45, R66). (Log: 37 DEDUCED.) -/
def immCode (t : Team) (ty : ElemTy) (x : Int) : Nat :=
  if ty.isFloat then (deliver (fmtOf ty) t.mode t.sat (intV x)).1 else lowBits ty.width x

/-- Element e of row y of a source read as type ty; `imm` gives a broadcast immediate's code in row y (R66). -/
def Team.readWith (t : Team) (imm : Nat → Int → Nat) (ty : ElemTy) (x : VSrc) (y e : Nat) : Nat :=
  match t.image x with
  | some v => elemOf v.bits ty.width y e
  | none => match x with
    | .s r => (t.getS r).v.toNat % 2 ^ ty.width
    | .imm k => imm y (immVal k)
    | .v _ | .o _ | .q _ | .lat => 0

/-- Element e of row y of a source read as type ty (R66). -/
def Team.read (t : Team) (ty : ElemTy) (x : VSrc) (y e : Nat) : Nat := t.readWith (fun _ => immCode t ty) ty x y e

/-- The taint of element e of row y of a source (R180). -/
def Team.readTaint (t : Team) (w : Nat) (x : VSrc) (y e : Nat) : Bool :=
  match t.image x with
  | some v => elemTaint v w y e
  | none => match x with
    | .s r => (t.getS r).t
    | .v _ | .o _ | .q _ | .lat | .imm _ => false

/-- The whole image of a source; a broadcast fills it with elements of type ty (R66, R198, R204). -/
def Team.whole (t : Team) (ty : ElemTy) (x : VSrc) : VVal :=
  match t.image x with
  | some v => v
  | none =>
    let n := 16384 / ty.width
    let code := t.read ty x 0 0
    ⟨BitVec.ofNat 16384 ((List.range n).foldl (fun acc _ => acc * 2 ^ ty.width + code) 0),
     if t.readTaint ty.width x 0 0 then BitVec.allOnes 512 else 0⟩

/-- Element e of row y is enabled by the mask (R69). -/
def Team.enabled (t : Team) (m : Mask) (y e : Nat) : Bool := (t.getK m.k).bits.getLsbD (128 * y + e) != m.inv

/-- The taint of the mask row that enables the elements of row y (R180). -/
def Team.maskTaint (t : Team) (m : Mask) (y : Nat) : Bool := (t.getK m.k).taint.getLsbD y

/-! ## What a word writes -/

/-- An element that a word writes: its bits, taint and exceptions. -/
structure Elem where
  v : Nat
  t : Bool
  exc : Exc
  deriving DecidableEq, Repr

/-- Bits written: their values, which of them are written, new taint of each 32-bit word, and the exceptions. For a mask
destination the bits are mask bits and the taint has one bit for each row. -/
structure VOut where
  data : Nat
  en : Nat
  taint : Nat
  exc : Exc
  deriving DecidableEq, Repr

/-- Nothing written. -/
def VOut.none : VOut := ⟨0, 0, 0, 0⟩

/-- The taint bits of the 32-bit words that w bits from bit lo of a row touch. -/
def wordBits (lo w : Nat) : Nat :=
  if w = 64 then 3 * 2 ^ (lo / 32) else 2 ^ (lo / 32)

/-- One more field of w bits at bit lo of what a row writes. -/
def VOut.put (r : VOut) (lo w : Nat) (x : Elem) : VOut :=
  ⟨r.data + x.v % 2 ^ w * 2 ^ lo, r.en + (2 ^ w - 1) * 2 ^ lo,
   if x.t then r.taint ||| wordBits lo w else r.taint, r.exc ||| x.exc⟩

/-- What a row writes: elements 0 to n - 1 of width w; `none` is a disabled element. -/
def rowOut (w : Nat) (f : Nat → Option Elem) : Nat → VOut
  | 0 => .none
  | n + 1 => match f n with
    | none => rowOut w f n
    | some x => (rowOut w f n).put (w * n) w x

/-- Rows 0 to n - 1 of what a word writes. -/
def rowsOut (f : Nat → VOut) : Nat → VOut
  | 0 => .none
  | n + 1 =>
    let r := rowsOut f n
    let x := f n
    ⟨r.data + x.data * 2 ^ (1024 * n), r.en + x.en * 2 ^ (1024 * n), r.taint + x.taint * 2 ^ (32 * n), r.exc ||| x.exc⟩

/-- What a word writes of elements of width w in n-element active rows (R64, R176). -/
def gridOut (rows w n : Nat) (f : Nat → Nat → Option Elem) : VOut := rowsOut (fun y => rowOut w (f y) n) rows

/-- What an elementwise word writes: each enabled active element from its sources' elements, tainted with them and its
mask row (R69, R176, R180). -/
def elemOut (t : Team) (w n : Nat) (m : Mask) (taint : Nat → Nat → Bool) (f : Nat → Nat → Nat × Exc) : VOut :=
  gridOut t.rows w n fun y e =>
    if t.enabled m y e then
      let r := f y e
      some ⟨r.1, taint y e || t.maskTaint m y, r.2⟩
    else none

/-- Mask bits of a row: elements 0 to n - 1, then clear bits to 127 (R69, R184). (Log: 153 DEDUCED.) -/
def maskRow (f : Nat → Option Elem) (n : Nat) : VOut :=
  let r := rowOut 1 f n
  { r with en := r.en + (2 ^ (128 - n) - 1) * 2 ^ n, taint := if r.taint = 0 then 0 else 1 }

/-- What a compare writes into a mask (R184, R206). -/
def maskOut (rows n : Nat) (f : Nat → Nat → Option Elem) : VOut :=
  go rows
where
  /-- Mask rows 0 to k - 1. -/
  go : Nat → VOut
    | 0 => .none
    | k + 1 =>
      let r := go k
      let x := maskRow (f k) n
      ⟨r.data + x.data * 2 ^ (128 * k), r.en + x.en * 2 ^ (128 * k), r.taint + x.taint * 2 ^ k, r.exc ||| x.exc⟩

/-! ## Landing -/

/-- The bits of rows row0 to row0 + rows - 1, with `w` bits in a row. -/
def rowsMask (w row0 rows : Nat) : Nat := (2 ^ (w * rows) - 1) * 2 ^ (w * row0)

/-- Old content with the enabled bits replaced. -/
def blend {n : Nat} (old new en : BitVec n) : BitVec n := (old &&& ~~~en) ||| (new &&& en)

/-- The taint of 32-bit words 0 to n - 1 after a write: a word wholly written takes its new taint, one partly written the
OR of both, and one not written keeps its own (R180). -/
def taintAfter (old new : BitVec 512) (en : Nat) : Nat → Nat
  | 0 => 0
  | n + 1 =>
    let e := fld en (32 * n) 32
    let b := if e = 2 ^ 32 - 1 then new.getLsbD n
      else if e = 0 then old.getLsbD n else old.getLsbD n || new.getLsbD n
    taintAfter old new en n + (if b then 2 ^ n else 0)

/-- A register's content after a slice has landed in its rows (R177). -/
def writeSlice (v : VVal) (x : Slice) : VVal :=
  let en := x.en &&& BitVec.ofNat 16384 (rowsMask 1024 x.row0 x.rows)
  ⟨blend v.bits x.data en, BitVec.ofNat 512 (taintAfter v.taint x.taint en.toNat 512)⟩

/-- lat with some rows copied from another value (R177). -/
def copyRows (v w : VVal) (row0 rows : Nat) : VVal :=
  ⟨blend v.bits w.bits (BitVec.ofNat 16384 (rowsMask 1024 row0 rows)),
   blend v.taint w.taint (BitVec.ofNat 512 (rowsMask 32 row0 rows))⟩

/-- The content of a destination before a slice lands; a w entry that qclr has discarded holds 0 (R68, R177). -/
def Team.dstOld (t : Team) (d : VDst) (entry : Nat) : VVal :=
  match d with
  | .v r => t.v.get r.toFin
  | .o r => t.o.get r.toFin
  | .lat => t.lat
  | .w q => match (t.wAt q).find? fun e => e.id = entry with
    | some e => e.v
    | none => ⟨0, 0⟩

/-- The team with a destination replaced; a w entry becomes visible with its last slice (R68). -/
def Team.setDst (t : Team) (d : VDst) (entry : Nat) (last : Bool) (x : VVal) : Team :=
  match d with
  | .v r => { t with v := t.v.set r.toNat x r.isLt }
  | .o r => { t with o := t.o.set r.toNat x r.isLt }
  | .lat => { t with lat := x }
  | .w q => t.setW q ((t.wAt q).map fun e => if e.id = entry then { e with v := x, landed := last } else e)

/-- A slice lands (R78, R177): its destination's rows, lat, and with the last slice the word's exceptions (R46). -/
def Team.landSlice (t : Team) (x : Slice) : Team :=
  let t := match x.dst with
    | .reg d entry =>
      let v := writeSlice (t.dstOld d entry) x
      let t := t.setDst d entry x.last v
      match x.lat with
      | .same => { t with lat := copyRows t.lat v x.row0 x.rows }
      | .value l => { t with lat := l }
      | .keep => t
    | .mask k =>
      let old := t.getK k
      let en : BitVec 2048 := BitVec.ofNat 2048 x.en.toNat &&& BitVec.ofNat 2048 (rowsMask 128 x.row0 x.rows)
      let te : BitVec 16 := BitVec.ofNat 16 (rowsMask 1 x.row0 x.rows)
      t.setK k ⟨blend old.bits (BitVec.ofNat 2048 x.data.toNat) en, blend old.taint (BitVec.ofNat 16 x.taint.toNat) te⟩
  { t with vexc := t.vexc ||| x.exc.setWidth 64 }

/-! ## What the operands read (R79) -/

/-- What a source operand reads, for R79. -/
def srcReads : VSrc → List RdName
  | .v r => [.sel r.toNat]
  | .o r => [.sel (0x40 + r.toNat)]
  | .lat => [.sel 0x50]
  | .s r => if r = 0 then [] else [.sel (0x80 + r.toNat)]
  | .q _ | .imm _ => []

/-- What a mask field reads; k0 is constant (R62, R79). -/
def maskReads (m : Mask) : List RdName := if m.k = 0 then [] else [.mask m.k.toNat]

/-! ## The issue of a vec word -/

/-- What a vec word reads and how it runs: source operands, mask, other registers read, latency, rows and port beats of a
slice (R65, R80), the bounds checks of its description, and the checks of its operands, in which one that is not present
reads 0 and passes (R181); `ty` is the type that a broadcast immediate is converted to. -/
structure VSpec where
  ins : List VSrc
  ty : Option ElemTy := none
  mask : Mask := ⟨0, false⟩
  other : List RdName := [.csr 0x12]
  lat : Nat
  sr : Nat := 8
  occ : Nat := 1
  bound : Team → Option Trap := fun _ => none
  range : Team → Option Trap := fun _ => none

/-- The queues that a word pops, each once (R68). -/
def popsOf : List VSrc → List (BitVec 2)
  | [] => []
  | .q r :: l => if (popsOf l).contains r then popsOf l else r :: popsOf l
  | _ :: l => popsOf l

/-- The first queue operand that is not present, by its selector (R68). -/
def missing (t : Team) (l : List VSrc) : Option Nat :=
  l.findSome? fun x => match x with
    | .q r => if lacks (t.qAt r) 1 then some (0x48 + r.toNat) else none
    | _ => none

/-- The distinct main-file registers that a word reads (R65). -/
def mainReads : List VSrc → List (BitVec 6)
  | [] => []
  | .v r :: l => if (mainReads l).contains r then mainReads l else r :: mainReads l
  | _ :: l => mainReads l

/-- Slices of a word (R78). -/
def sliceCount (rows sr : Nat) : Nat := (rows + sr - 1) / sr

/-- The beats a vec word holds its port (R65, R78). -/
def VSpec.beats (x : VSpec) (t : Team) : Nat :=
  sliceCount t.rows x.sr * x.occ + (if (mainReads x.ins).length = 3 then 1 else 0)

/-- A broadcast immediate that the word converts to a floating-point type reads VRM and VSAT (R66, R79). -/
def VSpec.immReads (x : VSpec) : List RdName :=
  let imm := x.ins.any fun i => match i with
    | .imm _ => true
    | _ => false
  if imm && (match x.ty with | some ty => ty.isFloat | none => false) then [.csr 0x10, .csr 0x11] else []

/-- The gate of a vec word (R181): bounds before the queue operands when the column is timed, and at the beat of its issue
when it is elastic; the checks of the operands that are present, before the schedule fault (R209). -/
def VSpec.gate (x : VSpec) (wq : Option VDst) (s : State) (t : Team) : Gate :=
  { fault := if (t.col .vec).timed then x.bound t else none,
    under := missing t x.ins,
    stall := match wq with
      | some (.w q) => full (t.wAt q)
      | _ => false,
    range := (x.bound t).orElse fun _ => x.range t,
    late := earlyRead s t (x.ins.flatMap srcReads ++ maskReads x.mask ++ x.other ++ x.immReads),
    occ := x.beats t }

/-- The team with the queues of a word popped (R68). -/
def Team.popQs (t : Team) (l : List (BitVec 2)) : Team := l.foldl (fun t r => t.setQ r (t.qAt r).tail) t

/-- The slices of a word's result from row 0 on (R78). -/
def slicesOf (dst : SliceDst) (o : VOut) (lm : LatMode) (rows sr : Nat) (i : Nat) : Slice :=
  let row0 := i * sr
  let n := min sr (rows - row0)
  let last := sliceCount rows sr ≤ i + 1
  { dst := dst, row0 := row0, rows := n, data := BitVec.ofNat 16384 o.data, en := BitVec.ofNat 16384 o.en,
    taint := BitVec.ofNat 512 o.taint, lat := lm, exc := if last then o.exc else 0, last := last }

/-- The team with slices 0 to n - 1 of a result due (R78). -/
def Team.sendSlices (t : Team) (cx : Cur) (lat occ : Nat) (f : Nat → Slice) : Nat → Team
  | 0 => t
  | n + 1 => (t.sendSlices cx lat occ f n).later .vec ⟨t.clk + lat + n * occ, rankLand, cx, .sliceLands (f n)⟩

/-- The register that a destination names; a mask is none. -/
def dstReg : SliceDst → Option VDst
  | .reg v _ => some v
  | .mask _ => none

/-- A destination with the number of the word that writes it, which names its entry of a w queue (R68). -/
def dstOf (id : Nat) : SliceDst → SliceDst
  | .reg v _ => .reg v id
  | .mask k => .mask k

/-- The team with an entry of a w queue reserved, if the destination is one (R68). -/
def Team.reserveW (t : Team) (id : Nat) : SliceDst → Team
  | .reg (.w q) _ => t.setW q (t.wAt q ++ [⟨id, false, ⟨0, 0⟩⟩])
  | _ => t

/-- What a vec word does once it issues (R176 to R181): sources are read and queues popped, a w queue's entry is reserved, and
the result lands slice by slice; the SIGNAL fires with the last. `rows` is how many rows the result has. -/
def vecEffect (x : VSpec) (d : SliceDst) (rows : Team → Nat) (lm : Team → LatMode) (out : Team → VOut) (s : State) (t : Team) :
    State :=
  let n := sliceCount (rows t) x.sr
  let u := (t.popQs (popsOf x.ins)).reserveW s.cur.id d
  let u := u.sendSlices s.cur x.lat x.occ (slicesOf (dstOf s.cur.id d) (out t) (lm t) (rows t) x.sr) n
  s.setTeam (u.signalAt s.cur (t.clk + x.lat + (n - 1) * x.occ))

/-- A VEC WORD WITH A RESULT (R176 to R181). -/
def vecOut (s : State) (x : VSpec) (d : SliceDst) (rows : Team → Nat) (lm : Team → LatMode) (out : Team → VOut) :
    Host.Outcome State Fault Refusal := runWord s (x.gate (dstReg d)) (vecEffect x d rows lm out)

/-- A vec word whose result goes to a register and to lat. -/
def vecReg (s : State) (x : VSpec) (d : VDst) (out : Team → VOut) : Host.Outcome State Fault Refusal :=
  vecOut s x (.reg d 0) Team.rows (fun _ => .same) out

/-- A vec word whose result goes to a mask. -/
def vecMask (s : State) (x : VSpec) (k : BitVec 3) (out : Team → VOut) : Host.Outcome State Fault Refusal :=
  vecOut s x (.mask k) Team.rows (fun _ => .keep) out

/-- What a vec word that writes another register of vec does once it issues (R80). -/
def vecWriteEffect (x : VSpec) (w : Team → RegWrite) (s : State) (t : Team) : State :=
  s.setTeam (((t.popQs (popsOf x.ins)).land s.cur (t.clk + x.lat) (w t)).signalAt s.cur (t.clk + x.lat))

/-- A vec word that writes another register of vec at its latency (R80). -/
def vecWrite (s : State) (x : VSpec) (w : Team → RegWrite) : Host.Outcome State Fault Refusal :=
  runWord s (fun s t => { x.gate none s t with occ := x.occ }) (vecWriteEffect x w)

/-- The reads of a floating-point word beside its operands: VSHAPE, VRM and VSAT (R176). -/
def fpReads : List RdName := [.csr 0x12, .csr 0x10, .csr 0x11]

end Sys2Proof.Machine
end

