-- ==== Sys2Proof/Machine/Events.lean ====
section
/-! DEFINITION. What happens in a team between words: landings, signals, alignment pulses (R174), the overdue trap (R175),
freezes with handler entry (R291, R379 to R382, R390), interrupts of the timer (R389), and the wait of words that
perform later. -/

namespace Sys2Proof.Machine

/-! ## Landings (R74, R92) -/

/-- The inbox with its configuration replaced: active, expecting SEQ, with no number yet applied (R244, R246).
(Log: 63 DEDUCED.) -/
def Inbox.configure (x : Inbox) (g : Nat) (v : Word) : Inbox :=
  { x with g := g, cfg := v, seq := fld v.toNat 0 12, active := true, applied := [] }

/-- The type and shape that the inbox expects (R244). -/
def Inbox.shape (x : Inbox) : Nat × Nat × Nat :=
  (fld x.cfg.toNat 21 2, 16 * (fld x.cfg.toNat 12 5 + 1), 16 * (fld x.cfg.toNat 17 4 + 1))

/-- The reduction-order fault of a contribution, recorded in mat (R246, R248). (Log: 63 DEDUCED.) -/
def Team.orderFault (t : Team) (c : Contribution) : Team :=
  t.pendTrap .mat (t.col .mat).head .reduction (BitVec.ofNat 64 (c.seq % 2 ^ 12 + c.sender % 2 ^ 11 * 2 ^ 16)) 0 t.clk

/-- An early contribution whose number is now expected is applied next, from the inbox (R245); one of another type or shape
raises the reduction-order fault (R246). -/
def Team.takeEarly (t : Team) : Team :=
  match t.inbox.early with
  | [] => t
  | c :: _ =>
    if !t.inbox.active || t.inbox.busy || c.seq != t.inbox.seq then t
    else if (c.acc, c.m, c.n) ≠ t.inbox.shape then ({ t with inbox := { t.inbox with early := [] } } : Team).orderFault c
    else { t with inbox := { t.inbox with rows := t.inbox.early, early := [], row := 0, busy := true } }

/-- A register write landing (R74). -/
def State.landWrite (s : State) (t : Team) (w : RegWrite) : Team :=
  match w with
  | .s r v tn => t.setS r ⟨v, tn⟩
  | .a r v tn => t.setA r ⟨v, tn⟩
  | .csr op n v tn => t.landCsr (s.beatOf t) (s.csr t n) op n v tn
  | .pat p x => { t with p := t.p.set p.toNat (some x) p.isLt }
  | .bfmt n v => { t with bfmt := t.bfmt.set (n % 16) v (Nat.mod_lt _ (by decide)) }
  | .mfmt v => { t with mfmt := v }
  | .mring a b => { t with mringA := a, mringB := b }
  | .mnest l d => { t with mnest := some ⟨l, d⟩ }
  | .minbox g v => ({ t with inbox := t.inbox.configure g v } : Team).takeEarly
  | .vshape r b => { t with vshape := shapeOf t.vshape r b }
  | .modset m l => { t with m := t.m.set m.toNat (l.foldl (fun x e =>
      x.set (e.1 % 16) (some e.2) (Nat.mod_lt _ (by decide))) (t.m.get m.toFin)) m.isLt }
  | .bitpat n v tn => { t with n := t.n.set n.toNat ⟨v, tn⟩ n.isLt }
  | .tab n f nodes tn => { t with tab := t.tab.set n.toNat ⟨true, f, nodes, tn⟩ n.isLt }
  | .tail c v => t.modCol c fun x => { x with tail := v }
  | .elastic c => t.modCol c fun x => { x with timed := false }

/-- REGISTER_WRITE_LANDS (R74, R77). An inbox configuration waits until the application in progress has committed, and the
SIGNAL of its minbox fires once it is active (R92, R244). -/
def execRegisterWriteLands (w : RegWrite) (s : State) : Host.Outcome State Fault Refusal :=
  onTeam s fun t =>
    match w with
    | .minbox _ _ =>
      if !t.inbox.busy then s.setTeam ((s.landWrite t w).signalAt s.cur (t.clock s.cur.col))
      else s.setTeam { t with waiting := t.waiting ++ [⟨0, rankWait, s.cur, .registerWriteLands w⟩] }
    | _ => s.setTeam (s.landWrite t w)

/-- QUEUE_ENTRY_LANDS fills the entry reserved at issue, unless qclr has discarded it (R68, R161, R168). -/
def execQueueEntryLands (q : BitVec 2) (entry : Nat) (v : VVal) (s : State) : Host.Outcome State Fault Refusal :=
  onTeam s fun t => s.setTeam (t.setQ q ((t.qAt q).map fun e => if e.id = entry then ⟨e.id, true, v⟩ else e))

/-- SIGNAL_FIRE (R91, R92, R139): the event of the code, held back until every earlier access of its column has performed,
since a SIGNAL and a csig are releases (R335). (Log: 14 DEDUCED.) -/
def execSignalFire (e : SigEvent) (s : State) : Host.Outcome State Fault Refusal :=
  onTeam s fun t =>
    if e != .code .none && t.accessBefore s.cur.col s.cur.id then
      s.setTeam { t with waiting := t.waiting ++ [⟨0, rankEvent e, s.cur, .signalFire e⟩] }
    else s.fire t s.cur e

/-- BARRIER_COMPLETION_OBSERVED: the team's streams see the generation complete (R284, R285). -/
def execBarrierCompletionObserved (b : BitVec 3) (gen : Nat) (s : State) : Host.Outcome State Fault Refusal :=
  onTeam s fun t =>
    let x := t.bars.get b.toFin
    s.setTeam { t with bars := t.bars.set b.toNat { x with seen := max x.seen gen } b.isLt }

/-- LINK_INCREMENT_ARRIVES at the counter it names (R72, R92). -/
def execLinkIncrementArrives (j : BitVec 5) (n : Nat) (s : State) : Host.Outcome State Fault Refusal :=
  onTeam s fun t => s.setTeam (t.addCnt j n)

/-! ## Words that perform later -/

/-- Every earlier word of the column has performed (R172, R174). (Log: 76 DEDUCED.) -/
def Team.quietBefore (t : Team) (c : Col) (id : Nat) : Bool :=
  !(t.inFlight.any fun p => p.cx.col = c && p.cx.id < id) &&
  (c != .cpy || ((t.copies.all fun k => id ≤ k.cx.id) && t.cpx.all fun k => id ≤ k.cx.id)) &&
  (c != .mat || t.engine.all fun j => id ≤ j.id)

/-- An acs store of an earlier word has still to perform (R167). -/
def Team.storesBefore (t : Team) (id : Nat) : Bool :=
  t.inFlight.any fun p => p.cx.id < id && match p.act with
    | .sq .. | .sqx .. | .sqg .. => true
    | _ => false

/-- A waiting word's condition holds. -/
def Team.waitReady (t : Team) (p : Pend) : Bool :=
  match p.act with
  | .rdv => t.quietBefore p.cx.col p.cx.id
  | .bar b => t.barDone (t.col p.cx.col) b
  | .cwait c a => cwaitHolds t c a
  | .radv .. => !t.storesBefore p.cx.id
  | .hoop .. | .copyChunk => false
  | .signalFire _ => !t.accessBefore p.cx.col p.cx.id
  | .registerWriteLands _ => !t.inbox.busy
  | _ => true

/-! ## Alignment (R174) -/

/-- A stream takes part in alignments: it has a ring and has not performed rdv (R174, R282). -/
def Column.takesPart (x : Column) : Bool := !x.ended

/-- The teams of a group. -/
def State.groupTeams (s : State) (g : Group) : List Team := s.teams.filter fun t => t.inGroup g

/-- The channel programs of a group that have not ended (R174). -/
def State.groupProgs (s : State) (g : Group) : List (Pc × ChanProg) :=
  match g with
  | .team _ => []
  | .launch h => s.pcs.filterMap fun p => match p.prog with
    | some x => if x.launch = h && !x.st.ended then some (p, x) else none
    | none => none

/-- The five columns (R60). -/
def columns : List Col := [.ctl, .acs, .vec, .mat, .cpy]

/-- The hoops of a group's columns with the waiting words of the hoops. -/
def Team.hoops (t : Team) : List (Col × HoopRec) :=
  columns.filterMap fun c => (t.col c).hoop.map fun h => (c, h)

/-- Every column of the team that takes part has issued its hoop and performed every earlier word (R174). -/
def Team.aligned (t : Team) : Bool :=
  columns.all fun c =>
    let x := t.col c
    !x.takesPart || (x.hoop.isSome && !x.stopped &&
      match t.waiting.find? fun p => p.cx.col = c && (match p.act with | .hoop .. => true | _ => false) with
      | some p => t.quietBefore c p.cx.id
      | none => true)

/-- A stream of the group that stands in the team takes part: one of its columns, or a channel program that it owns
(R174, R276). -/
def State.participates (s : State) (t : Team) : Bool :=
  columns.any (fun c => (t.col c).takesPart) || (s.groupProgs t.group).any fun p => p.2.owner = t.cid

/-- The teams of a group in which a stream takes part. -/
def State.groupParts (s : State) (g : Group) : List Team := (s.groupTeams g).filter s.participates

/-- Some stream of the group takes part. -/
def State.anyPart (s : State) (g : Group) : Bool := !(s.groupParts g).isEmpty

/-- The alignment of a group is complete, and its pulse has not been scheduled (R174). -/
def State.aligns (s : State) (g : Group) : Bool :=
  s.anyPart g && (s.groupTeams g).all (fun t => t.aligned && t.landed && !(t.pend.any fun p => match p.act with
    | .rdL2Fill .. => true
    | _ => false)) &&
  (s.groupProgs g).all (fun p => p.2.st.hoop.isSome && !p.2.st.stopped) &&
  ((s.groupTeams g).any (fun t => t.hoops.any fun h => !h.2.joined))

/-- The groups of the live teams, each once, in ascending order of their first team. -/
def State.groups (s : State) : List Group :=
  s.teams.foldl (fun l t => if l.contains t.group then l else l ++ [t.group]) []

/-- Mark the hoops of a column as joined. -/
def Team.markJoined (t : Team) : Team :=
  { t with cols := t.cols.map fun (x : Column) => ({ x with hoop := x.hoop.map fun h => { h with joined := true } } : Column) }

/-- The state with the pulse of every complete alignment due 512 beats after this beat (R174). -/
def State.schedulePulses (s : State) : State :=
  s.groups.foldl (fun s g =>
    if s.aligns g then
      match s.groupTeams g with
      | [] => s
      | t :: _ =>
        let cx := { Cur.none with cid := t.cid }
        let u := { t with pend := insertPend ⟨t.clk + 512, rankLand, cx, .alignmentPulse g⟩ t.pend }
        let s := s.setTeam u
        { s with teams := s.teams.map fun v => if v.inGroup g then v.markJoined else v }
    else s) s

/-- The jobs with a team on each of some dies, each pair once (R427). -/
def State.jobDies (s : State) (dies : List Nat) : List (Nat × Nat) :=
  s.teams.foldl (fun l t =>
    let x := (t.job, dieOf t.cid)
    if dies.contains x.2 && !l.contains x then l ++ [x] else l) []

/-- A column past its pulse: timed, its next word scheduled from P = H (R174). -/
def Column.pulse (x : Column) (clk : Nat) : Column :=
  if x.hoop.isSome then
    { x with hoop := none, timed := true, next := clk + 1, portFree := clk, floor := 0, tried := false }
  else x

/-- The SIGNALs of a team's hoops fire at the pulse (R174). -/
def Team.pulseSignals (t : Team) : Team :=
  let isHoop := fun (p : Pend) => match p.act with | .hoop .. => true | _ => false
  (t.waiting.filter isHoop).foldl (fun u p => u.signalAt p.cx u.clk)
    { t with waiting := t.waiting.filter fun p => !isHoop p }

/-- The refreshes of a bank that some ticks of a program's schedule call for: one in each tREFI, or in each half of it under
beat interleave (R320, R322). -/
def State.refreshesDue (s : State) (pc ticks : Nat) : Nat :=
  ticks * (if s.kensia.interleave then 2 else 1) / Config.fusedTiming (rimOf pc) 12

/-- What a rise of the hot debt takes of `hotQ`: tREFI ticks (R321). -/
def hotRise (pc : Nat) : Nat := 4 * Config.fusedTiming (rimOf pc) 12

/-- The stack of a pseudo-channel is above 85 degrees (R311, R321). -/
def State.hot (s : State) (pc : Nat) : Bool := s.temps.any fun x => x.1 = pc / 64 && 0 < x.2

/-- A beat of a program's schedule has passed, spent above 85 degrees: it counts towards the next rise of the hot debt, fourfold
under beat interleave (R321, R322). (Log: 83 DEDUCED.) -/
def State.countHot (s : State) (p : Pc) : Pc :=
  match p.prog with
  | none => p
  | some g => match s.team g.owner with
    | none => p
    | some t =>
      if !s.hot p.pc || g.st.ended || g.st.stopped || !g.st.timed || t.frozen then p
      else { p with hotQ := p.hotQ + (if s.kensia.interleave then 8 else 2) }

/-- ALIGNMENT_PULSE (R174): a requested stretch is inserted first (R292); then every participant enters timed mode with
BEAT at H, or the group raises the schedule fault. (Log: 97 DEDUCED.) -/
def execAlignmentPulse (g : Group) (s : State) : Host.Outcome State Fault Refusal :=
  match s.kensia.stretchReq with
  | some _ =>
    onTeam s fun t =>
      let s := s.setTeam { t with pend := insertPend ⟨t.clk, rankLand, s.cur, .alignmentPulse g⟩ t.pend }
      { s with agenda := insertPend ⟨s.now, 0, Cur.none, .stretch⟩ s.agenda }
  | none =>
    let ts := s.groupTeams g
    let targets := ts.flatMap fun t => t.hoops.map fun h => h.2.target
    let progs := s.groupProgs g
    let h := targets.headD 0
    let parts := s.groupParts g
    let late := parts.any fun t => h.toNat < (s.beatOf t).toNat
    if targets.any (· != h) || late || (!progs.isEmpty && h.getLsbD 0) then
      let trap := fun (t : Team) =>
        if t.inGroup g then t.hoops.foldl (fun u x => u.pendTrap x.1 x.2.pos .schedule x.2.target 0 x.2.issued) t
        else t
      .next { s with teams := s.teams.map trap }
    else
      let restored := ts.any fun t => t.delta != 0
      let dies := s.dies.zipIdx.map fun (x : Die × Nat) =>
        if !restored && (parts.any fun t => dieOf t.cid = x.2) then ({ x.1 with beat := h } : Die) else x.1
      let move := fun (t : Team) =>
        if t.inGroup g then
          let t := if restored then
              { t with delta := t.delta + (h - s.beatOf t).toInt }
            else t
          ({ t with cols := t.cols.map fun (x : Column) => x.pulse t.clk, lastPulse := h } : Team).pulseSignals
        else t
      let clk := match ts with | t :: _ => t.clk | [] => 0
      let chan := fun (p : Pc) => match p.prog with
        | some x =>
          if (progs.any fun q => q.1.pc = p.pc) then
            { p with prog := some { x with st := { x.st with hoop := none, timed := true, next := clk + 2, tried := false } },
                     t0 := if p.t0 = 0 then clk else p.t0,
                     refs := if p.t0 = 0 then Vector.replicate 16 0 else p.refs }
          else p
        | none => p
      let sigOf := fun (q : Pc × ChanProg) => match q.2.st.hoop with
        | some h => h.signal
        | none => .none
      let cxOf := fun (q : Pc × ChanProg) =>
        ({ Cur.none with cid := q.2.owner, col := .chn, pc := q.1.pc, issued := clk, signal := sigOf q } : Cur)
      let s := (s.jobDies (parts.map fun t => dieOf t.cid)).foldl
        (fun s x => s.traceAt x.1 x.2 (some h) 3 0 7 0 h.toNat s.ns 0) s
      let s := { s with dies := dies, teams := s.teams.map move, pcs := s.pcs.map chan }
      .next (progs.foldl (fun s q => s.chanSignal q.2.owner (cxOf q)) s)

/-- A stream of the group that stands on a logical die is in timed mode (R291). -/
def State.timedOn (s : State) (g : Group) (z : Nat) : Bool :=
  (s.groupTeams g).any fun t => dieOf t.cid = z &&
    (columns.any (fun c => (t.col c).timed && !(t.col c).ended) || (s.groupProgs g).any fun p => p.2.owner = t.cid && p.2.st.timed)

/-- A stream of the group is in timed mode (R175). -/
def State.groupTimed (s : State) (g : Group) : Bool :=
  (s.groupTeams g).any (fun t => columns.any fun c => (t.col c).timed && !(t.col c).ended) ||
  (s.groupProgs g).any fun p => p.2.st.timed

/-- A group whose BEAT has reached H + 2^22 with a stream in timed mode, and that has not trapped for it (R175). -/
def State.overdue (s : State) : Option Group :=
  s.groups.find? fun g => s.groupTimed g && (s.groupParts g).any fun t =>
    !t.frozen && t.lastPulse.toNat + 2 ^ 22 ≤ (s.beatOf t).toNat &&
    !(t.traps.any fun x => x.cause = 6 * 256 + Cause.hoopOverdue.code)

/-- HOOP_OVERDUE: the trap in every team of the group (R175). -/
def execHoopOverdue (g : Group) (s : State) : Host.Outcome State Fault Refusal :=
  .next { s with teams := s.teams.map fun t => if t.inGroup g then t.pendTeamTrap .hoopOverdue t.lastPulse else t }

/-! ## Freezes (R291) and handler entry (R379 to R382, R390) -/

/-- The logical dies that hold a participant of some groups. -/
def State.groupDies (s : State) (gs : List Group) : List Nat := (gs.flatMap s.groupParts).map fun t => dieOf t.cid

/-- The groups that a freeze of some groups extends to: each group with a stream in timed mode on a die of a frozen
group, again and again (R291). -/
def State.extent (s : State) (gs : List Group) : Nat → List Group
  | 0 => gs
  | n + 1 =>
    let dies := s.groupDies gs
    let more := s.groups.filter fun g =>
      !gs.contains g && dies.any (s.timedOn g)
    if more.isEmpty then gs else s.extent (gs ++ more) n

/-- The interrupt that a team takes: its code and the TIP bit that it clears (R389). -/
def Team.interrupt (t : Team) : Option (Cause × Word) :=
  let w := t.tip &&& t.tie
  if !t.takeable then none
  else if w.getLsbD 0 then some (.hostInt, 1)
  else if w.getLsbD 1 then some (.timerInt, 0)
  else some (.peerInt, 4)

/-- TCAUSE of an interrupt (R377). -/
def intCause (k : Cause) : Word := BitVec.ofNat 64 (2 ^ 63 + 6 * 256 + k.code)

/-- A team of a cut group takes its first pending trap, or its first interrupt when no trap is pending (R381, R382,
R390); a team without either stays frozen. The earliest request was made `age` beats ago (R383). If no handler can run, its launch
ends by a cut with status 1. (Log: 32, 133, 151 DEDUCED.) -/
def State.enter (s : State) (t : Team) (age : Nat) : State :=
  let f := s.beatOf t
  let r := f - BitVec.ofNat 64 age
  let go := fun (cause tval tepc clear : Word) =>
    match t.enterHandler f r cause tval tepc clear with
    | some t' => (s.setTeam t').traceEntry t cause tval tepc
    | none => (s.setTeam { t with traps := [] }).endLaunch t.launch 1
  let head := BitVec.ofNat 64 ((t.col .ctl).hoop.elim (t.col .ctl).head (·.pos))
  if t.handler then s
  else match firstTrap t.traps with
    | some x => go (BitVec.ofNat 64 x.cause) x.tval (if x.col = .ctl then BitVec.ofNat 64 x.epc else head) 0
    | none => match t.interrupt with
      | some (k, clear) => go (intCause k) 0 head clear
      | none => s

/-- A row group of the team waits for Bodkin (R236). -/
def Team.failedGroup (t : Team) : Option RowGroup := t.border.find? fun r => r.failed && !r.committed

/-- Beats of wall-clock time that Bodkin takes for the row group that waits: 16·N·K / 8, with K = 1 for a row group of a
drain or of an application (R236). (Log: 60 DEDUCED.) -/
def Team.bodkinBeats (t : Team) : Nat :=
  match t.failedGroup with
  | none => 0
  | some r =>
    let k := if r.kind = 0 then match t.engine.find? fun j => j.id = r.job with
        | some j => 16 * (fld j.cfg.fmt.toNat 9 4 + 1)
        | none => 1
      else 1
    16 * r.n * k / 8

/-- A freeze of the team is due: 512 beats after the earliest request, or at once while it is frozen (R291). -/
def Team.freezeDue (t : Team) : Bool :=
  match t.freezeReq with
  | some r => if t.frozen then t.failedGroup.isNone else r + 512 ≤ t.clk
  | none => false

/-- A debug stop is requested of the team's launch, or in force (R431). -/
def State.stops (s : State) (t : Team) : Bool := s.dstop.toList.any fun d => d.launch = some t.launch

/-- A debug stop of the team's launch is in force: not even a handler goes on (R430, R431). -/
def State.stopped (s : State) (t : Team) : Bool := s.dstop.toList.any fun d => d.launch = some t.launch && d.ctl.getLsbD 33

/-- The stop vector's dwords of a team (R431). -/
def State.stopTeam (s : State) (t : Team) : State :=
  s.setObs t.cid { s.coreObs t.cid with heads := t.cols.map fun (x : Column) => BitVec.ofNat 64 x.head, stopF := s.beatOf t }

/-- CHPOS of a granted pseudo-channel: its program's head, and bit 32 (R431). -/
def Pc.stopAt (p : Pc) (h : Nat) : Pc :=
  match p.prog with
  | some g => if g.launch = h then { p with stopPos := BitVec.ofNat 64 (2 ^ 32 + g.st.head % 2 ^ 32) } else { p with stopPos := 0 }
  | none => { p with stopPos := 0 }

/-- The state with STOPPED set, and the stop vector written, in every slot whose launch has come to its freeze beat
(R431). -/
def State.stopVectors (s : State) : State :=
  (List.finRange 64).foldl (fun (s : State) n =>
    match s.dstop[n].launch with
    | none => s
    | some h =>
      let ts := s.teams.filter fun t => t.launch = h
      if s.dstop[n].ctl.getLsbD 33 || ts.isEmpty || !ts.all (·.frozen) then s
      else
        let d : DStop := { s.dstop[n] with ctl := s.dstop[n].ctl ||| 2 ^ 33 }
        let s : State := { s with dstop := s.dstop.set n d, pcs := s.pcs.map fun p => p.stopAt h }
        ts.foldl (fun s t => s.stopTeam t) s) s

/-- An effect of a team's own elastic access that settles at a freeze: an lqg's entry, or what an lqg or sqg has still to do
(R381, R408). -/
def Team.settles (t : Team) (p : Pend) : Bool :=
  t.clk < p.due && !p.cx.timed && p.cx.cid = t.cid && p.cx.col = .acs && match p.act with
    | .queueEntryLands .. => p.far
    | _ => p.returns

/-- A transfer of the present chunk of an elastic copy of some teams, on its way to a team: it lands at their freeze, so that the
copy stands at a chunk boundary or has faulted (R253, R381). -/
def Team.lands (t : Team) (senders : List Nat) (p : Pend) : Bool :=
  t.clk < p.due && match p.act with
    | .sectorLanding x => x.path = .cpy && !x.timed && senders.contains x.sender
    | .cpdCheckDwordLands => !p.cx.timed && senders.contains (p.cx.args.headD 0)
    | _ => false

/-- What settles at the freeze of some groups made due on this beat; none when all of it has settled (R381, R408). -/
def State.settling (s : State) (inExt : Team → Bool) : Option State :=
  let mine := (s.teams.filter fun t => inExt t && !t.frozen).map (·.cid)
  let now := fun (t : Team) (p : Pend) => (mine.contains t.cid && t.settles p) || t.lands mine p
  if s.teams.any fun t => t.pend.any (now t) then
    some { s with teams := s.teams.map fun t =>
      { t with pend := (t.pend.map fun p => if now t p then { p with due := t.clk } else p).foldl (fun l p => insertPend p l) [] } }
  else none

/-- FREEZE (R291, R381, R408, R431): what the cut settles takes its effect first; then the extent stops; Bodkin's arbitrations are
completed before any handler is entered; then each team with a trap or interrupt enters its handler. -/
def execFreeze (g : Group) (s : State) : Host.Outcome State Fault Refusal :=
  let ext := s.extent [g] s.teams.length
  let inExt := fun (t : Team) => ext.contains t.group
  match s.settling inExt with
  | some s' => .next s'
  | none =>
  let why := if (s.teams.any fun t => inExt t && s.stops t) then 2
    else if (s.teams.any fun t => inExt t && (!t.traps.isEmpty || t.takeable)) then 0 else 1
  let stop := fun (t : Team) =>
    if inExt t && !t.frozen then { t with frozen := true, frozenNs := s.ns, frozenWhy := why } else t
  let frozen := { s with teams := s.teams.map stop }
  match frozen.teams.filter fun t => inExt t && t.failedGroup.isSome with
  | x :: xs =>
    .next ((x :: xs).foldl (fun (s : State) t =>
      if (s.agenda.any fun p => p.act = .bodkinArbitration && p.cx.cid = t.cid) then s
      else { s with agenda := insertPend ⟨s.now + t.bodkinBeats, 0, { Cur.none with cid := t.cid }, .bodkinArbitration⟩ s.agenda })
      frozen)
  | [] =>
    let ids := (frozen.teams.filter inExt).map fun t => (t.cid, t.freezeReq.elim 0 (t.clk - ·))
    let age := (ids.map fun x => x.2).foldl max 0
    .next (ids.foldl (fun s x => match s.team x.1 with
      | none => s
      | some t =>
        let t := { t with freezeReq := none }
        if s.stops t then s.setTeam t else (s.setTeam t).enter t age) frozen).stopVectors

/-- The state with every frozen team that no freeze's cause holds any longer running again (R291): a handler running in
its extent, an emergency, or a debug stop. A pending interrupt is requested again at that beat (R389).
(Log: 33, 126 DEDUCED.) -/
def State.thaw (s : State) (hold : Team → Bool) : State :=
  let causes := (s.teams.filter fun t => t.handler || t.freezeDue || t.failedGroup.isSome || hold t).map Team.group
  let ext := s.extent causes s.teams.length
  let ends := fun (t : Team) => t.frozen && !ext.contains t.group
  let done := s.teams.filter ends
  let s := (s.jobDies (done.map fun t => dieOf t.cid)).foldl (fun s x =>
    match done.find? fun t => dieOf t.cid = x.2 with
    | some t => s.traceAt x.1 x.2 none 1 t.frozenWhy 7 0 (s.die x.2).beat.toNat t.frozenNs s.ns
    | none => s) s
  { s with teams := s.teams.map fun t => if ends t then ({ t with frozen := false } : Team).requestInt else t }

/-! ## Timer (R389) and empty rings (R283) -/

/-- The timer has run out and TIP[1] is not yet set (R389). -/
def State.timerDue (s : State) (t : Team) : Bool := t.timecmp.toNat ≤ (s.beatOf t).toNat && !t.tip.getLsbD 1

/-- TIMER_INTERRUPT_PEND sets TIP[1]; an interrupt that becomes takeable is requested (R389). -/
def execTimerInterruptPend (s : State) : Host.Outcome State Fault Refusal :=
  onTeam s fun t => s.setTeam ({ t with tip := t.tip ||| 2 } : Team).requestInt

/-- EMPTY_RING_FAULT: a timed column whose ring is empty at its next word's scheduled beat (R283). -/
def execEmptyRingFault (s : State) : Host.Outcome State Fault Refusal :=
  onTeam s fun t => s.raise t s.cur (.schedule, s.beatOf t)

/-- A host or peer interrupt reaches the core (R389, R415). -/
def Team.pendInt (t : Team) (bit : Word) : Team := ({ t with tip := t.tip ||| bit } : Team).requestInt

/-- The live team that an ordinal of a job in its current phase and a logical core name (R415). -/
def State.teamNamed (s : State) (job ord core : Nat) : Option Team :=
  match s.team core, s.job job with
  | some t, some j => match s.launch t.launch with
    | some l => if t.job = job && t.ord % 2 ^ 32 = ord % 2 ^ 32 && l.phase = j.phase then some t else none
    | none => none
  | _, _ => none

/-- PEER_INTERRUPT_FRAME: a frame from a Reedlink partner sets TIP[2] of the team that it names; with no such team it is
ignored (R415). -/
def execPeerInterruptFrame (job ord core : Nat) (s : State) : Host.Outcome State Fault Refusal :=
  match s.teamNamed job ord core with
  | none => .next s
  | some t => .next (s.setTeam (t.pendInt 4))

end Sys2Proof.Machine
end

