-- ==== Sys2Proof/Machine/Endpoint.lean ====
section
/-! DEFINITION. Endpoints: the layout records that words name, as the storage that they describe (R249 to R251, R294, R303 to
R306), and the encoding of values into an endpoint's stored bytes (R30, R58, R241, R255). -/

namespace Sys2Proof.Machine

/-! ## Reading records -/

/-- The check of a register that holds a scratchpad address of an n-byte object (R249). -/
def dwordTrap (t : Team) (a n : Nat) : Option Trap :=
  if a % n ≠ 0 then some (.misalign, BitVec.ofNat 64 a)
  else if (t.spBad a n).isSome then some (.bounds, BitVec.ofNat 64 a)
  else none

/-- The image of the layout record at a scratchpad address (R303). -/
def Team.recordImage (t : Team) (a : Nat) : Nat := readNat t.spad a 64

/-- A team of the same launch on a core (R251). -/
def State.teamMate (s : State) (t : Team) (core : Nat) : Option Team :=
  (s.team core).bind fun u => if u.launch = t.launch then some u else none

/-- The record's endpoint, with the team whose scratchpad it is (R251): none for a scratchpad outside the launch. -/
def State.endpoint (s : State) (t : Team) (l : Layout) : Option (Layout × Team) :=
  if l.loc = 1 then (s.teamMate t l.core).map fun u => (u.endpoint l, u)
  else some (t.endpoint l, t)

/-- The stored bytes of an endpoint of scratchpad, in storage order. -/
def Layout.spadBytes (l : Layout) : List Nat := l.imageAddrs fun _ => 0

/-- The banks that a list of scratchpad bytes touches. -/
def banksOf (l : List Nat) : List Nat := distinct (l.map (· / 131072))

/-- The checks of a scratchpad endpoint's bytes: in allotted banks that are not ways (R306), all under one format value
(R294). -/
def spadTrap (u : Team) (rec : Nat) (bytes : List Nat) : Option Trap :=
  let banks := banksOf bytes
  if banks.any fun b => 16 ≤ b || !u.bankOk b then some (.bounds, BitVec.ofNat 64 rec)
  else match banks with
    | [] => none
    | b :: r => if r.any fun c => u.bfmt[bankAt (c * 131072)] != u.bfmt[bankAt (b * 131072)] then some (.bounds, 0) else none

/-- A residue type (R41). -/
def isResidue (ty : ElemTy) : Bool := ty = .r32 || ty = .r64

/-- The record's own checks (R306), then its type's and its alignment's. -/
def recordTrap (rec img : Nat) (l : Layout) (source : Bool) : Option Trap :=
  if recordBad img l source || l.typeBad then some (.bounds, BitVec.ofNat 64 rec)
  else if l.misaligned then some (.misalign, BitVec.ofNat 64 rec)
  else none

/-- Runs of consecutive addresses: the first and how many. -/
def runsOf : List Nat → List (Nat × Nat)
  | [] => []
  | a :: l => match runsOf l with
    | [] => [(a, 1)]
    | (b, n) :: r => if a + 1 = b then (a, n + 1) :: r else (a, 1) :: (b, n) :: r

/-- Two teams are of one timed group (R289). -/
def sameGroup (t u : Team) : Bool := t.group = u.group

/-! ## Encoding (R30, R35, R38, R58, R241, R255) -/

/-- An element to store: its exact value, or none for padding, and its taint. -/
abbrev Src := Option Val × Bool

/-- The codes of a block's logical elements put back among its padding, which has code 0 (R29). (Log: 139 DEDUCED.) -/
def padCodes : List Src → List Nat → List Nat
  | [], _ => []
  | (none, _) :: l, cs => 0 :: padCodes l cs
  | (some _, _) :: l, cs => cs.headD 0 :: padCodes l cs.tail

/-- The codes of 32 elements of a two-plane type with the block's second-plane bytes and exceptions. Padding is no source of
the block: it has code 0 and raises nothing (R29, R35, R38). (Log: 139 DEDUCED.) -/
def encodeBlock (l : Layout) (maxSrc : Val) (src : List Src) : List Nat × Nat × Exc :=
  let vals := src.filterMap fun x => x.1
  let tau := f32V l.tscale
  match l.ty with
  | .q4 =>
    let b := quantQ4 l.qt tau maxSrc vals
    (padCodes src b.codes, b.aux, b.exc)
  | .c4 =>
    let b := quantC4 l.book tau maxSrc vals
    (padCodes src b.codes, b.aux, b.exc)
  | _ =>
    let r := vals.map fun v => storeValue l.ty false v
    (padCodes src (r.map fun x => x.1), 0, r.foldl (fun e x => e ||| x.2) 0)

/-- The bytes of the second plane of one block. -/
def secondBytes (ty : ElemTy) (codes : List Nat) (aux : Nat) : List Nat :=
  match ty with
  | .q4 => [aux]
  | .c4 => [aux % 256, aux / 256]
  | _ => packBits 2 8 (codes.map (· % 4))

/-- Stored bytes with addresses and taint. -/
abbrev Cells := List (Nat × BitVec 8 × Bool)

/-- The stored bytes of one block: first plane and second plane, each byte with the taint of the elements that it stores
(R256). (Log: 69 DEDUCED.) -/
def Layout.blockCells (l : Layout) (b : Nat) (codes : List Nat) (aux : Nat) (tn : List Bool) : Cells × Cells :=
  let nib := if l.ty = .q4 || l.ty = .c4 then codes else codes.map (· / 4)
  let put := fun (per base : Nat) (bytes : List Nat) =>
    bytes.zipIdx.map fun y => (base + y.2, BitVec.ofNat 8 y.1, ((tn.drop (per * y.2)).take per).any id)
  let two := secondBytes l.ty codes aux
  let more := if two.length = 8 then put 4 else fun base bytes => bytes.zipIdx.map fun y => (base + y.2, BitVec.ofNat 8 y.1, tn.any id)
  (put 2 (l.base + 16 * b) (packBits 4 16 nib), more (l.base + secondPlane l.count + two.length * b) two)

/-- The exact values `f` gives to whole blocks of storage indexes, stored: first-plane bytes, second-plane bytes, and
exceptions. A code of a quantised block is made from every element of the block, and takes the taint of each; an FP6 code
takes its own element's (R35, R38, R256). -/
def Layout.encodeBlocks (l : Layout) (maxSrc : Val) (f : Nat → Src) : List Nat → Cells × Cells × Exc
  | [] => ([], [], 0)
  | b :: bs =>
    let src := (List.range 32).map fun i => f (32 * b + i)
    let x := encodeBlock l maxSrc src
    let any_ := src.any fun y => y.2
    let y := l.blockCells b x.1 x.2.1 (src.map fun y => if l.ty = .q4 || l.ty = .c4 then any_ else y.2)
    let r := l.encodeBlocks maxSrc f bs
    (y.1 ++ r.1, y.2 ++ r.2.1, x.2.2 ||| r.2.2)

/-- The values `f` gives to storage indexes of a type of at least 8 bits, stored. The flag says that they are integers
(R27). -/
def Layout.encodeEach (l : Layout) (page : Nat → Nat) (fromInt : Bool) (f : Nat → Src) : List Nat → Cells × Exc
  | [] => ([], 0)
  | x :: xs =>
    let y := f x
    let c := storeValue l.ty fromInt (y.1.getD (.fin false 0 1))
    let r := l.encodeEach page fromInt f xs
    ((((l.bytesAt page x).zip (bytesOf c.1 (elemBytes l.ty))).map fun p => (p.1, p.2, y.2)) ++ r.1, c.2 ||| r.2)

/-- A set of storage indexes stored in the endpoint's format, in storage order, first plane before second; two-plane types
take whole blocks (R30, R58, R241, R255). -/
def Layout.encode (l : Layout) (page : Nat → Nat) (src : ElemTy) (srcTau : Val) (f : Nat → Src) (idx : List Nat) :
    Cells × Exc :=
  if l.ty.isSub then
    let r := l.encodeBlocks (maxOf src srcTau) f (distinct (idx.map (· / 32)))
    (r.1 ++ r.2.1, r.2.2)
  else
    let ints := match src with
      | .i8 | .i16 | .i32 | .i64 => true
      | _ => false
    l.encodeEach page ints f idx

/-! ## Bytes of scratchpad with taint (R127, R256, R258) -/

/-- Write cells into a team's scratchpad, for every path: a word written in part keeps its old taint too, but for those of `entire`,
and a 64-bit word written whole is sound (R127, R256, R332, R438). (Log: 65 DEDUCED.) -/
def Team.putCellsOver (t : Team) (l : Cells) (entire : List Nat) : Team :=
  let words := distinct (l.map fun c => c.1 / 4)
  let taintOf := fun (u : Nat) =>
    let mine := l.filter fun c => c.1 / 4 = u
    let whole := (distinct (mine.map fun c => c.1)).length = 4 || entire.contains u
    mine.any (fun c => c.2.2) || (!whole && t.spadTaint.contains u)
  { t.performed (l.map fun c => c.1) with
           spad := l.foldl (fun m c => writeByte m c.1 c.2.1) t.spad,
           spadTaint := words.foldl (fun s u => setUnit s u (taintOf u)) t.spadTaint,
           sick := t.sick.filter fun x => !((List.range 8).all fun i => l.any fun c => c.1 = 8 * x.1 + i) }

/-- Cells written into a team's scratchpad on their own. -/
def Team.putCells (t : Team) (l : Cells) : Team := t.putCellsOver l []

/-- What a team's scratchpad holds at some addresses. -/
def Team.getCells (t : Team) (l : List Nat) : Cells := l.map fun a => (a, readByte t.spad a, t.spadTaint.contains (a / 4))

/-- The team with cells that a drain wrote as they stood before it, the taint of each word with them (R445). -/
def Team.restoreCells (t : Team) (l : Cells) : Team :=
  let u := t.putCells l
  { u with spadTaint := l.foldl (fun s c => setUnit s (c.1 / 4) c.2.2) u.spadTaint }

/-- The first address of a list that lies in a live slot (R295). -/
def Team.firstLive (t : Team) (l : List Nat) : Option Nat := l.find? fun a => (t.liveHit a 1).isSome

/-- Some address of a list lies in the stack or the trap frame (R164, R258). -/
def Team.firstStack (t : Team) (l : List Nat) : Option Nat := l.find? fun a => t.inStackOrFrame a 1

/-- Cells with one for each address, the last of those that name it. -/
def lastCells (l : Cells) : Cells := l.foldr (fun c acc => if acc.any fun x => x.1 = c.1 then acc else c :: acc) []

/-- The bytes of a piece that some cells give, as one number. -/
def cellsNat (lo : Nat) (l : Cells) : Nat := l.foldl (fun acc c => acc + c.2.1.toNat * 256 ^ (c.1 - lo)) 0

/-- A piece of a write of cells at the L2: its taint is that of all the cells in each 32-byte unit, and a unit of `entire` loses its
old taint (R256, R345, R351). -/
def State.storePiece (s : State) (t : Team) (col : Col) (l : Cells) (entire : List Nat) (p : Piece) : Except Trap State :=
  let mine := l.filter fun c => p.va ≤ c.1 && c.1 < p.va + p.n
  let named := fun (u : Nat) => u + p.va / 32 - p.leaf.pa / 32
  match s.writeAtL2Over t.cid col p (cellsNat p.va mine) (allBits p.n) (fun u => l.any fun c => c.2.2 && c.1 / 32 = named u)
    (fun u => entire.contains (named u)) with
  | .error x => .error x
  | .ok r => .ok (r.2.markTaint t.cid (r.1 != 0 && mine.any fun c => c.2.2))

/-- The pieces of a write of cells at the L2, in order. -/
def State.storePieces (s : State) (t : Team) (col : Col) (l : Cells) (entire : List Nat) : List Piece → Except Trap State
  | [] => .ok s
  | p :: ps => match s.storePiece t col l entire p with
    | .error x => .error x
    | .ok r => r.storePieces t col l entire ps

/-- Write cells to global memory at the L2, each run of bytes translated page by page before the first byte is written
(R240, R253, R345). -/
def State.storeCells (s : State) (t : Team) (col : Col) (l : Cells) (entire : List Nat) : Except Trap State :=
  let l := lastCells l
  (runsOf (l.map fun c => c.1)).foldl (fun (e : Except Trap State) run => match e with
    | .error x => .error x
    | .ok s => match s.translate ⟨t.job, false, true, false⟩ run.1 run.2 with
      | .error x => .error x
      | .ok ps => s.storePieces t col l entire (cutAll ps)) (.ok s)

/-- Write cells to global memory at the L2 under the leaves that a word has translated before (R404). -/
def State.storeMapped (s : State) (t : Team) (col : Col) (l : Cells) (pages : List TlbEntry) : Except Trap State :=
  let l := lastCells l
  s.storePieces t col l [] (cutAll ((runsOf (l.map fun c => c.1)).flatMap fun r => mappedPieces pages t.job (r.2 / 65536 + 2) r.1 r.2))

end Sys2Proof.Machine
end

