-- ==== Sys2Proof/Machine/Global.lean ====
section
/-! DEFINITION. Memory words of ctl in every space (R124 to R134), fences (R136, R137, R337), tchk.gl (R141), and the words
of acs that move rows between the queues and global memory (R165). -/

namespace Sys2Proof.Machine

/-! ## Addresses and sizes (R124, R125) -/

/-- An access of a CM word: its effective address, its first byte, its bytes, and the bits of them it names (R125). -/
structure Span where
  ea : Nat
  a : Nat
  n : Nat
  sh : Nat
  w : Nat
  deriving DecidableEq, Repr

/-- The access of a size at an effective address; nibbles and crumbs count elements (R125). -/
def spanOf (z : Size) (ea : Nat) : Span :=
  match z with
  | .b => ⟨ea, ea, 1, 0, 8⟩
  | .h => ⟨ea, ea, 2, 0, 16⟩
  | .w => ⟨ea, ea, 4, 0, 32⟩
  | .d => ⟨ea, ea, 8, 0, 64⟩
  | .nib => ⟨ea, ea / 2, 1, 4 * (ea % 2), 4⟩
  | .crm => ⟨ea, ea / 4, 1, 2 * (ea % 4), 2⟩

/-- ea is not a multiple of its width (R125). -/
def Span.misaligned (x : Span) : Bool := x.ea = x.a && x.a % x.n ≠ 0

/-- The register bits of a value read (R125, R127). -/
def Span.take (x : Span) (v : Nat) : Nat := v / 2 ^ x.sh % 2 ^ x.w

/-- The bits to write and their enables (R125, R296). -/
def Span.put (x : Span) (v : Nat) : Nat × Nat := (v % 2 ^ x.w * 2 ^ x.sh, (2 ^ x.w - 1) * 2 ^ x.sh)

/-- The effective address of a CM word (R124). -/
def effAddr (t : Team) (base : SReg) (off : Int) : Nat := addrPlus (t.getS base).v.toNat off

/-- The order acquires (R126). -/
def orderAcquires : Order → Bool
  | .acq | .ar => true
  | .plain | .rel => false

/-- The order releases (R126). -/
def orderReleases : Order → Bool
  | .rel | .ar => true
  | .plain | .acq => false

/-- What an access in a space asks of a leaf (R399). -/
def wantOf (t : Team) (spc : Space) (rd wr : Bool) : Want := ⟨t.job, rd, wr, spc = .hp⟩

/-! ## Scratchpad accesses of ctl (R124, R128, R295) -/

/-- The traps of a scratchpad access of ctl, in order: misalignment, bounds, and for a write the trap frame at level U, live
slots and unsealed sectors; for a read ECC; and a conflict of kind 4 (R124, R125, R128, R295, R349, R376, R438). -/
def spTrap (t : Team) (x : Span) (write waits : Bool) : Option Trap :=
  let ea := BitVec.ofNat 64 x.ea
  if x.misaligned then some (.misalign, ea)
  else if (t.spBad x.a x.n).isSome || (write && !t.svc && t.inFrame x.a x.n) then some (.bounds, ea)
  else match (if write then t.liveHit x.a x.n else none) with
    | some b => some (.ringConflict, BitVec.ofNat 64 b)
    | none => if write && !waits && t.unsealedNow x.a x.n then some (.ringConflict, ea)
      else if waits then t.readsTrap 0 x.n [x.a] else freshTrap t 0 x.n [x.a]

/-- The taint of n scratchpad bytes (R127). -/
def Team.spTaint (t : Team) (lo n : Nat) : Bool := anyUnit t.spadTaint (lo / 4) ((lo + n - 1) / 4 + 1)

/-- The team with scratchpad bits written; a word that keeps old bytes keeps its old taint too (R127). -/
def Team.spPut (t : Team) (lo n x en : Nat) (taint : Bool) : Team :=
  let whole := en = 256 ^ n - 1
  { t with spad := writeNat t.spad lo (mergeBits (readNat t.spad lo n) x en) n,
           spadTaint := (List.range ((lo + n - 1) / 4 + 1 - lo / 4)).foldl (fun l i =>
             let u := lo / 4 + i
             let covered := whole && lo ≤ 4 * u && 4 * u + 4 ≤ lo + n
             setUnit l u (taint || (!covered && l.contains u))) t.spadTaint }

/-! ## Accesses beyond the scratchpad -/

/-- An acquire or release of a word's order on the local cache (R336, R337). -/
def State.relCache (s : State) (cid : Nat) (spc : Space) (o : Order) : State :=
  if orderReleases o && (spc = .gl || spc = .ap) then s.cleanCache cid else s

/-- The invalidation that an acquire makes after its access (R336). -/
def State.acqCache (s : State) (cid : Nat) (spc : Space) (o : Order) : State :=
  if orderAcquires o && (spc = .gl || spc = .ap) then
    match s.team cid with
    | some t => s.setTeam t.invalidate
    | none => s
  else s

/-- A translation or protection fault of a ctl access holds ea in TVAL (R124). -/
def atEa (x : Span) : Except Trap α → Except Trap α
  | .error (c, v) => .error (c, if c = .translation || c = .protection then BitVec.ofNat 64 x.ea else v)
  | .ok a => .ok a

/-- The exceptions of a word's access are ORed into CEXC on the beat at which its result lands (R45, R46). -/
def State.landCexc (s : State) (cid : Nat) (cx : Cur) (due : Nat) (e : BitVec 5) : State :=
  match s.team cid with
  | none => s
  | some t =>
    if e = 0 then s
    else s.setTeam (t.later cx.col ⟨due, rankLand, cx, .registerWriteLands (.csr .set 0x015 (e.setWidth 64) false)⟩)

/-- An ordered access of ctl through an aperture: a sector of the local cache that holds its bytes is cleaned first, and then
dropped (R336). -/
def State.dropView (s : State) (cid : Nat) (o : Order) (a : Aperture) (j n : Nat) : State :=
  if o = .plain then s else (distinct ((a.touched j n).map fun x => x.1 / 256)).foldl (fun s x => s.dropSector cid (256 * x)) s

/-- Read the bits of a ctl access beyond the scratchpad: the value, its taint, the exceptions of a decode view, and the state
(R124, R127, R310, R336). -/
def State.loadBeyond (s : State) (t : Team) (spc : Space) (o : Order) (x : Span) : Except Trap (Nat × Bool × BitVec 5 × State) :=
  if x.misaligned then .error (.misalign, BitVec.ofNat 64 x.ea)
  else
    let s := s.relCache t.cid spc o
    match atEa x (if spc = .ap then
        match s.apertureFor t false x.a x.n with
        | .error e => .error e
        | .ok a => match (s.dropView t.cid o a (8 * (x.a - a.base) + x.sh) x.w).viewRead t.cid .ctl a x.a (8 * (x.a - a.base) + x.sh) x.w with
          | .error e => .error e
          | .ok r => .ok r
      else match s.translate (wantOf t spc true false) x.a x.n with
        | .error e => .error e
        | .ok l => match s.readPieces t.cid .ctl (o != .plain) (cutAll l) with
          | .error e => .error e
          | .ok g => .ok (x.take g.1, g.2.1.any id, 0, g.2.2)) with
    | .error e => .error e
    | .ok r => .ok (r.1, r.2.1, r.2.2.1, r.2.2.2.acqCache t.cid spc o)

/-- Write the bits of a ctl access beyond the scratchpad (R124, R127, R310, R336). -/
def State.storeBeyond (s : State) (t : Team) (spc : Space) (o : Order) (x : Span) (v : TW) : Except Trap State :=
  if x.misaligned then .error (.misalign, BitVec.ofNat 64 x.ea)
  else
    let s := s.relCache t.cid spc o
    let d := x.put v.v.toNat
    atEa x (if spc = .ap then
        match s.apertureFor t true x.a x.n with
        | .error e => .error e
        | .ok a => (s.dropView t.cid o a (8 * (x.a - a.base) + x.sh) x.w).viewWrite t.cid .ctl a x.a (8 * (x.a - a.base) + x.sh)
          (v.v.toNat % 2 ^ x.w) x.w v.t
      else match s.translate (wantOf t spc false true) x.a x.n with
        | .error e => .error e
        | .ok l => s.writePieces t.cid .ctl (o != .plain) d.1 d.2 (List.replicate x.n v.t) (cutAll l))

/-- The value of an aligned 8-byte unit of a job's global memory as a team's accesses see it, for watchpoints (R429). -/
def State.peek (s : State) (cid job u : Nat) : Nat :=
  match s.walk job u with
  | .error _ => 0
  | .ok l =>
    let base := s.l2Read l.key l.pa 8
    match (s.team cid).bind fun t => t.line l.pa with
    | none => base
    | some c =>
      let sh := 8 * (l.pa % 256)
      let q := l.pa / 256 % 4
      let en := if c.valid.getLsbD q then allBits 8 else c.dirty q / 2 ^ sh % 2 ^ 64
      mergeBits base (c.bytes q / 2 ^ sh) en

/-- A global access tested against the watchpoints: `before` is the state before it (R429). -/
def State.watchGlobal (s : State) (cx : Cur) (path : Nat) (write : Bool) (before : State) (lo n : Nat)
    (atomic : Bool := false) : State :=
  match s.team cx.cid with
  | none => s
  | some t => s.watch cx.cid cx (t.col cx.col).head
      ⟨path, 1, write, lo, n, before.peek cx.cid t.job, s.peek cx.cid t.job, atomic⟩

/-- A ctl access beyond the scratchpad tested against the watchpoints; only global space is watched (R428). -/
def State.watchCtl (s : State) (cx : Cur) (spc : Space) (write : Bool) (before : State) (x : Span)
    (atomic : Bool := false) : State :=
  if spc = .gl then s.watchGlobal cx 0 write before x.a x.n atomic else s

/-- The beat at which an elastic access to memory has returned (R80, log 7), and the state with its free value taken.
(Log: 7 DESIGN CHOICE.) -/
def State.memDue (s : State) (now : Nat) : Nat := now + 1 + Config.memLatency s.free

/-- A free value has been taken. -/
def State.took (s : State) : State := { s with free := s.free + 1 }

/-- A result of an elastic access: s_d and the SIGNAL arrive when it returns (R127). (Log: 7 DESIGN CHOICE.) -/
def State.landElastic (s : State) (cid : Nat) (cx : Cur) (d : SReg) (v : Nat) (taint : Bool) : State :=
  match s.team cid with
  | none => s
  | some t =>
    let due := s.memDue (t.clock cx.col)
    (s.setTeam ((t.land cx due (.s d (BitVec.ofNat 64 v) taint)).signalAt cx due)).took

/-- The word has performed when its elastic access has returned (R92). (Log: 7 DESIGN CHOICE.) -/
def State.doneElastic (s : State) (cid : Nat) (cx : Cur) : State :=
  match s.team cid with
  | none => s
  | some t => (s.setTeam (t.signalAt cx (s.memDue (t.clock cx.col)))).took

/-! ## Demand traffic of channel windows (R316, R325) -/

/-- The physical addresses, one for each sector, that an access reaches in the memory of the package: none if it faults. -/
def State.reachedBy (s : State) (t : Team) (spc : Space) (rd wr : Bool) (x : Span) : List Nat :=
  match spc with
  | .sp | .hp => []
  | .ap => match s.apertureFor t wr x.a x.n with
    | .error _ => []
    | .ok a => (a.touched (8 * (x.a - a.base) + x.sh) x.w).map fun b => b.1
  | .gl => match s.translate (wantOf t spc rd wr) x.a x.n with
    | .error _ => []
    | .ok l => ((cutAll l).filter fun p => p.leaf.tgt = 0).map fun p => p.leaf.pa

/-- What the demand sequencer has to serve for an access to some physical addresses: those in the window of a running program's
pseudo-channel, unless a read finds its sector in the L2 (R316, R325). (Log: 82 DEDUCED.) -/
def State.windowReqs (s : State) (cid id : Nat) (write : Bool) (pas : List Nat) : List (Nat × DemandReq) :=
  pas.filterMap fun pa =>
    if fld pa 51 1 = 0 || (!write && (s.l2Copy pa).isSome) then none
    else match s.placeOf pa with
      | none => none
      | some x => match s.pc x.pc with
        | none => none
        | some p => if p.owned then some (x.pc, ⟨if write then .write else .read, x.bank, x.row, cid, id⟩) else none

/-- The demand requests of a core that are outstanding: one for each sector that a word beyond the scratchpad has touched and whose
access has not returned, and those that wait for a demand sequencer (R3, R325). -/
def State.outstanding (s : State) (t : Team) : Nat :=
  ((t.inFlight.filter Pend.returns).map fun p => p.cx.args.headD 1).sum +
  (s.pcs.map fun p => (p.queue.filter fun r => r.cid = t.cid && r.id ≠ 0).length).sum

/-- What an access beyond the scratchpad waits for before it issues: room for its requests among a core's 4096, and, for a read,
the rd.l2 fills of its sectors (R3, R270). (Log: 82 DEDUCED.) -/
def State.farStall (s : State) (t : Team) (read : Bool) (pas : List Nat) : Bool :=
  ((t.col s.cur.col).ask.isNone && 4096 < s.outstanding t + max 1 pas.length) || (read && pas.any fun pa => s.filling pa 1)

/-- The context in which an access beyond the scratchpad goes on once it has issued: it holds as many requests as it touches
sectors (R3). (Log: 82 DEDUCED.) -/
def State.asking (s : State) (pas : List Nat) : State := { s with cur := { s.cur with args := [max 1 pas.length] } }

/-- ctl issues nothing before its acquire has performed (R136, R336). -/
def State.holdCtl (s : State) (cid : Nat) (o : Order) (due : Nat) : State :=
  if !orderAcquires o then s
  else match s.team cid with
    | some t => s.setTeam (t.modCol .ctl fun x => { x with portFree := max x.portFree due })
    | none => s

/-- A release waits until ctl's earlier accesses of its class and storage have performed (R336). -/
def Team.releaseWaits (t : Team) (o : Order) (spc : Space) (cls : BitVec 4) (id : Nat) : Bool :=
  orderReleases o && t.ctlLeft ((1 : BitVec 4) <<< storageOf spc) ((1 : BitVec 16) <<< cls.toNat) id

/-- The trap of an access, if it has one. -/
def trapOf : Except Trap α → Option Trap
  | .error e => some e
  | .ok _ => none

/-! ## ld and st (R124 to R128) -/

/-- The read of a ctl load beyond the scratchpad, whose result comes to s_d when it returns (R80, R127). -/
def State.loadInto (s : State) (t : Team) (d : SReg) (spc : Space) (o : Order) (x : Span) : State :=
  match s.loadBeyond t spc o x with
  | .error e => s.raise t s.cur e
  | .ok r =>
    let due := r.2.2.2.memDue (t.clock .ctl)
    let s' := (r.2.2.2.landElastic t.cid s.cur d r.1 r.2.1).landCexc t.cid s.cur due r.2.2.1
    (s'.holdCtl t.cid o due).watchCtl s.cur spc false s x

/-- The write of a ctl store beyond the scratchpad (R127). -/
def State.storeFrom (s : State) (t : Team) (spc : Space) (o : Order) (x : Span) (v : TW) : State :=
  match s.storeBeyond t spc o x v with
  | .error e => s.raise t s.cur e
  | .ok r => (r.doneElastic t.cid s.cur).watchCtl s.cur spc true s x

/-- LD: from scratchpad it samples at issue + 1 and lands at issue + 6; elsewhere it lands when its data return
(R80, R127). In the window of a running program it issues once the demand sequencer has served it (R325).
(Log: 7 DESIGN CHOICE; 15 DEDUCED.) -/
def execLd (d base : SReg) (cls : BitVec 4) (spc : Space) (o : Order) (z : Size) (off : BitVec 17) (s : State) :
    Host.Outcome State Fault Refusal :=
  if s.cur.phase = .access then
    onTeam s fun t =>
      let x := spanOf z (s.cur.args.headD 0)
      let v := x.take (readNat (t.view 0).spad x.a x.n)
      let taint := (t.view 0).spTaint x.a x.n || t.freshTaints 0 x.n [x.a]
      let due := s.cur.issued + 6
      (s.setTeam ((t.land s.cur due (.s d (BitVec.ofNat 64 v) taint)).signalAt s.cur due)).afterRows s.cur 0 false t x.n [x.a]
  else runWord s (fun s t =>
      let x := spanOf z (effAddr t base off.toInt)
      let pas := s.reachedBy t spc true false x
      { regs := [.s d, .s base], reject := spc != .sp,
        stall := (spc = .sp && (t.spBad x.a x.n).isNone && t.unsealed (t.col .ctl).timed x.a x.n) ||
          (spc != .sp && s.farStall t true pas),
        asks := s.windowReqs t.cid 0 false pas,
        late := if spc = .sp then spTrap t x false true else trapOf (s.loadBeyond t spc o x) }) fun s t =>
    let x := spanOf z (effAddr t base off.toInt)
    if spc = .sp then
      s.setTeam (t.again s.cur (t.clock .ctl + 1) .access [x.ea] (.ld d base cls spc o z off))
    else
      let s := s.setTeam t
      (s.asking (s.reachedBy t spc true false x)).loadInto t d spc o x

/-- ST: to scratchpad it performs at issue + 1 (R127); a release comes after the accesses that its fence orders (R336).
(Log: 15 DEDUCED; 21 DESIGN CHOICE.) -/
def execSt (d base : SReg) (cls : BitVec 4) (spc : Space) (o : Order) (z : Size) (off : BitVec 17) (s : State) :
    Host.Outcome State Fault Refusal :=
  if s.cur.phase = .access then
    onTeam s fun t =>
      let x := spanOf z (s.cur.args.headD 0)
      let v := x.put (s.cur.args.getD 1 0)
      let taint := s.cur.args.getD 2 0 = 1 || t.freshTaints 0 x.n [x.a]
      (s.setTeam (t.spPut x.a x.n v.1 v.2 taint)).afterRows s.cur 0 true t x.n [x.a]
  else runWord s (fun s t =>
      let x := spanOf z (effAddr t base off.toInt)
      let pas := s.reachedBy t spc false true x
      { regs := [.s d, .s base], reject := spc != .sp,
        stall := (spc != .sp && s.farStall t false pas) || t.releaseWaits o spc cls s.cur.id,
        asks := s.windowReqs t.cid 0 true pas,
        late := if spc = .sp then spTrap t x true false else trapOf (s.storeBeyond t spc o x (t.getS d)) }) fun s t =>
    let x := spanOf z (effAddr t base off.toInt)
    let v := t.getS d
    let args := [x.ea, v.v.toNat, if v.t then 1 else 0]
    if spc = .sp then done1 s (t.again s.cur (t.clock .ctl + 1) .access args (.st d base cls spc o z off))
    else
      let s := s.setTeam t
      (s.asking (s.reachedBy t spc false true x)).storeFrom t spc o x v

/-! ## Atomics (R129, R130, R339) -/

/-- The value that an amo writes, of w bits (R129). -/
def amoValue (op : AmoOp) (w old x : Nat) : Nat :=
  let le := fun (u : Bool) => decide (readInt w u old ≤ readInt w u x)
  match op with
  | .swap => x
  | .add => (old + x) % 2 ^ w
  | .and => Nat.land old x
  | .or => Nat.lor old x
  | .xor => Nat.xor old x
  | .min => if le false then old else x
  | .max => if le false then x else old
  | .minu => if le true then old else x
  | .maxu => if le true then x else old

/-- What an amo does to a sector's record: op 1 to 8 combine (R346). -/
def amoRec (op : AmoOp) : RecAcc :=
  match op with
  | .swap => .swap
  | .add => .comb 1
  | .and => .comb 2
  | .or => .comb 3
  | .xor => .comb 4
  | .min => .comb 5
  | .max => .comb 6
  | .minu => .comb 7
  | .maxu => .comb 8

/-- A read-modify-write at the L2: the old value, and the state with the new one, if there is one, unless a permissive
conflict rejects it (R339, R346, R348). -/
def State.rmwBeyond (s : State) (t : Team) (o : Order) (x : Span) (a : RecAcc) (taint : Bool) (f : Nat → Option Nat) :
    Except Trap (Nat × State) :=
  if x.misaligned then .error (.misalign, BitVec.ofNat 64 x.ea)
  else
    let s := s.relCache t.cid .gl o
    match atEa x (s.translate (wantOf t .gl true true) x.a x.n) with
    | .error e => .error e
    | .ok [p] =>
      let s := s.dropSector t.cid p.leaf.pa
      match s.eccAt [p] with
      | some e => .error e
      | none => match s.judged t.cid .ctl a p.va p.leaf.pa p.n with
        | .error e => .error e
        | .ok r =>
          let old := s.l2Read p.leaf.key p.leaf.pa p.n
          let en := r.1.enables p.leaf.pa p.n (allBits p.n)
          let s := match f old with
            | some v => (r.2.l2Write p.leaf.key p.leaf.pa p.n v en fun _ => taint).markTaint t.cid (taint && en != 0)
            | none => r.2
          .ok (old, (s.corrected (some t) p.leaf.pa p.n).acqCache t.cid .gl o)
    | .ok _ => .ok (0, s)

/-- AMO and CAS: an indivisible read and write; the old value returns to s_d, tainted unless DETMODE is off (R129 to R131,
R339). -/
def atomicWord (s : State) (d base : SReg) (cls : BitVec 4) (spc : Space) (o : Order) (z : Size) (x : SReg) (a : RecAcc)
    (f : Word → Nat → Nat → Option Nat) (i : Instr) : Host.Outcome State Fault Refusal :=
  if s.cur.phase = .access then
    onTeam s fun t =>
      let sp := spanOf z (s.cur.args.headD 0)
      let old := readNat t.spad sp.a sp.n
      let exp := BitVec.ofNat 64 (s.cur.args.getD 3 0)
      let taint := s.cur.args.getD 2 0 = 1 || t.freshTaints 0 sp.n [sp.a]
      let new := f exp old (s.cur.args.getD 1 0 % 2 ^ sp.w)
      let u := match new with
        | some v => (t.spPut sp.a sp.n v (allBits sp.n) taint).readEcc sp.n [sp.a]
        | none => t
      let due := s.cur.issued + 8
      (s.setTeam ((u.land s.cur due (.s d (BitVec.ofNat 64 old) (t.ndet != 0))).signalAt s.cur due)).afterRows
        s.cur 0 new.isSome t sp.n [sp.a] true
  else
    let new := fun (t : Team) (old : Nat) => f (t.getS d).v old ((t.getS x).v.toNat % 2 ^ (spanOf z 0).w)
    let run := fun (s : State) (t : Team) => s.rmwBeyond t o (spanOf z (t.getS base).v.toNat) a (t.getS x).t (new t)
    let take := fun (s : State) (t : Team) (sp : Span) (r : Except Trap (Nat × State)) => match r with
      | .error e => s.raise t s.cur e
      | .ok r => ((r.2.landElastic t.cid s.cur d r.1 (t.ndet != 0)).holdCtl t.cid o (r.2.memDue (t.clock .ctl))).watchCtl s.cur spc (new t r.1).isSome s sp true
    runWord s (fun s t =>
      let sp := spanOf z (t.getS base).v.toNat
      let pas := s.reachedBy t spc true true sp
      { regs := [.s d, .s base, .s x], reject := spc != .sp, occ := if spc = .sp then 2 else 1,
        stall := (spc = .sp && (t.spBad sp.a sp.n).isNone && t.unsealed (t.col .ctl).timed sp.a sp.n) ||
          (spc != .sp && s.farStall t true pas) || t.releaseWaits o spc cls s.cur.id,
        asks := s.windowReqs t.cid 0 true pas,
        late := if spc = .sp then spTrap t sp true true else trapOf (run s t) }) fun s t =>
    let sp := spanOf z (t.getS base).v.toNat
    let args := [sp.ea, (t.getS x).v.toNat, if (t.getS x).t then 1 else 0, (t.getS d).v.toNat]
    if spc = .sp then s.setTeam (t.again s.cur (t.clock .ctl + 1) .access args i)
    else
      let s := (s.setTeam t).asking (s.reachedBy t .gl true true sp)
      take s t sp (run s t)

/-- AMO (R129). (Log: 15 DEDUCED.) -/
def execAmo (d base : SReg) (cls : BitVec 4) (spc : Space) (o : Order) (z : Size) (x : SReg) (op : AmoOp) (s : State) :
    Host.Outcome State Fault Refusal :=
  atomicWord s d base cls spc o z x (amoRec op) (fun _ old v => some (amoValue op (spanOf z 0).w old v))
    (.amo d base cls spc o z x op)

/-- CAS (R130). -/
def execCas (d base : SReg) (cls : BitVec 4) (spc : Space) (o : Order) (z : Size) (x : SReg) (s : State) :
    Host.Outcome State Fault Refusal :=
  atomicWord s d base cls spc o z x .swap
    (fun exp old v => if old = exp.toNat % 2 ^ (spanOf z 0).w then some v else none) (.cas d base cls spc o z x)

/-! ## Cache words (R132 to R134) -/

/-- PREF fetches the line that holds ea into the local cache, if it has ways; one that would fault is dropped, and it performs at
issue + 1 (R132). (Log: 18 DEDUCED.) -/
def execPref (base : SReg) (_cls : BitVec 4) (off : BitVec 17) (s : State) : Host.Outcome State Fault Refusal :=
  runWord s (fun _ _ => { regs := [.s base], reject := true }) fun s t =>
    let s := done1 s t
    match s.translate (wantOf t .gl true false) (effAddr t base off.toInt) 1 with
    | .ok [p] => if t.ways = 0 || !p.cacheable then s else s.prefetch t.cid t.job p.leaf.pa p.leaf.key
    | _ => s

/-- The physical address that a cbo names, or its fault (R133, R399). -/
def cboPiece (s : State) (t : Team) (base : SReg) (off : BitVec 17) : Except Trap (List Piece) :=
  s.translate (wantOf t .gl true false) (effAddr t base off.toInt) 1

/-- A cbo word: the line that holds ea is cleaned, and dropped by flush (R133). -/
def cboWord (s : State) (base : SReg) (off : BitVec 17) (flush : Bool) : Host.Outcome State Fault Refusal :=
  runWord s (fun s t => { regs := [.s base], reject := true, late := trapOf (cboPiece s t base off) }) fun s t =>
    let s1 := s.setTeam t
    let s2 := match cboPiece s1 t base off with
      | .ok [p] => match t.line p.leaf.pa with
        | none => s1
        | some c =>
          let u := s1.cleanLine t c
          if flush then u.setTeam { t with cache := t.cache.filter fun x => x.line != c.line }
          else u.setTeam (t.setLine { c with mask := 0 })
      | _ => s1
    s2.doneElastic t.cid s.cur

/-- CBO.CLEAN (R133). -/
def execCboClean (base : SReg) (_cls : BitVec 4) (off : BitVec 17) (s : State) := cboWord s base off false
/-- CBO.FLUSH (R133). -/
def execCboFlush (base : SReg) (_cls : BitVec 4) (off : BitVec 17) (s : State) := cboWord s base off true

/-- A bank holds an instruction ring, an operand ring, the stack or the trap frame (R134). The inbox lies in the
accumulator (R273), so no bank holds it. (Log: 131 DEDUCED.) -/
def Team.bankHolds (t : Team) (b : Nat) : Bool :=
  let lo := 131072 * b
  let hit := fun (a n : Nat) => meets a n lo (lo + 131072)
  (t.cols.toList.any fun x => hit x.base (8 * x.size)) ||
  (t.active.isSome && (hit (ringBase t.rA.cfg) (ringSlot t.rA.cfg * ringCount t.rA.cfg) ||
    hit (ringBase t.rB.cfg) (ringSlot t.rB.cfg * ringCount t.rB.cfg))) ||
  hit t.stkb.toNat (t.stkl.toNat - t.stkb.toNat) || hit t.tfb.toNat t.tfLen

/-- The checks of WAYS (R134). -/
def waysBad (t : Team) (n : Nat) : Bool :=
  12 < n ||
  ((List.range n).any fun i => t.ways ≤ i && (!t.banks.getLsbD (15 - i) || t.bankHolds (15 - i))) ||
  ((List.range 16).filter fun b => t.banks.getLsbD b && b + n ≤ 15).length < 4

/-- The lines of every way from n on written back and dropped, and banks lo to hi - 1 cleared (R134). -/
def State.dropWays (s : State) (t : Team) (n lo hi : Nat) : State :=
  let s1 := (t.cache.filter fun c => n ≤ c.way).foldl (fun s c => s.cleanLine t c) (s.setTeam t)
  s1.setTeam { t with cache := t.cache.filter fun c => c.way < n, spad := clearRange t.spad (131072 * lo) (131072 * hi),
                      spadTaint := t.spadTaint.filter fun u => u < 32768 * lo || 32768 * hi ≤ u,
                      sick := soundAfter t.sick (131072 * lo) (131072 * hi),
                      unseen := t.unseen.filter fun e => e.a < 131072 * lo || 131072 * hi ≤ e.a }

/-- An earlier ways word has still to perform (R134). -/
def Team.waysOpen (t : Team) : Bool := (if t.inSvc .ctl then t.svcPend else t.pend).any fun p =>
  match p.act with
  | .ways .. => true
  | _ => false

/-- WAYS waits for an earlier one, whose count it returns: lines of the ways that leave are written back and dropped, and
every bank that changes role is cleared. It performs when the write-backs have: until then a bank that leaves cache service
is still closed, and one that enters it is closed already; then the previous count returns to s_d (R134).
(Log: 160 DEDUCED.) -/
def execWays (d a : SReg) (s : State) : Host.Outcome State Fault Refusal :=
  if s.cur.phase = .perform then
    onTeam s fun t =>
      let n := s.cur.args.headD 0
      let old := s.cur.args.getD 1 0
      let now := t.clock .ctl
      let s1 := if n < old then s.dropWays { t with ways := n } n (16 - old) (16 - n) else s
      match s1.team t.cid with
      | none => s1
      | some u => s1.setTeam ((u.land s.cur now (.s d (BitVec.ofNat 64 old) false)).signalAt s.cur now)
  else runWord s (fun _ t =>
    { regs := [.s d, .s a], reject := true, stall := t.waysOpen,
      late := if waysBad t (t.getS a).v.toNat then some (.bounds, (t.getS a).v) else none }) fun s t =>
    let n := (t.getS a).v.toNat
    let old := t.ways
    if n = old then
      s.setTeam ((t.land s.cur (t.clock .ctl + 1) (.s d (BitVec.ofNat 64 old) false)).signalAt s.cur (t.clock .ctl + 1))
    else
      let s1 := if n < old then s.setTeam t else s.dropWays { t with ways := n } n (16 - n) (16 - old)
      match s1.team t.cid with
      | none => s1
      | some u => (s1.setTeam (u.again s.cur (s1.memDue (u.clock .ctl)) .perform [n, old] (.ways d a))).took

/-! ## Fences (R136, R137, R337) -/

/-- The fence acts on the local cache: global storage, ctl or acs named, and an agent scope of logical die or wider, or
another path beside (R137, R337). -/
def fenceCaches (sc : Scope) (stor : BitVec 4) (classes : BitVec 16) (paths : BitVec 6) : Bool :=
  let wide := match sc with
    | .die | .pkg | .sys => true
    | .stream | .team => false
  let two := 2 ≤ ((List.range 6).filter fun i => paths.getLsbD i).length
  classes != 0 && stor.getLsbD 2 && (paths.getLsbD 0 || paths.getLsbD 1) && (wide || two)

/-- A write is in the earlier set of a fence that ctl issues now: its own, or one of a word whose completion it has observed
(R136). -/
def Team.knows (t : Team) (e : Unseen) : Bool := e.src = 0 || t.heard.any fun h => h.1 = e.src && e.id ≤ h.2

/-- A fence that covers scratchpad at team scope or wider drains the writes of its classes between the paths that it names: those
of ctl, and those of words whose completion ctl has observed (R136, R332, R337). (Log: 157 DEDUCED.) -/
def Team.fenced (t : Team) (sc : Scope) (stor : BitVec 4) (classes : BitVec 16) (paths : BitVec 6) : Team :=
  if sc = .stream || !stor.getLsbD 0 then t
  else { t with unseen := performedFor (fun e => paths.getLsbD e.src && paths.getLsbD e.dst && classes.getLsbD e.cls && t.knows e) t.unseen }

/-- FENCE issues when the ctl accesses that its masks cover have performed (R136, R337); it cleans the local cache,
invalidates it, or both, and ctl holds the next word until it performs (R136, R137). In timed mode it reaches only
scratchpad and accumulator, at stream or team scope (R154). (Log: 23 DEDUCED.) -/
def execFence (sc : Scope) (stor : BitVec 4) (classes : BitVec 16) (paths : BitVec 6) (k : FenceKind) (s : State) :
    Host.Outcome State Fault Refusal :=
  runWord s (fun _ t =>
    { reject := stor.getLsbD 2 || stor.getLsbD 3 || !(sc = .stream || sc = .team),
      stall := paths.getLsbD 0 && t.ctlLeft stor classes s.cur.id }) fun s t =>
    let t := t.fenced sc stor classes paths
    if !fenceCaches sc stor classes paths then done1 s t
    else
      let s1 := s.setTeam t
      let s2 := if k = .acq then s1 else s1.cleanCache t.cid
      let s3 := if k = .rel then s2 else match s2.team t.cid with
        | some u => s2.setTeam u.invalidate
        | none => s2
      match s3.team t.cid with
      | none => s3
      | some u =>
        let due := s3.memDue (u.clock .ctl)
        (s3.setTeam ((u.signalAt s.cur due).modCol .ctl fun x => { x with portFree := due })).took

/-! ## tchk.gl (R141) -/

/-- The taint of each byte of a sector's piece as an ld would return it, without filling the cache. -/
def State.peekTaint (s : State) (t : Team) (p : Piece) : List Bool :=
  match t.line p.leaf.pa with
  | some c => if c.valid.getLsbD (p.leaf.pa / 256 % 4) then c.byteTaints p.leaf.pa p.n false else
      (List.range p.n).map fun i => c.taint.getLsbD ((p.leaf.pa + i) / 32 - 32 * c.line) ||
        s.unitTaint ((p.leaf.pa + i) / 32)
  | none => s.byteTaints p.leaf.pa p.n false

/-- The virtual address of the first tainted unit of a list of pieces (R141). -/
def State.firstTaint (s : State) (t : Team) (l : List Piece) : Option Nat :=
  l.findSome? fun p => ((List.range p.n).find? fun i => (s.peekTaint t p).getD i false).map fun i => (p.va + i) / 32 * 32

/-- TCHK.GL: the range is translated as ld does, and its first tainted unit raises the taint trap (R141). What it reads in
the window of a running program it asks of the demand sequencer, as many sectors as a core may have outstanding (R3, R325).
(Log: 24 DEDUCED.) -/
def execTchkGl (a b : SReg) (s : State) : Host.Outcome State Fault Refusal :=
  runWord s (fun s t =>
    let lo := (t.getS a).v.toNat
    let n := (t.getS b).v.toNat
    let late := if n = 0 then none else match s.translate (wantOf t .gl true false) lo n with
      | .error e => some e
      | .ok l => (s.firstTaint t (cutAll l)).map fun v => (Cause.taint, BitVec.ofNat 64 v)
    let pas := if n = 0 then [] else (s.reachedBy t .gl true false ⟨lo, lo, n, 0, 8 * n⟩).take 4096
    { regs := [.s a, .s b], reject := true, stall := n ≠ 0 && s.farStall t true pas, asks := s.windowReqs t.cid 0 false pas,
      late := late }) fun s t => (s.setTeam t).doneElastic t.cid s.cur

/-! ## lqg and sqg (R165) -/

/-- The first misaligned row (R160). -/
def rowMisaligned (rows : List Nat) : Option Trap :=
  (rows.find? fun a => a % 8 ≠ 0).map fun a => (.misalign, BitVec.ofNat 64 a)

/-- The rows of an access translated in order; a row that crosses a page is translated page by page (R165). -/
def State.translateRows (s : State) (w : Want) (rb : Nat) : List Nat → Except Trap (List (List Piece))
  | [] => .ok []
  | a :: l => match s.translate w a rb with
    | .error e => .error e
    | .ok p => match s.translateRows w rb l with
      | .error e => .error e
      | .ok r => .ok (cutAll p :: r)

/-- Rows read in order: their bits and the taint of each word (R165). -/
def State.readRows (s : State) (cid : Nat) : List (List Piece) → Except Trap (Nat × Nat × State)
  | [] => .ok (0, 0, s)
  | p :: l => match s.readPieces cid .acs false p with
    | .error e => .error e
    | .ok g => match g.2.2.readRows cid l with
      | .error e => .error e
      | .ok r =>
        let words := (List.range (g.2.1.length / 4)).foldr (fun i acc => (if g.2.1.getD (4 * i) false then 1 else 0) + 2 * acc) 0
        .ok (g.1 + 2 ^ 1024 * r.1, words + 2 ^ 32 * r.2.1, r.2.2)

/-- Rows of an entry written in order: each byte carries its word's taint (R165). -/
def State.writeRows (s : State) (cid rb : Nat) (bits taint : Nat) (extra : Bool) : List (List Piece) → Except Trap State
  | [] => .ok s
  | p :: l =>
    let tb := (List.range rb).map fun i => extra || taint / 2 ^ (i / 4) % 2 = 1
    match s.writePieces cid .acs false (bits % 256 ^ rb) (allBits rb) tb p with
    | .error e => .error e
    | .ok r => r.writeRows cid rb (bits / 2 ^ 1024) (taint / 2 ^ 32) extra l

/-- An lqg: rows translated, then read (R165). -/
def lqgRun (s : State) (t : Team) (rb : Nat) (rows : List Nat) : Except Trap (Nat × Nat × State) :=
  match rowMisaligned rows with
  | some e => .error e
  | none => match s.translateRows (wantOf t .gl true false) rb rows with
    | .error e => .error e
    | .ok l => s.readRows t.cid l

/-- An sqg: rows translated, then written (R165). -/
def sqgRun (s : State) (t : Team) (rb : Nat) (rows : List Nat) (bits taint : Nat) (extra : Bool) : Except Trap State :=
  match rowMisaligned rows with
  | some e => .error e
  | none => match s.translateRows (wantOf t .gl false true) rb rows with
    | .error e => .error e
    | .ok l => s.writeRows t.cid rb bits taint extra l

/-- The state with AUX in the traps that acs has at this position: queue, kind and entry position (R165, R384). -/
def State.labelAux (s : State) (cid aux : Nat) : State :=
  { s with teams := s.teams.map fun t =>
      if t.cid = cid then { t with traps := t.traps.map fun r =>
        if r.col = .acs && r.pos = s.cur.pos && (r.cause % 256 = Cause.translation.code || r.cause % 256 = Cause.protection.code
          || r.cause % 256 = Cause.ecc.code) then { r with aux := BitVec.ofNat 64 aux } else r } else t }

/-- AUX of the trap that an lqg or sqg has just raised (R165, R384). -/
def withAux (cid aux : Nat) : Host.Outcome State Fault Refusal → Host.Outcome State Fault Refusal
  | .next s => .next (s.labelAux cid aux)
  | o => o

/-- The rows of an lqg read; the entry lands when the last one returns, and never if a row faults (R165). -/
def State.lqgTake (s : State) (t : Team) (q : BitVec 2) (rb : Nat) (rows : List Nat) (tainted : Bool) : State :=
  match lqgRun s t rb rows with
  | .error e => s.raise (t.setQ q ((t.qAt q).filter fun x => x.id != s.cur.id)) s.cur e
  | .ok r => match r.2.2.team t.cid with
    | none => r.2.2
    | some u =>
      let all := if tainted then rowsTainted (List.replicate rows.length true) else 0
      let s' := (landEntry { r.2.2 with cur := s.cur } u q (r.2.2.memDue u.clk) r.1 (r.2.1 ||| all)).took
      rows.foldl (fun s' a => s'.watchGlobal s.cur 1 false s a rb) s'

/-- The rows of an sqg written (R165). -/
def State.sqgPut (s : State) (t : Team) (rb : Nat) (rows : List Nat) (bits taint : Nat) (tainted : Bool) : State :=
  match sqgRun s t rb rows bits taint tainted with
  | .error e => s.raise t s.cur e
  | .ok r => rows.foldl (fun s' a => s'.watchGlobal s.cur 1 true s a rb) (r.doneElastic t.cid s.cur)

/-- The sectors that the rows of an lqg or sqg reach in the memory of the package (R165). -/
def State.rowsReached (s : State) (t : Team) (write : Bool) (rb : Nat) (rows : List Nat) : List Nat :=
  rows.flatMap fun a => s.reachedBy t .gl (!write) write ⟨a, a, rb, 0, 8 * rb⟩

/-- LQG (R165). In the window of a running program it issues once the demand sequencer has served it (R325). -/
def execLqg (q : BitVec 2) (p : BitVec 3) (x : AReg) (_cls : BitVec 4) (off : BitVec 14) (s : State) :
    Host.Outcome State Fault Refusal :=
  let pos := match s.team s.cur.cid with
    | some t => (t.qAt q).findIdx fun e => e.id = s.cur.id
    | none => 0
  withAux s.cur.cid (q.toNat + 8 * pos) (runWord s (fun s t =>
      let pt := t.pattern p
      let pas := s.rowsReached t false pt.rb (patRows pt (rowBase t x off.toInt))
      { regs := [.a x, .p p], fault := patTrap t p, reject := true, stall := full (t.qAt q) || s.farStall t true pas,
        asks := s.windowReqs t.cid 0 false pas,
        late := (addrTaint t x).orElse fun _ => trapOf (lqgRun s t pt.rb (patRows pt (rowBase t x off.toInt))) }) fun s t =>
    let pt := t.pattern p
    let rows := patRows pt (rowBase t x off.toInt)
    let t := t.reserveQ q s.cur.id
    let s := s.setTeam t
    (s.asking (s.rowsReached t false pt.rb rows)).lqgTake t q pt.rb rows (t.getA x).t)

/-- SQG (R165). In the window of a running program it issues once the demand sequencer has served it (R325).
(Log: 7 DESIGN CHOICE.) -/
def execSqg (q : BitVec 2) (p : BitVec 3) (x : AReg) (_cls : BitVec 4) (off : BitVec 14) (s : State) :
    Host.Outcome State Fault Refusal :=
  withAux s.cur.cid (q.toNat + 4) (runWord s (fun s t =>
      let pt := t.pattern p
      let e := headV (t.wAt q)
      let pas := s.rowsReached t true pt.rb (patRows pt (rowBase t x off.toInt))
      { regs := [.a x, .p p], fault := patTrap t p, reject := true, stall := s.farStall t false pas,
        asks := s.windowReqs t.cid 0 true pas,
        under := if lacks (t.wAt q) 1 then some (0x4C + q.toNat) else none,
        late := (addrTaint t x).orElse fun _ =>
          trapOf (sqgRun s t pt.rb (patRows pt (rowBase t x off.toInt)) e.bits.toNat e.taint.toNat (t.getA x).t) }) fun s t =>
    let pt := t.pattern p
    let rows := patRows pt (rowBase t x off.toInt)
    let e := headV (t.wAt q)
    let t := t.setW q (t.wAt q).tail
    let s := s.setTeam t
    (s.asking (s.rowsReached t true pt.rb rows)).sqgPut t pt.rb rows e.bits.toNat e.taint.toNat (t.getA x).t)

end Sys2Proof.Machine
end

