-- ==== Sys2Proof/Machine/Matrix.lean ====
section
/-! DEFINITION. mat: formats, rings, nests, the values of a row group, and the words of the column at their issue (R217 to
R231, R239 to R247). -/

namespace Sys2Proof.Machine

/-! ## Shapes, types and rates (R219 to R222) -/

/-- The accumulator type of an ACC field (R221). -/
def accTy (a : Nat) : ElemTy := match a with | 0 => .f32 | 1 => .f64 | _ => .i32

/-- Bytes of an accumulator element (R220). -/
def accBytes (a : Nat) : Nat := if a = 1 then 8 else 4

/-- M of a format value (R221). -/
def fmtM (w : Word) : Nat := 16 * (fld w.toNat 0 5 + 1)
/-- N of a format value (R221). -/
def fmtN (w : Word) : Nat := 16 * (fld w.toNat 5 4 + 1)
/-- K of a format value (R221). -/
def fmtK (w : Word) : Nat := 16 * (fld w.toNat 9 4 + 1)
/-- ACC of a format value (R221). -/
def fmtAcc (w : Word) : Nat := fld w.toNat 13 2

/-- The element type of a bank format (R166). -/
def bankTy (w : Word) : ElemTy := (ElemTy.ofCode (fld w.toNat 0 4)).getD .f32

/-- Granules of a tile (R220). -/
def tileGranules (m n acc : Nat) : Nat := (m * n * accBytes acc + 65535) / 65536

/-- Some granule of n from g is above 23, outside the launch's allotment, or the inbox's (R220). (Log: 47 DEDUCED.) -/
def Team.granulesBad (t : Team) (g : Int) (n : Nat) : Bool :=
  (List.range n).any fun i =>
    let x := g + i
    x < 0 || 23 < x || !t.granules.getLsbD x.toNat || match t.inboxBase with
      | some b => decide ((b : Int) ≤ x) && decide (x < b + 8)
      | none => false

/-- The bounds trap of a word's own granule fields (R95, R220). -/
def granTrap (t : Team) (g n : Nat) : Option Trap := if t.granulesBad g n then some (.bounds, 0) else none

/-- The class of an operand type in the table of R219: 0 FP64, 1 FP32, 2 wide, 3 narrow, 4 scaled, 5 INT8. -/
def pairClass : ElemTy → Option Nat
  | .f64 => some 0
  | .f32 => some 1
  | .bf16 | .f16 => some 2
  | .e4m3 | .e5m2 | .e3m2 | .e2m3 => some 3
  | .q4 | .c4 => some 4
  | .i8 => some 5
  | .i16 | .i32 | .i64 | .r32 | .r64 => none

/-- Multiply-accumulates per beat of a pair of operand types under an accumulator type, if it is accepted (R219). -/
def pairRate (a b : ElemTy) (acc : Nat) : Option Nat :=
  match pairClass a, pairClass b with
  | some x, some y =>
    if x = 0 && y = 0 then (if acc = 1 then some 128 else none)
    else if x = 1 && y = 1 then (if acc < 2 then some 512 else none)
    else if x = 5 && y = 5 then (if acc = 2 then some 4096 else none)
    else if 2 ≤ x && x ≤ 4 && 2 ≤ y && y ≤ 4 && acc = 0 then
      some (if x = 2 || y = 2 then 2048 else if x = 3 || y = 3 then 4096 else 8192)
    else none
  | _, _ => none

/-- The rate of a configuration; an accepted one has one (R219). -/
def MatCfg.rate (c : MatCfg) : Nat := (pairRate (bankTy c.bankA) (bankTy c.bankB) (fmtAcc c.fmt)).getD 2048

/-- Beats of a row group of a step (R232). -/
def MatCfg.gt (c : MatCfg) : Nat := max 16 (16 * fmtN c.fmt * fmtK c.fmt / c.rate)

/-! ## Nests (R224, R226, R227) -/

/-- A step of a nest: its slot offsets, its granule offset, +0 as acc_old, and what happens at its exit. -/
structure NestStep where
  ao : Nat
  bo : Nat
  go : Int
  zero : Bool
  drain : Bool
  ckpt : Bool
  deriving DecidableEq, Repr

/-- How many steps a nest runs. -/
def Nest.total (n : Nest) : Nat := n.levels.foldl (fun x l => x * l.trips) 1

/-- The indexes i0, i1, … of step k, i0 fastest (R226). -/
def nestIndex : List NestLevel → Nat → List Nat
  | [], _ => []
  | l :: ls, k => k % l.trips :: nestIndex ls (k / l.trips)

/-- Some level that `f` picks has `g` at it and at every level below. -/
def upTo (f : NestLevel → Bool) (g : NestLevel → Nat → Bool) : List (NestLevel × Nat) → Bool
  | [] => false
  | (l, i) :: ls => g l i && (f l || upTo f g ls)

/-- Step k of a nest (R226). -/
def Nest.step (n : Nest) (k : Nat) : NestStep :=
  let l := n.levels.zip (nestIndex n.levels k)
  let last := fun (x : NestLevel) (i : Nat) => i + 1 == x.trips
  { ao := (l.map fun x => x.2 * x.1.aadv).sum, bo := (l.map fun x => x.2 * x.1.badv).sum,
    go := (l.map fun x => (x.2 : Int) * x.1.gstep).sum,
    zero := upTo (·.zero) (fun _ i => i == 0) l, drain := upTo (·.drain) last l, ckpt := upTo (·.ckpt) last l }

/-- The advance of a level for a ring. -/
def slotAdv (l : NestLevel) : Ring → Nat
  | .a => l.aadv
  | .b => l.badv

/-- The largest slot offset of a nest (R227). -/
def Nest.maxOff (n : Nest) (r : Ring) : Nat := (n.levels.map fun l => (l.trips - 1) * slotAdv l r).sum

/-- The least slot offset among steps k, k + 1, …: that of step k, or of a step with one index raised and every faster one
0 (R227); none after the last step. -/
def Nest.minFrom (n : Nest) (r : Ring) (k : Nat) : Option Nat :=
  if n.total ≤ k then none
  else
    let l := n.levels.zip (nestIndex n.levels k)
    let own := (l.map fun x => x.2 * slotAdv x.1 r).sum
    let raised := (List.range l.length).filterMap fun i =>
      match l.drop i with
      | [] => none
      | (x, j) :: up => if j + 1 < x.trips then some ((j + 1) * slotAdv x r + (up.map fun y => y.2 * slotAdv y.1 r).sum) else none
    some (raised.foldl min own)

/-- Some step from k on has a slot offset from lo to hi - 1 (R231). -/
def Nest.readsFrom (n : Nest) (r : Ring) (k lo hi : Nat) : Bool :=
  (List.range (n.total - k)).any fun i =>
    let x := n.step (k + i)
    let o := match r with | .a => x.ao | .b => x.bo
    lo ≤ o && o < hi

/-- The granule offsets that the steps of a nest touch; more than 48 trips of one level already leave the store (R220). -/
def Nest.granOffs (n : Nest) : List Int :=
  n.levels.foldl (fun (l : List Int) x =>
    if x.gstep = 0 then l
    else (l.flatMap fun (o : Int) => (List.range (min x.trips 49)).map fun (i : Nat) => o + i * x.gstep).eraseDups) [0]

/-! ## Rings (R222, R223) -/

/-- Bytes of an operand image of n elements, from the start of its slot to the end of its second plane (R30, R223). -/
def operandBytes (ty : ElemTy) (n : Nat) : Nat :=
  if ty.isSub then secondPlane n + n / perSecond ty else n * elemBytes ty

/-- Bytes that a ring occupies. -/
def ringSpan (w : Word) : Nat := ringSlot w * ringCount w

/-- The ranges that a ring may not overlap: instruction rings, the stack, the trap frame (R223). -/
def Team.ringBars (t : Team) : List (Nat × Nat) :=
  (t.stkb.toNat, t.stkl.toNat) :: (t.tfb.toNat, t.tfb.toNat + t.tfLen) ::
    t.cols.toList.map fun x => (x.base, x.base + 8 * x.size)

/-- The banks of a ring do not share one format register value (R223, R294). -/
def Team.ringMixed (t : Team) (w : Word) : Bool :=
  let b := ringBase w
  (List.range ((b + ringSpan w - 1) / 131072 - b / 131072 + 1)).any fun i =>
    t.bfmt[bankAt (131072 * (b / 131072 + i))] != t.bfmt[bankAt b]

/-- A ring of `rows` rows of K elements fails a check of R223; `other` are more ranges that it may not overlap. -/
def Team.ringBad (t : Team) (w : Word) (rows k : Nat) (other : List (Nat × Nat)) : Bool :=
  let b := ringBase w
  let n := ringSpan w
  ringSlot w = 0 || (t.spBad b n).isSome ||
  t.ringMixed w || ringSlot w < operandBytes (bankTy t.bfmt[bankAt b]) (rows * k) ||
  (t.ringBars ++ other).any fun x => meets b n x.1 x.2

/-- The byte address of position p of a ring (R222). -/
def slotAt (w : Word) (p : Nat) : Nat := ringBase w + ringSlot w * (p % ringCount w)

/-- A ring position is live (R300). -/
def RingSt.live (x : RingSt) (p : Nat) : Bool := x.head ≤ p && p < x.tail

/-- A ring as an activation leaves it: another configuration starts at slot 0 (R225). -/
def RingSt.taking (x : RingSt) (w : Word) : RingSt := if x.cfg = w then x else ⟨w, 0, 0, []⟩

/-! ## Values of a row group (R47 to R52, R219, R232, R245) -/

/-- An accumulator element's exact value. -/
def accVal (acc code : Nat) : Val := if acc = 2 then intV (readInt 32 false code) else decodeF (fmtOf (accTy acc)) code

/-- acc_old and products summed exactly and rounded once, RNE; INT8 steps saturate to INT32 (R47 to R49). -/
def accSum (acc old : Nat) (terms : List Val) : Nat × Exc :=
  let v := sumV 0 (accVal acc old :: terms)
  if acc = 2 then ((floatToInt 32 false 0 v).1, 0) else deliver (fmtOf (accTy acc)) 0 false v

/-- K exact values of row i of an operand, and whether some word that it is read from is tainted (R223, R248). -/
def operandRow (t : Team) (bank : Word) (book : List Nat) (base rows k i : Nat) : List Val × Bool :=
  let t := t.view 3
  let ty := bankTy bank
  let rd := fun a => (readByte t.spad a).toNat
  let tn := fun (lo n : Nat) => anyUnit t.spadTaint (lo / 4) ((lo + n + 3) / 4)
  let elem := fun (x : Nat) =>
    if ty.isSub then planeElem ty rd base (rows * k) x else (readNat t.spad (base + x * elemBytes ty) (elemBytes ty), 0)
  let vals := (List.range k).map fun j =>
    let c := elem (i * k + j)
    storedValue ty book (fld bank.toNat 32 32) c.1 c.2
  let two := base + secondPlane (rows * k)
  let taint := if ty.isSub then tn (base + i * k / 2) (k / 2) || tn (two + i * k / perSecond ty) (k / perSecond ty)
    else tn (base + i * k * elemBytes ty) (k * elemBytes ty)
  (vals, taint)

/-- The accumulator bytes that a row group of a step or an application writes: the first and how many (R220).
(Log: 50 DEDUCED.) -/
def RowGroup.span (r : RowGroup) : Nat × Nat :=
  (65536 * r.g + 16 * r.row * r.n * accBytes r.acc, 16 * r.n * accBytes r.acc)

/-- The row group writes the accumulator. -/
def RowGroup.writes (r : RowGroup) : Bool := r.kind != 1

/-- Two byte ranges meet. -/
def overlaps (x y : Nat × Nat) : Bool := x.1 < y.1 + y.2 && y.1 < x.1 + x.2

/-- The image of a row group as its checks fold it: its values in the accumulator type, or its stored bytes (R58). -/
def RowGroup.image (r : RowGroup) : List (BitVec 8) :=
  if r.kind = 1 && r.loc != 3 then r.bytes.map fun c => c.2.1
  else r.vals.flatMap fun v => bytesOf v.toNat (accBytes r.acc)

/-- An image with its first word combined with x by exclusive OR. -/
def wrong (x : Word) (l : List (BitVec 8)) : List (BitVec 8) :=
  if x = 0 then l
  else bytesOf (Nat.xor (natOfBytes (l.take 8)) x.toNat) (min 8 l.length) ++ l.drop 8

/-- n accumulator bytes from lo with the taint of their words, as the row groups `before` leave them when they are done and
not yet committed: the stake engine's pending values (R232). -/
def Team.accView (t : Team) (before : List RowGroup) (lo n : Nat) : List (BitVec 8 × Bool) :=
  let start := (readBytes t.acc lo n).zipIdx.map fun x => (x.1, t.accTaint.contains ((lo + x.2) / 4))
  before.foldl (fun l r =>
    if !r.writes || !r.done || r.committed || !overlaps r.span (lo, n) then l
    else
      let s := accBytes r.acc
      let cells := ((wrong r.stake r.image).zipIdx.map fun x => (x.1, r.taint.getD (x.2 / s) false)).toArray
      l.zipIdx.map fun x =>
        let a := lo + x.2
        if r.span.1 ≤ a then (cells[a - r.span.1]?).getD x.1 else x.1) start

/-- Bytes grouped into elements of s bytes: code and taint. -/
def elemsOf (s : Nat) : Nat → List (BitVec 8 × Bool) → List (Nat × Bool)
  | 0, _ => []
  | n + 1, l => (natOfBytes ((l.take s).map Prod.fst), (l.take s).any Prod.snd) :: elemsOf s n (l.drop s)

/-- The 16·N elements of acc_old of a row group (R219, R232). -/
def Team.accOld (t : Team) (before : List RowGroup) (r : RowGroup) : List (Nat × Bool) :=
  elemsOf (accBytes r.acc) (16 * r.n) (t.accView before r.span.1 r.span.2)

/-- The results of a row group of a step (R47 to R52, R219, R248). `own` holds ring A, and `other` the scratchpad that holds
ring B. -/
def stepResult (own other : Team) (c : MatCfg) (r : RowGroup) (old : List (Nat × Bool)) : List (BitVec 64) × List Bool × Exc :=
  let m := fmtM c.fmt
  let k := fmtK c.fmt
  let as_ := (List.range 16).map fun i =>
    operandRow own c.bankA (c.books.getD (fld c.bankA.toNat 8 3) []) (slotAt c.ringA r.posA) m k (16 * r.row + i)
  let bs := (List.range r.n).map fun j =>
    operandRow other c.bankB (c.books.getD (8 + fld c.bankB.toNat 8 3) []) (slotAt c.ringB r.posB) r.n k j
  let res := (as_.zipIdx.flatMap fun a => bs.zipIdx.map fun b =>
    (a.1, b.1, if r.zero then (0, false) else old.getD (a.2 * r.n + b.2) (0, false))).map fun x =>
      let y := accSum r.acc x.2.2.1 (List.zipWith mulV x.1.1 x.2.1.1)
      (BitVec.ofNat 64 y.1, x.1.2 || x.2.1.2 || x.2.2.2, y.2)
  (res.map fun x => x.1, res.map fun x => x.2.1, res.foldl (fun e x => e ||| x.2.2) 0)

/-- The results of a row group of an application: acc + contribution, rounded once (R245). -/
def applyResult (r : RowGroup) (old : List (Nat × Bool)) : List (BitVec 64) × List Bool × Exc :=
  let res := (old.zip (r.vals.zip r.taint)).map fun x =>
    let y := accSum r.acc x.1.1 [accVal r.acc x.2.1.toNat]
    (BitVec.ofNat 64 y.1, x.1.2 || x.2.2, y.2)
  (res.map fun x => x.1, res.map fun x => x.2.1, res.foldl (fun e x => e ||| x.2.2) 0)

/-! ## Drains (R240 to R243) -/

/-- The tile row and column of a storage index of a drain's record; none for padding (R240). -/
def tileAt (l : Layout) (trans : Bool) (x : Nat) : Option (Nat × Nat) :=
  (l.coords x).map fun c => if trans then (c.getD 0 0, c.getD 1 0) else (c.getD 1 0, c.getD 0 0)

/-- The storage indexes of a plain drain's row group: a two-plane block belongs to the row group that completes it (R58,
R240, R241). -/
def Layout.groupIndexes (l : Layout) (row : Nat) : List Nat :=
  let rowOf := fun (x : Nat) => ((tileAt l false x).map fun c => c.1 / 16).getD 0
  (List.range l.count).filter fun x =>
    (if l.ty.isSub then ((List.range 32).map fun i => rowOf (x / 32 * 32 + i)).foldl max 0 else rowOf x) = row

/-- The bytes stored by each row group of a drain, and its beats (R240, R242). -/
def drainBeats (m n acc : Nat) (dst : List Layout) : Nat :=
  let total := if dst.isEmpty then m * n * accBytes acc else (dst.map fun l => storedBytes l.ty l.count).sum
  max 16 ((total + 1024 * (m / 16) - 1) / (1024 * (m / 16)))

/-- The stored bytes of a drain's row group in the format of an endpoint (R241, R242): the plain image of its rows, or the
whole transposed image. -/
def drainResult (t : Team) (before : List RowGroup) (r : RowGroup) (l : Layout) (trans : Bool) : Cells × Exc :=
  let s := accBytes r.acc
  let rows := if trans then r.m else 16 * (r.row + 1)
  let tile := (elemsOf s (rows * r.n) (t.accView before (65536 * r.g) (rows * r.n * s))).toArray
  let f := fun (x : Nat) => match tileAt l trans x with
    | none => ((none, false) : Src)
    | some (i, j) =>
      let e := (tile[i * r.n + j]?).getD (0, false)
      (some (accVal r.acc e.1), e.2)
  l.encode (fun _ => 0) (accTy r.acc) (.fin false 1 1) f (if trans then List.range l.count else l.groupIndexes r.row)

/-- The check of an address from a register: a failing one is a bounds trap with the value (R217). -/
def valueTrap (t : Team) (v : Word) (al n : Nat) : Option Trap :=
  if v.toNat % al ≠ 0 || (t.spBad v.toNat n).isSome then some (.bounds, v) else none

/-- The destination of a drain of an M×N tile at a record's address, or the trap of R217, R240 and R306. `books` are the
codebook slots that a nest took at its activation (R260). -/
def State.drainDest (s : State) (t : Team) (timed trans : Bool) (books : Option (List (List Nat))) (a m n : Nat) :
    Except Trap Layout :=
  match (valueTrap t (BitVec.ofNat 64 a) 64 64).orElse fun _ => t.eccTrap 64 [a] with
  | some e => .error e
  | none =>
    let img := (t.view 3).recordImage a
    let l := recordFields img
    let bad : Except Trap Layout := .error (.bounds, BitVec.ofNat 64 a)
    if recordBad img l false || 1 < l.kind || (l.loc = 1 && l.core = t.cid) then bad
    else match s.endpoint t l with
      | none => .error (.bounds, 0)
      | some (l, u) =>
        let l := match books with
          | some b => if l.loc = 1 then l else { l with book := b.getD l.cb [] }
          | none => l
        if isResidue l.ty || l.typeBad || l.ext ≠ (if trans then [m, n, 1, 1] else [n, m, 1, 1]) then bad
        else if l.misaligned then .error (.misalign, BitVec.ofNat 64 a)
        else if l.loc = 2 then
          if timed then .error (.schedule, s.beatOf t)
          else match (runsOf l.spadBytes).foldl (fun (e : Option Trap) x => e.orElse fun _ =>
              trapOf (s.translate ⟨t.job, false, true, false⟩ x.1 x.2)) none with
            | some e => .error e
            | none => .ok { l with pages := s.pagesOf t.job l.spadBytes }
        else match spadTrap u a l.spadBytes with
          | some e => .error e
          | none =>
            if l.loc = 1 then (if timed && !sameGroup t u then .error (.bounds, 0) else .ok l)
            else if (t.firstStack l.spadBytes).isSome then .error (.bounds, 0)
            else match t.firstLive l.spadBytes with
              | some x => .error (.ringConflict, BitVec.ofNat 64 x)
              | none => .ok l

/-- The checks of a peer-add drain: the value of s_a, and the tile's granules; no rule gives their trap a value, so TVAL is 0
(R243, R289, R462). -/
def State.peerTrap (s : State) (t : Team) (timed : Bool) (v : Word) (granules : Nat) : Option Trap :=
  let bad : Option Trap := some (.bounds, 0)
  if v.toNat / 2 ^ 11 ≠ 0 || 8 < granules then bad
  else match s.teamMate t v.toNat with
    | none => bad
    | some u => if timed && !sameGroup t u then bad else none

/-! ## The engine queue (R218) -/

/-- Words that count against the queue's four (R218). -/
def Team.queued (t : Team) : Nat :=
  (t.engine.filter fun j => match j.ended with
    | none => true
    | some e => t.clk < e).length

/-- The format that the engine will run under when it reaches a word issued now: that of the last mgo in the queue, else the
active one, else the shadow format. (Log: 142 DEDUCED.) -/
def Team.formatAhead (t : Team) : Word :=
  match (t.engine.filter fun j => (j.cfg.nest.isSome || match j.act with | .mgo _ | .mgoQuad _ => true | _ => false)).getLast? with
  | some j => j.cfg.fmt
  | none => match t.active with
    | some c => c.fmt
    | none => t.mfmt

/-- The shadow configuration as a word takes it (R225). -/
def Team.taken (t : Team) : MatCfg := ⟨t.mfmt, t.mringA, t.mringB, 0, 0, [], t.mnest, none⟩

/-- The team with a word in the engine queue (R218). -/
def Team.enqueue (t : Team) (cx : Cur) (i : Instr) (c : MatCfg) (recs : List Layout) : Team :=
  let j : MatJob := ⟨cx.id, { cx with phase := .perform }, i, c, recs, 0, 0, 0, 0, false, false, none, none, none⟩
  { t with engine := t.engine ++ [j] }

/-- The gate of a word that joins the engine queue: a fifth waits (R218). -/
def queueGate (t : Team) (fault late : Option Trap) : Gate := { fault := fault, late := late, stall := 4 ≤ t.queued }

/-- A timed drain into other teams has its landings outstanding there from its start (R89, R174). -/
def State.expect (s : State) (t : Team) (timed : Bool) (id count core : Nat) : State :=
  if !timed then s
  else match s.team core with
    | none => s
    | some u => s.setTeam { u with inbound := u.inbound ++ List.replicate count (t.cid, id, u.clk) }

/-- One landing of a timed drain has taken place, or will not (R89). -/
def Team.arrived (t : Team) (sender id : Nat) : Team :=
  match t.inbound.find? fun x => x.1 = sender && x.2.1 = id with
  | some x => { t with inbound := t.inbound.erase x }
  | none => t

/-! ## The words at their issue -/

/-- The bank format registers of the team that an endpoint in its own scratchpad is decoded by, for R79. -/
def bankReads (l : Layout) : List RdName := if l.loc = 0 then (banksOf l.spadBytes).map .bank else []

/-- MFMT writes the shadow format at issue + 1 (R217, R221). -/
def execMfmt (a : SReg) (s : State) : Host.Outcome State Fault Refusal :=
  runWord s (fun s t =>
    let v := (t.getS a).v
    let bad := v.toNat / 2 ^ 15 ≠ 0 || fmtAcc v = 3
    { late := (if bad then some (.bounds, v) else none : Option Trap).orElse fun _ => earlyRead s t (sReads [a]) }) fun s t =>
    done1 s (t.land s.cur (t.clk + 1) (.mfmt (t.getS a).v))

/-- MRING writes the shadow ring configurations at issue + 1 (R217, R222). -/
def execMring (a b : SReg) (s : State) : Host.Outcome State Fault Refusal :=
  runWord s (fun s t =>
    let bad := fun (r : SReg) => if ringValueBad (t.getS r).v then some ((.bounds, (t.getS r).v) : Trap) else none
    { late := ((bad a).orElse fun _ => bad b).orElse fun _ => earlyRead s t (sReads [a, b]) }) fun s t =>
    done1 s (t.land s.cur (t.clk + 1) (.mring (t.getS a).v (t.getS b).v))

/-- A read of mnest meets an unsealed sector (R224). -/
def nestUnsealed (t : Team) (timed : Bool) (b : SReg) (x y : Nat) : Bool :=
  t.unsealed timed x 48 || (b != 0 && t.unsealed timed y 8)

/-- A level dword of a nest table fails its checks; without a descriptor a level may name no drain (R224, R462). -/
def levelBad (img : Nat) (bare : Bool) (i : Nat) : Bool :=
  match levelOf (fld img (64 * i) 64) with
  | none => true
  | some l => bare && l.drain

/-- MNEST reads its table and its descriptor at issue + 1 into the shadow nest; a sector unsealed at either beat holds it back,
and mat with it, or raises the schedule fault of a timed word (R217, R224). -/
def execMnest (a b : SReg) (s : State) : Host.Outcome State Fault Refusal :=
  if s.cur.phase = .access then
    onTeam s fun t =>
      let x := s.cur.args.headD 0
      let y := s.cur.args.getD 1 0
      let d := readNat (t.view 3).spad y 8
      let fail := fun (at_ : Nat) => s.raise t s.cur (.bounds, BitVec.ofNat 64 at_)
      if nestUnsealed t s.cur.timed b x y then
        if s.cur.timed then s.raise t s.cur (.schedule, s.beatOf t - BitVec.ofNat 64 (t.clk - s.cur.issued))
        else s.setTeam ((t.again s.cur (t.clk + 1) .access [x, y] (.mnest a b)).modCol .mat fun c =>
          { c with portFree := max c.portFree (t.clk + 1) })
      else
        let rows := (x, 48) :: if b = 0 then [] else [(y, 8)]
        let u := rows.foldl (fun (u : Team) r => u.readEcc r.2 [r.1]) t
        match rows.findSome? fun r => t.eccTrap r.2 [r.1] with
      | some e => s.raise t s.cur e
      | none =>
        let img := readNat (t.view 3).spad x 48
        let desc := if b = 0 then none else descOf d
        match (List.range 6).find? (levelBad img (b = 0)), levelsOf img 6 with
        | some i, _ => fail (x + 8 * i)
        | none, .error i => fail (x + 8 * i)
        | none, .ok l =>
          if b != 0 && desc.isNone then fail y
          else s.setTeam ((s.landWrite u (.mnest l desc)).signalAt s.cur t.clk)
  else runWord s (fun s t =>
      let x := (t.getS a).v
      let y := (t.getS b).v
      let timed := (t.col .mat).timed
      { stall := (valueTrap t x 8 48).isNone && nestUnsealed t timed b x.toNat y.toNat,
        late := ((valueTrap t x 8 48).orElse fun _ => if b = 0 then none else valueTrap t y 1 8).orElse fun _ =>
          earlyRead s t (sReads [a, b]) }) fun s t =>
    s.setTeam (t.again s.cur (t.clk + 1) .access [(t.getS a).v.toNat, (t.getS b).v.toNat] (.mnest a b))

/-- MGO takes the shadow state and joins the engine queue (R225). -/
def execMgo (g : BitVec 5) (s : State) : Host.Outcome State Fault Refusal :=
  runWord s (fun s t => queueGate t none (earlyRead s t [.shadow 0, .shadow 1, .shadow 2])) fun s t =>
    s.setTeam (t.enqueue s.cur (.mgo g) t.taken [])

/-- MGO.QUAD (R228). -/
def execMgoQuad (g : BitVec 5) (s : State) : Host.Outcome State Fault Refusal :=
  runWord s (fun s t => queueGate t none (earlyRead s t [.shadow 0, .shadow 1, .shadow 2])) fun s t =>
    s.setTeam (t.enqueue s.cur (.mgoQuad g) t.taken [])

/-- A configuration is active or an mgo in the queue will activate one (R229). -/
def Team.willBeActive (t : Team) : Bool :=
  t.active.isSome || t.engine.any fun j => match j.act with | .mgo _ | .mgoQuad _ => true | _ => false

/-- MOP runs one step with the active configuration (R229). -/
def execMop (g : BitVec 5) (z : Bool) (ia ib : BitVec 4) (s : State) : Host.Outcome State Fault Refusal :=
  runWord s (fun _ t => queueGate t (granTrap t g.toNat 1) (if t.willBeActive then none else some (.bounds, 0))) fun s t =>
    s.setTeam (t.enqueue s.cur (.mop g z ia ib) { t.taken with fmt := t.formatAhead, nest := none } [])

/-- A row group that reads or writes some granules has not committed, or a timed word may not observe its commit yet
(R230, R234). -/
def Team.granulesOpen (t : Team) (timed : Bool) (g n : Nat) : Bool :=
  t.border.any fun r =>
    overlaps (65536 * r.g, r.m * r.n * accBytes r.acc) (65536 * g, 65536 * n) &&
    (!r.committed || (timed && t.clk < r.complete + 560))

/-- An application to the inbox's tile is in progress and the tile meets n granules from g (R245). -/
def Team.applying (t : Team) (g n : Nat) : Bool :=
  let x := t.inbox.shape
  t.inbox.busy && overlaps (t.inbox.g, tileGranules x.2.1 x.2.2 x.1) (g, n)

/-- MZERO takes n beats of engine time and is committed at its end (R230); phase `access` is its start and `perform` its
end. (Log: 47, 48 DEDUCED.) -/
def execMzero (g n : BitVec 5) (s : State) : Host.Outcome State Fault Refusal :=
  let last := n.toNat + 1
  let lo := 65536 * g.toNat
  match s.cur.phase with
  | .access => onTeam s fun t =>
      if (t.granulesOpen s.cur.timed g.toNat last || t.applying g.toNat last) then
        s.setTeam (({ t with engine := t.engine.filter fun j => j.id != s.cur.id } : Team).pendTrap .mat s.cur.pos .schedule
          (s.beatOf t) 0 s.cur.issued)
      else
        let due := t.clk + last
        let p : Pend := ⟨due, rankOf .mat, { s.cur with phase := .perform }, .mzero g n⟩
        s.setTeam { t with pend := insertPend p t.pend, engineFree := due,
                           engine := t.engine.map fun j => if j.id = s.cur.id then { j with begun := true, ended := some due } else j }
  | .perform => onTeam s fun t =>
      if t.engine.any (·.id = s.cur.id) then
        s.setTeam (({ t with acc := clearRange t.acc lo (lo + 65536 * last),
                             accTaint := clearTaint t.accTaint (lo / 4) ((lo + 65536 * last) / 4),
                             accSick := soundAfter t.accSick lo (lo + 65536 * last),
                             engine := t.engine.filter fun j => j.id != s.cur.id } : Team).signalAt s.cur t.clk)
      else s
  | _ => runWord s (fun _ t => queueGate t (granTrap t g.toNat last) none) fun s t =>
      s.setTeam (t.enqueue s.cur (.mzero g n) t.taken [])

/-- The checks of a drain to records, and its endpoints (R240, R242). -/
def drainRecs (s : State) (t : Team) (g m n : Nat) (a : SReg) (b : Option SReg) : Except Trap (List Layout) :=
  let f := t.formatAhead
  let timed := (t.col .mat).timed
  if t.granulesBad g (tileGranules m n (fmtAcc f)) then .error (.bounds, 0)
  else match s.drainDest t timed false none (t.getS a).v.toNat m n with
    | .error e => .error e
    | .ok x => match b with
      | none => .ok [x]
      | some b => match s.drainDest t timed true none (t.getS b).v.toNat m n with
        | .error e => .error e
        | .ok y => .ok [x, y]

/-- A drain to records joins the engine queue with the endpoints it has read (R240, R250). -/
def drainWord (s : State) (g m n : Nat) (a : SReg) (b : Option SReg) (i : Instr) : Host.Outcome State Fault Refusal :=
  let regs := a :: b.toList
  runWord s (fun s t =>
    let timed := (t.col .mat).timed
    let open_ := regs.any fun r => (dwordTrap t (t.getS r).v.toNat 64).isNone && t.unsealed timed (t.getS r).v.toNat 64
    let plan := drainRecs s t g m n a b
    let banks := match plan with
      | .ok l => l.flatMap bankReads
      | .error _ => []
    let q := queueGate t (granTrap t g 1) ((trapOf plan).orElse fun _ => earlyRead s t (sReads regs ++ banks))
    { q with stall := q.stall || open_ }) fun s t =>
    match drainRecs s t g m n a b with
    | .error e => s.raise t s.cur e
    | .ok recs =>
      let u := regs.foldl (fun (u : Team) r => u.readEcc 64 [(t.getS r).v.toNat]) t
      let s := s.setTeam (u.enqueue s.cur i { t.taken with fmt := t.formatAhead, nest := none } recs)
      recs.zipIdx.foldl (fun s x =>
        if x.1.loc = 1 then s.expect t s.cur.timed s.cur.id (if x.2 = 0 then m / 16 else 1) x.1.core else s) s

/-- MDRAIN (R240, R241). (Log: 56 DEDUCED.) -/
def execMdrain (g : BitVec 5) (a : SReg) (m : BitVec 5) (n : BitVec 4) (s : State) : Host.Outcome State Fault Refusal :=
  drainWord s g.toNat (16 * (m.toNat + 1)) (16 * (n.toNat + 1)) a none (.mdrain g a m n)

/-- MDRAIN.T (R240, R242). -/
def execMdrainT (g : BitVec 5) (a b : SReg) (m : BitVec 5) (n : BitVec 4) (s : State) : Host.Outcome State Fault Refusal :=
  drainWord s g.toNat (16 * (m.toNat + 1)) (16 * (n.toNat + 1)) a (some b) (.mdrainT g a b m n)

/-- MDRAIN.PEER (R243). -/
def execMdrainPeer (g : BitVec 5) (a : SReg) (m : BitVec 5) (n : BitVec 4) (seq : BitVec 12) (s : State) :
    Host.Outcome State Fault Refusal :=
  let mm := 16 * (m.toNat + 1)
  let nn := 16 * (n.toNat + 1)
  runWord s (fun s t =>
    let ng := tileGranules mm nn (fmtAcc t.formatAhead)
    queueGate t (granTrap t g.toNat 1) (((granTrap t g.toNat ng).orElse fun _ =>
      s.peerTrap t (t.col .mat).timed (t.getS a).v ng).orElse fun _ => earlyRead s t (sReads [a]))) fun s t =>
    let core := (t.getS a).v.toNat
    let cfg := { t.taken with fmt := t.formatAhead, nest := none }
    (s.setTeam (t.enqueue { s.cur with args := [core] } (.mdrainPeer g a m n seq) cfg [])).expect t s.cur.timed s.cur.id
      (mm / 16) core

/-- A dword that a mat word will write: 8-aligned, allotted, and outside the stack, the trap frame and every live slot
(R239, R240, R247). -/
def writeTrap (t : Team) (v : Word) : Option Trap :=
  (valueTrap t v 8 8).orElse fun _ =>
    if t.inStackOrFrame v.toNat 8 || (t.liveHit v.toNat 8).isSome then some (.bounds, v) else none

/-- The team with a dword written into its scratchpad, untainted. -/
def Team.putDword (t : Team) (a x : Nat) : Team :=
  { t.performed ((List.range 8).map (a + ·)) with spad := writeNat t.spad a x 8, spadTaint := clearTaint t.spadTaint (a / 4) (a / 4 + 2) }

/-- MCHK: 8192 beats of engine time; phase `access` is its start (R239). -/
def execMchk (a : SReg) (s : State) : Host.Outcome State Fault Refusal :=
  if s.cur.phase = .access then
    onTeam s fun t =>
      let due := t.clk + 8192
      let p : Pend := ⟨due, rankOf .mat, { s.cur with phase := .perform }, .mchkResult⟩
      s.setTeam { t with pend := insertPend p t.pend, engineFree := due,
                         engine := t.engine.map fun j => if j.id = s.cur.id then { j with begun := true, ended := some due } else j }
  else runWord s (fun s t => queueGate t none ((writeTrap t (t.getS a).v).orElse fun _ => earlyRead s t (sReads [a]))) fun s t =>
    s.setTeam (t.enqueue { s.cur with args := [(t.getS a).v.toNat] } (.mchk a) t.taken [])

/-- MINBOX: the configuration becomes active at issue + 1, or once the application in progress has committed, and the SIGNAL fires
then (R92, R244). -/
def execMinbox (g : BitVec 5) (a : SReg) (s : State) : Host.Outcome State Fault Refusal :=
  runWord s (fun s t =>
    let v := (t.getS a).v
    let x : Inbox := { t.inbox with cfg := v }
    let bad := v.toNat / 2 ^ 29 ≠ 0 || x.shape.1 = 3
    { fault := granTrap t g.toNat 1,
      late := ((if bad then some (.bounds, v) else none : Option Trap).orElse fun _ =>
        granTrap t g.toNat (tileGranules x.shape.2.1 x.shape.2.2 x.shape.1)).orElse fun _ =>
          earlyRead s t (sReads [a] ++ [.shadow 3]) }) fun s t =>
    s.setTeam (t.land s.cur (t.clk + 1) (.minbox g.toNat (t.getS a).v))

/-! ## mplait and mpop (R231, R247) -/

/-- A word in the engine queue before word `id` will still make a drain, or a checkpoint. -/
def Team.stillMakes (t : Team) (id : Nat) (ckpt : Bool) : Bool :=
  t.engine.any fun j => j.id < id && j.ended.isNone && match j.act with
    | .mdrain .. | .mdrainT .. | .mdrainPeer .. => !ckpt
    | .mgo _ | .mgoQuad _ => match j.cfg.nest with
      | some n => n.levels.any fun l => if ckpt then l.ckpt else l.drain
      | none => false
    | _ => false

/-- The most recent drain or checkpoint of the words before word `id` (R247). -/
def Team.lastPlait (t : Team) (id : Nat) (ckpt : Bool) : Option PlaitRec :=
  (t.plaits.filter fun p => p.job < id && p.ckpt == ckpt).getLast?

/-- The plait that mplait names has its last row group committed, and a timed word may observe it (R234, R247). -/
def Team.plaitReady (t : Team) (timed : Bool) (id : Nat) (w : PlaitSel) : Bool :=
  let c := w == .checkpoint
  !t.stillMakes id c && match t.lastPlait id c with
    | none => true
    | some p => p.value.isSome && (!timed || p.obs ≤ t.clk)

/-- The dword that mplait writes (R247). (Log: 52 DEDUCED.) -/
def Team.plaitValue (t : Team) (id : Nat) (w : PlaitSel) : Word :=
  match (t.lastPlait id (w == .checkpoint)).bind (·.value) with
  | none => 0
  | some v => if w = .transposed then v.2 else v.1

/-- MPLAIT (R247). -/
def execMplait (w : PlaitSel) (a : SReg) (s : State) : Host.Outcome State Fault Refusal :=
  if s.cur.phase = .perform then
    onTeam s fun t =>
      s.setTeam ((t.putDword (s.cur.args.headD 0) (t.plaitValue s.cur.id w).toNat).signalAt s.cur t.clk)
  else runWord s (fun s t =>
      { stall := (t.col .mat).timed && !t.plaitReady true s.cur.id w,
        late := (writeTrap t (t.getS a).v).orElse fun _ => earlyRead s t (sReads [a]) }) fun s t =>
    s.setTeam (t.await s.cur [(t.getS a).v.toNat] (.mplait w a))

/-- The ring position of a row group's operand. -/
def RowGroup.pos (r : RowGroup) : Ring → Nat
  | .a => r.posA
  | .b => r.posB

/-- A ring as the mat words name it. -/
def Team.ringOf (t : Team) (r : Ring) : RingSt := match r with | .a => t.rA | .b => t.rB

/-- A step of a word before word `id` that reads positions lo to hi - 1 has not committed, or a timed word may not observe
its commit yet (R231, R234). -/
def Team.slotsOpen (t : Team) (timed : Bool) (id : Nat) (r : Ring) (lo hi : Nat) : Bool :=
  (t.border.any fun x => x.kind = 0 && x.job < id && lo ≤ x.pos r && x.pos r < hi &&
    (!x.committed || (timed && t.clk < x.complete + 560))) ||
  t.engine.any fun j => j.id < id && j.ended.isNone && match j.act with
    | .mop _ _ ia ib =>
      let p := (t.ringOf r).head + match r with | .a => ia.toNat | .b => ib.toNat
      lo ≤ p && p < hi
    | .mgo _ | .mgoQuad _ => !j.begun || match j.cfg.nest with
      | some n =>
        let h := match r with | .a => j.hA | .b => j.hB
        n.readsFrom r j.k (lo - h) (hi - h)
      | none => false
    | _ => false

/-- Another core of the quad whose steps read ring B of this team still has such a step: in its Border, in its queue, or in the
part of its nest that has not started (R228). -/
def State.sharedOpen (s : State) (t : Team) (timed : Bool) (lo hi : Nat) : Bool :=
  s.teams.any fun u => u.cid != t.cid && (
    (u.border.any fun x => x.kind = 0 && lo ≤ x.posB && x.posB < hi &&
      (!x.committed || (timed && u.clk < x.complete + 560)) &&
      match u.engine.find? fun j => j.id = x.job with
      | some j => j.cfg.bFrom = some t.cid
      | none => false) ||
    u.engine.any fun j => j.ended.isNone && match j.act with
      | .mop _ _ _ ib => (u.active.bind fun c => c.bFrom) = some t.cid && lo ≤ t.rB.head + ib.toNat && t.rB.head + ib.toNat < hi
      | _ => false)

/-- The nest of another core of the quad still has to read one of positions lo to hi - 1 of this team's ring B (R228, R231). -/
def State.sharedReads (s : State) (t : Team) (lo hi : Nat) : Bool :=
  s.teams.any fun u => u.cid != t.cid && u.engine.any fun j => j.begun && j.ended.isNone && j.cfg.bFrom = some t.cid &&
    match j.cfg.nest with
    | some n => n.readsFrom .b j.k (lo - j.hB) (hi - j.hB)
    | none => false

/-- A step that reads some positions of a ring has not committed, in this core or in one that shares the ring (R228, R231). -/
def State.popOpen (s : State) (t : Team) (timed : Bool) (id : Nat) (r : Ring) (lo hi : Nat) : Bool :=
  t.slotsOpen timed id r lo hi || (r = .b && s.sharedOpen t timed lo hi)

/-- Positions that earlier mpop words have still to retire. (Log: 53 DEDUCED.) -/
def Team.popsAhead (t : Team) (r : Ring) : Nat :=
  (t.waiting.map fun p => match p.act with
    | .mpop q n => if q = r then n.toNat + 1 else 0
    | _ => 0).sum

/-- An active nest still has to read one of positions lo to hi - 1 (R231). -/
def Team.nestReads (t : Team) (r : Ring) (lo hi : Nat) : Bool :=
  t.engine.any fun j => j.begun && j.ended.isNone && match j.cfg.nest with
    | some n =>
      let h := match r with | .a => j.hA | .b => j.hB
      n.readsFrom r j.k (lo - h) (hi - h)
    | none => false

/-- MPOP retires n slots once every issued step that reads them has committed, in both cores of a column of a quad (R228, R231).
(Log: 53 DEDUCED.) -/
def execMpop (r : Ring) (n : BitVec 4) (s : State) : Host.Outcome State Fault Refusal :=
  let k := n.toNat + 1
  if s.cur.phase = .perform then
    onTeam s fun t =>
      let x := t.ringOf r
      s.setTeam ((t.setRing r { x with head := max x.head (s.cur.args.headD 0 + k) }).signalAt s.cur t.clk)
  else runWord s (fun s t =>
      let lo := (t.ringOf r).head + t.popsAhead r
      let bad := (t.ringOf r).tail < lo + k || t.nestReads r lo (lo + k) || (r = .b && s.sharedReads t lo (lo + k))
      { stall := (t.col .mat).timed && s.popOpen t true s.cur.id r lo (lo + k),
        late := if bad then some (.bounds, 0) else none }) fun s t =>
    s.setTeam (t.await s.cur [(t.ringOf r).head + t.popsAhead r] (.mpop r n))

end Sys2Proof.Machine
end

