-- ==== Sys2Proof/Machine/Engine.lean ====
section
/-! DEFINITION. The matrix engines: activation, steps, drains, row groups in the Border, Bodkin, peer-add, and the
known-answer test (R225 to R246, R445). -/

namespace Sys2Proof.Machine

/-! ## What the engine does next -/

/-- The first word of the queue whose engine time has not ended (R218). -/
def Team.headJob (t : Team) : Option MatJob := t.engine.find? fun j => j.ended.isNone

/-- A job of the engine queue. -/
def Team.jobOf (t : Team) (id : Nat) : Option MatJob := t.engine.find? fun j => j.id = id

/-- The team with a job replaced. -/
def Team.setJob (t : Team) (j : MatJob) : Team := { t with engine := t.engine.map fun k => if k.id = j.id then j else k }

/-- A step as the engine is about to run it. -/
structure StepPlan where
  g : Nat
  a : Nat
  b : Nat
  zero : Bool
  drain : Bool
  ckpt : Bool
  deriving DecidableEq, Repr

/-- The team whose scratchpad holds ring B of a configuration (R228). -/
def State.ringOwner (s : State) (t : Team) (c : MatCfg) : Team :=
  match c.bFrom with
  | some cid => (s.team cid).getD t
  | none => t

/-- The granule that a nest word names. -/
def nestBase : Instr → Nat
  | .mgo g => g.toNat
  | .mgoQuad g => g.toNat
  | _ => 0

/-- The configuration that a job's step runs under: a mop's is the active one (R229). -/
def Team.stepCfg (t : Team) (j : MatJob) : MatCfg := if j.cfg.nest.isSome then j.cfg else t.active.getD j.cfg

/-- The next step of a job (R226, R229). -/
def State.nextStep (s : State) (t : Team) (j : MatJob) : Option StepPlan :=
  match j.act with
  | .mop g z ia ib => some ⟨g.toNat, t.rA.head + ia.toNat, (s.ringOwner t (t.stepCfg j)).rB.head + ib.toNat, z, false, false⟩
  | _ => match j.cfg.nest with
    | none => none
    | some n =>
      if n.total ≤ j.k then none
      else
        let x := n.step j.k
        some ⟨(nestBase j.act + x.go).toNat, j.hA + x.ao, j.hB + x.bo, x.zero, x.drain, x.ckpt⟩

/-- Both slots of a step are live and sealed, and no application holds its tile (R226, R234, R245, R445).
(Log: 58 DEDUCED.) -/
def State.stepReady (s : State) (t : Team) (j : MatJob) (p : StepPlan) : Bool :=
  let c := t.stepCfg j
  let u := s.ringOwner t c
  t.rA.live p.a && u.rB.live p.b &&
  !t.unsealed j.cx.timed (slotAt c.ringA p.a) (operandBytes (bankTy c.bankA) (fmtM c.fmt * fmtK c.fmt)) &&
  !u.unsealed j.cx.timed (slotAt c.ringB p.b) (operandBytes (bankTy c.bankB) (fmtN c.fmt * fmtK c.fmt)) &&
  !t.applying p.g (tileGranules (fmtM c.fmt) (fmtN c.fmt) (fmtAcc c.fmt))

/-- A drain of an M×N tile of a type from a granule. -/
structure DrainPlan where
  g : Nat
  m : Nat
  n : Nat
  acc : Nat
  mode : Nat
  a : Nat
  b : Nat
  seq : Nat
  deriving DecidableEq, Repr

/-- The drain that a job is to make: its own, or that of its nest's last exit (R226, R240). -/
def Team.nextDrain (t : Team) (j : MatJob) : DrainPlan :=
  let acc := fmtAcc j.cfg.fmt
  let sz := fun (m : BitVec 5) => 16 * (m.toNat + 1)
  let sn := fun (n : BitVec 4) => 16 * (n.toNat + 1)
  match j.act with
  | .mdrain g _ m n => ⟨g.toNat, sz m, sn n, acc, 0, 0, 0, 0⟩
  | .mdrainT g _ _ m n => ⟨g.toNat, sz m, sn n, acc, 1, 0, 0, 0⟩
  | .mdrainPeer g _ m n q => ⟨g.toNat, sz m, sn n, acc, 2, j.cx.args.headD 0, 0, q.toNat⟩
  | _ => match j.cfg.nest with
    | none => ⟨0, 16, 16, acc, 0, 0, 0, 0⟩
    | some n =>
      let g := (nestBase j.act + (n.step (j.k - 1)).go).toNat
      match n.desc with
      | none => ⟨g, fmtM j.cfg.fmt, fmtN j.cfg.fmt, acc, 0, 0, 0, 0⟩
      | some d => ⟨g, fmtM j.cfg.fmt, fmtN j.cfg.fmt, acc, d.mode, d.record, d.trec, (d.seq0 + j.drains) % 4096⟩

/-- Bytes of a tile from its base granule. -/
def DrainPlan.span (d : DrainPlan) : Nat × Nat := (65536 * d.g, d.m * d.n * accBytes d.acc)

/-- The records of a nest's drain lie in sealed sectors (R226, R445). -/
def Team.recordsSealed (t : Team) (j : MatJob) (d : DrainPlan) : Bool :=
  !j.exit || d.mode = 2 ||
    !(t.unsealed j.cx.timed d.a 64 || (d.mode = 1 && t.unsealed j.cx.timed d.b 64))

/-- Every earlier row group that writes the tile has completed (R240). -/
def Team.tileDone (t : Team) (d : DrainPlan) : Bool := t.border.all fun r => !r.writes || r.done || !overlaps r.span d.span

/-- The quad's teams of a team, in the order of R228; the list is shorter than four where a position has no team. -/
def State.quad (s : State) (t : Team) : List Team :=
  let x := fld t.patch.toNat 0 16 / 2 * 2
  let y := fld t.patch.toNat 16 16 / 2 * 2
  let z := fld t.patch.toNat 32 16
  [(x, y), (x + 1, y), (x, y + 1), (x + 1, y + 1)].filterMap fun c => s.teams.find? fun u =>
    u.launch = t.launch && dieOf u.cid = dieOf t.cid &&
    fld u.patch.toNat 0 16 = c.1 && fld u.patch.toNat 16 16 = c.2 && fld u.patch.toNat 32 16 = z

/-- The quad job at the head of a team's queue. -/
def Team.quadJob (t : Team) : Option MatJob := t.headJob.bind fun j => match j.act with
  | .mgoQuad _ => some j
  | _ => none

/-- Every core of a quad can start the same step (R228). -/
def State.quadReady (s : State) (t : Team) (j : MatJob) : Bool :=
  (s.quad t).all fun u => !u.frozen && match u.quadJob with
    | none => false
    | some i => i.begun && i.k = j.k && !i.exit && u.engineFree ≤ u.clk && match s.nextStep u i with
      | none => false
      | some p => s.stepReady u i p

/-- The engine is free for a job on this beat. -/
def Team.engineIdle (t : Team) (j : MatJob) : Bool :=
  t.engineFree ≤ t.clk && match t.headJob with
    | some i => i.id = j.id
    | none => false

/-- A timed mgo whose activation beat S has come while the engine is busy (R225). -/
def Team.lateMgo (t : Team) : Option MatJob :=
  t.engine.find? fun j => j.cx.timed && !j.begun && j.ended.isNone && j.reach.isNone && j.cx.issued < t.clk &&
    !t.engineIdle j && match j.act with
      | .mgo _ | .mgoQuad _ => true
      | _ => false

/-- What the engine does on this beat, if anything, and for which job (R218, R225, R226, R240). A timed job that is starved
goes to its event, which raises the schedule fault. (Log: 58 DEDUCED.) -/
def State.engineDue (s : State) (t : Team) : Option (MatJob × Instr) :=
  match t.lateMgo, t.headJob with
  | some j, _ => some (j, .mgoActivation)
  | none, none => none
  | none, some j =>
    let timed := j.cx.timed
    if t.clk < t.engineFree || t.clk ≤ j.cx.issued then none
    else
      let drain := let d := t.nextDrain j
        if t.tileDone d && (timed || (!t.applying d.g (tileGranules d.m d.n d.acc) && t.recordsSealed j d)) then some (j, Instr.drainStart) else none
      let step := match s.nextStep t j with
        | none => none
        | some p =>
          let ready := match j.act with
            | .mgoQuad _ => s.quadReady t j
            | _ => s.stepReady t j p
          if ready || timed then some (j, Instr.stepStart) else none
      match j.act with
      | .mgo _ => if !j.begun then some (j, .mgoActivation) else if j.exit then drain else step
      | .mgoQuad _ =>
        if !j.begun then match j.reach, j.quadAt with
          | some _, some q => if q ≤ t.clk then some (j, .mgoActivation) else none
          | some _, none => none
          | none, _ => some (j, .mgoActivation)
        else if j.exit then drain else step
      | .mop .. => if t.active.isNone then some (j, .stepStart) else step
      | .mzero g n =>
        if timed || !(t.granulesOpen false g.toNat (n.toNat + 1) || t.applying g.toNat (n.toNat + 1)) then some (j, j.act) else none
      | .mchk _ => some (j, j.act)
      | .mdrain .. | .mdrainT .. | .mdrainPeer .. => drain
      | _ => none

/-- The context in which the engine's event for a job runs. -/
def MatJob.context (j : MatJob) (i : Instr) : Cur :=
  match i with
  | .mzero .. | .mchk _ => { j.cx with phase := .access }
  | _ => { j.cx with phase := .perform }

/-! ## Commits (R233) -/

/-- Row groups that wait for an earlier one. -/
def Team.waitsFor (t : Team) (r : RowGroup) : Bool := t.border.any fun x => r.deps.contains x.id && !x.committed

/-- The first row group that may commit now (R233). -/
def Team.commitDue (t : Team) : Option RowGroup :=
  t.border.find? fun r => r.done && !r.committed && !r.failed && r.complete + 48 ≤ t.clk && !t.waitsFor r

/-- The team with a row group replaced. -/
def Team.setGroup (t : Team) (r : RowGroup) : Team := { t with border := t.border.map fun x => if x.id = r.id then r else x }

/-- A row group of the Border. -/
def Team.rowGroup (t : Team) (id : Nat) : Option RowGroup := t.border.find? fun r => r.id = id

/-- The least slot offset among a nest's steps that have not committed (R227). (Log: 49 DEDUCED.) -/
def Team.leastOff (t : Team) (j : MatJob) (n : Nest) (r : Ring) : Option Nat :=
  let h := match r with | .a => j.hA | .b => j.hB
  let open_ := (t.border.filter fun x => x.job = j.id && x.kind = 0 && !x.committed).map fun x => x.pos r - h
  match n.minFrom r j.k, open_ with
  | none, [] => none
  | none, x :: l => some (l.foldl min x)
  | some m, l => some (l.foldl min m)

/-- The ring head that a nest gives (R227). -/
def Team.nestHead (t : Team) (j : MatJob) (n : Nest) (r : Ring) : Nat :=
  let h := match r with | .a => j.hA | .b => j.hB
  match t.leastOff j n r with
  | some m => h + m
  | none => h + n.maxOff r + 1

/-- A ring with its head moved on, hidden from timed words until a beat (R227, R234). (Log: 49 DEDUCED.) -/
def RingSt.retire (x : RingSt) (clk obs head : Nat) : RingSt :=
  if head ≤ x.head then x
  else { x with head := head, hidden := (x.hidden.filter fun e => clk < e.1) ++ [(obs, x.head)] }

/-- Ring A of a team and ring B of its owner, with the slots retired that every nest reading them has done with (R227,
R228). The nests of a quad that read one ring B retire it together. (Log: 49 DEDUCED.) -/
def State.retireSlots (s : State) (cid obs : Nat) : State :=
  match s.team cid with
  | none => s
  | some t =>
    let t := t.engine.foldl (fun (t : Team) j => match j.cfg.nest with
      | some n => if j.begun && t.rA.cfg = j.cfg.ringA then { t with rA := t.rA.retire t.clk obs (t.nestHead j n .a) } else t
      | none => t) t
    let s := s.setTeam t
    t.engine.foldl (fun (s : State) j => match j.cfg.nest with
      | none => s
      | some n =>
        let own := s.ringOwner ((s.team cid).getD t) j.cfg
        let heads := s.teams.flatMap fun u => u.engine.filterMap fun i =>
          if i.begun && i.cfg.nest.map (·.levels) = some n.levels && i.hB = j.hB && i.cfg.ringB = j.cfg.ringB &&
             (s.ringOwner u i.cfg).cid = own.cid && ((u.cid = t.cid && i.id = j.id) || u.cid != t.cid)
          then some (u.nestHead i n .b) else none
        let h := heads.foldl min (t.nestHead j n .b)
        if j.begun && own.rB.cfg = j.cfg.ringB then s.setTeam { own with rB := own.rB.retire own.clk obs h } else s) s

/-- The image of a drain in storage order from its row groups' cells (R58, R247). -/
def imageOfCells (l : Layout) (cells : Cells) : List (BitVec 8) :=
  l.spadBytes.map fun a => match cells.find? fun c => c.1 = a with
    | some c => c.2.1
    | none => 0

/-- The plait of the image that some row groups make: of a tile in the accumulator type, or in the format of an
endpoint. -/
def Team.plaitOf (t : Team) (ids : List Nat) (l : Option Layout) : Word :=
  let rs := ids.filterMap t.rowGroup
  match l with
  | none => plait (rs.flatMap RowGroup.image)
  | some l => plait (imageOfCells l (rs.flatMap (·.bytes)))

/-- The plaits of every drain and checkpoint whose row groups have now all committed (R226, R247). -/
def Team.resolvePlaits (t : Team) : Team :=
  let ready := fun (p : PlaitRec) => (p.rgs ++ p.trans).all fun i => match t.rowGroup i with
    | some r => r.committed
    | none => true
  let value := fun (p : PlaitRec) => (t.plaitOf p.rgs p.dst.head?, if p.trans.isEmpty then 0 else t.plaitOf p.trans p.dst[1]?)
  let obs := fun (p : PlaitRec) => ((p.rgs ++ p.trans).filterMap t.rowGroup).foldl (fun m r => max m (r.complete + 560)) 0
  { t with plaits := t.plaits.map fun p =>
      if p.value.isNone && ready p then { p with value := some (value p), obs := obs p } else p }

/-- The Border without the row groups that nothing can wait for any longer. -/
def Team.prune (t : Team) : Team :=
  let named := (t.plaits.filter fun p => p.value.isNone).flatMap fun p => p.rgs ++ p.trans
  { t with border := t.border.filter fun r => !r.committed || !r.released || t.clk < r.complete + 560 || named.contains r.id }

/-- A word of the queue has performed: its engine time has ended, and every row group of it has committed and left the
Border (R92, R240). -/
def Team.jobDone (t : Team) (j : MatJob) : Bool :=
  j.ended.isSome && (match j.act with
    | .mzero .. | .mchk _ => false
    | _ => true) &&
  t.border.all fun r => r.job != j.id || (r.committed && r.released)

/-- Words of the queue that have performed fire their SIGNALs and leave it (R92, R218). -/
def Team.finishJobs (t : Team) : Team :=
  let done := t.engine.filter t.jobDone
  done.foldl (fun (u : Team) j => u.signalAt j.cx u.clk) { t with engine := t.engine.filter fun j => !t.jobDone j }

/-- The last row group of a contribution has committed: SEQ and counter J move on, and an early contribution may be next, under
the configuration of a minbox that waited for this commit if there is one (R244, R245). -/
def Team.applied (t : Team) (r : RowGroup) : Team :=
  if r.kind != 2 || 16 * (r.row + 1) < r.m then t
  else
    let x := t.inbox
    let cfg := x.cfg.toNat
    let next := t.waiting.any fun p => match p.act with
      | .registerWriteLands (.minbox ..) => true
      | _ => false
    let j : BitVec 5 := BitVec.ofNat 5 (fld cfg 23 5)
    let t := { t with inbox := { x with seq := (x.seq + 1) % 4096, busy := false, rows := [], row := 0, applied := x.applied ++ [x.seq] } }
    let t := if fld cfg 28 1 = 1 then ({ t with hidden := t.hidden ++ [(j.toNat, r.complete + 560)] } : Team).addCnt j 1 else t
    if next then t else t.takeEarly

/-- What follows a commit: slots retire, plaits become known, words perform (R227, R233). -/
def State.afterCommit (s : State) (cid obs : Nat) : State :=
  let s := s.retireSlots cid obs
  match s.team cid with
  | none => s
  | some t => s.setTeam t.resolvePlaits.finishJobs.prune

/-- COMMIT of a row group with an image (R233, R235, R445): values to the accumulator, or stored bytes over those of own
scratchpad, exceptions to MEXC; bytes bound elsewhere leave at completion + 560 (R234). `seen` is the beat from which timed
words observe the commit. -/
def State.commitGroup (s : State) (cid : Nat) (r : RowGroup) (img : List (BitVec 8)) (seen : Nat) : State :=
  match s.team cid with
  | none => s
  | some t =>
    let b := accBytes r.acc
    let vals := (elemsOf b (16 * r.n) (img.map fun x => (x, false))).map fun x => BitVec.ofNat 64 x.1
    let own := r.kind = 1 && r.loc != 3
    let r' : RowGroup := { r with
      complete := seen - 560, done := true, committed := true, failed := false, stake := 0, released := r.kind != 1 || r.loc = 0,
      vals := if own then r.vals else vals,
      bytes := if own then (r.bytes.zip img).map fun x => (x.1.1, x.2, x.1.2.2) else r.bytes }
    let t := { t with mexc := t.mexc ||| r.exc.setWidth 64, plaitObs := max t.plaitObs seen }
    let t := if r.kind = 1 then (if r.loc = 0 then t.putCells r'.bytes else
        { t with pend := insertPend ⟨max (r.complete + 560) t.clk, rankOf .mat, { r.cx with phase := .issue, args := [r.id, r.complete] }, .borderRelease⟩ t.pend })
      else
        let words := (r.taint.zipIdx.flatMap fun x => (List.range (b / 4)).map fun i => (r.span.1 / 4 + x.2 * (b / 4) + i, x.1))
        { t with acc := writeBytes t.acc r.span.1 (img.map some), accTaint := words.foldl (fun l x => setUnit l x.1 x.2) t.accTaint,
                 accSick := soundAfter t.accSick r.span.1 (r.span.1 + img.length) }
    (s.setTeam ((t.setGroup r').applied r')).afterCommit cid seen

/-- ROW_GROUP_COMMIT (R233, R236): the plaits of the two engines are compared; a row group whose plaits differ does not
commit and requests a freeze. -/
def execRowGroupCommit (s : State) : Host.Outcome State Fault Refusal :=
  onTeam s fun t => match t.rowGroup (s.cur.args.headD 0) with
    | none => s
    | some r =>
      if !r.done || r.committed || r.failed then s
      else
        let w := s.upset t.cid r.id 1
        let stake := wrong r.stake r.image
        if r.stake = w || plait stake = plait (wrong w r.image) then s.commitGroup t.cid r stake (r.complete + 560)
        else s.setTeam { t.setGroup { r with failed := true, found := s.beatOf t } with freezeReq := earlier t.freezeReq t.clk }

/-! ## Completion (R232, R235, R240) -/

/-- A row group with the values that both engines compute at its completion, from what stands before it. -/
def State.computeGroup (s : State) (t : Team) (r : RowGroup) : RowGroup :=
  let before := t.border.takeWhile fun x => x.id != r.id
  let put := fun (x : List (BitVec 64) × List Bool × Exc) => { r with vals := x.1, taint := x.2.1, exc := x.2.2 }
  match r.kind with
  | 0 => match t.jobOf r.job with
    | some j => put (stepResult t (s.ringOwner t j.cfg) j.cfg r (if r.zero then [] else t.accOld before r))
    | none => r
  | 1 =>
    if r.loc = 3 then
      let l := t.accOld before r
      { r with vals := l.map fun x => BitVec.ofNat 64 x.1, taint := l.map fun x => x.2 }
    else match t.plaits.find? fun p => p.rgs.contains r.id || p.trans.contains r.id with
      | none => r
      | some p => match p.dst[r.part]? with
        | none => r
        | some l =>
          let x := drainResult t before r l (r.part = 1)
          { r with bytes := x.1, exc := x.2 }
  | _ => put (applyResult r (t.accOld before r))

/-- ROW_GROUP_COMPLETE (R232): a drain into own scratchpad writes the stake engine's bytes, unsealed (R235, R445). -/
def execRowGroupComplete (s : State) : Host.Outcome State Fault Refusal :=
  onTeam s fun t => match t.rowGroup (s.cur.args.headD 0) with
    | none => s
    | some r =>
      if r.done then s
      else
      let r := { s.computeGroup t r with done := true, stake := s.upset t.cid r.id 0 }
      if r.kind = 1 && r.loc = 0 then
        let saved := t.getCells (r.bytes.map fun c => c.1)
        let cells := (r.bytes.zip (wrong r.stake r.image)).map fun x => (x.1.1, x.2, x.1.2.2)
        s.setTeam ((t.putCells cells).setGroup { r with saved := saved })
      else s.setTeam (t.setGroup r)

/-! ## Starting work -/

/-- Uncommitted row groups that write some accumulator bytes (R233). -/
def Team.writers (t : Team) (span : Nat × Nat) : List Nat :=
  (t.border.filter fun r => r.writes && !r.committed && overlaps r.span span).map (·.id)

/-- The team with row groups in the Border, each to complete at its beat (R232). -/
def Team.addGroups (t : Team) (l : List RowGroup) : Team :=
  l.foldl (fun (t : Team) r =>
    { t with border := t.border ++ [r], nextId := t.nextId + 1,
             pend := insertPend ⟨r.complete, rankOf .mat, { r.cx with args := [r.id] }, .rowGroupComplete⟩ t.pend }) t

/-- A job fails: the trap is recorded against its word, the rest of its work is dropped, and its SIGNAL never fires
(R92, R248). (Log: 64 DEDUCED.) -/
def State.failJob (s : State) (t : Team) (j : MatJob) (x : Trap) : State :=
  let j' := { j with ended := some t.clk, exit := false, cx := { j.cx with signal := .none } }
  let t := { t.setJob j' with toks := t.toks.filter (·.id != j.id) }
  let drop := fun (u : Team) => { u with inbound := u.inbound.filter fun e => e.1 != t.cid || e.2.1 != j.id }
  let s := s.setTeam ((t.pendTrap .mat j.cx.pos x.1 x.2 0 j.cx.issued).finishJobs)
  { s with teams := s.teams.map drop }

/-- What a step reads: the bytes of its slots, of ring A and ring B, and of its tile, where it adds to it (R222, R226, R232). -/
def StepPlan.reads (p : StepPlan) (c : MatCfg) : (Nat × Nat) × (Nat × Nat) × (Nat × Nat) :=
  ((slotAt c.ringA p.a, operandBytes (bankTy c.bankA) (fmtM c.fmt * fmtK c.fmt)),
   (slotAt c.ringB p.b, operandBytes (bankTy c.bankB) (fmtN c.fmt * fmtK c.fmt)),
   (65536 * p.g, if p.zero then 0 else fmtM c.fmt * fmtN c.fmt * accBytes (fmtAcc c.fmt)))

/-- The ECC trap of a step's reads (R438). -/
def State.stepEcc (s : State) (t : Team) (p : StepPlan) (c : MatCfg) : Option Trap :=
  let r := p.reads c
  ((t.eccTrap r.1.2 [r.1.1]).orElse fun _ => (s.ringOwner t c).eccTrap r.2.1.2 [r.2.1.1]).orElse fun _ => t.accEccTrap r.2.2.1 r.2.2.2

/-- STEP_START of one team: its row groups enter the Border (R226, R229, R232). -/
def State.beginStep (s : State) (t : Team) (j : MatJob) (p : StepPlan) (c : MatCfg) : State :=
  let m := fmtM c.fmt
  let n := fmtN c.fmt
  let count := m / 16
  let base : RowGroup :=
    { id := 0, job := j.id, kind := 0, g := p.g, m := m, n := n, acc := fmtAcc c.fmt, row := 0, step := j.k, posA := p.a, posB := p.b,
      zero := p.zero, deps := [], complete := 0, done := false, failed := false, committed := false, released := false,
      part := 0, vals := [], taint := [], exc := 0, bytes := [], saved := [], loc := 0, core := 0, seq := 0, stake := 0,
      cx := j.cx }
  let groups := (List.range count).map fun i =>
    let r : RowGroup := { base with id := t.nextId + i, row := i, complete := t.clk + (i + 1) * c.gt + 24 }
    { r with deps := t.writers r.span }
  let t1 := t.addGroups groups
  let t2 := if p.ckpt then { t1 with plaits := t1.plaits ++ [⟨j.id, true, groups.map (·.id), [], [], none, 0⟩] } else t1
  let free := t.clk + count * c.gt
  let total := match j.cfg.nest with | some n => n.total | none => 1
  let finishes := total ≤ j.k + 1 && !p.drain
  let j' := { j with cfg := c, begun := true, k := j.k + 1, exit := p.drain, ended := if finishes then some free else none }
  s.setTeam { t2.setJob j' with engineFree := free }

/-- STEP_START of one team: a read that ECC cannot correct raises the trap, and corrected ones are logged (R226, R229, R438). -/
def State.startStep (s : State) (t : Team) (j : MatJob) (p : StepPlan) (c : MatCfg) : State :=
  match s.stepEcc t p c with
  | some e => s.failJob t j e
  | none =>
    let r := p.reads c
    s.beginStep (((t.readEcc r.1.2 [r.1.1]).readEccOf (s.ringOwner t c) r.2.1.2 [r.2.1.1]).readAccEcc r.2.2.1 r.2.2.2) j p c

/-- The configuration of a mop, with the bank formats as they stand at its start, or the code of the failing check (R219,
R229, R294). (Log: 57 DEDUCED.) -/
def State.mopCfg (s : State) (t : Team) (c : MatCfg) : Except Nat MatCfg :=
  let u := s.ringOwner t c
  let a := t.bfmt[bankAt (ringBase c.ringA)]
  let b := u.bfmt[bankAt (ringBase c.ringB)]
  if (pairRate (bankTy a) (bankTy b) (fmtAcc c.fmt)).isNone then .error 1
  else if ((bankTy a).isSub || (bankTy b).isSub) && fmtK c.fmt % 32 ≠ 0 then .error 2
  else if t.ringMixed c.ringA then .error 4
  else if u.ringMixed c.ringB then .error 5
  else .ok { c with bankA := a, bankB := b, books := t.books.toList ++ u.books.toList, nest := none }

/-- STEP_START (R226, R228, R229): a starved step of a timed word raises the schedule fault; the four cores of a quad start
theirs together. -/
def execStepStart (s : State) : Host.Outcome State Fault Refusal :=
  onTeam s fun t => match t.jobOf s.cur.id with
    | none => s
    | some j => match s.nextStep t j with
      | none => s
      | some p => match j.act with
        | .mop g .. => match t.active with
          | none => s.failJob t j (.bounds, 0)
          | some c =>
            if t.granulesBad g.toNat (tileGranules (fmtM c.fmt) (fmtN c.fmt) (fmtAcc c.fmt)) then s.failJob t j (.bounds, 0)
            else if !s.stepReady t j p then s.failJob t j (.schedule, s.beatOf t)
            else match s.mopCfg t c with
              | .error e => s.failJob t j (.bounds, BitVec.ofNat 64 e)
              | .ok c => s.startStep t j p c
        | .mgoQuad _ =>
          if !s.quadReady t j then s.failJob t j (.schedule, s.beatOf t)
          else (s.quad t).foldl (fun (s : State) u => match s.team u.cid with
            | none => s
            | some u => match u.quadJob with
              | none => s
              | some i => match s.nextStep u i with
                | none => s
                | some p => s.startStep u i p i.cfg) s
        | _ => if !s.stepReady t j p then s.failJob t j (.schedule, s.beatOf t) else s.startStep t j p j.cfg

/-- The endpoints of a drain, checked if its nest's descriptor names them (R226, R240, R243). (Log: 56 DEDUCED.) -/
def State.drainTargets (s : State) (t : Team) (j : MatJob) (d : DrainPlan) : Except Trap (List Layout) :=
  let timed := j.cx.timed
  if !j.exit then .ok j.recs
  else if d.mode = 2 then
    match s.peerTrap t timed (BitVec.ofNat 64 d.a) (tileGranules d.m d.n d.acc) with
    | some e => .error e
    | none => .ok []
  else
    let books := some (j.cfg.books.take 8)
    match s.drainDest t timed false books d.a d.m d.n with
    | .error e => .error e
    | .ok x =>
      if d.mode = 0 then .ok [x]
      else match s.drainDest t timed true books d.b d.m d.n with
        | .error e => .error e
        | .ok y => .ok [x, y]

/-- DRAIN_START (R240 to R243): the row groups of the drain enter the Border. (Log: 50, 51 DEDUCED.) -/
def execDrainStart (s : State) : Host.Outcome State Fault Refusal :=
  onTeam s fun t => match t.jobOf s.cur.id with
    | none => s
    | some j =>
      let d := t.nextDrain j
      let timed := j.cx.timed
      if t.applying d.g (tileGranules d.m d.n d.acc) || !t.recordsSealed j d then s.failJob t j (.schedule, s.beatOf t)
      else match s.drainTargets t j d with
        | .error e => s.failJob t j e
        | .ok dst => match t.accEccTrap d.span.1 d.span.2 with
        | some e => s.failJob t j e
        | none =>
          let t := t.readAccEcc d.span.1 d.span.2
          let count := d.m / 16
          let gd := drainBeats d.m d.n d.acc dst
          let inb := if j.exit then t.nextId else j.id
          let dest := fun (k : Nat) => match dst[k]? with
            | some l => (l.loc, if l.loc = 1 then l.core else t.cid)
            | none => (3, d.a % 2 ^ 11)
          let group := fun (i part row : Nat) =>
            let x : RowGroup :=
              { id := t.nextId + i, job := j.id, kind := 1, g := d.g, m := d.m, n := d.n, acc := d.acc, row := row, step := inb,
                posA := 0, posB := 0, zero := false, deps := [], complete := t.clk + (min (i + 1) count) * gd + 24,
                done := false, failed := false, committed := false, released := false, part := part, vals := [], taint := [],
                exc := 0, bytes := [], saved := [], loc := (dest part).1, core := (dest part).2, seq := d.seq, stake := 0,
                cx := j.cx, pages := match dst[part]? with | some l => l.pages | none => [] }
            let wide := part = 1 || (match dst[0]? with | some l => l.ty.isSub && l.axis != 0 | none => false)
            { x with deps := t.writers (if wide then d.span else x.span) ++
                (if part = 1 then (List.range count).map (t.nextId + ·) else []) }
          let plain := (List.range count).map fun i => group i 0 i
          let trans := if d.mode = 1 then [group count 1 count] else []
          let rec_ : PlaitRec := ⟨j.id, false, plain.map (·.id), trans.map (·.id), dst, none, 0⟩
          let t1 := t.addGroups (plain ++ trans)
          let free := t.clk + count * gd
          let finishes := match j.cfg.nest with | some n => decide (n.total ≤ j.k) | none => true
          let j' := { j with begun := true, exit := false, drains := j.drains + 1, ended := if finishes then some free else none }
          let s1 := s.setTeam { t1.setJob j' with engineFree := free, plaits := t1.plaits ++ [rec_] }
          if !j.exit then s1
          else (plain ++ trans).foldl (fun s r => if r.loc = 1 || r.loc = 3 then s.expect t timed inb 1 r.core else s) s1

/-! ## Activation (R225, R228) -/

/-- The configuration that an activation makes active, or the code of its first failing check (R225). A core of a quad's
upper row takes ring B of the core below (R228). -/
def State.activation (s : State) (t : Team) (j : MatJob) (own : Team) : Except Nat MatCfg :=
  let c := j.cfg
  match c.nest with
  | none => .error 6
  | some n =>
    let far := own.cid != t.cid
    let ringB := if far then (match own.quadJob with | some i => i.cfg.ringB | none => c.ringB) else c.ringB
    let a := t.bfmt[bankAt (ringBase c.ringA)]
    let b := own.bfmt[bankAt (ringBase ringB)]
    let m := fmtM c.fmt
    let n' := fmtN c.fmt
    let k := fmtK c.fmt
    let acc := fmtAcc c.fmt
    if (pairRate (bankTy a) (bankTy b) acc).isNone then .error 1
    else if ((bankTy a).isSub || (bankTy b).isSub) && k % 32 ≠ 0 then .error 2
    else if n.granOffs.any fun o => t.granulesBad (nestBase j.act + o) (tileGranules m n' acc) then .error 3
    else if t.ringBad c.ringA m k [] then .error 4
    else if !far && t.ringBad ringB n' k [(ringBase c.ringA, ringBase c.ringA + ringSpan c.ringA)] then .error 5
    else .ok { c with ringB := ringB, bankA := a, bankB := b, books := t.books.toList ++ own.books.toList,
                      bFrom := if far then some own.cid else none }

/-- The team with a configuration active and its job begun (R225). -/
def Team.activated (t : Team) (j : MatJob) (c : MatCfg) (headB : Option Nat) : Team :=
  let rA := t.rA.taking c.ringA
  let rB := if c.bFrom.isSome then t.rB else t.rB.taking c.ringB
  let j' := { j with cfg := c, begun := true, hA := rA.head, hB := headB.getD rB.head }
  { t.setJob j' with active := some c, rA := rA, rB := rB }

/-- The activation of a plain mgo (R225). -/
def State.activate (s : State) (t : Team) (j : MatJob) : State :=
  if j.cx.timed && (j.cx.issued + 1 < t.clk || !t.engineIdle j) then s.failJob t j (.schedule, s.beatOf t)
  else match s.activation t j t with
    | .error e => s.failJob t j (.bounds, BitVec.ofNat 64 e)
    | .ok c => s.setTeam (t.activated j c none)

/-- Every core of a list fails its quad job. -/
def State.failQuad (s : State) (l : List Team) (x : State → Team → Trap) : State :=
  l.foldl (fun (s : State) u => match s.team u.cid with
    | none => s
    | some u => match u.quadJob with
      | none => s
      | some i => s.failJob u i (x s u)) s

/-- Beat Q of a quad (R228): the four are compared, and activate together. (Log: 59 DEDUCED.) -/
def State.quadGo (s : State) (t : Team) : State :=
  let q := s.quad t
  match q with
  | [a, b, _, _] =>
    let jobs := q.filterMap fun u => u.quadJob.map fun j => (u, j)
    let same := jobs.all fun x => jobs.all fun y =>
      x.2.cfg.fmt = y.2.cfg.fmt && x.2.cfg.nest.map (·.levels) = y.2.cfg.nest.map (·.levels)
    let timed := jobs.any fun x => x.2.cx.timed
    let apart := jobs.any fun x => jobs.any fun y => x.1.clk - x.2.cx.issued != y.1.clk - y.2.cx.issued
    if jobs.length < 4 || !same then s.failQuad q fun _ _ => (.bounds, 0)
    else if timed && apart then s.failQuad q fun s u => (.schedule, s.beatOf u)
    else
      let below := fun (u : Team) => if fld u.patch.toNat 16 16 % 2 = 0 then u else
        if fld u.patch.toNat 0 16 % 2 = 0 then a else b
      let cfgs := jobs.map fun x => (x.1, x.2, s.activation x.1 x.2 (below x.1))
      match cfgs.findSome? fun x => match x.2.2 with | .error e => some e | .ok _ => none with
      | some e => s.failQuad q fun _ _ => (.bounds, BitVec.ofNat 64 e)
      | none =>
        cfgs.foldl (fun (s : State) x => match x.2.2 with
          | .error _ => s
          | .ok c => match s.team x.1.cid with
            | none => s
            | some u =>
              let head := (below x.1).rB.taking c.ringB
              s.setTeam (u.activated x.2.1 c (some head.head))) s
  | _ => s.failQuad q fun _ _ => (.bounds, 0)

/-- MGO_ACTIVATION (R225, R228): the engine has reached an mgo, or beat Q of a quad has come. A quad whose cores have all
reached theirs has its Q 96 beats later, also one that lacks a partner, which fails then. A timed mgo.quad that meets a busy
engine raises its schedule fault at S. (Log: 59 DEDUCED.) -/
def execMgoActivation (s : State) : Host.Outcome State Fault Refusal :=
  onTeam s fun t => match t.jobOf s.cur.id with
    | none => s
    | some j => match j.act with
      | .mgoQuad _ =>
        if j.quadAt.isSome then s.quadGo t
        else if j.cx.timed && !t.engineIdle j then s.failJob t j (.schedule, s.beatOf t)
        else
          let t := t.setJob { j with reach := some t.clk }
          let s := s.setTeam t
          let q := s.quad t
          let go := fun (u : Team) => match u.quadJob with
            | some i => u.setJob { i with quadAt := some (u.clk + 96) }
            | none => u
          if q.all fun u => match u.quadJob with | some i => i.reach.isSome | none => false then
            q.foldl (fun (s : State) u => s.setTeam (go u)) s
          else s
      | _ => s.activate t j

/-! ## Release of bytes bound elsewhere (R234, R240, R243, R286) -/

/-- A row group's bytes have performed: it has left the Border. -/
def State.releaseDone (s : State) (cid id : Nat) : State :=
  match s.team cid with
  | none => s
  | some t => match t.rowGroup id with
    | none => s
    | some r => s.setTeam ((t.setGroup { r with released := true }).finishJobs.prune)

/-- BORDER_RELEASE: at completion + 560 the bytes leave; they land 96 or 320 beats later in another core, and the row
group's word performs when they have; those to global memory go where their word's translation put them (R234, R243, R254, R286,
R404). (Log: 54 DEDUCED.) -/
def execBorderRelease (s : State) : Host.Outcome State Fault Refusal :=
  onTeam s fun t =>
    let id := s.cur.args.headD 0
    if s.cur.phase = .perform then s.releaseDone t.cid id
    else match t.rowGroup id with
      | none => s
      | some r =>
        let delay := crossDelay t.cid r.core
        let later := fun (s : State) (n : Nat) => match s.team t.cid with
          | none => s
          | some t => s.setTeam { t with pend := insertPend ⟨t.clk + n, rankOf .mat, { s.cur with phase := .perform }, .borderRelease⟩ t.pend }
        if r.loc = 2 then match s.storeMapped t .mat r.bytes r.pages with
          | .error e => (s.releaseDone t.cid id).raiseAt t r.cx e.1 e.2 r.cx.pos
          | .ok s => s.releaseDone t.cid id
        else if r.loc = 1 then
          let x : Sector := ⟨r.bytes, s.cur.args.getD 1 r.complete, t.cid, r.step, .mat, 0, true, r.cx.timed, [], []⟩
          later (s.sendSector r.core delay r.cx x)
            (delay + 4 * ((r.bytes.length + 255) / 256 - 1))
        else
          let c : Contribution := ⟨t.cid, r.seq, r.acc, r.m, r.n, r.row, r.vals, r.taint⟩
          later (s.sendTo r.core delay rankLand { r.cx with cid := r.core, args := [t.cid, r.step] } (.peerAddArrival c)) delay

/-! ## Peer-add (R245, R246) -/

/-- PEER_ADD_ARRIVAL (R245, R246): a contribution's row group is to be applied, is held early, or raises the reduction-order
fault. -/
def execPeerAddArrival (c : Contribution) (s : State) : Host.Outcome State Fault Refusal :=
  onTeam s fun t =>
    let t := t.arrived (s.cur.args.headD 0) (s.cur.args.getD 1 0)
    let x := t.inbox
    let differs := x.active && (c.acc, c.m, c.n) ≠ x.shape
    let expected := x.active && c.seq = x.seq
    let again := (!expected && x.applied.contains c.seq) || (expected && x.busy && (c.row < x.row || x.rows.any (·.row = c.row)))
    let fits := match x.early with
      | [] => true
      | e :: _ => e.seq = c.seq && e.sender = c.sender
    if differs || again then s.setTeam (t.orderFault c)
    else if expected then s.setTeam { t with inbox := { x with rows := x.rows ++ [c], busy := true } }
    else if fits then s.setTeam { t with inbox := { x with early := x.early ++ [c] } }
    else s.setTeam (t.orderFault c)

/-- The contribution's row group that is applied now (R245). -/
def Team.applyDue (t : Team) : Option Contribution :=
  let x := t.inbox
  if !x.busy then none
  else match x.rows.find? fun c => c.row = x.row with
    | none => none
    | some c =>
      let sz := 16 * c.n * accBytes c.acc
      if (t.border.any fun r => r.kind = 2 && !r.committed) || !(t.writers (65536 * x.g + c.row * sz, sz)).isEmpty then none
      else some c

/-- PEER_ADD_APPLY: the application of a row group starts, and completes 24 beats later (R245); where ECC cannot correct what it
adds to, mat takes the trap, and the rest of the contribution is dropped (R438). (Log: 25 DEDUCED.) -/
def execPeerAddApply (s : State) : Host.Outcome State Fault Refusal :=
  onTeam s fun t => match t.applyDue with
    | none => s
    | some c =>
      let cx := { Cur.none with cid := t.cid, col := .mat, pos := (t.col .mat).head, issued := t.clk }
      let r : RowGroup :=
        { id := t.nextId, job := 0, kind := 2, g := t.inbox.g, m := c.m, n := c.n, acc := c.acc, row := c.row, step := 0,
          posA := 0, posB := 0, zero := false, deps := [], complete := t.clk + 24, done := false, failed := false,
          committed := false, released := false, part := 0, vals := c.vals, taint := c.taint, exc := 0, bytes := [],
          saved := [], loc := 0, core := 0, seq := c.seq, stake := 0, cx := cx }
      let x := t.inbox
      let x' := { x with row := x.row + 1, rows := x.rows.filter fun e => e.row != c.row }
      match t.accEccTrap r.span.1 r.span.2 with
      | some e => s.setTeam (({ t with inbox := { x with busy := false, rows := [], row := 0 } } : Team).pendTrap .mat
          (t.col .mat).head e.1 e.2 0 t.clk)
      | none => s.setTeam (({ t.readAccEcc r.span.1 r.span.2 with inbox := x' } : Team).addGroups [r])

/-! ## The known-answer test (R239) -/

/-- MCHK_RESULT: the dword of wrong answers is written, each one logs a check event, and the SIGNAL fires (R239). -/
def execMchkResult (s : State) : Host.Outcome State Fault Refusal :=
  onTeam s fun t => match t.jobOf s.cur.id with
    | none => s
    | some j =>
      let bits := (s.upset t.cid j.id 4).toNat % 8
      let u := t.putDword (j.cx.args.headD 0) bits
      let u := { u with engine := u.engine.filter fun k => k.id != j.id }
      let s := s.setTeam (u.signalAt s.cur u.clk)
      (List.range 3).foldl (fun (s : State) b =>
        if bits / 2 ^ b % 2 = 1 then s.checkEvent ⟨0, s.physCore t.cid⟩ (3 + b) (some t) 0 0 else s) s

/-! ## Bodkin (R236 to R238, R446) -/

/-- The row groups that depend on a row group, itself among them (R236). (Log: 61 DEDUCED.) -/
def Team.dependents (t : Team) (id : Nat) : List Nat :=
  t.border.foldl (fun (l : List Nat) r => if r.id != id && !r.committed && r.deps.any l.contains then l ++ [r.id] else l) [id]

/-- Bodkin's verdict on an image: the engine found wrong (0 none named) and the image committed, or none (R236). -/
def bodkinVerdict (stake weaver bodkin : Word) (img : List (BitVec 8)) : Option (Nat × List (BitVec 8)) :=
  let b := wrong bodkin img
  if b = wrong stake img then some (2, b) else if b = wrong weaver img then some (1, b) else none

/-- MATRIX_CHECK_TRAP (R238): every mat word that has not performed is discarded with its row groups, those too that have
committed and have yet to leave the core; bytes that discarded drains wrote are taken back, a peer-add application that waits
for what is discarded goes with its contribution, AUX counts the words, and HEAD is the word that the failed row group belongs
to, or mat's head if it is an application's (R248, R384). (Log: 62 DEDUCED.) -/
def State.matrixCheck (s : State) (t : Team) (r : RowGroup) : State :=
  let lost := t.dependents r.id
  let isLater := fun (p : Pend) => p.cx.col = .mat && match p.act with
    | .mpop .. | .mplait .. | .mnest .. | .registerWriteLands _ => true
    | _ => false
  let words := t.engine.map (·.cx) ++ (((t.waiting ++ t.pend).filter isLater).map (·.cx))
  let cut := fun (p : Pend) => isLater p || (p.cx.col = .mat && (words.any fun c => c.id = p.cx.id) && match p.act with
    | .signalFire _ => true
    | _ => false)
  let undone := fun (x : RowGroup) => !x.committed && (lost.contains x.id || x.job != 0)
  let leaves := fun (p : Pend) => p.cx.phase = .issue && p.act = .borderRelease
  let gone := fun (x : RowGroup) => undone x ||
    (x.committed && !x.released && x.job != 0 && t.pend.any fun p => leaves p && p.cx.args.headD 0 = x.id)
  let awaits := fun (c : Contribution) =>
    let sz := 16 * c.n * accBytes c.acc
    t.border.any fun x => undone x && x.writes && overlaps x.span (65536 * t.inbox.g + c.row * sz, sz)
  let app := (t.border.any fun x => undone x && x.kind = 2) || (t.inbox.busy && t.inbox.rows.any awaits)
  let back := (t.border.filter undone).reverse.foldl (fun (t : Team) x => t.restoreCells x.saved) t
  let aux := words.length % 256 + (words.foldl (fun m c => min m c.pos) (words.headD Cur.none).pos) % 2 ^ 32 * 2 ^ 32
  let inbox := if app then { t.inbox with busy := false, rows := [], row := 0 } else t.inbox
  let t' := { back with
    engine := [], engineFree := t.clk, inbox := inbox, pend := t.pend.filter fun p => !leaves p && !cut p,
    border := t.border.filter fun x => !gone x,
    plaits := t.plaits.filter fun p => p.value.isSome,
    waiting := t.waiting.filter fun p => !cut p,
    toks := t.toks.filter fun k => !(words.any fun c => c.id = k.id) }
  let head := if r.job = 0 then (t.col .mat).head else r.cx.pos
  let s := s.setTeam (t'.pendTrap .mat head .matrixCheck (BitVec.ofNat 64 (r.row % 2 ^ 16 + r.g % 32 * 2 ^ 16))
    (BitVec.ofNat 64 aux) r.cx.issued)
  let drop := fun (u : Team) => { u with inbound := u.inbound.filter fun e =>
    e.1 != t.cid || !(t.border.any fun x => gone x && x.step = e.2.1 || words.any fun c => c.id = e.2.1) }
  { s with teams := s.teams.map drop }

/-- The team with its BEAT, now at one value, set back to another, for a record's BEAT (R446). -/
def Team.backdated (t : Team) (now beat : Word) : Team := { t with delta := t.delta + (beat - now).toInt }

/-- The beat from which a row group that commits in the freeze is observed: no later than the freeze beat (R237). -/
def Team.seenFrom (t : Team) (r : RowGroup) : Nat := min (r.complete + 560) (max t.clk 560)

/-- One arbitration (R236): the named engine is logged and Bodkin's image commits, or the matrix-check trap is taken.
(Log: 61 DEDUCED.) -/
def State.arbitrate (s : State) (cid id : Nat) : State :=
  match s.team cid with
  | none => s
  | some t => match t.rowGroup id with
    | none => s
    | some r =>
      let clean := { s.computeGroup t r with stake := r.stake }
      match bodkinVerdict r.stake (s.upset cid id 1) (s.upset cid id 2) clean.image with
      | some (kind, img) =>
        let s := s.checkEvent ⟨0, s.physCore cid⟩ kind (some (t.backdated (s.beatOf t) r.found)) r.g r.row
        s.commitGroup cid clean img (t.seenFrom r)
      | none =>
        let s := s.checkEvent ⟨0, s.physCore cid⟩ 6 (some (t.backdated (s.beatOf t) r.found)) r.g r.row
        match s.team cid with
        | some t => s.matrixCheck t r
        | none => s

/-- The dependents of an arbitrated row group, in order, those too that had not completed: each is recomputed from the committed
values, and commits, or, found to differ at the freeze beat, waits for Bodkin in the same freeze (R237, R446). One that waits for an
uncommitted row group which does not depend on the failed one commits after it (R233). (Log: 61 DEDUCED.) -/
def State.redo (s : State) (cid : Nat) : List Nat → State
  | [] => s
  | id :: l =>
    match (s.team cid).bind fun t => (t.rowGroup id).map fun r => (t, r) with
    | none => s.redo cid l
    | some (t, r) =>
      if r.committed || t.waitsFor r then s.redo cid l
      else
        let clean := { s.computeGroup t r with
          failed := false, done := true, stake := if r.done then r.stake else s.upset cid id 0 }
        let w := s.upset cid id 1
        let stake := wrong clean.stake clean.image
        if clean.stake = w || plait stake = plait (wrong w clean.image) then (s.commitGroup cid clean stake (t.seenFrom r)).redo cid l
        else (s.setTeam (t.setGroup { clean with failed := true, complete := t.clk - 48, found := s.beatOf t })).redo cid l

/-- BODKIN_ARBITRATION, at the end of Bodkin's time in the freeze (R236 to R238). -/
def execBodkinArbitration (s : State) : Host.Outcome State Fault Refusal :=
  onTeam s fun t => match t.failedGroup with
    | none => s
    | some r =>
      let s := (s.arbitrate t.cid r.id).redo t.cid ((t.dependents r.id).filter (· != r.id))
      match s.team t.cid with
      | none => s
      | some u => if u.failedGroup.isSome then
          { s with agenda := insertPend ⟨s.now + u.bodkinBeats, 0, { Cur.none with cid := u.cid }, .bodkinArbitration⟩ s.agenda }
        else s

/-! ## Words that wait (R231, R247) -/

/-- A waiting word's condition holds. -/
def State.canPerform (s : State) (t : Team) (p : Pend) : Bool :=
  match p.act with
  | .mplait w _ => t.plaitReady p.cx.timed p.cx.id w
  | .mpop r n => !s.popOpen t p.cx.timed p.cx.id r (p.cx.args.headD 0) (p.cx.args.headD 0 + n.toNat + 1)
  | _ => t.waitReady p

/-! ## The residue check (R59) -/

/-- SLICE_LANDS (R59, R78): a word whose slices carry a residue error traps at its first slice's landing and lands none.
(Log: 42, 132 DEDUCED.) -/
def execSliceLands (x : Slice) (s : State) : Host.Outcome State Fault Refusal :=
  onTeam s fun t =>
    if s.upset t.cid s.cur.id 3 = 0 then s.setTeam (t.landSlice x)
    else
      let keep := fun (p : Pend) => p.cx.id != s.cur.id
      let u := { t with pend := t.pend.filter keep, held := t.held.filter keep }
      let s := s.setTeam (u.pendTrap .vec s.cur.pos .residue s.cur.word 0 s.cur.issued)
      s.checkEvent ⟨0, s.physCore t.cid⟩ 0x07 (some t) 0 0

end Sys2Proof.Machine
end

