-- ==== Sys2Proof/Machine/Copy.lean ====
section
/-! DEFINITION. Words of cpy (R249 to R266): what they read at issue, chunks, timed and elastic landings, plaits of
copies, and requests to the I/O dies. -/

namespace Sys2Proof.Machine

/-! ## Chunks and addresses (R252, R307, R313) -/

/-- Elements of a chunk of a destination type (R252). -/
def chunkElems (ty : ElemTy) : Nat := if ty.isSub then 32768 else 131072 / ty.width

/-- How many chunks a destination has (R252). -/
def Layout.chunks (l : Layout) : Nat := (l.count + chunkElems l.ty - 1) / chunkElems l.ty

/-- The storage indexes of chunk c (R252). -/
def Layout.chunkIdx (l : Layout) (c : Nat) : List Nat :=
  let z := chunkElems l.ty
  (List.range (min z (l.count - c * z))).map (c * z + ·)

/-- The first pages of a record's image that a job's tables map (R251). (Log: 164 DEDUCED.) -/
def State.beyondPage (s : State) (job : Nat) (l : Layout) : Bool :=
  (distinct (l.spadBytes.map (· / 65536))).any fun p => match s.walk job (65536 * p) with
    | .ok x => x.tgt != 0
    | .error _ => false

/-- The checks of a memory record's own place at issue: window rows granted to the job for kind 3, one aperture of the
view's type for kind 4 (R306). -/
def State.memTrap (s : State) (t : Team) (rec : Nat) (l : Layout) : Option Trap :=
  let bad : Option Trap := some (.bounds, BitVec.ofNat 64 rec)
  let bytes := l.spadBytes
  if l.kind = 3 then
    if bytes.all fun a => fld a 51 1 = 1 && s.windowOk t.job a then none else bad
  else if l.kind = 4 then
    match s.aperture (dieOf t.cid) (bytes.headD l.base) with
    | none => none
    | some a => if a.vtype ≠ l.ty || bytes.any (fun x => x < a.base || a.base + a.len ≤ x) then bad else none
  else none

/-- Bytes of global or window storage as pieces: window addresses of a kind-3 record are physical (R303, R306). -/
def State.piecesOf (s : State) (job : Nat) (l : Layout) (write : Bool) (run : Nat × Nat) : Except Trap (List Piece) :=
  if l.kind = 3 then .ok (cutAll [⟨run.1, ⟨run.1, none, true, true, 0⟩, run.2⟩])
  else match s.translate ⟨job, !write, write, false⟩ run.1 run.2 with
    | .error e => .error e
    | .ok p => .ok (cutAll p)

/-- Bytes of an endpoint as runs: an aperture is read and written element by element (R309, R338). -/
def Layout.runs (l : Layout) (bytes : List Nat) : List (Nat × Nat) :=
  if l.kind = 4 then
    let z := elemBytes l.ty
    (List.range (bytes.length / z)).map fun i => (bytes.getD (i * z) 0, z)
  else runsOf bytes

/-- The physical addresses of device memory that some stored bytes of an endpoint reach. -/
def State.reach (s : State) (t : Team) (l : Layout) (write : Bool) (bytes : List Nat) : List Nat :=
  if l.loc ≠ 2 then []
  else (l.runs bytes).flatMap fun r =>
    if l.kind = 4 then match s.apertureFor t write r.1 r.2 with
      | .error _ => []
      | .ok a => (a.touched (8 * (r.1 - a.base)) (8 * r.2)).map fun x => x.1
    else match s.piecesOf t.job l write r with
      | .error _ => []
      | .ok p => (p.filter fun x => x.leaf.tgt = 0).map fun x => x.leaf.pa

/-- Pieces read at the L2 by cpy, as cells named by their virtual addresses (R253, R345). -/
def State.readCells (s : State) (cid : Nat) : List Piece → Except Trap (Cells × State)
  | [] => .ok ([], s)
  | p :: l => match s.readAtL2 cid .cpy p with
    | .error e => .error e
    | .ok g => match g.2.2.readCells cid l with
      | .error e => .error e
      | .ok r =>
        let mine := ((bytesOf g.1 p.n).zip g.2.1).zipIdx.map fun x => (p.va + x.2, x.1.1, x.1.2)
        .ok (mine ++ r.1, r.2)

/-- Runs of bytes of an endpoint, read by cpy in order, with the exceptions of the conversions that a decode view makes
(R45, R253, R310, R349). -/
def State.readRuns (s : State) (t : Team) (cx : Cur) (l : Layout) : List (Nat × Nat) → Except Trap (Cells × Exc × State)
  | [] => .ok ([], 0, s)
  | run :: rest =>
    let one : Except Trap (Cells × Exc × State) :=
      if l.loc ≠ 2 then
        match t.readsTrap 2 run.2 [run.1] with
        | some e => .error e
        | none =>
          let more := t.freshTaints 2 run.2 [run.1]
          let cells := ((t.view 2).getCells ((List.range run.2).map (run.1 + ·))).map fun c => (c.1, c.2.1, c.2.2 || more)
          .ok (cells, 0, s.afterRows cx 2 false t run.2 [run.1])
      else if l.kind = 4 then
        match s.apertureFor t false run.1 run.2 with
        | .error e => .error e
        | .ok a => match s.viewRead t.cid .cpy a run.1 (8 * (run.1 - a.base)) (8 * run.2) with
          | .error e => .error e
          | .ok r => .ok ((bytesOf r.1 run.2).zipIdx.map fun x => (run.1 + x.2, x.1, r.2.1), r.2.2.1, r.2.2.2)
      else match s.piecesOf t.job l false run with
        | .error e => .error e
        | .ok p => match s.readCells t.cid p with
          | .error e => .error e
          | .ok r => .ok (r.1, 0, if l.kind = 3 then r.2 else r.2.watchGlobal cx 2 false s run.1 run.2)
    match one with
    | .error e => .error e
    | .ok r => match r.2.2.readRuns t cx l rest with
      | .error e => .error e
      | .ok q => .ok (r.1 ++ q.1, r.2.1 ||| q.2.1, q.2.2)

/-- Write cells to memory: global, window or aperture; `entire` names the 32-byte units whose old taint the copy replaces (R253, R256,
R310, R345). -/
def State.writeCells (s : State) (t : Team) (cx : Cur) (l : Layout) (all : Cells) (entire : List Nat) : Except Trap State :=
  let cells := lastCells all
  let seen := fun (s' : State) => (runsOf (cells.map fun c => c.1)).foldl (fun s' run => s'.watchGlobal cx 2 true s run.1 run.2) s'
  if l.kind = 4 then
    (l.runs (cells.map fun c => c.1)).foldl (fun (e : Except Trap State) run => match e with
      | .error x => .error x
      | .ok s => match s.apertureFor t true run.1 run.2 with
        | .error x => .error x
        | .ok a =>
          let mine := cells.filter fun c => run.1 ≤ c.1 && c.1 < run.1 + run.2
          s.viewWrite t.cid .cpy a run.1 (8 * (run.1 - a.base)) (cellsNat run.1 mine) (8 * run.2) (mine.any fun c => c.2.2)) (.ok s)
  else if l.kind = 3 then
    s.storePieces t .cpy cells entire
      (cutAll ((runsOf (cells.map fun c => c.1)).map fun run => ⟨run.1, ⟨run.1, none, true, true, 0⟩, run.2⟩))
  else match s.storeCells t .cpy cells entire with
    | .error e => .error e
    | .ok s' => .ok (seen s')

/-- The block bases that some blocks of a paged record take from its table, each read tested against the watchpoints (R304,
R307, R429). -/
def State.blockTable (s : State) (t : Team) (cx : Cur) (l : Layout) : List Nat → Except Trap (List (Nat × Nat) × State)
  | [] => .ok ([], s)
  | k :: ks =>
    let va := l.base + 8 * k
    match s.piecesOf t.job l false (va, 8) with
    | .error e => .error e
    | .ok p => match s.readCells t.cid p with
      | .error e => .error e
      | .ok r =>
        let e := natOfBytes (r.1.map fun c => c.2.1)
        if e % 2 ^ 55 = 0 || e / 2 ^ 55 ≠ 0 || e % elemBytes l.ty ≠ 0 then .error (.translation, BitVec.ofNat 64 va)
        else match (r.2.watchGlobal cx 2 false s va 8).blockTable t cx l ks with
          | .error x => .error x
          | .ok q => .ok ((k, e) :: q.1, q.2)

/-- The table of the blocks that elements at some coordinates lie in; only a paged record has one. -/
def State.pageOf (s : State) (t : Team) (cx : Cur) (l : Layout) (cs : List (List Nat)) : Except Trap ((Nat → Nat) × State) :=
  if l.kind ≠ 2 then .ok (fun _ => 0, s)
  else match s.blockTable t cx l (distinct (cs.map fun c => c.getD (l.ndim - 1) 0 / 2 ^ l.bsl)) with
    | .error e => .error e
    | .ok r => .ok (fun k => ((r.1.find? fun x => x.1 = k).map fun x => x.2).getD 0, r.2)

/-- The sectors that an endpoint's stored bytes lie in, of memory or of one core's scratchpad, each as one number. -/
def State.sectorsOf (s : State) (t : Team) (l : Layout) (write : Bool) : List Nat :=
  if l.loc = 2 then
    let page := match s.pageOf t s.cur l ((List.range l.count).filterMap l.coords) with
      | .ok p => p.1
      | .error _ => fun _ => 0
    distinct ((s.reach t l write (l.imageAddrs page)).map (· / 256))
  else distinct (l.spadBytes.map fun a => 2 ^ 64 * (1 + (if l.loc = 1 then l.core else t.cid)) + a / 256)

/-- The bytes that the elements at some coordinates are read from. -/
def Layout.bytesOfCoords (l : Layout) (page : Nat → Nat) (cs : List (List Nat)) : List Nat :=
  if l.ty.isSub then distinct (cs.flatMap fun c => l.bytesAt page (l.indexOf c))
  else cs.flatMap fun c => (List.range (elemBytes l.ty)).map (l.addr page c + ·)

/-! ## What a chunk writes (R255, R256, R259, R261) -/

/-- Two endpoints agree in every format field that applies to the destination's type (R255). -/
def sameFormat (a b : Layout) : Bool :=
  a.ty = b.ty && (!b.ty.isSub || a.axis = b.axis) && (!(b.ty = .q4 || b.ty = .c4) || a.tscale = b.tscale) &&
  (b.ty != .c4 || a.book = b.book)

/-- Stored codes put into an endpoint unchanged. `f` gives an element's code, its block's second-plane bytes and its taint;
none is padding, which has code 0 (R29, R255). -/
def Layout.putRaw (l : Layout) (page : Nat → Nat) (f : Nat → Option (Nat × Nat × Bool)) (idx : List Nat) : Cells :=
  if l.ty.isSub then
    let parts := (distinct (idx.map (· / 32))).map fun b =>
      let e := (List.range 32).map fun i => f (32 * b + i)
      l.blockCells b (e.map fun x => match x with | some y => y.1 | none => 0)
        (((e.filterMap id).map fun y => y.2.1).headD 0) (e.map fun x => match x with | some y => y.2.2 | none => false)
    (parts.flatMap fun x => x.1) ++ parts.flatMap fun x => x.2
  else idx.flatMap fun x => match f x with
    | none => []
    | some y => ((l.bytesAt page x).zip (bytesOf y.1 (elemBytes l.ty))).map fun p => (p.1, p.2, y.2.2)

/-- The cells that a cpfill writes for some storage indexes, and its exceptions (R261). -/
def Layout.fillCells (l : Layout) (page : Nat → Nat) (v : TW) (idx : List Nat) : Cells × Exc :=
  let live := fun (x : Nat) => (l.coords x).isSome
  if l.ty = .q4 || l.ty = .c4 then
    l.encode page .f32 (.fin false 1 1) (fun x => (if live x then some (f32V v.v.toNat) else none, live x && v.t)) idx
  else (l.putRaw page (fun x => if live x then some (v.v.toNat % 2 ^ l.ty.width, 0, v.t) else none) idx, 0)

/-- The cells that a copy writes for some storage indexes of its destination, from the source's cells, and its exceptions
(R255, R256). `image` moves a two-plane image as it is stored, its padding too (R263). (Log: 69 DEDUCED.) -/
def convertCells (image : Bool) (a b : Layout) (pageA pageB : Nat → Nat) (cells : Cells) (idx : List Nat) : Cells × Exc :=
  let rd := fun (x : Nat) => ((cells.find? fun c => c.1 = x).map fun c => c.2.1.toNat).getD 0
  let tn := fun (x : Nat) => cells.any fun c => c.1 = x && c.2.2
  let elem := fun (x : Nat) =>
    if image && b.ty.isSub then some (planeElem a.ty rd a.base a.count x, (a.bytesAt pageA x).any tn)
    else (b.coords x).map fun c => (a.readElem rd pageA c, a.readTaint tn pageA c)
  if sameFormat a b then
    (b.putRaw pageB (fun x => (elem x).map fun e => (e.1.1, e.1.2, e.2)) idx, 0)
  else
    b.encode pageB a.ty (f32V a.tscale)
      (fun x => match elem x with
        | some e => (some (a.value e.1), e.2)
        | none => (none, false)) idx

/-- Where write slots stand among the addresses of landing sectors: byte b of slot n of pseudo-channel p. -/
def slotAddr (pc b : Nat) : Nat := 2 ^ 32 * (1 + pc) + b

/-- Where a byte of an endpoint lies: in memory its physical address, so that two names of one byte are one place (R253). -/
def State.home (s : State) (job : Nat) (l : Layout) (a : Nat) : Nat :=
  if l.loc ≠ 2 || l.kind = 3 then a else match s.walk job a with
    | .ok x => x.pa
    | .error _ => a

/-- Source cells of a copy, some of which an earlier chunk of the same copy has written over: each element so written takes
what the source held before or what stands there now, by a free choice (R253). (Log: 77 DESIGN CHOICE.) -/
def Copy.mix (k : Copy) (home : Nat → Nat) (choose : Nat → Bool) (cells : Cells) : Cells :=
  let key := fun (x : Nat) => match k.src with
    | some a => if a.ty.isSub then 0 else x / elemBytes a.ty
    | none => 0
  cells.map fun c => match k.kept.find? fun y => y.1 = home c.1 with
    | some y => if choose (key c.1) then c else (c.1, y.2)
    | none => c

/-- Cells in which every address has one value: of two elements of z bytes that share bytes, one by a free choice (R306). -/
def settle (choose : Nat → Bool) (z : Nat) (cells : Cells) : Cells :=
  let won := cells.zipIdx.foldl (fun (acc : Cells) x =>
    if acc.any fun y => y.1 = x.1.1 then
      (if choose (x.2 / z) then acc.map fun y => if y.1 = x.1.1 then x.1 else y else acc)
    else acc ++ [x.1]) []
  cells.map fun c => (won.find? fun y => y.1 = c.1).getD c

/-- The cells that a chunk writes into a destination, each address with one value. (Log: 77 DESIGN CHOICE.) -/
def State.settled (s : State) (d : Layout) (cells : Cells) : Cells :=
  if d.ty.isSub then cells else settle (fun n => Config.overlapNew s.free (2 ^ 64 + n)) (elemBytes d.ty) cells

/-- What applying a chunk gives: the cells it writes, its exceptions, the source bytes it sampled, and the state. -/
structure ChunkOut where
  cells : Cells
  exc : Exc
  read : Cells
  state : State

/-- The target of an op-0 word: 0 record, 1 write slots, 2 codebook (R249). -/
def Copy.target (k : Copy) : Nat := if k.op = 0 then k.body / 2 ^ 22 % 4 else 0

/-- One chunk's sources read and its stored bytes made (R252, R253, R255, R259, R261). (Log: 77 DESIGN CHOICE.) -/
def State.makeChunk (s : State) (t : Team) (k : Copy) (c : Nat) : Except Trap ChunkOut :=
  match k.dst, k.src with
  | some d, none =>
    let idx := d.chunkIdx c
    match s.pageOf t k.cx d (idx.filterMap d.coords) with
    | .error e => .error e
    | .ok p =>
      let r := d.fillCells p.1 k.fill idx
      .ok ⟨s.settled d r.1, r.2, [], p.2⟩
  | some d, some a =>
    let idx := d.chunkIdx c
    let cs := idx.filterMap d.coords
    match s.pageOf t k.cx a cs with
    | .error e => .error e
    | .ok pa =>
      let bytes := if k.op = 1 && a.ty.isSub then distinct (idx.flatMap (a.bytesAt pa.1)) else a.bytesOfCoords pa.1 cs
      match pa.2.readRuns t k.cx a (a.runs bytes) with
      | .error e => .error e
      | .ok r => match r.2.2.pageOf t k.cx d cs with
        | .error e => .error e
        | .ok pd =>
          let got := k.mix (s.home t.job a) (Config.overlapNew s.free) r.1
          let x := convertCells (k.op = 1) a d pa.1 pd.1 got idx
          .ok ⟨s.settled d x.1, x.2 ||| r.2.1, got, pd.2⟩
  | none, some a =>
    match s.pageOf t k.cx a ((List.range a.count).filterMap a.coords) with
    | .error e => .error e
    | .ok pa => match pa.2.readRuns t k.cx a (a.runs (a.imageAddrs pa.1)) with
      | .error e => .error e
      | .ok r =>
        let base := slotAddr (fld k.regD.toNat 0 10) (32 * fld k.regD.toNat 16 10)
        .ok ⟨r.1.zipIdx.map fun x => (base + x.2, x.1.2.1, x.1.2.2), r.2.1, r.1, r.2.2⟩
  | none, none => .ok ⟨[], 0, [], s⟩

/-! ## The checks of a copy at issue (R249 to R251, R257 to R263, R289, R301) -/

/-- A copy word: its operation, BODY, first chunk, register values and class (R249, R262). -/
structure CopyWord where
  op : Nat
  body : Nat
  first : Nat
  regS : Word
  regD : Word
  regs : List TW
  cls : Nat
  deriving DecidableEq, Repr

/-- The scratchpad records that a copy word reads at issue. -/
def CopyWord.records (w : CopyWord) : List Nat :=
  (if w.op = 3 then [] else [w.regS.toNat]) ++ (if w.op = 0 && w.body / 2 ^ 22 % 4 ≠ 0 then [] else [w.regD.toNat])

/-- A resume dword outside R262. -/
def CopyWord.bad (w : CopyWord) : Bool :=
  match w.op with
  | 0 => w.body / 2 ^ 22 = 3 || w.body % 2 ^ 19 ≠ 0 || (w.body / 2 ^ 22 ≠ 2 && fld w.body 19 3 ≠ 0)
  | 1 => w.body % 2 ^ 12 ≠ 0
  | 3 => w.body % 2 ^ 18 ≠ 0
  | _ => true

/-- The source endpoint of a copy, or the trap that its record raises (R250, R251, R306). (Log: 164 DEDUCED.) -/
def State.copySource (s : State) (t : Team) (timed : Bool) (a : Nat) : Except Trap Layout :=
  match (dwordTrap t a 64).orElse fun _ => t.readsTrap 2 64 [a] with
  | some e => .error e
  | none =>
    let img := (t.view 2).recordImage a
    let l0 := recordFields img
    if recordBad img l0 true then .error (.bounds, BitVec.ofNat 64 a)
    else if l0.loc = 1 then .error (.bounds, 0)
    else
      let l := t.endpoint l0
      let place := if l.loc = 0 then spadTrap t a l.spadBytes else s.memTrap t a l
      match (recordTrap a img l true).orElse fun _ => place with
      | some e => .error e
      | none =>
        if l.loc = 2 && l.kind < 2 && s.beyondPage t.job l then .error (.bounds, 0)
        else if timed && l.loc = 2 then .error (.schedule, s.beatOf t)
        else .ok l

/-- TVAL of a failing landing: the address, and the sender's core (R258). -/
def landTval (a sender : Nat) : Word := BitVec.ofNat 64 (a % 2 ^ 21 + sender % 2 ^ 11 * 2 ^ 32)

/-- The first byte of a landing that the receiving team does not admit (R258): a live slot or an unsealed sector is a ring
conflict; a bank that is not the launch's scratchpad, the stack and the trap frame are a bounds trap. -/
def Team.landTrap (t : Team) (sender : Nat) (bytes : List Nat) : Option Trap :=
  bytes.findSome? fun a =>
    if (t.liveHit a 1).isSome || t.unsealedNow a 1 then some (.ringConflict, landTval a sender)
    else if 16 ≤ a / 131072 || !t.bankOk (a / 131072) || t.inStackOrFrame a 1 then some (.bounds, landTval a sender)
    else none

/-- The destination endpoint of a copy and the core that holds it, or the trap (R250, R251, R258, R289, R301, R303, R306): a
record of another team's scratchpad that names the team's own core is outside R303. -/
def State.copyDest (s : State) (t : Team) (timed : Bool) (a : Nat) : Except Trap (Layout × Nat) :=
  match (dwordTrap t a 64).orElse fun _ => t.readsTrap 2 64 [a] with
  | some e => .error e
  | none =>
    let img := (t.view 2).recordImage a
    let l0 := recordFields img
    if recordBad img l0 false || (l0.loc = 1 && l0.core = t.cid) then .error (.bounds, BitVec.ofNat 64 a)
    else match s.endpoint t l0 with
      | none => .error (.bounds, 0)
      | some (l, u) =>
        let place := if l.loc = 2 then s.memTrap t a l else spadTrap u a l.spadBytes
        let ring := if l.raen && (t.active.isNone || (t.ring l.rring).cfg = 0) then some (Cause.bounds, (0 : Word)) else none
        let land := if l.loc = 0 then t.landTrap t.cid l.spadBytes else none
        match (((recordTrap a img l false).orElse fun _ => place).orElse fun _ => ring).orElse fun _ => land with
        | some e => .error e
        | none =>
          if timed && l.loc = 2 then .error (.schedule, s.beatOf t)
          else if timed && l.loc = 1 && !sameGroup t u then .error (.bounds, 0)
          else .ok (l, if l.loc = 2 then t.cid else u.cid)

/-- The grant of a write-slot descriptor is good (R259). -/
def State.slotsOk (s : State) (t : Team) (d : Nat) (bytes : Nat) : Bool :=
  d / 2 ^ 26 = 0 && fld d 10 6 = 0 && bytes % 32 = 0 && 32 * fld d 16 10 + bytes ≤ 32768 &&
  match s.launch t.launch with
  | some l => decide (fld d 0 10 < l.pcs.length)
  | none => false

/-- The record of a copy word before its endpoints are known. -/
def CopyWord.blank (w : CopyWord) (cx : Cur) (timed : Bool) : Copy :=
  { id := cx.id, cx := { cx with phase := .perform, timed := timed }, op := w.op, body := w.body, regS := w.regS,
    regD := w.regD, regs := w.regs.map (·.v), cls := w.cls, src := none, dst := none, first := w.first, chunk := w.first,
    chunks := 1, sent := 0, left := 0, exc := 0, image := [], expect := 0,
    fill := if w.op = 3 then w.regs.headD ⟨0, false⟩ else ⟨0, false⟩, kept := [], timed := timed,
    faulted := false, halted := false }

/-- The copy that a word starts, or the trap that stops it before any effect (R249 to R263).
(Log: 70, 71, 140 DEDUCED.) -/
def State.planCopy (s : State) (t : Team) (cx : Cur) (w : CopyWord) : Except Trap Copy :=
  let timed := (t.col .cpy).timed
  let tgt := if w.op = 0 then w.body / 2 ^ 22 % 4 else 0
  let k0 := w.blank cx timed
  if w.bad then .error (.bounds, 0)
  else if w.op = 3 then
    match s.copyDest t timed w.regD.toNat with
    | .error e => .error e
    | .ok (d, _) =>
      if timed && 1 < d.chunks then .error (.bounds, 0)
      else .ok { k0 with dst := some d, chunks := d.chunks }
  else match s.copySource t timed w.regS.toNat with
    | .error e => .error e
    | .ok a =>
      if tgt = 1 then
        if s.slotsOk t w.regD.toNat (a.imageAddrs fun _ => 0).length then .ok { k0 with src := some a } else .error (.bounds, 0)
      else if tgt = 2 then
        if timed then .error (.schedule, s.beatOf t)
        else if a.ty = .f16 && a.count = 16 then .ok { k0 with src := some a } else .error (.bounds, 0)
      else match s.copyDest t timed w.regD.toNat with
        | .error e => .error e
        | .ok (d, core) =>
          if a.ext ≠ d.ext || ((isResidue a.ty || isResidue d.ty) && a.ty ≠ d.ty) then .error (.bounds, 0)
          else if timed && 1 < d.chunks then .error (.bounds, 0)
          else
            let k := { k0 with src := some a, dst := some d, chunks := d.chunks }
            if w.op = 0 then .ok k
            else if !sameFormat a d || a.loc ≠ 0 || d.loc = 2 then .error (.bounds, 0)
            else
              let e := ((w.regs.headD ⟨0, false⟩).v).toNat
              let c := ((w.regs.getD 1 ⟨0, false⟩).v).toNat
              let far := (s.team core).getD t
              let own := if core = t.cid then t.landTrap t.cid ((List.range 8).map (c + ·)) else none
              match (((dwordTrap t e 8).orElse fun _ => t.readsTrap 2 8 [e]).orElse fun _ => dwordTrap far c 8).orElse
                  fun _ => own with
              | some x => .error x
              | none => .ok { k with expect := BitVec.ofNat 64 (readNat (t.view 2).spad e 8) }

/-- Source bytes in own scratchpad: those that a copy samples. -/
def Copy.spadSource (k : Copy) : List Nat :=
  match k.src with
  | some a => if a.loc = 0 then a.spadBytes else []
  | none => []

/-- Sectors of 256 bytes that a copy sends in all (R257). -/
def Copy.sectors (k : Copy) : Nat :=
  let n := match k.dst, k.src with
    | some d, _ => if d.loc = 2 then 0 else storedBytes d.ty d.count
    | none, some a => if k.target = 1 then storedBytes a.ty a.count else 0
    | none, none => 0
  (n + 255) / 256

/-- The ring advance that a copy makes when it performs (R301). -/
def Copy.advance (k : Copy) : Option (Ring × Nat) := k.dst.bind fun d => if d.raen then some (d.rring, d.rcnt) else none

/-- An earlier copy of an elastic stream has still to write some of n bytes from a: an access of cpy to them comes after it
(R329). -/
def Team.copyInto (t : Team) (a n : Nat) : Bool :=
  let hits := fun (lo m : Nat) => decide (lo < a + n) && decide (a < lo + m)
  t.copies.any fun k => !k.timed && match k.dst with
    | some d => (d.loc = 0 && d.spadBytes.any fun b => hits b 1) ||
        (k.op = 1 && d.loc = 0 && hits (k.regs.getD 1 0).toNat 8)
    | none => false

/-- Copies of a word wait while its records or P_e are unsealed or an earlier copy has still to write them, eight copies are in
flight, the transfer port is held, or its ring has no room (R250, R254, R257, R301, R329). -/
def copyStall (t : Team) (w : CopyWord) (plan : Except Trap Copy) : Bool :=
  let timed := (t.col .cpy).timed
  let open_ := fun (n a : Nat) => (dwordTrap t a n).isNone && (t.unsealed timed a n || (!timed && t.copyInto a n))
  8 ≤ t.copies.length || t.clk < t.xferFree || w.records.any (open_ 64) ||
  (w.op = 1 && open_ 8 ((w.regs.headD ⟨0, false⟩).v).toNat) ||
  match plan with
  | .error _ => false
  | .ok k => match k.advance with
    | some (r, n) => !t.ringRoom timed r n
    | none => false

/-- Copy words record their reads of records, and P_e, as accesses of cpy (R349, R429). -/
def State.recordReads (s : State) (cx : Cur) (w : CopyWord) : State :=
  let reads := (w.records.map fun a => (a, 64)) ++ (if w.op = 1 then [(((w.regs.headD ⟨0, false⟩).v).toNat, 8)] else [])
  reads.foldl (fun (s : State) r => match s.team cx.cid with
    | some t => s.afterRows cx 2 false t r.2 [r.1]
    | none => s) s

/-- A copy starts: its sampling is due at issue + 1 in timed mode, its first chunk after a free latency in elastic mode; one
with no chunk left performs at once (R254, R257, R262). -/
def State.startCopy (s : State) (t : Team) (k : Copy) : State :=
  let adv := match k.advance with
    | some (r, n) => [(k.id, r, n)]
    | none => []
  let t := { t with copies := t.copies ++ [k], advances := t.advances ++ adv }
  let due := if k.timed || k.chunks ≤ k.chunk then t.clk + 1 else s.memDue t.clk
  let act := if k.chunks ≤ k.chunk then Instr.copyPerforms else .copyChunk
  let ph := if k.timed then Phase.access else .perform
  let t := { t with pend := insertPend ⟨due, rankOf .cpy, { k.cx with phase := ph }, act⟩ t.pend,
                    xferFree := if k.timed then t.clk + 4 * k.sectors else t.xferFree }
  (s.setTeam t).took

/-- The bank format registers that a copy reads at its issue, for R79. -/
def copyBanks (p : Except Trap Copy) : List RdName :=
  match p with
  | .error _ => []
  | .ok k => k.src.toList.flatMap bankReads ++ k.dst.toList.flatMap bankReads

/-- The issue of a copy word that reads some registers. -/
def copyWord (s : State) (regs : List SReg) (word : Team → CopyWord) : Host.Outcome State Fault Refusal :=
  runWord s (fun s t =>
      let p := s.planCopy t s.cur (word t)
      { stall := copyStall t (word t) p, late := (trapOf p).orElse fun _ => earlyRead s t (sReads regs ++ copyBanks p) }) fun s t =>
    match s.planCopy t s.cur (word t) with
    | .error e => s.raise t s.cur e
    | .ok k => (s.startCopy t k).recordReads k.cx (word t)

/-! ## The copy words -/

/-- CP with a record (R255). -/
def execCp (a d : SReg) (cls : BitVec 4) (s : State) : Host.Outcome State Fault Refusal :=
  copyWord s [a, d] fun t => ⟨0, 0, 0, (t.getS a).v, (t.getS d).v, [], cls.toNat⟩

/-- CP.WS into write slots (R259). (Log: 68 DEDUCED.) -/
def execCpWs (a d : SReg) (cls : BitVec 4) (s : State) : Host.Outcome State Fault Refusal :=
  copyWord s [a, d] fun t => ⟨0, 2 ^ 22, 0, (t.getS a).v, (t.getS d).v, [], cls.toNat⟩

/-- CP.CB into a codebook slot (R260). -/
def execCpCb (a : SReg) (slot : BitVec 3) (cls : BitVec 4) (s : State) : Host.Outcome State Fault Refusal :=
  copyWord s [a] fun t => ⟨0, 2 ^ 23 + slot.toNat * 2 ^ 19, 0, (t.getS a).v, 0, [], cls.toNat⟩

/-- CPD (R263). -/
def execCpd (a d e k : SReg) (cls : BitVec 4) (s : State) : Host.Outcome State Fault Refusal :=
  copyWord s [a, d, e, k] fun t =>
    ⟨1, e.toNat * 2 ^ 18 + k.toNat * 2 ^ 12, 0, (t.getS a).v, (t.getS d).v, [t.getS e, t.getS k], cls.toNat⟩

/-- CPFILL (R261). -/
def execCpfill (d v : SReg) (cls : BitVec 4) (s : State) : Host.Outcome State Fault Refusal :=
  copyWord s [d, v] fun t => ⟨3, v.toNat * 2 ^ 18, 0, 0, (t.getS d).v, [t.getS v], cls.toNat⟩

/-- The registers that a BODY names (R262). -/
def bodyRegs (op body : Nat) : List SReg :=
  match op with
  | 1 => [fb body 18 6, fb body 12 6]
  | 3 => [fb body 18 6]
  | _ => []

/-- The word that a resume dword describes (R262); its reserved bits make an operation that is refused.
(Log: 66 DEDUCED.) -/
def resumeWord (x : Nat) (a d : Word) (regs : List TW) (cls : Nat) : CopyWord :=
  ⟨if fld x 24 4 ≠ 0 then 15 else fld x 28 4, fld x 0 24, fld x 32 32, a, d, regs, cls⟩

/-- CPRES, as a word or issued by eret from a copy record with the record's values, when a check that fails leaves the copy
with a resume dword again (R262, R388). (Log: 67 DEDUCED.) -/
def execCpres (a d x : SReg) (cls : BitVec 4) (s : State) : Host.Outcome State Fault Refusal :=
  if s.cur.phase = .perform then
    onTeam s fun t => match s.cur.args with
      | [r, va, vd, r0, r1, c, tn] =>
        let vals := [r0, r1].map fun v => (⟨BitVec.ofNat 64 v, tn = 1⟩ : TW)
        let w := resumeWord r (BitVec.ofNat 64 va) (BitVec.ofNat 64 vd) vals c
        let t := { t with nextId := t.nextId + 1 }
        match s.planCopy t s.cur w with
        | .error e =>
          let k : Copy := { w.blank s.cur false with faulted := true, halted := true }
          s.setTeam ({ t with copies := t.copies ++ [k] }.pendTrap .cpy (t.col .cpy).head e.1 e.2 0 s.cur.issued)
        | .ok k =>
          if copyStall t w (.ok k) then s.setTeam (t.later .cpy ⟨t.clk + 1, rankOf .cpy, s.cur, .cpres a d x cls⟩)
          else s.startCopy t { k with cx := { k.cx with timed := false } , timed := false }
      | _ => s
  else
    let word := fun (t : Team) =>
      let v := (t.getS x).v.toNat
      resumeWord v (t.getS a).v (t.getS d).v ((bodyRegs (fld v 28 4) (fld v 0 24)).map t.getS) cls.toNat
    let regs := match s.team s.cur.cid with
      | some t => [a, d, x] ++ bodyRegs (fld (t.getS x).v.toNat 28 4) (fld (t.getS x).v.toNat 0 24)
      | none => []
    copyWord s regs word

/-! ## Sending and performing (R252 to R258, R286) -/

/-- A copy in flight. -/
def Team.copy (t : Team) (id : Nat) : Option Copy := t.copies.find? fun k => k.id = id

/-- The team with a copy replaced. -/
def Team.setCopy (t : Team) (k : Copy) : Team := { t with copies := t.copies.map fun x => if x.id = k.id then k else x }

/-- The team without a copy, its pending advance with it. -/
def Team.dropCopy (t : Team) (id : Nat) : Team :=
  { t with copies := t.copies.filter fun k => k.id != id, advances := t.advances.filter fun x => x.1 != id }

/-- Cells in sectors of 256 bytes (R257). The bytes of an aligned 32-byte unit land together, with the sector that its first
byte falls in (R254). (Log: 141 DEDUCED.) -/
def sectorsFrom (l : Cells) : List Cells :=
  let ix := l.zipIdx
  let home := fun (c : Nat) => ((ix.find? fun x => x.1.1 / 32 = c / 32).map fun x => x.2 / 256).getD 0
  (List.range ((l.length + 255) / 256)).map fun i => (ix.filter fun x => home x.1.1 = i).map fun x => x.1

/-- A watchpoint that traps has matched an access of the copy (R429). -/
def Team.watched (t : Team) (k : Copy) : Bool :=
  t.traps.any fun r => r.col = .cpy && r.cause % 256 = Cause.watchpoint.code && r.due = k.cx.issued

/-- The image of a copy with the source bytes that chunk c has sampled, each at every offset of the chunk that its address has in
the source's stored image (R58, R263). -/
def Copy.sample (k : Copy) (c : Nat) (cells : Cells) (image : List Host.Cell) : List Host.Cell :=
  match k.src with
  | none => image
  | some a =>
    let z := chunkElems a.ty * elemBytes a.ty
    let mine := a.spadBytes.zipIdx.filter fun x => a.ty.isSub || x.2 / z = c
    mine.foldl (fun m x => match cells.find? fun y => y.1 = x.1 with
      | some y => writeByte m x.2 y.2.1
      | none => m) image

/-- The units of z bytes among some cells that the copy fills whole and that none of its earlier chunks has touched: their old
taint goes, whatever runs, sectors and chunks write them (R256). -/
def Copy.newUnits (k : Copy) (z : Nat) (cells : Cells) : List Nat :=
  match k.dst with
  | none => []
  | some d =>
    let at_ := fun (c : Nat) => if d.kind = 2 then (if c = k.chunk then cells.map fun x => x.1 else [])
      else (d.chunkIdx c).flatMap (d.bytesAt fun _ => 0)
    let from_ := fun (n : Nat) => ((List.range n).filter fun c => k.first ≤ c).flatMap at_
    (distinct (cells.map fun x => x.1 / z)).filter fun u =>
      (List.range z).all (fun i => (from_ k.chunks).contains (z * u + i)) && !(from_ k.chunk).any fun a => a / z = u

/-- The plait P_s of a cpd (R263). -/
def Copy.plaitS (k : Copy) : Word :=
  match k.src with
  | none => 0
  | some a => plait (readBytes k.image 0 (storedBytes a.ty a.count))

/-- The core that a copy's destination lies in. -/
def Copy.core (k : Copy) : Nat :=
  match k.dst with
  | some d => if d.loc = 1 then d.core else k.cx.cid
  | none => k.cx.cid

/-- The landing delay of a copy (R257, R286). -/
def Copy.delay (k : Copy) : Nat := if k.target = 1 then 320 else crossDelay k.cx.cid k.core

/-- The exceptions of a copy join CEXC, after a csrw that lands on the same beat (R45, R46). -/
def State.joinCexc (s : State) (t : Team) (cx : Cur) (exc : BitVec 5) : State :=
  if exc = 0 then s
  else if t.cid = s.cur.cid then s.setTeam { t with cexc := t.cexc ||| exc.setWidth 64 }
  else s.sendTo t.cid 0 (rankOf .cpy) cx (.registerWriteLands (.csr .set 0x015 (exc.setWidth 64) false))

/-- A cpd's check dword is on its way: sector n of R257, in the order of R131 and R288. -/
def State.sendDword (s : State) (k : Copy) : State :=
  match s.team k.core with
  | none => s
  | some t =>
    let x : Sector := ⟨[], k.sent, k.cx.cid, k.id, .cpy, 0, true, k.timed, [], []⟩
    let cx := { k.cx with cid := k.core, args := [k.cx.cid, k.sent] }
    s.setTeam { t with pend := insertLand ⟨t.clk + 4, rankSector k.core x, cx, .cpdCheckDwordLands⟩ t.pend }

/-- A chunk has performed: its exceptions join CEXC, and the next chunk, the check dword or the performing of the copy is
due (R253 to R255, R263). A fill's exceptions join when the fill performs (R261). A copy that a watchpoint has stopped goes no
further (R429). -/
def State.chunkDone (s : State) (cid id : Nat) : State :=
  match s.team cid with
  | none => s
  | some t => match t.copy id with
    | none => s
    | some k =>
      let stop := !k.timed && t.watched k
      let k' := { k with chunk := k.chunk + 1, exc := if k.op = 3 then k.exc else 0, left := 0, halted := k.halted || stop }
      let t := t.setCopy k'
      let s := (s.setTeam t).joinCexc t k.cx (if k.op = 3 then 0 else k.exc)
      if k'.halted then s
      else if k'.chunk < k.chunks then (s.sendTo cid (s.memDue 0) (rankOf .cpy) k.cx .copyChunk).took
      else if k.op = 1 then s.sendDword k
      else s.sendTo cid 0 (rankOf .cpy) k.cx .copyPerforms

/-- A fault of an elastic copy's chunk: it stays with the chunk in its resume dword; the words issued after it stand
(R253, R385). (Log: 66 DEDUCED.) -/
def State.chunkFault (s : State) (t : Team) (k : Copy) (e : Trap) : State :=
  s.setTeam ((t.setCopy { k with faulted := true, halted := true }).pendTrap .cpy (t.col .cpy).head e.1 e.2 0 k.cx.issued)

/-- The sectors of a chunk are on their way (R257, R286). -/
def State.sendCells (s : State) (t : Team) (k : Copy) (sent : Nat) (base : Nat) (cells : Cells) : State :=
  let l := sectorsFrom cells
  let entire := k.newUnits 4 cells
  let more := match k.dst with
    | none => []
    | some d => distinct ((((List.range (k.chunks - (k.chunk + 1))).flatMap fun i =>
        (d.chunkIdx (k.chunk + 1 + i)).flatMap (d.bytesAt fun _ => 0)) ++
        (if k.op = 1 then [(k.regs.getD 1 0).toNat] else [])).map (· / 256))
  let s := s.setTeam (t.setCopy { k with sent := sent, left := l.length })
  l.zipIdx.foldl (fun (s : State) x =>
    s.sendSector k.core (base + 4 * x.2) k.cx
      { cells := x.1, start := sent, sender := t.cid, id := k.id, path := .cpy, index := x.2, last := x.2 + 1 = l.length,
        timed := k.timed, entire := entire, more := more }) s

/-- Load a codebook slot with the values read, if R36 admits them (R260). -/
def State.loadBook (s : State) (t : Team) (k : Copy) (cells : Cells) : State :=
  let book := (List.range 16).map fun i => natOfBytes (((cells.drop (2 * i)).take 2).map fun c => c.2.1)
  let slot : Fin 8 := ⟨fld k.body 19 3 % 8, Nat.mod_lt _ (by decide)⟩
  if bookOk book then (s.setTeam { t with books := t.books.set slot book }).chunkDone t.cid k.id
  else s.setTeam ((t.dropCopy k.id).pendTrap .cpy k.cx.pos .bounds 0 0 k.cx.issued)

/-- The dwords of block tables that the copy's next chunk reads, as physical addresses (R304). -/
def State.tableReach (s : State) (t : Team) (k : Copy) : List Nat :=
  let one := fun (l : Layout) (cs : List (List Nat)) =>
    if l.kind ≠ 2 then []
    else s.reach t { l with kind := 0 } false ((distinct (cs.map fun c => c.getD (l.ndim - 1) 0 / 2 ^ l.bsl)).flatMap fun n =>
      (List.range 8).map fun i => l.base + 8 * n + i)
  match k.dst, k.src with
  | some d, a =>
    let cs := (d.chunkIdx k.chunk).filterMap d.coords
    one d cs ++ (match a with | some l => one l cs | none => [])
  | none, some a => one a ((List.range a.count).filterMap a.coords)
  | none, none => []

/-- The physical addresses that a chunk reads, and those that it writes (R316). -/
def State.chunkReach (s : State) (t : Team) (k : Copy) (r : ChunkOut) : List Nat × List Nat :=
  ((match k.src with | some a => s.reach t a false (r.read.map fun c => c.1) | none => []),
   (match k.dst with | some d => s.reach t d true (r.cells.map fun c => c.1) | none => []))

/-- An earlier copy that a chunk comes after: one of its class, or of any class that accesses a sector which it accesses (R329,
R330). -/
def State.copyAfter (s : State) (t : Team) (k x : Copy) : Bool :=
  let at_ := fun (write : Bool) (l : Option Layout) => match l with
    | some l => s.sectorsOf t l write
    | none => []
  let meets := fun (a b : List Nat) => a.any b.contains
  x.cls = k.cls || meets (at_ true x.dst ++ at_ false x.src) (at_ false k.src ++ at_ true k.dst)

/-- The destination bytes of a chunk as they stand before it writes them, which later chunks of the copy may still read as the
source (R253). (Log: 77 DESIGN CHOICE.) -/
def State.keepOld (s : State) (t : Team) (k : Copy) (cells : Cells) : List (Nat × BitVec 8 × Bool) :=
  match k.src, k.dst with
  | some a, some d =>
    if k.chunks = 1 || a.loc ≠ d.loc || d.loc = 1 || d.kind = 4 then k.kept
    else
      let mine := (distinct (cells.map fun c => s.home t.job d c.1)).filter fun x => !(k.kept.any fun y => y.1 = x)
      let key := match cells with
        | c :: _ => if d.kind = 3 then none else match s.walk t.job c.1 with
          | .ok x => x.key
          | .error _ => none
        | [] => none
      k.kept ++ (if d.loc = 0 then t.getCells mine
        else mine.map fun x => (x, BitVec.ofNat 8 (s.l2Read key x 1), s.unitTaint (x / 32)))
  | _, _ => k.kept

/-- COPY_CHUNK (R253, R255, R257): a timed copy samples its source at issue + 1; an elastic copy applies its next chunk,
after the earlier copies that it comes after, once the demand sequencer has served what it reads and writes in a running
program's window, no more of it at a time than a core's 4096 requests (R3, R316, R325), or takes a fault that its resume
dword records. (Log: 7 DESIGN CHOICE; 66, 155 DEDUCED.) -/
def execCopyChunk (s : State) : Host.Outcome State Fault Refusal :=
  onTeam s fun t => match t.copy s.cur.id with
    | none => s
    | some k =>
      let open_ := k.spadSource.any fun a => t.unsealed k.timed a 1
      let before := (t.copies.takeWhile fun x => x.id != k.id).any (s.copyAfter t k)
      let again := s.setTeam { t with pend := insertPend ⟨t.clk + 1, rankOf .cpy, s.cur, .copyChunk⟩ t.pend }
      let undo := { t.dropCopy k.id with xferFree := t.clk }
      let served := s.cur.args.headD 0
      if k.halted then s
      else if k.timed && open_ then s.raise undo s.cur (.schedule, s.beatOf t - BitVec.ofNat 64 (t.clk - k.cx.issued))
      else if !k.timed && (open_ || before || (s.tableReach t k).any fun a => s.filling a 1) then again
      else match s.makeChunk t k k.chunk with
        | .error e => if k.timed then s.raise undo s.cur e else s.chunkFault t k e
        | .ok r =>
          let pas := s.chunkReach t k r
          let asks := if k.timed then [] else (s.windowReqs t.cid k.id false pas.1 ++ s.windowReqs t.cid k.id true pas.2).drop served
          let room := 4096 - s.outstanding t
          if !k.timed && (pas.1.any (fun a => s.filling a 1) || (!asks.isEmpty && room = 0)) then again
          else if !asks.isEmpty then
            (s.request (asks.take room)).setTeam (t.await s.cur [served + min room asks.length] .copyChunk)
          else
          let skipped := if k.op = 1 && k.chunk = k.first then
              (List.range k.first).foldl (fun m c => match s.makeChunk t k c with
                | .ok x => k.sample c x.read m
                | .error _ => m) k.image
            else k.image
          let k' := { k with exc := if k.op = 3 then k.exc ||| r.exc else r.exc,
                             image := if k.op = 1 then k.sample k.chunk r.read skipped else k.image,
                             kept := s.keepOld t k r.cells }
          match r.state.team t.cid with
          | none => r.state
          | some u =>
            if k.target = 2 then r.state.loadBook (u.setCopy k') k' r.read
            else match k.dst with
              | some d =>
                if d.loc = 2 then
                  match (r.state.setTeam (u.setCopy k')).writeCells u k.cx d r.cells (k.newUnits 32 r.cells) with
                  | .error e => s.chunkFault t k e
                  | .ok s' => s'.chunkDone t.cid k.id
                else if k.timed then r.state.sendCells u k' k.cx.issued (k.delay - 1) r.cells
                else r.state.sendCells u k' s.now k.delay r.cells
              | none =>
                if k.timed then r.state.sendCells u k' k.cx.issued (k.delay - 1) r.cells
                else r.state.sendCells u k' s.now k.delay r.cells

/-- A sector of a copy has landed: the last one ends its chunk (R254). -/
def State.sectorDone (s : State) (sender id sent : Nat) : State :=
  match (s.team sender).bind fun t => (t.copy id).map fun k => (t, k) with
  | none => s
  | some (t, k) =>
    if k.sent ≠ sent || k.left = 0 || k.halted then s
    else if 1 < k.left then s.setTeam (t.setCopy { k with left := k.left - 1 })
    else s.chunkDone sender id

/-- Write slots receive bytes: the landing beat is kept for the wr checks, and each slot takes the taint of what it received
(R259, R272). -/
def State.fillSlots (s : State) (t : Team) (x : Sector) : State :=
  let pcN := (x.cells.headD (0, 0, false)).1 / 2 ^ 32 - 1
  let grants := match s.launch t.launch with | some l => l.pcs | none => []
  match (grants[pcN]?).bind s.pc with
  | none => s
  | some p =>
    let bytes := x.cells.map fun c => (c.1 % 2 ^ 32, c.2)
    let slots := distinct (bytes.map fun c => c.1 / 32)
    s.setPc { p with
      slots := bytes.foldl (fun m c => writeByte m c.1 c.2.1) p.slots,
      slotTaint := slots.foldl (fun l n => setUnit l n (bytes.any fun c => c.1 / 32 = n && c.2.2)) p.slotTaint,
      slotLand := (p.slotLand.filter fun e => !slots.contains e.1) ++ slots.map fun n => (n, t.clk) }

/-- The conflict of kind 5 that a landing makes in a watched team: a touched sector, or for an elastic landing a sector still
fresh from another transfer (R349). (Log: 65 DEDUCED.) -/
def Team.landConflict (t : Team) (x : Sector) : Option Nat :=
  if t.ndet = 0 then none
  else
    let key := x.sender + 2048 * x.id
    x.cells.findSome? fun c =>
      let z := c.1 / 256
      if (t.touch.any fun e => e.1 = z) || (!x.timed && t.fresh.any fun e => e.1 = z && e.2.2 != key) then some c.1 else none

/-- The team with the FRESH bits of an elastic landing set, and the sectors to which its transfer has still to send another
(R349). -/
def Team.freshen (t : Team) (x : Sector) : Team :=
  if t.ndet = 0 || x.timed || x.path != .cpy then t
  else
    let key := x.sender + 2048 * x.id
    let zs := distinct (x.cells.map fun c => c.1 / 256)
    { t with coming := (t.coming.filter fun e => e.2 != key) ++ x.more.map (·, key), fresh := zs.foldl (fun l z => (l.filter fun e => e.1 != z) ++ [(z, 0, key), (z, 1, key), (z, 2, key)]) t.fresh }

/-- The sender's watchpoints test a landing (R429). -/
def State.watchLanding (s : State) (x : Sector) (before after : List Host.Cell) : State :=
  match (s.team x.sender).bind fun t => (t.copy x.id).map fun k => (t, k) with
  | none => s
  | some (t, k) => (runsOf (x.cells.map fun c => c.1)).foldl (fun (s : State) r =>
      s.watch x.sender k.cx (t.col .cpy).head
        ⟨2, 0, true, r.1, r.2, fun u => readNat before u 8, fun u => readNat after u 8, false⟩) s

/-- SECTOR_LANDING (R257, R258, R286, R287, R349): the sector is checked on arrival and written, or writes no byte. A row
group of a drain is checked whole at its first sector (R240); a sector of it that comes late leaves the others on their way
(R287). (Log: 55, 70 DEDUCED.) -/
def execSectorLanding (x : Sector) (s : State) : Host.Outcome State Fault Refusal :=
  onTeam s fun t =>
    let told := fun (s : State) => if x.path = .cpy then s.sectorDone x.sender x.id x.start else
      match s.team t.cid with
      | some u => s.setTeam (u.arrived x.sender x.id)
      | none => s
    let now := if x.path = .mat then { x with cells := x.cells.take 256 } else x
    let more := if x.path = .mat then x.cells.drop 256 else []
    let next := fun (s : State) => if more.isEmpty then told s
      else s.sendSector t.cid 4 s.cur { x with cells := more, index := x.index + 1 }
    let pend := fun (e : Trap) => s.setTeam (t.pendTrap x.path (t.col x.path).head e.1 e.2 0 t.clk)
    let trap := fun (e : Trap) => told (pend e)
    let slots := decide (2 ^ 32 ≤ (x.cells.headD (0, 0, false)).1)
    let lost := (s.upset x.sender x.id 6).toNat
    if lost % 2 ^ 16 = x.index + 1 then
      let first := if slots then 0 else (x.cells.headD (0, 0, false)).1
      (next (pend (.ecc, BitVec.ofNat 64 first))).checkEvent ⟨2, lost / 2 ^ 16⟩ 0x19 (some t) 0 0
    else if slots then told (s.fillSlots t x)
    else match (if x.sender = t.cid && x.path = .cpy then none
          else if x.path = .mat && x.index ≠ 0 then none else t.landTrap x.sender (x.cells.map fun c => c.1)) with
        | some e => trap e
        | none =>
          let hit := t.landConflict now
          match (if t.ndet = 2 then hit else none) with
          | some a => trap (.conflict, conflictTval 5 a)
          | none =>
            let bad := hit.isSome
            let v := (t.putCellsOver (now.cells.map fun c => (c.1, c.2.1, c.2.2 || bad)) now.entire).freshen now
            let u := match (if x.sender = t.cid && x.path = .cpy && !x.timed then t.copy x.id else none) with
              | some k => v.wrote t s.now 2 k.cls k.cx.id false (now.cells.map fun c => c.1)
              | none => v
            let s1 := s.setTeam u
            let s2 := match hit with
              | some a => s1.noteConflictOf u x.sender x.path 5 a 0
              | none => s1
            next (if x.path = .cpy then s2.watchLanding now t.spad u.spad else s2)

/-- CPD_CHECK_DWORD_LANDS (R263, R264): the source's plait is compared with the expected one, and written to the check dword
of the destination core as any sector is; a sector that no retry could deliver raises the copy-check trap (R258, R349).
(Log: 68, 75 DEDUCED.) -/
def execCpdCheckDwordLands (s : State) : Host.Outcome State Fault Refusal :=
  onTeam s fun t =>
    let sender := s.cur.args.headD 0
    match (s.team sender).bind fun u => (u.copy s.cur.id).map fun k => (u, k) with
    | none => s
    | some (u, k) =>
      let p := k.plaitS
      let up := (s.upset sender k.id 5).toNat
      let tries := up % 8
      let s := (List.range (min tries 3)).foldl (fun (s : State) _ => State.checkEvent s ⟨2, up / 2 ^ 32⟩ 0x18 (some u) 0 0) s
      let fail := fun (v : Word) =>
        let rest := fun (v : Team) => { v with coming := v.coming.filter fun e => e.2 != sender + 2048 * k.id }
        (s.setTeam (rest t)).setTeam (((if u.cid = t.cid then rest u else u).dropCopy k.id).pendTrap .cpy k.cx.pos .copyCheck v 0 k.cx.issued)
      let a := ((k.regs.getD 1 0).toNat)
      if p ≠ k.expect then fail p
      else if 3 < tries then fail (BitVec.ofNat 64 (up / 8 % 2 ^ 24))
      else
        let x : Sector := ⟨(bytesOf p.toNat 8).zipIdx.map fun y => (a + y.2, y.1, false), k.sent, sender, k.id, .cpy, 0, true, k.timed, [], []⟩
        let hit := t.landConflict x
        let done := fun (s : State) => s.sendTo sender 0 (rankOf .cpy) k.cx .copyPerforms
        let trap := (if sender = t.cid then none else t.landTrap sender ((List.range 8).map (a + ·))).orElse fun _ =>
          if t.ndet = 2 then hit.map fun b => (Cause.conflict, conflictTval 5 b) else none
        match trap with
        | some e => done (s.setTeam (t.pendTrap .cpy (t.col .cpy).head e.1 e.2 0 t.clk))
        | none =>
          let v := (t.putCells (x.cells.map fun c => (c.1, c.2.1, hit.isSome))).freshen x
          let s1 := match hit with
            | some b => (s.setTeam v).noteConflictOf v sender .cpy 5 b 0
            | none => s.setTeam v
          done (s1.watchLanding x t.spad v.spad)

/-- COPY_PERFORMS (R92, R254, R261, R301): the ring advance is made, a fill's exceptions join CEXC, and the SIGNAL fires. -/
def execCopyPerforms (s : State) : Host.Outcome State Fault Refusal :=
  onTeam s fun t => match t.copy s.cur.id with
    | none => s
    | some k =>
      let u := ((t.advance 2 k.id).dropCopy k.id).signalAt k.cx t.clk
      s.setTeam { u with cexc := u.cexc ||| k.exc.setWidth 64 }

/-! ## cpchk (R265) -/

/-- The image that a cpchk folds, and the trap that its record raises (R265, R306). -/
def State.chkPlan (s : State) (t : Team) (a k : Nat) : Except Trap (List Nat) :=
  match (dwordTrap t a 64).orElse fun _ => t.readsTrap 2 64 [a] with
  | some e => .error e
  | none =>
    let img := (t.view 2).recordImage a
    let l0 := recordFields img
    if recordBad img l0 true then .error (.bounds, BitVec.ofNat 64 a)
    else if l0.loc ≠ 0 then .error (.bounds, 0)
    else
      let l := t.endpoint l0
      match ((((recordTrap a img l true).orElse fun _ => spadTrap t a l.spadBytes).orElse fun _ => dwordTrap t k 8).orElse
          fun _ => t.readsTrap 2 8 [k]).orElse fun _ => (runsOf l.spadBytes).findSome? fun r => t.readsTrap 2 r.2 [r.1] with
      | some e => .error e
      | none => .ok l.spadBytes

/-- CPCHK (R265): the fold is made at issue, which in elastic mode comes after the earlier copies of class 0 and those that write
what it reads (R329, R330); 4·n beats later the SIGNAL fires, or the copy-check trap is raised with the fold.
(Log: 68 DEDUCED.) -/
def execCpchk (a k : SReg) (s : State) : Host.Outcome State Fault Refusal :=
  if s.cur.phase = .perform then
    onTeam s fun t => s.setTeam (t.pendTrap .cpy s.cur.pos .copyCheck (BitVec.ofNat 64 (s.cur.args.headD 0)) 0 s.cur.issued)
  else runWord s (fun s t =>
      let p := s.chkPlan t (t.getS a).v.toNat (t.getS k).v.toNat
      let timed := (t.col .cpy).timed
      let held := fun (x n : Nat) => t.unsealed timed x n || (!timed && t.copyInto x n)
      let open_ := fun (n x : Nat) => (dwordTrap t x n).isNone && held x n
      { stall := open_ 64 (t.getS a).v.toNat || open_ 8 (t.getS k).v.toNat ||
          (!timed && t.copies.any fun x => x.cls = 0) || (match p with
          | .ok l => l.any fun x => held x 1
          | .error _ => false),
        late := (trapOf p).orElse fun _ => earlyRead s t (sReads [a, k] ++ (match p with
          | .ok l => (banksOf l).map .bank
          | .error _ => [])) }) fun s t =>
    match s.chkPlan t (t.getS a).v.toNat (t.getS k).v.toNat with
    | .error e => s.raise t s.cur e
    | .ok l =>
      let fold := plait (((t.view 2).getCells l).map fun c => c.2.1)
      let due := t.clk + 4 * ((l.length + 255) / 256)
      let good := fold.toNat = readNat (t.view 2).spad (t.getS k).v.toNat 8
      let s' := s.setTeam (if good then t.signalAt s.cur due else t.again s.cur due .perform [fold.toNat] (.cpchk a k))
      let reads := ((t.getS a).v.toNat, 64) :: ((t.getS k).v.toNat, 8) :: runsOf l
      reads.foldl (fun (s' : State) r => s'.afterRows s.cur 2 false t r.2 [r.1]) s'

/-! ## cpx (R266, R417) -/

/-- A field of a cpx descriptor's dword. -/
def cpxFld (d : Nat) (w lo n : Nat) : Nat := fld (d / 2 ^ (64 * w)) lo n

/-- The interface whose agreed version a cpx descriptor carries: the queue ABI's for the host, Reedlink's for the others
(R410). (Log: 73 DEDUCED.) -/
def cpxIface (engine : Nat) : Fin 5 := if engine = 0 then 0 else 3

/-- A descriptor outside R266 or R417. (Log: 73, 104 DEDUCED.) -/
def State.cpxBad (s : State) (t : Team) (engine d : Nat) : Bool :=
  let coll := decide (engine = 2)
  let minor := fld (s.vers[cpxIface engine]).toNat 16 8
  let rec_ := cpxFld d 1 0 21
  cpxFld d 0 0 8 ≠ 1 || minor < cpxFld d 0 8 8 || (if coll then 2 < cpxFld d 0 16 8 else cpxFld d 0 16 8 ≠ 0) ||
  (if coll then 4 < cpxFld d 0 24 3 else cpxFld d 0 24 3 ≠ 0) || cpxFld d 0 27 5 ≠ 0 ||
  (if coll then 2 < cpxFld d 0 32 4 else cpxFld d 0 32 4 ≠ 0) || cpxFld d 0 36 28 ≠ 0 ||
  rec_ % 32 ≠ 0 || (t.spBad rec_ 32).isSome || cpxFld d 1 27 37 ≠ 0 || cpxFld d 4 0 64 = 0 ||
  (if coll then cpxFld d 4 32 32 ≠ 0 else 2 ^ 32 < cpxFld d 4 0 64) ||
  (match engine with
   | 0 => cpxFld d 5 0 64 ≠ 0
   | 1 => cpxFld d 5 8 56 ≠ 0
   | _ => cpxFld d 5 32 32 ≠ 0) || cpxFld d 6 0 64 ≠ 0 || cpxFld d 7 0 64 ≠ 0

/-- A cpx word: its descriptor is read at issue and handed to an engine, which has 10 ms for it; a seventeenth request waits (R266,
R421). Its accesses carry the word's class (R328). -/
def cpxWord (s : State) (engine : Nat) (a : SReg) (cls : BitVec 4) : Host.Outcome State Fault Refusal :=
  runWord s (fun s t =>
      let d := (t.getS a).v.toNat
      let timed := (t.col .cpy).timed
      { reject := true,
        stall := 16 ≤ t.cpx.length || ((dwordTrap t d 64).isNone && (t.unsealed timed d 64 || t.copyInto d 64)),
        late := (((dwordTrap t d 64).orElse fun _ => t.readsTrap 2 64 [d]).orElse fun _ =>
          if s.cpxBad t engine (readNat (t.view 2).spad d 64) then some (.bounds, BitVec.ofNat 64 d) else none).orElse fun _ =>
            earlyRead s t (sReads [a]) }) fun s t =>
    let d := (t.getS a).v.toNat
    let req : CpxReq := ⟨s.cur.id, engine, cls.toNat, readBytes (t.view 2).spad d 64, { s.cur with phase := .perform }⟩
    let s1 := (s.setTeam { t with cpx := t.cpx ++ [req] }).afterRows s.cur 2 false t 64 [d]
    let die := s.kensia.ioDie s.kensia.remapDie[dieFin (dieOf t.cid)]
    let f : FabReq := ⟨die + 16 * s.nextReq, die, s.resets[die % 8]'(Nat.mod_lt _ (by decide)), t.cid, t.launch, s.cur.id⟩
    let cx := { s.cur with phase := .perform, args := [t.launch] }
    let far := engine = 2 && die < 8
    let late := insertPend ⟨s.now + s.beatsOfNs 10000000, 0, cx, .fabricTimeout⟩ s1.agenda
    { s1.took with agenda := if far then late else insertPend ⟨s.memDue s.now, 0, cx, .cpxComplete⟩ late,
                   fabric := s1.fabric ++ [f], nextReq := s1.nextReq + 1 }

/-- CPX.HOST (R266, R417). -/
def execCpxHost (a : SReg) (cls : BitVec 4) (s : State) : Host.Outcome State Fault Refusal := cpxWord s 0 a cls
/-- CPX.PEER (R266, R417). -/
def execCpxPeer (a : SReg) (cls : BitVec 4) (s : State) : Host.Outcome State Fault Refusal := cpxWord s 1 a cls
/-- CPX.COLL (R266, R417, R418). -/
def execCpxColl (a : SReg) (cls : BitVec 4) (s : State) : Host.Outcome State Fault Refusal := cpxWord s 2 a cls

end Sys2Proof.Machine
end

