-- ==== Sys2Proof/Machine/Channel.lean ====
section
/-! DEFINITION. Channel words (R267 to R272, R311 to R326): the checker, reads and writes, their landings, refresh, the
demand sequencer, and scrubs. Beats of the owner's clock stand for ticks, two to the tick. -/

namespace Sys2Proof.Machine

/-! ## The checker (R268, R313, R317) -/

/-- A pseudo-channel with nothing in it. (Log: 2 DESIGN CHOICE.) -/
def blankPc (n : Nat) : Pc :=
  { pc := n, banks := Vector.replicate 16 none, hist := [], prog := none, slots := [], slotTaint := [], slotLand := [],
    refs := Vector.replicate 16 0, t0 := 0, debt := Vector.replicate 16 0, hotQ := 0, queue := [], busyTill := 0, winEnd := 0,
    winown := 0, stopPos := 0 }

/-- The issue beat of the latest command that a condition picks out. -/
def Pc.last (p : Pc) (f : CmdRec → Bool) : Option Nat := (p.hist.filter f).getLast?.map (·.tick)

/-- The history with commands added; what no parameter still reaches is forgotten (R317). -/
def Pc.record (p : Pc) (clk : Nat) (k : CmdKind) (banks : List Nat) : Pc :=
  { p with hist := (p.hist.filter fun c => clk ≤ c.tick + 2048) ++ banks.map fun b => ⟨clk, k.code, b⟩ }

/-- Timing parameter i of a pseudo-channel's rim has not elapsed at this beat since a beat (R317). -/
def tooSoon (pc clk i : Nat) : Option Nat → Bool
  | none => false
  | some t => clk < t + 2 * Config.fusedTiming (rimOf pc) i

/-- The failing parameters of an act to a bank (R268, R317). -/
def Pc.actFails (p : Pc) (clk b : Nat) : List Nat :=
  let acts := p.hist.filter fun c => c.kind = CmdKind.act.code
  let k := fun (x : CmdKind) (c : CmdRec) => decide (c.kind = x.code)
  let check : List (Nat × Option Nat) :=
    [(1, p.last fun c => k .close c && c.bank = b), (3, p.last fun c => k .act c && c.bank = b),
     (4, p.last fun c => k .act c && c.bank / 4 != b / 4),
     (5, p.last fun c => k .act c && c.bank / 4 = b / 4 && c.bank != b),
     (6, (acts.reverse[3]?).map (·.tick)), (13, p.last (k .ref)), (14, p.last fun c => k .refsb c && c.bank = b % 4),
     (15, p.last (k .mrw))]
  (check.filter fun x => tooSoon p.pc clk x.1 x.2).map (·.1)

/-- The failing parameters of an rd or a wr to a bank (R268, R317). -/
def Pc.moveFails (p : Pc) (clk b : Nat) (read : Bool) : List Nat :=
  let k := fun (x : CmdKind) (c : CmdRec) => decide (c.kind = x.code)
  let mv := fun (c : CmdRec) => k .rd c || k .wr c
  let check : List (Nat × Option Nat) :=
    [(0, p.last fun c => k .act c && c.bank = b), (7, p.last fun c => mv c && c.bank / 4 != b / 4),
     (8, p.last fun c => mv c && c.bank / 4 = b / 4), (10, if read then p.last (k .wr) else none), (15, p.last (k .mrw))]
  (check.filter fun x => tooSoon p.pc clk x.1 x.2).map (·.1)

/-- The failing parameters of a pre that closes a bank (R268, R317). -/
def Pc.closeFails (p : Pc) (clk b : Nat) : List Nat :=
  let k := fun (x : CmdKind) (c : CmdRec) => decide (c.kind = x.code) && c.bank = b
  let check : List (Nat × Option Nat) :=
    [(2, p.last (k .act)), (9, p.last (k .wr)), (11, p.last (k .rd)),
     (15, p.last fun c => c.kind = CmdKind.mrw.code)]
  (check.filter fun x => tooSoon p.pc clk x.1 x.2).map (·.1)

/-- The failing parameters of a ref, a refsb or an mrw, which needs the listed banks closed (R268, R317). -/
def Pc.wholeFails (p : Pc) (clk : Nat) (k : CmdKind) (banks : List Nat) : List Nat :=
  let is := fun (x : CmdKind) (c : CmdRec) => decide (c.kind = x.code)
  let check : List (Nat × Option Nat) :=
    [(1, p.last fun c => is .close c && banks.contains c.bank), (13, p.last (is .ref)),
     (14, if k = .mrw then none else p.last (is .refsb)), (15, p.last (is .mrw))]
  (check.filter fun x => tooSoon p.pc clk x.1 x.2).map (·.1)

/-- The open row of a bank (R268). -/
def Pc.open? (p : Pc) (b : Nat) : Option Nat := p.banks[b % 16]'(by have := Nat.mod_lt b (show 16 > 0 by decide); omega)

/-- The pseudo-channel with a bank open on a row, or closed. -/
def Pc.setBank (p : Pc) (b : Nat) (r : Option Nat) : Pc :=
  { p with banks := p.banks.set (b % 16) r (Nat.mod_lt _ (by decide)) }

/-- All of some banks are closed. -/
def Pc.closed (p : Pc) (l : List Nat) : Bool := l.all fun b => (p.open? b).isNone

/-- The sixteen banks (R311). -/
def allBanks : List Nat := List.range 16

/-- The banks that refsb bk refreshes (R320). -/
def sbBanks (bk : Nat) : List Nat := [bk, 4 + bk, 8 + bk, 12 + bk]

/-- A window row of a pseudo-channel (R311, R313). (Log: 158 DEDUCED.) -/
def State.windowRow (s : State) (pc row : Nat) : Bool := row < s.wrows && row < Config.rimRows (pc / 128)

/-- REASON 0 with the lowest failing parameter (R269). (Log: 78 DEDUCED.) -/
def timingReason (l : List Nat) : Option (Nat × Nat) :=
  match l with
  | [] => none
  | x :: xs => some (0, xs.foldl min x)

/-- THE CHECK OF A COMMAND: it takes its effect, or it is suppressed and the DRAM-timing trap names its position, PARAM,
REASON and grant (R269). (Log: 78 DEDUCED.) -/
def chanWord (s : State) (svc : Bool) (bad : State → Team → Pc → ChanProg → Option (Nat × Nat))
    (eff : State → Team → Pc → ChanProg → State) : Host.Outcome State Fault Refusal :=
  runChan s svc fun s t p g => match bad s t p g with
    | some (reason, param) => s.raiseChan t p g .dramTiming
        (BitVec.ofNat 64 (s.cur.pos % 2 ^ 32 * 2 ^ 32 + param % 256 * 2 ^ 16 + reason * 2 ^ 12 + g.grant % 1024))
    | none => eff s t p g

/-- The bank number of a word's BG and BK (R311). -/
def bankOf (bg bk : BitVec 2) : Nat := 4 * bg.toNat + bk.toNat

/-! ## act, pre, ref and pass -/

/-- ACT opens a closed bank on a window row (R268, R313). -/
def execAct (bg bk : BitVec 2) (row : BitVec 18) (s : State) : Host.Outcome State Fault Refusal :=
  chanWord s false (fun s t p _ =>
      if (p.open? (bankOf bg bk)).isSome || !s.windowRow p.pc row.toNat then some (1, 0)
      else timingReason (p.actFails t.clk (bankOf bg bk))) fun s t p g =>
    s.chanDone t ((p.setBank (bankOf bg bk) (some row.toNat)).record t.clk .act [bankOf bg bk]) g 1

/-- The banks of a list that a pre closes. -/
def Pc.opened (p : Pc) (l : List Nat) : List Nat := l.filter fun b => (p.open? b).isSome

/-- A pre of some banks: each open one closes; nothing is sent for a closed one (R268, R317). -/
def preWord (s : State) (l : List Nat) : Host.Outcome State Fault Refusal :=
  chanWord s false (fun _ t p _ => timingReason ((p.opened l).flatMap (p.closeFails t.clk))) fun s t p g =>
    s.chanDone t (((p.opened l).foldl (fun p b => p.setBank b none) p).record t.clk .close (p.opened l)) g 1

/-- PRE (R268). -/
def execPre (bg bk : BitVec 2) (s : State) : Host.Outcome State Fault Refusal := preWord s [bankOf bg bk]

/-- PREA closes every bank (R268). -/
def execPrea (s : State) : Host.Outcome State Fault Refusal := preWord s allBanks

/-- The refresh counters with some banks refreshed once more (R320). -/
def Pc.countRefs (p : Pc) (l : List Nat) : Pc :=
  { p with refs := l.foldl (fun (v : Vector Nat 16) b => v.set (b % 16) (v[b % 16]'(by
      have := Nat.mod_lt b (show 16 > 0 by decide); omega) + 1) (Nat.mod_lt _ (by decide))) p.refs }

/-- REF refreshes all sixteen banks (R268, R320). -/
def execRef (s : State) : Host.Outcome State Fault Refusal :=
  chanWord s false (fun _ t p _ =>
      if p.closed allBanks then timingReason (p.wholeFails t.clk .ref allBanks) else some (1, 0)) fun s t p g =>
    s.chanDone t ((p.countRefs allBanks).record t.clk .ref [0]) g 1

/-- REFSB refreshes bank bk of each bank group (R268, R320). -/
def execRefsb (bk : BitVec 2) (s : State) : Host.Outcome State Fault Refusal :=
  chanWord s false (fun _ t p _ =>
      if p.closed (sbBanks bk.toNat) then timingReason (p.wholeFails t.clk .refsb (sbBanks bk.toNat)) else some (1, 0))
    fun s t p g => s.chanDone t ((p.countRefs (sbBanks bk.toNat)).record t.clk .refsb [bk.toNat]) g 1

/-- PASS gives n ticks to the demand sequencer: the next word is scheduled as if pass had issued at its last tick
(R271). -/
def execPass (n : BitVec 16) (s : State) : Host.Outcome State Fault Refusal :=
  runChan s false fun s t p g => s.chanDone t { p with winEnd := t.clk + 2 * (n.toNat - 1) } g n.toNat

/-- MRW writes a mode register of every die of the stack; a register outside the fused mask is suppressed (R268, R326).
(Log: 86 DEDUCED.) -/
def execMrw (mr : BitVec 4) (v : BitVec 8) (s : State) : Host.Outcome State Fault Refusal :=
  chanWord s true (fun _ t p _ =>
      if !p.closed allBanks || !Config.mrwMask (rimOf p.pc) mr.toNat then some (1, 0)
      else timingReason (p.wholeFails t.clk .mrw allBanks)) fun s t p g =>
    let k := 16 * (p.pc / 64) + mr.toNat
    ({ s with mrs := (s.mrs.filter fun x => x.1 != k) ++ [(k, v)] } : State).chanDone t (p.record t.clk .mrw [0]) g 1

/-! ## rd and wr (R270, R272, R313, R357) -/

/-- The physical address of a column of a bank's row (R313). -/
def windowPa (pc row b col : Nat) : Nat := 2 ^ 51 + pc * 2 ^ 32 + row * 2 ^ 14 + b * 2 ^ 10 + col * 32

/-- The bank state and timing of an rd or a wr (R268, R313). (Log: 78 DEDUCED.) -/
def State.moveBad (s : State) (t : Team) (p : Pc) (b : Nat) (read : Bool) : Option (Nat × Nat) :=
  match p.open? b with
  | none => some (1, 0)
  | some row => if !s.windowRow p.pc row then some (1, 0) else timingReason (p.moveFails t.clk b read)

/-- What an rd or a wr meets in its sector's record, judged under the owner's identity with source 5 (R343, R347, R357):
the trap under strict, or the verdict. (Log: 79 DEDUCED.) -/
def State.chanJudge (s : State) (t : Team) (a : RecAcc) (pa : Nat) : Except Trap (Verdict2 × State) :=
  s.judged t.cid .chn a pa pa 32

/-- The state after an rd of a unit: a correctable one is corrected and logged, an uncorrectable one is poisoned (R438). -/
def State.dramRead (s : State) (t : Team) (unit : Nat) : State :=
  match (s.upset 0 unit 7).toNat % 4 with
  | 1 => s.memEvent (some t) 0x20 unit
  | 2 => { s.cured 7 unit with poison := setUnit s.poison unit true }
  | _ => s

/-- An rd: 32 bytes of the open row as they stand in DRAM at the issue beat, their taint, and whether ECC cannot correct
them; its barrier arrival takes effect at its issue beat (R270, R285, R316). -/
def readWord (s : State) (bg bk : BitVec 2) (col : BitVec 6) (target : State → Team → Option (Nat × Nat))
    (go : Team → Nat → BitVec 256 → Bool → Bool → Instr) (dest : Nat → Nat) : Host.Outcome State Fault Refusal :=
  let b := bankOf bg bk
  let pa := fun (p : Pc) => windowPa p.pc ((p.open? b).getD 0) b col.toNat
  chanWord s false (fun s t p _ => (s.moveBad t p b true).orElse fun _ => target s t) fun s t p g =>
    match s.chanJudge t .read (pa p) with
    | .error e => s.raiseChan t p g e.1 e.2
    | .ok r =>
      let data := BitVec.ofNat 256 (readNat s.mem (pa p) 32)
      let taint := r.1.taint || s.memTaint.contains (pa p / 32)
      let bad := s.poison.contains (pa p / 32) || (s.upset 0 (pa p / 32) 7).toNat % 4 = 2
      let cx := { s.cur with issued := t.clk, args := [t.cid] }
      let s' := (r.2.dramRead t (pa p / 32)).chanDone t (p.record t.clk .rd [b]) g 1
      let i := go t (pa p) data taint bad
      match s'.team (dest t.cid) with
      | none => s'
      | some u => s'.setTeam { u with pend := insertLand ⟨u.clk + 256, rankLand, { cx with cid := u.cid }, i⟩ u.pend }

/-- The landing target of an rd: a core of the launch, and a bank that its team has allotted (R270). -/
def State.rdTarget (s : State) (t : Team) (core granule : Nat) : Option (Nat × Nat) :=
  match s.team core with
  | none => some (3, 0)
  | some u => if u.launch = t.launch && u.banks.getLsbD (32 * granule / 131072) then none else some (3, 0)

/-- RD of kind 0 lands 256 beats after its issue beat (R270). -/
def execRd (bg bk : BitVec 2) (col : BitVec 6) (core : BitVec 11) (granule : BitVec 16) (s : State) :
    Host.Outcome State Fault Refusal :=
  readWord s bg bk col (fun s t => s.rdTarget t core.toNat granule.toNat)
    (fun _ _ data taint bad => .rdLanding s.cur.pc granule.toNat data taint bad) fun _ => core.toNat

/-- RD of kind 1 fills an L2 sector 256 beats after its issue beat (R270). -/
def execRdL2 (bg bk : BitVec 2) (col : BitVec 6) (alloc : Bool) (s : State) : Host.Outcome State Fault Refusal :=
  readWord s bg bk col (fun _ _ => none)
    (fun _ pa data taint bad => .rdL2Fill s.cur.pc pa data taint alloc bad) id

/-- WR sends its write slot's bytes to DRAM and invalidates the L2 sector; bytes that landed in the slot during the last 64
beats are late (R268, R272, R316). (Log: 80 DESIGN CHOICE.) -/
def execWr (bg bk : BitVec 2) (col : BitVec 6) (slot : BitVec 16) (s : State) : Host.Outcome State Fault Refusal :=
  let b := bankOf bg bk
  let n := slot.toNat
  chanWord s false (fun s t p _ => (s.moveBad t p b false).orElse fun _ =>
      if p.slotLand.any fun x => x.1 = n && t.clk ≤ x.2 + 63 && x.2 ≤ t.clk then some (2, 0) else none) fun s t p g =>
    let pa := windowPa p.pc ((p.open? b).getD 0) b col.toNat
    match s.chanJudge t .write pa with
    | .error e => s.raiseChan t p g e.1 e.2
    | .ok r =>
      let taint := p.slotTaint.contains n
      let en := r.1.enables pa 32 (allBits 32)
      let s1 : State := { r.2 with l2 := r.2.l2.filter fun x => x.sector != pa / 256 }
      let s2 := (s1.l2Write none pa 32 (readNat p.slots (32 * n) 32) en fun _ => taint).markTaint t.cid (taint && en != 0)
      s2.chanDone t (p.record t.clk .wr [b]) g 1

/-- RD_LANDING (R258, R270, R287, R349): the 32 bytes are written, or the landing team traps and none is. A conflict carries the
identity of the team that owns the grant (R357). R270 fixes its beat, so it is a timed landing: it meets TOUCH bits, and neither
sets nor meets FRESH bits. (Log: 65, 143 DEDUCED.) -/
def execRdLanding (_pc : Nat) (granule : Nat) (data : BitVec 256) (taint bad : Bool) (s : State) :
    Host.Outcome State Fault Refusal :=
  onTeam s fun t =>
    let a := 32 * granule
    let owner := s.cur.args.headD 0
    let cells := (bytesOf data.toNat 32).zipIdx.map fun x => (a + x.2, x.1, taint)
    let x : Sector := ⟨cells, s.cur.issued, owner, s.cur.id, .chn, 0, true, true, [], []⟩
    let trap := fun (k : Cause) (v : Word) => s.setTeam (t.pendTrap .chn 0 k v 0 t.clk)
    let lost := (s.upset owner s.cur.id 6).toNat
    if bad then (trap .ecc (BitVec.ofNat 64 a)).checkEvent ⟨3, s.cur.pc⟩ 0x21 (some t) 0 0
    else if lost % 2 ^ 16 = 1 then (trap .ecc (BitVec.ofNat 64 a)).checkEvent ⟨2, lost / 2 ^ 16⟩ 0x19 (some t) 0 0
    else match t.landTrap owner (cells.map fun c => c.1) with
      | some e => trap e.1 (e.2 ||| 1 <<< 43)
      | none =>
        let hit := t.landConflict x
        match (if t.ndet = 2 then hit else none) with
        | some z => trap .conflict (conflictTval 5 z)
        | none =>
          let u := t.putCells (cells.map fun c => (c.1, c.2.1, c.2.2 || hit.isSome))
          match hit with
          | some z => (s.setTeam u).noteConflictOf u owner .chn 5 z 0
          | none => s.setTeam u

/-- The sectors of the L2 with one 32-byte part filled (R270). (Log: 80 DESIGN CHOICE.) -/
def fillPart (l : List L2Sector) (pa : Nat) (data : BitVec 256) (taint : Bool) : List L2Sector :=
  let k := pa / 32 % 8
  let put := fun (x : L2Sector) =>
    let mask : BitVec 2048 := (BitVec.allOnes 256).setWidth 2048 <<< (256 * k)
    let bit : BitVec 8 := 1 <<< k
    ({ x with parts := x.parts ||| bit,
              data := (x.data &&& ~~~mask) ||| (data.setWidth 2048 <<< (256 * k)),
              taint := if taint then x.taint ||| bit else x.taint &&& ~~~bit } : L2Sector)
  l.map fun x => if x.sector = pa / 256 then put x else x

/-- The pseudo-channel of a window sector (R313). -/
def sectorPc (sector : Nat) : Nat := fld (256 * sector) 32 10

/-- The window sectors that a rim's L2 has room for: 16384 in each slice in service (R3). (Log: 144 DESIGN CHOICE.) -/
def State.l2Room (s : State) (d : Nat) : Nat :=
  16384 * ((List.range 32).filter fun i => !s.kensia.retired.contains ⟨1, 32 * d + i⟩).length

/-- The state with room in a rim's L2 for one more window sector: a full L2 gives up a sector, a free choice (R3).
(Log: 144 DESIGN CHOICE.) -/
def State.makeRoom (s : State) (d : Nat) : State :=
  let mine := s.l2.filter fun x => rimOf (sectorPc x.sector) = d
  if mine.length < s.l2Room d then s
  else match mine[Config.victim s.free % mine.length]? with
    | some v => { s with l2 := s.l2.filter fun x => x.sector != v.sector, free := s.free + 1 }
    | none => s

/-- RD_L2_FILL (R270): an allocated sector, or with action 1 one that the fill allocates, takes the part; other data are
discarded. (Log: 79 DEDUCED.) -/
def execRdL2Fill (_pc : Nat) (pa : Nat) (data : BitVec 256) (taint alloc bad : Bool) (s : State) :
    Host.Outcome State Fault Refusal :=
  onTeam s fun t =>
    if bad then
      (s.setTeam (t.pendTrap .chn 0 .ecc (BitVec.ofNat 64 pa) 0 t.clk)).checkEvent ⟨3, s.cur.pc⟩ 0x21 (some t) 0 0
    else
      let have_ := s.l2.any fun x => x.sector = pa / 256
      let s := if alloc && !have_ then
          let r := s.makeRoom (rimOf (sectorPc (pa / 256)))
          { r with l2 := r.l2 ++ [⟨pa / 256, 0, 0, 0⟩] }
        else s
      { s with l2 := fillPart s.l2 pa data taint }

/-! ## Refresh (R320 to R324) -/

/-- The first bank whose refresh count has fallen behind at this beat (R320, R322). -/
def State.overdueBank (s : State) (p : Pc) : Option Nat :=
  match p.prog with
  | none => none
  | some g => match s.team g.owner with
    | none => none
    | some t =>
      if !p.owned || p.t0 = 0 || t.clk < p.t0 || t.frozen then none
      else allBanks.find? fun b => p.refs.toList.getD b 0 + 8 < s.refreshesDue p.pc ((t.clk - p.t0) / 2)

/-- REFRESH_OVERDUE (R324): the trap is taken in the owning team; every bank is refreshed at once.
(Log: 84 DEDUCED.) -/
def execRefreshOverdue (s : State) : Host.Outcome State Fault Refusal :=
  match s.pc s.cur.pc with
  | none => .next s
  | some p => match p.prog, s.overdueBank p with
    | some g, some b => match s.team g.owner with
      | none => .next s
      | some t =>
        let pos := if g.lastAt = t.clk then g.lastPos else g.st.head
        .next (({ s with cur := { s.cur with pos := pos } } : State).raiseChan t p g .refreshOverdue
          (BitVec.ofNat 64 (pos % 2 ^ 32 * 2 ^ 32 + b * 2 ^ 16 + g.grant % 1024)))
    | _, _ => .next s

/-- An emergency freeze is requested at this beat (R450). -/
def State.askEmergency (s : State) (c : Emergency) : State :=
  { s with agenda := insertPend ⟨s.now, 0, Cur.none, .emergencyFreezeRequest c⟩ s.agenda }

/-- The whole beats of a stretch: the fewest that bring the projected mean power to the limit, and at most 2^20 (R449). -/
def stretchBeats (limit : Word) (free : Nat) : Nat :=
  ((List.range (2 ^ 20)).find? fun n => (Config.projectedPower free (n + 1)).toNat ≤ limit.toNat).elim (2 ^ 20) (· + 1)

/-- A stretch is requested; two requests merge into the longer (R449). -/
def State.askStretch (s : State) : State :=
  let n := stretchBeats s.kensia.pwrlim s.free
  let k := { s.kensia with stretchReq := some (match s.kensia.stretchReq with | some m => max m n | none => n) }
  { s with kensia := k, free := s.free + 1 }

/-- The hot debt of the pseudo-channel's banks is to rise (R321). (Log: 83 DEDUCED.) -/
def Pc.hotDue (p : Pc) : Bool := 0 < p.hotQ && hotRise p.pc ≤ p.hotQ

/-- HOT_DEBT_TICK (R321, R322): tREFI ticks of the program's schedule have been spent above 85 degrees, and the hot debt of every
bank of its pseudo-channel rises by 1; one of 8 requests an emergency freeze. (Log: 83 DEDUCED.) -/
def execHotDebtTick (s : State) : Host.Outcome State Fault Refusal :=
  match s.pc s.cur.pc with
  | none => .next s
  | some p =>
    if !p.hotDue then .next s
    else
      let debt := p.debt.map (· + 1)
      let s := s.setPc { p with debt := debt, hotQ := p.hotQ - hotRise p.pc }
      .next (if debt.toList.any fun x => 8 ≤ x then s.askEmergency .hotDebt else s)

/-- STACK_TEMP_CROSSING (R321, R450): the stack is at most 85 degrees (0), hotter (1), or over 105 (2). A crossing into heat
asks for a stretch; 105 degrees request an emergency freeze. -/
def execStackTempCrossing (stack : Nat) (level : Nat) (s : State) : Host.Outcome State Fault Refusal :=
  let was := ((s.temps.find? fun x => x.1 = stack).map fun x => x.2).getD 0
  let s : State := { s with temps := (s.temps.filter fun x => x.1 != stack) ++ [(stack, level)] }
  let s := if was = 0 && 0 < level then s.askStretch else s
  .next (if was < 2 && 2 ≤ level then s.askEmergency .hbmTemp else s)

/-! ## The demand sequencer (R271, R325) -/

/-- Ticks of a request's closed-page sequence under the fused table (R317, R325). -/
def serveTicks (rim : Nat) (k : DemandKind) : Nat :=
  let f := Config.fusedTiming rim
  let n := match k with | .scrub => 31 * f 8 | .read | .write | .refresh => 0
  let tail := match k with | .read | .refresh => f 11 | .write => f 9 | .scrub => f 8 + f 9
  match k with
  | .refresh => f 13
  | .read | .write | .scrub => max (f 3) (max (f 2) (f 0 + n + tail) + f 1)

/-- A sequence that begins at this beat ends in the demand sequencer's window: under a program, before its last pass tick,
and at any time while the program stands in a freeze; under the default program, always, once that has taken over. One
sequence ends before the next begins (R271, R291, R319, R325). (Log: 161 DEDUCED.) -/
def State.inWindow (s : State) (p : Pc) (ticks : Nat) : Bool :=
  p.busyTill ≤ s.now && match p.prog with
  | none => !p.anyOpen
  | some g => (!p.owned && !p.anyOpen) || (p.owned && match s.team g.owner with
    | none => true
    | some t => t.frozen || p.winEnd ≠ 0 && t.clk + 2 * ticks ≤ p.winEnd && g.lastAt ≤ t.clk)

/-- The commands of a program, and the extra refreshes between them, leave room for the first command of a sequence at this beat of
its clock, in banks that it has closed (R317, R325). -/
def Pc.settled (p : Pc) (clk : Nat) (r : DemandReq) : Bool :=
  !tooSoon p.pc clk 13 (p.last fun c => c.kind = CmdKind.extra.code) &&
  (if r.kind = .refresh then p.closed allBanks && (p.wholeFails clk .ref allBanks).isEmpty
   else p.closed [r.bank] && (p.actFails clk r.bank).isEmpty)

/-- The request at the head of the queue can be served at this beat; in a freeze the rim itself keeps the banks closed that it needs
(R291, R323, R325). (Log: 161 DEDUCED.) -/
def State.canServe (s : State) (p : Pc) : Bool :=
  match p.queue with
  | [] => false
  | r :: _ => s.inWindow p (serveTicks (rimOf p.pc) r.kind) && (!p.owned || match p.prog.bind fun g => s.team g.owner with
    | some t => t.frozen || p.settled t.clk r
    | none => true)

/-- An extra refresh for the hot debt can begin at this beat (R321). (Log: 83 DEDUCED.) -/
def State.canRefresh (s : State) (p : Pc) : Bool :=
  match p.prog with
  | none => false
  | some g => match s.team g.owner with
    | none => false
    | some t => p.owned && p.debt.toList.any (0 < ·) && p.closed allBanks && s.inWindow p (serveTicks (rimOf p.pc) .refresh) &&
      (p.wholeFails t.clk .ref allBanks).isEmpty && !t.frozen &&
      !tooSoon p.pc t.clk 13 (p.last fun c => c.kind = CmdKind.extra.code)

/-- The banks that a program which has ended leaves open are closed, and the default program takes over (R319).
(Log: 85 DEDUCED.) -/
def State.canClose (s : State) (p : Pc) : Bool := !p.owned && p.anyOpen && p.busyTill ≤ s.now

/-- DEMAND_REQUEST joins the queue of one of the 768 pseudo-channels in order of arrival (R325). (Log: 82 DEDUCED.) -/
def execDemandRequest (pc : Nat) (k : DemandKind) (bank row : Nat) (s : State) : Host.Outcome State Fault Refusal :=
  let join := fun (p : Pc) => ({ p with queue := p.queue ++ [⟨k, bank % 16, row, 0, 0⟩] } : Pc)
  match s.pc pc with
  | none => .next (if pc < 768 then { s with pcs := s.pcs ++ [join (blankPc pc)] } else s)
  | some p => .next (s.setPc (join p))

/-- A refresh by the demand sequencer: the hot debt of every bank falls by 1 (R321). -/
def Pc.extraRef (p : Pc) (clk : Nat) : Pc := { p.record clk .extra [0] with debt := p.debt.map (· - 1) }

/-- The clock of a pseudo-channel's program. -/
def State.pcClock (s : State) (p : Pc) : Nat :=
  match p.prog.bind fun g => s.team g.owner with
  | some t => t.clk
  | none => s.now

/-- The state with a copy's chunk performing now whose last request has been served; a word that waits finds that out itself when
it is tried next (R316, R325). -/
def State.servedWord (s : State) (cid id : Nat) : State :=
  match s.team cid with
  | none => s
  | some t =>
    let mine := fun (p : Pend) => p.cx.id = id && p.act = .copyChunk
    if s.unserved cid id then s
    else match takeFirst mine t.waiting with
      | none => s
      | some (p, l) =>
        let u : Team := { t with waiting := l }
        s.setTeam (u.later p.cx.col ⟨u.clock p.cx.col, rankOf p.cx.col, p.cx, p.act⟩)

/-- DEMAND_SERVE (R325, R439): the oldest request is served if its sequence fits, which takes the sequencer until it ends; the word
that made it then performs, and a scrub's row is read. (Log: 82 DEDUCED.) -/
def execDemandServe (s : State) : Host.Outcome State Fault Refusal :=
  match s.pc s.cur.pc with
  | none => .next s
  | some p => match p.queue with
    | [] => .next s
    | r :: l =>
      if !s.canServe p then .next s
      else
        let p' := { p with queue := l, busyTill := s.now + 2 * serveTicks (rimOf p.pc) r.kind }
        match r.kind with
        | .read | .write => .next ((s.setPc p').servedWord r.cid r.id)
        | .refresh => .next (s.setPc (p'.extraRef (s.pcClock p)))
        | .scrub => .next ((s.setPc p').plan s.now 0 [] (.scrubRow p.pc r.bank r.row))

/-- DEMAND_REFRESH (R319, R321, R323): under the default program, and while the program's schedule stands still, the rim
refreshes every bank and owes nothing; in a pass window an extra refresh pays one of the hot debt. Open rows keep their
contents and are open again before the program goes on; those that an ended program left open are closed.
(Log: 83 DEDUCED.) -/
def execDemandRefresh (s : State) : Host.Outcome State Fault Refusal :=
  match s.pc s.cur.pc with
  | none => .next s
  | some p =>
    if p.owned && s.canRefresh p then
      .next (s.setPc { p.extraRef (s.pcClock p) with busyTill := s.now + 2 * serveTicks (rimOf p.pc) .refresh })
    else if p.owned then .next s
    else .next (s.setPc { p with debt := Vector.replicate 16 0,
                                 banks := if s.canClose p then Vector.replicate 16 none else p.banks })

/-! ## Scrubs (R438, R439) -/

/-- A scrub of one unit: a corrected value is written back, an uncorrectable unit is poisoned, and each is a check event
(R433, R438, R439). -/
def State.scrubUnit (s : State) (place : Nat) (u : UnitId) (kind unit : Nat) : State :=
  match (s.upset 0 unit place).toNat % 4 with
  | 1 => (s.cured place unit).checkEvent u kind none 0 0
  | 2 => ({ s.cured place unit with poison := setUnit s.poison unit true } : State).checkEvent u (kind + 1) none 0 0
  | _ => s

/-- The 32-byte units of a bank's row: a window row or a striped one (R313, R315). -/
def State.rowUnits (s : State) (pc bank row : Nat) : List Nat :=
  if row < s.wrows then (List.range 32).map fun c => windowPa pc row bank c / 32
  else
    let l := s.kensia.rimMap
    let hi := (row - s.wrows) / 4
    let lo := foldPc (hi * 128)
    let f := (hi * 128 + Nat.xor lo (pc % 128)) * l.length + l.idxOf (pc / 128)
    (List.range 32).map fun c => (f * 65536 + (row - s.wrows) % 4 * 16384 + bank * 1024 + 32 * c) / 32

/-- SCRUB_ROW (R439): every column of a row is read and corrected values are written back. -/
def execScrubRow (pc bank row : Nat) (s : State) : Host.Outcome State Fault Refusal :=
  .next ((s.rowUnits pc bank row).foldl (fun s u => s.scrubUnit 7 ⟨3, pc⟩ 0x22 u) s)

/-- L2_SCRUB (R439): the ailing sectors of the L2 are corrected, or poisoned; the slice stands in the upset's upper
bits. -/
def execL2Scrub (s : State) : Host.Outcome State Fault Refusal :=
  .next ((s.upsets.filter fun u => u.place = 8).foldl (fun s u => s.scrubUnit 8 ⟨1, u.x.toNat / 4⟩ 0x10 u.id) s)

end Sys2Proof.Machine
end

