-- ==== Sys2Proof/Machine/Launch.lean ====
section
/-! DEFINITION. Launches: reading and checking a packet (R273 to R278), acceptance (R145, R342, R343, R362), completion
(R360, R361), cancellation (R369), and ctl's words for them (R145 to R147). -/

namespace Sys2Proof.Machine

/-! ## Memory by virtual address, for the device itself -/

/-- A translation to device memory, or failing that to memory beyond the package (R412). -/
def State.anyTranslate (s : State) (job : Nat) (rd wr : Bool) (va n : Nat) : Except Trap (List Piece) :=
  match s.translate ⟨job, rd, wr, false⟩ va n with
  | .ok l => .ok l
  | .error e => match s.translate ⟨job, rd, wr, true⟩ va n with
    | .ok l => .ok l
    | .error _ => .error e

/-- The bytes of a translated piece. -/
def State.pieceBytes (s : State) (p : Piece) : List Byte :=
  bytesOf (if p.leaf.tgt = 0 then s.l2Read p.leaf.key p.leaf.pa p.n else s.beyondRead p.leaf.tgt p.leaf.pa p.n) p.n

/-- n bytes at a virtual address of a job. -/
def State.vread (s : State) (job va n : Nat) : Except Trap (List Byte) :=
  match s.anyTranslate job true false va n with
  | .error e => .error e
  | .ok l => match s.eccAt l with
    | some e => .error e
    | none => .ok ((cutAll l).flatMap s.pieceBytes)

/-- A translated piece written with untainted bytes. -/
def State.putPiece (s : State) (p : Piece) (x : List Byte) : State :=
  if p.leaf.tgt = 0 then s.l2Write p.leaf.key p.leaf.pa p.n (natOfBytes x) (allBits p.n) fun _ => false
  else s.beyondWrite p.leaf.tgt p.leaf.pa p.n (natOfBytes x) (allBits p.n)

/-- Pieces written in order from one list of bytes. -/
def State.putPieces (s : State) (x : List Byte) : List Piece → State
  | [] => s
  | p :: l => (s.putPiece p (x.take p.n)).putPieces (x.drop p.n) l

/-- Bytes written at a virtual address of a job. -/
def State.vwrite (s : State) (job va : Nat) (x : List Byte) : Except Trap State :=
  match s.anyTranslate job false true va x.length with
  | .error e => .error e
  | .ok l => .ok (s.putPieces x (cutAll l))

/-- n dwords at a virtual address of a job. -/
def State.vdwords (s : State) (job va n : Nat) : Except Trap (List Word) :=
  match s.vread job va (8 * n) with
  | .error e => .error e
  | .ok l => .ok (dwordsOf n l)

/-- A list cut into rows of k; the first number bounds them. -/
def rowsBy (k : Nat) : Nat → List Word → List (List Word)
  | 0, _ => []
  | n + 1, l => l.take k :: rowsBy k n (l.drop k)

/-! ## The packet (R273, R274) -/

/-- Bits of the packet's dword at a byte offset. -/
def pf (p : List Word) (off lo n : Nat) : Nat := fld (p.getD (off / 8) 0).toNat lo n

/-- The bits of each packet dword that a field uses (R273, R274). -/
def packetMasks : List Nat :=
  let va := 2 ^ 55 - 1
  let col := 2 ^ 26 - 1 + (2 ^ 25 - 1) * 2 ^ 32
  let two := 2 ^ 21 - 1 + (2 ^ 21 - 1) * 2 ^ 32
  [2 ^ 23 - 1, 2 ^ 59 - 1, va, col, va, col, va, col, va, col, va, col, 2 ^ 46 - 1, two, two, va] ++
  [va, 2 ^ 10 - 1, va, 2 ^ 32 - 1, va, 2 ^ 32 - 1, va, 2 ^ 32 - 1, va, 2 ^ 32 - 1, va, 2 ^ 32 - 1, va, va, 31, 0]

/-- The patch extents px, py and pz (R273). -/
def packetExt (p : List Word) : Nat × Nat × Nat := (pf p 8 0 16, pf p 8 16 16, pf p 8 32 16)

/-- The packet's extents hold no team (R278, R368). -/
def emptyPatch (p : List Word) : Bool := (packetExt p).1 = 0 || (packetExt p).2.1 = 0 || (packetExt p).2.2 = 0

/-- A column entry (R274): image, base, log2 of the ring size, image length. -/
structure ColEntry where
  off : Nat
  image : Nat
  base : Nat
  size : Nat
  len : Nat
  deriving DecidableEq, Repr

/-- The column entry of column code c (R274). -/
def colEntry (p : List Word) (c : Nat) : ColEntry :=
  let o := 0x10 + 16 * c
  ⟨o, pf p o 0 55, pf p (o + 8) 0 21, pf p (o + 8) 21 5, pf p (o + 8) 32 25⟩

/-- The tables that a packet points to, and the packet field of one that cannot be read (R275 to R277, R281). -/
structure Tables where
  grants : List (List Word)
  sync : List Word
  bankimg : List (List Word)
  unread : Option Nat
  deriving DecidableEq, Repr

/-- The tables of a packet as memory holds them. (Log: 87 DEDUCED.) -/
def State.readTables (s : State) (job : Nat) (p : List Word) : Tables :=
  let rd := fun (va n : Nat) => if n = 0 then Except.ok [] else s.vdwords job va n
  let ng := min (pf p 0x88 0 10) 768
  let nb := min (pf p 0xF0 0 5) 16
  let g := rd (pf p 0x80 0 55) (4 * ng)
  let y := rd (pf p 0xE0 0 55) (if pf p 0xE0 0 55 = 0 then 0 else 40)
  let b := rd (pf p 0xE8 0 55) (2 * nb)
  let get := fun (x : Except Trap (List Word)) => match x with
    | .ok l => l
    | .error _ => []
  let bad := fun (x : Except Trap (List Word)) => match x with
    | .ok _ => false
    | .error _ => true
  { grants := rowsBy 4 (get g).length (get g) |>.filter (·.length = 4)
    sync := get y
    bankimg := rowsBy 2 (get b).length (get b) |>.filter (·.length = 2)
    unread := if bad g then some 0x80 else if bad y then some 0xE0 else if bad b then some 0xE8 else none }

/-- The first failing offset of a list of checks in ascending order. -/
def firstOff (l : List (Nat × Bool)) : Option Nat := (l.find? fun x => x.2).map fun x => x.1

/-- The checks that dwords have no reserved bit set. -/
def reservedChecks (off : Nat) (l : List Word) (masks : List Nat) : List (Nat × Bool) :=
  l.zipIdx.map fun x => (off + 8 * x.2, x.1.toNat != Nat.land x.1.toNat (masks.getD (x.2 % masks.length) 0))

/-- R278, first check: reserved bits and major. -/
def reservedOff (p : List Word) (t : Tables) : Option Nat :=
  let va := 2 ^ 55 - 1
  firstOff ([(0, pf p 0 0 8 != 1)] ++ reservedChecks 0 p packetMasks ++
    reservedChecks 0x1000 t.grants.flatten [0x103FF, va, 0x1FFF, 2 ^ 48 - 1] ++
    reservedChecks 0x2000 (t.sync.take 32) [2 ^ 54 - 1] ++ reservedChecks 0x2100 (t.sync.drop 32) [0xFFFF0003] ++
    reservedChecks 0x3000 t.bankimg.flatten [va, 0xF + (2 ^ 18 - 1) * 2 ^ 32])

/-- The fields of an allotted bank mask. -/
def packetBanks (p : List Word) : BitVec 16 := BitVec.ofNat 16 (pf p 0x60 0 16)

/-- The number of bits set in a mask of n bits. -/
def countBits (x n : Nat) : Nat := ((List.range n).filter fun i => x.testBit i).length

/-- Word 0 of a channel program is a hoop (R276); one that cannot be read is found at set-up (R281). -/
def State.firstHoop (s : State) (job va : Nat) : Bool :=
  match s.vdwords job va 1 with
  | .error _ => true
  | .ok l => match decode .chn (l.headD 0).toNat with
    | .ok k => match k.instr with
      | .hoop .. => true
      | _ => false
    | .error _ => false

/-- The grant checks of R276 for entry n: its channel in a window of the job, once in the launch; its image, its length and
first word; its owner. (Log: 98 DEDUCED.) -/
def State.grantChecks (s : State) (job : Nat) (p : List Word) (before : List (List Word)) (n : Nat) (g : List Word) :
    List (Nat × Bool) :=
  let w := fun (i : Nat) => (g.getD i 0).toNat
  let ch := fld (w 0) 0 10
  let owned := s.pcs.any fun q => q.pc = ch && q.winown.getLsbD 0 && decide (q.winown.toNat / 2 ^ 32 = job)
  let e := packetExt p
  let o := 0x1000 + 32 * n
  [(o, 768 ≤ ch || !owned || before.any fun b => fld (b.getD 0 0).toNat 0 10 = ch), (o + 8, fld (w 1) 0 55 % 8 ≠ 0),
   (o + 16, fld (w 2) 0 13 = 0 || 4096 < fld (w 2) 0 13 || !s.firstHoop job (fld (w 1) 0 55)),
   (o + 24, e.1 ≤ fld (w 3) 0 16 || e.2.1 ≤ fld (w 3) 16 16 || e.2.2 ≤ fld (w 3) 32 16)]

/-- R278, second check: a field outside its valid values. -/
def State.valueOff (s : State) (job : Nat) (p : List Word) (t : Tables) : Option Nat :=
  let e := packetExt p
  let org := (pf p 8 48 4, pf p 8 52 4, pf p 8 56 3)
  let cols : List (Nat × Bool) := (List.range 5).flatMap fun c =>
    let x := colEntry p c
    if x.len = 0 then []
    else [(x.off, x.image % 8 ≠ 0),
          (x.off + 8, x.size < 3 || 16 < x.size || x.base % (8 * 2 ^ x.size) ≠ 0 || 2 ^ x.size < x.len)]
  let al := fun (off n : Nat) => (off, decide (pf p off 0 55 % n ≠ 0))
  let version := fld (s.vers[1]).toNat 16 8 < pf p 0 8 8
  let head : List (Nat × Bool) :=
    [(0, version || pf p 0 19 2 = 3),
     (8, 16 < e.1 || 16 < e.2.1 || 5 < e.2.2 || 16 < org.1 + e.1 || 16 < org.2.1 + e.2.1 || 5 < org.2.2 + e.2.2 ||
         (pf p 0 22 1 = 1 && org ≠ (0, 0, 0)))]
  let rest : List (Nat × Bool) :=
    [(0x60, countBits (pf p 0x60 0 16) 16 < 4),
     (0x68, pf p 0x68 0 21 % 8 ≠ 0 || pf p 0x68 32 21 % 8 ≠ 0 || pf p 0x68 32 21 ≤ pf p 0x68 0 21),
     (0x70, pf p 0x70 0 21 % 256 ≠ 0 || pf p 0x70 32 21 < 0x4000), al 0x78 8, al 0x80 32, (0x88, 768 < pf p 0x88 0 10),
     al 0x90 8, al 0xA0 8, al 0xB0 8, al 0xC0 8, al 0xD0 8, al 0xE0 64, al 0xE8 16, (0xF0, 16 < pf p 0xF0 0 5)]
  let grants := t.grants.zipIdx.flatMap fun x => s.grantChecks job p (t.grants.take x.2) x.2 x.1
  let bars : List (Nat × Bool) := (t.sync.drop 32).zipIdx.map fun x =>
    (0x2100 + 8 * x.2, x.1.getLsbD 0 && fld x.1.toNat 16 16 = 0)
  let imgs : List (Nat × Bool) := t.bankimg.zipIdx.map fun x =>
    let w := (x.1.getD 1 0).toNat
    let n := fld w 32 18
    (0x3000 + 16 * x.2 + 8, !(packetBanks p).getLsbD (fld w 0 4) || n % 8 ≠ 0 || n < 8 || 131072 < n)
  firstOff (head ++ cols ++ rest ++ grants ++ bars ++ imgs)

/-- The regions that must not overlap, with the field that places each, in the order of the fields (R278). -/
def packetRegions (p : List Word) : List (Nat × Nat × Nat) :=
  let rings := (List.range 5).filterMap fun c =>
    let x := colEntry p c
    if x.len = 0 then none else some (x.base, 8 * 2 ^ x.size, x.off + 8)
  rings ++ [(pf p 0x68 0 21, pf p 0x68 32 21 - pf p 0x68 0 21, 0x68), (pf p 0x70 0 21, pf p 0x70 32 21, 0x70)]

/-- A region lies within the allotted banks. -/
def inBanks (banks : BitVec 16) (a n : Nat) : Bool :=
  a + n ≤ 2 ^ 21 && (List.range ((a + n - 1) / 131072 + 1 - a / 131072)).all fun i => banks.getLsbD (a / 131072 + i)

/-- R278, third check: overlaps and the allotted banks. -/
def overlapOff (p : List Word) : Option Nat :=
  let l := packetRegions p
  firstOff (l.zipIdx.map fun x =>
    (x.1.2.2, !inBanks (packetBanks p) x.1.1 x.1.2.1 ||
      (l.take x.2).any fun y => x.1.1 < y.1 + y.2.1 && y.1 < x.1.1 + x.1.2.1))

/-- R278, last check: a package-scope barrier with other parts than a live launch of the job gives it. -/
def State.packageOff (s : State) (job : Nat) (t : Tables) : Option Nat :=
  firstOff ((t.sync.drop 32).zipIdx.map fun x =>
    let parts := fun (w : Word) => fld w.toNat 16 16
    (0x2100 + 8 * x.2, x.1.getLsbD 0 && x.1.getLsbD 1 && s.launches.any fun l =>
      let w := l.sync.getD (32 + x.2) 0
      l.job = job && l.state != .done && w.getLsbD 0 && w.getLsbD 1 && parts w != parts x.1))

/-- THE CHECKS OF A PACKET (R278), in order: the offset of the first failure. `svc` is whether its source may set svc.
(Log: 98 DEDUCED.) -/
def State.packetOff (s : State) (job : Nat) (svc : Bool) (p : List Word) (t : Tables) : Option Nat :=
  let e := packetExt p
  let last := fun (_ : Unit) => s.packageOff job t
  if emptyPatch p then (reservedOff p t).orElse last
  else
    let base := pf p 0x60 40 5
    let inbox := pf p 0x60 45 1 = 1 && (24 < base + 8 || pf p 0x60 16 24 / 2 ^ base % 256 ≠ 255)
    let grants := firstOff [(0, pf p 0x88 0 10 ≠ 0 && pf p 0 18 1 = 0)]
    let levels := firstOff (t.grants.zipIdx.map fun x => (0x1000 + 32 * x.2, fld (x.1.getD 0 0).toNat 16 1 = 1 && !svc))
    let bars := firstOff ((t.sync.drop 32).zipIdx.map fun x =>
      (0x2100 + 8 * x.2, x.1.getLsbD 0 && !x.1.getLsbD 1 &&
        5 * e.1 * e.2.1 * e.2.2 + pf p 0x88 0 10 < fld x.1.toNat 16 16))
    [reservedOff p t, s.valueOff job p t, overlapOff p, firstOff [(0x60, inbox)], grants, levels, bars, last ()].findSome? id

/-! ## Acceptance (R145, R343, R362, R364) -/

/-- DETMODE of a packet (R273). -/
def packetDet (p : List Word) : Nat := pf p 0 19 2

/-- A launch is on the scoreboard (R364). -/
def State.boardFull (s : State) : Bool := 128 ≤ s.launches.length

/-- The state with a job known to it (R342). -/
def State.withJob (s : State) (job : Nat) : State :=
  if (s.job job).isSome then s
  else { s with jobs := s.jobs ++ [⟨job, 0, 1, Vector.replicate 8 BarCount.zero, 1, 0, 0, [], false⟩] }

/-- A job replaced. -/
def State.modJob (s : State) (job : Nat) (f : Job → Job) : State :=
  { s with jobs := s.jobs.map fun j => if j.job = job then f j else j }

/-- A launch replaced. -/
def State.modLaunch (s : State) (h : Nat) (f : Launch → Launch) : State :=
  { s with launches := s.launches.map fun l => if l.handle = h then f l else l }

/-- The mailbox snapshot of a launch, or the packet field that cannot be read (R73, R273). -/
def State.mailbox (s : State) (job : Nat) (p : List Word) : List Word × Option Nat :=
  if pf p 0x78 0 55 = 0 then
    match s.slotOf job with
    | some n => (s.mbx[n].toList, none)
    | none => (List.replicate 16 0, none)
  else match s.vdwords job (pf p 0x78 0 55) 16 with
    | .ok l => (l, none)
    | .error _ => ([], some 0x78)

/-- ACCEPTANCE: the packet is checked, a second source within a watched phase is refused, and the launch takes its ordinal,
its graph and a scoreboard entry; its dependences are looked at on this beat (R278, R343, R362, R364).
(Log: 88 DEDUCED.) -/
def State.accept (s : State) (job source : Nat) (queue : Option Nat) (tag : Nat) (svc : Bool) (graph : Nat)
    (p : List Word) : Except Nat (State × Launch) :=
  let t := s.readTables job p
  let s := s.withJob job
  match s.packetOff job svc p t, s.job job with
  | some off, _ => .error off
  | none, none => .error 0
  | none, some j =>
    let watched := packetDet p = 1 || packetDet p = 2
    if (j.watched || watched) && j.sources.any (· != source) then .error 0
    else
      let m := s.mailbox job p
      let bars := Vector.ofFn fun (b : Fin 8) =>
        let w := t.sync.getD (32 + b.val) 0
        if w.getLsbD 0 && !w.getLsbD 1 then { BarCount.zero with parts := fld w.toNat 16 16 } else BarCount.zero
      let l : Launch :=
        { handle := s.nextHandle, job := job, ord := j.nextOrd, phase := j.phase, graph := graph, order := s.nextOrder,
          state := .waiting, source := source, queue := queue, tag := tag, pkt := p, grants := t.grants, sync := t.sync,
          bankimg := t.bankimg, mbx := m.1, unread := m.2.orElse fun _ => t.unread, cids := [],
          pcs := t.grants.map fun g => fld (g.getD 0 0).toNat 0 10, bars := bars, taint := false, conflicts := 0,
          status := 0, offset := 0, cut := none, drain := none, image := none, savedTeams := [], savedPcs := [],
          savedBeat := 0 }
      let j' := fun (x : Job) =>
        ({ x with nextOrd := x.nextOrd + 1, sources := if x.sources.contains source then x.sources else source :: x.sources, watched := x.watched || watched } : Job)
      let s := s.modJob job j'
      let s : State := { s with launches := s.launches ++ [l], nextHandle := s.nextHandle + 1, nextOrder := s.nextOrder + 1,
                                graphs := s.graphs.map fun g =>
                                  if g.id = graph && g.job = job then { g with launches := g.launches + 1 } else g }
      .ok (s.plan s.now 0 [] .dependencePoll, l)

/-- LAUNCHID of a launch (R82). -/
def Launch.id64 (l : Launch) : Word := BitVec.ofNat 64 (l.ord % 2 ^ 32 + l.job * 2 ^ 32)

/-! ## Completion (R360, R361) -/

/-- The queue that takes a launch's completion record: the one that submitted it, or for a ctl launch the first queue in
service for the job (R361). (Log: 89 DEDUCED.) -/
def State.recordQueue (s : State) (l : Launch) : Option (Fin 64) :=
  (List.finRange 64).find? fun q => match l.queue with
    | some n => q.val = n
    | none => s.queues[q].qctl.getLsbD 0 && decide (s.queues[q].qctl.toNat / 2 ^ 32 = l.job)

/-- A queue replaced. -/
def State.setQueue (s : State) (q : Fin 64) (x : HQueue) : State := { s with queues := s.queues.set q x }

/-- A record put on a queue for the event queue; h is the launch that its scoreboard entry waits for (R413). -/
def State.pushRecord (s : State) (q : Fin 64) (h : Nat) (r : List Word) : State :=
  s.setQueue q { s.queues[q] with pendRecs := s.queues[q].pendRecs ++ [(h, r)] }

/-- A completion record (R361). -/
def recordWords (handle : Word) (status : Nat) (taint : Bool) (tag conflicts graph offset count : Nat) : List Word :=
  [handle, BitVec.ofNat 64 (status % 256 + (if taint then 256 else 0) + tag % 2 ^ 16 * 2 ^ 16 + min conflicts (2 ^ 32 - 1) * 2 ^ 32),
   BitVec.ofNat 64 (graph % 2 ^ 32 + offset % 2 ^ 32 * 2 ^ 32), BitVec.ofNat 64 count]

/-- The done add: one atomic add of 1 at the L2 or through the I/O die; none on a fault (R360). -/
def State.doneAdd (s : State) (l : Launch) : Option (Nat × State) :=
  match s.anyTranslate l.job true true (pf l.pkt 0x90 0 55) 8 with
  | .error _ => none
  | .ok ps =>
    let n := (natOfBytes (ps.flatMap s.pieceBytes) + 1) % 2 ^ 64
    some (n, s.putPieces (bytesOf n 8) ps)

/-- A pseudo-channel that a launch no longer holds, at a beat of the wall clock and of the program's: the default program runs, once
the rim has closed the banks of a program that ends here (R319). -/
def Pc.release (p : Pc) (h now clk : Nat) : Pc :=
  match p.prog with
  | some g => if g.launch = h then
      { (if p.owned then p.ending now clk else p) with
        prog := none, hist := [], slots := [], slotTaint := [], slotLand := [],
        t0 := 0, winEnd := 0, debt := Vector.replicate 16 0, hotQ := 0 } else p
  | none => p

/-- Retire every marked unit whose cores have become free (R436). -/
def State.retireFree (s : State) : State :=
  s.kensia.marks.foldl (fun s m =>
    if s.coresFree (s.concerned m.1) && !(s.agenda.any fun p => p.act = .unitRetirement m.1) then
      s.plan s.now 0 [] (.unitRetirement m.1)
    else s) s

/-- The launch record of the trace: sub 0 at gang start and 1 at completion, on the launch's first die (R425). -/
def State.traceLaunch (s : State) (l : Launch) (sub status : Nat) : State :=
  s.traceAt l.job (dieOf (l.cids.headD 0)) none 4 sub 7 0 l.id64.toNat status 0

/-- The records of the freezes in which a launch ends: one for each die on which no other frozen team of its job is left
(R425, R427). -/
def State.closeFreezes (s : State) (l : Launch) : State :=
  let mine := s.teams.filter fun t => t.launch = l.handle
  (distinct (mine.map fun t => dieOf t.cid)).foldl (fun (s : State) z =>
    let here := mine.filter fun t => dieOf t.cid = z
    let rest := s.teams.filter fun t => t.launch ≠ l.handle && t.job = l.job && dieOf t.cid = z
    let beat := (s.die z).beat.toNat
    let s := match here.find? (·.frozen) with
      | some t => if rest.any (·.frozen) then s else s.traceAt l.job z none 1 t.frozenWhy 7 0 beat t.frozenNs s.ns
      | none => s
    if s.halted && rest.isEmpty then s.traceAt l.job z none 1 3 7 0 beat s.kensia.emergencyNs s.ns else s) s

/-- The debug stops of a launch that has ended are over (R431). -/
def State.endStops (s : State) (h : Nat) : State :=
  { s with dstop := s.dstop.map fun d => if d.launch = some h then ⟨d.ctl &&& 0xFFFFFFFF, none⟩ else d }

/-- A LAUNCH COMPLETES with a status (R360, R361): its accesses are released, done is increased, the graph, phase and job
count it, its cores and grants are free, and its record goes to the event queue if R361 asks for one.
(Log: 90 DEDUCED.) -/
def State.completeLaunch (s : State) (h status : Nat) : State :=
  match s.launch h with
  | none => s
  | some l =>
    if l.state = .done then s
    else
      let s := (s.teams.filter fun t => t.launch = h).foldl (fun s t => s.cleanCache t.cid) s
      let add := s.doneAdd l
      let s := match add with
        | some x => x.2
        | none => s
      let status := if add.isNone then 6 else status
      let count := match add with
        | some x => x.1
        | none => 0
      let s := ((s.closeFreezes l).traceLaunch l 1 status).endStops h
      let s := s.modJob l.job fun j =>
        { j with completed := j.completed + 1, phaseDone := j.phaseDone + 1 }
      let s : State := { s with teams := s.teams.filter fun t => t.launch != h, pcs := s.pcs.map fun p => p.release h s.now (s.pcClock p),
                                graphs := s.graphs.map fun g =>
                                  if g.id = l.graph && g.job = l.job then { g with completed := g.completed + 1 } else g }
      let taint := (s.launch h).any (·.taint)
      let tell := status ≠ 0 || taint || l.conflicts ≠ 0 || (add.isSome && count = pf l.pkt 0x98 0 32)
      let drop : State := { s with launches := s.launches.filter fun x => x.handle != h }
      let s := match (if tell then s.recordQueue l else none) with
        | some q =>
          let r := recordWords l.id64 status taint l.tag l.conflicts l.graph (if status = 2 || status = 3 then l.offset else 0) count
          (s.modLaunch h fun x => { x with state := .done, status := status, savedTeams := [], savedPcs := [], image := none }).pushRecord q h r
        | none => drop
      s.retireFree.plan s.now 0 [] .dependencePoll

/-! ## Cancellation (R369) -/

/-- A cancel accepted on this beat, applied to one launch with a status (R369): it leaves the scoreboard at once, when its
set-up stops, or at the cut 512 beats later. -/
def State.cancelLaunch (s : State) (h status : Nat) : State :=
  match s.launch h with
  | none => s
  | some l => match l.state with
    | .done => s
    | .waiting | .ready | .saved => s.completeLaunch h status
    | .setup => (s.modLaunch h fun x => { x with status := status, cut := some s.now }).plan s.now 0 [h] .cancelCut
    | .running | .draining =>
      if l.cut.isSome then s
      else (s.modLaunch h fun x => { x with status := status, cut := some (s.now + 512) }).plan (s.now + 512) 0 [h] .cancelCut

/-- The launch of a job that a handle names: of two with its ordinal, the one accepted later; one that has completed names no
unit any more, of any level (R146, R369). (Log: 146 DEDUCED.) -/
def State.named (s : State) (job : Nat) (handle : Word) : Option Launch :=
  if handle.toNat / 2 ^ 32 ≠ job then none
  else (s.launches.filter fun l => l.job = job && l.ord % 2 ^ 32 = handle.toNat % 2 ^ 32 && l.state != .done).getLast?

/-- Stop the queues of a job that a job cancel names, or the queue that opened the graph which a graph cancel names, in service or
not, and close the graph (R369, R412). -/
def State.stopQueues (s : State) (job : Nat) (graph : Option Nat) : State :=
  (List.finRange 64).foldl (fun s q =>
    let x := s.queues[q]
    let hit := match graph with
      | none => decide (x.qctl.toNat / 2 ^ 32 = job)
      | some g => s.graphs.any fun y => y.id = g && y.job = job && y.queue = q.val
    if hit then s.setQueue q { x with qctl := x.qctl ||| 4, openGraph := none } else s)
    { s with graphs := s.graphs.map fun g =>
        if g.job = job && (graph.isNone || graph = some g.id) then { g with closed := true } else g }

/-- A cancel of the unit of a level that a handle names: a launch, its graph, its phase, or the job (R146, R369). A handle
that names no live unit has no effect. -/
def State.cancelUnit (s : State) (job level : Nat) (handle : Word) : State :=
  let live := s.launches.filter fun l => l.job = job && l.state != .done
  let all := fun (f : Launch → Bool) (s : State) => (live.filter f).foldl (fun s l => s.cancelLaunch l.handle 1) s
  if level = 3 then
    if handle.toNat / 2 ^ 32 ≠ job then s else all (fun _ => true) (s.stopQueues job none)
  else match s.named job handle with
    | none => s
    | some x => match level with
      | 0 => s.cancelLaunch x.handle 1
      | 1 => all (fun l => l.graph = x.graph) (s.stopQueues job (some x.graph))
      | _ => all (fun l => l.phase = x.phase) s

/-! ## ctl's words (R145 to R147) -/

/-- The dwords of the packet that a launch word names, released accesses and all (R145): scratchpad or global memory.
(Log: 157 DEDUCED.) -/
def State.packetAt (s : State) (t : Team) (spc : Space) (va : Nat) : Except Trap (List Word) :=
  if va % 256 ≠ 0 then .error (.misalign, BitVec.ofNat 64 va)
  else if spc = .sp then
    match t.spBad va 256 with
    | some x => .error (.bounds, BitVec.ofNat 64 x)
    | none => .ok (dwordsOf 32 (readBytes (t.view 0).spad va 256))
  else s.vdwords t.job va 32

/-- The graph of a team's launch, which takes the launches that the team submits (R362). -/
def State.graphOf (s : State) (t : Team) : Nat :=
  match s.launch t.launch with
  | some l => l.graph
  | none => 0

/-- The source that the ctl of a team is: the core and the launch, above the numbers of the queues (R343). -/
def ctlSource (t : Team) : Nat := 64 + t.cid + 2048 * t.launch

/-- A launch word's outcome: the state with the launch accepted and its handle, or the trap (R145). -/
def State.launchBy (s : State) (t : Team) (spc : Space) (va : Nat) : Except Trap (State × Word) :=
  match s.packetAt t spc va with
  | .error e => .error e
  | .ok p => match s.accept t.job (ctlSource t) none 0 t.svc (s.graphOf t) p with
    | .error off => .error (.bounds, BitVec.ofNat 64 off)
    | .ok r => .ok (r.1, r.2.id64)

/-- LAUNCH waits until ctl's earlier accesses have performed, checks the packet, and returns the handle (R145, R333); with an
aligned packet ctl stalls while the scoreboard is full, and a packet in the window of a running program is asked of the demand
sequencer first (R325). -/
def execLaunch (d : SReg) (spc : Space) (a : SReg) (s : State) : Host.Outcome State Fault Refusal :=
  runWord s (fun s t =>
    let va := (t.getS a).v.toNat
    let pas := if va % 256 = 0 then s.reachedBy t spc true false ⟨va, va, 256, 0, 2048⟩ else []
    { regs := [.s d, .s a], reject := true,
      stall := (s.boardFull || t.accessBefore .ctl s.cur.id || s.farStall t true pas ||
        (spc = .sp && t.unsealed (t.col .ctl).timed va 256)) && va % 256 = 0,
      asks := s.windowReqs t.cid 0 false pas,
      late := trapOf ((s.cleanCache t.cid).launchBy t spc (t.getS a).v.toNat) }) fun s t =>
    let s' := (s.setTeam t).cleanCache t.cid
    match s'.launchBy t spc (t.getS a).v.toNat with
    | .error e => s.raise t s.cur e
    | .ok r => r.1.landElastic t.cid s.cur d r.2.toNat false

/-- A cancel word: it performs when the request is accepted (R146). -/
def cancelWord (s : State) (level : Nat) (a : SReg) : Host.Outcome State Fault Refusal :=
  runWord s (fun _ _ => { svc := 2 ≤ level, regs := [.s a], reject := true }) fun s t =>
    (done1 s t).cancelUnit t.job level (t.getS a).v

/-- CANCEL.LAUNCH (R146). -/
def execCancelLaunch (a : SReg) (s : State) : Host.Outcome State Fault Refusal := cancelWord s 0 a
/-- CANCEL.GRAPH (R146). (Log: 99 DEDUCED.) -/
def execCancelGraph (a : SReg) (s : State) : Host.Outcome State Fault Refusal := cancelWord s 1 a
/-- CANCEL.PHASE, at level S only (R146, R155). -/
def execCancelPhase (a : SReg) (s : State) : Host.Outcome State Fault Refusal := cancelWord s 2 a
/-- CANCEL.JOB, at level S only (R146, R155). -/
def execCancelJob (a : SReg) (s : State) : Host.Outcome State Fault Refusal := cancelWord s 3 a

/-- The 64-bit word at a launch's done (R273, R359). -/
def State.doneOf (s : State) (l : Launch) : Nat :=
  match s.vread l.job (pf l.pkt 0x90 0 55) 8 with
  | .ok b => natOfBytes b
  | .error _ => 0

/-- What cntrd reads, and whether it is tainted (R147, R359). -/
def State.counterOf (s : State) (t : Team) : CntSrc → Nat × Bool
  | .head c => ((t.col c).head, !(t.col .ctl).timed)
  | .tail c => ((t.col c).tail, false)
  | .put c => ((t.col c).put, false)
  | .launch => (match s.launch t.launch with | some l => s.doneOf l | none => 0, true)
  | .graph => (match s.graphs.find? fun g => g.id = s.graphOf t && g.job = t.job with | some g => g.completed | none => 0, true)
  | .phase => (match s.job t.job with | some j => j.phaseDone | none => 0, true)
  | .job => (match s.job t.job with | some j => j.completed | none => 0, true)
  | .handle a => (match s.named t.job (t.getS a).v with | some l => s.doneOf l | none => 0, true)

/-- CNTRD lands at issue + 1 (R147). -/
def execCntrd (d : SReg) (src : CntSrc) (s : State) : Host.Outcome State Fault Refusal :=
  runWord s (fun _ _ => { regs := [.s d] ++ match src with | .handle a => [.s a] | _ => [] }) fun s t =>
    let r := s.counterOf t src
    done1 s (t.land s.cur (t.clock .ctl + 1) (.s d (BitVec.ofNat 64 r.1) r.2))

end Sys2Proof.Machine
end

