-- ==== Sys2Proof/Machine/Dispatcher.lean ====
section
/-! DEFINITION. The dispatcher: host queues (R363, R412 to R414), dependences and placement (R365, R366, R353), set-up and
gang start (R281, R282, R367), completion, cuts, drains, forced saves and restores (R369 to R371, R391 to R394), and
reservations (R372, R373). -/

namespace Sys2Proof.Machine

/-! ## Set-up (R281) -/

/-- The identity pattern (R71). -/
def identityNet : VImage := BitVec.ofNat 16384 ((List.range 1024).foldr (fun i acc => i + 65536 * acc) 0)

/-- A column with no ring, which counts as having performed rdv (R282). (Log: 2 DESIGN CHOICE.) -/
def blankColumn : Column :=
  { word := none, ask := none, base := 0, size := 0, tail := 0, put := 0, head := 0, next := 0, floor := 0, portFree := 0, timed := false, ended := true,
    stopped := false, tried := false, loops := [], hoop := none, joined := Vector.replicate 8 0 }

/-- An untainted zero. -/
def zeroTW : TW := ⟨0, false⟩

/-- A vector register at gang start (R61). -/
def zeroV : VVal := ⟨0, 0⟩

/-- A team with every register at its start value (R61, R82, R166). (Log: 2 DESIGN CHOICE.) -/
def blankTeam : Team :=
  { cid := 0, launch := 0, job := 0, ord := 0, patch := 0, pext := 0, ndet := 0, tgroup := false, banks := 0, granules := 0,
    inboxBase := none, tfLen := 0, clk := 0, delta := 0, frozen := false, frozenNs := 0, frozenWhy := 0, svc := false,
    handler := false, depth := 0, svcClk := 0, svcPend := [], held := [], parked := [], hoop := none, cols := Vector.replicate 5 blankColumn,
    s := Vector.replicate 64 zeroTW, a := Vector.replicate 16 zeroTW, v := Vector.replicate 64 zeroV,
    o := Vector.replicate 8 zeroV, lat := zeroV, q := Vector.replicate 4 [], w := Vector.replicate 4 [],
    k := Vector.replicate 8 ⟨0, 0⟩, m := Vector.replicate 8 (Vector.replicate 16 none),
    n := Vector.replicate 8 ⟨identityNet, false⟩, tab := Vector.replicate 4 ⟨false, .exp2, [], false⟩,
    p := Vector.replicate 8 none, toks := [], flags := 0, cnt := Vector.replicate 32 ⟨0, 0, 0⟩,
    bars := Vector.replicate 8 ⟨false, false, 0, 0⟩, mbx := Vector.replicate 16 0, vrm := 0, vsat := 1, vshape := 0x1010,
    vexc := 0, mexc := 0, cexc := 0, stkb := 0, stkl := 0, stkp := 0, dbgctl := 0, tfb := 0, tcause := 0, tval := 0,
    tepc := 0, tstat := 0, tie := 0, tip := 0, tscratch := 0, timecmp := BitVec.allOnes 64, csrTaint := [], spad := [],
    spadTaint := [], sick := [], unseen := [], told := [], heard := [], fresh := [], touch := [], coming := [], ways := 0, bfmt := Vector.replicate 16 0x3F80000000000001,
    books := Vector.replicate 8 defaultBook, cache := [], acc := [], accTaint := [], accSick := [], found := [], mfmt := 0, mringA := 0, mringB := 0,
    mnest := none, active := none, rA := ⟨0, 0, 0, []⟩, rB := ⟨0, 0, 0, []⟩, engine := [], engineFree := 0, plaitObs := 0,
    hidden := [], inbound := [], border := [], inbox := ⟨0, 0, 0, false, [], [], 0, false, []⟩, plaits := [], copies := [],
    xferFree := 0, advances := [], cpx := [], pend := [], waiting := [], traps := [], freezeReq := none, lastPulse := 0,
    nextId := 1 }

/-- A signed field of n bits. -/
def signedFld (x lo n : Nat) : Int := if fld x (lo + n - 1) 1 = 1 then (fld x lo n : Int) - 2 ^ n else fld x lo n

/-- The core of a patch position (R280). -/
def patchCid (org : Nat × Nat × Nat) (x y z : Nat) : Nat := (org.1 + x) + 16 * (org.2.1 + y) + 256 * (org.2.2 + z)

/-- The patch positions of some extents, x fastest. -/
def patchSpots (e : Nat × Nat × Nat) : List (Nat × Nat × Nat) :=
  (List.range e.2.2).flatMap fun z => (List.range e.2.1).flatMap fun y => (List.range e.1).map fun x => (x, y, z)

/-- JLINK of a sync table's counter entry for the team at a patch position (R275). -/
def linkOf (e org : Nat × Nat × Nat) (at_ : Nat × Nat × Nat) (w : Nat) : BitVec 17 :=
  let wrap := fld w 53 1 = 1
  let go := fun (p ext lo n : Nat) =>
    let d := (p : Int) + signedFld w lo n
    if wrap then some (d % ext).toNat else if 0 ≤ d && d < ext then some d.toNat else none
  if fld w 32 1 = 0 then 0
  else match go at_.1 e.1 38 6, go at_.2.1 e.2.1 44 6, go at_.2.2 e.2.2 50 3 with
    | some x, some y, some z => BitVec.ofNat 17 (1 + fld w 33 5 * 2 + patchCid org x y z * 64)
    | _, _, _ => 0

/-- The scratchpad that set-up gives every team of a launch: bank images in table order, then each column's image in its
ring; the error is the offset of the field that could not be read (R277, R281). -/
def State.setupSpad (s : State) (l : Launch) : Except Nat (List Host.Cell) :=
  let banks := l.bankimg.zipIdx.foldl (fun (m : Except Nat (List Host.Cell)) x => match m with
    | .error e => .error e
    | .ok m =>
      let w := fun (i : Nat) => (x.1.getD i 0).toNat
      match s.vread l.job (fld (w 0) 0 55) (fld (w 1) 32 18) with
      | .error _ => .error (0x3000 + 16 * x.2)
      | .ok b => .ok (layBytes m (131072 * fld (w 1) 0 4) b)) (.ok [])
  (List.range 5).foldl (fun (m : Except Nat (List Host.Cell)) c => match m with
    | .error e => .error e
    | .ok m =>
      let x := colEntry l.pkt c
      if x.len = 0 then .ok m
      else match s.vread l.job x.image (8 * x.len) with
        | .error _ => .error x.off
        | .ok b => .ok (layBytes m x.base b)) banks

/-- A column at gang start (R282, R283). -/
def startColumn (x : ColEntry) : Column :=
  if x.len = 0 then blankColumn
  else { blankColumn with base := x.base, size := 2 ^ x.size, tail := x.len, put := x.len, ended := false }

/-- A team of a launch as set-up leaves it (R281). -/
def Launch.setupTeam (l : Launch) (org : Nat × Nat × Nat) (spad : List Host.Cell) (at_ : Nat × Nat × Nat) : Team :=
  let p := l.pkt
  let e := packetExt p
  let three := fun (x : Nat × Nat × Nat) => BitVec.ofNat 64 (x.1 + x.2.1 * 2 ^ 16 + x.2.2 * 2 ^ 32)
  let y := fun (i : Nat) => (l.sync.getD i 0).toNat
  { blankTeam with
    cid := patchCid org at_.1 at_.2.1 at_.2.2, launch := l.handle, job := l.job, ord := l.ord, patch := three at_,
    pext := three e, ndet := packetDet p, tgroup := pf p 0 18 1 = 1, banks := packetBanks p,
    granules := BitVec.ofNat 24 (pf p 0x60 16 24), inboxBase := if pf p 0x60 45 1 = 1 then some (pf p 0x60 40 5) else none,
    stkb := BitVec.ofNat 64 (pf p 0x68 0 21), stkl := BitVec.ofNat 64 (pf p 0x68 32 21),
    stkp := BitVec.ofNat 64 (pf p 0x68 32 21), tfb := BitVec.ofNat 64 (pf p 0x70 0 21), tfLen := pf p 0x70 32 21,
    cols := Vector.ofFn fun (c : Fin 5) => startColumn (colEntry p c.val), spad := spad,
    cnt := Vector.ofFn fun (j : Fin 32) => ⟨0, BitVec.ofNat 32 (y j.val), linkOf e org at_ (y j.val)⟩,
    bars := Vector.ofFn fun (b : Fin 8) =>
      let w := y (32 + b.val)
      ⟨fld w 0 1 = 1, fld w 1 1 = 1, fld w 16 16, 0⟩,
    mbx := Vector.ofFn fun (i : Fin 16) => l.mbx.getD i.val 0 }

/-- A granted channel program as its rim stores it: its first word, the hoop, has issued (R281, R282, R319). -/
def Launch.setupProg (l : Launch) (org : Nat × Nat × Nat) (n : Nat) (g : List Word) (words : List Word) : ChanProg :=
  let w := fun (i : Nat) => (g.getD i 0).toNat
  let sig := match decode .chn (words.headD 0).toNat with
    | .ok k => k.signal
    | .error _ => .none
  { launch := l.handle, grant := n, owner := patchCid org (fld (w 3) 0 16) (fld (w 3) 16 16) (fld (w 3) 32 16),
    svc := fld (w 0) 16 1 = 1, words := words, lastAt := 0, lastPos := 0,
    st := { blankColumn with size := max 1 words.length, tail := words.length, put := words.length, ended := false, head := 1,
                             hoop := some ⟨0, 0, false, 0, [], sig⟩ } }

/-- The pseudo-channels of a launch's grants with their programs, or the field that could not be read (R281). -/
def State.setupProgs (s : State) (l : Launch) (org : Nat × Nat × Nat) : Except Nat (List Pc) :=
  l.grants.zipIdx.foldl (fun (r : Except Nat (List Pc)) x => match r with
    | .error e => .error e
    | .ok r =>
      let w := fun (i : Nat) => (x.1.getD i 0).toNat
      match s.vdwords l.job (fld (w 1) 0 55) (fld (w 2) 0 13) with
      | .error _ => .error (0x1000 + 32 * x.2 + 8)
      | .ok words =>
        let p := (s.pc (fld (w 0) 0 10)).getD (blankPc (fld (w 0) 0 10))
        let q : Pc := { p with prog := some (l.setupProg org x.2 x.1 words), slots := [], slotTaint := [], slotLand := [],
                               hist := [], t0 := 0, winEnd := 0, hotQ := 0 }
        .ok (r ++ [q])) (.ok [])

/-! ## Placement (R280, R353, R366, R373) -/

/-- A launch's priority (R273). -/
def Launch.prio (l : Launch) : Nat := pf l.pkt 0 16 2

/-- The origin field of a packet (R273). -/
def packetOrg (p : List Word) : Nat × Nat × Nat := (pf p 8 48 4, pf p 8 52 4, pf p 8 56 3)

/-- The dispatcher's wall clock in thirds of a nanosecond. -/
def State.thirds (s : State) : Nat := 3 * s.ns

/-- Thirds of a nanosecond before START from which a reservation is in force (R373). -/
def State.rsvLead (s : State) : Nat :=
  3 * (1000 * (s.drainlim.toNat % 2 ^ 32) + 400000) + 4096 * (if s.kensia.interleave then 2 else 1)

/-- A core lies in a reservation slot (R372). -/
def rsvHolds (c : Word) (cid : Nat) : Bool :=
  let w := c.toNat
  let x := cid % 16
  let y := cid / 16 % 16
  fld w (1 + dieOf cid) 1 = 1 && dieOf cid < 5 && fld w 6 4 ≤ x && x ≤ fld w 14 4 && fld w 10 4 ≤ y && y ≤ fld w 18 4

/-- A reservation slot is in force (R373). -/
def State.rsvOn (s : State) (n : Fin 16) : Bool :=
  (s.rsv[n])[0].getLsbD 0 && 3 * (s.rsv[n])[1].toNat ≤ s.thirds + s.rsvLead && s.ns < (s.rsv[n])[2].toNat

/-- A core is inside another job's reservation in force (R366). -/
def State.reserved (s : State) (job cid : Nat) : Bool :=
  (List.finRange 16).any fun n =>
    s.rsvOn n && rsvHolds (s.rsv[n])[0] cid && decide ((s.rsv[n])[0].toNat / 2 ^ 32 ≠ job)

/-- A core waits for a marked unit's retirement (R436). -/
def State.retiring (s : State) (cid : Nat) : Bool := s.kensia.marks.any fun m => (s.concerned m.1).contains cid

/-- A core that a job's launch may be placed on (R366, R436). -/
def State.coreOpen (s : State) (job cid : Nat) : Bool := !s.reserved job cid && !s.retiring cid

/-- The cores and pseudo-channels held by launches. -/
def State.heldCores (s : State) : List Nat := (s.launches.filter (·.holds)).flatMap (·.cids)
/-- The pseudo-channels held by launches (R313). -/
def State.heldPcs (s : State) : List Nat := (s.launches.filter (·.holds)).flatMap (·.pcs)

/-- The banks that a channel word refreshes (R320). -/
def refreshedBy : Instr → List Nat
  | .ref => allBanks
  | .refsb bk => sbBanks bk.toNat
  | _ => []

/-- The column of a channel program past a word that it runs, at the mailbox of its launch; none where a loop word traps
(R170, R171). -/
def Column.past (x : Column) (mbx : List Word) (i : Instr) : Option Column :=
  let y := x.step x.head
  let open_ := fun (fixed : Bool) (src : LoopSrc) (b len : BitVec 12) =>
    let n : TW := match src with
      | .mbx m => ⟨mbx.getD m.toNat 0, false⟩
      | _ => ⟨b.setWidth 64, false⟩
    if !x.nullified && (loopTrap false x x.head fixed n src b.toNat len.toNat).isSome then none
    else some (x.openLoop x.head fixed n.v.toNat b.toNat len.toNat (!fixed && (x.nullified || n.v = 0)))
  match i with
  | .loopf src b len => open_ true src b len
  | .loope src b len => open_ false src b len
  | _ => some y

/-- The schedule of a channel program's words from a column's head and a tick on keeps every bank refreshed, `refs` times so far, as
R320 asks with an interval of half of `trefi` ticks, until it ends or the number of words runs out. What its words wait for
takes no tick: a timed word that has to wait traps (R86). -/
def keepsHalved (words mbx : List Word) (trefi : Nat) : Nat → Column → Nat → List Nat → Bool
  | 0, _, _, _ => true
  | n + 1, x, tick, refs =>
    match (words[x.head]?).map fun w => decode .chn w.toNat with
    | some (.ok k) =>
      let at_ := tick + idleOf k.wait
      let more := if x.nullified then [] else refreshedBy k.instr
      let refs' := refs.zipIdx.map fun r => if more.contains r.2 then r.1 + 1 else r.1
      let next := match k.instr with
        | .pass m => if x.nullified then at_ + 1 else at_ + m.toNat
        | _ => at_ + 1
      (refs.all fun c => 2 * (at_ - 1) / trefi ≤ c + 8) && (match k.instr, x.past mbx k.instr with
        | .rdv, some y => x.nullified || keepsHalved words mbx trefi n y next refs'
        | _, some y => keepsHalved words mbx trefi n y next refs'
        | _, none => true)
    | _ => true

/-- A channel program meets the halved refresh interval (R322): its schedule from its first pulse on, whose first word has
tick 1. (Log: 147 DEDUCED.) -/
def meetsHalved (words mbx : List Word) (rim : Nat) : Bool :=
  keepsHalved words mbx (Config.fusedTiming rim 12) (2 ^ 60) { blankColumn with head := 1, ended := false } 1 (List.replicate 16 0)

/-- A grant's program meets the halved refresh interval (R322, R353); one that cannot be read is met at set-up.
(Log: 147 DEDUCED.) -/
def State.halvedOk (s : State) (l : Launch) (g : List Word) : Bool :=
  match s.vdwords l.job (fld (g.getD 1 0).toNat 0 55) (fld (g.getD 2 0).toNat 0 13) with
  | .ok words => meetsHalved words l.mbx (rimOf (fld (g.getD 0 0).toNat 0 10))
  | .error _ => true

/-- Beat interleave admits the launch (R353). (Log: 147 DEDUCED.) -/
def State.admits (s : State) (l : Launch) : Bool :=
  !s.kensia.interleave ||
  (pf l.pkt 0 21 1 = 1 && countBits (pf l.pkt 0x60 0 16) 16 ≤ 8 && countBits (pf l.pkt 0x60 16 24) 24 ≤ 12 &&
    l.grants.all (s.halvedOk l))

/-- The cores of a patch at an origin. -/
def patchAt (e org : Nat × Nat × Nat) : List Nat := (patchSpots e).map fun p => patchCid org p.1 p.2.1 p.2.2

/-- The origins that a launch may take, in the order of R280: its own, a saved launch's first one, or any. -/
def Launch.origins (l : Launch) : List (Nat × Nat × Nat) :=
  let e := packetExt l.pkt
  if l.state = .saved then
    let c := l.cids.headD 0
    [(c % 16, c / 16 % 16, dieOf c)]
  else if pf l.pkt 0 22 1 = 1 then
    (List.range (6 - e.2.2)).flatMap fun z => (List.range (17 - e.2.1)).flatMap fun y =>
      (List.range (17 - e.1)).map fun x => (x, y, z)
  else [packetOrg l.pkt]

/-- The first origin at which every core of the patch is free of some holders and open to the job. -/
def State.originFor (s : State) (l : Launch) (held : List Nat) : Option (Nat × Nat × Nat) :=
  l.origins.find? fun o => (patchAt (packetExt l.pkt) o).all fun c => !held.contains c && s.coreOpen l.job c

/-- Whether an entry comes before another in the dispatcher's order (R366). (Log: 100 DEDUCED.) -/
def Launch.sooner (x y : Launch) : Bool :=
  y.prio < x.prio || (x.prio = y.prio && ((x.state = .saved && y.state != .saved) ||
    (decide (x.state = .saved) = decide (y.state = .saved) && x.order < y.order)))

/-- A launch put into a list in the dispatcher's order. (Log: 100 DEDUCED.) -/
def insertLaunch (x : Launch) : List Launch → List Launch
  | [] => [x]
  | y :: l => if x.sooner y then x :: y :: l else y :: insertLaunch x l

/-- READY and SAVED entries in the dispatcher's order (R366). -/
def State.readyList (s : State) : List Launch :=
  (s.launches.filter fun l => l.state = .ready || l.state = .saved).foldl (fun acc l => insertLaunch l acc) []

/-- What the dispatcher does with the entry that it chooses: it completes at once (R368, with status 0, or refused by
interleave with status 4), or it is placed at an origin. -/
inductive Choice where
  | finish (h status : Nat)
  | place (h : Nat) (org : Nat × Nat × Nat)
  deriving DecidableEq, Repr

/-- The first entry that may be placed (R366). `stop` holds the priorities with an unplaced entry, `block` whether an
unplaced anyplace entry has gone before, `cores` and `pcs` what unplaced fixed entries need. -/
def State.chooseFrom (s : State) (stop : List Nat) (block : Option Nat) (cores pcs : List Nat) : List Launch → Option Choice
  | [] => none
  | l :: rest =>
    let below := match block with
      | some p => l.prio < p
      | none => false
    if stop.contains l.prio || below then s.chooseFrom stop block cores pcs rest
    else if !s.admits l then some (.finish l.handle 4)
    else if emptyPatch l.pkt then some (.finish l.handle 0)
    else
      let pcFree := l.pcs.all fun c => !s.heldPcs.contains c && !pcs.contains c
      match (if pcFree then s.originFor l (s.heldCores ++ cores) else none) with
      | some o => some (.place l.handle o)
      | none =>
        let any := pf l.pkt 0 22 1 = 1 && l.state != .saved
        let mine := if any then [] else patchAt (packetExt l.pkt) (l.origins.headD (0, 0, 0))
        s.chooseFrom (l.prio :: stop) (if any then some l.prio else block) (cores ++ mine) (pcs ++ l.pcs) rest

/-- Launches are placed: the module is in FULL, ready, with no request for RIMS, and the memory map is formed over live rims
(R444, R448, R452). -/
def State.placing (s : State) : Bool := s.kensia.step = 6 && s.kensia.pwrst = 0 && !s.halted && !s.kensia.rimsNext && s.kensia.rimMap = s.liveRims

/-- The dispatcher's next choice. -/
def State.choose (s : State) : Option Choice := if s.placing then s.chooseFrom [] none [] [] s.readyList else none

/-- A launch whose set-up cannot read a table or an image completes with status 3 (R281, R361). (Log: 87 DEDUCED.) -/
def State.setupFault (s : State) (h off : Nat) : State := (s.modLaunch h fun l => { l with offset := off }).completeLaunch h 3

/-- SET-UP of a launch at an origin: its teams and programs are prepared, and gang start follows 512 beats after its end
(R281, R367); a saved launch is restored instead (R371). (Log: 87 DEDUCED; 94 DESIGN CHOICE.) -/
def State.setup (s : State) (l : Launch) (org : Nat × Nat × Nat) : State :=
  let cids := patchAt (packetExt l.pkt) org
  let due := s.now + Config.setupBeats s.free + 512
  let s : State := { s with free := s.free + 1 }
  if l.state = .saved then
    (s.modLaunch l.handle fun l => { l with state := .setup, drain := none }).plan due 0 [l.handle] .restore
  else match l.unread, s.setupSpad l, s.setupProgs l org with
    | some off, _, _ => s.setupFault l.handle off
    | none, .error off, _ => s.setupFault l.handle off
    | none, .ok _, .error off => s.setupFault l.handle off
    | none, .ok spad, .ok pcs =>
      let teams := (patchSpots (packetExt l.pkt)).map (l.setupTeam org spad)
      (s.modLaunch l.handle fun l => { l with state := .setup, cids := cids, savedTeams := teams, savedPcs := pcs }).plan
        due 0 [l.handle] .gangStart

/-- DISPATCH_PLACE (R366, R368): the dispatcher's next choice is carried out. -/
def execDispatchPlace (s : State) : Host.Outcome State Fault Refusal :=
  match s.choose with
  | none => .next s
  | some (.finish h status) => .next (s.completeLaunch h status)
  | some (.place h org) => match s.launch h with
    | none => .next s
    | some l => .next (s.setup l org)

/-! ## Gang start and completion (R172, R282, R285, R367) -/

/-- A team put among the live teams in ascending order of cores. -/
def insertTeam (t : Team) : List Team → List Team
  | [] => [t]
  | u :: l => if t.cid < u.cid then t :: u :: l else u :: insertTeam t l

/-- A pseudo-channel put in place of its namesake, or among the others. -/
def State.putPc (s : State) (p : Pc) : State :=
  if (s.pc p.pc).isSome then s.setPc p else { s with pcs := s.pcs ++ [p] }

/-- Generations of a package barrier that complete at once because as many arrivals have been kept (R285). -/
def State.keptGens (s : State) (t : Team) (b : BitVec 3) (cx : Cur) : Nat → State
  | 0 => s
  | n + 1 =>
    let x := s.barCount t b
    if x.parts = 0 || x.a < x.parts then s else (s.completeGen t b cx x (x.a - x.parts)).keptGens t b cx n

/-- A launch that has started and has not ended (R285). -/
def Launch.live (l : Launch) : Bool := l.state = .running || l.state = .draining || l.state = .saved

/-- A package-scope barrier of a launch that starts: where no other live launch of the job holds the barrier, parts takes the
launch's value, and kept arrivals complete generations (R285). -/
def State.startPackage (s : State) (l : Launch) (t : Team) (b : BitVec 3) : State :=
  let i := b.toNat
  if !(t.bars.get b.toFin).valid || !(t.bars.get b.toFin).package then s
  else
    let others := s.launches.any fun x =>
      let w := x.sync.getD (32 + i) 0
      x.job = l.job && x.handle != l.handle && x.live && w.getLsbD 0 && w.getLsbD 1
    let x := s.barCount t b
    if others then s
    else (s.setBar t b { x with parts := (t.bars.get b.toFin).parts }).keptGens t b { Cur.none with cid := t.cid } (x.a + 1)

/-- A team that starts: its package barriers' generations count as already observed, and its bound for a pulse from this beat on
(R175, R285). -/
def State.withSeen (s : State) (t : Team) : Team :=
  { t with lastPulse := s.beatOf t, bars := Vector.ofFn fun (i : Fin 8) =>
      let b := t.bars.get i
      if b.package then { b with seen := (s.barCount t (BitVec.ofNat 3 i.val)).g } else b }

/-- A program that starts on a hoop whose SIGNAL names a barrier that its owner does not have traps there, before any effect
(R285). -/
def State.startHoop (s : State) (pc : Nat) : State :=
  match s.pc pc with
  | none => s
  | some p => match p.prog with
    | none => s
    | some g => match s.team g.owner, g.st.hoop with
      | some t, some h => match t.syncTrap .none h.signal with
        | some e => ({ s with cur := { Cur.none with cid := g.owner, col := .chn, pc := pc } } : State).raiseChan t p
            { g with st := { g.st with head := 0, hoop := none } } e.1 e.2
        | none => s
      | _, _ => s

/-- What a launch is from its gang start on: one whose drain began while it was in set-up is draining (R370). -/
def Launch.onStart (l : Launch) : LState := if l.drain.isSome then .draining else .running

/-- GANG_START (R282, R285, R367): every column of the launch starts on this beat. (Log: 91, 125 DEDUCED.) -/
def execGangStart (s : State) : Host.Outcome State Fault Refusal :=
  let h := s.cur.args.headD 0
  match s.launch h with
  | none => .next s
  | some l =>
    if l.state != .setup || l.cut.isSome then .next s
    else
      let s := l.savedTeams.foldl (fun (s : State) t => { s with teams := insertTeam (s.withSeen t) s.teams }) s
      let s := l.savedPcs.foldl (fun (s : State) p => match s.pc p.pc with
        | some q =>
          s.putPc { q with prog := p.prog, slots := [], slotTaint := [], slotLand := [], hist := [], t0 := 0, winEnd := 0,
                           hotQ := 0, refs := p.refs, banks := Vector.replicate 16 none }
        | none => s.putPc p) s
      let s := s.modLaunch h fun l => { l with state := l.onStart, savedTeams := [], savedPcs := [] }
      let s := match l.savedTeams.head? with
        | none => s
        | some t => (List.range 8).foldl (fun s b => s.startPackage l t (BitVec.ofNat 3 b)) s
      .next ((l.savedPcs.foldl (fun s p => s.startHoop p.pc) s).traceLaunch l 0 0)

/-- Every stream of a team has ended and every effect has landed (R172, R281). -/
def Team.quiet (t : Team) : Bool :=
  t.cols.toList.all (fun x => x.ended) && t.pend.isEmpty && t.svcPend.isEmpty &&
  t.waiting.isEmpty && t.traps.isEmpty && t.freezeReq.isNone && !t.handler && t.engine.isEmpty && t.copies.isEmpty &&
  t.cpx.isEmpty && t.border.all (·.committed) && !t.inbox.busy && t.inbound.isEmpty

/-- The launch's streams have all ended and its effects have all landed (R172). (Log: 95 DEDUCED.) -/
def State.finished (s : State) (l : Launch) : Bool :=
  (l.state = .running || l.state = .draining) &&
  (s.teams.all fun t => t.launch != l.handle || t.quiet) &&
  s.pcs.all fun p => match p.prog with
    | some g => g.launch != l.handle || !p.owned
    | none => true

/-- LAUNCH_COMPLETE (R172, R360): one cancelled on an earlier beat completes as such, and one cancelled on this beat has completed
before (R369, R375). -/
def execLaunchComplete (s : State) : Host.Outcome State Fault Refusal :=
  let h := s.cur.args.headD 0
  match s.launch h with
  | none => .next s
  | some l => if s.finished l then .next (s.completeLaunch h (if l.cut.isSome && l.cut != some (s.now + 512) then l.status else 0)) else .next s

/-- CANCEL_CUT (R369, R238): the streams of the launch end at the cut: row groups not committed are discarded and
transfers in flight write no byte, for they end with its teams. -/
def execCancelCut (s : State) : Host.Outcome State Fault Refusal :=
  let h := s.cur.args.headD 0
  match s.launch h with
  | none => .next s
  | some l => match l.cut with
    | none => .next s
    | some _ => .next (s.completeLaunch h l.status)

/-! ## Dependences (R365) -/

/-- Every dependence of a launch holds; none if one cannot be read (R365). -/
def State.depsHold (s : State) (l : Launch) : Option Bool :=
  (List.range 4).foldl (fun (r : Option Bool) i => match r with
    | none => none
    | some ok =>
      let va := pf l.pkt (0xA0 + 16 * i) 0 55
      if va = 0 then some ok
      else match s.vread l.job va 8 with
        | .error _ => none
        | .ok b => some (ok && pf l.pkt (0xA8 + 16 * i) 0 32 ≤ natOfBytes b)) (some true)

/-- DEPENDENCE_POLL (R365): a launch whose dependences hold becomes READY, and one whose word cannot be read ends with
status 6; words that others write are looked at again within 10 microseconds. (Log: 94 DESIGN CHOICE.) -/
def execDependencePoll (s : State) : Host.Outcome State Fault Refusal :=
  let s := (s.launches.filter fun l => l.state = .waiting).foldl (fun (s : State) l => match s.depsHold l with
    | none => s.completeLaunch l.handle 6
    | some true => s.modLaunch l.handle fun x => { x with state := .ready }
    | some false => s) s
  let again := s.launches.any (fun l => l.state = .waiting) && !(s.agenda.any fun p => p.act = .dependencePoll)
  .next (if again then s.plan (s.now + s.beatsOfNs 10000) 0 [] .dependencePoll else s)

/-! ## Host queues (R361 to R363, R412 to R414) -/

/-- The queue of a number. -/
def queueFin (n : Nat) : Fin 64 := ⟨n % 64, Nat.mod_lt _ (by decide)⟩

/-- The job that a queue is bound to (R412). -/
def HQueue.job (x : HQueue) : Nat := x.qctl.toNat / 2 ^ 32

/-- A queue reads its next entry: in service, not stopped, with one submitted, its job's tables in place, and a free
scoreboard entry (R363, R364, R412). -/
def State.queueReads (s : State) (q : Fin 64) : Bool :=
  let x := s.queues[q]
  x.qctl.getLsbD 0 && !x.qctl.getLsbD 2 && x.qhead != x.tail && (s.slotOf x.job).isSome && !s.boardFull && s.kensia.step = 6

/-- A queue address does not lie in a peer device's memory: only TGT 0 and TGT 1 are allowed (R412). -/
def State.queueOk (s : State) (job : Nat) (rd : Bool) (va n : Nat) : Bool :=
  match s.anyTranslate job rd (!rd) va n with
  | .ok l => l.all fun p => p.leaf.tgt < 2
  | .error _ => true

/-- The dwords of a queue's next entry (R412). -/
def State.nextEntry (s : State) (q : Fin 64) : Except Trap (List Word) :=
  let x := s.queues[q]
  let va := x.qbase.toNat + 64 * (x.qhead % 2 ^ x.qsize)
  if s.queueOk x.job true va 64 then s.vdwords x.job va 8 else .error (.protection, BitVec.ofNat 64 va)

/-- A fault on a queue address sets ERR and STOPPED (R414). -/
def HQueue.fault (x : HQueue) : HQueue := { x with qctl := x.qctl ||| 6 }

/-- The offset of the first failing field of an entry (R363). (Log: 96 DEDUCED.) -/
def entryOff (e : List Word) : Option Nat :=
  let w := fun (i : Nat) => (e.getD i 0).toNat
  let d0 : Bool := 3 ≤ fld (w 0) 0 8 || fld (w 0) 9 7 ≠ 0 || fld (w 0) 32 32 ≠ 0
  let d1 : Bool := fld (w 1) 55 9 ≠ 0 || fld (w 1) 0 55 % 256 ≠ 0
  firstOff ([(0x4000, d0), (0x4008, d1)] ++ (List.range 6).map fun i => (0x4010 + 8 * i, decide (w (2 + i) ≠ 0)))

/-- A graph closed (R362). -/
def State.closeGraph (s : State) (job g : Nat) : State :=
  { s with graphs := s.graphs.map fun x => if x.id = g && x.job = job then { x with closed := true } else x }

/-- A new graph of a job, open in a queue (R362). -/
def State.openGraph (s : State) (q : Fin 64) (job : Nat) : State × Nat :=
  let s := s.withJob job
  let g := match s.job job with
    | some j => j.nextGraph
    | none => 1
  let s := s.modJob job fun j => { j with nextGraph := j.nextGraph + 1 }
  (({ s with graphs := s.graphs ++ [⟨g, job, false, 0, 0, q.val⟩] } : State).setQueue q { s.queues[q] with openGraph := some g }, g)

/-- A refused entry's completion record: ordinal 0 and no done add (R361, R363). (Log: 88 DEDUCED.) -/
def State.refuseEntry (s : State) (q : Fin 64) (status tag graph off : Nat) : State :=
  s.pushRecord q 0 (recordWords (BitVec.ofNat 64 (s.queues[q].job * 2 ^ 32)) status false tag 0 graph off 0)

/-- The entry's launch, submitted into a graph (R363): a packet that cannot be read gives status 3 with the offset of the
first byte whose read faulted. -/
def State.submitEntry (s : State) (q : Fin 64) (e : List Word) (g : Nat) : State :=
  let x := s.queues[q]
  let tag := fld (e.getD 0 0).toNat 16 16
  let va := fld (e.getD 1 0).toNat 0 55
  match s.vdwords x.job va 32 with
  | .error t => s.refuseEntry q 3 tag g (t.2.toNat - va)
  | .ok p => match s.accept x.job q.val (some q.val) tag (x.qctl.getLsbD 4) g p with
    | .error off => s.refuseEntry q 2 tag g off
    | .ok r => r.1

/-- A queue's next entry taken if it is of the kinds asked for (R362, R363). -/
def State.takeEntry (s : State) (q : Fin 64) (kinds : Nat → Bool) : State :=
  if !s.queueReads q then s
  else
    let x := s.queues[q]
    match s.nextEntry q with
    | .error _ => s.setQueue q x.fault
    | .ok e =>
      let kind := fld (e.getD 0 0).toNat 0 8
      let close := (e.getD 0 0).getLsbD 8
      let tag := fld (e.getD 0 0).toNat 16 16
      if !kinds kind then s
      else
        let s := s.setQueue q { x with qhead := (x.qhead + 1) % 2 ^ 32 }
        let off := entryOff e
        let graph := if kind = 0 || 3 ≤ kind then (s, x.openGraph.getD 0)
          else match (if kind = 1 then none else x.openGraph) with
            | some g => (s, g)
            | none => s.openGraph q x.job
        let s := match off with
          | some o => graph.1.refuseEntry q 2 tag graph.2 o
          | none => if kind = 0 then graph.1 else graph.1.submitEntry q e graph.2
        if close && kind < 3 && (kind != 0 || off.isNone) then
          (s.closeGraph x.job graph.2).setQueue q { s.queues[q] with openGraph := none }
        else s

/-- HOST_QUEUE_ENTRY_NOP: a kind-0 entry, or one of a kind that is rejected (R363). (Log: 96 DEDUCED.) -/
def execHostQueueEntryNop (s : State) : Host.Outcome State Fault Refusal :=
  .next (s.takeEntry (queueFin (s.cur.args.headD 0)) fun k => k = 0 || 3 ≤ k)
/-- HOST_QUEUE_ENTRY_OPEN_GRAPH: a kind-1 entry opens a graph and submits its launch (R362, R363). -/
def execHostQueueEntryOpenGraph (s : State) : Host.Outcome State Fault Refusal :=
  .next (s.takeEntry (queueFin (s.cur.args.headD 0)) (· = 1))
/-- HOST_QUEUE_ENTRY_ADD: a kind-2 entry adds its launch to the open graph (R362, R363). -/
def execHostQueueEntryAdd (s : State) : Host.Outcome State Fault Refusal :=
  .next (s.takeEntry (queueFin (s.cur.args.headD 0)) (· = 2))

/-- The event that takes a queue's next entry; one that cannot be read is met by the first kind (R363, R414). -/
def State.entryEvent (s : State) (q : Fin 64) : Instr :=
  match s.nextEntry q with
  | .error _ => .hostQueueEntryNop
  | .ok e => match fld (e.getD 0 0).toNat 0 8 with
    | 1 => .hostQueueEntryOpenGraph
    | 2 => .hostQueueEntryAdd
    | _ => .hostQueueEntryNop

/-- A queue has a completion record to write, and the event queue has room (R413). -/
def State.recordReady (s : State) (q : Fin 64) : Bool :=
  let x := s.queues[q]
  !x.pendRecs.isEmpty && !x.held && (x.eqt + 2 ^ 32 - x.eqhead) % 2 ^ 32 < 2 ^ x.eqsize

/-- EVENT_RECORD_WRITE (R413, R414): the oldest record is written, then the count of records to EQTA; the launch leaves the
scoreboard. -/
def execEventRecordWrite (s : State) : Host.Outcome State Fault Refusal :=
  let q := queueFin (s.cur.args.headD 0)
  let x := s.queues[q]
  if !s.recordReady q then .next s
  else match x.pendRecs with
    | [] => .next s
    | r :: rest =>
      let bytes := r.2.flatMap fun w => bytesOf w.toNat 8
      if !(s.queueOk x.job false (x.eqbase.toNat + 32 * (x.eqt % 2 ^ x.eqsize)) 32 && s.queueOk x.job false x.eqta.toNat 8) then
        .next (s.setQueue q { x.fault with held := true })
      else match s.vwrite x.job (x.eqbase.toNat + 32 * (x.eqt % 2 ^ x.eqsize)) bytes with
      | .error _ => .next (s.setQueue q { x.fault with held := true })
      | .ok s1 => match s1.vwrite x.job x.eqta.toNat (bytesOf (x.eqt + 1) 8) with
        | .error _ => .next (s.setQueue q { x.fault with held := true })
        | .ok s2 =>
          let s3 := s2.setQueue q { x with pendRecs := rest, eqt := x.eqt + 1 }
          .next { s3 with launches := s3.launches.filter fun l => l.handle != r.1 || l.state != .done }

/-! ## Drains, saves and restores (R370, R371, R391 to R394) -/

/-- The drain limit in beats, as they now pass (R353, R370, R372). (Log: 93 DEDUCED.) -/
def State.drainBeats (s : State) : Nat := s.beatsOfNs (1000 * (s.drainlim.toNat % 2 ^ 32))

/-- Units of 64 KiB that a launch's context image takes (R392). -/
def Launch.imageUnits (l : Launch) : Nat :=
  let team := 256 + 128 * countBits (pf l.pkt 0x60 0 16) 16 + 64 * countBits (pf l.pkt 0x60 16 24) 24
  (4 + l.cids.length * team + 40 * l.grants.length + 63) / 64

/-- The first place of n units in the context pool that no image takes (R391, R392). -/
def State.poolPlace (s : State) (n : Nat) : Option Nat :=
  let used := s.launches.filterMap (·.image)
  (0 :: used.map fun x => x.1 + x.2).foldl (fun (best : Option Nat) a =>
    let fits := a + n ≤ s.ctxlen.toNat && !used.any fun x => a < x.1 + x.2 && x.1 < a + n
    match best with
    | none => if fits then some a else none
    | some b => if fits && a < b then some a else best) none

/-- A launch that a drain may name: it runs, or is in set-up, and no drain or cut of it is under way (R370, R373). -/
def Launch.drainable (l : Launch) : Bool := (l.state = .running || l.state = .setup) && l.drain.isNone && l.cut.isNone

/-- A drain of one launch begins (R370, R392): its image is allocated and its forced save is due at the limit, with the
freeze beat 512 beats later (R291). (Log: 93 DEDUCED.) -/
def State.drain (s : State) (h : Nat) : State :=
  match s.launch h with
  | none => s
  | some l =>
    if !l.drainable then s
    else
      let n := l.imageUnits
      let place := l.image.orElse fun _ => (s.poolPlace n).map fun a => (a, n)
      (s.modLaunch h fun l =>
        { l with state := if l.state = .running then .draining else l.state, drain := some s.now, image := place }).plan
        (s.now + s.drainBeats + 512) 0 [h] .forcedSave

/-- The launches that a priority-3 entry at the head of the order needs drained (R370): they hold a core or a
pseudo-channel that it needs, at the origin whose holders are fewest. -/
def State.needsDrained (s : State) : List Nat :=
  match s.readyList with
  | [] => []
  | l :: _ =>
    if l.prio ≠ 3 || emptyPatch l.pkt || !s.admits l || !s.placing then []
    else
      let e := packetExt l.pkt
      let holders := fun (o : Nat × Nat × Nat) => s.launches.filter fun x =>
        x.holds && (x.cids.any (fun c => (patchAt e o).contains c) || x.pcs.any fun c => l.pcs.contains c)
      let usable := l.origins.filter fun o => (patchAt e o).all (s.coreOpen l.job) && (holders o).all fun x => x.prio < 3
      match usable with
      | [] => []
      | o :: os =>
        let best := os.foldl (fun b o => if (holders o).length < (holders b).length then o else b) o
        ((holders best).filter Launch.drainable).map (·.handle)

/-- The launches of other jobs that hold a core of a reservation in force (R373). -/
def State.inReserved (s : State) : List Nat :=
  (s.launches.filter fun l => l.drainable && l.cids.any (s.reserved l.job)).map (·.handle)

/-- DRAIN_BEGIN (R370, R373). (Log: 93 DEDUCED.) -/
def execDrainBegin (s : State) : Host.Outcome State Fault Refusal :=
  .next ((s.needsDrained ++ s.inReserved).foldl (fun s h => s.drain h) s)

/-- A team of a launch that a cut must wait for: its Bodkin has a row group to arbitrate (R381). -/
def State.arbitrates (s : State) (h : Nat) : Bool := s.teams.any fun t => t.launch = h && t.failedGroup.isSome

/-- A launch whose set-up is dropped at the drain limit: it waits again for a place, saved if it was being restored (R370,
R373). (Log: 93 DEDUCED.) -/
def State.dropSetup (s : State) (h : Nat) : State :=
  let mine := fun (p : Pend) => p.cx.args = [h] && (p.act = .gangStart || p.act = .restore)
  let saved := s.agenda.any fun p => mine p && p.act = .restore
  let s := s.modLaunch h fun l =>
    if saved then { l with state := .saved, drain := none }
    else { l with state := .ready, drain := none, image := none, cids := [], savedTeams := [], savedPcs := [] }
  ({ s with agenda := s.agenda.filter fun p => !mine p } : State).retireFree

/-- FORCED_SAVE (R370, R381, R393): a launch still draining at the limit is cut at one beat, at which its elastic accesses
settle; its teams and its programs' places and open rows are kept, and it enters SAVED. With no place in the pool it is
cancelled (R392). -/
def execForcedSave (s : State) : Host.Outcome State Fault Refusal :=
  let h := s.cur.args.headD 0
  match s.launch h with
  | none => .next s
  | some l =>
    if l.drain.isNone || l.cut.isSome then .next s
    else if l.state = .setup then .next (s.dropSetup h)
    else if l.state != .draining then .next s
    else if l.image.isNone then .next (s.completeLaunch h 1)
    else if s.arbitrates h then
      let s := (s.teams.filter fun t => t.launch = h && t.failedGroup.isSome).foldl (fun (s : State) t =>
        if s.agenda.any fun p => p.act = .bodkinArbitration && p.cx.cid = t.cid then s
        else s.plan (s.now + t.bodkinBeats) t.cid [] .bodkinArbitration) s
      .next (s.plan (s.now + 1) 0 [h] .forcedSave)
    else match s.settling fun t => t.launch = h with
    | some s' => .next (s'.plan s.now 0 [h] .forcedSave)
    | none =>
      let s := (s.teams.filter fun t => t.launch = h).foldl (fun s t => s.cleanCache t.cid) s
      let teams := (s.teams.filter fun t => t.launch = h).map fun t => ({ t.invalidate with frozen := true } : Team)
      let mine := s.pcs.filter fun p => p.prog.any fun g => g.launch = h
      let f := match teams with
        | t :: _ => s.beatOf t
        | [] => 0
      let s := s.modLaunch h fun l => { l with state := .saved, savedTeams := teams, savedPcs := mine, savedBeat := f, drain := none }
      .next ({ s with teams := s.teams.filter fun t => t.launch != h, pcs := s.pcs.map fun p => p.release h s.now (s.pcClock p) } : State).retireFree

/-- A restored team at its restore pulse (R394): BEAT reads F, its schedule goes on where it stood, a pending trap or interrupt
is taken before any word issues, and a group whose handler runs stays frozen (R393). -/
def State.restoreTeam (s : State) (f : Word) (handlers : List Group) (t : Team) : Team :=
  let delta := (f - (s.die (dieOf t.cid)).beat).toInt
  { t with frozen := handlers.contains t.group, delta := delta,
           freezeReq := if t.traps.isEmpty && !t.takeable then t.freezeReq else some (t.clk - 512),
           cols := t.cols.map fun (x : Column) => ({ x with floor := max x.floor t.clk, tried := false } : Column) }

/-- RESTORE (R323, R371, R394): the saved launch runs again at its own cores; refresh counts start again, and its job's
translations are walked again (R402). (Log: 97 DEDUCED.) -/
def execRestore (s : State) : Host.Outcome State Fault Refusal :=
  let h := s.cur.args.headD 0
  match s.launch h with
  | none => .next s
  | some l =>
    if l.state != .setup || l.cut.isSome then .next s
    else
      let teams := l.savedTeams.map (s.restoreTeam l.savedBeat ((l.savedTeams.filter (·.handler)).map Team.group))
      let clk := match teams with
        | t :: _ => t.clk
        | [] => 0
      let s := teams.foldl (fun (s : State) t => { s with teams := insertTeam t s.teams }) s
      let s := l.savedPcs.foldl (fun (s : State) p =>
        let q := (s.pc p.pc).getD p
        s.putPc { p with winown := q.winown, queue := q.queue, busyTill := q.busyTill, t0 := if p.t0 = 0 then 0 else clk, refs := Vector.replicate 16 0, debt := Vector.replicate 16 0 }) s
      let s := s.modLaunch h fun l =>
        { l with state := l.onStart, savedTeams := [], savedPcs := [], image := if l.drain.isSome then l.image else none }
      let s : State := { s with tlb := s.tlb.filter fun x => x.job != l.job }
      let dies := (teams.map fun t => dieOf t.cid).eraseDups
      .next (dies.foldl (fun s z => s.traceAt l.job z none 3 1 7 0 l.savedBeat.toNat s.ns 0) s)

/-! ## Reservations (R372, R373) -/

/-- RESERVATION_WINDOW_START (R373): the reservation comes into force; other jobs' launches on its cores begin a drain. -/
def execReservationWindowStart (s : State) : Host.Outcome State Fault Refusal :=
  .next (s.inReserved.foldl (fun s h => s.drain h) s)

/-- RESERVATION_WINDOW_END (R373): after END the reservation holds no core any more, and nothing else changes: force is
judged by the clock. -/
def execReservationWindowEnd (s : State) : Host.Outcome State Fault Refusal := .next s

end Sys2Proof.Machine
end

