-- ==== Sys2Proof/Machine/Fabric.lean ====
section
/-! DEFINITION. Beyond the package: requests of programs at their completion (R266, R416 to R418), the fabric's resets,
responses and time-outs (R421), Reedlink frames and partners (R410, R419, R420), and accesses from outside to device memory
(R409, R460). -/

namespace Sys2Proof.Machine

/-! ## Accesses of an I/O-die engine (R345 to R348) -/

/-- A conflict of an engine's access resolved permissively: its trace record, of no column, and one more in the launch's
count (R348, R425). -/
def State.noteExt (s : State) (t : Team) (f : Nat × Nat × Nat) (va pa : Nat) : State :=
  let s := s.traceAt t.job (dieOf t.cid) none 7 f.1 7 0 (va + (256 * f.2.1 - pa)) (identOf t.ord t.cid 6) f.2.2
  s.modLaunch t.launch fun l => { l with conflicts := l.conflicts + 1 }

/-- What the records leave of an engine's access to some pieces: the trap of a strict launch, or each piece with the bits
that it may write, whether what it reads is tainted, and the state (R345 to R348). -/
def State.judgedExt (s : State) (t : Team) (a : RecAcc) : List Piece → Except Trap (List (Piece × Nat) × Bool × State)
  | [] => .ok ([], false, s)
  | p :: l =>
    if p.leaf.tgt ≠ 0 then
      match s.judgedExt t a l with
      | .error e => .error e
      | .ok r => .ok ((p, allBits p.n) :: r.1, r.2.1, r.2.2)
    else
      let v := s.judgeRecs (t.actor 6) a p.leaf.pa p.n
      match (if t.ndet = 2 then v.1.trap p.va p.leaf.pa else none) with
      | some e => .error e
      | none =>
        let s := v.1.found.foldl (fun s f => s.noteExt t f p.va p.leaf.pa) v.2
        let s := s.correctedRecs (some t) p.leaf.pa p.n
        let s := if a = .read then s.corrected (some t) p.leaf.pa p.n else s
        match s.judgedExt t a l with
        | .error e => .error e
        | .ok r => .ok ((p, v.1.enables p.leaf.pa p.n (allBits p.n)) :: r.1, v.1.taint || r.2.1, r.2.2)

/-- Bytes written into pieces under their enables; `tn` is the taint of a 32-byte unit of the list by its place (R338,
R351). -/
def State.extWrite (s : State) (x : List Byte) (off : Nat) (tn : Nat → Bool) : List (Piece × Nat) → State
  | [] => s
  | (p, en) :: l =>
    let v := natOfBytes ((x.drop off).take p.n)
    let s := if p.leaf.tgt = 0 then
        s.l2Write p.leaf.key p.leaf.pa p.n v en fun u => tn (off + (32 * u - p.leaf.pa))
      else s.beyondWrite p.leaf.tgt p.leaf.pa p.n v en
    s.extWrite x (off + p.n) tn l

/-- Some byte of a list of pieces in device memory is tainted, and the taint of the byte at a place of the list. -/
def State.extTaint (s : State) : List Piece → Nat → Bool
  | [], _ => false
  | p :: l, i =>
    if i < p.n then p.leaf.tgt = 0 && s.unitTaint ((p.leaf.pa + i) / 32) else s.extTaint l (i - p.n)

/-- What an engine does with a request: its completion's status, exceptions and taint with the state after it, or a
conflict trap of a strict launch (R347, R417). -/
abbrev ExtResult := Except Trap (Nat × Exc × Bool × State)

/-- The status of a failed translation or protection check (R417). -/
def extStatus (e : Trap) : Nat :=
  match e.1 with
  | .translation => 1
  | .ecc | .eccFound .. => 6
  | _ => 2

/-- A request that ends on a fault of one of its ends, with the check event that ECC makes of it (R417, R433, R438).
(Log: 25 DEDUCED.) -/
def State.extFail (s : State) (t : Team) (e : Trap) : ExtResult :=
  .ok (extStatus e, 0, false, match e.1 with
    | .eccFound kind unit => s.eccEvent t (kind, unit)
    | _ => s)

/-- Both ends of a request translated, and its source sound (R397 to R399, R438); `ok` says which targets the two may have. -/
def State.extEnds (s : State) (job src ns dst nd : Nat) (ok : Nat → Nat → Bool) : Except Trap (List Piece × List Piece) :=
  match s.anyTranslate job true false src ns, s.anyTranslate job false true dst nd with
  | .error e, _ => .error e
  | .ok _, .error e => .error e
  | .ok a, .ok b =>
    let a := cutAll a
    let b := cutAll b
    if !(a.all fun p => b.all fun q => ok p.leaf.tgt q.leaf.tgt) then .error (.protection, 0)
    else match (s.eccAt a).orElse fun _ => (a ++ b).findSome? fun p => if p.leaf.tgt = 0 then s.recEccTrap p.va p.leaf.pa p.n else none with
      | some e => .error e
      | none => .ok (a, b)

/-- A DMA copy moves raw bytes between device memory and memory of one target beyond it (R417). -/
def State.dmaCopy (s : State) (t : Team) (tgt d : Nat) : ExtResult :=
  let n := cpxFld d 4 0 64
  match s.extEnds t.job (cpxFld d 2 0 64) n (cpxFld d 3 0 64) n fun x y => (x = tgt && y = 0) || (x = 0 && y = tgt) with
  | .error e => s.extFail t e
  | .ok (src, dst) => match s.judgedExt t .read src with
    | .error e => .error e
    | .ok (_, rt, s1) => match s1.judgedExt t .write dst with
      | .error e => .error e
      | .ok (dest, _, s2) =>
        let bytes := src.flatMap s.pieceBytes
        let tn := fun (i : Nat) => rt || s.extTaint src i
        let any := rt || (List.range ((n + 31) / 32)).any fun i => s.extTaint src (32 * i) || s.extTaint src (min (n - 1) (32 * i + 31))
        .ok (0, 0, any, (s2.extWrite bytes 0 tn dest).markTaint t.cid any)

/-- The elements of a list of bytes, k bytes each. -/
def elementsOf (k : Nat) (l : List Byte) : Nat → List Nat
  | 0 => []
  | n + 1 => natOfBytes (l.take k) :: elementsOf k (l.drop k) n

/-- One destination element of a collective: the exact sum over all ranks rounded once, or their maximum or minimum
(R22, R47, R48, R52, R53, R418). -/
def collectElem (op : Nat) (ty : ElemTy) (mode : Mode) (l : List Nat) : Nat × Exc :=
  let vs := l.map (valOf ty)
  match op with
  | 0 => fpOut ty mode true (sumV mode vs)
  | 1 => fpOut ty mode true (vs.tail.foldl (pickV true) (vs.headD (.fin false 0 1)))
  | _ => fpOut ty mode true (vs.tail.foldl (pickV false) (vs.headD (.fin false 0 1)))

/-- What a rank submits beside its elements, as a contribution carries it: operation, type, rounding mode and the four bytes of the
count (R418). -/
def rankHead (d : Nat) : List Byte :=
  [BitVec.ofNat 8 (cpxFld d 0 16 8), BitVec.ofNat 8 (cpxFld d 0 32 4), BitVec.ofNat 8 (cpxFld d 0 24 3)] ++ bytesOf (cpxFld d 4 0 32) 4

/-- The other ranks' contributions in a response: for each a taint byte, the rank's operation, type, mode and count, and its
elements' bytes; none if one of these differs, or the response is not whole contributions of n bytes each (R418).
(Log: 101 DEDUCED.) -/
def ranksOf (head : List Byte) (n : Nat) : Nat → List Byte → Option (List (Bool × List Byte))
  | 0, _ => none
  | k + 1, l =>
    match l with
    | [] => some []
    | b :: r =>
      let x := r.drop head.length
      if r.take head.length ≠ head || x.length < n then none
      else (ranksOf head n k (x.drop n)).map fun y => (b != 0, x.take n) :: y

/-- A collective with every rank's elements at hand (R418): each destination element is one operation over all ranks, and a
difference in operation, type, mode or count gives status 7. (Log: 101 DEDUCED.) -/
def State.collect (s : State) (t : Team) (d : Nat) (data : List Byte) : ExtResult :=
  let n := cpxFld d 4 0 32
  let ty := (ElemTy.ofCode (cpxFld d 0 32 4)).getD .f32
  let k := ty.width / 8
  match ranksOf (rankHead d) (n * k) (data.length + 1) data with
  | none => .ok (7, 0, false, s)
  | some ranks =>
    match s.extEnds t.job (cpxFld d 2 0 64) (n * k) (cpxFld d 3 0 64) (n * k) fun _ _ => true with
    | .error e => s.extFail t e
    | .ok (src, dst) => match s.judgedExt t .read src with
      | .error e => .error e
      | .ok (_, rt, s1) => match s1.judgedExt t .write dst with
        | .error e => .error e
        | .ok (dest, _, s2) =>
          let all := (src.flatMap s.pieceBytes :: ranks.map fun r => r.2).map fun l => elementsOf k l n
          let out := (List.range n).map fun i => collectElem (cpxFld d 0 16 8) ty (cpxFld d 0 24 3) (all.map fun l => l.getD i 0)
          let exc := out.foldl (fun (e : Exc) x => e ||| x.2) 0
          let own := (List.range (n * k)).any (s.extTaint src)
          let any := rt || own || ranks.any fun r => r.1
          let bytes := out.flatMap fun x => bytesOf x.1 k
          .ok (0, exc, any, (s2.extWrite bytes 0 (fun _ => any) dest).markTaint t.cid any)

/-! ## Completion (R266, R421) -/

/-- The completion record of a request: status in byte 0, exceptions in byte 8, taint in byte 16 (R266). -/
def cpxRecord (status : Nat) (exc : Exc) (taint : Bool) : Nat :=
  status % 256 + exc.toNat * 2 ^ 64 + (if taint then 2 ^ 128 else 0)

/-- THE END OF A REQUEST (R266): the record is written into the scratchpad, the counter is incremented, and the word
performs. A record that may not land there is a landing's trap in cpy (R258). -/
def State.endCpx (s : State) (t : Team) (r : CpxReq) (status : Nat) (exc : Exc) (taint : Bool) : State :=
  let d := natOfBytes r.desc
  let a := cpxFld d 1 0 21
  let t := { t with cpx := t.cpx.filter fun x => x.id != r.id }
  let cells := (bytesOf (cpxRecord status exc taint) 32).zipIdx.map fun x => (a + x.2, x.1, false)
  let t := match t.landTrap t.cid (cells.map fun c => c.1) with
    | some e => t.pendTrap .cpy (t.col .cpy).head e.1 e.2 0 t.clk
    | none => t.putCells cells
  let t := if cpxFld d 1 21 1 = 1 then t.addCnt (BitVec.ofNat 5 (cpxFld d 1 22 5)) 1 else t
  (s.setTeam (t.signalAt r.cx t.clk)).watchSpad r.cx 2 true (match s.team t.cid with | some u => u.spad | none => []) a 32

/-- A request leaves the fabric. -/
def State.dropReq (s : State) (f : FabReq) : State :=
  { s with fabric := s.fabric.filter fun x => x.id != f.id,
           agenda := s.agenda.filter fun p =>
             !((p.act = .fabricTimeout || p.act = .cpxComplete) && p.cx.cid = f.cid && p.cx.id = f.req && p.cx.args = [f.launch]) }

/-- Where the team of a request stands: at work, in a saved context or a set-up, or gone (R371, R393). -/
inductive ReqHome where
  | live (t : Team) (r : CpxReq)
  | away
  | gone
  deriving DecidableEq, Repr

/-- Where a request's team stands; one with a trap pending or a handler running is away too, so that a request is made again
after it (R347). (Log: 103 DEDUCED.) -/
def State.reqHome (s : State) (f : FabReq) : ReqHome :=
  match (s.team f.cid).filter fun t => t.launch = f.launch with
  | some t => match t.cpx.find? fun x => x.id = f.req with
    | some r => if t.frozen || !t.traps.isEmpty then .away else .live t r
    | none => .gone
  | none => match s.launch f.launch with
    | some l => if l.savedTeams.any fun t => t.cid = f.cid then .away else .gone
    | none => .gone

/-- The bytes that a request reads and those that it writes, as far as they translate (R417). -/
def State.reqReach (s : State) (job : Nat) (r : CpxReq) : List Piece × List Piece :=
  let d := natOfBytes r.desc
  let n := if r.engine = 2 then cpxFld d 4 0 32 * (((ElemTy.ofCode (cpxFld d 0 32 4)).getD .f32).width / 8) else cpxFld d 4 0 64
  let at_ := fun (wr : Bool) (va : Nat) => match s.anyTranslate job (!wr) wr va n with
    | .ok l => l
    | .error _ => []
  (at_ false (cpxFld d 2 0 64), at_ true (cpxFld d 3 0 64))

/-- Two lists of pieces share a byte. -/
def piecesMeet (a b : List Piece) : Bool :=
  a.any fun p => b.any fun q =>
    p.leaf.tgt = q.leaf.tgt && decide (p.leaf.pa < q.leaf.pa + q.n) && decide (q.leaf.pa < p.leaf.pa + p.n)

/-- An earlier request of the team is still to complete that has the same class, or that writes a byte which this one reads or
writes, or reads one that it writes (R328 to R330). (Log: 103 DEDUCED.) -/
def State.cpxBefore (s : State) (t : Team) (r : CpxReq) : Bool :=
  let y := s.reqReach t.job r
  (t.cpx.takeWhile fun x => x.id != r.id).any fun x =>
    let z := s.reqReach t.job x
    x.cls = r.cls || piecesMeet z.2 (y.1 ++ y.2) || piecesMeet z.1 y.2

/-- What the demand sequencers have to serve for a request that reaches windows of running programs (R316, R325). -/
def State.reqAsks (s : State) (t : Team) (r : CpxReq) : List (Nat × DemandReq) :=
  let y := s.reqReach t.job r
  let at_ := fun (l : List Piece) => ((cutAll l).filter fun p => p.leaf.tgt = 0).map fun p => p.leaf.pa
  s.windowReqs t.cid r.id false (at_ y.1) ++ s.windowReqs t.cid r.id true (at_ y.2)

/-- The demand sequencers still have something to serve for a request. -/
def State.reqQueued (s : State) (t : Team) (r : CpxReq) : Bool := s.unserved t.cid r.id

/-- A request reads an L2 sector that an rd fills: it waits (R270). -/
def State.reqFilling (s : State) (t : Team) (r : CpxReq) : Bool :=
  ((cutAll (s.reqReach t.job r).1).filter fun p => p.leaf.tgt = 0).any fun p => s.filling p.leaf.pa p.n

/-- The event of a request made again later, in a phase. -/
def State.tryLater (s : State) (again : Pend) (ph : Phase) : State :=
  { s with agenda := insertPend { again with due := s.memDue s.now, cx := { again.cx with phase := ph } } s.agenda }.took

/-- Complete a request with what its engine finds; one behind an earlier request that orders it is tried again later, and
one that moves data waits until the demand sequencers have served what it reaches (R325, R330): one whose team is away is
made again later, and a conflict under strict raises the trap in the team, before the access, with the request made again
after it (R347). (Log: 76, 102, 103 DEDUCED.) -/
def State.completeReq (s : State) (f : FabReq) (moves : Bool) (again : Pend) (run : Team → CpxReq → ExtResult) : State :=
  match s.reqHome f with
  | .gone => s.dropReq f
  | .away => s.tryLater again again.cx.phase
  | .live t r =>
    let asks := if moves && again.cx.phase != .perform then s.reqAsks t r else []
    if s.cpxBefore t r || (moves && (s.reqQueued t r || s.reqFilling t r)) then s.tryLater again again.cx.phase
    else if !asks.isEmpty then (s.request asks).tryLater again .perform
    else match run t r with
    | .error e => (s.setTeam (t.pendTrap .cpy (t.col .cpy).head e.1 e.2 0 t.clk)).tryLater again again.cx.phase
    | .ok (st, exc, tn, s') => match s'.team t.cid with
      | some u => (s'.endCpx u r st exc tn).dropReq f
      | none => s'.dropReq f

/-- A request ends with a status and no other effect. -/
def State.failReq (s : State) (f : FabReq) (again : Pend) (status : Nat) : State :=
  s.completeReq f false again fun _ _ => .ok (status, 0, false, s)

/-- The request that the event being executed belongs to. -/
def State.curReq (s : State) : Option FabReq :=
  s.fabric.find? fun f => f.cid = s.cur.cid && f.req = s.cur.id && s.cur.args = [f.launch]

/-- No route joins the field that holds a request's team to the engine that accepted it (R416). -/
def State.engineLost (s : State) (f : FabReq) : Bool :=
  f.die = 8 || !(s.kensia.within [s.kensia.remapDie[dieFin (dieOf f.cid)]] 6).contains f.die

/-- A live Reedlink port has a partner (R417, R440). -/
def State.anyPartner (s : State) : Bool := s.partners.any fun p => !s.kensia.portDown p.1

/-- CPX_COMPLETE (R266, R416, R417): a host or peer DMA copy is made and its record written; a request that no route
reaches ends with status 3, and so does a peer's with no partner attached. (Log: 82, 104 DEDUCED.) -/
def execCpxComplete (s : State) : Host.Outcome State Fault Refusal :=
  match s.curReq with
  | none => .next s
  | some f =>
    let again : Pend := ⟨0, 0, s.cur, .cpxComplete⟩
    .next (s.completeReq f true again fun t r =>
      if s.engineLost f || (r.engine = 1 && !s.anyPartner) then .ok (3, 0, false, s)
      else s.dmaCopy t (r.engine + 1) (natOfBytes r.desc))

/-- The count of resets of a die (R421). -/
def State.resetsOf (s : State) (d : Nat) : Nat := s.resets[d % 8]'(Nat.mod_lt _ (by decide))

/-- FABRIC_RESPONSE (R418, R421): one with another count of resets than its die's is dropped and counted in STALE; one whose
request is no longer outstanding is dropped; any other completes its request with its status or with what it brings.
(Log: 101 DEDUCED.) -/
def execFabricResponse (id epoch status : Nat) (data : List (BitVec 8)) (s : State) : Host.Outcome State Fault Refusal :=
  let d := id % 8
  if epoch ≠ s.resetsOf d then
    .next { s with stale := s.stale.set (d % 8) (s.stale[d % 8]'(Nat.mod_lt _ (by decide)) + 1) (Nat.mod_lt _ (by decide)) }
  else match s.fabric.find? fun f => f.id = id with
    | none => .next s
    | some f =>
      let again : Pend := ⟨0, 0, s.cur, .fabricResponse id epoch status data⟩
      if status ≠ 0 then .next (s.failReq f again status)
      else .next (s.completeReq f true again fun t r =>
        if s.engineLost f then .ok (3, 0, false, s) else if r.engine = 2 then s.collect t (natOfBytes r.desc) data else s.dmaCopy t (r.engine + 1) (natOfBytes r.desc))

/-- FABRIC_TIMEOUT: no response within 10 ms completes the request with status 3; a request of a die that has been reset
(the model's die 9), whose team stood away at the reset, completes with status 4 (R421). -/
def execFabricTimeout (s : State) : Host.Outcome State Fault Refusal :=
  match s.curReq with
  | none => .next s
  | some f => .next (s.failReq f ⟨0, 0, s.cur, .fabricTimeout⟩ (if f.die = 9 then 4 else 3))

/-- DIE_RESET: the die's count rises modulo 256, and each of its requests outstanding, of its engines or of the teams on it,
completes with status 4 (R421). The die's number is 0 to 5 for d0 to d5, 6 for X0 and 7 for X1. -/
def execDieReset (s : State) : Host.Outcome State Fault Refusal :=
  let d := s.cur.args.headD 0 % 8
  let s : State := { s with resets := s.resets.set d ((s.resetsOf d + 1) % 256) (Nat.mod_lt _ (by decide)) }
  .next ((s.fabric.filter fun f => f.die = d || s.kensia.remapDie[dieFin (dieOf f.cid)] = d).foldl (fun s f =>
    let cx := { Cur.none with cid := f.cid, id := f.req, args := [f.launch] }
    match s.reqHome f with
    | .live t r => (s.endCpx t r 4 0 false).dropReq f
    | .gone => s.dropReq f
    | .away =>
      let s := s.dropReq f
      { s with fabric := s.fabric ++ [{ f with die := 9 }], agenda := insertPend ⟨s.memDue s.now, 0, cx, .fabricTimeout⟩ s.agenda }.took) s)

/-! ## Reedlink (R410, R419, R420) -/

/-- An FP16 or FP64 factor's bytes. -/
def factorBytes (ty : ElemTy) (v : Val) : List Byte := bytesOf (fpOut ty 0 false v).1 (ty.width / 8)

/-- The bytes of a block's unit: Q4 has 16 code bytes and a scale byte, C4 16 index bytes and an FP16 maximum (R419). -/
def unitBytes : Nat → Nat
  | 1 => 17
  | 2 => 18
  | _ => 72

/-- An expanded block: 32 FP16 factors and one FP64 factor (R419). -/
def expandUnit (code : Nat) (tau : Val) (book : List Nat) (u : List Byte) : List Byte :=
  let rd := fun (a : Nat) => (u.getD a 0).toNat
  let c := fun (i : Nat) => nibbleAt rd 0 i
  if code = 1 then
    let b := rd 16
    ((List.range 32).flatMap fun i => factorBytes .f16 (q4Code (b / 64 % 4) (c i))) ++ factorBytes .f64 (mulV (q4Sigma b) tau)
  else
    ((List.range 32).flatMap fun i => factorBytes .f16 (f16V (book.getD (c i) 0))) ++
      factorBytes .f64 (mulV (f16V (rd 16 + 256 * rd 17)) tau)

/-- Every unit of a frame expanded. -/
def expandAll (code : Nat) (tau : Val) (book : List Nat) : Nat → List Byte → List Byte
  | 0, _ => []
  | n + 1, l => if l.isEmpty then [] else expandUnit code tau book (l.take (unitBytes code)) ++ expandAll code tau book n (l.drop (unitBytes code))

/-- The neighbour on a port accepts a block format code: 0 and 3 always, 1 and 2 as it advertised (R419).
(Log: 107 DEDUCED.) -/
def State.accepts (s : State) (port code : Nat) : Bool :=
  code = 0 || code = 3 || s.partners.any fun p => p.1 = port && p.2.2.testBit (code - 1)

/-- The 32 exact values of a unit: a block's, or those of the expanded block that stands for it (R34, R37, R419). -/
def unitValues (code : Nat) (tau : Val) (book : List Nat) (u : List Byte) : List Val :=
  let e := if code = 3 then u else expandUnit code tau book u
  let factor := valOf .f64 (natOfBytes (e.drop 64))
  (List.range 32).map fun i => mulV (valOf .f16 (natOfBytes ((e.drop (2 * i)).take 2))) factor

/-- Every unit of a frame converted to a destination's format, a block of it at a time (R255, R420). -/
def arriveAll (code : Nat) (tau : Val) (book : List Nat) (d : LinkDest) : Nat → List Byte → List Byte
  | 0, _ => []
  | n + 1, l =>
    if l.isEmpty then []
    else
      let v := unitValues code tau book (l.take (unitBytes code))
      let out : Layout := { recordFields 0 with ty := d.ty, qt := d.qt, tscale := d.tscale.toNat, book := d.book, ext := [32, 1, 1, 1],
                                                strides := [(elemBytes d.ty : Int), 0, 0, 0] }
      ((out.encode (fun _ => 0) .f64 (valOf .f64 0) (fun i => (v[i]?, false)) (List.range 32)).1.map fun c => c.2.1) ++
        arriveAll code tau book d n (l.drop (unitBytes code))

/-- A frame's units as this device takes them: the receiving engine converts blocks to what their destination requires, and leaves
as they are raw units, and blocks whose stored form the destination shares (R255, R420). The second plane of a converted block
follows its first, as in a unit. (Log: 107 DEDUCED.) -/
def linkArrival (x : LinkUnits) : Nat × List Byte :=
  match x.dest with
  | none => (x.code, x.payload)
  | some d =>
    let own := if d.ty = .q4 then 1 else if d.ty = .c4 then 2 else 0
    if x.code = 0 || (x.code = own && d.tscale = x.tscale && (own = 1 || d.book = x.book)) then (x.code, x.payload)
    else (own, arriveAll x.code (f32V x.tscale.toNat) x.book d x.payload.length x.payload)

/-- LINK_FRAME (R410, R420, R433): a frame with a CRC error is retried, which is a check event on its lane; one of a minor
version above the agreed one, or on a port that is down, is dropped and counted; one for this device is delivered in the format
that its destination requires, and one that goes on is expanded where the next neighbour has not advertised its code.
(Log: 107 DEDUCED.) -/
def execLinkFrame (x : LinkUnits) (s : State) : Host.Outcome State Fault Refusal :=
  let s := match x.crc with
    | some lane => s.checkEvent ⟨2, 128 + 8 * (x.port % 16) + lane % 8⟩ 0x1A none 0 0
    | none => s
  let bad := fun (p : Nat) => s.kensia.portDown p || !s.partners.any fun q => q.1 = p
  if fld (s.vers[3]).toNat 16 8 < x.minor || bad x.port || (x.out.any bad) then .next { s with linkDrops := s.linkDrops + 1 }
  else match x.out with
    | none => .next { s with linkIn := s.linkIn ++ [(x.port, (linkArrival x).1, (linkArrival x).2)] }
    | some q =>
      if s.accepts q x.code then .next { s with linkOut := s.linkOut ++ [(q, x.code, x.payload)] }
      else .next { s with linkOut := s.linkOut ++ [(q, 3, expandAll x.code (f32V x.tscale.toNat) x.book x.payload.length x.payload)] }

/-- PARTNER_ATTACH (R410, R419): a partner of another major version cannot attach, nor one on a port that is down; another
is known by its minor version and the codes that it advertises. -/
def execPartnerAttach (port major minor codes : Nat) (s : State) : Host.Outcome State Fault Refusal :=
  if major ≠ 1 || 16 ≤ port || s.kensia.portDown port then .next s
  else .next { s with partners := (s.partners.filter fun p => p.1 != port) ++ [(port, minor, codes % 4)] }

/-! ## Accesses from outside (R338, R345, R409, R460) -/

/-- The record of a sector after an access from outside: a write of source 7 in the phase of the fields, or of the first job
where the record holds nothing (R345). -/
def State.recOutside (s : State) (sector : Nat) : State :=
  let b := recBits s.recs sector
  let job := match s.recs.find? fun r => r.1 = sector with
    | some r => r.2.2
    | none => (s.jobs.head?.map (·.job)).getD 0
  let ph := if b = 0 then s.phaseOf job else b % 2 ^ 16
  { s with recs := putRec sector (BitVec.ofNat 128 ({ recOf b ph with writer := some .other } : Rec).code, job) s.recs }

/-- The units of n bytes that an outside read finds uncorrectable are poisoned, each new one with its check event (R433, R438).
(Log: 162 DESIGN CHOICE.) -/
def State.hostEcc (s : State) (pa n : Nat) : State :=
  ((List.range (unitSpan pa n).2).map (pa / 32 + ·)).foldl (fun (s : State) u => match s.poisoned (32 * u) 32, s.eccCause u with
    | true, .eccFound kind unit => s.memEvent none kind unit
    | _, _ => s) (s.corrected none pa n)

/-- HOST_MEMORY_ACCESS: a host or peer access through BAR2, which maps the first 64 GiB, or through CXL.mem of a function that has
attached as a CXL device, is made at the L2, and a read gives the host its bytes; one that reaches an address of no memory, or one
before the functions attach, changes nothing and reads nothing (R331, R409, R438, R452, R460).
(Log: 105, 106 DEDUCED; 162 DESIGN CHOICE.) -/
def execHostMemoryAccess (pa len : Nat) (data : Option (List (BitVec 8))) (s : State) : Host.Outcome State Fault Refusal :=
  let n := match data with
    | some l => l.length
    | none => len
  let window := if s.kensia.cxl.toList.any id then 2 ^ 51 else 2 ^ 36
  if s.kensia.step ≠ 6 || window < pa + n || !s.rangeOk pa n then
    .next (if data.isNone then { s with hostData := none } else s)
  else
    let s := (sectorsOf pa n).foldl (fun (s : State) x => s.recOutside x) s
    match data with
    | none =>
      let bytes := if s.poisoned pa n then none else some (bytesOf (s.l2Read none pa n) n)
      .next { s.hostEcc pa n with hostData := bytes }
    | some l => .next (s.l2Write none pa n (natOfBytes l) (allBits n) fun _ => false)

/-- PTM_SLEW: NSCNT is slewed towards the host's time, by the 100 ppm that the tick applies, never stepped and never moved
backwards (R451). (Log: 109 DESIGN CHOICE.) -/
def execPtmSlew (t : Nat) (s : State) : Host.Outcome State Fault Refusal := .next { s with slew := (t : Int) - s.ns }

/-! ## Stale sector records (R344) -/

/-- A record's fields are of another phase than the one that its job is in. (Log: 108 DEDUCED.) -/
def State.staleRec (s : State) (r : Nat × BitVec 128 × Nat) : Bool := s.phaseOf r.2.2 != r.2.1.toNat % 2 ^ 16

/-- RECORD_WALK zeroes every stale sector record (R344). (Log: 108 DEDUCED.) -/
def execRecordWalk (s : State) : Host.Outcome State Fault Refusal :=
  .next { s with recs := s.recs.filter fun r => !s.staleRec r }

end Sys2Proof.Machine
end

