-- ==== Sys2Proof/Machine/Kensia.lean ====
section
/-! DEFINITION. Kensia: requests of ctl (R152, R153), retirement of units and the harvest log (R435 to R444), firmware,
lifecycle, keys and attestation (R453 to R461), and bring-up and power removal (R448, R452). -/

namespace Sys2Proof.Machine

/-- Element i of a vector, or a value where there is none. -/
def getAt {α : Type} {n : Nat} (v : Vector α n) (i : Nat) (d : α) : α := if h : i < n then v[i] else d

/-- A vector with element i replaced, if there is one. -/
def setAt {α : Type} {n : Nat} (v : Vector α n) (i : Nat) (x : α) : Vector α n := if h : i < n then v.set i x h else v

/-! ## fuse and kwipe (R152, R153) -/

/-- The device identity: the fused one, or the blank identity before it is generated (R455). -/
def Kensia.ident (k : Kensia) : List Word := if k.lifecycle = 0 then Config.serial :: List.replicate 7 0 else k.identity

/-- A fuse request outside its operation's range (R152). -/
def fuseBad (op top v : Nat) : Bool := fld v 56 8 ≠ op || fld v 16 40 ≠ 0 || top < fld v 0 16

/-- A fuse word: it performs within 60,000 beats of issue and its result is untainted (R152). -/
def fuseWord (s : State) (d a : SReg) (op top : Nat) (i : Instr) (val : Nat → Word) : Host.Outcome State Fault Refusal :=
  if s.cur.phase = .perform then
    onTeam s fun t =>
      let due := t.clock .ctl
      s.setTeam ((t.land s.cur due (.s d (val (s.cur.args.headD 0)) false)).signalAt s.cur due)
  else
    runWord s (fun _ t =>
      let v := (t.getS a).v.toNat
      { svc := true, regs := [.s d, .s a], reject := true, late := if fuseBad op top v then some (.bounds, 0) else none })
      fun s t =>
        let due := t.clock .ctl + 1 + Config.kensiaLatency s.free % 60000
        (s.setTeam (t.again s.cur due .perform [fld (t.getS a).v.toNat 0 16] i)).took

/-- FUSE.READ.WORD, and the fuse words of no operation, which raise the bounds trap (R152).
(Log: 128 DESIGN CHOICE.) -/
def execFuseReadWord (d a : SReg) (s : State) : Host.Outcome State Fault Refusal :=
  fuseWord s d a 0 1023 (.fuseReadWord d a) fun i => Config.fuseWord s.kensia.lifecycle s.kensia.unlocks i
/-- FUSE.READ.IDENTITY (R152, R455). -/
def execFuseReadIdentity (d a : SReg) (s : State) : Host.Outcome State Fault Refusal :=
  fuseWord s d a 1 7 (.fuseReadIdentity d a) fun i => s.kensia.ident.getD i 0
/-- FUSE.READ.LIFECYCLE (R152). -/
def execFuseReadLifecycle (d a : SReg) (s : State) : Host.Outcome State Fault Refusal :=
  fuseWord s d a 2 0 (.fuseReadLifecycle d a) fun _ => BitVec.ofNat 64 s.kensia.lifecycle

/-- The key slots without the one named, or, for 64, without any (R153). -/
def wipe (keys : Vector (Option (BitVec 512)) 64) (n : Nat) : Vector (Option (BitVec 512)) 64 :=
  if n = 64 then Vector.replicate 64 none else setAt keys n none

/-- A slot named holds a key (R153). -/
def holdsKey (keys : Vector (Option (BitVec 512)) 64) (n : Nat) : Bool :=
  if n = 64 then keys.toList.any (·.isSome) else (getAt keys n none).isSome

/-- KWIPE destroys a key slot, or all, in every rim; s_d receives 0 if a key was destroyed (R153).
(Log: 128 DESIGN CHOICE.) -/
def execKwipe (d a : SReg) (s : State) : Host.Outcome State Fault Refusal :=
  if s.cur.phase = .perform then
    onTeam s fun t =>
      let n := s.cur.args.headD 0
      let due := t.clock .ctl
      let none_ := !holdsKey s.kensia.keys n
      let s := s.setTeam ((t.land s.cur due (.s d (if none_ then 1 else 0) false)).signalAt s.cur due)
      { s with kensia := { s.kensia with keys := wipe s.kensia.keys n } }
  else
    runWord s (fun _ t =>
      { svc := true, regs := [.s d, .s a], reject := true,
        late := if 64 < (t.getS a).v.toNat then some (.bounds, 0) else none }) fun s t =>
      let due := t.clock .ctl + 1 + Config.kensiaLatency s.free
      (s.setTeam (t.again s.cur due .perform [(t.getS a).v.toNat] (.kwipe d a))).took

/-! ## Retirement (R436, R440 to R444) -/

/-- The signature of an entry of the harvest log under Kensia's device key (R442). -/
def signEntry (e : List Word) : List Byte := (List.range 4627).map (Config.mlDsaDevice (e.flatMap fun w => bytesOf w.toNat 8))

/-- One entry more in the harvest log, of at most 4096, with its signature (R442). A parked field, the model's kind 5, has no entry
of its own. -/
def State.harvest (s : State) (u : UnitId) (kind taker : Nat) : State :=
  let k := s.kensia
  let e : List Word := [BitVec.ofNat 64 (kind + u.kind * 2 ^ 8 + u.index * 2 ^ 16 + k.boots % 2 ^ 32 * 2 ^ 32),
    BitVec.ofNat 64 s.ns, BitVec.ofNat 64 taker, BitVec.ofNat 64 k.harvestLog.length]
  if u.kind = 5 || 4096 ≤ k.harvestLog.length then s
  else { s with kensia := { k with harvestLog := k.harvestLog ++ [e], harvestSig := k.harvestSig ++ [signEntry e] } }

/-- A unit is out of service and no longer marked (R440). (Log: 111 DEDUCED.) -/
def State.outOfService (s : State) (u : UnitId) : State :=
  let k := s.kensia
  { s with kensia := { k with marks := k.marks.filter fun m => m.1 != u, retired := if k.retired.contains u then k.retired else k.retired ++ [u] } }

/-- A logical core given to a physical core. -/
def State.assign (s : State) (c p : Nat) : State :=
  { s with kensia := { s.kensia with remapCore := (s.kensia.remapCore.filter fun x => x.1 != c) ++ [(c, p)] } }

/-- A logical core whose physical core is retired is given another of its field (R353, R440). -/
def State.settle (s : State) (c : Nat) : State :=
  if !s.kensia.retired.contains ⟨0, s.physCore c⟩ then s
  else match s.takerOf s.kensia.remapDie[dieFin (dieOf c)] with
    | none => s
    | some (p, shared) =>
      let s := s.assign c p
      if shared then State.paced { s with kensia := { s.kensia with interleave := true } } s.perBeat else s

/-- A logical die moved to the standing spare's field, or, with no spare, to the lowest field in use under beat interleave
(R353, R441); a field that serves no logical die any more is parked. (Log: 112 DEDUCED.) -/
def State.moveDie (s : State) (z : Fin 5) : State × Nat :=
  let k := s.kensia
  let old := k.remapDie[z]
  let live := (List.range 6).filter fun d => d ≠ old && !k.retired.contains ⟨5, d⟩
  match k.standing, live with
  | none, [] => (s, 0xFFFF)
  | st, l =>
    let dest := st.getD (l.headD old)
    let kept := k.remapCore.filter fun x => dieOf x.1 ≠ z.val
    let s : State := { s with kensia := { k with remapDie := k.remapDie.set z dest, remapCore := kept, interleave := k.interleave || st.isNone } }
    let s := s.paced (if k.interleave then 2 else 1)
    ((allCores.filter fun c => dieOf c = z.val).foldl (fun s c => s.settle c) s, dest)

/-- The logical dies that a physical core field serves. -/
def State.diesOf (s : State) (d : Nat) : List (Fin 5) := (List.finRange 5).filter fun z => s.kensia.remapDie[z] = d

/-- Hops of the shortest route between two compute dies when some edges have failed, or 6 with no route.
(Log: 110 DEDUCED.) -/
def hopsWith (failed : Nat → Bool) (a b : Nat) : Nat :=
  let next := fun (l : List Nat) => l ++ (List.range 7).flatMap fun e => match edgeDies e with
    | [x, y] => if failed e then [] else if l.contains x then [y] else if l.contains y then [x] else []
    | _ => []
  let grow := fun (n : Nat) => (List.range n).foldl (fun l _ => next l) [a]
  ((List.range 6).find? fun n => (grow n).contains b).getD 6

/-- A pair of fields has a route no longer than the worst that survives the failure of any one edge (R440).
(Log: 110 DEDUCED.) -/
def Kensia.routeOk (k : Kensia) (a b : Nat) : Bool :=
  hopsWith k.edgeFailed a b ≤ ((List.range 7).map fun e => hopsWith (· == e) a b).foldl max 0

/-- After a second failed edge, the field that is retired for want of a route: the highest-numbered one in use (R440).
(Log: 110 DEDUCED.) -/
def Kensia.unrouted (k : Kensia) : Option Nat :=
  let used := (List.range 6).reverse.filter fun d => k.remapDie.toList.contains d
  if 2 ≤ ((List.range 7).filter k.edgeFailed).length && used.any (fun a => used.any fun b => !k.routeOk a b) then used.head? else none

/-- Beat interleave ends when every logical core again has a physical core of its own (R353). -/
def State.restoreBeat (s : State) : State :=
  State.paced { s with kensia := { s.kensia with interleave := s.kensia.interleave && allCores.any fun c => s.load (s.physCore c) != 1 } } s.perBeat

/-- What follows a retirement: the end of interleave, HEALTH, a field without routes, and a rim with 32 pseudo-channels
retired (R440, R443, R444). -/
def State.afterRetirement (s : State) (kind : Nat) : State :=
  let s := s.restoreBeat.updateHealth (atOnceKind kind)
  let s := match s.kensia.unrouted with
    | some d => s.mark ⟨5, d⟩ kind
    | none => s
  match (List.range 6).find? fun d => !s.kensia.retired.contains ⟨4, d⟩ && 32 ≤ ((s.kensia.retiredOf 3).filter fun p => p / 128 = d).length with
  | some d => s.checkEvent ⟨4, d⟩ 0x30 none 0 0
  | none => s

/-- Every launch that holds one of some cores begins a drain (R370, R436). -/
def State.drainCores (s : State) (l : List Nat) : State :=
  (s.launches.filter fun x => x.holds && x.cids.any (l.contains ·)).foldl (fun s x => s.drain x.handle) s

/-- Beats of a millisecond (R449, R451). -/
def State.msBeats (s : State) : Nat := s.beatsOfNs 1000000

/-- A physical core's retirement (R440, R441): its logical core goes to a die spare; failing that, its logical die goes to
the standing spare once its launches are drained; failing that, beat interleave. -/
def State.retireCore (s : State) (idx kind : Nat) : State :=
  let u : UnitId := ⟨0, idx⟩
  let d := idx / 272
  let mine := allCores.filter fun c => s.physCore c = idx
  let off := s.outOfService u
  match mine with
  | [] => (off.harvest u kind 0xFFFF).afterRetirement kind
  | _ =>
    match off.takerOf d with
    | some (p, false) => ((mine.foldl (fun s c => s.settle c) (off.harvest u kind p))).afterRetirement kind
    | r =>
      if s.kensia.standing.isSome then
        let zs := s.diesOf d
        let cores := allCores.filter fun c => zs.any fun z => z.val = dieOf c
        if !s.coresFree cores then (s.drainCores cores).plan (s.now + s.msBeats) 0 [] (.unitRetirement u)
        else
          let dest := s.kensia.standing.getD 0xFFFF
          let s := zs.foldl (fun s z => (s.moveDie z).1) (off.harvest u kind dest)
          (s.outOfService ⟨5, d⟩).afterRetirement kind
      else (mine.foldl (fun s c => s.settle c) (off.harvest u kind (match r with | some (p, _) => p | none => 0xFFFF))).afterRetirement kind

/-- UNIT_RETIREMENT (R436, R440 to R443): a marked unit whose cores are free is retired. (Log: 113 DEDUCED.) -/
def execUnitRetirement (u : UnitId) (s : State) : Host.Outcome State Fault Refusal :=
  match s.kensia.marks.find? fun m => m.1 = u with
  | none => .next s
  | some m =>
    let kind := m.2.1
    if !s.coresFree (s.concerned u) then .next s
    else match u.kind with
      | 0 => .next (s.retireCore u.index kind)
      | 5 => .next (((s.diesOf u.index).foldl (fun s z => (s.moveDie z).1) (s.outOfService u)).afterRetirement kind)
      | _ => .next (((s.outOfService u).harvest u kind 0xFFFF).afterRetirement kind)

/-- RETIREMENT_DEADLINE (R436): Kensia starts a drain against every launch that holds the cores concerned, and looks
again for those still in set-up. (Log: 113 DEDUCED.) -/
def execRetirementDeadline (u : UnitId) (s : State) : Host.Outcome State Fault Refusal :=
  if !s.isMarked u then .next s
  else if s.coresFree (s.concerned u) then .next (s.plan s.now 0 [] (.unitRetirement u))
  else .next ((s.drainCores (s.concerned u)).plan (s.now + s.msBeats) 0 [] (.retirementDeadline u))

/-- The memory map re-formed over the live rims, which zeroes striped memory and leaves the window rows of live rims; a window
of a lost rim is gone (R315, R444). (Log: 114 DEDUCED.) -/
def State.reform (s : State) : State :=
  let keep := fun (pa : Nat) => 2 ^ 51 ≤ pa && s.addressable pa
  { s with kensia := { s.kensia with rimMap := s.liveRims }, mem := s.mem.filter fun c => keep c.1, memTaint := s.memTaint.filter fun u => keep (32 * u),
           poison := s.poison.filter fun u => keep (32 * u), recs := s.recs.filter fun r => keep (256 * r.1),
           l2 := s.l2.filter fun x => keep (256 * x.sector) }

/-- RIM_FAILURE (R433, R444): a failure that is not a marked unit's is logged; every launch ends with status 5, the field is
parked and its logical die moves, and WINOWN VALID is cleared for the rim's pseudo-channels; with a second operand of 1
service software re-forms the memory map over the live rims, in a free time after the failure. (Log: 114 DEDUCED.) -/
def execRimFailure (s : State) : Host.Outcome State Fault Refusal :=
  let d := s.cur.args.headD 0
  let u : UnitId := ⟨4, d⟩
  if s.cur.args.getD 1 0 = 1 then .next s.reform
  else if 6 ≤ d || s.kensia.retired.contains u then .next s
  else
    let kind := match s.kensia.marks.find? fun m => m.1 = u with
      | some m => m.2.1
      | none => 0x30
    let s := if s.isMarked u then s else s.checkEvent u 0x30 none 0 0
    let s := s.launches.foldl (fun (s : State) l => s.completeLaunch l.handle 5) s
    let zs := s.diesOf d
    let taker := s.kensia.standing.getD 0xFFFF
    let s := (((s.outOfService u).harvest u kind (if zs.isEmpty then 0xFFFF else taker)).outOfService ⟨5, d⟩)
    let s := zs.foldl (fun s z => (s.moveDie z).1) s
    let s : State := { s with pcs := s.pcs.map fun p => if p.pc / 128 = d then { p with winown := p.winown &&& ~~~1 } else p }
    .next (({ s with free := s.free + 1 } : State).updateHealth true |>.plan (s.now + Config.setupBeats s.free) 0 [d, 1] .rimFailure)

/-- RETREQ marks a unit of types 0 to 3; type 4 and unknown units are ignored (R437). -/
def execRetreq (v : Word) (s : State) : Host.Outcome State Fault Refusal :=
  let ty := fld v.toNat 16 3
  let n := fld v.toNat 0 16
  let known : Bool := match ty with
    | 0 => n < 1632
    | 1 => n < 192
    | 2 => n < 88 || (128 ≤ n && n < 256)
    | 3 => n < 768
    | _ => false
  .next (if known then s.mark ⟨ty, n⟩ 0xFF else s)

/-! ## Host memory as Kensia reaches it (R447) -/

/-- n bytes of host memory, or a fault where they run past the address space. (Log: 119 DEDUCED.) -/
def State.hostBytes (s : State) (a n : Nat) : Option (List Byte) := if 2 ^ 64 < a + n then none else some (readBytes s.host a n)

/-- A STATUS in a control register (R447). -/
def statusIn (w : Word) (st : Nat) : Word := (w &&& ~~~0xF0) ||| BitVec.ofNat 64 (16 * st)

/-! ## Firmware (R453) -/

/-- An image boots: it verifies, its floor is not above its version, and its version is at least FLOOR (R453). -/
def imageBoots (floor : BitVec 32) (l : List Byte) : Bool :=
  Config.imageGood l && (Config.imageFloor l).toNat ≤ (Config.imageVersion l).toNat && floor.toNat ≤ (Config.imageVersion l).toNat

/-- A malfunction of the part during bring-up step n, or of a flash write: an error of it for n = 16, its interruption for
17. It comes from outside the model, as an upset of place 9. (Log: 9 DESIGN CHOICE.) -/
def State.bringUpFault (s : State) (n : Nat) : Bool := s.upsets.any fun u => u.place = 9 && u.id = n

/-- FWCTL_GO (R447, R453): LEN is stored; a GO, unless one is busy, reads the staged image, verifies it and writes it to flash; in
recovery the module then resets. An interrupted write leaves an image that does not boot. (Log: 116 DEDUCED.) -/
def execFwctlGo (v : Word) (s : State) : Host.Outcome State Fault Refusal :=
  let len := fld v.toNat 8 32
  let w := (s.kensia.fwctl &&& 0xF0) ||| BitVec.ofNat 64 (len * 256)
  let done := fun (st : Nat) => ({ s with kensia := { s.kensia with fwctl := statusIn w st } } : State)
  if !v.getLsbD 0 || fld s.kensia.fwctl.toNat 4 4 = 1 then .next { s with kensia := { s.kensia with fwctl := w } }
  else match s.hostBytes s.kensia.fwaddr.toNat len with
    | none => .next (done 6)
    | some l =>
      if !Config.imageGood l || (Config.imageVersion l).toNat < (Config.imageFloor l).toNat then .next (done 3)
      else if (Config.imageVersion l).toNat < s.kensia.floor.toNat then .next (done 4)
      else if s.bringUpFault 16 then .next (done 5)
      else if s.bringUpFault 17 then .next { done 1 with kensia := { (done 1).kensia with image := l, torn := true } }
      else
        let s := done 2
        let s : State := { s with kensia := { s.kensia with image := l, torn := false } }
        .next (if s.kensia.step = 15 then s.plan s.now 0 [] .bringUp else s)

/-! ## Measurements, tokens and the lifecycle (R454 to R458) -/

/-- A measurement extended with an event of 64 bytes (R458). -/
def extend (m : BitVec 384) (e : List Byte) : BitVec 384 := Config.sha3x384 (bytesOf m.toNat 48 ++ e)

/-- An event: its type, two bytes, BOOTCNT and 48 bytes (R458). -/
def eventOf (type b1 b2 boots : Nat) (tail : List Byte) : List Byte :=
  bytesOf (type + b1 * 256 + b2 * 65536) 8 ++ bytesOf boots 8 ++ tail

/-- The bytes of a list of words. -/
def wordBytes (l : List Word) : List Byte := l.flatMap fun w => bytesOf w.toNat 8

/-- A fresh unlock nonce (R456). -/
def State.newNonce (s : State) : State :=
  { s with free := s.free + 4,
           kensia := { s.kensia with dnonce := (List.range 4).map fun i => Config.randomWord (s.free + i) } }

/-- The first four tests of a token of a scope, in order: the STATUS of the first that fails (R456).
(Log: 117 DEDUCED.) -/
def State.tokenStatus (s : State) (scope : Nat) : Nat :=
  let k := s.kensia
  match s.hostBytes k.unlkaddr.toNat 4739 with
  | none => 7
  | some b =>
    let at_ := fun (i : Nat) => (b.getD i 0).toNat
    let ident := (b.drop 8).take 64
    let nonce := (b.drop 72).take 32
    if !Config.mlDsaVerify (b.take 112) (b.drop 112) then 3
    else if ident ≠ wordBytes k.ident || at_ 2 ≠ k.lifecycle || nonce ≠ wordBytes k.dnonce then 4
    else if at_ 1 ≠ scope || (if scope = 1 then k.lifecycle ≠ 2 else 2 < k.lifecycle) then 6
    else if scope = 1 && !s.launches.isEmpty then 5
    else 2

/-- The token's lifecycle event measured in M2: states before and after, and the nonce (R458). -/
def State.measure (s : State) (type before after : Nat) : State :=
  let k := s.kensia
  let e := eventOf type before after k.boots (wordBytes k.dnonce ++ List.replicate 16 0)
  { s with kensia := { k with meas := k.meas.set 2 (extend k.meas[2] e) } }

/-- An attempt with a token ends: STATUS is written and the nonce replaced (R456). -/
def State.endToken (s : State) (st : Nat) : State :=
  ({ s with kensia := { s.kensia with unlkctl := BitVec.ofNat 64 (16 * st) } } : State).newNonce

/-- UNLOCK_DEBUG (R454, R456): a scope-1 token destroys every key slot, burns one bit of the unlock count, extends M2, and
opens the debug port. (Log: 116 DEDUCED.) -/
def execUnlockDebug (s : State) : Host.Outcome State Fault Refusal :=
  let st := s.tokenStatus 1
  if st ≠ 2 then .next (s.endToken st)
  else
    let k := s.kensia
    let s : State := { s with kensia := { k with keys := wipe k.keys 64, unlocks := k.unlocks + 1 } }
    let s := s.measure 0x10 2 3
    .next (({ s with kensia := { s.kensia with lifecycle := 3 } } : State).endToken st)

/-- The identity generated on leaving BLANK: the serial number and seven random words (R455). -/
def State.newIdentity (s : State) : State :=
  { s with free := s.free + 7,
           kensia := { s.kensia with identity := Config.serial :: (List.range 7).map fun i => Config.randomWord (s.free + i) } }

/-- The state that a scope-2 token fuses: PROVISIONED after BLANK, SEALED after PROVISIONED, RETURNED after SEALED (R454). -/
def nextLifecycle (n : Nat) : Nat := if n = 2 then 4 else n + 1

/-- ADVANCE_LIFECYCLE (R454 to R456): a scope-2 token fuses the next state and extends M2; leaving BLANK generates the
device identity. -/
def execAdvanceLifecycle (s : State) : Host.Outcome State Fault Refusal :=
  let st := s.tokenStatus 2
  if st ≠ 2 then .next (s.endToken st)
  else
    let old := s.kensia.lifecycle
    let s := s.measure 0x11 old (nextLifecycle old)
    let s := if old = 0 then s.newIdentity else s
    .next (({ s with kensia := { s.kensia with lifecycle := nextLifecycle old } } : State).endToken st)

/-- The debug port is open (R454). -/
def Kensia.debugOpen (k : Kensia) : Bool := k.lifecycle = 0 || k.lifecycle = 3 || k.lifecycle = 4

/-! ## Attestation (R459) and keys (R461) -/

/-- The 304 bytes of a report that its signature covers (R459). -/
def Kensia.report (k : Kensia) (nonce : List Byte) : List Byte :=
  bytesOf 1 8 ++ wordBytes k.ident ++ bytesOf k.lifecycle 8 ++ bytesOf k.boots 8 ++
  bytesOf (k.fwver.toNat % 2 ^ 32 + k.floor.toNat * 2 ^ 32) 8 ++ bytesOf k.health.toNat 8 ++ bytesOf k.unlocks 8 ++
  (k.meas.toList.flatMap fun m => bytesOf m.toNat 48) ++ nonce ++ List.replicate 16 0

/-- ATTCTL_GO (R455, R459): a report with the caller's nonce is written at ADDR + 64; in BLANK its signature is zero.
(Log: 116 DEDUCED.) -/
def execAttctlGo (v : Word) (s : State) : Host.Outcome State Fault Refusal :=
  let k := s.kensia
  let a := k.attaddr.toNat
  let done := fun (st : Nat) (s : State) => ({ s with kensia := { s.kensia with attctl := BitVec.ofNat 64 (16 * st) } } : State)
  if !v.getLsbD 0 then .next s
  else match s.hostBytes a 32 with
    | none => .next (done 7 s)
    | some nonce =>
      if 2 ^ 64 < a + 64 + 4931 then .next (done 7 s)
      else
        let r := k.report nonce
        let sig := (List.range 4627).map fun i => if k.lifecycle = 0 then 0 else Config.mlDsaSign r i
        .next (done 2 { s with host := layBytes s.host (a + 64) (r ++ sig) })

/-- KEYCTL_GO (R454, R461): an empty slot receives the key, in SEALED only, and its source is zeroed.
(Log: 116, 118, 119 DEDUCED.) -/
def execKeyctlGo (v : Word) (s : State) : Host.Outcome State Fault Refusal :=
  let k := s.kensia
  let slot := fld v.toNat 8 6
  let a := k.keyaddr.toNat
  let done := fun (st : Nat) (s : State) =>
    ({ s with kensia := { s.kensia with keyctl := BitVec.ofNat 64 (slot * 256 + 16 * st) } } : State)
  if !v.getLsbD 0 then .next { s with kensia := { k with keyctl := BitVec.ofNat 64 (slot * 256) ||| (k.keyctl &&& 0xF0) } }
  else if k.lifecycle ≠ 2 then .next (done 4 s)
  else if holdsKey k.keys slot then .next (done 3 s)
  else match s.hostBytes a 64 with
    | none => .next (done 7 s)
    | some b =>
      let s : State := { s with kensia := { k with keys := setAt k.keys slot (some (BitVec.ofNat 512 (natOfBytes b))) },
                                host := clearRange s.host a (a + 64) }
      .next (done 2 s)

/-! ## Bring-up and power (R448, R452) -/

/-- What power removal keeps: fuses and flash; the outside of the module goes on (R447, R452, R454). -/
def State.unpowered (s : State) : State :=
  let k := s.kensia
  let kept : Kensia := { Kensia.reset with
    lifecycle := if k.lifecycle = 3 then 2 else k.lifecycle, floor := k.floor, unlocks := k.unlocks, identity := k.identity,
    image := k.image, torn := k.torn, boots := k.boots, harvestLog := k.harvestLog, harvestSig := k.harvestSig, remapDie := k.remapDie, remapCore := k.remapCore,
    retired := k.retired, interleave := k.interleave }
  { State.reset with
    now := s.now, host := s.host, inputs := s.inputs, temps := s.temps, upsets := s.upsets, free := s.free, kensia := kept }

/-- POWER_OFF: module power is removed, and every memory content is lost (R448). (Log: 122, 127 DESIGN CHOICE.) -/
def execPowerOff (s : State) : Host.Outcome State Fault Refusal := .next s.unpowered

/-- Units that fail training in step 3 (R452). -/
def State.untrained (s : State) : List UnitId :=
  (s.upsets.filter fun u => u.place = 9 && u.id = 3).map fun u => ⟨u.x.toNat % 8, u.x.toNat / 8⟩

/-- Step 1: the fuses are read and BOOTCNT is counted; NSCNT starts at 0 (R451, R452). -/
def State.bringUp1 (s : State) : State :=
  let s : State := { s with nsThirds := 0, nsOffset := 0, slew := 0,
                            kensia := { s.kensia with step := 1, boots := s.kensia.boots + 1,
                                                      meas := Vector.replicate 3 0, err := if s.bringUpFault 1 then 1 else 0 } }
  s.newNonce

/-- Step 2: the image is verified, measured in M0, and started, or the module comes up in recovery (R453, R458). -/
def State.bringUp2 (s : State) : State :=
  let k := s.kensia
  if !k.torn && imageBoots k.floor k.image then
    let d := bytesOf (Config.sha3x384 k.image).toNat 48
    { s with kensia := { k with step := 2, fwver := (Config.imageVersion k.image).setWidth 64,
                                meas := k.meas.set 0 (extend k.meas[0] (eventOf 1 0 0 k.boots d)) } }
  else { s with kensia := { k with step := 15 } }

/-- Step 3: every die's reset count rises, and a unit that fails training is retired (R421, R452). -/
def State.bringUp3 (s : State) : State :=
  let s : State := { s with kensia := { s.kensia with step := 3 }, resets := s.resets.map fun n => (n + 1) % 256 }
  s.untrained.foldl (fun s u => s.mark u 0xFF) s

/-- The memory map formed over the live rims (R315, R452). -/
def State.formMap (s : State) : State := { s with kensia := { s.kensia with rimMap := s.liveRims } }

/-- A retirement of the harvest log made again: its unit is out of service, and the logical cores it served go where R440, R441 and
R444 put them. -/
def State.replay (s : State) (u : UnitId) : State :=
  let d := u.index / 272
  let gone := s.outOfService u
  let fieldLost := fun (s : State) (d : Nat) => ((s.diesOf d).foldl (fun s z => (s.moveDie z).1) s).outOfService ⟨5, d⟩
  let next := match u.kind with
    | 0 =>
      let mine := allCores.filter fun c => s.physCore c = u.index
      if mine.isEmpty then gone
      else match gone.takerOf d with
        | some (_, false) => mine.foldl (fun s c => s.settle c) gone
        | _ => if s.kensia.standing.isSome then fieldLost gone d else mine.foldl (fun s c => s.settle c) gone
    | 4 => fieldLost (gone.outOfService ⟨5, u.index⟩) u.index
    | _ => gone
  (match next.kensia.unrouted with
    | some d => fieldLost next d
    | none => next).restoreBeat

/-- The remap rebuilt from the harvest log (R442, R452). -/
def State.rebuild (s : State) : State :=
  s.kensia.harvestLog.foldl (fun (s : State) e => s.replay ⟨fld (e.headD 0).toNat 8 3, fld (e.headD 0).toNat 16 16⟩)
    { s with kensia := { s.kensia with remapDie := Kensia.reset.remapDie, remapCore := [], retired := [], interleave := false } }

/-- The harvest log verifies: each entry has its signature (R442). -/
def State.logVerifies (s : State) : Bool := s.kensia.harvestLog.map signEntry = s.kensia.harvestSig && !s.bringUpFault 4

/-- Step 4: the harvest log is verified and measured in M1, the remap is rebuilt from it, memory is zeroed, and HEALTH is set (R442,
R452, R458). -/
def State.bringUp4 (s : State) : State :=
  let k := s.kensia
  if !s.logVerifies then { s with kensia := { k with step := 15, err := 4 } }
  else
    let d := bytesOf (Config.sha3x384 (k.harvestLog.flatMap wordBytes)).toNat 48
    let k := { k with step := 4, meas := k.meas.set 1 (extend k.meas[1] (eventOf 2 0 0 k.boots d)) }
    ({ s with kensia := k, mem := [], memTaint := [], poison := [], recs := [], l2 := [] } : State).rebuild.formMap.updateHealth false

/-- Step 5, once STEP shows it: the functions attach, FLOOR is fused up to the image's floor, the power controller starts and the
device is ready; a failure sets ERR 5 and the step is made again (R409, R449, R452, R453). -/
def State.bringUp5 (s : State) : State :=
  let k := s.kensia
  if s.bringUpFault 5 then
    { s with kensia := { k with err := 5 }, upsets := s.upsets.filter fun u => !(u.place = 9 && u.id = 5) }
  else
    let f := Config.imageFloor k.image
    let s : State := { s with kensia := { k with step := 6, err := 0, cxl := #v[Config.attachesCxl 0, Config.attachesCxl 1], floor := if k.floor.toNat < f.toNat then f else k.floor } }
    s.plan (s.now + s.msBeats) 0 [] .powerCheck

/-- BRING_UP makes the next step of R452; at a module reset, with the module ready, in recovery or stopped at STEP 1, it starts
again. (Log: 1 DEDUCED; 122 DESIGN CHOICE.) -/
def execBringUp (s : State) : Host.Outcome State Fault Refusal :=
  let s := if 6 ≤ s.kensia.step || (s.kensia.step = 1 && s.kensia.err = 1) then { s.unpowered with resets := s.resets } else s
  match s.kensia.step with
  | 0 => .next s.bringUp1
  | 1 => .next s.bringUp2
  | 2 => .next s.bringUp3
  | 3 => .next s.bringUp4
  | 4 => .next { s with kensia := { s.kensia with step := 5 } }
  | _ => .next s.bringUp5

end Sys2Proof.Machine
end

