-- ==== Sys2Proof/Machine/Power.lean ====
section
/-! DEFINITION. Power states (R448), throttling (R292, R449), emergency freezes (R450), and debug stops (R430, R431). -/

namespace Sys2Proof.Machine

/-- The hot debt of every running program is paid while its rim refreshes (R321, R323). -/
def State.payDebts (s : State) : State :=
  { s with pcs := s.pcs.map fun p => { p with debt := Vector.replicate 16 0 } }

/-! ## Stretches (R292, R449) -/

/-- A stream somewhere is in timed mode (R292). -/
def State.anyTimed (s : State) : Bool := s.groups.any s.groupTimed

/-- A stretch is under way (R292). -/
def State.stretched (s : State) : Bool := 0 < s.kensia.stretchLeft

/-- STRETCH: the stretch asked for is inserted (R292). (Log: 123 DEDUCED.) -/
def execStretch (s : State) : Host.Outcome State Fault Refusal :=
  match s.kensia.stretchReq with
  | none => .next s
  | some n =>
    .next { s with kensia := { s.kensia with stretchReq := none, stretchLeft := min n (2 ^ 20), stretchFrom := some s.ns } }

/-- STRETCH_END: the whole beats of the stretch have gone by; its record is written for every die of every traced job
(R292, R425, R449). (Log: 83 DEDUCED.) -/
def execStretchEnd (s : State) : Host.Outcome State Fault Refusal :=
  match s.kensia.stretchFrom with
  | none => .next s
  | some n =>
    let s := (s.jobDies (List.range 5)).foldl (fun (s : State) x =>
      s.traceAt x.1 x.2 none 2 0 7 0 (s.die x.2).beat.toNat n s.ns) s
    .next ({ s with kensia := { s.kensia with stretchLeft := 0, stretchFrom := none } } : State).payDebts

/-- POWER_CHECK: once a millisecond the mean power is compared with the limit, and a stretch is requested above it (R449). -/
def execPowerCheck (s : State) : Host.Outcome State Fault Refusal :=
  let avg := Config.meanPower s.free
  let s : State := { s with free := s.free + 1, kensia := { s.kensia with pwravg := avg.setWidth 64 } }
  let s := if s.kensia.pwrlim.toNat < avg.toNat then s.askStretch else s
  .next (s.plan (s.now + s.msBeats) 0 [] .powerCheck)

/-! ## Emergencies (R450) -/

/-- The number by which an EMERGENCY_CLEAR names the cause that has gone. -/
def emergencyCode : Emergency → Nat
  | .thermal => 0 | .hbmTemp => 1 | .undervolt => 2 | .hotDebt => 3

/-- EMERGENCY_FREEZE_REQUEST (R450): the first cause asks for the freeze at its beat plus 512, and its timeout is set; another is
served by the same freeze, which lasts until every cause has gone. (Log: 124 DEDUCED.) -/
def execEmergencyFreezeRequest (c : Emergency) (s : State) : Host.Outcome State Fault Refusal :=
  let more : Kensia := { s.kensia with causes := if s.kensia.causes.contains c then s.kensia.causes else s.kensia.causes ++ [c] }
  match s.kensia.emergency with
  | some _ => .next { s with kensia := more }
  | none =>
    let s : State := { s with kensia := { more with emergency := some (c, s.now), emergencyLate := 0 } }
    .next (s.plan (s.now + s.msBeats * (s.kensia.emgto.toNat % 2 ^ 32)) 0 [s.now] .emergencyTimeout)

/-- The freeze of an emergency begins on this beat: its ns is noted, and a hot debt, which is paid in the freeze, is gone 10
ms later (R321, R450). (Log: 124 DEDUCED.) -/
def State.emergencyBegins (s : State) : State :=
  match s.kensia.emergency with
  | none => s
  | some (_, b) =>
    if s.now ≠ b + 512 + s.kensia.emergencyLate then s
    else
      let s : State := { s with kensia := { s.kensia with emergencyNs := s.ns } }
      if s.kensia.causes.contains .hotDebt then s.plan (s.now + 10 * s.msBeats) 0 [emergencyCode .hotDebt] .emergencyClear else s

/-- A launch holds cores (R448). -/
def State.working (s : State) : Bool := s.launches.any (·.holds)

/-- RIMS is requested and no launch is in SETUP, RUNNING or DRAINING (R448). -/
def State.rimsDue (s : State) : Bool := s.kensia.pwrst = 0x100 && !s.working

/-- The module enters RIMS, or waits for its launches with the request kept; the request is bit 8 of the model's word
(R448). (Log: 122 DESIGN CHOICE.) -/
def State.askRims (s : State) : State :=
  { s with kensia := { s.kensia with pwrst := if s.working then 0x100 else 1 } }

/-- EMERGENCY_CLEAR: the cause that it names, or with no name every cause, has been absent for 10 ms; when none is left the freeze
ends, its record is written, and traps requested within it are taken before any stream issues (R291, R450).
(Log: 124 DEDUCED.) -/
def execEmergencyClear (s : State) : Host.Outcome State Fault Refusal :=
  match s.kensia.emergency with
  | none => .next s
  | some (_, b) =>
    let left := match s.cur.args with
      | [] => []
      | n :: _ => s.kensia.causes.filter fun c => emergencyCode c ≠ n
    if !s.halted then .next (s.plan (b + 512 + s.kensia.emergencyLate) 0 s.cur.args .emergencyClear)
    else if !left.isEmpty then .next { s with kensia := { s.kensia with causes := left } }
    else
      let s := (s.jobDies (List.range 5)).foldl (fun (s : State) x =>
        s.traceAt x.1 x.2 none 1 3 7 0 (s.die x.2).beat.toNat s.kensia.emergencyNs s.ns) s
      let rims := s.kensia.rimsNext
      let s : State := { s with kensia := { s.kensia with emergency := none, causes := [], rimsNext := false },
                                teams := s.teams.map fun t => { t with freezeReq := t.freezeReq.map fun _ => t.clk - 512 } }
      .next (if rims then s.payDebts.askRims else s.payDebts)

/-- EMERGENCY_TIMEOUT: the cause lasts past TO; every running launch ends as by a cancel, and RIMS follows (R450).
(Log: 124 DEDUCED.) -/
def execEmergencyTimeout (s : State) : Host.Outcome State Fault Refusal :=
  match s.kensia.emergency with
  | none => .next s
  | some (_, b) =>
    if s.cur.args ≠ [b] then .next s
    else
      let run := s.launches.filter fun l => l.state = .running || l.state = .draining
      let s := run.foldl (fun (s : State) l => s.completeLaunch l.handle 1) s
      .next { s with kensia := { s.kensia with rimsNext := true } }

/-! ## Power states (R448) -/

/-- PWRST_REQ_RIMS: placement stops, and the state changes once no launch is in SETUP, RUNNING or DRAINING (R448). -/
def execPwrstReqRims (s : State) : Host.Outcome State Fault Refusal := .next (if s.kensia.pwrst = 1 then s else s.askRims)

/-- PWRST_REQ_FULL: the core fields are powered and each die's BEAT starts again at 0; in FULL it has no effect (R448). -/
def execPwrstReqFull (s : State) : Host.Outcome State Fault Refusal :=
  .next (if s.kensia.pwrst = 1 then
      { s with kensia := { s.kensia with pwrst := 0 }, dies := s.dies.map fun d => { d with beat := 0 } }
    else s)

/-! ## Debug stops (R430, R431) -/

/-- The launch of a slot's job that an ordinal of the current phase names (R431). -/
def State.stopTarget (s : State) (n : Fin 64) : Option Launch :=
  let job := (s.jid[n]).toNat
  let ord := (s.dstop[n]).ctl.toNat % 2 ^ 32
  if !(s.jroot[n]).getLsbD 0 then none
  else match s.job job with
    | none => none
    | some j => (s.launches.filter fun l => l.job = job && l.phase = j.phase && l.ord % 2 ^ 32 = ord &&
        (l.state = .running || l.state = .draining)).getLast?

/-- DSTOP_STOP: every group and stream of the launch freezes 512 beats after this beat, all of them then, whatever request
one of them holds already; one that names no live launch, or one already stopped, is ignored (R430, R431). -/
def execDstopStop (s : State) : Host.Outcome State Fault Refusal :=
  let n := queueFin (s.cur.args.headD 0)
  match s.stopTarget n with
  | none => .next s
  | some l =>
    if s.dstop.toList.any fun d => d.launch = some l.handle then .next s
    else .next { s with dstop := s.dstop.set n { s.dstop[n] with launch := some l.handle },
                        teams := s.teams.map fun t =>
                          if t.launch = l.handle then { t with freezeReq := some t.clk } else t }

/-- DSTOP_RESUME: the stop ends and every stream resumes with BEAT at F; a trap requested within it is taken first (R431).
(Log: 125 DEDUCED.) -/
def execDstopResume (s : State) : Host.Outcome State Fault Refusal :=
  let n := queueFin (s.cur.args.headD 0)
  match s.dstop[n].launch with
  | none => .next s
  | some h =>
    if !s.dstop[n].ctl.getLsbD 33 then .next s
    else .next { s with dstop := s.dstop.set n ⟨s.dstop[n].ctl &&& 0xFFFFFFFF, none⟩,
                        teams := s.teams.map fun t =>
                          if t.launch = h && (!t.traps.isEmpty || t.takeable) then { t with freezeReq := some t.clk } else t }

end Sys2Proof.Machine
end

