-- ==== Sys2Proof/Machine/Manage.lean ====
section
/-! DEFINITION. The registers that the outside reads and writes: the management space (R308, R314, R372, R391, R396, R401,
R405, R410 to R415), the observation space (R422 to R431), and Kensia's index space (R437, R447, R461). -/

namespace Sys2Proof.Machine

/-- The registers of R411 answer: bring-up has reached STEP 6 (R452). -/
def State.answers (s : State) : Bool := s.kensia.step = 6

/-- An event of the outside to be carried out on this beat. -/
def State.soon (s : State) (args : List Nat) (i : Instr) : State := s.plan s.now 0 args i

/-- A job has a live launch: one on the scoreboard that has not completed. -/
def State.jobLive (s : State) (job : Nat) : Bool := s.launches.any fun l => l.job = job && l.state != .done

/-! ## Versions (R410) -/

/-- VERSi as a read gives it (R410). -/
def State.versRead (s : State) (i : Nat) : Word :=
  if i < 5 then getAt s.vers i 0 ||| BitVec.ofNat 64 ((Config.versHigh i).toNat * 256 + 1) else 0

/-- VERS_WRITE: MINOR is written unless it is above HIGH, and AGREED is set (R410). -/
def execVersWrite (i : Nat) (v : Word) (s : State) : Host.Outcome State Fault Refusal :=
  let m := fld v.toNat 16 8
  if !s.answers || 5 ≤ i || (Config.versHigh i).toNat < m then .next s
  else .next { s with vers := setAt s.vers i (BitVec.ofNat 64 (m * 2 ^ 16 + 2 ^ 24)) }

/-! ## Reservations (R372, R373) -/

/-- Two reservation slots cover a common core (R372). -/
def rsvMeet (a b : Word) : Bool :=
  let f := fun (w : Word) (lo n : Nat) => fld w.toNat lo n
  Nat.land (f a 1 5) (f b 1 5) ≠ 0 && f a 6 4 ≤ f b 14 4 && f b 6 4 ≤ f a 14 4 && f a 10 4 ≤ f b 18 4 && f b 10 4 ≤ f a 18 4

/-- A slot's fields allow VALID to be set (R372). -/
def State.rsvOk (s : State) (n : Nat) (v st en : Word) : Bool :=
  let f := fun (lo k : Nat) => fld v.toNat lo k
  f 6 4 ≤ f 14 4 && f 10 4 ≤ f 18 4 && f 1 5 ≠ 0 && st.toNat < en.toNat &&
  !(List.finRange 16).any fun m =>
    let r := s.rsv[m]
    m.val ≠ n && r[0].getLsbD 0 && decide (r[0].toNat / 2 ^ 32 ≠ v.toNat / 2 ^ 32) && rsvMeet r[0] v &&
    decide (r[1].toNat < en.toNat) && decide (st.toNat < r[2].toNat)

/-- The beat at which the wall clock reaches a number of thirds of a nanosecond (R451). -/
def State.beatAt (s : State) (thirds : Nat) : Nat := s.now + (thirds - s.thirds + (if s.kensia.interleave then 1 else 0)) / (if s.kensia.interleave then 2 else 1)

/-- RSVCTL_WRITE: while VALID is set only VALID is written; VALID is set only with consistent fields (R372, R373). -/
def execRsvctlWrite (n : Nat) (v : Word) (s : State) : Host.Outcome State Fault Refusal :=
  if !s.answers || 16 ≤ n then .next s
  else
    let r := getAt s.rsv n (Vector.replicate 3 0)
    let set := fun (w : Word) => ({ s with rsv := setAt s.rsv n (r.set 0 w) } : State)
    if r[0].getLsbD 0 then .next (if v.getLsbD 0 then s else set (r[0] &&& ~~~1))
    else
      let w := v &&& 0xFFFFFFFF003FFFFF
      if v.getLsbD 0 && s.rsvOk n v r[1] r[2] then
        let s := set w
        let s := s.plan (s.beatAt (3 * r[1].toNat - s.rsvLead)) 0 [n] .reservationWindowStart
        .next (s.plan (s.beatAt (3 * r[2].toNat)) 0 [n] .reservationWindowEnd)
      else .next (set (w &&& ~~~1))

/-! ## Root slots, windows and their geometry (R314, R396, R401) -/

/-- JROOT_WRITE: ignored while the slot's job has a live launch; one that sets VALID is ignored unless the base addresses
striped memory and no other valid slot has the job (R396). -/
def execJrootWrite (n : Nat) (v : Word) (s : State) : Host.Outcome State Fault Refusal :=
  let job := (getAt s.jid n 0).toNat
  let base := fld v.toNat 16 36 * 65536
  let twin := (List.finRange 64).any fun m => m.val ≠ n && (s.jroot[m]).getLsbD 0 && (s.jid[m]).toNat = job
  if !s.answers || 64 ≤ n || s.jobLive job then .next s
  else if v.getLsbD 0 && (2 ^ 51 ≤ base || !s.rangeOk base 65536 || twin) then .next s
  else .next { s with jroot := setAt s.jroot n (v &&& 0xFFFFFFFFF0001) }

/-- A write of JIDn (R396). -/
def State.jidWrite (s : State) (n : Nat) (v : Word) : State :=
  if s.jobLive (getAt s.jid n 0).toNat then s else { s with jid := setAt s.jid n (v &&& 0xFFFFFFFF) }

/-- WINOWN_WRITE: ignored while a live launch holds a grant of the pseudo-channel; VALID cannot be set for a retired one or
for one of a lost rim (R401, R440, R444). -/
def execWinownWrite (p : Nat) (v : Word) (s : State) : Host.Outcome State Fault Refusal :=
  if !s.answers || 768 ≤ p || s.launches.any (fun l => l.state != .done && l.pcs.contains p) then .next s
  else
    let w := v &&& 0xFFFFFFFF00000001
    let w := if s.kensia.retired.contains ⟨3, p⟩ || s.kensia.retired.contains ⟨4, p / 128⟩ then w &&& ~~~1 else w
    .next (s.putPc { (s.pc p).getD (blankPc p) with winown := w })

/-- The physical address of a place when every bank has w window rows (R313, R315). -/
def State.addressOf (s : State) (w : Nat) (x : Place) : Nat :=
  if x.row < w then windowPa x.pc x.row x.bank x.col
  else
    let l := s.kensia.rimMap
    let hi := (x.row - w) / 4
    let g := hi * 128 + Nat.xor (foldPc (hi * 128)) (x.pc % 128)
    (g * l.length + l.idxOf (x.pc / 128)) * 65536 + (x.row - w) % 4 * 16384 + x.bank * 1024 + x.col * 32

/-- The physical address that names a byte of memory once every bank has w window rows (R314, R315). -/
def State.rehome (s : State) (w pa : Nat) : Option Nat := (s.placeOf pa).map fun x => s.addressOf w x + pa % 32

/-- WROWS set to w: what each row of a bank holds stays in the row, and its address moves with it; the L2 keeps its copies
of rows that stay in the window (R314, R315, R316). (Log: 115 DEDUCED.) -/
def State.moveRows (s : State) (w : Nat) : State :=
  if w = s.wrows then s
  else
    let units := fun (l : List Nat) => l.foldl (fun m u => match s.rehome w (32 * u) with
      | some a => setUnit m (a / 32) true
      | none => m) []
    { s with
      wrows := w
      mem := s.mem.foldl (fun m c => match s.rehome w c.1 with
        | some a => writeByte m a c.2
        | none => m) []
      memTaint := units s.memTaint
      poison := units s.poison
      upsets := s.upsets.map fun u => if u.place = 7 then { u with id := ((s.rehome w (32 * u.id)).getD (32 * u.id)) / 32 } else u
      recs := s.recs.foldl (fun m r => match s.rehome w (256 * r.1) with
        | some a => putRec (a / 256) r.2 m
        | none => m) []
      l2 := s.l2.filter fun x => s.rehome w (256 * x.sector) = some (256 * x.sector) }

/-- WINGEO_WRITE: WROWS changes only while no root slot and no owner is valid, and is at most NROWS (R314).
(Log: 115 DEDUCED.) -/
def execWingeoWrite (v : Word) (s : State) : Host.Outcome State Fault Refusal :=
  let w := fld v.toNat 0 18
  let busy := s.jroot.toList.any (·.getLsbD 0) || s.pcs.any fun p => p.winown.getLsbD 0
  .next (if !s.answers || busy || s.nrows < w then s else s.moveRows w)

/-! ## Apertures (R308, R309) -/

/-- An element type of a whole number of bytes (R309 views 0, 2 and 4). -/
def wholeType (ty : ElemTy) : Bool := !ty.isSub && 8 ≤ ty.width

/-- Bytes of an aperture's buffer (R30, R309). -/
def Aperture.buffer (a : Aperture) : Nat :=
  if a.view = 1 || a.view = 3 then
    (if a.stype.isSub then secondPlane a.count + a.count / perSecond a.stype else storedBytes a.stype a.count)
  else a.len

/-- An aperture's fields allow VALID to be set (R31, R308, R309, R460). (Log: 121 DEDUCED.) -/
def State.apertureOk (s : State) (a : Aperture) : Bool :=
  let scaled := a.stype = .q4 || a.stype = .c4
  let same := wholeType a.stype && decide (a.vtype.width = a.stype.width)
  let tile := 1 ≤ a.texp && a.texp ≤ 8
  let e := fld a.tscale 23 8
  (match a.view with
   | 0 => same
   | 1 => (scaled || a.stype = .e4m3 || a.stype = .e5m2) && (a.vtype = .bf16 || a.vtype = .f32) && !a.wen
   | 2 => same && tile
   | 3 => (a.stype = .e3m2 || a.stype = .e2m3) && a.vtype = a.stype
   | 4 => same && tile
   | _ => false) &&
  (!scaled || (fld a.tscale 31 1 = 0 && e ≠ 255 && a.tscale ≠ 0)) && s.rangeOk a.pbase a.buffer

/-- The aperture registers of a logical die with one replaced (R308). -/
def State.setAperture (s : State) (z n i : Nat) (v : Word) : State :=
  let d := getAt s.dies z s.dies[0]
  let r := getAt d.apertures n (Vector.replicate 4 0)
  { s with dies := setAt s.dies z { d with apertures := setAt d.apertures n (setAt r i v) } }

/-- APCTL_WRITE sets VALID only with every field within its limits (R308). -/
def execApctlWrite (die n : Nat) (v : Word) (s : State) : Host.Outcome State Fault Refusal :=
  if !s.answers || 5 ≤ die || 16 ≤ n then .next s
  else
    let w := v &&& 0xFFFFFFFF00FFFFFF
    let r := getAt (getAt s.dies die s.dies[0]).apertures n (Vector.replicate 4 0)
    let ok := s.apertureOk (apertureOf (r.set 3 w))
    .next (s.setAperture die n 3 (if ok then w else w &&& ~~~1))

/-! ## Invalidation of translations (R405) -/

/-- XINV_GO: a write of XINV: ignored while BUSY; GO starts an invalidation (R405). -/
def execXinvGo (v : Word) (s : State) : Host.Outcome State Fault Refusal :=
  if !s.answers || s.xinv.getLsbD 1 then .next s
  else
    let w := v &&& 0xFFFFFFFF0000000C
    if !v.getLsbD 0 then .next { s with xinv := w }
    else .next (({ s with xinv := w ||| 2 } : State).plan (s.memDue s.now) 0 [] .xinvComplete).took

/-- Some leaf that an invalidation names is in use: a drain has translated it and has still to perform (R404, R405).
(Log: 8 DESIGN CHOICE.) -/
def State.leafInUse (s : State) (scope job va : Nat) : Bool :=
  (s.teams ++ s.launches.flatMap fun l => l.savedTeams).any fun t =>
    let used := (t.engine.flatMap fun j => j.recs.flatMap fun l => l.pages) ++
      (t.border.filter fun r => !r.released).flatMap fun r => r.pages
    dropLeaves scope job va used != used

/-- XINV_COMPLETE: no TLB holds a named leaf any more and BUSY clears, once every drain that has translated such a leaf has
performed; every other access of this model performs when it translates (R405). (Log: 8 DESIGN CHOICE.) -/
def execXinvComplete (s : State) : Host.Outcome State Fault Refusal :=
  let w := s.xinv.toNat
  let s' : State := { s with tlb := dropLeaves (fld w 2 2) (fld w 32 32) s.xinvva.toNat s.tlb }
  if s.leafInUse (fld w 2 2) (fld w 32 32) s.xinvva.toNat then .next (s'.plan (s.memDue s.now) 0 [] .xinvComplete).took
  else .next { s' with xinv := s.xinv &&& ~~~2 }

/-! ## Host queues (R412 to R415) -/

/-- QCTL_WRITE: JOB and SVC are written while VALID is clear; ERR is cleared by a 1; RESUME restarts a stopped queue and its
held records (R412 to R414). -/
def execQctlWrite (q : Nat) (v : Word) (s : State) : Host.Outcome State Fault Refusal :=
  if !s.answers || 64 ≤ q then .next s
  else
    let x := s.queues[queueFin q]
    let keep := x.qctl.getLsbD 0
    let bound := (if keep then x.qctl else v) &&& 0xFFFFFFFF00000010
    let err := if v.getLsbD 1 then 0 else x.qctl &&& 2
    let stop := if v.getLsbD 3 then 0 else x.qctl &&& 4
    .next (s.setQueue (queueFin q) { x with qctl := bound ||| (v &&& 1) ||| err ||| stop, held := x.held && !v.getLsbD 3 })

/-- ERR set in a queue (R412). -/
def State.queueErr (s : State) (q : Fin 64) : State := s.setQueue q { s.queues[q] with qctl := s.queues[q].qctl ||| 2 }

/-- SUBMIT: a tail at most 2^LOG entries beyond HEAD and not behind TAIL is taken; any other write sets ERR (R412). -/
def execSubmit (q : Nat) (v : Word) (s : State) : Host.Outcome State Fault Refusal :=
  if !s.answers || 64 ≤ q then .next s
  else
    let f := queueFin q
    let x := s.queues[f]
    let ahead := fun (t : Nat) => (t + 2 ^ 32 - x.qhead) % 2 ^ 32
    let t := fld v.toNat 0 32
    if ahead t ≤ 2 ^ x.qsize && ahead x.tail ≤ ahead t then .next (s.setQueue f { x with tail := t })
    else .next (s.queueErr f)

/-- HOSTINT sets TIP[0] of the live team that the ordinal of the queue's job and the core name; with none it sets ERR
(R389, R415). -/
def execHostint (q : Nat) (v : Word) (s : State) : Host.Outcome State Fault Refusal :=
  if !s.answers || 64 ≤ q then .next s
  else
    let f := queueFin q
    match s.teamNamed s.queues[f].job (fld v.toNat 32 32) (fld v.toNat 0 11) with
    | some t => .next (s.setTeam (t.pendInt 1))
    | none => .next (s.queueErr f)

/-- log2 of a queue's size: 4 to 16; another value leaves the field (R412). -/
def sizeLog (old v : Nat) : Nat := if 4 ≤ v && v ≤ 16 then v else old

/-- A write to a register of a queue block that has no row of its own (R412). -/
def State.queueWrite (s : State) (q : Fin 64) (off : Nat) (v : Word) : State :=
  let x := s.queues[q]
  let w := v.toNat
  let free := !x.qctl.getLsbD 0
  match off with
  | 0x00 => s.soon [] (.qctlWrite q.val v)
  | 0x08 => if free then s.setQueue q { x with qbase := BitVec.ofNat 64 (fld w 6 49 * 64) } else s
  | 0x10 => if free then s.setQueue q { x with qsize := sizeLog x.qsize (fld w 0 5) } else s
  | 0x20 => s.soon [] (.submit q.val v)
  | 0x28 => if free then s.setQueue q { x with eqbase := BitVec.ofNat 64 (fld w 5 50 * 32) } else s
  | 0x30 => if free then s.setQueue q { x with eqsize := sizeLog x.eqsize (fld w 0 5) } else s
  | 0x38 => if free then s.setQueue q { x with eqta := BitVec.ofNat 64 (fld w 3 52 * 8) } else s
  | 0x40 => s.setQueue q { x with eqhead := fld w 0 32 }
  | 0x48 => s.soon [] (.hostint q.val v)
  | _ => s

/-- A register of a queue block as a read gives it (R412). -/
def HQueue.read (x : HQueue) (off : Nat) : Word :=
  match off with
  | 0x00 => x.qctl
  | 0x08 => x.qbase
  | 0x10 => BitVec.ofNat 64 x.qsize
  | 0x18 => BitVec.ofNat 64 x.qhead
  | 0x28 => x.eqbase
  | 0x30 => BitVec.ofNat 64 x.eqsize
  | 0x38 => x.eqta
  | 0x40 => BitVec.ofNat 64 x.eqhead
  | _ => 0

/-! ## The management space (R411) -/

/-- A value brought between two bounds. -/
def clampN (lo hi x : Nat) : Nat := max lo (min hi x)

/-- The context pool may be moved: no launch is SAVED and its range addresses striped memory (R391, R460). -/
def State.poolOk (s : State) (base len : Nat) : Bool :=
  !(s.launches.any fun l => l.state = .saved) && base + 65536 * len ≤ 2 ^ 51 && s.rangeOk base (65536 * len)

/-- A write to a register of the package block (R372, R391, R405, R410). -/
def State.packageWrite (s : State) (a : Nat) (v : Word) : State :=
  let w := v.toNat
  if a < 0x28 then s.soon [] (.versWrite (a / 8) v)
  else if a = 0x100 then { s with drainlim := BitVec.ofNat 64 (clampN 100 1000000 (fld w 0 32)) }
  else if 0x200 ≤ a && a < 0x400 then
    let n := (a - 0x200) / 32
    let r := getAt s.rsv n (Vector.replicate 3 0)
    match a % 32 with
    | 0 => s.soon [] (.rsvctlWrite n v)
    | 8 => if r[0].getLsbD 0 then s else { s with rsv := setAt s.rsv n (r.set 1 v) }
    | 16 => if r[0].getLsbD 0 then s else { s with rsv := setAt s.rsv n (r.set 2 v) }
    | _ => s
  else if a = 0x800 then
    let b := fld w 16 36 * 65536
    if s.poolOk b s.ctxlen.toNat then { s with ctxbase := BitVec.ofNat 64 b } else s
  else if a = 0x808 then
    if s.poolOk s.ctxbase.toNat (fld w 0 32) then { s with ctxlen := BitVec.ofNat 64 (fld w 0 32) } else s
  else if a = 0x900 then s.soon [] (.xinvGo v)
  else if a = 0x908 then (if s.xinv.getLsbD 1 then s else { s with xinvva := BitVec.ofNat 64 (fld w 0 55) })
  else s

/-- A write to the management space (R411). -/
def State.mgmtWrite (s : State) (a : Nat) (v : Word) : State :=
  let w := v.toNat
  if a % 8 ≠ 0 then s
  else if a < 0x10000 then s.packageWrite a v
  else if a < 0x14000 then s.queueWrite (queueFin ((a - 0x10000) / 256)) (a % 256) v
  else if a < 0x20000 then s
  else if a < 0x24000 then
    let n := (a - 0x20000) / 256
    let o := a % 256
    if o = 0 then s.soon [] (.jrootWrite n v)
    else if o = 8 then s.jidWrite n v
    else if 0x80 ≤ o then { s with mbx := setAt s.mbx n (setAt (getAt s.mbx n (Vector.replicate 16 0)) ((o - 0x80) / 8) v) }
    else s
  else if 0x30000 ≤ a && a < 0x31800 then s.soon [] (.winownWrite ((a - 0x30000) / 8) v)
  else if a = 0x38000 then s.soon [] (.wingeoWrite v)
  else if 0x40000 ≤ a && a < 0x40A00 then
    let z := (a - 0x40000) / 512
    let n := (a - 0x40000) / 32 % 16
    match a % 32 with
    | 0 => s.setAperture z n 0 (BitVec.ofNat 64 (fld w 16 39 * 65536))
    | 8 => s.setAperture z n 1 v
    | 16 => s.setAperture z n 2 (BitVec.ofNat 64 (fld w 16 36 * 65536))
    | _ => s.soon [] (.apctlWrite z n v)
  else s

/-- WINGEO as a read gives it (R314). -/
def State.wingeo (s : State) : Word := BitVec.ofNat 64 (s.wrows + s.nrows * 2 ^ 32)

/-- A register of the management space as a read gives it; before STEP 6 every read gives 0 (R411, R452). -/
def State.mgmtRead (s : State) (a : Nat) : Word :=
  if a % 8 ≠ 0 || !s.answers then 0
  else if a < 0x28 then s.versRead (a / 8)
  else if a = 0x100 then s.drainlim
  else if 0x200 ≤ a && a < 0x400 then getAt (getAt s.rsv ((a - 0x200) / 32) (Vector.replicate 3 0)) (a % 32 / 8) 0
  else if a = 0x800 then s.ctxbase
  else if a = 0x808 then s.ctxlen
  else if a = 0x900 then s.xinv
  else if a = 0x908 then s.xinvva
  else if 0x10000 ≤ a && a < 0x14000 then s.queues[queueFin ((a - 0x10000) / 256)].read (a % 256)
  else if 0x20000 ≤ a && a < 0x24000 then
    let n := (a - 0x20000) / 256
    let o := a % 256
    if o = 0 then getAt s.jroot n 0 else if o = 8 then getAt s.jid n 0
    else if 0x80 ≤ o then getAt (getAt s.mbx n (Vector.replicate 16 0)) ((o - 0x80) / 8) 0 else 0
  else if 0x30000 ≤ a && a < 0x31800 then
    match s.pc ((a - 0x30000) / 8) with
    | some p => p.winown
    | none => 0
  else if a = 0x38000 then s.wingeo
  else if 0x40000 ≤ a && a < 0x40A00 then
    getAt (getAt (getAt s.dies ((a - 0x40000) / 512) s.dies[0]).apertures ((a - 0x40000) / 32 % 16) (Vector.replicate 4 0)) (a % 32 / 8) 0
  else 0

/-! ## The observation space (R422 to R431) -/

/-- A trace ring's range addresses striped memory (R426, R460). -/
def State.traceOk (s : State) (base log : Nat) : Bool := base + 32 * 2 ^ log ≤ 2 ^ 51 && s.rangeOk base (32 * 2 ^ log)

/-- A write to a trace block (R426). -/
def State.traceWrite (s : State) (n : Fin 64) (off : Nat) (v : Word) : State :=
  let x := s.traces[n]
  let w := v.toNat
  let set := fun (y : Trace) => ({ s with traces := s.traces.set n y } : State)
  match off with
  | 0x00 =>
    let b := fld w 12 40 * 4096
    if x.on || !s.traceOk b x.log then s else set { x with base := BitVec.ofNat 64 b }
  | 0x08 =>
    let en := fld w 0 1
    let log := if !x.on && 7 ≤ fld w 1 5 && fld w 1 5 ≤ 24 then fld w 1 5 else x.log
    if !s.traceOk x.base.toNat log then s
    else set { x with size := BitVec.ofNat 64 (2 * log + en), last := if x.on then x.last else Vector.replicate 5 none }
  | 0x18 => set { x with head := w }
  | 0x20 => set { x with drop := w }
  | _ => s

/-- A register of a trace block as a read gives it (R426). -/
def Trace.read (x : Trace) (off : Nat) : Word :=
  match off with
  | 0x00 => x.base
  | 0x08 => x.size
  | 0x10 => BitVec.ofNat 64 x.tail
  | 0x18 => BitVec.ofNat 64 x.head
  | 0x20 => BitVec.ofNat 64 x.drop
  | _ => 0

/-- A write to DSTOP: ORD is written unless STOPPED; STOP and RESUME act on this beat (R431). -/
def State.dstopWrite (s : State) (n : Fin 64) (v : Word) : State :=
  let x := s.dstop[n]
  let s : State := if x.ctl.getLsbD 33 then s
    else { s with dstop := s.dstop.set n { x with ctl := BitVec.ofNat 64 (fld v.toNat 0 32) } }
  let s := if v.getLsbD 32 then s.soon [n.val] .dstopStop else s
  if v.getLsbD 34 then s.soon [n.val] .dstopResume else s

/-- A watchpoint's register after a write: the reserved bits of WPCTL stay 0, and SPACE 2 or 3 leaves EN clear (R428). -/
def watchWord (i : Nat) (v : Word) : Word :=
  if i ≠ 0 then v
  else
    let w := v &&& 0xFFFFFFFF000001FF
    if 2 ≤ fld v.toNat 1 2 then w &&& ~~~1 else w

/-- A write to a core block: counters and watchpoints (R423, R424, R428). -/
def State.coreWrite (s : State) (cid off : Nat) (v : Word) : State :=
  let o := s.coreObs cid
  if off < 0xA0 then
    let row := getAt o.classes (off / 32) (Vector.replicate 4 0)
    s.setObs cid { o with classes := setAt o.classes (off / 32) (setAt row (off % 32 / 8) v.toNat) }
  else if 0x100 ≤ off && off < 0x378 then s.setObs cid { o with waits := setAt o.waits ((off - 0x100) / 8) v.toNat }
  else if 0x400 ≤ off && off < 0x500 && off % 64 < 40 then
    let w := (off - 0x400) / 64
    let i := off % 64 / 8
    let o := o.keepWatch (s.team cid)
    s.setObs cid { o with watch := setAt o.watch w (setAt (getAt o.watch w (Vector.replicate 5 0)) i (watchWord i v)) }
  else s

/-- A register of a core block as a read gives it (R423, R424, R428, R431). -/
def CoreObs.read (o : CoreObs) (off : Nat) : Word :=
  if off < 0xA0 then BitVec.ofNat 64 (getAt (getAt o.classes (off / 32) (Vector.replicate 4 0)) (off % 32 / 8) 0)
  else if 0x100 ≤ off && off < 0x378 then BitVec.ofNat 64 (getAt o.waits ((off - 0x100) / 8) 0)
  else if 0x400 ≤ off && off < 0x500 then getAt (getAt o.watch ((off - 0x400) / 64) (Vector.replicate 5 0)) (off % 64 / 8) 0
  else if 0x800 ≤ off && off < 0x828 then getAt o.heads ((off - 0x800) / 8) 0
  else if off = 0x828 then o.stopF
  else 0

/-- A write to the observation space (R422). -/
def State.obsWrite (s : State) (a : Nat) (v : Word) : State :=
  if a % 8 ≠ 0 then s
  else if a < 0x1000 then s.traceWrite (queueFin (a / 64)) (a % 64) v
  else if 0x10000 ≤ a && a < 0x11000 && a % 64 = 0 then s.dstopWrite (queueFin ((a - 0x10000) / 64)) v
  else if 0x100000 ≤ a && a < 0x100000 + 4096 * 1280 then s.coreWrite ((a - 0x100000) / 4096) (a % 4096) v
  else s

/-- A register of the observation space as a read gives it (R422). -/
def State.obsRead (s : State) (a : Nat) : Word :=
  if a % 8 ≠ 0 then 0
  else if a < 0x1000 then (s.traces[queueFin (a / 64)]).read (a % 64)
  else if 0x10000 ≤ a && a < 0x11000 then (if a % 64 = 0 then s.dstop[queueFin ((a - 0x10000) / 64)].ctl else 0)
  else if 0x80000 ≤ a && a < 0x80040 then BitVec.ofNat 64 (getAt s.stale ((a - 0x80000) / 8) 0)
  else if 0x90000 ≤ a && a < 0x91800 then
    match s.pc ((a - 0x90000) / 8) with
    | some p => p.stopPos
    | none => 0
  else if 0x100000 ≤ a && a < 0x100000 + 4096 * 1280 then (s.coreObs ((a - 0x100000) / 4096)).read (a % 4096)
  else 0

/-! ## Kensia's index space (R437, R447, R461) -/

/-- The indexes that recovery offers: R437's, FWADDR and FWCTL (R453). -/
def State.offers (s : State) (i : Nat) : Bool :=
  s.kensia.step = 6 || (s.kensia.step = 15 && (i < 0x100 || i = 0x138 || i = 0x140))

/-- Dword j of record i of a log of records that ends at a tail (R437). -/
def logDword (l : List (List Word)) (tail i j : Nat) : Word :=
  if tail ≤ i || i + l.length < tail then 0 else (l.getD (i + l.length - tail) []).getD j 0

/-- A register of Kensia's index space as a read gives it (R437, R447, R461). -/
def State.kensiaRead (s : State) (i : Nat) : Word :=
  let k := s.kensia
  let core := k.rmapIdx
  if !s.offers i || i % 8 ≠ 0 then 0
  else if i = 0x000 then k.health
  else if i = 0x008 then k.cethr
  else if i = 0x010 then k.retdl
  else if i = 0x018 then BitVec.ofNat 64 k.clogTail
  else if i = 0x020 then BitVec.ofNat 64 k.clogIdx
  else if 0x028 ≤ i && i ≤ 0x040 then logDword k.checkLog k.clogTail k.clogIdx ((i - 0x028) / 8)
  else if i = 0x050 then BitVec.ofNat 64 k.harvestLog.length
  else if i = 0x058 then BitVec.ofNat 64 k.hlogIdx
  else if 0x060 ≤ i && i ≤ 0x078 then logDword k.harvestLog k.harvestLog.length k.hlogIdx ((i - 0x060) / 8)
  else if i = 0x088 then BitVec.ofNat 64 core
  else if i = 0x090 then
    (if 1280 ≤ core then 0 else BitVec.ofNat 64 (s.physCore core % 2 ^ 16 + s.physCore core / 272 * 2 ^ 16))
  else if i = 0x100 then k.pwrst &&& 3
  else if i = 0x108 then k.pwrlim
  else if i = 0x110 then k.pwravg
  else if i = 0x118 then k.emgto
  else if i = 0x120 then BitVec.ofNat 64 s.ns
  else if i = 0x128 then BitVec.ofNat 64 (k.boots % 2 ^ 32 * 2 ^ 32 + k.err * 256 + k.step)
  else if i = 0x130 then k.fwver ||| BitVec.ofNat 64 (k.floor.toNat * 2 ^ 32)
  else if i = 0x138 then k.fwaddr
  else if i = 0x140 then k.fwctl
  else if 0x160 ≤ i && i ≤ 0x178 then k.dnonce.getD ((i - 0x160) / 8) 0
  else if i = 0x180 then k.unlkaddr
  else if i = 0x188 then k.unlkctl
  else if i = 0x190 then k.attaddr
  else if i = 0x198 then k.attctl
  else if i = 0x1A0 then k.keyaddr
  else if i = 0x1A8 then k.keyctl
  else 0

/-- The token event that a GO in UNLKCTL starts: an advance where the token's scope byte is 2 (R456, R457). -/
def State.tokenEvent (s : State) : Instr :=
  match s.hostBytes s.kensia.unlkaddr.toNat 4739 with
  | some b => if (b.getD 1 0).toNat = 2 then .advanceLifecycle else .unlockDebug
  | none => .unlockDebug

/-- A write to a register of Kensia's index space (R437, R447, R461). -/
def State.kensiaWrite (s : State) (i : Nat) (v : Word) : State :=
  let k := s.kensia
  let w := v.toNat
  let set := fun (k : Kensia) => ({ s with kensia := k } : State)
  if !s.offers i then s
  else match i with
  | 0x008 => set { k with cethr := BitVec.ofNat 64 (max 1 (fld w 32 32) * 2 ^ 32 + fld w 0 8) }
  | 0x010 => set { k with retdl := BitVec.ofNat 64 (fld w 0 32) }
  | 0x020 => set { k with clogIdx := w }
  | 0x058 => set { k with hlogIdx := w }
  | 0x080 => s.soon [] (.retreq v)
  | 0x088 => set { k with rmapIdx := fld w 0 11 }
  | 0x100 => match fld w 2 2 with
    | 1 => s.soon [] .pwrstReqFull
    | 2 => s.soon [] .pwrstReqRims
    | _ => s
  | 0x108 => set { k with pwrlim := BitVec.ofNat 64 (clampN 2000 4200 (fld w 0 16)) }
  | 0x118 => set { k with emgto := BitVec.ofNat 64 (clampN 10 60000 (fld w 0 32)) }
  | 0x138 => set { k with fwaddr := v }
  | 0x140 => s.soon [] (.fwctlGo v)
  | 0x180 => set { k with unlkaddr := v }
  | 0x188 => if v.getLsbD 0 then s.soon [] s.tokenEvent else s
  | 0x190 => set { k with attaddr := v &&& ~~~63 }
  | 0x198 => s.soon [] (.attctlGo v)
  | 0x1A0 => set { k with keyaddr := v &&& ~~~63 }
  | 0x1A8 => s.soon [] (.keyctlGo v)
  | _ => s

/-- KSDATA_LOW_READ latches the high half of the selected register for the next read of KSDATA high (R437). -/
def execKsdataLowRead (s : State) : Host.Outcome State Fault Refusal :=
  .next { s with kensia := { s.kensia with ksLatch := (s.kensiaRead s.kensia.ksidx >>> 32).setWidth 32 } }

/-- KSDATA_HIGH_WRITE performs the 64-bit write of the selected register, with the low half written before (R437). -/
def execKsdataHighWrite (v : BitVec 32) (s : State) : Host.Outcome State Fault Refusal :=
  .next (s.kensiaWrite s.kensia.ksidx (v ++ s.kensia.ksLow))

/-! ## Writes with no row of their own -/

/-- A 32-bit write to the configuration space of X0's function: KSIDX, KSDATA low, KSDATA high (R437). -/
def State.configWrite (s : State) (off : Nat) (v : Word) : State :=
  match off with
  | 0x0C => { s with kensia := { s.kensia with ksidx := fld v.toNat 0 16 } }
  | 0x10 => { s with kensia := { s.kensia with ksLow := v.setWidth 32 } }
  | 0x14 => s.soon [] (.ksdataHighWrite (v.setWidth 32))
  | _ => s

/-- MANAGEMENT_REGISTER_WRITE (R411, R422, R437): an address below 2^32 is an offset of the management space, one from 2^32
on of the observation space, and one from 2^33 on of Kensia's capability. A register with a row of its own is written by
that row's event on the same beat. (Log: 120 DEDUCED.) -/
def execManagementRegisterWrite (addr : Nat) (v : Word) (s : State) : Host.Outcome State Fault Refusal :=
  if 2 ^ 33 ≤ addr then .next (if s.kensia.step = 6 || s.kensia.step = 15 then s.configWrite (addr - 2 ^ 33) v else s)
  else if !s.answers then .next s
  else if 2 ^ 32 ≤ addr then .next (s.obsWrite (addr - 2 ^ 32) v)
  else .next (s.mgmtWrite addr v)

end Sys2Proof.Machine
end

