-- ==== Sys2Proof/Machine/Clock.lean ====
section
/-! DEFINITION. The passing of a beat: head classification (R423, R424), the clocks of streams and dies (R290 to R292, R451), the
start of pulses (R174) and the end of freezes (R291); and the periodic sync records of traces (R427). -/

namespace Sys2Proof.Machine

/-! ## The word at a head (R85) -/

/-- The WAIT by which an illegal word is scheduled: its own, where that has a meaning (R86, R94). -/
def illegalWait (w : Nat) : Wait := (Wait.ofCode (fld w 56 8)).getD .none

/-- The word at a column's head, or the WAIT of an illegal one (R85, R94). -/
def Team.headCode (t : Team) (c : Col) : Except Wait Code :=
  match decode c (t.headWord (t.col c)) with
  | .ok k => .ok k
  | .error _ => .error (illegalWait (t.headWord (t.col c)))

/-! ## Head classification (R423, R424) -/

/-- The wait source of a WAIT whose condition does not hold (R424). -/
def waitSource : Wait → Nat
  | .none | .idle _ => 77
  | .flag f => f.toNat
  | .cnt j => 32 + j.toNat
  | .tok src _ => 64 + src.code
  | .bar b => 69 + b.toNat
  | .colIdle _ | .plait | .landed => 78

/-- The wait source of a cwait (R424). -/
def cwaitSource : CwaitCode → Nat
  | .flag f => f.toNat
  | .cnt j => 32 + j.toNat
  | .bar b => 69 + b.toNat
  | .colIdle _ | .plait | .landed => 78

/-- The wait source of the bar or cwait that a column is held by (R138, R140, R424). -/
def Team.heldBy (t : Team) (c : Col) : Option Nat :=
  t.waiting.findSome? fun p => if p.cx.col = c then (match p.act with
    | .bar b => some (69 + b.toNat)
    | .cwait w _ => some (cwaitSource w)
    | _ => none) else none

/-- What keeps a column that holds a word from issuing it, if R423 counts it as WAIT: the wait source (R424). -/
def Team.waitClass (t : Team) (c : Col) : Option Nat :=
  let x := t.col c
  if x.hoop.isSome then some 78
  else match t.heldBy c with
    | some k => some k
    | none => match t.headCode c with
      | .error w => if t.clk < x.sched w then some 77 else none
      | .ok k =>
        if t.clk < x.sched k.wait then some 77
        else if !t.waitOk c x k.wait then some (waitSource k.wait)
        else match k.instr with
          | .cwait w a => if cwaitHolds t w a then none else some (cwaitSource w)
          | _ => none

/-- The class of a column on the beat that passes: 0 ISSUE, 1 EMPTY, 2 WAIT with its source, 3 BUSY; none for a column that
has performed rdv (R423). -/
def Team.classOf (t : Team) (c : Col) : Option (Nat × Option Nat) :=
  let x := t.col c
  if x.ended then none
  else if x.next = t.clk + 1 && t.clk < x.portFree && (match x.hoop with | some h => decide (h.issued = t.clk) | none => true) then
    some (0, none)
  else if x.isEmpty then some (1, none)
  else match t.waitClass c with
    | some k => some (2, some k)
    | none => some (3, none)

/-- One more in a counter that wraps at 2^64 (R423). -/
def bump {n : Nat} (v : Vector Nat n) (i : Nat) : Vector Nat n := setAt v i ((getAt v i 0 + 1) % 2 ^ 64)

/-- The counters of a core with one column's beat counted (R423, R424). -/
def CoreObs.count (o : CoreObs) (c : Nat) : Option (Nat × Option Nat) → CoreObs
  | none => o
  | some (k, src) =>
    let o : CoreObs := { o with classes := setAt o.classes c (bump (getAt o.classes c (Vector.replicate 4 0)) k) }
    match src with
    | none => o
    | some i => { o with waits := bump o.waits i }

/-- The counters of every running team's core with this beat counted (R423). -/
def State.countHeads (s : State) : State :=
  (s.teams.filter fun t => !t.frozen).foldl (fun (s : State) t =>
    s.setObs t.cid (columns.foldl (fun (o : CoreObs) c => o.count c.code (t.classOf c)) (s.coreObs t.cid))) s

/-! ## The clocks -/

/-- The scrubs that come due as the wall clock goes from m to n thirds of a nanosecond: the L2's once an hour, and of the rows of
every bank of every pseudo-channel, taken in turn and spread evenly over 24 hours, the request of each into the queue of its
demand sequencer (R325, R439). (Log: 156 DESIGN CHOICE.) -/
def State.scrubsDue (s : State) (m n : Nat) : List Instr :=
  let hour := 3 * 3600 * 10 ^ 9
  let rows := 12288 * s.nrows
  let i := m * rows / (24 * hour)
  (if m / hour = n / hour then [] else [.l2Scrub]) ++
  ((List.range (n * rows / (24 * hour) - i)).map fun k => i + 1 + k).filterMap fun k =>
    let pc := k % 768
    if s.liveRims.contains (pc / 128) then some (.demandRequest pc .scrub (k / 768 % 16) (k / 12288 % s.nrows)) else none

/-- The wall clock a beat later; while NSCNT is slewed it gains or loses one nanosecond in every 10,000 (R451). Once bring-up
has ended the scrubs that come due are asked for (R439). (Log: 109, 156 DESIGN CHOICE.) -/
def State.wallTick (s : State) : State :=
  let n := s.nsThirds + s.perBeat
  let turn := n / 30000 ≠ s.nsThirds / 30000
  let d : Int := if !turn || s.slew = 0 then 0 else if 0 < s.slew then 1 else -1
  let scrubs := if s.kensia.step = 6 then s.scrubsDue s.nsThirds n else []
  { s with now := s.now + 1, nsThirds := n, nsOffset := s.nsOffset + d, slew := s.slew - d,
           agenda := scrubs.foldl (fun l i => insertPend ⟨s.now + 1, 0, Cur.none, i⟩ l) s.agenda }

/-- A team a beat later: `ran` says that the beat has elapsed for it, and `serves` that a service beat of its handler has,
as it does but in a debug stop (R290, R382, R431). A column whose predecessor issued on the beat has fetched its next word
(R144). -/
def Team.clockTick (t : Team) (ran serves : Bool) : Team :=
  { t with clk := if ran then t.clk + 1 else t.clk, svcClk := if t.handler && serves then t.svcClk + 1 else t.svcClk,
           cols := t.cols.map fun (x : Column) => { t.fetched x with tried := false } }

/-- A channel program may be tried again on the next beat. -/
def Pc.untried (p : Pc) : Pc := { p with prog := p.prog.map fun g => { g with st := { g.st with tried := false } } }

/-- The package a beat later: streams that are not frozen and dies that hold no frozen one advance; freezes that no cause
holds end, and their streams resume on the same beat (R290, R291). -/
def State.beatTick (s : State) : State :=
  let ran := (s.teams.filter fun t => !t.frozen).map fun t => t.cid
  let still := (s.teams.filter fun t => t.frozen && s.participates t).map fun t => dieOf t.cid
  let s := (s.countHeads.eccEvents.schedulePulses).thaw s.stops
  let s := if s.kensia.stretchReq.isSome && !s.anyTimed then s.soon [] .stretch else s
  let dies := s.dies.zipIdx.map fun (x : Die × Nat) => if still.contains x.2 then x.1 else { x.1 with beat := x.1.beat + 1 }
  ({ s with teams := s.teams.map fun t => t.clockTick (ran.contains t.cid) (!s.stopped t), pcs := s.pcs.map fun p => (s.countHot p).untried, dies := dies,
            synced := s.synced.filter still.contains } : State).wallTick

/-- HEAD_CLASSIFICATION (R423): the beat ends, and every column is counted. In a stretch or an emergency freeze no beat
elapses for any stream, and only the wall clock moves (R292, R450). (Log: 126 DEDUCED.) -/
def execHeadClassification (s : State) : Host.Outcome State Fault Refusal :=
  if s.stretched then
    let late := if s.kensia.emergency.isSome && !s.halted then 1 else 0
    let s : State := { s with kensia := { s.kensia with stretchLeft := s.kensia.stretchLeft - 1,
                                                        emergencyLate := s.kensia.emergencyLate + late } }
    .next s.wallTick
  else if s.halted then .next s.wallTick
  else .next s.beatTick.emergencyBegins

/-! ## Sync records (R427) -/

/-- A die whose BEAT is a multiple of 2^20, with a running team of a traced job, and no sync written on this beat yet
(R426, R427). -/
def State.syncDue (s : State) : Option Nat :=
  (List.range 5).find? fun z =>
    (s.die z).beat.toNat % 2 ^ 20 = 0 && !s.synced.contains z &&
    s.teams.any fun t => dieOf t.cid = z && !t.frozen && match s.slotOf t.job with
      | some n => s.traces[n].on
      | none => false

/-- A sync record of a die written to a job's ring, or lost (R425, R426). -/
def State.syncRing (s : State) (job : Nat) (z : Fin 5) : State :=
  match s.slotOf job with
  | none => s
  | some n =>
    let x := s.traces[n]
    let now := (s.die z.val).beat
    if !x.on then s
    else if !x.room then { s with traces := s.traces.set n (x.loseOne z) }
    else
      let r := writeRecord s.addressable s.mem x z now (recordOf (x.delta z now) 7 0 0 z.val 0 now.toNat s.ns (x.lost[z]))
      s.ringMoved n x { r.2 with lost := r.2.lost.set z 0 } r.1

/-- TRACE_SYNC: a sync record for a die in the ring of every job that has a running team there (R427). -/
def execTraceSync (s : State) : Host.Outcome State Fault Refusal :=
  let z := dieFin (s.cur.args.headD 0)
  .next ((({ s with synced := s.synced ++ [z.val] } : State).jobDies [z.val]).foldl (fun s x => s.syncRing x.1 z)
    { s with synced := s.synced ++ [z.val] })

end Sys2Proof.Machine
end

