-- ==== Sys2Proof/Machine/Agenda.lean ====
section
/-! DEFINITION. What the module does next: inputs, events of the package, events of the teams, words of the columns and of the
channel programs, and at last the passing of the beat (R86, R131, R290). Agents are served in a fixed order. -/

namespace Sys2Proof.Machine

/-- What a step does: it executes an instruction in a state, or it only moves to a state (a word that does not decode traps,
an event whose team has ended is dropped). -/
inductive Action where
  | run (i : Instr) (s : State)
  | go (s : State)

/-- An event executed in a context. -/
def State.doing (s : State) (cx : Cur) (i : Instr) : Action := .run i { s with cur := cx }

/-- An event of the package, with its numbers. -/
def State.does (s : State) (args : List Nat) (i : Instr) : Action := s.doing { Cur.none with args := args } i

/-! ## Events of the package -/

/-- The event needs a team that has ended with its launch. -/
def State.orphan (s : State) (p : Pend) : Bool := p.act = .bodkinArbitration && (s.team p.cx.cid).isNone

/-- An input that is an access of the host or of a peer, which comes last of the requests of its beat (R340). -/
def isHostAccess (p : Pend) : Bool :=
  match p.act with
  | .hostMemoryAccess .. => true
  | _ => false

/-- An event of the package that is a request of an I/O-die engine, which comes after those of the cores (R340). -/
def isEngineRequest (p : Pend) : Bool := p.act = .cpxComplete

/-- A retirement that bring-up makes before its next step (R452). -/
def isRetirement (p : Pend) : Bool :=
  match p.act with
  | .unitRetirement _ | .rimFailure => true
  | _ => false

/-- A forced save, which comes once what it settles has taken effect, unless the teams stand still (R381, R393). -/
def State.savesLater (s : State) (p : Pend) : Bool := p.act = .forcedSave && !s.stretched && !s.halted

/-- The next event of the package that is due, from the bring-up of R452 to the sync records of R427; what R340 and R375
order after the words of the beat is left to `pickLast`. (Log: 6, 11, 123 DEDUCED.) -/
def State.pickPackage (s : State) : Option Action :=
  if s.kensia.step < 6 && !(s.kensia.step = 1 && s.kensia.err = 1) then
    match takeFirst (fun p => p.due ≤ s.now && isRetirement p) s.agenda with
    | some (p, l) => some (({ s with agenda := l } : State).doing p.cx p.act)
    | none => some (s.does [] .bringUp)
  else match takeFirst (fun p => p.due ≤ s.now && !isHostAccess p) s.inputs with
  | some (p, l) => some (({ s with inputs := l } : State).doing p.cx p.act)
  | none => if !s.stretched && s.kensia.stretchFrom.isSome then some (s.does [] .stretchEnd)
  else match takeFirst (fun p => p.due ≤ s.now && !isEngineRequest p && !s.savesLater p) s.agenda with
  | some (p, l) =>
    let s : State := { s with agenda := l }
    some (if s.orphan p then .go s else s.doing p.cx p.act)
  | none => match (List.finRange 64).find? s.queueReads with
  | some q => some (s.does [q.val] (s.entryEvent q))
  | none => match (List.finRange 64).find? s.recordReady with
  | some q => some (s.does [q.val] .eventRecordWrite)
  | none => match s.launches.find? s.finished with
  | some l => some (s.does [l.handle] .launchComplete)
  | none => if s.rimsDue then some (s.does [] .pwrstReqRims)
  else if s.recs.any s.staleRec then some (s.does [] .recordWalk)
  else s.syncDue.map fun z => s.does [z] .traceSync

/-! ## Events of the teams -/

/-- An event of a team in a new context of its own. -/
def State.teamDoes (s : State) (t : Team) (args : List Nat) (i : Instr) : Action :=
  s.doing { Cur.none with cid := t.cid, args := args } i

/-- The waiting word of the team that performs next: the first of the lowest rank among those that may (R72, R77, R92). While the
team is frozen only the handler's are left there (R382). -/
def State.takeWaiting (s : State) (t : Team) : Option (Pend × List Pend) :=
  let ready := fun (k : Nat) (p : Pend) => p.rank ≤ k && s.canPerform t p
  if (t.frozen && !t.handler) || s.stopped t then none
  else [6, 7].foldr (fun k other => (takeFirst (ready k) t.waiting).orElse fun _ => other) (takeFirst (ready rankWait) t.waiting)

/-- What an unfrozen team's engine, Border, inbox and timer do now. -/
def State.pickEngines (s : State) (t : Team) : Option Action :=
  match t.commitDue with
  | some r => some (s.teamDoes t [r.id] .rowGroupCommit)
  | none => if t.applyDue.isSome then some (s.teamDoes t [] .peerAddApply)
  else match s.engineDue t with
  | some (j, i) => some (s.doing (j.context i) i)
  | none => if s.timerDue t then some (s.teamDoes t [] .timerInterruptPend) else none

/-- The next event of a team that is due: an effect that lands, a waiting word that performs, in the order of their ranks, or work
of its engines (R72, R77). -/
def State.pickTeam (s : State) (t : Team) : Option Action :=
  let later := match s.takeWaiting t with
    | some (p, l) => some ((s.setTeam { t with waiting := l }).doing p.cx p.act, p.rank)
    | none => none
  let first := fun (p : Pend) (x : Action) => match later with
    | some (y, k) => if k < p.rank then y else x
    | none => x
  match (if t.handler && !s.stopped t then takeFirst (fun p => p.due ≤ t.svcClk) t.svcPend else none) with
  | some (p, l) => some (first p ((s.setTeam { t with svcPend := l }).doing p.cx p.act))
  | none => match (if t.frozen then none else takeFirst (fun p => p.due ≤ t.clk) t.pend) with
  | some (p, l) => some (first p ((s.setTeam { t with pend := l }).doing p.cx p.act))
  | none => match later with
  | some (x, _) => some x
  | none => if t.frozen then none else s.pickEngines t

/-- A fill of the L2 by an rd of a running team that is due: it comes before every request of the beat (R340). -/
def State.pickFill (s : State) (t : Team) : Option Action :=
  let due := fun (p : Pend) => decide (p.due ≤ t.clk) && match p.act with
    | .rdL2Fill .. => true
    | _ => false
  if t.frozen then none
  else (takeFirst due t.pend).map fun x => (s.setTeam { t with pend := x.2 }).doing x.1.cx x.1.act

/-- A landing of a team that is due: it comes before every access of the beat (R131). -/
def State.pickLanding (s : State) (t : Team) : Option Action :=
  if t.frozen then none
  else (takeFirst (fun p => p.due ≤ t.clk && p.rank ≤ rankLand) t.pend).map fun x =>
    (s.setTeam { t with pend := x.2 }).doing x.1.cx x.1.act

/-- The next event of a team once the writes of the beat's programs are made, a freeze that is due, a forced save, or a hoop that
is overdue (R175, R291, R393). (Log: 6 DEDUCED.) -/
def State.pickTeams (s : State) : Option Action :=
  match s.teams.findSome? s.pickTeam with
  | some x => some x
  | none => match s.teams.find? fun t => t.freezeDue with
  | some t => some (s.teamDoes t [] (.freeze t.group))
  | none => match takeFirst (fun p => p.due ≤ s.now && p.act = .forcedSave) s.agenda with
  | some (p, l) => some (({ s with agenda := l } : State).doing p.cx p.act)
  | none => s.overdue.map fun g => s.does [] (.hoopOverdue g)

/-! ## Words -/

/-- A word of OPC 0x78 is the read that bits [63:56] of its register name (R453). -/
def Team.resolve (t : Team) : Instr → Instr
  | .fuseReadWord d a => match fld (t.getS a).v.toNat 56 8 with
    | 1 => .fuseReadIdentity d a
    | 2 => .fuseReadLifecycle d a
    | _ => .fuseReadWord d a
  | i => i

/-- An earlier word of the column is an rdv (R172). -/
def Team.leaving (t : Team) (c : Col) : Bool := t.waiting.any fun p => p.cx.col = c && p.act = .rdv

/-- The column may try a word: its stream runs and has not stopped, and it does not stall in a hoop (R86, R174, R290). -/
def Team.tries (t : Team) (c : Col) : Bool :=
  let x := t.col c
  !x.ended && !x.stopped && x.hoop.isNone && (!t.frozen || t.inSvc c) && !t.leaving c

/-- The context in which the word at a column's head is executed. (Log: 10 DEDUCED.) -/
def Team.wordCur (t : Team) (c : Col) (w : Nat) (k : Code) (ph : Phase) : Cur :=
  let x := t.col c
  { cid := t.cid, col := c, pc := 0, pos := x.head, wait := k.wait, signal := k.signal, word := BitVec.ofNat 64 w, phase := ph,
    nul := x.nullified, id := t.nextId, issued := t.clock c, timed := x.timed, args := [], loops := x.loops }

/-- The word at a column's head, once its scheduled beat has come: one that ECC cannot read traps at its slot, and an illegal
one with its bits (R85, R94, R95, R438). -/
def State.wordAction (s : State) (t : Team) (c : Col) (ph : Phase) : Option Action :=
  let x := t.col c
  let w := t.headWord x
  match t.eccTrap 8 [x.base + 8 * (x.head % x.size)], decode c w with
  | some e, _ =>
    if x.sched .none ≤ t.clock c then some (.go (s.raise t (t.wordCur c w ⟨.none, .none, .nop⟩ ph) e)) else none
  | none, .ok k =>
    if x.sched k.wait ≤ t.clock c then some (s.doing (t.wordCur c w k ph) (t.resolve k.instr)) else none
  | none, .error _ =>
    if x.sched (illegalWait w) ≤ t.clock c then
      some (.go (s.raise t (t.wordCur c w ⟨illegalWait w, .none, .nop⟩ ph) (.illegal, BitVec.ofNat 64 w)))
    else none

/-- The first try of a column's next word on this beat. (Log: 10 DEDUCED.) -/
def State.pickColumn (s : State) (t : Team) (c : Col) : Option Action :=
  let x := t.col c
  if t.tries c && !s.stopped t && !x.tried && !t.noWord x then s.wordAction t c .issue else none

/-- A timed column that could not issue at its scheduled beat, or whose ring is empty then (R86, R283). -/
def State.lateColumn (s : State) (t : Team) (c : Col) : Option Action :=
  let x := t.col c
  if !t.tries c || s.stopped t || !x.timed then none
  else if t.noWord x then
    if x.sched .none ≤ t.clock c then some (s.doing (t.wordCur c 0 ⟨.none, .none, .nop⟩ .final) .emptyRingFault) else none
  else if x.tried then s.wordAction t c .final
  else none

/-- The context of a channel program's word. -/
def chanCur (p : Pc) (g : ChanProg) (t : Team) (w : Word) (k : Code) (ph : Phase) : Cur :=
  { cid := g.owner, col := .chn, pc := p.pc, pos := g.st.head, wait := k.wait, signal := k.signal, word := w, phase := ph,
    nul := g.st.nullified, id := t.nextId, issued := t.clk, timed := g.st.timed, args := [], loops := g.st.loops }

/-- The next word of a channel program at its tick (R86, R267, R319); its idle counts ticks, two beats each. -/
def State.chanAction (s : State) (p : Pc) (ph : Phase) : Option Action :=
  match p.prog with
  | none => none
  | some g => match s.team g.owner with
    | none => none
    | some t =>
      let due := fun (w : Wait) => decide (g.st.next + 2 * idleOf w ≤ t.clk)
      if g.st.ended || g.st.stopped || g.st.hoop.isSome || t.frozen || (ph = .issue && g.st.tried) ||
        (ph = .final && !(g.st.tried && g.st.timed)) then none
      else match g.words[g.st.head]? with
        | none =>
          let cx := chanCur p g t 0 ⟨.none, .none, .nop⟩ ph
          if g.st.timed && due .none then some (.go (({ s with cur := cx } : State).raiseChan t p g .schedule (s.beatOf t))) else none
        | some w => match decode .chn w.toNat with
          | .ok k => if due k.wait then some (s.doing (chanCur p g t w k ph) k.instr) else none
          | .error _ =>
            if due (illegalWait w.toNat) then
              some (.go (({ s with cur := chanCur p g t w ⟨illegalWait w.toNat, .none, .nop⟩ ph } : State).raiseChan t p g .illegal w))
            else none

/-- The wr of a program whose WAIT holds before the effects of the beat: it invalidates its sector of the L2 before any request of a
core (R340). -/
def State.pickWr (s : State) (p : Pc) : Option Action :=
  match s.chanAction p .issue with
  | some (.run (.wr bg bk col slot) s') => match p.prog.bind fun g => (s.team g.owner).map fun t => (g, t) with
    | some (g, t) => if t.waitOk .chn g.st s'.cur.wait then some (.run (.wr bg bk col slot) s') else none
    | none => none
  | _ => none

/-- The fills of the L2, the landings of the beat, and the writes of programs, which come before the requests of cores (R131,
R340). -/
def State.pickFirst (s : State) : Option Action :=
  match s.teams.findSome? s.pickFill with
  | some x => some x
  | none => match s.teams.findSome? s.pickLanding with
  | some x => some x
  | none => s.pcs.findSome? s.pickWr

/-- The columns in the order in which their words are tried on a beat: ctl, then vec, so that a pop comes before the qclr of
its beat (R168), and the paths of R340. (Log: 6 DEDUCED.) -/
def wordOrder : List Col := [.ctl, .vec, .acs, .cpy, .mat]

/-- The first channel program or column that has a word to try: the wr of a program comes before the requests of cores (R340).
(Log: 6 DEDUCED.) -/
def State.pickWord (s : State) : Option Action :=
  match s.pcs.findSome? fun p => s.chanAction p .issue with
  | some x => some x
  | none => s.teams.findSome? fun t => wordOrder.findSome? fun c => s.pickColumn t c

/-- The first timed stream that did not issue at its scheduled beat. (Log: 6 DEDUCED.) -/
def State.pickLate (s : State) : Option Action :=
  match s.teams.findSome? fun t => wordOrder.findSome? fun c => s.lateColumn t c with
  | some x => some x
  | none => s.pcs.findSome? fun p => s.chanAction p .final

/-- What the demand sequencers and the refresh checks do at the end of the beat (R320, R321, R325).
(Log: 6, 84 DEDUCED.) -/
def State.pickRims (s : State) : Option Action :=
  let at_ := fun (p : Pc) (i : Instr) => s.doing { Cur.none with pc := p.pc, col := .chn } i
  match s.pcs.find? s.canServe with
  | some p => some (at_ p .demandServe)
  | none => match s.pcs.find? fun p => s.canRefresh p || s.canClose p with
  | some p => some (at_ p .demandRefresh)
  | none => match s.pcs.find? Pc.hotDue with
  | some p => some (at_ p .hotDebtTick)
  | none => (s.pcs.find? fun p => (s.overdueBank p).isSome).map fun p => at_ p .refreshOverdue

/-! ## The choice -/

/-- What comes after the words of a beat: requests of the I/O-die engines, the dispatcher's placing and draining, which a
cancel of the beat precedes, the demand sequencers, and accesses of the host and of peers; at last the beat passes (R340,
R375). (Log: 6 DEDUCED.) -/
def State.pickLast (s : State) : Action :=
  match takeFirst (fun p => p.due ≤ s.now && isEngineRequest p) s.agenda with
  | some (p, l) => ({ s with agenda := l } : State).doing p.cx p.act
  | none => if s.choose.isSome then s.does [] .dispatchPlace
  else if !(s.needsDrained ++ s.inReserved).isEmpty then s.does [] .drainBegin
  else match (if s.stretched || s.halted then none else s.pickRims) with
  | some x => x
  | none => match takeFirst (fun p => p.due ≤ s.now && isHostAccess p) s.inputs with
  | some (p, l) => ({ s with inputs := l } : State).doing p.cx p.act
  | none => s.does [] .headClassification

/-- WHAT A STEP DOES: events of the package, then of the teams, words, streams that missed their beat, and what comes last on a
beat. In a stretch or an emergency freeze only the package's events and the clock go on (R292, R450).
(Log: 6 DEDUCED.) -/
def State.pick (s : State) : Action :=
  match s.pickPackage with
  | some x => x
  | none => match (if s.stretched || s.halted then none
      else s.pickFirst.orElse fun _ => s.pickTeams.orElse fun _ => s.pickWord.orElse fun _ => s.pickLate) with
  | some x => x
  | none => s.pickLast

/-! ## A program's first word -/

/-- A team on logical core 0 at level S whose column c has a ring of one word w (R281). -/
def oneWordTeam (c : Col) (w : Nat) : Team :=
  let x : Column := { blankColumn with size := 256, tail := 1, put := 1, ended := false }
  let t : Team := { blankTeam with clk := 256, svc := true, banks := BitVec.allOnes 16, granules := BitVec.allOnes 24,
                                   spad := writeNat [] 0 w 8 }
  if c = .chn then t else t.setCol c x

/-- A channel program of one word, owned by core 0 (R276). -/
def oneWordPc (w : Nat) : Pc :=
  { blankPc 0 with prog := some ⟨0, 0, 0, true, [BitVec.ofNat 64 w], { blankColumn with ended := false }, 0, 0⟩ }

/-- The state with a word placed where the next step fetches: the module has been brought up, and a launch's team, or its
channel program, stands at the word. (Log: 1 DEDUCED.) -/
def State.withWord (s : State) (w : Nat) : State :=
  let c := match firstCol w allCols with
    | some p => p.1
    | none => Col.ctl
  { s with kensia := { s.kensia with step := 6 }, inputs := [], agenda := [], launches := [], recs := [],
           teams := [oneWordTeam c w], pcs := if c = .chn then [oneWordPc w] else [] }

end Sys2Proof.Machine
end

