-- ==== Sys2Proof/Machine/Vector.lean ====
section
/-! DEFINITION. The vec words but for the modular ones and vtab: floating point, compares, conversion, reductions,
integers, movement, bits and masks (R182 to R201, R205, R206). -/

namespace Sys2Proof.Machine

/-! ## Floating point (R182) -/

/-- An elementwise floating-point word of n sources. -/
def fpWord (s : State) (d : VDst) (ins : List VSrc) (ty : ElemTy) (m : Mask) (lat occ : Nat)
    (f : Mode → Bool → List Nat → Nat × Exc) : Host.Outcome State Fault Refusal :=
  vecReg s { ins := ins, mask := m, other := fpReads, lat := lat, occ := occ } d fun t =>
    elemOut t ty.width (t.elems ty.width) m (fun y e => ins.any fun x => t.readTaint ty.width x y e)
      fun y e => f t.mode t.sat (ins.map fun x => t.read ty x y e)

/-- A function of two elements on a list of them. -/
def two {α : Type} (f : Nat → Nat → α) (l : List Nat) : α := f (l.getD 0 0) (l.getD 1 0)

/-- VADD (R182). -/
def execVadd (d : VDst) (a b : VSrc) (t : ElemTy) (m : Mask) (s : State) :=
  fpWord s d [a, b] t m 4 1 fun mode sat => two (fpAdd t mode sat)
/-- VSUB (R182). -/
def execVsub (d : VDst) (a b : VSrc) (t : ElemTy) (m : Mask) (s : State) :=
  fpWord s d [a, b] t m 4 1 fun mode sat => two (fpSub t mode sat)
/-- VMUL (R182). -/
def execVmul (d : VDst) (a b : VSrc) (t : ElemTy) (m : Mask) (s : State) :=
  fpWord s d [a, b] t m 4 1 fun mode sat => two (fpMul t mode sat)
/-- VFMA, one rounding (R182). -/
def execVfma (d : VDst) (a b c : VSrc) (t : ElemTy) (m : Mask) (s : State) :=
  fpWord s d [a, b, c] t m 4 1 fun mode sat l => two (fpFma false false t mode sat) l (l.getD 2 0)
/-- VFMS, one rounding (R182). -/
def execVfms (d : VDst) (a b c : VSrc) (t : ElemTy) (m : Mask) (s : State) :=
  fpWord s d [a, b, c] t m 4 1 fun mode sat l => two (fpFma false true t mode sat) l (l.getD 2 0)
/-- VFNMA, one rounding (R182). -/
def execVfnma (d : VDst) (a b c : VSrc) (t : ElemTy) (m : Mask) (s : State) :=
  fpWord s d [a, b, c] t m 4 1 fun mode sat l => two (fpFma true false t mode sat) l (l.getD 2 0)
/-- VDIV (R182, R183). -/
def execVdiv (d : VDst) (a b : VSrc) (t : ElemTy) (m : Mask) (s : State) :=
  fpWord s d [a, b] t m 20 4 fun mode sat => two (fpDiv t mode sat)
/-- VSQRT (R182, R183). -/
def execVsqrt (d : VDst) (a : VSrc) (t : ElemTy) (m : Mask) (s : State) :=
  fpWord s d [a] t m 20 4 fun mode sat l => fpSqrt t mode sat (l.getD 0 0)
/-- VMIN (R53, R182). -/
def execVmin (d : VDst) (a b : VSrc) (t : ElemTy) (m : Mask) (s : State) :=
  fpWord s d [a, b] t m 4 1 fun mode sat => two (fpPick false t mode sat)
/-- VMAX (R53, R182). -/
def execVmax (d : VDst) (a b : VSrc) (t : ElemTy) (m : Mask) (s : State) :=
  fpWord s d [a, b] t m 4 1 fun mode sat => two (fpPick true t mode sat)
/-- VABS (R182, R183). -/
def execVabs (d : VDst) (a : VSrc) (t : ElemTy) (m : Mask) (s : State) :=
  fpWord s d [a] t m 4 1 fun _ _ l => fpSign (fun _ => false) t (l.getD 0 0)
/-- VNEG (R182, R183). -/
def execVneg (d : VDst) (a : VSrc) (t : ElemTy) (m : Mask) (s : State) :=
  fpWord s d [a] t m 4 1 fun _ _ l => fpSign (fun x => !x) t (l.getD 0 0)
/-- VRND (R182, R183). -/
def execVrnd (d : VDst) (a : VSrc) (t : ElemTy) (m : Mask) (s : State) :=
  fpWord s d [a] t m 4 1 fun mode _ l => fpRound t mode (l.getD 0 0)

/-! ## Compare, classify, convert (R184 to R186) -/

/-- A word that sets the mask bit of each enabled active element (R184). -/
def cmpWord (s : State) (k : BitVec 3) (ins : List VSrc) (ty : ElemTy) (m : Mask) (lat : Nat) (other : List RdName)
    (f : List Nat → Nat × Exc) : Host.Outcome State Fault Refusal :=
  vecMask s { ins := ins, mask := m, other := other, lat := lat } k fun t =>
    maskOut t.rows (t.elems ty.width) fun y e =>
      if t.enabled m y e then
        let r := f (ins.map fun x => t.read ty x y e)
        some ⟨r.1, (ins.any fun x => t.readTaint ty.width x y e) || t.maskTaint m y, r.2⟩
      else none

/-- VCMP (R184). -/
def execVcmp (p : FPred) (k : BitVec 3) (a b : VSrc) (t : ElemTy) (m : Mask) (s : State) :=
  cmpWord s k [a, b] t m 4 fpReads (two (fpCmp p t))
/-- VICMP (R184). -/
def execVicmp (p : IPred) (k : BitVec 3) (a b : VSrc) (t : ElemTy) (m : Mask) (s : State) :=
  cmpWord s k [a, b] t m 2 [.csr 0x12] (two fun x y => (if intCmp p t.width x y then 1 else 0, 0))
/-- VCLASS (R185). -/
def execVclass (k : BitVec 3) (a : VSrc) (set : BitVec 10) (t : ElemTy) (m : Mask) (s : State) :=
  cmpWord s k [a] t m 4 fpReads fun l => (if set.getLsbD (classOf t (l.getD 0 0)) then 1 else 0, 0)

/-- VCVT: elements are counted in the wider type (R186). -/
def execVcvt (d : VDst) (a : VSrc) (dt st : ElemTy) (usrc udst : Bool) (m : Mask) (s : State) :=
  vecReg s { ins := [a], mask := m, other := fpReads, lat := 4 } d fun t =>
    elemOut t dt.width (t.elems (max dt.width st.width)) m (fun y e => t.readTaint st.width a y e)
      fun y e => convert dt st usrc udst t.mode t.sat (t.read st a y e)

/-! ## Reductions (R187) -/

/-- A reduction of each active row into element 0, in type r (R187). (Log: 154 DEDUCED.) -/
def redWord (s : State) (d : VDst) (ins : List VSrc) (init : VSrc) (ty r : ElemTy) (m : Mask)
    (f : Mode → Bool → Nat → List (List Nat) → Nat × Exc) : Host.Outcome State Fault Refusal :=
  vecReg s { ins := ins ++ [init], mask := m, other := fpReads, lat := 8 } d fun t =>
    gridOut t.rows r.width 1 fun y _ =>
      let on := (List.range (t.elems ty.width)).filter (t.enabled m y)
      let x := f t.mode t.sat (t.read r init y 0) (on.map fun e => ins.map fun x => t.read ty x y e)
      some ⟨x.1, t.readTaint r.width init y 0 ||
        (on.any fun e => t.maskTaint m y || ins.any fun x => t.readTaint ty.width x y e), x.2⟩

/-- VSUM (R187). -/
def execVsum (d : VDst) (a b : VSrc) (t : ElemTy) (m : Mask) (s : State) :=
  redWord s d [a] b t (sumType t) m (reduceSum t)
/-- VDOT (R187). -/
def execVdot (d : VDst) (a b c : VSrc) (t : ElemTy) (m : Mask) (s : State) :=
  redWord s d [a, b] c t (sumType t) m (reduceSum t)
/-- VMAXR (R187). -/
def execVmaxr (d : VDst) (a b : VSrc) (t : ElemTy) (m : Mask) (s : State) :=
  redWord s d [a] b t t m fun mode sat i l => reducePick true t mode sat i (l.map (·.headD 0))
/-- VMINR (R187). -/
def execVminr (d : VDst) (a b : VSrc) (t : ElemTy) (m : Mask) (s : State) :=
  redWord s d [a] b t t m fun mode sat i l => reducePick false t mode sat i (l.map (·.headD 0))

/-! ## Integers (R188) and elementwise bit words (R190, R200) -/

/-- An elementwise word that raises no exception. -/
def bitWord (s : State) (d : VDst) (ins : List VSrc) (ty : ElemTy) (m : Mask) (lat sr : Nat) (f : List Nat → Nat) :
    Host.Outcome State Fault Refusal :=
  vecReg s { ins := ins, ty := some ty, mask := m, lat := lat, sr := sr } d fun t =>
    elemOut t ty.width (t.elems ty.width) m (fun y e => ins.any fun x => t.readTaint ty.width x y e)
      fun y e => (f (ins.map fun x => t.read ty x y e), 0)

/-- VIADD (R188). -/
def execViadd (o : IOpt) (d : VDst) (a b : VSrc) (t : ElemTy) (m : Mask) (s : State) :=
  bitWord s d [a, b] t m 2 8 (two (intAdd o t.width (· + ·)))
/-- VISUB (R188). -/
def execVisub (o : IOpt) (d : VDst) (a b : VSrc) (t : ElemTy) (m : Mask) (s : State) :=
  bitWord s d [a, b] t m 2 8 (two (intAdd o t.width (· - ·)))
/-- VIMUL (R188). -/
def execVimul (d : VDst) (a b : VSrc) (t : ElemTy) (m : Mask) (s : State) :=
  bitWord s d [a, b] t m 4 8 (two fun x y => x * y)
/-- VIMULH (R188). -/
def execVimulh (u : Bool) (d : VDst) (a b : VSrc) (t : ElemTy) (m : Mask) (s : State) :=
  bitWord s d [a, b] t m 4 8 (two (intMulh u t.width))
/-- VAND (R188). -/
def execVand (d : VDst) (a b : VSrc) (t : ElemTy) (m : Mask) (s : State) :=
  bitWord s d [a, b] t m 2 8 (two Nat.land)
/-- VOR (R188). -/
def execVor (d : VDst) (a b : VSrc) (t : ElemTy) (m : Mask) (s : State) :=
  bitWord s d [a, b] t m 2 8 (two Nat.lor)
/-- VXOR (R188). -/
def execVxor (d : VDst) (a b : VSrc) (t : ElemTy) (m : Mask) (s : State) :=
  bitWord s d [a, b] t m 2 8 (two Nat.xor)
/-- VSHL (R188). -/
def execVshl (d : VDst) (a b : VSrc) (t : ElemTy) (m : Mask) (s : State) :=
  bitWord s d [a, b] t m 2 8 (two (intShl t.width))
/-- VSHR (R188). -/
def execVshr (d : VDst) (a b : VSrc) (t : ElemTy) (m : Mask) (s : State) :=
  bitWord s d [a, b] t m 2 8 (two (intShr t.width))
/-- VSAR (R188). -/
def execVsar (d : VDst) (a b : VSrc) (t : ElemTy) (m : Mask) (s : State) :=
  bitWord s d [a, b] t m 2 8 (two (intSar t.width))
/-- VIMIN (R188). -/
def execVimin (u : Bool) (d : VDst) (a b : VSrc) (t : ElemTy) (m : Mask) (s : State) :=
  bitWord s d [a, b] t m 2 8 (two (intMin u t.width))
/-- VIMAX (R188). -/
def execVimax (u : Bool) (d : VDst) (a b : VSrc) (t : ElemTy) (m : Mask) (s : State) :=
  bitWord s d [a, b] t m 2 8 (two (intMax u t.width))
/-- VIABSD (R188). -/
def execViabsd (u : Bool) (d : VDst) (a b : VSrc) (t : ElemTy) (m : Mask) (s : State) :=
  bitWord s d [a, b] t m 2 8 (two (intAbsd u t.width))
/-- VMOV copies raw bytes (R190). -/
def execVmov (d : VDst) (a : VSrc) (t : ElemTy) (m : Mask) (s : State) := bitWord s d [a] t m 1 16 (·.getD 0 0)
/-- VPOPC (R200). -/
def execVpopc (d : VDst) (a : VSrc) (t : ElemTy) (m : Mask) (s : State) :=
  bitWord s d [a] t m 2 8 fun l => popN t.width (l.getD 0 0)
/-- VCLZ (R200). -/
def execVclz (d : VDst) (a : VSrc) (t : ElemTy) (m : Mask) (s : State) :=
  bitWord s d [a] t m 2 8 fun l => clzN t.width (l.getD 0 0)

/-! ## Movement (R190 to R197) -/

/-- A word whose element (y, e) is some element of its source; `none` gives +0 bytes (R190 to R194). -/
def moveWord (s : State) (d : VDst) (a : VSrc) (ty : ElemTy) (m : Mask) (x : VSpec)
    (src : Team → Nat → Nat → Option (Nat × Nat)) : Host.Outcome State Fault Refusal :=
  vecReg s { x with ins := a :: x.ins, ty := some ty, mask := m } d fun t =>
    elemOut t ty.width (t.elems ty.width) m
      (fun y e => (x.ins.any fun b => t.readTaint ty.width b y e) ||
        match src t y e with
        | some p => t.readTaint ty.width a p.1 p.2
        | none => false)
      fun y e => match src t y e with
        | some p => (t.read ty a p.1 p.2, 0)
        | none => (0, 0)

/-- VBCAST (R190). -/
def execVbcast (d : VDst) (a : VSrc) (t : ElemTy) (m : Mask) (s : State) :=
  moveWord s d a t m { ins := [], lat := 1, sr := 16 } fun _ _ e => some (0, e)

/-- A tile that is not square (R193). -/
def squareTrap (ty : ElemTy) (t : Team) : Option Trap :=
  if t.rows = t.elems ty.width then none else some (.bounds, BitVec.ofNat 64 (t.elems ty.width + t.rows * 256))

/-- VTR: the tile must be square (R193). -/
def execVtr (d : VDst) (a : VSrc) (ty : ElemTy) (m : Mask) (s : State) :=
  moveWord s d a ty m { ins := [], lat := 4, sr := 16, occ := 2, bound := squareTrap ty } fun _ y e => some (e, y)

/-- VROT along a row or along the rows (R192). -/
def execVrot (d : VDst) (a : VSrc) (r : BitVec 7) (rows : Bool) (ty : ElemTy) (m : Mask) (s : State) :=
  moveWord s d a ty m { ins := [], lat := 2 } fun t y e =>
    if rows then some ((y + r.toNat) % t.rows, e) else some (y, (e + r.toNat) % t.elems ty.width)

/-- A power of two. -/
def isPow2 (n : Nat) : Bool := n != 0 && n = 2 ^ n.log2

/-- The low n bits of e in reverse order (R194). -/
def brev (e : Nat) : Nat → Nat
  | 0 => 0
  | n + 1 => e % 2 * 2 ^ n + brev (e / 2) n

/-- VPERM (R194). -/
def execVperm (p : PermMode) (d : VDst) (a : VSrc) (ty : ElemTy) (m : Mask) (s : State) :=
  let k := match p with
    | .stride k | .unstride k => 2 ^ k.toNat
    | .idx _ | .brev => 1
  let b := match p with
    | .idx b => [b]
    | .stride _ | .unstride _ | .brev => []
  let bound := fun (t : Team) =>
    let bad := match p with
      | .idx _ => false
      | .stride _ | .unstride _ | .brev => !isPow2 (t.elems ty.width) || t.elems ty.width % k != 0
    if bad then some (Cause.bounds, BitVec.ofNat 64 (t.elems ty.width + k * 256)) else none
  moveWord s d a ty m { ins := b, lat := 4, sr := 16, occ := 2, bound := bound } fun t y e =>
    let n := t.elems ty.width
    match p with
    | .idx b => let i := t.read ty b y e; if i < n then some (y, i) else none
    | .stride _ => let g := n / k; some (y, e % g * k + e / g)
    | .unstride _ => some (y, e % k * (n / k) + e / k)
    | .brev => some (y, brev e n.log2)

/-- A row or element outside the active region (R191). -/
def cellTrap (row : BitVec 4) (el : BitVec 7) (ty : ElemTy) (t : Team) : Option Trap :=
  if t.rows ≤ row.toNat || t.elems ty.width ≤ el.toNat then
    some (.bounds, BitVec.ofNat 64 (el.toNat + row.toNat * 256))
  else none

/-- VEXT (R191). -/
def execVext (d : VDst) (a : VSrc) (row : BitVec 4) (el : BitVec 7) (ty : ElemTy) (m : Mask) (s : State) :=
  moveWord s d a ty m { ins := [], lat := 2, bound := cellTrap row el ty } fun _ _ _ => some (row.toNat, el.toNat)

/-- VINS (R191). -/
def execVins (d : VDst) (a : VSrc) (row : BitVec 4) (el : BitVec 7) (ty : ElemTy) (m : Mask) (s : State) :=
  vecReg s { ins := [a], ty := some ty, mask := m, lat := 2, bound := cellTrap row el ty } d fun t =>
    gridOut t.rows ty.width (t.elems ty.width) fun y e =>
      if y = row.toNat && e = el.toNat && t.enabled m y e then
        some ⟨t.read ty a 0 0, t.readTaint ty.width a 0 0 || t.maskTaint m y, 0⟩
      else none

/-- The enabled active elements in row-major order (R195). -/
def Team.chosen (t : Team) (m : Mask) (n : Nat) : List (Nat × Nat) :=
  (List.range (t.rows * n)).filterMap fun i => if t.enabled m (i / n) (i % n) then some (i / n, i % n) else none

/-- Some active mask row is tainted (R195, R196). -/
def Team.maskTainted (t : Team) (m : Mask) : Bool := (List.range t.rows).any (t.maskTaint m)

/-- VCOMP packs the enabled elements; lat takes their count (R195). (Log: 41 DEDUCED.) -/
def execVcomp (d : VDst) (a : VSrc) (ty : ElemTy) (m : Mask) (s : State) :=
  vecOut s { ins := [a], ty := some ty, mask := m, lat := 4, sr := 16, occ := 2 } (.reg d 0) Team.rows
    (fun t => .value ⟨BitVec.ofNat 16384 (t.chosen m (t.elems ty.width)).length, if t.maskTainted m then 3 else 0⟩)
    fun t =>
      let n := t.elems ty.width
      let l := t.chosen m n
      gridOut t.rows ty.width n fun y e => match l[n * y + e]? with
        | some p => some ⟨t.read ty a p.1 p.2, t.readTaint ty.width a p.1 p.2 || t.maskTaint m p.1, 0⟩
        | none => some ⟨0, false, 0⟩

/-- The place of an element among the enabled ones before it (R195). -/
def Team.rank (t : Team) (m : Mask) (n i : Nat) : Nat :=
  ((List.range i).filter fun k => t.enabled m (k / n) (k % n)).length

/-- VEXP spreads elements over the enabled places (R195). (Log: 41 DEDUCED.) -/
def execVexp (d : VDst) (a : VSrc) (ty : ElemTy) (m : Mask) (s : State) :=
  moveWord s d a ty m { ins := [], lat := 4, sr := 16, occ := 2 } fun t y e =>
    let n := t.elems ty.width
    let j := t.rank m n (n * y + e)
    some (j / n, j % n)

/-- The key of an INT32 element (R196). -/
def keyOf (x : Nat) : Nat := if x ≤ 14 then x else 15

/-- Enabled element indices with their keys, in ascending order of index (R196). -/
def Team.keys (t : Team) (m : Mask) (a : VSrc) : List (Nat × Nat) :=
  (t.chosen m (t.elems 32)).map fun p => (keyOf (t.read .i32 a p.1 p.2), 32 * p.1 + p.2)

/-- Elements of width 32 laid out from a list, element 0 lowest. -/
def packWords : List Nat → Nat
  | [] => 0
  | x :: l => x % 2 ^ 32 + 2 ^ 32 * packWords l

/-- VPART sorts element indices by key; lat takes the counts and first slots (R196). (Log: 41 DEDUCED.) -/
def execVpart (d : VDst) (a : VSrc) (m : Mask) (s : State) :=
  let counts := fun (t : Team) => (List.range 16).map fun k => ((t.keys m a).filter (·.1 = k)).length
  let tainted := fun (t : Team) => t.maskTainted m || (t.chosen m (t.elems 32)).any fun p => t.readTaint 32 a p.1 p.2
  vecOut s { ins := [a], mask := m, lat := 6, sr := 16, occ := 2 } (.reg d 0) (fun _ => 16)
    (fun t => .value ⟨BitVec.ofNat 16384 (packWords (counts t ++ (List.range 16).map fun k => ((counts t).take k).sum)),
      if tainted t then BitVec.allOnes 512 else 0⟩)
    fun t =>
      let l := (List.range 16).flatMap fun k => ((t.keys m a).filter (·.1 = k)).map (·.2)
      ⟨packWords (l ++ List.replicate (512 - l.length) 0x80000000), 2 ^ 16384 - 1, if tainted t then 2 ^ 512 - 1 else 0, 0⟩

/-- VSHAPE lands at issue + 1 (R197). (Log: 40 DEDUCED.) -/
def execVshape (rows rowb : BitVec 5) (s : State) :=
  vecWrite s { ins := [], other := [], lat := 1, sr := 16 } fun _ => .vshape rows.toNat rowb.toNat

/-! ## Bit words (R198 to R201) -/

/-- Entry i of a bit-network pattern (R198). -/
def netEntry (v : VImage) (i : Nat) : Nat := fld v.toNat (16 * i) 16

/-- The first entry of a pattern image with a reserved bit set (R198). -/
def netTrap (a : VSrc) (t : Team) : Option Trap :=
  let v := (t.whole .i16 a).bits
  ((List.range 1024).find? fun i => fld (netEntry v i) 10 4 ≠ 0).map fun i => (.bounds, BitVec.ofNat 64 i)

/-- VBNLD loads a pattern from a whole image (R198). -/
def execVbnld (p : BitVec 3) (a : VSrc) (s : State) :=
  vecWrite s { ins := [a], other := [], lat := 4, sr := 16, occ := 2, range := netTrap a } fun t =>
    let v := t.whole .i16 a
    .bitpat p v.bits (v.taint != 0)

/-- The bit of an active row that an output bit names; a broadcast source repeats its element (R199). -/
def srcBit (t : Team) (a : VSrc) (ty : ElemTy) (y i : Nat) : Bool :=
  i < 64 * t.rowb && (t.read ty a y (i / ty.width)).testBit (i % ty.width)

/-- Output bit i of row y under a pattern (R199). -/
def netBit (t : Team) (p : BitVec 3) (a : VSrc) (ty : ElemTy) (y i : Nat) : Bool :=
  let e := netEntry (t.n.get p.toFin).bits i
  e / 2 ^ 15 = 0 && (srcBit t a ty y (e % 1024) != (fld e 14 1 = 1))

/-- n output bits from bit i of row y. -/
def netBits (t : Team) (p : BitVec 3) (a : VSrc) (ty : ElemTy) (y i : Nat) : Nat → Nat
  | 0 => 0
  | n + 1 => netBits t p a ty y i n + (if netBit t p a ty y (i + n) then 2 ^ n else 0)

/-- VBNET (R199). -/
def execVbnet (d : VDst) (a : VSrc) (p : BitVec 3) (ty : ElemTy) (m : Mask) (s : State) :=
  vecReg s { ins := [a], ty := some ty, mask := m, other := [.csr 0x12, .net p.toNat], lat := 3 } d fun t =>
    elemOut t ty.width (t.elems ty.width) m
      (fun y e => (t.n.get p.toFin).t || (List.range ty.width).any fun k =>
        let x := netEntry (t.n.get p.toFin).bits (ty.width * e + k)
        x / 2 ^ 15 = 0 && decide (x % 1024 < 64 * t.rowb) && t.readTaint 32 a y (x % 1024 / 32))
      fun y e => (netBits t p a ty y (ty.width * e) ty.width, 0)

/-- FP6 codes have a crumb plane beside their nibbles (R201). -/
def hasCrumbs : ElemTy → Bool
  | .e3m2 | .e2m3 => true
  | .f64 | .f32 | .bf16 | .f16 | .e4m3 | .e5m2 | .q4 | .c4 | .i8 | .i16 | .i32 | .i64 | .r32 | .r64 => false

/-- The nibbles and crumbs that vpack writes of codes 0 to n - 1 of a row (R201). -/
def packRow (t : Team) (a : VSrc) (ty : ElemTy) (m : Mask) (y : Nat) : Nat → VOut
  | 0 => .none
  | n + 1 =>
    let r := packRow t a ty m y n
    if t.enabled m y n then
      let c := t.read .i8 a y n
      let tn := t.readTaint 8 a y n || t.maskTaint m y
      if hasCrumbs ty then (r.put (4 * n) 4 ⟨c / 4, tn, 0⟩).put (512 + 2 * n) 2 ⟨c, tn, 0⟩
      else r.put (4 * n) 4 ⟨c, tn, 0⟩
    else r

/-- VPACK (R201). -/
def execVpack (d : VDst) (a : VSrc) (ty : ElemTy) (m : Mask) (s : State) :=
  vecReg s { ins := [a], mask := m, lat := 2 } d fun t =>
    rowsOut (fun y => packRow t a ty m y (8 * t.rowb)) t.rows

/-- VUNPK (R201). -/
def execVunpk (d : VDst) (a : VSrc) (ty : ElemTy) (m : Mask) (s : State) :=
  let byte := fun (t : Team) y i => t.read .i8 a y i
  vecReg s { ins := [a], mask := m, lat := 2 } d fun t =>
    elemOut t 8 (8 * t.rowb) m
      (fun y e => t.readTaint 8 a y (e / 2) || (hasCrumbs ty && t.readTaint 8 a y (64 + e / 4)))
      fun y e =>
        let nib := fld (byte t y (e / 2)) (4 * (e % 2)) 4
        (if hasCrumbs ty then nib * 4 + fld (byte t y (64 + e / 4)) (2 * (e % 4)) 2 else nib, 0)

/-! ## Select and mask words (R205, R206) -/

/-- VSEL writes every active element from a where enabled and from b elsewhere (R205). -/
def execVsel (d : VDst) (a b : VSrc) (ty : ElemTy) (m : Mask) (s : State) :=
  vecReg s { ins := [a, b], ty := some ty, mask := m, lat := 1, sr := 16 } d fun t =>
    gridOut t.rows ty.width (t.elems ty.width) fun y e =>
      let x := if t.enabled m y e then a else b
      some ⟨t.read ty x y e, t.readTaint ty.width x y e || t.maskTaint m y, 0⟩

/-- A word of masks on the elements of a type (R206). -/
def kWord (s : State) (d : BitVec 3) (ks : List (BitVec 3)) (ty : ElemTy) (f : List Bool → Bool) :
    Host.Outcome State Fault Refusal :=
  vecMask s { ins := [], other := .csr 0x12 :: (ks.filter (· != 0)).map (.mask ·.toNat), lat := 1, sr := 16 } d fun t =>
    maskOut t.rows (t.elems ty.width) fun y e =>
      some ⟨if f (ks.map fun k => (t.getK k).bits.getLsbD (128 * y + e)) then 1 else 0,
        ks.any fun k => (t.getK k).taint.getLsbD y, 0⟩

/-- KAND (R206). -/
def execKand (d a b : BitVec 3) (t : ElemTy) (s : State) := kWord s d [a, b] t fun l => l.all id
/-- KOR (R206). -/
def execKor (d a b : BitVec 3) (t : ElemTy) (s : State) := kWord s d [a, b] t fun l => l.any id
/-- KNOT (R206). -/
def execKnot (d a : BitVec 3) (t : ElemTy) (s : State) := kWord s d [a] t fun l => !(l.getD 0 false)
/-- KMOV: 1 where any bit of the element is 1 (R206). -/
def execKmov (d : BitVec 3) (a : VSrc) (ty : ElemTy) (s : State) :=
  vecMask s { ins := [a], ty := some ty, lat := 1, sr := 16 } d fun t =>
    maskOut t.rows (t.elems ty.width) fun y e =>
      some ⟨if t.read ty a y e = 0 then 0 else 1, t.readTaint ty.width a y e, 0⟩

end Sys2Proof.Machine
end

