-- ==== Sys2Proof/Machine/Modular.lean ====
section
/-! DEFINITION. The modular words of vec (R207 to R216): residues under each row's modulus, the range check before any
effect, and the loading of modulus sets. -/

namespace Sys2Proof.Machine

/-- Entry y of a modulus set (R70, R207). -/
def Team.entry (t : Team) (ms : BitVec 3) (y : Nat) : Option ModEntry := ((t.m.get ms.toFin).toList.getD y none)

/-- The modulus of a row, once the range check has found its entry loaded (R209). -/
def Team.modulus (t : Team) (ms : BitVec 3) (y : Nat) : Nat :=
  match t.entry ms y with
  | some e => e.q
  | none => 1

/-- The taint of a row's entry (R211). -/
def Team.entryTaint (t : Team) (ms : BitVec 3) (y : Nat) : Bool :=
  match t.entry ms y with
  | some e => e.taint
  | none => false

/-- Element e of row y of a residue operand; a negative immediate is taken modulo the row's modulus (R66, R209). -/
def Team.residue (t : Team) (ms : BitVec 3) (ty : ElemTy) (x : VSrc) (y e : Nat) : Nat :=
  t.readWith (fun y i => if i < 0 then (i % (t.modulus ms y : Int)).toNat else i.toNat) ty x y e

/-- The first active row whose entry is unloaded or of the other width (R70, R209). (Log: 36 DEDUCED.) -/
def entryTrap (ms : BitVec 3) (ty : ElemTy) (t : Team) : Option Trap :=
  let ok := fun y => match t.entry ms y with
    | some e => e.wide = (ty = .r64)
    | none => false
  ((List.range t.rows).find? fun y => !ok y).map fun y => (.modular, BitVec.ofNat 64 (2 ^ 19 + y * 256 + ms.toNat))

/-- The first operand element that is not below its row's modulus, fields a, b, d in order, lowest row then lowest
element first (R209). `reads` says which elements of a field are read. -/
def rangeTrap (ms : BitVec 3) (ty : ElemTy) (fields : List (VSrc × Nat × (Team → Nat → Nat → Bool))) (t : Team) :
    Option Trap :=
  let n := t.elems ty.width
  fields.findSome? fun f =>
    ((List.range (t.rows * n)).find? fun i =>
      f.2.2 t (i / n) (i % n) && t.modulus ms (i / n) ≤ t.residue ms ty f.1 (i / n) (i % n)).map fun i =>
        (.modular, BitVec.ofNat 64 (i % n * 4096 + i / n * 256 + f.2.1))

/-- Both range checks of a modular word (R209). (Log: 36 DEDUCED.) -/
def modTrap (ms : BitVec 3) (ty : ElemTy) (fields : List (VSrc × Nat × (Team → Nat → Nat → Bool))) (t : Team) :
    Option Trap := (entryTrap ms ty t).orElse fun _ => rangeTrap ms ty fields t

/-- Slice rows of a modular multiplier or butterfly (R80). -/
def modRows (ty : ElemTy) : Nat := if ty = .r64 then 4 else 8

/-- An elementwise modular word: `f q l` of the row's modulus and the operands (R212). -/
def modWord (s : State) (d : VDst) (ins : List (VSrc × Nat)) (ms : BitVec 3) (ty : ElemTy) (m : Mask) (lat sr : Nat)
    (f : Nat → List Nat → Nat) : Host.Outcome State Fault Refusal :=
  let on := fun (t : Team) y e => t.enabled m y e
  let range := modTrap ms ty (ins.map fun x => (x.1, x.2, on))
  vecReg s { ins := ins.map (·.1), mask := m, other := [.csr 0x12, .set ms.toNat], lat := lat, sr := sr, range := range } d
    fun t => elemOut t ty.width (t.elems ty.width) m
      (fun y e => t.entryTaint ms y || ins.any fun x => t.readTaint ty.width x.1 y e)
      fun y e => (f (t.modulus ms y) (ins.map fun x => t.residue ms ty x.1 y e), 0)

/-- A source operand with its selector. -/
def sel (x : VSrc) : VSrc × Nat := (x, x.code)

/-- VMMUL (R212). -/
def execVmmul (d : VDst) (a b : VSrc) (ms : BitVec 3) (t : ElemTy) (m : Mask) (s : State) :=
  modWord s d [sel a, sel b] ms t m 6 (modRows t) fun q => two fun x y => x * y % q
/-- VMADD (R212). -/
def execVmadd (d : VDst) (a b : VSrc) (ms : BitVec 3) (t : ElemTy) (m : Mask) (s : State) :=
  modWord s d [sel a, sel b] ms t m 2 8 fun q => two fun x y => (x + y) % q
/-- VMSUB (R212). -/
def execVmsub (d : VDst) (a b : VSrc) (ms : BitVec 3) (t : ElemTy) (m : Mask) (s : State) :=
  modWord s d [sel a, sel b] ms t m 2 8 fun q => two fun x y => (x + (q - y % q)) % q

/-- The old value of a destination as a source (R212). -/
def dstSrc : VDst → VSrc
  | .v r => .v r
  | .o r => .o r
  | .lat => .lat
  | .w _ => .imm 16

/-- VMMAC accumulates in its destination (R212). -/
def execVmmac (d : VDst) (a b : VSrc) (ms : BitVec 3) (t : ElemTy) (m : Mask) (s : State) :=
  modWord s d [sel a, sel b, sel (dstSrc d)] ms t m 6 (modRows t) fun q l => (l.getD 0 0 * l.getD 1 0 + l.getD 2 0) % q

/-- VMRED brings an integer into range; it checks no operand (R213). -/
def execVmred (r : RedMode) (d : VDst) (a : VSrc) (ms : BitVec 3) (ty : ElemTy) (m : Mask) (s : State) :=
  let low := match r with
    | .w b | .sw b => [b]
    | .u | .s => []
  let signed := match r with
    | .s | .sw _ => true
    | .u | .w _ => false
  vecReg s { ins := a :: low, mask := m, other := [.csr 0x12, .set ms.toNat], lat := 6, sr := modRows ty,
             range := entryTrap ms ty } d fun t =>
    elemOut t ty.width (t.elems ty.width) m
      (fun y e => t.entryTaint ms y || (a :: low).any fun x => t.readTaint ty.width x y e)
      fun y e =>
        let hi := readInt ty.width (!signed) (t.residue ms ty a y e)
        let x := low.foldl (fun acc b => acc * 2 ^ ty.width + (t.residue ms ty b y e : Int)) hi
        ((x % (t.modulus ms y : Int)).toNat, 0)

/-- k too large, or E no power of two (R214). -/
def bflyTrap (k : BitVec 3) (ty : ElemTy) (t : Team) : Option Trap :=
  if isPow2 (t.elems ty.width) && 2 * 2 ^ k.toNat ≤ t.elems ty.width then none else some (.bounds, k.setWidth 64)

/-- A butterfly: pairs at distance h, computed when either element is enabled (R214). `f q u v w` gives both
results. -/
def bflyWord (s : State) (d : VDst) (a b : VSrc) (ms k : BitVec 3) (ty : ElemTy) (m : Mask)
    (f : Nat → Nat → Nat → Nat → Nat × Nat) : Host.Outcome State Fault Refusal :=
  let h := 2 ^ k.toNat
  let lower := fun e => if e % (2 * h) < h then e else e - h
  let pair := fun (t : Team) y e => t.enabled m y (lower e) || t.enabled m y (lower e + h)
  let twid := fun (t : Team) y e => decide (e % (2 * h) < h) && pair t y e
  vecReg s { ins := [a, b], mask := m, other := [.csr 0x12, .set ms.toNat], lat := 8, sr := modRows ty,
             bound := bflyTrap k ty, range := modTrap ms ty [(a, a.code, pair), (b, b.code, twid)] } d fun t =>
    elemOut t ty.width (t.elems ty.width) m
      (fun y e => t.entryTaint ms y || t.readTaint ty.width a y (lower e) ||
        t.readTaint ty.width a y (lower e + h) || t.readTaint ty.width b y (lower e))
      fun y e =>
        let r := f (t.modulus ms y) (t.residue ms ty a y (lower e)) (t.residue ms ty a y (lower e + h))
          (t.residue ms ty b y (lower e))
        (if lower e = e then r.1 else r.2, 0)

/-- VBFLY, the forward butterfly (R215). (Log: 36 DEDUCED.) -/
def execVbfly (d : VDst) (a b : VSrc) (ms k : BitVec 3) (t : ElemTy) (m : Mask) (s : State) :=
  bflyWord s d a b ms k t m fun q u v w => ((u + w * v) % q, (u + (q - w * v % q)) % q)
/-- VIBFLY, the inverse butterfly (R216). -/
def execVibfly (d : VDst) (a b : VSrc) (ms k : BitVec 3) (t : ElemTy) (m : Mask) (s : State) :=
  bflyWord s d a b ms k t m fun q u v w => ((u + v) % q, (u + (q - v % q)) * w % q)

/-- A modulus in range (R40, R210). -/
def modOk (ty : ElemTy) (q : Nat) : Bool := 2 ≤ q && q < (if ty = .r64 then 2 ^ 62 else 2 ^ 31)

/-- The active rows whose element 0 is enabled, with that element (R210). -/
def setRows (a : VSrc) (ty : ElemTy) (m : Mask) (t : Team) : List (Nat × Nat) :=
  (List.range t.rows).filterMap fun y => if t.enabled m y 0 then some (y, t.read ty a y 0) else none

/-- The first modulus out of range (R210). -/
def setTrap (a : VSrc) (ty : ElemTy) (m : Mask) (t : Team) : Option Trap :=
  ((setRows a ty m t).find? fun x => !modOk ty x.2).map fun x => (.bounds, BitVec.ofNat 64 x.2)

/-- VMSET loads entries from element 0 of each enabled active row (R210, R211). -/
def execVmset (ms : BitVec 3) (a : VSrc) (ty : ElemTy) (m : Mask) (s : State) :=
  vecWrite s { ins := [a], mask := m, lat := 4, sr := 16, range := setTrap a ty m } fun t =>
    .modset ms ((setRows a ty m t).map fun x =>
      (x.1, ⟨x.2, ty = .r64, (if ty = .r64 then 2 ^ 128 else 2 ^ 64) / x.2, t.readTaint ty.width a x.1 0⟩))

end Sys2Proof.Machine
end

