-- ==== Sys2Proof/Machine/Stack.lean ====
section
/-! DEFINITION. The words of ctl that use the stack in scratchpad: call, callr and ret (R123). Their stack accesses are plain
scratchpad accesses of ctl's path (R124, R128, R328). -/

namespace Sys2Proof.Machine

/-- The dword of a stack access. -/
def stackSpan (a : Nat) : Span := spanOf .d a

/-- The checks of a push, in order: alignment of STKP, room above STKB, the target, and the store of the dword below STKP
(R123, R124). (Log: 137 DEDUCED.) -/
def pushTrap (t : Team) (p : Nat) : Option Trap :=
  let k := t.stkp
  if k.toNat % 8 ≠ 0 then some (.misalign, k)
  else if (k.toNat : Int) - 8 < t.stkb.toNat then some (.stack, k)
  else (targetTrap (t.col .ctl) p).orElse fun _ => spTrap t (stackSpan (k.toNat - 8)) true false

/-- The push of a call: STKP moves to the dword below it, which is written at issue + 1 (R123, R127). -/
def Team.pushRet (t : Team) (cx : Cur) (i : Instr) : Team :=
  let k := t.stkp.toNat - 8
  { t with stkp := BitVec.ofNat 64 k }.again cx (t.clock .ctl + 1) .access [k] i

/-- The dword of a call's push is written: P + 1, untainted (R123). -/
def pushAccess (s : State) : Host.Outcome State Fault Refusal :=
  onTeam s fun t =>
    let x := stackSpan (s.cur.args.headD 0)
    (s.setTeam (t.spPut x.a x.n (s.cur.pos + 1) (allBits x.n) (t.freshTaints 0 x.n [x.a]))).afterRows s.cur 0 true t x.n [x.a]

/-- CALL (R123, R170). -/
def execCall (off : BitVec 40) (s : State) : Host.Outcome State Fault Refusal :=
  let p := target s.cur.pos off.toInt
  if s.cur.phase = .access then pushAccess s
  else runWord s (fun _ t => { regs := [.csr 0x22], late := pushTrap t p }) fun s t =>
    done1 s ((t.pushRet s.cur (.call off)).jump s.cur p (openLoops s) true)

/-- CALLR (R117, R123). -/
def execCallr (a : SReg) (s : State) : Host.Outcome State Fault Refusal :=
  if s.cur.phase = .access then pushAccess s
  else runWord s (fun _ t =>
    let x := t.getS a
    { regs := [.s a, .csr 0x22],
      late := (strictTaint t [(x, a.setWidth 64)]).orElse fun _ => pushTrap t x.v.toNat })
    fun s t => done1 s ((t.pushRet s.cur (.callr a)).jump s.cur (t.getS a).v.toNat (openLoops s) true)

/-- The checks of a pop before its dword is read, in order: alignment, the stack's end, and the load (R123, R124).
(Log: 137 DEDUCED.) -/
def popTrap (t : Team) : Option Trap :=
  let k := t.stkp
  if k.toNat % 8 ≠ 0 then some (.misalign, k)
  else if t.stkl.toNat < k.toNat + 8 then some (.stack, k)
  else spTrap t (stackSpan k.toNat) false true

/-- The checks of a popped value: its taint under strict, and the target (R117, R121, R123). -/
def poppedTrap (t : Team) : Option Trap :=
  let k := t.stkp
  if t.ndet = 2 && (t.view 0).spTaint k.toNat 8 then some (.taint, k)
  else targetTrap (t.col .ctl) (readNat (t.view 0).spad k.toNat 8)

/-- RET: the dword at STKP is sampled and checked at issue + 1; then STKP rises, and ctl continues at it at issue + 2 (R80,
R123). (Log: 137 DEDUCED.) -/
def execRet (s : State) : Host.Outcome State Fault Refusal :=
  if s.cur.phase = .access then
    onTeam s fun t =>
      let k := t.stkp.toNat
      match poppedTrap t with
      | some e => s.raise t s.cur e
      | none =>
        let p := readNat (t.view 0).spad k 8
        let u := { t with stkp := t.stkp + 8 }.modCol .ctl fun x =>
          { x with head := p, loops := keepLoops s.cur.pos p s.cur.loops, word := none }
        (s.setTeam (u.signalAt s.cur (t.clock .ctl))).afterRows s.cur 0 false t 8 [k]
  else runWord s (fun _ t =>
      { regs := [.csr 0x22], late := popTrap t,
        stall := (t.spBad t.stkp.toNat 8).isNone && t.unsealed (t.col .ctl).timed t.stkp.toNat 8 }) fun s t =>
    s.setTeam ((t.again s.cur (t.clock .ctl + 1) .access [] .ret).modCol .ctl fun x => { x with portFree := t.clock .ctl + 2 })

end Sys2Proof.Machine
end

