-- ==== Sys2Proof/Machine/VTab.lean ====
section
/-! DEFINITION. Table-interpolated functions (R54 to R56, R202 to R204): the built-in nodes, the exact interpolant, the
reductions and special cases, and correctly rounded values. A real function is bracketed by two rationals at a growing
precision until both ends round alike; the functions have no value at a rounding boundary but those taken exactly
below. -/

namespace Sys2Proof.Machine

/-! ## Exact fractions -/

/-- An exact fraction num / den. -/
structure Frac where
  num : Int
  den : Nat
  deriving DecidableEq, Repr

/-- A sum of fractions. -/
def Frac.add (a b : Frac) : Frac :=
  if a.den = b.den then ⟨a.num + b.num, a.den⟩ else ⟨a.num * b.den + b.num * a.den, a.den * b.den⟩
/-- A product of fractions. -/
def Frac.mul (a b : Frac) : Frac := ⟨a.num * b.num, a.den * b.den⟩
/-- A fraction as an exact value; a zero has the sign +. -/
def Frac.val (a : Frac) : Val := .fin (a.num < 0) a.num.natAbs a.den
/-- The exact value of an FP32 code (R17). -/
def valF32 (c : BitVec 32) : Val := decodeF (fmtOf .f32) c.toNat

/-! ## Brackets of real numbers -/

/-- A nonnegative real between lo / 2^k and hi / 2^k. -/
structure Bracket where
  lo : Nat
  hi : Nat
  deriving DecidableEq, Repr

/-- n / d rounded up. -/
def ceilDiv (n d : Nat) : Nat := (n + d - 1) / d

/-- A fraction n / d. -/
def brk (k n d : Nat) : Bracket := ⟨n * 2 ^ k / d, ceilDiv (n * 2 ^ k) d⟩
/-- A sum. -/
def Bracket.plus (a b : Bracket) : Bracket := ⟨a.lo + b.lo, a.hi + b.hi⟩
/-- A difference that is not negative. -/
def Bracket.minus (a b : Bracket) : Bracket := ⟨a.lo - b.hi, a.hi - b.lo⟩
/-- A product. -/
def Bracket.times (k : Nat) (a b : Bracket) : Bracket := ⟨a.lo * b.lo / 2 ^ k, ceilDiv (a.hi * b.hi) (2 ^ k)⟩
/-- A quotient by a positive real. -/
def Bracket.over (k : Nat) (a b : Bracket) : Bracket := ⟨a.lo * 2 ^ k / b.hi, ceilDiv (a.hi * 2 ^ k) (b.lo + (if b.lo = 0 then 1 else 0))⟩
/-- A multiple n / d. -/
def Bracket.part (a : Bracket) (n d : Nat) : Bracket := ⟨a.lo * n / d, ceilDiv (a.hi * n) d⟩
/-- A square root. -/
def Bracket.sqrt (k : Nat) (a : Bracket) : Bracket :=
  let root := fun n => isqrt n (n.log2 / 2 + 1) 0
  ⟨root (a.lo * 2 ^ k), root (a.hi * 2 ^ k) + 1⟩

/-- n more terms of a series: each term is the one before it times x and a / b of its index, and is divided by c of its
index; the rest is below the last term's power. -/
def series (k : Nat) (x : Bracket) (a b c : Nat → Nat) : Nat → Nat → Bracket → Bracket → Bracket
  | 0, _, t, acc => ⟨acc.lo, acc.hi + 2 * t.hi + 2⟩
  | n + 1, i, t, acc =>
    series k x a b c n (i + 1) ((t.times k x).part (a i) (b i)) (acc.plus (t.part 1 (c i)))

/-- 1. -/
def oneB (k : Nat) : Bracket := ⟨2 ^ k, 2 ^ k⟩

/-- The logarithm of 2: twice the area hyperbolic tangent of 1/3. -/
def ln2B (k : Nat) : Bracket :=
  (series k (brk k 1 9) (fun _ => 1) (fun _ => 1) (fun i => 2 * i + 1) (k / 3 + 4) 0 (brk k 1 3) ⟨0, 0⟩).part 2 1

/-- The number pi: six times the arc sine of 1/2. -/
def piB (k : Nat) : Bracket :=
  (series k (brk k 1 4) (fun i => 2 * i + 1) (fun i => 2 * i + 2) (fun i => 2 * i + 1) (k / 2 + 4) 0 (brk k 1 2)
    ⟨0, 0⟩).part 6 1

/-- j squarings. -/
def squares (k : Nat) : Nat → Bracket → Bracket
  | 0, a => a
  | j + 1, a => squares k j (a.times k a)

/-- e to the power y of a nonnegative real below 512. -/
def expB (k : Nat) (y : Bracket) : Bracket :=
  let j := 18
  squares k j (series k (y.part 1 (2 ^ j)) (fun _ => 1) (fun i => i + 1) (fun _ => 1) (k / 8 + 4) 0 (oneB k) ⟨0, 0⟩)

/-- The natural logarithm of n / d between 1 and 2. -/
def lnB (k n d : Nat) : Bracket :=
  let z := brk k (n - d) (n + d)
  (series k (z.times k z) (fun _ => 1) (fun _ => 1) (fun i => 2 * i + 1) (k / 3 + 4) 0 z ⟨0, 0⟩).part 2 1

/-- The sine of x over x, from its even and odd terms. -/
def sincB (k : Nat) (x : Bracket) : Bracket :=
  let q := x.times k x
  let q2 := q.times k q
  let run := fun (first : Bracket) (o : Nat) =>
    series k q2 (fun _ => 1) (fun i => (4 * i + o) * (4 * i + o + 1) * (4 * i + o + 2) * (4 * i + o + 3)) (fun _ => 1)
      (k / 12 + 8) 0 first ⟨0, 0⟩
  (run (oneB k) 2).minus (run (q.part 1 6) 4)

/-- The sine of pi times u = n / d, u at most 1/2. -/
def sinpiB (k n d : Nat) : Bracket :=
  let x := (piB k).part n d
  ((sincB k x).times k (piB k)).part n d

/-- x times the sum of (g x^2)^i over the double factorial of 2 i + 1, with x = n / d (g is 1 or 2). -/
def oddSum (k g n d : Nat) : Bracket :=
  let q := (brk k (g * n * n) (d * d))
  series k q (fun _ => 1) (fun i => 2 * i + 3) (fun _ => 1) (k / 2 + 4 * (g * n * n / (d * d)) + 24) 0 (brk k n d) ⟨0, 0⟩

/-- The normal density at n / d. -/
def densB (k n d : Nat) : Bracket :=
  (oneB k).over k (((piB k).part 2 1).sqrt k |>.times k (expB k (brk k (n * n) (2 * d * d))))

/-- The normal distribution at n / d or, if `neg`, at -n / d. -/
def normB (k : Nat) (neg : Bool) (n d : Nat) : Bracket :=
  let x := (densB k n d).times k (oddSum k 1 n d)
  if neg then (brk k 1 2).minus x else (brk k 1 2).plus x

/-- The error function of n / d. -/
def erfB (k n d : Nat) : Bracket :=
  let c := (brk k 2 1).over k ((piB k).sqrt k)
  (c.times k (oddSum k 2 n d)).over k (expB k (brk k (n * n) (d * d)))

/-- The logistic function at n / d or -n / d. -/
def sigB (k : Nat) (neg : Bool) (n d : Nat) : Bracket :=
  let e := expB k (brk k n d)
  if neg then (oneB k).over k (e.plus (oneB k)) else e.over k (e.plus (oneB k))

/-- 2 to the power n / d, between 0 and 1. -/
def exp2B (k n d : Nat) : Bracket := expB k ((ln2B k).part n d)

/-- The hyperbolic tangent of n / d. -/
def tanhB (k n d : Nat) : Bracket :=
  let e := expB k (brk k (2 * n) d)
  (e.minus (oneB k)).over k (e.plus (oneB k))

/-! ## Correct rounding -/

/-- A real function's value: sign, exact fraction, or brackets at every precision. -/
inductive RealV where
  | exact (v : Val)
  | real (neg : Bool) (f : Nat → Bracket)

/-- The ends of a bracket rounded; equal ends are the result. (Log: 135 DEDUCED.) -/
def rounded (x : Fmt) (mode : Mode) (sat neg : Bool) (f : Nat → Bracket) : List Nat → Nat × Exc
  | [] => (0, 0)
  | [k] => deliver x mode sat (.fin neg (f k).lo (2 ^ k))
  | k :: l =>
    let b := f k
    let lo := deliver x mode sat (.fin neg b.lo (2 ^ k))
    let hi := deliver x mode sat (.fin neg b.hi (2 ^ k))
    if b.lo ≠ 0 && lo = hi then lo else rounded x mode sat neg f l

/-- A real value correctly rounded (R55). (Log: 135 DEDUCED.) -/
def RealV.deliver (x : Fmt) (mode : Mode) (sat : Bool) : RealV → Nat × Exc
  | .exact v => Machine.deliver x mode sat v
  | .real neg f => rounded x mode sat neg f [128, 256, 512, 1024]

/-- A value just above or below n / d, nearer to it than any rounding boundary of a 24-bit format.
(Log: 135 DEDUCED.) -/
def nudge (neg up : Bool) (n d : Nat) : RealV :=
  .exact (.fin neg (n * (2 ^ 70 + (if up then 1 else 0) - (if up then 0 else 1))) (d * 2 ^ 70))

/-- A positive value below every format's least subnormal. -/
def speck (neg : Bool) : RealV := .exact (.fin neg 1 (2 ^ 400))

/-- |x| < 2^-30. -/
def minute (n d : Nat) : Bool := n * 2 ^ 30 < d

/-! ## The functions and their slopes -/

/-- n / d as an exact real. -/
def ratV (neg : Bool) (n d : Nat) : RealV := .exact (.fin neg n d)

/-- A function's value at a finite argument with sign neg and magnitude n / d, special cases aside (R54, R55). -/
def realOf (f : TabFn) (neg : Bool) (n d : Nat) : RealV :=
  match f with
  | .exp2 =>
    let fl : Int := if neg then -(ceilDiv n d : Int) else n / d
    let r := if neg then ceilDiv n d * d - n else n % d
    if 5000 < fl then ratV false (2 ^ 5000) 1
    else if fl < -5000 then speck false
    else if n % d = 0 then .exact (scale2 false 1 1 fl)
    else if minute n d then nudge false (!neg) 1 1
    else .real false fun k =>
      let b := exp2B (k + 8) r d
      if 0 ≤ fl then ⟨b.lo * 2 ^ fl.toNat / 256, ceilDiv (b.hi * 2 ^ fl.toNat) 256⟩
      else ⟨b.lo / 2 ^ (8 + (-fl).toNat), ceilDiv b.hi (2 ^ (8 + (-fl).toNat))⟩
  | .log2 =>
    let e := log2Q n d
    let p := if 0 ≤ e then (n, d * 2 ^ e.toNat) else (n * 2 ^ (-e).toNat, d)
    if p.1 = p.2 then ratV (e < 0) e.natAbs 1
    else if 0 ≤ e then .real false fun k => ((lnB k p.1 p.2).over k (ln2B k)).plus (brk k e.toNat 1)
    else .real true fun k => (brk k (-e).toNat 1).minus ((lnB k p.1 p.2).over k (ln2B k))
  | .rcp => ratV neg d n
  | .rsqrt => .exact (sqrtV (.fin false d n))
  | .sinpi =>
    let r := n % (2 * d)
    let half := if d ≤ r then r - d else r
    let u := if d < 2 * half then d - half else half
    let s := neg != decide (d ≤ r)
    if u = 0 then ratV neg 0 1 else if 2 * u = d then ratV s 1 1 else .real s fun k => sinpiB k u d
  | .cospi =>
    let r := n % (2 * d)
    let h := if d < r then 2 * d - r else r
    let s := d < 2 * h
    let u := if s then d - h else h
    if u = 0 then ratV s 1 1 else if 2 * u = d then ratV false 0 1
    else if minute u d then nudge s false 1 1
    else .real s fun k => sinpiB k (d - 2 * u) (2 * d)
  | .tanh =>
    if n = 0 then ratV neg 0 1
    else if minute n d then nudge neg false n d
    else if 64 * d ≤ n then nudge neg false 1 1
    else .real neg fun k => tanhB k n d
  | .sigmoid =>
    if n = 0 then ratV false 1 2
    else if minute n d then nudge false (!neg) 1 2
    else if 160 * d ≤ n then (if neg then speck false else nudge false false 1 1)
    else .real false fun k => sigB k neg n d
  | .erf =>
    if n = 0 then ratV neg 0 1
    else if 8 * d ≤ n then nudge neg false 1 1
    else if minute n d then .real neg fun k =>
      ((((brk k 2 1).over k ((piB k).sqrt k)).part (2 ^ 70 - 1) (2 ^ 70))).part n d
    else .real neg fun k => erfB k n d
  | .gelu =>
    if n = 0 then ratV neg 0 1
    else if minute n d then nudge neg (!neg) n (2 * d)
    else if 20 * d ≤ n then (if neg then speck true else nudge false false n d)
    else .real neg fun k => (normB k neg n d).part n d
  | .silu =>
    if n = 0 then ratV neg 0 1
    else if minute n d then nudge neg (!neg) n (2 * d)
    else if 160 * d ≤ n then (if neg then speck true else nudge false false n d)
    else .real neg fun k => (sigB k neg n d).part n d

/-- A difference of two brackets of either sign, as a real: the sign is settled at a high precision. -/
def diffV (a b : Nat → Bracket) : RealV :=
  if (b 1024).hi ≤ (a 1024).lo then .real false fun k => (a k).minus (b k) else .real true fun k => (b k).minus (a k)

/-- A function's derivative on its reduced range at n / d, negative if neg (R54). -/
def slopeOf (f : TabFn) (neg : Bool) (n d : Nat) : RealV :=
  match f with
  | .exp2 => .real false fun k => (exp2B k n d).times k (ln2B k)
  | .log2 => .real false fun k => ((oneB k).over k (ln2B k)).part d n
  | .rcp => ratV true (d * d) (n * n)
  | .rsqrt => .exact (sqrtV (.fin false (d * d * d) (4 * n * n * n))).negate
  | .sinpi => if 2 * n = d then ratV false 0 1 else .real false fun k =>
      ((if n = 0 then oneB k else sinpiB k (d - 2 * n) (2 * d))).times k (piB k)
  | .cospi => if n = 0 then ratV true 0 1 else if 2 * n = d then .real true fun k => piB k
      else .real true fun k => (sinpiB k n d).times k (piB k)
  | .tanh => if n = 0 then ratV false 1 1 else .real false fun k =>
      let e := expB k (brk k (2 * n) d)
      let s := e.plus (oneB k)
      (e.part 4 1).over k (s.times k s)
  | .erf => .real false fun k => ((brk k 2 1).over k ((piB k).sqrt k)).over k (expB k (brk k (n * n) (d * d)))
  | .sigmoid => if n = 0 then ratV false 1 4 else .real false fun k =>
      (sigB k neg n d).times k (sigB k (!neg) n d)
  | .gelu => if n = 0 then ratV false 1 2
      else if neg then diffV (fun k => normB k true n d) (fun k => (densB k n d).part n d)
      else .real false fun k => (normB k false n d).plus ((densB k n d).part n d)
  | .silu => if n = 0 then ratV false 1 2
      else
        let s := fun k => (sigB k neg n d)
        let w := fun k => ((sigB k neg n d).times k (sigB k (!neg) n d)).part n d
        if neg then diffV s w else .real false fun k => (s k).plus (w k)

/-! ## Tables (R54, R202) -/

/-- The start of a function's reduced range and its segment width, as fractions over 2^9 (R54). -/
def segOf : TabFn → Int × Nat
  | .exp2 => (0, 2)
  | .log2 | .rcp => (512, 2)
  | .rsqrt => (512, 6)
  | .sinpi | .cospi => (0, 1)
  | .tanh | .erf => (0, 16)
  | .sigmoid | .gelu | .silu => (-4096, 32)

/-- Node i of a built-in table: value and slope rounded to FP32 (R54). -/
def builtin (f : TabFn) (i : Nat) : BitVec 32 × BitVec 32 :=
  let x := (segOf f).1 + i * (segOf f).2
  let neg := x < 0
  let y := (realOf f neg x.natAbs 512).deliver (fmtOf .f32) 0 false
  let d := (slopeOf f neg x.natAbs 512).deliver (fmtOf .f32) 0 false
  (BitVec.ofNat 32 y.1, BitVec.ofNat 32 d.1)

/-- The four terms of the interpolant H at u (R54). u is un / ud and lies in the reduced range. A coefficient that is
zero counts as +0. (Log: 145 DEDUCED.) -/
def hermite (f : TabFn) (node : Nat → BitVec 32 × BitVec 32) (un : Int) (ud : Nat) : List Val :=
  let (lo, w) := segOf f
  let off := un * 512 - lo * ud
  let span : Int := w * ud
  let i := min (off / span).toNat 255
  let tn := off - i * span
  let t : Frac := ⟨tn, span.toNat⟩
  let t2 := t.mul t
  let t3 := t2.mul t
  let h : Frac := ⟨w, 512⟩
  let times := fun (a : Int) (x : Frac) => (⟨a * x.num, x.den⟩ : Frac)
  let c0 := ((times 2 t3).add (times (-3) t2)).add ⟨1, 1⟩
  let c1 := (t3.add (times (-2) t2)).add t
  let c2 := (times (-2) t3).add (times 3 t2)
  let c3 := t3.add (times (-1) t2)
  [mulV c0.val (valF32 (node i).1), mulV (c1.mul h).val (valF32 (node i).2),
    mulV c2.val (valF32 (node (i + 1)).1), mulV (c3.mul h).val (valF32 (node (i + 1)).2)]

/-- Reduction, interpolant and reconstruction at a finite argument in the function's domain (R54, R56); `none` lies
outside the reduced range of a function that has one. H is a sum, whose zero has the sign of R52, but that sine and
cosine give a zero the sign of sinPi and cosPi. (Log: 145 DEDUCED.) -/
def tabValue (f : TabFn) (node : Nat → BitVec 32 × BitVec 32) (mode : Mode) (neg : Bool) (n d : Nat) : Option Val :=
  let x : Int := if neg then -(n : Int) else n
  let at' := fun (un : Int) (ud : Nat) => sumV mode (hermite f node un ud)
  let times := fun (s : Bool) (k : Int) (v : Val) => mulV (scale2 s 1 1 k) v
  let folded := fun (s zero : Bool) (v : Val) => match times s 0 v with
    | .fin g a b => .fin (if a = 0 then zero else g) a b
    | y => y
  match f with
  | .exp2 => some (times false (max (-5000) (min (x / d) 5000)) (at' (x % d) d))
  | .log2 =>
    let e := log2Q n d
    let p := if 0 ≤ e then (n, d * 2 ^ e.toNat) else (n * 2 ^ (-e).toNat, d)
    some (sumV mode (.fin (e < 0) e.natAbs 1 :: hermite f node p.1 p.2))
  | .rcp =>
    let e := log2Q n d
    let p := if 0 ≤ e then (n, d * 2 ^ e.toNat) else (n * 2 ^ (-e).toNat, d)
    some (times neg (-e) (at' p.1 p.2))
  | .rsqrt =>
    let e := log2Q n d / 2
    let p := if 0 ≤ e then (n, d * 4 ^ e.toNat) else (n * 4 ^ (-e).toNat, d)
    some (times false (-e) (at' p.1 p.2))
  | .sinpi =>
    let r := n % (2 * d)
    let half := if d ≤ r then r - d else r
    let u := if d < 2 * half then d - half else half
    let s := neg != decide (d ≤ r)
    some (folded s (if u = 0 then neg else s) (at' u d))
  | .cospi =>
    let r := n % (2 * d)
    let h := if d < r then 2 * d - r else r
    let s := d < 2 * h
    let u := if s then d - h else h
    some (folded s (s && 2 * u != d) (at' u d))
  | .tanh | .erf => if 8 * d ≤ n then none else some (times neg 0 (at' n d))
  | .sigmoid | .gelu | .silu => if x < -8 * (d : Int) || 8 * (d : Int) ≤ x then none else some (at' x d)

/-- The special cases of R54's table: the result and its exceptions, if the argument is one. -/
def tabSpecial (f : TabFn) (x : Val) : Option (Val × Exc) :=
  match x with
  | .nan _ => some (x, 0)
  | .inf neg => match f with
    | .exp2 => some (if neg then .fin false 0 1 else .inf false, 0)
    | .log2 => some (if neg then .nan true else .inf false, 0)
    | .rcp => some (.fin neg 0 1, 0)
    | .rsqrt => some (if neg then .nan true else .fin false 0 1, 0)
    | .sinpi | .cospi => some (.nan true, 0)
    | .tanh | .erf | .sigmoid | .gelu | .silu => none
  | .fin neg n d => match f with
    | .log2 => if n = 0 then some (.inf true, 8) else if neg then some (.nan true, 0)
        else if n = d then some (.fin false 0 1, 0) else none
    | .rcp => if n = 0 then some (.inf neg, 8) else none
    | .rsqrt => if n = 0 then some (.inf neg, 8) else if neg then some (.nan true, 0) else none
    | .tanh | .erf => if n = 0 then some (.fin neg 0 1, 0) else none
    | .gelu | .silu => if n = 0 && neg then some (.fin true 0 1, 0) else none
    | .exp2 | .sinpi | .cospi | .sigmoid => none

/-- The limits of the functions that have them (R54). -/
def tabLimit (f : TabFn) (neg : Bool) : Val :=
  match f with
  | .tanh | .erf => .fin neg 1 1
  | .sigmoid => .fin false (if neg then 0 else 1) 1
  | .gelu | .silu => if neg then .fin true 0 1 else .inf false
  | .exp2 | .log2 | .rcp | .rsqrt | .sinpi | .cospi => .nan true

/-- A function of a built-in table (R54, R55). -/
def tabBuiltin (f : TabFn) (ty : ElemTy) (mode : Mode) (sat : Bool) (a : Nat) : Nat × Exc :=
  let x := fmtOf ty
  match tabSpecial f (valOf ty a) with
  | some (v, e) => let r := deliver x mode sat v; (r.1, r.2 ||| e)
  | none => match valOf ty a with
    | .inf neg => deliver x mode sat (tabLimit f neg)
    | .nan s => deliver x mode sat (.nan s)
    | .fin neg n d =>
      if ty = .f32 then
        match tabValue f (builtin f) mode neg n d with
        | some v => deliver x mode sat v
        | none => (realOf f neg n d).deliver x mode sat
      else (realOf f neg n d).deliver x mode sat

/-- A function of a user slot (R56). -/
def tabUser (f : TabFn) (node : Nat → BitVec 32 × BitVec 32) (ty : ElemTy) (mode : Mode) (sat : Bool) (a : Nat) :
    Nat × Exc :=
  let x := fmtOf ty
  let odd := match f with
    | .tanh | .erf => true
    | .exp2 | .log2 | .rcp | .rsqrt | .sinpi | .cospi | .sigmoid | .gelu | .silu => false
  let outside := fun (neg : Bool) =>
    deliver x mode sat (mulV (scale2 (neg && odd) 1 1 0) (valF32 (node (if neg && !odd then 0 else 256)).1))
  match tabSpecial f (valOf ty a) with
  | some (v, e) => let r := deliver x mode sat v; (r.1, r.2 ||| e)
  | none => match valOf ty a with
    | .inf neg => outside neg
    | .nan s => deliver x mode sat (.nan s)
    | .fin neg n d => match tabValue f node mode neg n d with
      | some v => deliver x mode sat v
      | none => outside neg

/-- A table slot of the team (R202). -/
def Team.slot (t : Team) (n : BitVec 2) : TabSlot := t.tab.get n.toFin

/-- An unloaded slot (R203). -/
def slotTrap (f : TabSel) (t : Team) : Option Trap :=
  match f with
  | .fn _ => none
  | .slot n => if (t.slot n).loaded then none else some (.bounds, n.setWidth 64)

/-- VTAB (R203). -/
def execVtab (f : TabSel) (d : VDst) (a : VSrc) (ty : ElemTy) (m : Mask) (s : State) : Host.Outcome State Fault Refusal :=
  let names := match f with
    | .fn _ => []
    | .slot n => [RdName.tab n.toNat]
  vecReg s { ins := [a], mask := m, other := fpReads ++ names, lat := 10, bound := slotTrap f } d fun t =>
    elemOut t ty.width (t.elems ty.width) m
      (fun y e => t.readTaint ty.width a y e || match f with
        | .fn _ => false
        | .slot n => (t.slot n).t)
      fun y e => match f with
        | .fn g => tabBuiltin g ty t.mode t.sat (t.read ty a y e)
        | .slot n => tabUser (t.slot n).fn (fun i => (t.slot n).nodes.getD i (0, 0)) ty t.mode t.sat (t.read ty a y e)

/-- The nodes that vtabld reads: 256 from a and the last from b (R204). -/
def nodesIn (a b : VVal) : List (BitVec 32 × BitVec 32) :=
  nodesOf (a.bits.toNat + b.bits.toNat % 2 ^ 64 * 2 ^ 16384) 257

/-- The first node that is an infinity or a NaN (R204, R462). -/
def nodeTrap (a b : VSrc) (t : Team) : Option Trap :=
  ((nodesIn (t.whole .f32 a) (t.whole .f32 b)).zipIdx.find? fun x => badNode x.1).map fun x => (.bounds, BitVec.ofNat 64 x.2)

/-- VTABLD loads a slot at issue + 32 (R204). -/
def execVtabld (f : TabFn) (n : BitVec 2) (a b : VSrc) (s : State) : Host.Outcome State Fault Refusal :=
  vecWrite s { ins := [a, b], ty := some .f32, other := [], lat := 32, sr := 16, occ := 32, range := nodeTrap a b } fun t =>
    let x := t.whole .f32 a
    let y := t.whole .f32 b
    .tab n f (nodesIn x y) (x.taint != 0 || y.taint.toNat % 4 != 0)

end Sys2Proof.Machine
end

