-- ==== Sys2Proof/Machine/Dispatch.lean ====
section
/-! DEFINITION. One arm for each constructor of Instr: a call of its meaning. -/

namespace Sys2Proof.Machine

def exec (i : Instr) (s : State) : Host.Outcome State Fault Refusal :=
  match i with
  | .add x0 x1 x2 => Sys2Proof.Machine.execAdd x0 x1 x2 s
  | .sub x0 x1 x2 => Sys2Proof.Machine.execSub x0 x1 x2 s
  | .and x0 x1 x2 => Sys2Proof.Machine.execAnd x0 x1 x2 s
  | .or x0 x1 x2 => Sys2Proof.Machine.execOr x0 x1 x2 s
  | .xor x0 x1 x2 => Sys2Proof.Machine.execXor x0 x1 x2 s
  | .andn x0 x1 x2 => Sys2Proof.Machine.execAndn x0 x1 x2 s
  | .shl x0 x1 x2 => Sys2Proof.Machine.execShl x0 x1 x2 s
  | .shr x0 x1 x2 => Sys2Proof.Machine.execShr x0 x1 x2 s
  | .sar x0 x1 x2 => Sys2Proof.Machine.execSar x0 x1 x2 s
  | .mul x0 x1 x2 => Sys2Proof.Machine.execMul x0 x1 x2 s
  | .mulh x0 x1 x2 => Sys2Proof.Machine.execMulh x0 x1 x2 s
  | .mulhu x0 x1 x2 => Sys2Proof.Machine.execMulhu x0 x1 x2 s
  | .div x0 x1 x2 => Sys2Proof.Machine.execDiv x0 x1 x2 s
  | .divu x0 x1 x2 => Sys2Proof.Machine.execDivu x0 x1 x2 s
  | .rem x0 x1 x2 => Sys2Proof.Machine.execRem x0 x1 x2 s
  | .remu x0 x1 x2 => Sys2Proof.Machine.execRemu x0 x1 x2 s
  | .min x0 x1 x2 => Sys2Proof.Machine.execMin x0 x1 x2 s
  | .max x0 x1 x2 => Sys2Proof.Machine.execMax x0 x1 x2 s
  | .minu x0 x1 x2 => Sys2Proof.Machine.execMinu x0 x1 x2 s
  | .maxu x0 x1 x2 => Sys2Proof.Machine.execMaxu x0 x1 x2 s
  | .slt x0 x1 x2 => Sys2Proof.Machine.execSlt x0 x1 x2 s
  | .sltu x0 x1 x2 => Sys2Proof.Machine.execSltu x0 x1 x2 s
  | .seq x0 x1 x2 => Sys2Proof.Machine.execSeq x0 x1 x2 s
  | .clz x0 x1 => Sys2Proof.Machine.execClz x0 x1 s
  | .ctz x0 x1 => Sys2Proof.Machine.execCtz x0 x1 s
  | .popc x0 x1 => Sys2Proof.Machine.execPopc x0 x1 s
  | .bswap x0 x1 => Sys2Proof.Machine.execBswap x0 x1 s
  | .sel x0 x1 x2 => Sys2Proof.Machine.execSel x0 x1 x2 s
  | .addi x0 x1 x2 => Sys2Proof.Machine.execAddi x0 x1 x2 s
  | .andi x0 x1 x2 => Sys2Proof.Machine.execAndi x0 x1 x2 s
  | .ori x0 x1 x2 => Sys2Proof.Machine.execOri x0 x1 x2 s
  | .xori x0 x1 x2 => Sys2Proof.Machine.execXori x0 x1 x2 s
  | .shli x0 x1 x2 => Sys2Proof.Machine.execShli x0 x1 x2 s
  | .shri x0 x1 x2 => Sys2Proof.Machine.execShri x0 x1 x2 s
  | .sari x0 x1 x2 => Sys2Proof.Machine.execSari x0 x1 x2 s
  | .slti x0 x1 x2 => Sys2Proof.Machine.execSlti x0 x1 x2 s
  | .sltiu x0 x1 x2 => Sys2Proof.Machine.execSltiu x0 x1 x2 s
  | .lui x0 x1 x2 => Sys2Proof.Machine.execLui x0 x1 x2 s
  | .muli x0 x1 x2 => Sys2Proof.Machine.execMuli x0 x1 x2 s
  | .b x0 x1 x2 x3 => Sys2Proof.Machine.execB x0 x1 x2 x3 s
  | .jmp x0 => Sys2Proof.Machine.execJmp x0 s
  | .call x0 => Sys2Proof.Machine.execCall x0 s
  | .callr x0 => Sys2Proof.Machine.execCallr x0 s
  | .jr x0 => Sys2Proof.Machine.execJr x0 s
  | .ld x0 x1 x2 x3 x4 x5 x6 => Sys2Proof.Machine.execLd x0 x1 x2 x3 x4 x5 x6 s
  | .st x0 x1 x2 x3 x4 x5 x6 => Sys2Proof.Machine.execSt x0 x1 x2 x3 x4 x5 x6 s
  | .amo x0 x1 x2 x3 x4 x5 x6 x7 => Sys2Proof.Machine.execAmo x0 x1 x2 x3 x4 x5 x6 x7 s
  | .cas x0 x1 x2 x3 x4 x5 x6 => Sys2Proof.Machine.execCas x0 x1 x2 x3 x4 x5 x6 s
  | .pref x0 x1 x2 => Sys2Proof.Machine.execPref x0 x1 x2 s
  | .cboClean x0 x1 x2 => Sys2Proof.Machine.execCboClean x0 x1 x2 s
  | .cboFlush x0 x1 x2 => Sys2Proof.Machine.execCboFlush x0 x1 x2 s
  | .ways x0 x1 => Sys2Proof.Machine.execWays x0 x1 s
  | .fence x0 x1 x2 x3 x4 => Sys2Proof.Machine.execFence x0 x1 x2 x3 x4 s
  | .bar x0 => Sys2Proof.Machine.execBar x0 s
  | .csig x0 x1 => Sys2Proof.Machine.execCsig x0 x1 s
  | .cwait x0 x1 => Sys2Proof.Machine.execCwait x0 x1 s
  | .tchk x0 => Sys2Proof.Machine.execTchk x0 s
  | .tchkSp x0 x1 => Sys2Proof.Machine.execTchkSp x0 x1 s
  | .tchkGl x0 x1 => Sys2Proof.Machine.execTchkGl x0 x1 s
  | .popx x0 x1 => Sys2Proof.Machine.execPopx x0 x1 s
  | .qput x0 x1 => Sys2Proof.Machine.execQput x0 x1 s
  | .qpub x0 => Sys2Proof.Machine.execQpub x0 s
  | .launch x0 x1 x2 => Sys2Proof.Machine.execLaunch x0 x1 x2 s
  | .cancelLaunch x0 => Sys2Proof.Machine.execCancelLaunch x0 s
  | .cancelGraph x0 => Sys2Proof.Machine.execCancelGraph x0 s
  | .cancelPhase x0 => Sys2Proof.Machine.execCancelPhase x0 s
  | .cancelJob x0 => Sys2Proof.Machine.execCancelJob x0 s
  | .cntrd x0 x1 => Sys2Proof.Machine.execCntrd x0 x1 s
  | .csrr x0 x1 => Sys2Proof.Machine.execCsrr x0 x1 s
  | .csrw x0 x1 x2 => Sys2Proof.Machine.execCsrw x0 x1 x2 s
  | .csrs x0 x1 x2 => Sys2Proof.Machine.execCsrs x0 x1 x2 s
  | .csrc x0 x1 x2 => Sys2Proof.Machine.execCsrc x0 x1 x2 s
  | .trap x0 => Sys2Proof.Machine.execTrap x0 s
  | .ebrk x0 => Sys2Proof.Machine.execEbrk x0 s
  | .fuseReadWord x0 x1 => Sys2Proof.Machine.execFuseReadWord x0 x1 s
  | .fuseReadIdentity x0 x1 => Sys2Proof.Machine.execFuseReadIdentity x0 x1 s
  | .fuseReadLifecycle x0 x1 => Sys2Proof.Machine.execFuseReadLifecycle x0 x1 s
  | .kwipe x0 x1 => Sys2Proof.Machine.execKwipe x0 x1 s
  | .aadd x0 x1 x2 => Sys2Proof.Machine.execAadd x0 x1 x2 s
  | .asub x0 x1 x2 => Sys2Proof.Machine.execAsub x0 x1 x2 s
  | .ashl x0 x1 x2 => Sys2Proof.Machine.execAshl x0 x1 x2 s
  | .amul x0 x1 x2 => Sys2Proof.Machine.execAmul x0 x1 x2 s
  | .amov x0 x1 => Sys2Proof.Machine.execAmov x0 x1 s
  | .aaddi x0 x1 x2 => Sys2Proof.Machine.execAaddi x0 x1 x2 s
  | .amovi x0 x1 => Sys2Proof.Machine.execAmovi x0 x1 s
  | .amin x0 x1 x2 => Sys2Proof.Machine.execAmin x0 x1 x2 s
  | .pat x0 x1 x2 x3 => Sys2Proof.Machine.execPat x0 x1 x2 x3 s
  | .patld x0 x1 x2 => Sys2Proof.Machine.execPatld x0 x1 x2 s
  | .lq x0 x1 x2 x3 x4 x5 => Sys2Proof.Machine.execLq x0 x1 x2 x3 x4 x5 s
  | .lqb x0 x1 x2 x3 x4 => Sys2Proof.Machine.execLqb x0 x1 x2 x3 x4 s
  | .lqx x0 x1 x2 x3 x4 x5 => Sys2Proof.Machine.execLqx x0 x1 x2 x3 x4 x5 s
  | .lqg x0 x1 x2 x3 x4 => Sys2Proof.Machine.execLqg x0 x1 x2 x3 x4 s
  | .sq x0 x1 x2 x3 x4 x5 => Sys2Proof.Machine.execSq x0 x1 x2 x3 x4 x5 s
  | .sqx x0 x1 x2 x3 x4 x5 => Sys2Proof.Machine.execSqx x0 x1 x2 x3 x4 x5 s
  | .sqg x0 x1 x2 x3 x4 => Sys2Proof.Machine.execSqg x0 x1 x2 x3 x4 s
  | .bfmt x0 x1 => Sys2Proof.Machine.execBfmt x0 x1 s
  | .radv x0 x1 => Sys2Proof.Machine.execRadv x0 x1 s
  | .qclr x0 x1 => Sys2Proof.Machine.execQclr x0 x1 s
  | .vadd x0 x1 x2 x3 x4 => Sys2Proof.Machine.execVadd x0 x1 x2 x3 x4 s
  | .vsub x0 x1 x2 x3 x4 => Sys2Proof.Machine.execVsub x0 x1 x2 x3 x4 s
  | .vmul x0 x1 x2 x3 x4 => Sys2Proof.Machine.execVmul x0 x1 x2 x3 x4 s
  | .vfma x0 x1 x2 x3 x4 x5 => Sys2Proof.Machine.execVfma x0 x1 x2 x3 x4 x5 s
  | .vfms x0 x1 x2 x3 x4 x5 => Sys2Proof.Machine.execVfms x0 x1 x2 x3 x4 x5 s
  | .vfnma x0 x1 x2 x3 x4 x5 => Sys2Proof.Machine.execVfnma x0 x1 x2 x3 x4 x5 s
  | .vdiv x0 x1 x2 x3 x4 => Sys2Proof.Machine.execVdiv x0 x1 x2 x3 x4 s
  | .vsqrt x0 x1 x2 x3 => Sys2Proof.Machine.execVsqrt x0 x1 x2 x3 s
  | .vmin x0 x1 x2 x3 x4 => Sys2Proof.Machine.execVmin x0 x1 x2 x3 x4 s
  | .vmax x0 x1 x2 x3 x4 => Sys2Proof.Machine.execVmax x0 x1 x2 x3 x4 s
  | .vabs x0 x1 x2 x3 => Sys2Proof.Machine.execVabs x0 x1 x2 x3 s
  | .vneg x0 x1 x2 x3 => Sys2Proof.Machine.execVneg x0 x1 x2 x3 s
  | .vcmp x0 x1 x2 x3 x4 x5 => Sys2Proof.Machine.execVcmp x0 x1 x2 x3 x4 x5 s
  | .vclass x0 x1 x2 x3 x4 => Sys2Proof.Machine.execVclass x0 x1 x2 x3 x4 s
  | .vcvt x0 x1 x2 x3 x4 x5 x6 => Sys2Proof.Machine.execVcvt x0 x1 x2 x3 x4 x5 x6 s
  | .vrnd x0 x1 x2 x3 => Sys2Proof.Machine.execVrnd x0 x1 x2 x3 s
  | .vsum x0 x1 x2 x3 x4 => Sys2Proof.Machine.execVsum x0 x1 x2 x3 x4 s
  | .vmaxr x0 x1 x2 x3 x4 => Sys2Proof.Machine.execVmaxr x0 x1 x2 x3 x4 s
  | .vminr x0 x1 x2 x3 x4 => Sys2Proof.Machine.execVminr x0 x1 x2 x3 x4 s
  | .vdot x0 x1 x2 x3 x4 x5 => Sys2Proof.Machine.execVdot x0 x1 x2 x3 x4 x5 s
  | .viadd x0 x1 x2 x3 x4 x5 => Sys2Proof.Machine.execViadd x0 x1 x2 x3 x4 x5 s
  | .visub x0 x1 x2 x3 x4 x5 => Sys2Proof.Machine.execVisub x0 x1 x2 x3 x4 x5 s
  | .vimul x0 x1 x2 x3 x4 => Sys2Proof.Machine.execVimul x0 x1 x2 x3 x4 s
  | .vimulh x0 x1 x2 x3 x4 x5 => Sys2Proof.Machine.execVimulh x0 x1 x2 x3 x4 x5 s
  | .vand x0 x1 x2 x3 x4 => Sys2Proof.Machine.execVand x0 x1 x2 x3 x4 s
  | .vor x0 x1 x2 x3 x4 => Sys2Proof.Machine.execVor x0 x1 x2 x3 x4 s
  | .vxor x0 x1 x2 x3 x4 => Sys2Proof.Machine.execVxor x0 x1 x2 x3 x4 s
  | .vshl x0 x1 x2 x3 x4 => Sys2Proof.Machine.execVshl x0 x1 x2 x3 x4 s
  | .vshr x0 x1 x2 x3 x4 => Sys2Proof.Machine.execVshr x0 x1 x2 x3 x4 s
  | .vsar x0 x1 x2 x3 x4 => Sys2Proof.Machine.execVsar x0 x1 x2 x3 x4 s
  | .vimin x0 x1 x2 x3 x4 x5 => Sys2Proof.Machine.execVimin x0 x1 x2 x3 x4 x5 s
  | .vimax x0 x1 x2 x3 x4 x5 => Sys2Proof.Machine.execVimax x0 x1 x2 x3 x4 x5 s
  | .viabsd x0 x1 x2 x3 x4 x5 => Sys2Proof.Machine.execViabsd x0 x1 x2 x3 x4 x5 s
  | .vicmp x0 x1 x2 x3 x4 x5 => Sys2Proof.Machine.execVicmp x0 x1 x2 x3 x4 x5 s
  | .vmmul x0 x1 x2 x3 x4 x5 => Sys2Proof.Machine.execVmmul x0 x1 x2 x3 x4 x5 s
  | .vmadd x0 x1 x2 x3 x4 x5 => Sys2Proof.Machine.execVmadd x0 x1 x2 x3 x4 x5 s
  | .vmsub x0 x1 x2 x3 x4 x5 => Sys2Proof.Machine.execVmsub x0 x1 x2 x3 x4 x5 s
  | .vmmac x0 x1 x2 x3 x4 x5 => Sys2Proof.Machine.execVmmac x0 x1 x2 x3 x4 x5 s
  | .vmred x0 x1 x2 x3 x4 x5 => Sys2Proof.Machine.execVmred x0 x1 x2 x3 x4 x5 s
  | .vbfly x0 x1 x2 x3 x4 x5 x6 => Sys2Proof.Machine.execVbfly x0 x1 x2 x3 x4 x5 x6 s
  | .vibfly x0 x1 x2 x3 x4 x5 x6 => Sys2Proof.Machine.execVibfly x0 x1 x2 x3 x4 x5 x6 s
  | .vmset x0 x1 x2 x3 => Sys2Proof.Machine.execVmset x0 x1 x2 x3 s
  | .vmov x0 x1 x2 x3 => Sys2Proof.Machine.execVmov x0 x1 x2 x3 s
  | .vbcast x0 x1 x2 x3 => Sys2Proof.Machine.execVbcast x0 x1 x2 x3 s
  | .vtr x0 x1 x2 x3 => Sys2Proof.Machine.execVtr x0 x1 x2 x3 s
  | .vrot x0 x1 x2 x3 x4 x5 => Sys2Proof.Machine.execVrot x0 x1 x2 x3 x4 x5 s
  | .vcomp x0 x1 x2 x3 => Sys2Proof.Machine.execVcomp x0 x1 x2 x3 s
  | .vexp x0 x1 x2 x3 => Sys2Proof.Machine.execVexp x0 x1 x2 x3 s
  | .vpart x0 x1 x2 => Sys2Proof.Machine.execVpart x0 x1 x2 s
  | .vperm x0 x1 x2 x3 x4 => Sys2Proof.Machine.execVperm x0 x1 x2 x3 x4 s
  | .vshape x0 x1 => Sys2Proof.Machine.execVshape x0 x1 s
  | .vext x0 x1 x2 x3 x4 x5 => Sys2Proof.Machine.execVext x0 x1 x2 x3 x4 x5 s
  | .vins x0 x1 x2 x3 x4 x5 => Sys2Proof.Machine.execVins x0 x1 x2 x3 x4 x5 s
  | .vbnet x0 x1 x2 x3 x4 => Sys2Proof.Machine.execVbnet x0 x1 x2 x3 x4 s
  | .vbnld x0 x1 => Sys2Proof.Machine.execVbnld x0 x1 s
  | .vpopc x0 x1 x2 x3 => Sys2Proof.Machine.execVpopc x0 x1 x2 x3 s
  | .vclz x0 x1 x2 x3 => Sys2Proof.Machine.execVclz x0 x1 x2 x3 s
  | .vpack x0 x1 x2 x3 => Sys2Proof.Machine.execVpack x0 x1 x2 x3 s
  | .vunpk x0 x1 x2 x3 => Sys2Proof.Machine.execVunpk x0 x1 x2 x3 s
  | .vtab x0 x1 x2 x3 x4 => Sys2Proof.Machine.execVtab x0 x1 x2 x3 x4 s
  | .vtabld x0 x1 x2 x3 => Sys2Proof.Machine.execVtabld x0 x1 x2 x3 s
  | .vsel x0 x1 x2 x3 x4 => Sys2Proof.Machine.execVsel x0 x1 x2 x3 x4 s
  | .kand x0 x1 x2 x3 => Sys2Proof.Machine.execKand x0 x1 x2 x3 s
  | .kor x0 x1 x2 x3 => Sys2Proof.Machine.execKor x0 x1 x2 x3 s
  | .knot x0 x1 x2 => Sys2Proof.Machine.execKnot x0 x1 x2 s
  | .kmov x0 x1 x2 => Sys2Proof.Machine.execKmov x0 x1 x2 s
  | .mfmt x0 => Sys2Proof.Machine.execMfmt x0 s
  | .mring x0 x1 => Sys2Proof.Machine.execMring x0 x1 s
  | .mnest x0 x1 => Sys2Proof.Machine.execMnest x0 x1 s
  | .mgo x0 => Sys2Proof.Machine.execMgo x0 s
  | .mgoQuad x0 => Sys2Proof.Machine.execMgoQuad x0 s
  | .mop x0 x1 x2 x3 => Sys2Proof.Machine.execMop x0 x1 x2 x3 s
  | .mzero x0 x1 => Sys2Proof.Machine.execMzero x0 x1 s
  | .mdrain x0 x1 x2 x3 => Sys2Proof.Machine.execMdrain x0 x1 x2 x3 s
  | .mdrainT x0 x1 x2 x3 x4 => Sys2Proof.Machine.execMdrainT x0 x1 x2 x3 x4 s
  | .mdrainPeer x0 x1 x2 x3 x4 => Sys2Proof.Machine.execMdrainPeer x0 x1 x2 x3 x4 s
  | .mplait x0 x1 => Sys2Proof.Machine.execMplait x0 x1 s
  | .mchk x0 => Sys2Proof.Machine.execMchk x0 s
  | .mpop x0 x1 => Sys2Proof.Machine.execMpop x0 x1 s
  | .minbox x0 x1 => Sys2Proof.Machine.execMinbox x0 x1 s
  | .cp x0 x1 x2 => Sys2Proof.Machine.execCp x0 x1 x2 s
  | .cpWs x0 x1 x2 => Sys2Proof.Machine.execCpWs x0 x1 x2 s
  | .cpCb x0 x1 x2 => Sys2Proof.Machine.execCpCb x0 x1 x2 s
  | .cpd x0 x1 x2 x3 x4 => Sys2Proof.Machine.execCpd x0 x1 x2 x3 x4 s
  | .cpchk x0 x1 => Sys2Proof.Machine.execCpchk x0 x1 s
  | .cpfill x0 x1 x2 => Sys2Proof.Machine.execCpfill x0 x1 x2 s
  | .cpres x0 x1 x2 x3 => Sys2Proof.Machine.execCpres x0 x1 x2 x3 s
  | .cpxHost x0 x1 => Sys2Proof.Machine.execCpxHost x0 x1 s
  | .cpxPeer x0 x1 => Sys2Proof.Machine.execCpxPeer x0 x1 s
  | .cpxColl x0 x1 => Sys2Proof.Machine.execCpxColl x0 x1 s
  | .act x0 x1 x2 => Sys2Proof.Machine.execAct x0 x1 x2 s
  | .rd x0 x1 x2 x3 x4 => Sys2Proof.Machine.execRd x0 x1 x2 x3 x4 s
  | .rdL2 x0 x1 x2 x3 => Sys2Proof.Machine.execRdL2 x0 x1 x2 x3 s
  | .wr x0 x1 x2 x3 => Sys2Proof.Machine.execWr x0 x1 x2 x3 s
  | .pre x0 x1 => Sys2Proof.Machine.execPre x0 x1 s
  | .refsb x0 => Sys2Proof.Machine.execRefsb x0 s
  | .pass x0 => Sys2Proof.Machine.execPass x0 s
  | .mrw x0 x1 => Sys2Proof.Machine.execMrw x0 x1 s
  | .loopf x0 x1 x2 => Sys2Proof.Machine.execLoopf x0 x1 x2 s
  | .loope x0 x1 x2 => Sys2Proof.Machine.execLoope x0 x1 x2 s
  | .hoop x0 x1 => Sys2Proof.Machine.execHoop x0 x1 s
  | .alignmentPulse x0 => Sys2Proof.Machine.execAlignmentPulse x0 s
  | .hoopOverdue x0 => Sys2Proof.Machine.execHoopOverdue x0 s
  | .registerWriteLands x0 => Sys2Proof.Machine.execRegisterWriteLands x0 s
  | .sliceLands x0 => Sys2Proof.Machine.execSliceLands x0 s
  | .queueEntryLands x0 x1 x2 => Sys2Proof.Machine.execQueueEntryLands x0 x1 x2 s
  | .signalFire x0 => Sys2Proof.Machine.execSignalFire x0 s
  | .barrierCompletionObserved x0 x1 => Sys2Proof.Machine.execBarrierCompletionObserved x0 x1 s
  | .linkIncrementArrives x0 x1 => Sys2Proof.Machine.execLinkIncrementArrives x0 x1 s
  | .peerAddArrival x0 => Sys2Proof.Machine.execPeerAddArrival x0 s
  | .sectorLanding x0 => Sys2Proof.Machine.execSectorLanding x0 s
  | .rdLanding x0 x1 x2 x3 x4 => Sys2Proof.Machine.execRdLanding x0 x1 x2 x3 x4 s
  | .rdL2Fill x0 x1 x2 x3 x4 x5 => Sys2Proof.Machine.execRdL2Fill x0 x1 x2 x3 x4 x5 s
  | .demandRequest x0 x1 x2 x3 => Sys2Proof.Machine.execDemandRequest x0 x1 x2 x3 s
  | .stackTempCrossing x0 x1 => Sys2Proof.Machine.execStackTempCrossing x0 x1 s
  | .scrubRow x0 x1 x2 => Sys2Proof.Machine.execScrubRow x0 x1 x2 s
  | .tlbMissWalk x0 x1 x2 => Sys2Proof.Machine.execTlbMissWalk x0 x1 x2 s
  | .freeze x0 => Sys2Proof.Machine.execFreeze x0 s
  | .emergencyFreezeRequest x0 => Sys2Proof.Machine.execEmergencyFreezeRequest x0 s
  | .retirementDeadline x0 => Sys2Proof.Machine.execRetirementDeadline x0 s
  | .unitRetirement x0 => Sys2Proof.Machine.execUnitRetirement x0 s
  | .fabricResponse x0 x1 x2 x3 => Sys2Proof.Machine.execFabricResponse x0 x1 x2 x3 s
  | .linkFrame x0 => Sys2Proof.Machine.execLinkFrame x0 s
  | .peerInterruptFrame x0 x1 x2 => Sys2Proof.Machine.execPeerInterruptFrame x0 x1 x2 s
  | .hostMemoryAccess x0 x1 x2 => Sys2Proof.Machine.execHostMemoryAccess x0 x1 x2 s
  | .ptmSlew x0 => Sys2Proof.Machine.execPtmSlew x0 s
  | .versWrite x0 x1 => Sys2Proof.Machine.execVersWrite x0 x1 s
  | .rsvctlWrite x0 x1 => Sys2Proof.Machine.execRsvctlWrite x0 x1 s
  | .jrootWrite x0 x1 => Sys2Proof.Machine.execJrootWrite x0 x1 s
  | .winownWrite x0 x1 => Sys2Proof.Machine.execWinownWrite x0 x1 s
  | .wingeoWrite x0 => Sys2Proof.Machine.execWingeoWrite x0 s
  | .apctlWrite x0 x1 x2 => Sys2Proof.Machine.execApctlWrite x0 x1 x2 s
  | .xinvGo x0 => Sys2Proof.Machine.execXinvGo x0 s
  | .qctlWrite x0 x1 => Sys2Proof.Machine.execQctlWrite x0 x1 s
  | .submit x0 x1 => Sys2Proof.Machine.execSubmit x0 x1 s
  | .hostint x0 x1 => Sys2Proof.Machine.execHostint x0 x1 s
  | .retreq x0 => Sys2Proof.Machine.execRetreq x0 s
  | .ksdataHighWrite x0 => Sys2Proof.Machine.execKsdataHighWrite x0 s
  | .fwctlGo x0 => Sys2Proof.Machine.execFwctlGo x0 s
  | .attctlGo x0 => Sys2Proof.Machine.execAttctlGo x0 s
  | .keyctlGo x0 => Sys2Proof.Machine.execKeyctlGo x0 s
  | .managementRegisterWrite x0 x1 => Sys2Proof.Machine.execManagementRegisterWrite x0 x1 s
  | .partnerAttach x0 x1 x2 x3 => Sys2Proof.Machine.execPartnerAttach x0 x1 x2 x3 s
  | .ret => Sys2Proof.Machine.execRet s
  | .eret => Sys2Proof.Machine.execEret s
  | .wfi => Sys2Proof.Machine.execWfi s
  | .prea => Sys2Proof.Machine.execPrea s
  | .ref => Sys2Proof.Machine.execRef s
  | .rdv => Sys2Proof.Machine.execRdv s
  | .elas => Sys2Proof.Machine.execElas s
  | .nop => Sys2Proof.Machine.execNop s
  | .mchkResult => Sys2Proof.Machine.execMchkResult s
  | .mgoActivation => Sys2Proof.Machine.execMgoActivation s
  | .stepStart => Sys2Proof.Machine.execStepStart s
  | .rowGroupComplete => Sys2Proof.Machine.execRowGroupComplete s
  | .rowGroupCommit => Sys2Proof.Machine.execRowGroupCommit s
  | .drainStart => Sys2Proof.Machine.execDrainStart s
  | .borderRelease => Sys2Proof.Machine.execBorderRelease s
  | .peerAddApply => Sys2Proof.Machine.execPeerAddApply s
  | .bodkinArbitration => Sys2Proof.Machine.execBodkinArbitration s
  | .cpdCheckDwordLands => Sys2Proof.Machine.execCpdCheckDwordLands s
  | .copyChunk => Sys2Proof.Machine.execCopyChunk s
  | .copyPerforms => Sys2Proof.Machine.execCopyPerforms s
  | .cpxComplete => Sys2Proof.Machine.execCpxComplete s
  | .demandServe => Sys2Proof.Machine.execDemandServe s
  | .refreshOverdue => Sys2Proof.Machine.execRefreshOverdue s
  | .hotDebtTick => Sys2Proof.Machine.execHotDebtTick s
  | .l2Scrub => Sys2Proof.Machine.execL2Scrub s
  | .timerInterruptPend => Sys2Proof.Machine.execTimerInterruptPend s
  | .stretch => Sys2Proof.Machine.execStretch s
  | .stretchEnd => Sys2Proof.Machine.execStretchEnd s
  | .powerCheck => Sys2Proof.Machine.execPowerCheck s
  | .emergencyClear => Sys2Proof.Machine.execEmergencyClear s
  | .emergencyTimeout => Sys2Proof.Machine.execEmergencyTimeout s
  | .hostQueueEntryNop => Sys2Proof.Machine.execHostQueueEntryNop s
  | .hostQueueEntryOpenGraph => Sys2Proof.Machine.execHostQueueEntryOpenGraph s
  | .hostQueueEntryAdd => Sys2Proof.Machine.execHostQueueEntryAdd s
  | .dependencePoll => Sys2Proof.Machine.execDependencePoll s
  | .dispatchPlace => Sys2Proof.Machine.execDispatchPlace s
  | .gangStart => Sys2Proof.Machine.execGangStart s
  | .launchComplete => Sys2Proof.Machine.execLaunchComplete s
  | .eventRecordWrite => Sys2Proof.Machine.execEventRecordWrite s
  | .cancelCut => Sys2Proof.Machine.execCancelCut s
  | .drainBegin => Sys2Proof.Machine.execDrainBegin s
  | .forcedSave => Sys2Proof.Machine.execForcedSave s
  | .restore => Sys2Proof.Machine.execRestore s
  | .reservationWindowStart => Sys2Proof.Machine.execReservationWindowStart s
  | .rimFailure => Sys2Proof.Machine.execRimFailure s
  | .dieReset => Sys2Proof.Machine.execDieReset s
  | .fabricTimeout => Sys2Proof.Machine.execFabricTimeout s
  | .traceSync => Sys2Proof.Machine.execTraceSync s
  | .xinvComplete => Sys2Proof.Machine.execXinvComplete s
  | .dstopStop => Sys2Proof.Machine.execDstopStop s
  | .dstopResume => Sys2Proof.Machine.execDstopResume s
  | .ksdataLowRead => Sys2Proof.Machine.execKsdataLowRead s
  | .pwrstReqFull => Sys2Proof.Machine.execPwrstReqFull s
  | .pwrstReqRims => Sys2Proof.Machine.execPwrstReqRims s
  | .unlockDebug => Sys2Proof.Machine.execUnlockDebug s
  | .advanceLifecycle => Sys2Proof.Machine.execAdvanceLifecycle s
  | .bringUp => Sys2Proof.Machine.execBringUp s
  | .powerOff => Sys2Proof.Machine.execPowerOff s
  | .emptyRingFault => Sys2Proof.Machine.execEmptyRingFault s
  | .reservationWindowEnd => Sys2Proof.Machine.execReservationWindowEnd s
  | .recordWalk => Sys2Proof.Machine.execRecordWalk s
  | .demandRefresh => Sys2Proof.Machine.execDemandRefresh s
  | .headClassification => Sys2Proof.Machine.execHeadClassification s

end Sys2Proof.Machine
end

