-- ==== Sys2Proof/Machine/Step.lean ====
section
/-! DEFINITION. The step of the module, and a state whose next step runs a given word. -/

namespace Sys2Proof.Machine

/-- ONE STEP: the event or word that is next, executed. (Log: 6 DEDUCED; 127 DESIGN CHOICE.) -/
def step (s : State) : Host.Outcome State Fault Refusal :=
  match s.pick with
  | .run i t => exec i t
  | .go t => .next t

/-- The state with an instruction's bits stored where the next step fetches; bits at or above nbits are zero.
(Log: 1 DEDUCED.) -/
def State.withFetchWord (s : State) (nbits w : Nat) : State := s.withWord (w % 2 ^ nbits % 2 ^ 64)

end Sys2Proof.Machine
end

