-- ==== Sys2Proof/Safety.lean ====
section
/-! DEFINITION. What counts as a safe run: a step that answers a next state; memories in canonical form; and what it is for
a word of a column to be able to issue, in the terms that the statements use (R86, R89, R95). -/

namespace Sys2Proof.Machine

/-- A step answers a next state. -/
def StepsTo (s s' : State) : Prop := step s = .next s'

/-- The memories of a team are in canonical form. -/
def Team.memWf (t : Team) : Bool := Memory.wf t.spad && Memory.wf t.acc

/-- HBM and the host's memory are in canonical form. -/
def State.memWf (s : State) : Bool := Memory.wf s.mem && Memory.wf s.host

/-- THE INVARIANT OF THE MODULE'S MEMORIES: HBM, the host's memory, every team's scratchpad and accumulators, running or
saved, and every rim's slots are in canonical form. -/
def State.wf (s : State) : Bool :=
  s.memWf && s.teams.all Team.memWf && s.launches.all (fun l => l.savedTeams.all Team.memWf) &&
  s.pcs.all (fun p => Memory.wf p.slots) && s.launches.all fun l => l.savedPcs.all fun p => Memory.wf p.slots

/-- A WORD OF A COLUMN MAY ISSUE NOW (R86, R89, R90, R93, R95, R325): its team lives and no loop nullifies it; the level suffices;
the barrier or link that its WAIT or SIGNAL names is valid; its port is free, its WAIT holds, its tokens find room, and no
write is under way to the registers that it names; none of its own stalls and traps, as `g` lists them, applies; and the demand
requests that it needs have been served (R325). -/
structure MayIssue (s : State) (t : Team) (g : Gate) : Prop where
  live : s.team s.cur.cid = some t
  first : s.cur.phase ≠ .access ∧ s.cur.phase ≠ .perform
  plain : s.cur.nul = false
  level : g.svc = true → t.svc = true
  deny : g.deny = false
  sync : t.syncTrap s.cur.wait s.cur.signal = none
  port : (t.col s.cur.col).portFree ≤ t.clock s.cur.col
  wait : t.waitOk s.cur.col (t.col s.cur.col) s.cur.wait = true
  room : t.pushOk s.cur.col s.cur.wait s.cur.signal = true
  regs : t.busy s.cur.col g.regs = false
  mode : g.reject = true → (t.col s.cur.col).timed = false
  stall : g.stall = false
  under : g.under = none
  fault : g.fault = none
  range : g.range = none
  late : g.late = none
  served : (s.atIssue t).stalls t (s.curAt t) g.asks = none

/-- A CHANNEL WORD MAY ISSUE NOW (R86, R95, R267): its owner lives, its program runs on the pseudo-channel, no loop
nullifies it, and its WAIT holds; the level is checked with the word. -/
structure MayIssueChan (s : State) (t : Team) (p : Pc) (g : ChanProg) : Prop where
  live : s.team s.cur.cid = some t
  rim : s.pc s.cur.pc = some p
  prog : p.prog = some g
  plain : s.cur.nul = false
  sync : t.syncTrap s.cur.wait s.cur.signal = none
  wait : t.waitOk .chn g.st s.cur.wait = true

/-- The team past the word that issues: tokens, head and port as R86 and R93 leave them. -/
def State.past (s : State) (t : Team) (occ : Nat) : Team := t.commit (s.curAt t) occ

/-- A WORD COMPLETES: whenever it may issue, it answers the next state that `eff` makes of the state at its issue and the team
past it. -/
def Completes (s : State) (t : Team) (g : Gate) (i : Instr) (eff : State → Team → State) : Prop :=
  MayIssue s t g → exec i s = .next (eff (s.atIssue t) (s.past t g.occ))

end Sys2Proof.Machine
end

