-- ==== Sys2Proof/Certificates/Slice0/Obligations.lean ====
section
/-! DEFINITION. The statements for the provers. -/

namespace Sys2Proof

open Machine

/-! ## Tables that the statements range over -/

/-- The 64-bit pattern of an integer. -/
abbrev W (x : Int) : Word := BitVec.ofInt 64 x

/-- 1 or 0. -/
def bit (p : Bool) : Word := if p then 1 else 0

/-- The arithmetic words of two s registers, with their latency, the beats that they hold the port, and their result (R80,
R118, R119). -/
def arithmeticWords : List ((SReg → SReg → SReg → Instr) × Nat × Nat × (Word → Word → Word)) :=
  [(.add, 1, 1, fun a b => W (a.toInt + b.toInt)), (.sub, 1, 1, fun a b => W (a.toInt - b.toInt)),
   (.and, 1, 1, fun a b => a &&& b), (.or, 1, 1, fun a b => a ||| b), (.xor, 1, 1, fun a b => a ^^^ b),
   (.andn, 1, 1, fun a b => a &&& ~~~b),
   (.shl, 1, 1, fun a b => a <<< (b.toNat % 64)), (.shr, 1, 1, fun a b => a >>> (b.toNat % 64)),
   (.sar, 1, 1, fun a b => W (a.toInt / 2 ^ (b.toNat % 64))),
   (.mul, 3, 1, fun a b => W (a.toInt * b.toInt)),
   (.mulh, 3, 1, fun a b => W (a.toInt * b.toInt / 2 ^ 64)),
   (.mulhu, 3, 1, fun a b => W ((a.toNat : Int) * b.toNat / 2 ^ 64)),
   (.div, 24, 24, fun a b => if b = 0 then BitVec.allOnes 64 else W (a.toInt.tdiv b.toInt)),
   (.divu, 24, 24, fun a b => if b = 0 then BitVec.allOnes 64 else a / b),
   (.rem, 24, 24, fun a b => if b = 0 then a else W (a.toInt.tmod b.toInt)),
   (.remu, 24, 24, fun a b => if b = 0 then a else a % b),
   (.min, 1, 1, fun a b => W (min a.toInt b.toInt)), (.max, 1, 1, fun a b => W (max a.toInt b.toInt)),
   (.minu, 1, 1, fun a b => W (min a.toNat b.toNat)), (.maxu, 1, 1, fun a b => W (max a.toNat b.toNat)),
   (.slt, 1, 1, fun a b => bit (a.toInt < b.toInt)), (.sltu, 1, 1, fun a b => bit (a.toNat < b.toNat)),
   (.seq, 1, 1, fun a b => bit (a = b))]

/-- The words of one s register with their result (R118): leading and trailing zero bits, one bits, and the bytes in reverse. -/
def unaryWords : List ((SReg → SReg → Instr) × (Word → Word)) :=
  [(.clz, fun a => BitVec.ofNat 64 ((List.range 64).takeWhile fun i => !a.getLsbD (63 - i)).length),
   (.ctz, fun a => BitVec.ofNat 64 ((List.range 64).takeWhile fun i => !a.getLsbD i).length),
   (.popc, fun a => BitVec.ofNat 64 ((List.range 64).countP fun i => a.getLsbD i)),
   (.bswap, fun a => BitVec.ofNat 64 (((List.range 8).map fun k => a.toNat / 256 ^ k % 256 * 256 ^ (7 - k)).sum))]

/-- The arithmetic words with an immediate, their latency and their result; i is the signed immediate, u the unsigned one (R80,
R120). -/
def immediateWords : List ((SReg → SReg → BitVec 28 → Instr) × Nat × (Word → BitVec 28 → Word)) :=
  [(.addi, 1, fun a i => W (a.toInt + i.toInt)), (.andi, 1, fun a i => a &&& W i.toInt),
   (.ori, 1, fun a i => a ||| W i.toInt), (.xori, 1, fun a i => a ^^^ W i.toInt),
   (.shli, 1, fun a i => a <<< (i.toNat % 64)), (.shri, 1, fun a i => a >>> (i.toNat % 64)),
   (.sari, 1, fun a i => W (a.toInt / 2 ^ (i.toNat % 64))),
   (.slti, 1, fun a i => bit (a.toInt < i.toInt)), (.sltiu, 1, fun a i => bit (a.toNat < (W i.toInt).toNat)),
   (.lui, 1, fun a i => (a <<< 28) ||| BitVec.ofNat 64 i.toNat), (.muli, 3, fun a i => W (a.toInt * i.toInt))]

/-- The condition of a branch (R122). -/
def branchTaken : Cond → Word → Word → Prop
  | .eq, a, b => a = b
  | .ne, a, b => a ≠ b
  | .lt, a, b => a.toInt < b.toInt
  | .ge, a, b => b.toInt ≤ a.toInt
  | .ltu, a, b => a.toNat < b.toNat
  | .geu, a, b => b.toNat ≤ a.toNat
  | .al, _, _ => True

/-- The ring position P + off modulo 2^64 (R122). -/
def destination (s : State) (off : Int) : Nat := (((s.cur.pos : Int) + off) % 2 ^ 64).toNat

/-- ctl moved to a position: it issues again two beats after the issue; loops that do not hold the target are abandoned (R80, R122,
R170). -/
def moved (s : State) (t t' : Team) (p : Nat) : Team :=
  t'.modCol .ctl fun x => { x with head := p, portFree := t.clock .ctl + 2, loops := keepLoops s.cur.pos p (t.col .ctl).loops }

end Sys2Proof

open Sys2Proof Sys2Proof.Machine

/-! ## ctl: arithmetic -/

/-- R118, R119: an arithmetic word of two s registers lands its result, tainted as its sources are, after the latency of R80, and
its SIGNAL fires then. -/
def Sys2Proof.ArithmeticResultLands : Prop :=
  ∀ p ∈ arithmeticWords, ∀ (s : State) (t : Team) (d a b : SReg),
    Completes s t { regs := [.s a, .s b, .s d], occ := p.2.2.1 } (p.1 d a b) fun s' t' =>
      landS s' t' d p.2.1 ⟨p.2.2.2 (t.getS a).v (t.getS b).v, (t.getS a).t || (t.getS b).t⟩

/-- R118: CLZ, CTZ, POPC, BSWAP and SEL, whose condition is s_d itself. -/
def Sys2Proof.UnaryAndSelectResultLands : Prop :=
  (∀ p ∈ unaryWords, ∀ (s : State) (t : Team) (d a : SReg),
    Completes s t { regs := [.s a, .s d] } (p.1 d a) fun s' t' =>
      landS s' t' d 1 ⟨p.2 (t.getS a).v, (t.getS a).t⟩) ∧
  ∀ (s : State) (t : Team) (d a b : SReg),
    Completes s t { regs := [.s a, .s b, .s d] } (.sel d a b) fun s' t' =>
      let x := if (t.getS d).v = 0 then t.getS b else t.getS a
      landS s' t' d 1 ⟨x.v, (t.getS d).t || x.t⟩

/-- R120: an arithmetic word with an immediate. -/
def Sys2Proof.ImmediateResultLands : Prop :=
  ∀ p ∈ immediateWords, ∀ (s : State) (t : Team) (d a : SReg) (i : BitVec 28),
    Completes s t { regs := [.s a, .s d] } (p.1 d a i) fun s' t' =>
      landS s' t' d p.2.1 ⟨p.2.2 (t.getS a).v i, (t.getS a).t⟩

/-- R74, R62, R156: a register write that lands sets its register and no other; a write to s0 leaves every register alone. -/
def Sys2Proof.RegisterWriteSetsItsRegisterOnly : Prop :=
  ∀ (s : State) (t : Team), s.team s.cur.cid = some t →
    (∀ (r : SReg) (v : Word) (k : Bool), ∃ t', exec (.registerWriteLands (.s r v k)) s = .next (s.setTeam t') ∧
      (∀ q, t'.getS q = if q = r ∧ r ≠ 0 then ⟨v, k⟩ else t.getS q) ∧ t' = { t with s := t'.s }) ∧
    (∀ (r : AReg) (v : Word) (k : Bool), ∃ t', exec (.registerWriteLands (.a r v k)) s = .next (s.setTeam t') ∧
      (∀ q, t'.getA q = if q = r then ⟨v, k⟩ else t.getA q) ∧ t' = { t with a := t'.a })

/-! ## ctl: transfers of control -/

/-- R122, R123, R170: a taken branch, jmp and jr move the head of ctl to a target inside the ring; a branch that is not taken goes
on; under strict determinism the tested registers are untainted. -/
def Sys2Proof.JumpsMoveTheHead : Prop :=
  ∀ (s : State) (t : Team), s.cur.col = .ctl →
    (∀ (c : Cond) (a b : SReg) (off : BitVec 22),
      (t.ndet = 2 → c ≠ .al → (t.getS a).t = false ∧ (t.getS b).t = false) →
      (branchTaken c (t.getS a).v (t.getS b).v → (t.col .ctl).inRing (destination s off.toInt) = true) →
      (branchTaken c (t.getS a).v (t.getS b).v →
        Completes s t { regs := [.s a, .s b] } (.b c a b off) fun s' t' => done1 s' (moved s t t' (destination s off.toInt))) ∧
      (¬ branchTaken c (t.getS a).v (t.getS b).v → Completes s t { regs := [.s a, .s b] } (.b c a b off) done1)) ∧
    (∀ off : BitVec 40, (t.col .ctl).inRing (destination s off.toInt) = true →
      Completes s t {} (.jmp off) fun s' t' => done1 s' (moved s t t' (destination s off.toInt))) ∧
    (∀ a : SReg, (t.ndet = 2 → (t.getS a).t = false) → (t.col .ctl).inRing (t.getS a).v.toNat = true →
      Completes s t { regs := [.s a] } (.jr a) fun s' t' => done1 s' (moved s t t' (t.getS a).v.toNat))

/-- R123, R124: CALL and CALLR move STKP to the dword below it and the head to the target, and write P + 1 into that dword a beat
later; RET reads the dword at STKP a beat after issue, and then STKP rises past it and ctl goes on at what it holds. The stack
pointer is a multiple of 8 inside the stack, and the dword may be accessed. -/
def Sys2Proof.CallsPushAndReturnsPop : Prop :=
  ∀ (s : State) (t : Team), s.cur.col = .ctl → t.stkp.toNat % 8 = 0 → let k := t.stkp.toNat
    (t.stkb.toNat + 8 ≤ k → spTrap (t.seen s.cur) (stackSpan (k - 8)) true false = none → ∀ p : Nat, (t.col .ctl).inRing p = true →
      let pushed := fun (i : Instr) (s' : State) (t' : Team) =>
        done1 s' ((({ t' with stkp := BitVec.ofNat 64 (k - 8) } : Team).again s'.cur (t.clock .ctl + 1) .access [k - 8] i).modCol .ctl
          fun x => { x with head := p, portFree := t.clock .ctl + 2, loops := (t.col .ctl).loops })
      (∀ off : BitVec 40, destination s off.toInt = p → Completes s t { regs := [.csr 0x22] } (.call off) (pushed (.call off))) ∧
      (∀ a : SReg, (t.getS a).v.toNat = p → (t.ndet = 2 → (t.getS a).t = false) →
        Completes s t { regs := [.s a, .csr 0x22] } (.callr a) (pushed (.callr a)))) ∧
    (k + 8 ≤ t.stkl.toNat → spTrap (t.seen s.cur) (stackSpan k) false true = none → t.unsealed (t.col .ctl).timed k 8 = false →
      Completes s t { regs := [.csr 0x22] } .ret fun s' t' =>
        s'.setTeam ((t'.again s'.cur (t.clock .ctl + 1) .access [] .ret).modCol .ctl fun x =>
          { x with portFree := t.clock .ctl + 2 })) ∧
    (s.team s.cur.cid = some t → s.cur.phase = .access →
      (∀ a : Nat, Memory.wf t.spad = true → s.cur.args = [a] → ∀ (off : BitVec 40) (r : SReg), ∀ i ∈ [Instr.call off, .callr r],
        ∃ t' : Team, exec i s = .next ((s.setTeam t').afterRows s.cur 0 true t 8 [a]) ∧
          readNat t'.spad a 8 = (s.cur.pos + 1) % 2 ^ 64 ∧
          (∀ b, b < a ∨ a + 8 ≤ b → readByte t'.spad b = readByte t.spad b) ∧
          t' = { t with spad := t'.spad, spadTaint := t'.spadTaint }) ∧
      ((t.ndet = 2 → (t.view 0).spTaint k 8 = false) → let p := readNat (t.view 0).spad k 8
        (t.col .ctl).inRing p = true → exec .ret s = .next ((s.setTeam
          ((({ t with stkp := t.stkp + 8 } : Team).modCol .ctl fun x =>
            { x with head := p, loops := keepLoops s.cur.pos p s.cur.loops, word := none }).signalAt s.cur (t.clock .ctl))).afterRows
              s.cur 0 false t 8 [k])))

/-- R121, R123: a transfer to a position outside the valid range of the ring takes the bounds trap with the position, and a call at
a stack pointer that is no multiple of 8 the misalign trap: no effect of the word is left. -/
def Sys2Proof.BadTransfersTrap : Prop :=
  ∀ (s : State) (t : Team), MayIssue s t {} → s.cur.col = .ctl →
    (∀ off : BitVec 40, (t.col .ctl).inRing (destination s off.toInt) = false →
      exec (.jmp off) s = .next ((s.atIssue t).raise t (s.curAt t) (.bounds, BitVec.ofNat 64 (destination s off.toInt)))) ∧
    (∀ off : BitVec 40, t.busy .ctl [.csr 0x22] = false → t.stkp.toNat % 8 ≠ 0 →
      exec (.call off) s = .next ((s.atIssue t).raise t (s.curAt t) (.misalign, t.stkp)))

/-! ## ctl: control registers, traps and returns -/

/-- R81, R148, R142: CSRR lands the old value two beats after issue; CSRW, CSRS and CSRC land their write one beat after issue if
the level may write the register, and the old value too; POPX moves an exception register and clears it. An SRO register is read
at level S only, and a JLINK value names a core of the launch. -/
def Sys2Proof.CsrWordsReadAndWrite : Prop :=
  ∀ (s : State) (t : Team), s.cur.col = .ctl →
    (∀ (d : SReg) (n : BitVec 12), (csrAccess n.toNat = .sro → t.svc = true) →
      (Completes s t { regs := [.s d, .csr n.toNat] } (.csrr d n) fun s' t' =>
        s'.setTeam ((t'.land s'.cur (t.clock .ctl + 2) (.s d (s'.csr t' n.toNat) (t'.csrTainted n.toNat))).signalAt s'.cur
          (t.clock .ctl + 2))) ∧
      ∀ p ∈ [(CsrOp.write, Instr.csrw), (.set, .csrs), (.clear, .csrc)], ∀ a : SReg,
        (csrWritable t.svc n.toNat = true → linkTrap (s.atIssue t) (t.seen s.cur) n.toNat
          (csrNew p.1 (s.csr (t.seen s.cur) n.toNat) (t.getS a).v) = none) →
        Completes s t { regs := [.s a, .s d, .csr n.toNat] } (p.2 d n a) fun s' t' =>
          let u := if csrWritable t.svc n.toNat && (p.1 = .write || (t.getS a).v != 0) then
              t'.land s'.cur (t.clock .ctl + 1) (.csr p.1 n.toNat (t.getS a).v (t.getS a).t)
            else t'
          s'.setTeam ((u.land s'.cur (t.clock .ctl + 2) (.s d (s'.csr u n.toNat) (t'.csrTainted n.toNat))).signalAt s'.cur
            (t.clock .ctl + 2))) ∧
    ∀ p ∈ [(ExcReg.vexc, 0x13), (.mexc, 0x14), (.cexc, 0x15)], ∀ d : SReg,
      Completes s t { regs := [.s d, .csr p.2] } (.popx d p.1) fun s' t' =>
        let u := (t'.land s'.cur (t.clock .ctl + 2) (.s d (s'.csr t' p.2) (t'.csrTainted p.2))).writeCsr (s.beatOf t) p.2 0
        s'.setTeam (({ u with csrTaint := setUnit u.csrTaint p.2 false } : Team).signalAt s'.cur (t.clock .ctl + 2))

/-- R43, R63, R82: what a landed CSRW leaves of a value: the fields of the register, a reserved rounding mode refused, the other
registers of the list as they were. -/
def Sys2Proof.CsrWriteKeepsFields : Prop :=
  ∀ (s : State) (t : Team) (v : Word) (k : Bool), s.team s.cur.cid = some t →
    (∀ p ∈ [(0x11, (1 : Word)), (0x13, 31), (0x14, 31), (0x15, 31), (0x20, BitVec.allOnes 64), (0x21, BitVec.allOnes 64),
        (0x22, BitVec.allOnes 64), (0x30, 0xFFFFFFFF), (0x50, 1), (0x800, BitVec.allOnes 64), (0x804, 3), (0x805, 7),
        (0x807, BitVec.allOnes 64), (0x810, BitVec.allOnes 64)],
      ∃ t', exec (.registerWriteLands (.csr .write p.1 v k)) s = .next (s.setTeam t') ∧ s.csr t' p.1 = v &&& p.2 ∧
        (∀ r, t'.getS r = t.getS r) ∧ t'.vrm = t.vrm ∧ t'.tcause = t.tcause ∧ t'.tval = t.tval ∧
        t'.tepc = t.tepc ∧ t'.svc = t.svc ∧ t'.spad = t.spad) ∧
    ∃ t', exec (.registerWriteLands (.csr .write 0x10 v k)) s = .next (s.setTeam t') ∧
      t'.vrm = if v.toNat % 8 ≤ 4 then v &&& 7 else t.vrm

/-- R81, R95, R155: at level U the words of level S take the privilege trap with the word in TVAL, and so does an SRO register. -/
def Sys2Proof.PrivilegedWordsTrapAtUserLevel : Prop :=
  ∀ (s : State) (t : Team), s.team s.cur.cid = some t → t.svc = false → s.cur.nul = false →
    s.cur.phase ≠ .access → s.cur.phase ≠ .perform →
    (∀ (d a : SReg), ∀ i ∈ [Instr.eret, .fuseReadWord d a, .fuseReadIdentity d a, .fuseReadLifecycle d a, .kwipe d a, .cancelPhase a, .cancelJob a],
      exec i s = .next ((s.atIssue t).raise t (s.curAt t) (.privilege, s.cur.word))) ∧
    (∀ (d : SReg) (n : BitVec 12) (a : SReg), csrAccess n.toNat = .sro → ∀ i ∈ [Instr.csrr d n, .csrw d n a, .csrs d n a, .csrc d n a],
      exec i s = .next ((s.atIssue t).raise t (s.curAt t) (.privilege, s.cur.word)))

/-- R149, R377 to R379, R387: TRAP and EBRK outside a handler leave the trap pending in ctl with the position after the word
for TEPC, the word at which ctl goes on, and their code in TVAL; they stop ctl and request a freeze at this beat. In a
handler they enter it again at once, with the position after the word for TEPC, and the entry is traced; where it cannot be
entered again, the launch ends. -/
def Sys2Proof.TrapWordsPend : Prop :=
  ∀ p ∈ [(Instr.trap, 0x1A), (.ebrk, 0x19)], ∀ (s : State) (t : Team) (code : BitVec 32), s.cur.col = .ctl → t.handler = false →
    MayIssue s t {} → ∃ t', exec (p.1 code) s = .next ((s.atIssue t).setTeam t') ∧
      t'.traps = t.traps ++ [⟨.ctl, ((s.past t 1).col .ctl).head, p.2, code.setWidth 64, t.clk, 0, s.cur.pos + 1⟩] ∧
      (t'.col .ctl).stopped = true ∧ t'.freezeReq = earlier t.freezeReq t.clk ∧
      t'.svc = t.svc ∧ t'.spad = t.spad ∧ (∀ r, t'.getS r = t.getS r)

/-- R149, R387, R425: the same words in a handler. -/
def Sys2Proof.TrapWordsNest : Prop :=
  ∀ p ∈ [(Instr.trap, 0x1A), (.ebrk, 0x19)], ∀ (s : State) (t : Team) (code : BitVec 32), s.cur.col = .ctl → t.handler = true →
    Completes s t {} (p.1 code) fun s' t' =>
      let v : Team := { t' with toks := t'.toks.filter fun x => x.id != s.cur.id }
      let tepc := BitVec.ofNat 64 (s.cur.pos + 1)
      match v.nestHandler (BitVec.ofNat 64 p.2) (code.setWidth 64) tepc with
      | some u => (s'.setTeam u).traceEntry v (BitVec.ofNat 64 p.2) (code.setWidth 64) tepc
      | none => (s'.setTeam (v.modCol .ctl fun x => { x with stopped := true })).endLaunch t.launch 1

/-- R382: the entry of a handler, taken when HVEC names a word of ctl's ring: TCAUSE, TVAL and TEPC are set, TSTAT[0] takes the old
level, the level becomes S, and ctl goes on at HVEC, elastic and running; nothing else of the team's registers changes. -/
def Sys2Proof.HandlerEntrySetsRegisters : Prop :=
  ∀ (t : Team) (beat req cause tval tepc clear : Word),
    let hvec := readNat t.spad (t.tfb.toNat + 0xF8) 8
    hvec ≠ 0 → (t.col .ctl).inRing hvec = true → ∃ t', t.enterHandler beat req cause tval tepc clear = some t' ∧
      t'.tcause = cause ∧ t'.tval = tval ∧ t'.tepc = tepc ∧ t'.tstat = (t.tstat &&& 2) ||| bit t.svc ∧ t'.svc = true ∧
      t'.handler = true ∧ t'.depth = 1 ∧ t'.tip = t.tip &&& ~~~clear ∧
      (t'.col .ctl).head = hvec ∧ (t'.col .ctl).timed = false ∧ (t'.col .ctl).stopped = false ∧
      (∀ c, c ≠ .ctl → c ≠ .chn → t'.col c = t.col c) ∧ t'.s = t.s ∧ t'.a = t.a ∧ t'.v = t.v ∧ t'.k = t.k ∧ t'.acc = t.acc

/-- R383: the first dwords of the frame that a handler entry writes are TCAUSE, TVAL, TEPC and TSTAT; bytes below TFB keep their
values. -/
def Sys2Proof.HandlerEntryWritesFrame : Prop :=
  ∀ (t t' : Team) (beat req cause tval tepc clear : Word),
    Memory.wf t.spad = true → t.enterHandler beat req cause tval tepc clear = some t' →
    let b := t.tfb.toNat
    readNat t'.spad b 8 = cause.toNat ∧ readNat t'.spad (b + 8) 8 = tval.toNat ∧ readNat t'.spad (b + 16) 8 = tepc.toNat ∧
    readNat t'.spad (b + 24) 8 = t.tstat.toNat ∧ readNat t'.spad (b + 0x20) 8 = beat.toNat ∧
    ∀ a, a < b → readByte t'.spad a = readByte t.spad a

/-- R387: a trap of ctl in a handler at depth 1 nests at once: the outer entry's four dwords move to NESTED, depth becomes
2, and ctl goes on at HVEC. At depth 2 no handler can run. -/
def Sys2Proof.NestedTrapReentersHandler : Prop :=
  ∀ (t : Team) (cause tval tepc : Word),
    (t.depth ≠ 1 → t.nestHandler cause tval tepc = none) ∧
    (t.depth = 1 → Memory.wf t.spad = true → let b := t.tfb.toNat
      let hvec := readNat t.spad (b + 0xF8) 8
      hvec ≠ 0 → (t.col .ctl).inRing hvec = true → ∃ t', t.nestHandler cause tval tepc = some t' ∧
        t'.tcause = cause ∧ t'.tval = tval ∧ t'.tepc = tepc ∧ t'.depth = 2 ∧ t'.svc = t.svc ∧ (t'.col .ctl).head = hvec ∧
        (∀ k < 32, readByte t'.spad (b + 0x40 + k) = readByte t.spad (b + k)) ∧
        readNat t'.spad (b + 0x60) 8 = 2)

/-- The team as an ERET leaves its word: the frame read under ECC, and its SIGNAL to come a beat later (R92, R388, R438). -/
def Sys2Proof.eretFrom (s : State) (t : Team) : Team :=
  ((s.past t 1).readEcc (s.past t 1).frameRead.2 [(s.past t 1).frameRead.1]).eretSignal (s.curAt t)

/-- R388, R151, R438, R92: with a frame that ECC can read and that passes its checks, ERET at depth 2 brings the outer entry
back and ctl goes on at its TEPC; otherwise it resumes the team as its frame says; WFI performs once an enabled interrupt is
pending, and stops ctl if it may be taken.
It rests on the model's readings and choices of log 29, 33, 34 and 35. -/
def Obligations.ReturnsAndWaitForInterrupt : Prop :=
  ∀ (s : State) (t : Team), s.cur.col = .ctl →
    (t.depth = 2 → frameTrap (s.atIssue t) (t.seen s.cur) = none → Completes s t { svc := true } .eret fun s' _ =>
      s'.setTeam (eretFrom s t).eretInner) ∧
    (t.depth = 2 → t.sick = [] → frameTrap s t = none) ∧
    (t.depth = 2 → let u := (eretFrom s t).eretInner
      u.depth = 1 ∧ u.tepc.toNat = readNat t.spad (t.tfb.toNat + 0x50) 8 ∧ (u.col .ctl).head = u.tepc.toNat ∧ u.svc = t.svc) ∧
    (t.depth ≠ 2 → frameTrap (s.atIssue t) (t.seen s.cur) = none →
      ∀ u, (eretFrom s t).eretOuter (csrTakes (s.atIssue t) (eretFrom s t)) (s.beatOf (eretFrom s t)) = .ok u →
      Completes s t { svc := true } .eret (fun s' _ => s'.setTeam u) ∧ u.handler = false ∧ u.depth = 0 ∧
      (u.svc = true ↔ readNat t.spad (t.tfb.toNat + 0x18) 8 % 2 = 1) ∧
      u.tepc.toNat = readNat t.spad (t.tfb.toNat + 0x10) 8) ∧
    ((t.tip &&& t.tie) ≠ 0 → Completes s t { regs := [.csr 0x805] } .wfi fun s' t' =>
      done1 s' (if t.takeable then t'.modCol .ctl fun x => { x with stopped := true } else t'))

/-! ## The common group and ctl's synchronisation -/

/-- R173, R172, R174, R80: NOP does nothing but fire its SIGNAL; ELAS makes its column elastic a beat later; RDV waits for the words
before it and then ends the stream; HOOP stalls its column with the target s_x + u. A column that reads s_x early under DBGCTL is
outside the debug break of R79. -/
def Sys2Proof.CommonGroupOfColumns : Prop :=
  ∀ (s : State) (t : Team), s.cur.col ≠ .chn →
    Completes s t {} .nop done1 ∧
    (Completes s t {} .elas fun s' t' => done1 s' (t'.land s'.cur (t.clock s.cur.col + 1) (.elastic s.cur.col))) ∧
    (Completes s t {} .rdv fun s' t' =>
      s'.setTeam ((t'.await s'.cur [] .rdv).modCol s.cur.col fun x => { x with portFree := 2 ^ 64 })) ∧
    (s.team s.cur.cid = some t → s.cur.phase = .perform → exec .rdv s = .next (s.setTeam
      ((t.modCol s.cur.col fun x => { x with ended := true, loops := [] }).signalAt s.cur (t.clock s.cur.col)))) ∧
    (∀ (x : SReg) (u : BitVec 34), earlyOf (s.atIssue t) (t.seen s.cur) [x] = none →
      Completes s t { regs := if s.cur.col = .ctl then [.s x] else [] } (.hoop x u) fun s' t' =>
        let h := (t.getS x).v + BitVec.ofNat 64 u.toNat
        s'.setTeam ((t'.await s'.cur [h.toNat] (.hoop x u)).modCol s.cur.col fun y =>
          { y with hoop := some ⟨h, t.clock s.cur.col, false, s.cur.pos, s.cur.loops, s.cur.signal⟩, portFree := 2 ^ 64 })) ∧
    (∀ c, s.team s.cur.cid = some t → exec (.registerWriteLands (.elastic c)) s =
      .next (s.setTeam (t.modCol c fun x => { x with timed := false })))

/-- R169 to R171: a loop word of a column opens its body with its count, unless a LOOPE runs no iteration: then the head
goes past the body, whose end ends an enclosing iteration only where the word lies in the innermost open body. A LOOPF's bound is at
least its count; four loops are open at most; a body lies inside the body that holds its loop word. -/
def Sys2Proof.LoopWordsOpenTheirBody : Prop :=
  ∀ (s : State) (t : Team) (fixed : Bool) (src : LoopSrc) (bound len : BitVec 12), s.cur.col ≠ .chn →
    let x := loopCount t src bound
    let st := t.col s.cur.col
    let i : Instr := if fixed then .loopf src bound len else .loope src bound len
    loopTrap (t.ndet = 2) st s.cur.pos fixed x src bound.toNat len.toNat = none →
    earlyOf (s.atIssue t) (t.seen s.cur) (match src with | .reg r => [r] | _ => []) = none →
    Completes s t { regs := match src with | .reg r => (if s.cur.col = .ctl then [.s r] else []) | _ => [],
                    reject := !fixed && src != .imm } i fun s' t' =>
      let inside := (st.loops.take 1).any fun l => l.start ≤ s.cur.pos && s.cur.pos < l.start + l.len
      let after := if fixed = false ∧ x.v = 0 then
          (if inside then afterWord (s.cur.pos + len.toNat) st.loops else (s.cur.pos + len.toNat + 1, st.loops))
        else (s.cur.pos + 1, ⟨s.cur.pos + 1, len.toNat, bound.toNat, fixed, x.v.toNat, 0⟩ :: st.loops)
      done1 s' (t'.modCol s.cur.col fun y => { y with head := after.1, loops := after.2 })

/-- R170, R171: the head after a word. Outside every loop it is the next position; at the end of the innermost body it goes back to
the body's start while iterations are left, and otherwise the loop closes. -/
def Sys2Proof.HeadAfterWordFollowsLoops : Prop :=
  (∀ p, afterWord p [] = (p + 1, [])) ∧
  ∀ (p : Nat) (l : LoopRec) (ls : List LoopRec),
    (p + 1 ≠ l.start + l.len → afterWord p (l :: ls) = (p + 1, l :: ls)) ∧
    (p + 1 = l.start + l.len → l.idx + 1 < l.total → afterWord p (l :: ls) = (l.start, { l with idx := l.idx + 1 } :: ls)) ∧
    (p + 1 = l.start + l.len → l.total ≤ l.idx + 1 → afterWord p (l :: ls) = afterWord p ls)

/-- R138 to R141, R147: BAR, once ctl's earlier accesses have performed, arrives and waits for its generation; CSIG fires a
counted event a beat later; CWAIT issues with its own WAIT, in timed mode when its condition holds, and performs at the
first beat at which its condition holds, and acquires; the checks of taint pass on untainted data; CNTRD lands a count. -/
def Sys2Proof.SynchronisationWordsComplete : Prop :=
  ∀ (s : State) (t : Team), s.cur.col = .ctl →
    (∀ b : BitVec 3, (t.bars.get b.toFin).valid = true → t.accessBefore .ctl s.cur.id = false →
      Completes s t {} (.bar b) fun s' t' =>
        (s'.setTeam ((t'.await s'.cur [] (.bar b)).modCol .ctl fun x => { x with portFree := 2 ^ 64 })).arrive t' b s'.cur) ∧
    (∀ b : BitVec 3, s.team s.cur.cid = some t → s.cur.phase = .perform → exec (.bar b) s = .next (s.setTeam
      ((((t.acquire .ctl).hears (t.shown .ctl (.bar b))).modCol .ctl fun x => { x with portFree := t.clock .ctl }).signalAt s.cur
        (t.clock .ctl)))) ∧
    (∀ (c : CsigCode) (a : SReg), (t.getS a).v.toNat < 2 ^ 32 → (∀ j, c = .link j → (t.cnt.get j.toFin).link.getLsbD 0 = true) →
      Completes s t { regs := [.s a] } (.csig c a) fun s' t' =>
        s'.setTeam ((t'.later .ctl ⟨t.clock .ctl + 1, match c with | .clr _ => 6 | _ => 7, s'.cur,
          .signalFire (.count c (t.getS a).v.toNat)⟩).signalAt s'.cur (t.clock .ctl + 1))) ∧
    (∀ (c : CwaitCode) (a : SReg), (t.getS a).v.toNat < 2 ^ 32 → (∀ b, c = .bar b → (t.bars.get b.toFin).valid = true) →
      ((t.col .ctl).timed = true → cwaitHolds (t.seen s.cur) c a = true) →
      (cwaitHolds (s.past t 1) c a = true → Completes s t { regs := [.s a] } (.cwait c a) fun s' t' => done1 s' (t'.cwaited c)) ∧
      (cwaitHolds (s.past t 1) c a = false → Completes s t { regs := [.s a] } (.cwait c a) fun s' t' =>
        s'.setTeam ((t'.await s'.cur [] (.cwait c a)).modCol .ctl fun x => { x with portFree := 2 ^ 64 }))) ∧
    (∀ (c : CwaitCode) (a : SReg), s.team s.cur.cid = some t → s.cur.phase = .perform → exec (.cwait c a) s = .next (s.setTeam
      (((t.cwaited c).modCol .ctl fun x => { x with portFree := t.clock .ctl }).signalAt s.cur (t.clock .ctl)))) ∧
    (∀ a : SReg, (t.getS a).t = false → Completes s t { regs := [.s a] } (.tchk a) done1) ∧
    (∀ a b : SReg, (t.getS b).v = 0 → Completes s t { regs := [.s a, .s b] } (.tchkSp a b) done1) ∧
    (∀ a b : SReg, let lo := (t.getS a).v.toNat
      let n := (t.getS b).v.toNat
      n ≠ 0 → t.spBad lo (min n (2 ^ 22)) = none → (∀ u ∈ ((t.seen s.cur).view 0).spadTaint, u < lo / 4 ∨ (lo + n - 1) / 4 < u) →
      freshTrap (t.seen s.cur) 0 n [lo] = none → (n ≤ 2 ^ 22 → t.unsealed (t.col .ctl).timed lo n = false) →
      Completes s t { regs := [.s a, .s b] } (.tchkSp a b) fun s' t' => (done1 s' t').afterRows s'.cur 0 false t' n [lo]) ∧
    (∀ (d : SReg) (src : CntSrc),
      Completes s t { regs := [.s d] ++ match src with | .handle a => [.s a] | _ => [] } (.cntrd d src) fun s' t' =>
        done1 s' (t'.land s'.cur (t.clock .ctl + 1)
          (.s d (BitVec.ofNat 64 (s'.counterOf t' src).1) (s'.counterOf t' src).2)))

/-- R141: a tainted register makes TCHK take the taint trap with the register's number. -/
def Sys2Proof.TaintCheckTraps : Prop :=
  ∀ (s : State) (t : Team) (a : SReg), MayIssue s t { regs := [.s a] } → (t.getS a).t = true →
    exec (.tchk a) s = .next ((s.atIssue t).raise t (s.curAt t) (.taint, BitVec.ofNat 64 a.toNat))

/-- R143, R144, R85: QPUT stores a word at the put position of a column's ring a beat after issue; QPUB makes the words up
to the put position fetchable. -/
def Sys2Proof.RingWordsAppendAndPublish : Prop :=
  ∀ (s : State) (t : Team) (c : Col) (a : SReg), s.cur.col = .ctl → (t.col c).ended = false →
    ((t.col c).put < (t.col c).lowest + (t.col c).size →
      freshTrap (t.seen s.cur) 0 8 [(t.col c).base + 8 * ((t.col c).put % (t.col c).size)] = none →
      Completes s t { regs := [.s a] } (.qput c a) fun s' t' =>
        let x := t'.col c
        done1 s' ((t'.setCol c { x with put := x.put + 1 }).again s'.cur (t.clock .ctl + 1) .access
          [x.base + 8 * (x.put % x.size), (t.getS a).v.toNat, if (t.getS a).t then 1 else 0] (.qput c a))) ∧
    (Completes s t {} (.qpub c) fun s' t' => done1 s' (t'.land s'.cur (t.clock .ctl + 1) (.tail c (t'.col c).put))) ∧
    (∀ (addr v k : Nat), Memory.wf t.spad = true → s.team s.cur.cid = some t → s.cur.phase = .access →
      s.cur.args = [addr, v, k] →
      ∃ t', exec (.qput c a) s = .next ((s.setTeam t').afterRows s.cur 0 true t 8 [addr]) ∧
        readNat t'.spad addr 8 = v % 2 ^ 64 ∧
        (∀ x, x < addr ∨ addr + 8 ≤ x → readByte t'.spad x = readByte t.spad x) ∧ t'.s = t.s ∧ t'.cols = t.cols) ∧
    (∀ n, s.team s.cur.cid = some t → exec (.registerWriteLands (.tail c n)) s =
      .next (s.setTeam (t.modCol c fun x => { x with tail := n })))

/-! ## ctl: memory words -/

/-- The value of a size at an effective address of a byte memory (R125, R127). -/
def Sys2Proof.valueAt (m : List Host.Cell) (z : Size) (ea : Nat) : Nat :=
  match z with
  | .b => readNat m ea 1
  | .h => readNat m ea 2
  | .w => readNat m ea 4
  | .d => readNat m ea 8
  | .nib => readNat m (ea / 2) 1 / 16 ^ (ea % 2) % 16
  | .crm => readNat m (ea / 4) 1 / 4 ^ (ea % 4) % 4

/-- The bits of a size (R125). -/
def Sys2Proof.bitsOf : Size → Nat
  | .b => 8 | .h => 16 | .w => 32 | .d => 64 | .nib => 4 | .crm => 2

/-- The state in which a word's effect begins when the team past the word has been put back. -/
def Sys2Proof.entered (s : State) (t : Team) : State := (s.atIssue t).setTeam (s.past t 1)

/-- R124 to R128, R80, R325: LD issues when its address is legal: from scratchpad it samples a beat later; elsewhere it is
elastic, issues once a demand request is free and what it needs of a channel window under a running program has been served,
and lands what the access reads; a scratchpad load lands its value six beats after its issue.
It rests on the model's readings and choices of log 7, 15 and 82. -/
def Obligations.LoadsComplete : Prop :=
  ∀ (s : State) (t : Team) (d base : SReg) (cls : BitVec 4) (spc : Space) (o : Order) (z : Size) (off : BitVec 17), s.cur.col = .ctl →
    let i : Instr := .ld d base cls spc o z off
    let x := spanOf z (effAddr t base off.toInt)
    (spc = .sp → spTrap (t.seen s.cur) x false true = none → t.unsealed (t.col .ctl).timed x.a x.n = false →
      Completes s t { regs := [.s d, .s base] } i fun s' t' =>
        s'.setTeam (t'.again s'.cur (t.clock .ctl + 1) .access [x.ea] i)) ∧
    (spc ≠ .sp → let pas := (s.atIssue t).reachedBy (t.seen s.cur) spc true false x
      (s.atIssue t).farStall (t.seen s.cur) true pas = false → trapOf ((s.atIssue t).loadBeyond (t.seen s.cur) spc o x) = none →
      let e := (entered s t).asking ((entered s t).reachedBy (s.past t 1) spc true false x)
      ∀ r, e.loadBeyond (s.past t 1) spc o x = .ok r →
        Completes s t { regs := [.s d, .s base], reject := true, asks := (s.atIssue t).windowReqs t.cid 0 false pas } i fun _ _ =>
          let due := r.2.2.2.memDue (t.clock .ctl)
          (((r.2.2.2.landElastic t.cid e.cur d r.1 r.2.1).landCexc t.cid e.cur due r.2.2.1).holdCtl t.cid o due).watchCtl
            e.cur spc false e x) ∧
    (∀ ea : Nat, s.team s.cur.cid = some t → s.cur.phase = .access → s.cur.args = [ea] →
      ∃ taint, exec i s = .next ((s.setTeam ((t.land s.cur (s.cur.issued + 6)
        (.s d (BitVec.ofNat 64 (valueAt (t.view 0).spad z ea)) taint)).signalAt s.cur (s.cur.issued + 6))).afterRows s.cur 0 false t
          (spanOf z ea).n [(spanOf z ea).a]))

/-- R124 to R128, R325, R336: ST issues when its address is legal and, for a release, the accesses that its fence orders
have performed; beyond the scratchpad it issues once a demand request is free and what it needs of a channel window under a
running program has been served, and it writes then. To scratchpad it writes the low bits of s_d a beat later: they read
back, and every byte outside the access, and every other nibble or crumb, is as before.
It rests on the model's readings and choices of log 7, 15 and 82. -/
def Obligations.StoresComplete : Prop :=
  ∀ (s : State) (t : Team) (d base : SReg) (cls : BitVec 4) (spc : Space) (o : Order) (z : Size) (off : BitVec 17), s.cur.col = .ctl →
    let i : Instr := .st d base cls spc o z off
    let x := spanOf z (effAddr t base off.toInt)
    (t.releaseWaits o spc cls s.cur.id = false → spc = .sp → spTrap (t.seen s.cur) x true false = none →
      Completes s t { regs := [.s d, .s base] } i fun s' t' =>
        done1 s' (t'.again s'.cur (t.clock .ctl + 1) .access [x.ea, (t.getS d).v.toNat, if (t.getS d).t then 1 else 0] i)) ∧
    (t.releaseWaits o spc cls s.cur.id = false → spc ≠ .sp → let pas := (s.atIssue t).reachedBy (t.seen s.cur) spc false true x
      (s.atIssue t).farStall (t.seen s.cur) false pas = false →
      trapOf ((s.atIssue t).storeBeyond (t.seen s.cur) spc o x (t.getS d)) = none →
      let e := (entered s t).asking ((entered s t).reachedBy (s.past t 1) spc false true x)
      ∀ r, e.storeBeyond (s.past t 1) spc o x (t.getS d) = .ok r →
        Completes s t { regs := [.s d, .s base], reject := true, asks := (s.atIssue t).windowReqs t.cid 0 true pas } i fun _ _ =>
          (r.doneElastic t.cid e.cur).watchCtl e.cur spc true e x) ∧
    (∀ ea v k : Nat, Memory.wf t.spad = true → s.team s.cur.cid = some t → s.cur.phase = .access → s.cur.args = [ea, v, k] →
      ∃ t', exec i s = .next ((s.setTeam t').afterRows s.cur 0 true t (spanOf z ea).n [(spanOf z ea).a]) ∧
        valueAt t'.spad z ea = v % 2 ^ bitsOf z ∧
        (∀ b, b < (spanOf z ea).a ∨ (spanOf z ea).a + (spanOf z ea).n ≤ b → readByte t'.spad b = readByte t.spad b) ∧
        (z = .nib ∨ z = .crm → ∀ e, e ≠ ea → valueAt t'.spad z e = valueAt t.spad z e) ∧
        t' = { t with spad := t'.spad, spadTaint := t'.spadTaint })

/-- What AMO writes for the old value and the operand, of w bits (R129). -/
def Sys2Proof.amoResult (op : AmoOp) (w : Nat) (old x : BitVec w) : BitVec w :=
  match op with
  | .swap => x
  | .add => old + x
  | .and => old &&& x
  | .or => old ||| x
  | .xor => old ^^^ x
  | .min => if old.toInt ≤ x.toInt then old else x
  | .max => if old.toInt ≤ x.toInt then x else old
  | .minu => if old.toNat ≤ x.toNat then old else x
  | .maxu => if old.toNat ≤ x.toNat then x else old

/-- R129 to R131, R80, R336: AMO and CAS on scratchpad, a release once the accesses that its fence orders have performed:
the old value lands in s_d eight beats after issue, tainted unless determinism is off; the new one is stored a beat after
issue, by CAS only if the old value equals s_d as it stood at issue. No other byte changes. -/
def Sys2Proof.ScratchpadAtomicsComplete : Prop :=
  ∀ (s : State) (t : Team) (d base x : SReg) (cls : BitVec 4) (o : Order) (z : Size) (op : AmoOp),
    s.cur.col = .ctl → z = .w ∨ z = .d →
    let sp := spanOf z (t.getS base).v.toNat
    (∀ i ∈ [Instr.amo d base cls .sp o z x op, .cas d base cls .sp o z x], t.releaseWaits o .sp cls s.cur.id = false →
      spTrap (t.seen s.cur) sp true true = none → t.unsealed (t.col .ctl).timed sp.a sp.n = false →
      Completes s t { regs := [.s d, .s base, .s x], occ := 2 } i fun s' t' =>
        s'.setTeam (t'.again s'.cur (t.clock .ctl + 1) .access
          [sp.ea, (t.getS x).v.toNat, if (t.getS x).t then 1 else 0, (t.getS d).v.toNat] i)) ∧
    (∀ ea v k e : Nat, Memory.wf t.spad = true → s.team s.cur.cid = some t → s.cur.phase = .access → s.cur.args = [ea, v, k, e] →
      let old := BitVec.ofNat (bitsOf z) (valueAt t.spad z ea)
      let same := decide (old = BitVec.ofNat (bitsOf z) e)
      ∀ p ∈ [(Instr.amo d base cls .sp o z x op, true, amoResult op (bitsOf z) old (BitVec.ofNat (bitsOf z) v)),
             (.cas d base cls .sp o z x, same, if same then BitVec.ofNat (bitsOf z) v else old)],
        ∃ u : Team, exec p.1 s = .next ((s.setTeam ((u.land s.cur (s.cur.issued + 8)
            (.s d (BitVec.ofNat 64 (valueAt t.spad z ea)) (t.ndet != 0))).signalAt s.cur (s.cur.issued + 8))).afterRows s.cur 0 p.2.1
              t (bitsOf z / 8) [ea] true) ∧
          valueAt u.spad z ea = p.2.2.toNat ∧
          (∀ b, b < ea ∨ ea + bitsOf z / 8 ≤ b → readByte u.spad b = readByte t.spad b) ∧
          (t.sick = [] → u.found = t.found) ∧ u = { t with spad := u.spad, spadTaint := u.spadTaint, found := u.found })

/-- R129 to R131, R325, R336, R339: AMO and CAS on global memory complete where their access can be made, once a demand
request is free, what they need of a channel window under a running program has been served, and, for a release, the
accesses that its fence orders have performed: the old value is on its way to s_d. -/
def Sys2Proof.GlobalAtomicsComplete : Prop :=
  ∀ (s : State) (t : Team) (d base x : SReg) (cls : BitVec 4) (o : Order) (z : Size) (op : AmoOp), s.cur.col = .ctl →
    let sp := spanOf z (t.getS base).v.toNat
    ∀ p ∈ [(Instr.amo d base cls .gl o z x op, amoRec op, fun (_ : Word) old v => some (amoValue op (spanOf z 0).w old v)),
           (.cas d base cls .gl o z x, RecAcc.swap, fun exp old v => if old = exp.toNat % 2 ^ (spanOf z 0).w then some v else none)],
      let new := fun (old : Nat) => p.2.2 (t.getS d).v old ((t.getS x).v.toNat % 2 ^ (spanOf z 0).w)
      let pas := (s.atIssue t).reachedBy (t.seen s.cur) .gl true true sp
      trapOf ((s.atIssue t).rmwBeyond (t.seen s.cur) o sp p.2.1 (t.getS x).t new) = none → t.releaseWaits o .gl cls s.cur.id = false →
      (s.atIssue t).farStall (t.seen s.cur) true pas = false →
      let e := (entered s t).asking ((s.atIssue t).reachedBy (s.past t 1) .gl true true sp)
      ∀ r, e.rmwBeyond (s.past t 1) o sp p.2.1 (t.getS x).t new = .ok r →
        Completes s t { regs := [.s d, .s base, .s x], reject := true, asks := (s.atIssue t).windowReqs t.cid 0 true pas } p.1
          fun _ _ => ((r.2.landElastic t.cid e.cur d r.1 (t.ndet != 0)).holdCtl t.cid o (r.2.memDue (t.clock .ctl))).watchCtl
            e.cur .gl (new r.1).isSome e sp true

/-- WAYS with a new count from its issue: the lines of ways that leave are dropped at once when the cache grows, and the banks that
change role are cleared; it performs when the write-backs have (R134). -/
def Sys2Proof.waysBegin (s : State) (t : Team) (i : Instr) (old n : Nat) : State :=
  let s1 := if n < old then s.setTeam t else s.dropWays { t with ways := n } n (16 - n) (16 - old)
  match s1.team t.cid with
  | none => s1
  | some u => (s1.setTeam (u.again s.cur (s1.memDue (u.clock .ctl)) .perform [n, old] i)).took

/-- FENCE that acts on the local cache, from the team past its word: it drains the writes between the paths that it names,
cleans the cache unless it is acquire alone, invalidates it unless it is release alone, and holds ctl until the write-backs
have returned (R136, R137). -/
def Sys2Proof.fenceCache (s : State) (t : Team) (k : FenceKind) : State :=
  let s1 := s.setTeam t
  let s2 := if k = .acq then s1 else s1.cleanCache t.cid
  let s3 := if k = .rel then s2 else match s2.team t.cid with
    | some u => s2.setTeam u.invalidate
    | none => s2
  match s3.team t.cid with
  | none => s3
  | some u =>
    let due := s3.memDue (u.clock .ctl)
    (s3.setTeam ((u.signalAt s.cur due).modCol .ctl fun x => { x with portFree := due })).took

/-- R132 to R137, R141, R325, R337: PREF fetches the line of an address that it may read; the CBO words complete on a
readable address; WAYS, where its count is allowed and no earlier one is open, clears every bank that changes role and
returns the old count when it performs; FENCE completes once the accesses of ctl that its masks name have performed; TCHK on
global memory completes on an untainted range, once what it reads of a channel window under a running program has been
served. -/
def Sys2Proof.CacheWordsComplete : Prop :=
  ∀ (s : State) (t : Team), s.cur.col = .ctl →
    (∀ (base : SReg) (cls : BitVec 4) (off : BitVec 17), Completes s t { regs := [.s base], reject := true } (.pref base cls off)
      fun s' t' =>
        let u := done1 s' t'
        match u.translate (wantOf t .gl true false) (effAddr t base off.toInt) 1 with
        | .ok [p] => if t.ways = 0 || !p.cacheable then u else u.prefetch t.cid t.job p.leaf.pa p.leaf.key
        | _ => u) ∧
    (∀ (base : SReg) (cls : BitVec 4) (off : BitVec 17), trapOf (cboPiece (s.atIssue t) (t.seen s.cur) base off) = none →
      ∀ p ∈ [(Instr.cboClean base cls off, false), (.cboFlush base cls off, true)],
        Completes s t { regs := [.s base], reject := true } p.1 fun s' t' =>
          let s1 := s'.setTeam t'
          let s2 := match cboPiece s1 t' base off with
            | .ok [q] => match t'.line q.leaf.pa with
              | none => s1
              | some c => if p.2 then (s1.cleanLine t' c).setTeam { t' with cache := t'.cache.filter fun y => y.line != c.line }
                  else (s1.cleanLine t' c).setTeam (t'.setLine { c with mask := 0 })
            | _ => s1
          s2.doneElastic t.cid s'.cur) ∧
    (∀ d a : SReg, t.waysOpen = false → (t.getS a).v.toNat = t.ways → waysBad t t.ways = false →
      Completes s t { regs := [.s d, .s a], reject := true } (.ways d a) fun s' t' =>
        s'.setTeam ((t'.land s'.cur (t.clock .ctl + 1) (.s d (BitVec.ofNat 64 t.ways) false)).signalAt s'.cur (t.clock .ctl + 1))) ∧
    (∀ d a : SReg, let n := (t.getS a).v.toNat
      t.waysOpen = false → n ≠ t.ways → waysBad t n = false → Completes s t { regs := [.s d, .s a], reject := true } (.ways d a) fun s' t' =>
        waysBegin s' t' (.ways d a) t.ways n) ∧
    (∀ (d a : SReg) (n old : Nat), s.team s.cur.cid = some t → s.cur.phase = .perform → s.cur.args = [n, old] →
      ∀ s1, s1 = (if n < old then s.dropWays { t with ways := n } n (16 - old) (16 - n) else s) → ∀ u, s1.team t.cid = some u →
      exec (.ways d a) s = .next (s1.setTeam ((u.land s.cur (t.clock .ctl) (.s d (BitVec.ofNat 64 old) false)).signalAt s.cur
        (t.clock .ctl)))) ∧
    (∀ (sc : Scope) (stor : BitVec 4) (classes : BitVec 16) (paths : BitVec 6) (k : FenceKind),
      (paths.getLsbD 0 = true → t.ctlLeft stor classes s.cur.id = false) →
      let g : Gate := { reject := stor.getLsbD 2 || stor.getLsbD 3 || !(sc = .stream || sc = .team) }
      (fenceCaches sc stor classes paths = false → Completes s t g (.fence sc stor classes paths k) fun s' t' =>
        done1 s' (t'.fenced sc stor classes paths)) ∧
      (fenceCaches sc stor classes paths = true → Completes s t g (.fence sc stor classes paths k) fun s' t' =>
        fenceCache s' (t'.fenced sc stor classes paths) k)) ∧
    (∀ a b : SReg, let lo := (t.getS a).v.toNat
      let n := (t.getS b).v.toNat
      let pas := if n = 0 then [] else ((s.atIssue t).reachedBy (t.seen s.cur) .gl true false ⟨lo, lo, n, 0, 8 * n⟩).take 4096
      (n ≠ 0 → (s.atIssue t).farStall (t.seen s.cur) true pas = false) →
      (t.getS b).v = 0 ∨ (∃ l, (s.atIssue t).translate (wantOf t .gl true false) (t.getS a).v.toNat (t.getS b).v.toNat = .ok l ∧
        (s.atIssue t).firstTaint (t.seen s.cur) (cutAll l) = none) →
      Completes s t { regs := [.s a, .s b], reject := true, asks := (s.atIssue t).windowReqs t.cid 0 false pas } (.tchkGl a b)
        fun s' t' => (s'.setTeam t').doneElastic t.cid s'.cur)

/-- R134: WAYS leaves every byte of a bank that keeps its role, and a bank that changes role reads 0. -/
def Sys2Proof.WaysClearsChangedBanksOnly : Prop :=
  ∀ (m : List Host.Cell) (lo hi a : Nat), Memory.wf m = true →
    readByte (clearRange m lo hi) a = (if lo ≤ a ∧ a < hi then 0 else readByte m a) ∧ Memory.wf (clearRange m lo hi) = true

/-- R124, R125, R128, R336: a misaligned scratchpad load or store takes the misalign trap with its address, and one outside
the banks the bounds trap; a load of a sector that a drain has yet to commit waits first, and a release for what it orders.
-/
def Sys2Proof.BadLoadsTrap : Prop :=
  ∀ (s : State) (t : Team) (d base : SReg) (cls : BitVec 4) (o : Order) (off : BitVec 17),
    MayIssue s t { regs := [.s d, .s base] } → ∀ p ∈ [(Size.h, 2), (.w, 4), (.d, 8)],
      let ea := effAddr t base off.toInt
      let traps := fun (i : Instr) (c : Cause) => exec i s = .next ((s.atIssue t).raise t (s.curAt t) (c, BitVec.ofNat 64 ea))
      (ea % p.2 ≠ 0 → ((t.spBad ea p.2).isSome = true ∨ t.unsealed (t.col .ctl).timed ea p.2 = false) →
        s.cur.col = .ctl → traps (.ld d base cls .sp o p.1 off) .misalign) ∧
      (ea % p.2 ≠ 0 → t.releaseWaits o .sp cls s.cur.id = false → traps (.st d base cls .sp o p.1 off) .misalign) ∧
      (ea % p.2 = 0 → (t.spBad ea p.2).isSome = true → traps (.ld d base cls .sp o p.1 off) .bounds) ∧
      (ea % p.2 = 0 → (t.spBad ea p.2).isSome = true → t.releaseWaits o .sp cls s.cur.id = false →
        traps (.st d base cls .sp o p.1 off) .bounds)

/-! ## ctl: launches and requests to Kensia -/

/-- R145, R146, R325, R333: LAUNCH of an aligned packet, once ctl's earlier accesses have performed, the scoreboard has room
and the packet can be read (sealed, and served where a running program's window holds it), accepts a good packet and lands
its handle; a packet that is not 256-aligned takes the misalign trap; the cancel words ask for the end of their unit, phase
and job at level S only. -/
def Sys2Proof.LaunchAndCancelComplete : Prop :=
  ∀ (s : State) (t : Team) (d a : SReg) (spc : Space), s.cur.col = .ctl → let va := (t.getS a).v.toNat
    (va % 256 = 0 → s.boardFull = false → t.accessBefore .ctl s.cur.id = false →
      (spc = .sp → t.unsealed (t.col .ctl).timed va 256 = false) →
      let pas := (s.atIssue t).reachedBy (t.seen s.cur) spc true false ⟨va, va, 256, 0, 2048⟩
      (s.atIssue t).farStall (t.seen s.cur) true pas = false →
      trapOf (((s.atIssue t).cleanCache t.cid).launchBy (t.seen s.cur) spc va) = none →
      ∀ r, ((entered s t).cleanCache t.cid).launchBy (s.past t 1) spc va = .ok r →
      Completes s t { regs := [.s d, .s a], reject := true, asks := (s.atIssue t).windowReqs t.cid 0 false pas } (.launch d spc a)
        fun s' _ => r.1.landElastic t.cid s'.cur d r.2.toNat false) ∧
    (va % 256 ≠ 0 → MayIssue s t { regs := [.s d, .s a], reject := true } →
      exec (.launch d spc a) s = .next ((s.atIssue t).raise t (s.curAt t) (.misalign, BitVec.ofNat 64 va))) ∧
    ∀ p ∈ [(Instr.cancelLaunch a, 0), (.cancelGraph a, 1), (.cancelPhase a, 2), (.cancelJob a, 3)],
      Completes s t { svc := 2 ≤ p.2, regs := [.s a], reject := true } p.1 fun s' t' =>
        (done1 s' t').cancelUnit t.job p.2 (t.getS a).v

/-- R152, R153: the fuse reads and KWIPE run at level S; their requests end within their bound, and land the word read, or
whether the wiped slot held no key. -/
def Sys2Proof.KensiaRequestsComplete : Prop :=
  ∀ (s : State) (t : Team) (d a : SReg),
    (s.cur.col = .ctl →
      (∀ p ∈ [(Instr.fuseReadWord d a, 0, 1023), (.fuseReadIdentity d a, 1, 7), (.fuseReadLifecycle d a, 2, 0)],
        fuseBad p.2.1 p.2.2 (t.getS a).v.toNat = false → Completes s t { svc := true, regs := [.s d, .s a], reject := true } p.1
          fun s' t' => (s'.setTeam (t'.again s'.cur (t.clock .ctl + 1 + Config.kensiaLatency s.free % 60000) .perform
            [fld (t.getS a).v.toNat 0 16] p.1)).took) ∧
      ((t.getS a).v.toNat ≤ 64 → Completes s t { svc := true, regs := [.s d, .s a], reject := true } (.kwipe d a) fun s' t' =>
        (s'.setTeam (t'.again s'.cur (t.clock .ctl + 1 + Config.kensiaLatency s.free) .perform [(t.getS a).v.toNat]
          (.kwipe d a))).took)) ∧
    (s.team s.cur.cid = some t → s.cur.phase = .perform → ∀ n, s.cur.args = [n] →
      let lands := fun (v : Word) => s.setTeam ((t.land s.cur (t.clock .ctl) (.s d v false)).signalAt s.cur (t.clock .ctl))
      exec (.fuseReadWord d a) s = .next (lands (Config.fuseWord s.kensia.lifecycle s.kensia.unlocks n)) ∧
      exec (.fuseReadIdentity d a) s = .next (lands (s.kensia.ident.getD n 0)) ∧
      exec (.fuseReadLifecycle d a) s = .next (lands (BitVec.ofNat 64 s.kensia.lifecycle)) ∧
      ∃ s', exec (.kwipe d a) s = .next s' ∧ s'.kensia.keys = wipe s.kensia.keys n ∧
        s'.teams = (lands (if holdsKey s.kensia.keys n then 0 else 1)).teams)

/-! ## acs -/

/-- The address words of two a registers with their latency and result (R80, R157). -/
def Sys2Proof.addressWords : List ((AReg → AReg → AReg → Instr) × Nat × (Word → Word → Word)) :=
  [(.aadd, 1, fun a b => W (a.toInt + b.toInt)), (.asub, 1, fun a b => W (a.toInt - b.toInt)),
   (.ashl, 1, fun a b => W (a.toInt * 2 ^ (b.toNat % 64))), (.amul, 3, fun a b => W (a.toInt * b.toInt)),
   (.amin, 1, fun a b => W (min a.toNat b.toNat))]

/-- A result lands in a_d at a beat, and the SIGNAL fires then. -/
def Sys2Proof.landA (s : State) (t : Team) (d : AReg) (due : Nat) (x : TW) : State :=
  s.setTeam ((t.land s.cur due (.a d x.v x.t)).signalAt s.cur due)

/-- R157, R156: the address words land their result, tainted as their sources are. -/
def Sys2Proof.AddressResultLands : Prop :=
  ∀ (s : State) (t : Team) (d a b : AReg), s.cur.col = .acs →
    (∀ p ∈ addressWords, Completes s t { regs := [.a d, .a a, .a b] } (p.1 d a b) fun s' t' =>
      landA s' t' d (t.clk + p.2.1) ⟨p.2.2 (t.getA a).v (t.getA b).v, (t.getA a).t || (t.getA b).t⟩) ∧
    (∀ x : SReg, Completes s t { regs := [.a d] } (.amov d x) fun s' t' => landA s' t' d (t.clk + 1) (t.getS x)) ∧
    (∀ i : BitVec 28, Completes s t { regs := [.a d, .a a] } (.aaddi d a i) fun s' t' =>
      landA s' t' d (t.clk + 1) ⟨W ((t.getA a).v.toInt + i.toInt), (t.getA a).t⟩) ∧
    ∀ i : BitVec 28, Completes s t { regs := [.a d] } (.amovi d i) fun s' t' => landA s' t' d (t.clk + 1) ⟨W i.toInt, false⟩

/-- R158, R159: PAT makes a pattern of 1 to 16 rows that does not wrap, in force a beat after issue; PATLD reads a descriptor at a
multiple of 16 a beat after issue, and its pattern is in force six beats after issue; a bad descriptor takes the bounds trap. -/
def Sys2Proof.PatternWordsComplete : Prop :=
  ∀ (s : State) (t : Team) (p : BitVec 3), s.cur.col = .acs →
    (∀ (rows rb : BitVec 4) (str : BitVec 19), Completes s t { regs := [.p p] } (.pat p rows rb str) fun s' t' =>
      done1 s' (t'.land s'.cur (t.clk + 1) (.pat p ⟨rows.toNat + 1, 8 * (rb.toNat + 1), 8 * str.toInt, 0⟩))) ∧
    ∀ (x : AReg) (off : BitVec 27),
      (let a := addrPlus (t.getA x).v.toNat (16 * off.toInt)
       addrTaint t x = none → a % 16 = 0 → t.spBad a 16 = none → (t.seen s.cur).readsTrap 1 16 [a] = none →
       t.unsealed (t.col .acs).timed a 16 = false →
       Completes s t { regs := [.a x, .p p] } (.patld p x off) fun s' t' =>
         s'.setTeam (t'.again s'.cur (t.clk + 1) .access [a] (.patld p x off))) ∧
      ∀ a : Nat, s.team s.cur.cid = some t → s.cur.phase = .access → s.cur.args = [a] →
        (∀ pt, patOf (readNat (t.view 1).spad a 16) = some pt → exec (.patld p x off) s = .next
          ((s.setTeam ((t.land s.cur (s.cur.issued + 6) (.pat p pt)).signalAt s.cur (s.cur.issued + 6))).afterRows s.cur 1 false
            t 16 [a])) ∧
        (patOf (readNat (t.view 1).spad a 16) = none → exec (.patld p x off) s = .next (s.raise t s.cur (.bounds, BitVec.ofNat 64 a)))

/-- R160: row y of an access at A starts at A + y·STR modulo 2^64, or, where the pattern wraps, at that place inside the block of W
bytes that holds A. -/
def Sys2Proof.RowAddresses : Prop :=
  ∀ (p : Pattern) (a y : Nat), a < 2 ^ 64 →
    (p.wrap = 0 → (patAddr p a y : Int) = (a + y * p.str) % 2 ^ 64) ∧
    (∀ k, p.wrap = 2 ^ k → 11 ≤ k → k ≤ 21 → patAddr p a y / p.wrap = a / p.wrap ∧
      ((patAddr p a y : Int) - (a + y * p.str)) % p.wrap = 0)

/-- R161, R164: LQ and LQB reserve a place in their queue, advance their address register, and read their rows a beat after issue;
the entry holds row y in its first bytes and +0 elsewhere, with the taint of each word read, and lands twelve beats after issue. -/
def Sys2Proof.QueueLoadsComplete : Prop :=
  ∀ (s : State) (t : Team) (q : BitVec 2) (p : BitVec 3) (x : AReg) (cls : BitVec 4) (off : BitVec 14) (inc : BitVec 13) (pt : Pattern),
    s.cur.col = .acs → t.p.get p.toFin = some pt →
    ∀ i ∈ [(Instr.lq q p x cls off inc, inc.toInt, false), (.lqb q p x cls off, 0, true)],
      let a := rowBase t x off.toInt
      (let rows := if i.2.2 then [a] else patRows pt a
       (t.qAt q).length < 4 → (∀ r ∈ rows, t.unsealed (t.col .acs).timed r pt.rb = false) →
       readTrap (t.seen s.cur) x pt.rb rows = none →
       Completes s t { regs := [.a x, .p p], occ := 2 } i.1 fun s' t' =>
         let u := t'.setQ q (t.qAt q ++ [⟨s.cur.id, false, ⟨0, 0⟩⟩])
         let u := if i.2.1 = 0 then u
           else u.land s'.cur (t.clk + 1) (.a x (W ((t.getA x).v.toInt + 8 * i.2.1)) (t.getA x).t)
         s'.setTeam (u.again s'.cur (t.clk + 1) .access [a, if (t.getA x).t then 1 else 0] i.1)) ∧
      ∀ b k : Nat, s.team s.cur.cid = some t → s.cur.phase = .access → s.cur.args = [b, k] → pt.rb ≤ 128 → pt.rows ≤ 16 →
        (∀ y < pt.rows, patAddr pt b y % 8 = 0) → pt.rb % 8 = 0 →
        let rows := if i.2.2 then [b] else patRows pt b
        let row := fun y => if i.2.2 then b else patAddr pt b y
        ∃ bits taint, exec i.1 s = .next ((landEntry s t q (s.cur.issued + 12) bits taint).afterRows s.cur 1 false t pt.rb rows) ∧
          (∀ y < 16, ∀ j < 128, fld bits (1024 * y + 8 * j) 8 =
            if y < pt.rows ∧ j < pt.rb then (readByte (t.view 1).spad (row y + j)).toNat else 0) ∧
          (∀ y < pt.rows, ∀ w < pt.rb / 4, taint.testBit (32 * y + w) =
            ((t.view 1).spadTaint.contains (row y / 4 + w) || decide (k = 1) || t.freshTaints 1 pt.rb rows))

/-- R162: LQX pops an index entry and gathers the row at A + 8·I[y] for each index that is not -2^31; the entry lands sixteen beats
after issue with +0 in each row that is skipped. -/
def Sys2Proof.IndexedLoadCompletes : Prop :=
  ∀ (s : State) (t : Team) (q i : BitVec 2) (p : BitVec 3) (x : AReg) (cls : BitVec 4) (off : BitVec 12) (pt : Pattern),
    s.cur.col = .acs → t.p.get p.toFin = some pt →
    (∀ (e : QEntry) (l : List QEntry), t.wAt i = e :: l → e.landed = true → (t.qAt q).length < 4 →
      let a := rowBase t x off.toInt
      let rows := (indexRows e.v.bits pt.rows a).filterMap id
      (∀ r ∈ rows, t.unsealed (t.col .acs).timed r pt.rb = false) → indexTaint t e.v pt.rows = none →
      readTrap (t.seen s.cur) x pt.rb rows = none →
      Completes s t { regs := [.a x, .p p], occ := 4 } (.lqx q p x cls i off) fun s' t' =>
        s'.setTeam (((t'.setW i l).setQ q (t.qAt q ++ [⟨s.cur.id, false, ⟨0, 0⟩⟩])).again s'.cur (t.clk + 1) .access
          [a, if (t.getA x).t then 1 else 0, e.v.bits.toNat, e.v.taint.toNat] (.lqx q p x cls i off))) ∧
    ∀ b k ix it : Nat, s.team s.cur.cid = some t → s.cur.phase = .access → s.cur.args = [b, k, ix, it] → pt.rb ≤ 128 →
      pt.rows ≤ 16 →
      let idx := fun y => (BitVec.ofNat 32 (fld ix (32 * y) 32)).toInt
      let rows := (indexRows (BitVec.ofNat 16384 ix) pt.rows b).filterMap id
      ∃ bits taint, exec (.lqx q p x cls i off) s = .next
          ((landEntry s t q (s.cur.issued + 16) bits taint).afterRows s.cur 1 false t pt.rb rows) ∧
        (∀ r ∈ rows, ∃ y < pt.rows, idx y ≠ -2 ^ 31 ∧ r = addrPlus b (8 * idx y)) ∧
        ∀ y < 16, ∀ j < 128, fld bits (1024 * y + 8 * j) 8 =
          if y < pt.rows ∧ idx y ≠ -2 ^ 31 ∧ j < pt.rb then (readByte (t.view 1).spad (addrPlus b (8 * idx y) + j)).toNat else 0

/-- R163, R164: SQ pops the head entry of a w queue, advances its address register, and writes its rows a beat after issue, in
ascending order: each row of the entry that no later row overlaps reads back, and every byte outside the rows is as before. -/
def Sys2Proof.QueueStoreCompletes : Prop :=
  ∀ (s : State) (t : Team) (q : BitVec 2) (p : BitVec 3) (x : AReg) (cls : BitVec 4) (off : BitVec 14) (inc : BitVec 13) (pt : Pattern),
    s.cur.col = .acs → t.p.get p.toFin = some pt → let i : Instr := .sq q p x cls off inc
    (∀ (e : QEntry) (l : List QEntry), t.wAt q = e :: l → e.landed = true →
      let a := rowBase t x off.toInt
      storeTrap (t.seen s.cur) x pt.rb (patRows pt a) = none →
      Completes s t { regs := [.a x, .p p], occ := 2 } i fun s' t' =>
        let u := t'.setW q l
        let u := if inc = 0 then u
          else u.land s'.cur (t.clk + 1) (.a x (W ((t.getA x).v.toInt + 8 * inc.toInt)) (t.getA x).t)
        done1 s' (u.again s'.cur (t.clk + 1) .access [a, if (t.getA x).t then 1 else 0, e.v.bits.toNat, e.v.taint.toNat] i)) ∧
    ∀ b k bits taint : Nat, Memory.wf t.spad = true → s.team s.cur.cid = some t → s.cur.phase = .access →
      s.cur.args = [b, k, bits, taint] → pt.rb ≤ 128 →
      ∃ t' : Team, exec i s = .next ((s.setTeam t').afterRows s.cur 1 true t pt.rb (patRows pt b)) ∧
        (∀ y < pt.rows, (∀ z, y < z → z < pt.rows → patAddr pt b z + pt.rb ≤ patAddr pt b y ∨
            patAddr pt b y + pt.rb ≤ patAddr pt b z) →
          readNat t'.spad (patAddr pt b y) pt.rb = fld bits (1024 * y) (8 * pt.rb)) ∧
        (∀ a, (∀ y < pt.rows, a < patAddr pt b y ∨ patAddr pt b y + pt.rb ≤ a) → readByte t'.spad a = readByte t.spad a) ∧
        t' = { t with spad := t'.spad, spadTaint := t'.spadTaint }

/-- R163: SQX pops a data entry and an index entry, two of one queue where both are the same, and scatters row y to A + 8·I[y],
skipping an index of -2^31: bytes outside the rows are as before. -/
def Sys2Proof.IndexedStoreCompletes : Prop :=
  ∀ (s : State) (t : Team) (q i : BitVec 2) (p : BitVec 3) (x : AReg) (cls : BitVec 4) (off : BitVec 12) (pt : Pattern),
    s.cur.col = .acs → t.p.get p.toFin = some pt → let w : Instr := .sqx q p x cls i off
    (∀ (e f : QEntry) (le lf : List QEntry), (q ≠ i → t.wAt q = e :: le ∧ t.wAt i = f :: lf) →
      (q = i → t.wAt q = e :: f :: le) → e.landed = true → f.landed = true →
      let a := rowBase t x off.toInt
      indexTaint t f.v pt.rows = none → storeTrap (t.seen s.cur) x pt.rb ((indexRows f.v.bits pt.rows a).filterMap id) = none →
      Completes s t { regs := [.a x, .p p], occ := 4 } w fun s' t' =>
        let u := if q = i then t'.setW q le else (t'.setW q le).setW i lf
        done1 s' (u.again s'.cur (t.clk + 1) .access [a, if (t.getA x).t then 1 else 0, e.v.bits.toNat, e.v.taint.toNat,
          f.v.bits.toNat, f.v.taint.toNat] w)) ∧
    ∀ b k bits taint ix it : Nat, Memory.wf t.spad = true → s.team s.cur.cid = some t → s.cur.phase = .access →
      s.cur.args = [b, k, bits, taint, ix, it] → pt.rb ≤ 128 → pt.rows ≤ 16 →
      let idx := fun y => (BitVec.ofNat 32 (fld ix (32 * y) 32)).toInt
      let rows := (indexRows (BitVec.ofNat 16384 ix) pt.rows b).filterMap id
      ∃ t' : Team, exec w s = .next ((s.setTeam t').afterRows s.cur 1 true t pt.rb rows) ∧
        (∀ y < pt.rows, idx y ≠ -2 ^ 31 → (∀ z, y < z → z < pt.rows → idx z ≠ -2 ^ 31 →
            addrPlus b (8 * idx z) + pt.rb ≤ addrPlus b (8 * idx y) ∨ addrPlus b (8 * idx y) + pt.rb ≤ addrPlus b (8 * idx z)) →
          readNat t'.spad (addrPlus b (8 * idx y)) pt.rb = fld bits (1024 * y) (8 * pt.rb)) ∧
        (∀ a, (∀ r ∈ rows, a < r ∨ r + pt.rb ≤ a) → readByte t'.spad a = readByte t.spad a) ∧
        t' = { t with spad := t'.spad, spadTaint := t'.spadTaint }

/-- The state in which an access of rows takes effect: the team, its queue moved on, past the word, and the demand requests that the
rows take (R3, R165). -/
def Sys2Proof.rowsBegin (s : State) (t u : Team) (write : Bool) (rb : Nat) (rows : List Nat) : State :=
  ((s.atIssue t).setTeam u).asking (((s.atIssue t).setTeam u).rowsReached u write rb rows)

/-- R165, R325: LQG and SQG, on rows that translate and may be accessed, once a demand request is free for each sector that
they touch and what they need of a channel window under a running program has been served: LQG reserves its place, and its
entry lands later with the rows read; SQG pops its entry and has written its rows. -/
def Sys2Proof.GlobalRowWordsComplete : Prop :=
  ∀ (s : State) (t : Team) (q : BitVec 2) (p : BitVec 3) (x : AReg) (cls : BitVec 4) (off : BitVec 14) (pt : Pattern),
    s.cur.col = .acs → t.p.get p.toFin = some pt → addrTaint t x = none →
    let rows := patRows pt (rowBase t x off.toInt)
    let gate := fun (write : Bool) => let pas := (s.atIssue t).rowsReached (t.seen s.cur) write pt.rb rows
      ({ regs := [.a x, .p p], reject := true, asks := (s.atIssue t).windowReqs t.cid 0 write pas } : Gate)
    ((t.qAt q).length < 4 →
      (s.atIssue t).farStall (t.seen s.cur) true ((s.atIssue t).rowsReached (t.seen s.cur) false pt.rb rows) = false →
      trapOf (lqgRun (s.atIssue t) (t.seen s.cur) pt.rb rows) = none → MayIssue s t (gate false) →
      let u := (s.past t 1).setQ q (t.qAt q ++ [⟨s.cur.id, false, ⟨0, 0⟩⟩])
      let e := rowsBegin s t u false pt.rb rows
      ∀ bits taint s2 v, lqgRun e u pt.rb rows = .ok (bits, taint, s2) → s2.team t.cid = some v →
        let all := if (t.getA x).t then rowsTainted (List.replicate rows.length true) else 0
        exec (.lqg q p x cls off) s = .next ((rows.foldl (fun s' a => s'.watchGlobal e.cur 1 false e a pt.rb)
          (landEntry { s2 with cur := e.cur } v q (s2.memDue v.clk) bits (taint ||| all)).took).labelAux s.cur.cid
            (q.toNat + 8 * (t.qAt q).findIdx fun y => y.id = s.cur.id))) ∧
    ∀ (y : QEntry) (l : List QEntry), t.wAt q = y :: l → y.landed = true →
      (s.atIssue t).farStall (t.seen s.cur) false ((s.atIssue t).rowsReached (t.seen s.cur) true pt.rb rows) = false →
      trapOf (sqgRun (s.atIssue t) (t.seen s.cur) pt.rb rows y.v.bits.toNat y.v.taint.toNat (t.getA x).t) = none →
      MayIssue s t (gate true) →
      let u := (s.past t 1).setW q l
      let e := rowsBegin s t u true pt.rb rows
      ∀ r, sqgRun e u pt.rb rows y.v.bits.toNat y.v.taint.toNat (t.getA x).t = .ok r →
        exec (.sqg q p x cls off) s = .next ((rows.foldl (fun s' a => s'.watchGlobal e.cur 1 true e a pt.rb)
          (r.doneElastic t.cid e.cur)).labelAux s.cur.cid (q.toNat + 4))

/-- R68, R161, R168: an entry that lands fills the place reserved for it and no other; QCLR empties its queue, but for an
entry pushed on its own beat; BFMT puts a legal format into force a beat after issue; RADV waits for the earlier stores and
then moves the tail of its ring by n. -/
def Sys2Proof.QueueAndRingWordsComplete : Prop :=
  ∀ (s : State) (t : Team), s.cur.col = .acs →
    (∀ (q : BitVec 2) (e : Nat) (v : VVal), s.team s.cur.cid = some t → ∃ t' : Team, exec (.queueEntryLands q e v) s = .next (s.setTeam t') ∧
      (t'.qAt q).length = (t.qAt q).length ∧ (∀ x ∈ t'.qAt q, x.id = e → x.landed = true ∧ x.v = v) ∧
      (∀ x ∈ t.qAt q, x.id ≠ e → x ∈ t'.qAt q) ∧ (∀ r, r ≠ q → t'.qAt r = t.qAt r) ∧ t' = { t with q := t'.q }) ∧
    (∀ (w : Bool) (q : BitVec 2), Completes s t {} (.qclr w q) fun s' t' => done1 s'
      (if w then t'.setW q ((t.wAt q).filter t.pushedNow) else t'.setQ q ((t.qAt q).filter t.pushedNow))) ∧
    (∀ (bank : BitVec 4) (a : AReg), let v := (t.getA a).v
      v.toNat / 2 ^ 11 % 2 ^ 21 = 0 → t.bankOk bank.toNat = true →
      (v.toNat % 16 = 8 ∨ v.toNat % 16 = 9 → 0 < v.toNat / 2 ^ 32 ∧ v.toNat / 2 ^ 32 < 0x7F800000) →
      Completes s t { regs := [.a a] } (.bfmt bank a) fun s' t' => done1 s' (t'.land s'.cur (t.clk + 1) (.bfmt bank.toNat v))) ∧
    ∀ (r : Ring) (n : BitVec 28),
      (t.active ≠ none → t.ringRoom (t.col .acs).timed r n.toNat = true → Completes s t {} (.radv r n) fun s' t' =>
        s'.setTeam (({ t' with advances := t'.advances ++ [(s.cur.id, r, n.toNat)] } : Team).await s'.cur [] (.radv r n))) ∧
      (s.team s.cur.cid = some t → s.cur.phase = .perform → t.advances = [(s.cur.id, r, n.toNat)] →
        ∃ t' : Team, exec (.radv r n) s = .next (s.setTeam (t'.signalAt s.cur t.clk)) ∧ (t'.ring r).tail = (t.ring r).tail + n.toNat ∧
          (t'.ring r).head = (t.ring r).head ∧ t'.advances = [] ∧ ∀ o, o ≠ r → t'.ring o = t.ring o)

/-! ## vec -/

/-- A VEC WORD ISSUES as described: whenever it may issue under the gate of its description, its queues are popped, and the
slices of its result are due (R176 to R181). -/
def Sys2Proof.Sends (i : Instr) (x : VSpec) (d : SliceDst) (lm : Team → LatMode) (out : Team → VOut) : Prop :=
  ∀ (s : State) (t : Team), s.cur.col = .vec →
    Completes s t (x.gate (dstReg d) (s.atIssue t) (t.seen s.cur)) i (vecEffect x d Team.rows lm out)

/-- What an elementwise word on elements of type ty makes of its sources' elements. -/
def Sys2Proof.eachElement (ty : ElemTy) (m : Mask) (ins : List VSrc) (f : Team → List Nat → Nat × Exc) (t : Team) : VOut :=
  elemOut t ty.width (64 * t.rowb / ty.width) m (fun y e => ins.any fun x => t.readTaint ty.width x y e)
    fun y e => f t (ins.map fun x => t.read ty x y e)

/-- An elementwise word whose result goes to a register and to lat; where it does not read VRM itself, a broadcast immediate of a
floating-point type does. -/
def Sys2Proof.SendsElements (i : Instr) (d : VDst) (ty : ElemTy) (m : Mask) (ins : List VSrc) (other : List RdName) (lat sr occ : Nat)
    (f : Team → List Nat → Nat × Exc) : Prop :=
  Sends i { ins := ins, ty := if other = fpReads then none else some ty, mask := m, other := other, lat := lat, sr := sr, occ := occ } (.reg d 0) (fun _ => .same)
    (eachElement ty m ins f)

/-- R78, R80: THE SLICES OF A RESULT. A word that issues at beat T, of latency L and SR rows a slice, leaves slice k of its
result to land at T + L + k·OCC, with the rows from k·SR on, and its SIGNAL fires with the last; of each queue that it reads
one entry is popped. -/
def Sys2Proof.VecResultSlices : Prop :=
  ∀ (s : State) (t : Team) (x : VSpec) (d : SliceDst) (lm : Team → LatMode) (out : Team → VOut),
    s.cur.col = .vec → 0 < x.sr → 0 < t.rows →
    let n := (t.rows + x.sr - 1) / x.sr
    ∃ u, vecEffect x d Team.rows lm out s t = s.setTeam u ∧
      (∀ p, p ∈ u.pend ↔ p ∈ t.pend ∨
        (∃ k < n, p.due = t.clk + x.lat + k * x.occ ∧ p.rank = rankLand ∧ p.cx = s.cur ∧ p.act = .sliceLands
          { dst := dstOf s.cur.id d, row0 := k * x.sr, rows := min x.sr (t.rows - k * x.sr), data := BitVec.ofNat 16384 (out t).data,
            en := BitVec.ofNat 16384 (out t).en, taint := BitVec.ofNat 512 (out t).taint, lat := lm t,
            exc := if k + 1 = n then (out t).exc else 0, last := k + 1 = n }) ∨
        p = ⟨t.clk + x.lat + (n - 1) * x.occ, rankSignal s.cur.signal, s.cur, .signalFire (.code s.cur.signal)⟩) ∧
      (∀ q, u.qAt q = if .q q ∈ x.ins then (t.qAt q).tail else t.qAt q) ∧
      (∀ q, d = .reg (.w q) 0 → u.wAt q = t.wAt q ++ [⟨s.cur.id, false, ⟨0, 0⟩⟩]) ∧
      u.v = t.v ∧ u.o = t.o ∧ u.lat = t.lat ∧ u.k = t.k ∧ u.s = t.s ∧ u.spad = t.spad ∧ u.acc = t.acc ∧ u.vexc = t.vexc

/-- R177, R180, R46: A SLICE LANDS in its own rows: each bit that it writes takes the slice's bit, every other bit of the
register and every other register keep their values, its exceptions are ORed into VEXC, and nothing outside the files of vec
changes. -/
def Sys2Proof.SliceLandsInItsRows : Prop :=
  ∀ (s : State) (t : Team) (x : Slice), s.team s.cur.cid = some t → s.upset t.cid s.cur.id 3 = 0 → x.row0 + x.rows ≤ 16 →
    ∃ t' : Team, exec (.sliceLands x) s = .next (s.setTeam t') ∧ t'.vexc = t.vexc ||| x.exc.setWidth 64 ∧
      t' = { t with v := t'.v, o := t'.o, k := t'.k, w := t'.w, lat := t'.lat, vexc := t'.vexc } ∧
      let here := fun (width b : Nat) => width * x.row0 ≤ b ∧ b < width * (x.row0 + x.rows)
      (∀ (r : BitVec 6) (e : Nat), x.dst = .reg (.v r) e →
        (∀ b < 16384, (t'.v.get r.toFin).bits.getLsbD b =
          if here 1024 b ∧ x.en.getLsbD b then x.data.getLsbD b else (t.v.get r.toFin).bits.getLsbD b) ∧
        (∀ q : BitVec 6, q ≠ r → t'.v.get q.toFin = t.v.get q.toFin) ∧ t'.o = t.o ∧ t'.k = t.k ∧ t'.w = t.w ∧
        (x.lat = .same → ∀ b < 16384, here 1024 b → t'.lat.bits.getLsbD b = (t'.v.get r.toFin).bits.getLsbD b) ∧
        (x.lat = .keep → t'.lat = t.lat)) ∧
      (∀ (r : BitVec 3) (e : Nat), x.dst = .reg (.o r) e →
        (∀ b < 16384, (t'.o.get r.toFin).bits.getLsbD b =
          if here 1024 b ∧ x.en.getLsbD b then x.data.getLsbD b else (t.o.get r.toFin).bits.getLsbD b) ∧
        (∀ q : BitVec 3, q ≠ r → t'.o.get q.toFin = t.o.get q.toFin) ∧ t'.v = t.v ∧ t'.k = t.k ∧ t'.w = t.w) ∧
      (∀ (q : BitVec 2) (e : Nat), x.dst = .reg (.w q) e → t'.v = t.v ∧ t'.o = t.o ∧ t'.k = t.k ∧
        (∀ z ∈ t'.wAt q, z.id = e → z.landed = x.last) ∧ (∀ z ∈ t.wAt q, z.id ≠ e → z ∈ t'.wAt q) ∧
        ∀ r, r ≠ q → t'.wAt r = t.wAt r) ∧
      (∀ r : BitVec 3, x.dst = .mask r → t'.v = t.v ∧ t'.o = t.o ∧ t'.w = t.w ∧ t'.lat = t.lat ∧ (r = 0 → t'.k = t.k) ∧
        (r ≠ 0 → ∀ b < 2048, (t'.getK r).bits.getLsbD b =
          if here 128 b ∧ x.en.getLsbD b then x.data.getLsbD b else (t.getK r).bits.getLsbD b) ∧
        ∀ q, q ≠ r → t'.getK q = t.getK q)

/-- R69, R176, R180: WHAT AN ELEMENTWISE WORD WRITES: of the active elements those that the mask enables, each with its value's low
bits and with its own taint or its mask row's; nothing else is written. -/
def Sys2Proof.ElementsOfAResult : Prop :=
  ∀ (t : Team) (w n : Nat) (m : Mask) (taint : Nat → Nat → Bool) (f : Nat → Nat → Nat × Exc),
    w ∈ [8, 16, 32, 64] → n * w ≤ 1024 → t.rows ≤ 16 →
    let o := elemOut t w n m taint f
    (∀ y < 16, ∀ e < 1024 / w,
      fld o.en (1024 * y + w * e) w = (if y < t.rows ∧ e < n ∧ t.enabled m y e = true then 2 ^ w - 1 else 0) ∧
      fld o.data (1024 * y + w * e) w = (if y < t.rows ∧ e < n ∧ t.enabled m y e = true then (f y e).1 % 2 ^ w else 0)) ∧
    o.en < 2 ^ 16384 ∧
    (∀ u < 512, o.taint.testBit u = true ↔ ∃ y < t.rows, ∃ e < n, t.enabled m y e = true ∧
      (taint y e || t.maskTaint m y) = true ∧ 32 * y + w * e / 32 ≤ u ∧ u ≤ 32 * y + (w * e + w - 1) / 32) ∧
    (∀ b < 5, o.exc.getLsbD b = true ↔ ∃ y < t.rows, ∃ e < n, t.enabled m y e = true ∧ (f y e).2.getLsbD b = true)

/-- The floating-point words of two sources with their latency, port beats of a slice, and result, rounded once (R80, R182). -/
def Sys2Proof.floatWords2 : List ((VDst → VSrc → VSrc → ElemTy → Mask → Instr) × Nat × Nat × (Mode → Val → Val → Val × Exc)) :=
  [(.vadd, 4, 1, fun m x y => (sumV m [x, y], 0)), (.vsub, 4, 1, fun m x y => (sumV m [x, y.negate], 0)),
   (.vmul, 4, 1, fun _ x y => (mulV x y, 0)), (.vdiv, 20, 4, fun _ x y => divV x y),
   (.vmin, 4, 1, fun _ x y => (pickV false x y, 0)), (.vmax, 4, 1, fun _ x y => (pickV true x y, 0))]

/-- The fused words: a·b + c, a·b - c and -(a·b) + c, rounded once (R182). -/
def Sys2Proof.fusedWords : List ((VDst → VSrc → VSrc → VSrc → ElemTy → Mask → Instr) × (Mode → Val → Val → Val → Val)) :=
  [(.vfma, fun m x y z => sumV m [mulV x y, z]), (.vfms, fun m x y z => sumV m [mulV x y, z.negate]),
   (.vfnma, fun m x y z => sumV m [(mulV x y).negate, z])]

/-- R182, R183, R44, R80: the elementwise floating-point words send their results: the exact value of the operation on each element,
delivered once in the element's type; VABS and VNEG change the sign bit alone, and a NaN becomes the canonical one. -/
def Sys2Proof.FloatWordsComplete : Prop :=
  ∀ (d : VDst) (a b c : VSrc) (ty : ElemTy) (m : Mask),
    let v := fun (n : Nat) => decodeF (fmtOf ty) n
    (∀ p ∈ floatWords2, SendsElements (p.1 d a b ty m) d ty m [a, b] fpReads p.2.1 8 p.2.2.1 fun t l =>
      let r := p.2.2.2 t.mode (v (l.getD 0 0)) (v (l.getD 1 0))
      let x := deliver (fmtOf ty) t.mode t.sat r.1
      (x.1, x.2 ||| r.2)) ∧
    (∀ p ∈ fusedWords, SendsElements (p.1 d a b c ty m) d ty m [a, b, c] fpReads 4 8 1 fun t l =>
      deliver (fmtOf ty) t.mode t.sat (p.2 t.mode (v (l.getD 0 0)) (v (l.getD 1 0)) (v (l.getD 2 0)))) ∧
    (SendsElements (.vsqrt d a ty m) d ty m [a] fpReads 20 8 4 fun t l =>
      deliver (fmtOf ty) t.mode t.sat (sqrtV (v (l.getD 0 0)))) ∧
    (∀ p ∈ [(Instr.vabs d a ty m, fun _ => false), (.vneg d a ty m, fun x => !x)],
      SendsElements p.1 d ty m [a] fpReads 4 8 1 fun _ l =>
        let x := l.getD 0 0
        let k := (fmtOf ty).e + (fmtOf ty).f
        match v x with
        | .nan sig => ((fmtOf ty).nan, if sig then 16 else 0)
        | _ => (x % 2 ^ k + (if p.2 (x.testBit k) then 2 ^ k else 0), 0)) ∧
    (SendsElements (.vrnd d a ty m) d ty m [a] fpReads 4 8 1 fun t l =>
      match v (l.getD 0 0) with
      | .fin neg n q =>
        ((deliver (fmtOf ty) t.mode true (.fin neg (roundInt t.mode neg n q).1 1)).1, if n % q = 0 then 0 else 1)
      | x => deliver (fmtOf ty) t.mode true x)

/-- R44: a value that a format holds is delivered as itself, with no exception, under every rounding mode. -/
def Sys2Proof.RepresentableValuesRoundToThemselves : Prop :=
  ∀ ty ∈ [ElemTy.f64, .f32, .bf16, .f16, .e4m3, .e5m2, .e3m2, .e2m3], ∀ (mode : Mode) (sat : Bool) (c : Nat),
    c < 2 ^ (fmtOf ty).width → ∀ neg n d, decodeF (fmtOf ty) c = .fin neg n d →
      deliver (fmtOf ty) mode sat (decodeF (fmtOf ty) c) = (c, 0)

/-- R42, R44: what is delivered of a positive value within a format's normal range lies on the side that the mode asks for:
toward zero and down never above it, up never below it, with the inexact flag exactly when it differs. -/
def Sys2Proof.DirectedRoundingBoundsTheValue : Prop :=
  ∀ ty ∈ [ElemTy.f64, .f32, .bf16, .f16], ∀ (n d : Nat) (mode : Mode), 0 < n → 0 < d →
    let x := fmtOf ty
    let r := deliver x mode false (.fin false n d)
    ∀ rn rd, decodeF x r.1 = .fin false rn rd →
      (mode = 1 ∨ mode = 2 → rn * d ≤ n * rd) ∧ (mode = 3 → n * rd ≤ rn * d) ∧ (r.2.getLsbD 0 = true ↔ rn * d ≠ n * rd)

/-- R184, R185, R186: the compares set the mask bit of each enabled element by their predicate, with invalid for a
signalling NaN and, of an ordered predicate, for any NaN; VCLASS by its class set; VCVT counts elements in the wider type.
-/
def Sys2Proof.CompareAndConvertWordsComplete : Prop :=
  ∀ (k : BitVec 3) (d : VDst) (a b : VSrc) (ty : ElemTy) (m : Mask),
    let bits := fun (ins : List VSrc) (f : List Nat → Bool × Exc) (t : Team) =>
      maskOut t.rows (64 * t.rowb / ty.width) fun y e =>
        if t.enabled m y e then
          let r := f (ins.map fun x => t.read ty x y e)
          some ⟨if r.1 then 1 else 0, (ins.any fun x => t.readTaint ty.width x y e) || t.maskTaint m y, r.2⟩
        else none
    (∀ p : FPred, Sends (.vcmp p k a b ty m) { ins := [a, b], mask := m, other := fpReads, lat := 4 } (.mask k) (fun _ => .keep)
      (bits [a, b] fun l => ((fpCmp p ty (l.getD 0 0) (l.getD 1 0)).1 = 1, (fpCmp p ty (l.getD 0 0) (l.getD 1 0)).2))) ∧
    (∀ p : IPred, Sends (.vicmp p k a b ty m) { ins := [a, b], mask := m, lat := 2 } (.mask k) (fun _ => .keep)
      (bits [a, b] fun l =>
        let x := BitVec.ofNat ty.width (l.getD 0 0)
        let y := BitVec.ofNat ty.width (l.getD 1 0)
        let r : Bool := match p with
          | .eq => x = y
          | .ne => x ≠ y
          | .lt => x.toInt < y.toInt
          | .le => x.toInt ≤ y.toInt
          | .gt => y.toInt < x.toInt
          | .ge => y.toInt ≤ x.toInt
          | .ltu => x.toNat < y.toNat
          | .leu => x.toNat ≤ y.toNat
          | .gtu => y.toNat < x.toNat
          | .geu => y.toNat ≤ x.toNat
        (r, 0))) ∧
    (∀ set : BitVec 10, Sends (.vclass k a set ty m) { ins := [a], mask := m, other := fpReads, lat := 4 } (.mask k) (fun _ => .keep)
      (bits [a] fun l => (set.getLsbD (classOf ty (l.getD 0 0)), 0))) ∧
    ∀ (dt st : ElemTy) (us ud : Bool), Sends (.vcvt d a dt st us ud m) { ins := [a], mask := m, other := fpReads, lat := 4 }
      (.reg d 0) (fun _ => .same) fun t =>
        elemOut t dt.width (64 * t.rowb / max dt.width st.width) m (fun y e => t.readTaint st.width a y e)
          fun y e => convert dt st us ud t.mode t.sat (t.read st a y e)

/-- R184: an ordered predicate of a NaN is false and invalid; the unordered ones are true, and quiet unless a NaN signals;
equal zeros of either sign compare equal. -/
def Sys2Proof.ComparesOfNans : Prop :=
  ∀ ty ∈ [ElemTy.f64, .f32, .bf16, .f16, .e4m3, .e5m2], ∀ (a b : Nat) (p : FPred),
    let x := decodeF (fmtOf ty) a
    let y := decodeF (fmtOf ty) b
    (x.isNan = true ∨ y.isNan = true →
      (p ∈ [FPred.lt, .le, .gt, .ge] → fpCmp p ty a b = (0, 16)) ∧
      (p ∈ [FPred.eq, .ord] → fpCmp p ty a b = (0, if x.isSig || y.isSig then 16 else 0)) ∧
      (p ∈ [FPred.ne, .un] → fpCmp p ty a b = (1, if x.isSig || y.isSig then 16 else 0))) ∧
    ∀ s r n d e f, x = .fin s n d → y = .fin r e f → 0 < d → 0 < f → (fpCmp .eq ty a b = (1, 0) ↔ n * f = e * d ∧ (s = r ∨ n = 0))

/-- R183: a division of a finite nonzero number by zero is the infinity of its sign and raises divide by zero; zero by zero and
infinity by infinity are the NaN and invalid; the root of a negative number is the NaN and invalid. -/
def Sys2Proof.DivisionAndRootCorners : Prop :=
  ∀ (s r : Bool) (n d e : Nat), 0 < n → 0 < d → 0 < e →
    divV (.fin s n d) (.fin r 0 e) = (.inf (s != r), 8) ∧ divV (.fin s 0 d) (.fin r 0 e) = (.nan true, 0) ∧
    divV (.inf s) (.inf r) = (.nan true, 0) ∧ divV (.fin s n d) (.inf r) = (.fin (s != r) 0 1, 0) ∧
    sqrtV (.fin true n d) = .nan true ∧ sqrtV (.fin true 0 d) = .fin true 0 1 ∧
    ∀ ty ∈ [ElemTy.f64, .f32, .bf16, .f16], ∀ mode sat, deliver (fmtOf ty) mode sat (.nan true) = ((fmtOf ty).nan, 16)

/-- R187: the reductions send one element of each active row, made of the enabled elements and the initial term; sums and
dot products are exact until their one rounding, integer ones saturate. -/
def Obligations.ReductionWordsComplete : Prop :=
  ∀ (d : VDst) (a b c : VSrc) (ty : ElemTy) (m : Mask),
    let out := fun (ins : List VSrc) (init : VSrc) (r : ElemTy) (f : Team → Nat → List (List Nat) → Nat × Exc) (t : Team) =>
      gridOut t.rows r.width 1 fun y _ =>
        let on := (List.range (64 * t.rowb / ty.width)).filter (t.enabled m y)
        let x := f t (t.read r init y 0) (on.map fun e => ins.map fun x => t.read ty x y e)
        some ⟨x.1, t.readTaint r.width init y 0 ||
          (on.any fun e => t.maskTaint m y || ins.any fun x => t.readTaint ty.width x y e), x.2⟩
    let spec := fun (ins : List VSrc) => ({ ins := ins, mask := m, other := fpReads, lat := 8 } : VSpec)
    let sum := fun (t : Team) (init : Nat) (l : List (List Nat)) =>
      if ty.isFloat then
        deliver (fmtOf (sumType ty)) t.mode t.sat (sumV t.mode (decodeF (fmtOf (sumType ty)) init :: l.map fun x =>
          if x.length = 2 then mulV (decodeF (fmtOf ty) (x.getD 0 0)) (decodeF (fmtOf ty) (x.getD 1 0))
          else decodeF (fmtOf ty) (x.getD 0 0)))
      else
        let w := (sumType ty).width
        let v := readInt w false init + (l.map fun x => (x.map (readInt ty.width false)).foldl (· * ·) 1).sum
        (lowBits w (max (-(2 ^ (w - 1))) (min v (2 ^ (w - 1) - 1))), 0)
    let pick := fun (isMax : Bool) (t : Team) (init : Nat) (l : List (List Nat)) =>
      if ty.isFloat then deliver (fmtOf ty) t.mode t.sat
        ((l.map fun x => decodeF (fmtOf ty) (x.getD 0 0)).foldl (pickV isMax) (decodeF (fmtOf ty) init))
      else ((l.map fun x => x.getD 0 0).foldl (fun acc x =>
        if decide (readInt ty.width false acc ≤ readInt ty.width false x) = isMax then x else acc) init, 0)
    Sends (.vsum d a b ty m) (spec [a, b]) (.reg d 0) (fun _ => .same) (out [a] b (sumType ty) sum) ∧
    Sends (.vdot d a b c ty m) (spec [a, b, c]) (.reg d 0) (fun _ => .same) (out [a, b] c (sumType ty) sum) ∧
    Sends (.vmaxr d a b ty m) (spec [a, b]) (.reg d 0) (fun _ => .same) (out [a] b ty (pick true)) ∧
    Sends (.vminr d a b ty m) (spec [a, b]) (.reg d 0) (fun _ => .same) (out [a] b ty (pick false))

/-- The two's complement value of an element of w bits. -/
def Sys2Proof.sx (w x : Nat) : Int := (BitVec.ofNat w x).toInt

/-- The integer words of two sources with their latency and result, whose low bits are taken (R80, R188). -/
def Sys2Proof.integerWords : List ((VDst → VSrc → VSrc → ElemTy → Mask → Instr) × Nat × (Nat → Nat → Nat → Int)) :=
  [(.viadd .wrap, 2, fun _ a b => a + b), (.visub .wrap, 2, fun _ a b => a - b),
   (.viadd .ss, 2, fun w a b => max (-(2 ^ (w - 1))) (min (sx w a + sx w b) (2 ^ (w - 1) - 1))),
   (.visub .ss, 2, fun w a b => max (-(2 ^ (w - 1))) (min (sx w a - sx w b) (2 ^ (w - 1) - 1))),
   (.viadd .us, 2, fun w a b => min (a + b) (2 ^ w - 1)), (.visub .us, 2, fun _ a b => max 0 (a - b)),
   (.vimul, 4, fun _ a b => a * b), (.vimulh false, 4, fun w a b => sx w a * sx w b / 2 ^ w),
   (.vimulh true, 4, fun w a b => a * b / 2 ^ w),
   (.vand, 2, fun _ a b => (a &&& b : Nat)), (.vor, 2, fun _ a b => (a ||| b : Nat)), (.vxor, 2, fun _ a b => (a ^^^ b : Nat)),
   (.vshl, 2, fun w a b => if w ≤ b then 0 else a * 2 ^ b), (.vshr, 2, fun w a b => if w ≤ b then 0 else a / 2 ^ b),
   (.vsar, 2, fun w a b => if w ≤ b then (if sx w a < 0 then -1 else 0) else sx w a / 2 ^ b),
   (.vimin false, 2, fun w a b => min (sx w a) (sx w b)), (.vimin true, 2, fun _ a b => min a b),
   (.vimax false, 2, fun w a b => max (sx w a) (sx w b)), (.vimax true, 2, fun _ a b => max a b),
   (.viabsd false, 2, fun w a b => (sx w a - sx w b).natAbs), (.viabsd true, 2, fun _ a b => ((a : Int) - b).natAbs)]

/-- R188, R190, R200: the integer words send their exact result cut to the element's width, or saturated; VMOV copies, VPOPC
counts one bits and VCLZ leading zero bits. -/
def Obligations.IntegerWordsComplete : Prop :=
  ∀ (d : VDst) (a b : VSrc) (ty : ElemTy) (m : Mask),
    (∀ p ∈ integerWords, SendsElements (p.1 d a b ty m) d ty m [a, b] [.csr 0x12] p.2.1 8 1 fun _ l =>
      ((p.2.2 ty.width (l.getD 0 0) (l.getD 1 0) % 2 ^ ty.width).toNat, 0)) ∧
    (SendsElements (.vmov d a ty m) d ty m [a] [.csr 0x12] 1 16 1 fun _ l => (l.getD 0 0, 0)) ∧
    (SendsElements (.vpopc d a ty m) d ty m [a] [.csr 0x12] 2 8 1 fun _ l =>
      ((List.range ty.width).countP fun k => (l.getD 0 0).testBit k, 0)) ∧
    (SendsElements (.vclz d a ty m) d ty m [a] [.csr 0x12] 2 8 1 fun _ l =>
      (((List.range ty.width).takeWhile fun k => !(l.getD 0 0).testBit (ty.width - 1 - k)).length, 0))

/-- What a word that moves elements writes: element (y, e) is the source's element `src t y e`, or +0. -/
def Sys2Proof.movedElements (ty : ElemTy) (m : Mask) (a : VSrc) (idx : List VSrc) (src : Team → Nat → Nat → Option (Nat × Nat))
    (t : Team) : VOut :=
  elemOut t ty.width (64 * t.rowb / ty.width) m
    (fun y e => (idx.any fun x => t.readTaint ty.width x y e) || ((src t y e).map fun p => t.readTaint ty.width a p.1 p.2).getD false)
    fun y e => (((src t y e).map fun p => t.read ty a p.1 p.2).getD 0, 0)

/-- R190 to R195: VBCAST repeats row 0, VTR transposes a square tile, VROT rotates, VPERM permutes by index, stride or
reversed bits, VEXT repeats one element, VINS replaces one, VEXP spreads elements over the enabled places. -/
def Sys2Proof.MovementWordsComplete : Prop :=
  ∀ (d : VDst) (a : VSrc) (ty : ElemTy) (m : Mask),
    let n := fun (t : Team) => 64 * t.rowb / ty.width
    let moves := fun (i : Instr) (x : VSpec) (src : Team → Nat → Nat → Option (Nat × Nat)) =>
      Sends i { x with ins := a :: x.ins, ty := some ty, mask := m } (.reg d 0) (fun _ => .same) (movedElements ty m a x.ins src)
    let pow2 := fun (k : Nat) (t : Team) =>
      if isPow2 (n t) && n t % k = 0 then none else some (Cause.bounds, BitVec.ofNat 64 (n t + k * 256))
    let square := fun (t : Team) => if t.rows = n t then none else some (Cause.bounds, BitVec.ofNat 64 (n t + t.rows * 256))
    moves (.vbcast d a ty m) { ins := [], lat := 1, sr := 16 } (fun _ _ e => some (0, e)) ∧
    moves (.vtr d a ty m) { ins := [], lat := 4, sr := 16, occ := 2, bound := square }
      (fun _ y e => some (e, y)) ∧
    (∀ r : BitVec 7,
      moves (.vrot d a r false ty m) { ins := [], lat := 2 } (fun t y e => some (y, (e + r.toNat) % n t)) ∧
      moves (.vrot d a r true ty m) { ins := [], lat := 2 } (fun t y e => some ((y + r.toNat) % t.rows, e))) ∧
    (∀ b : VSrc, moves (.vperm (.idx b) d a ty m) { ins := [b], lat := 4, sr := 16, occ := 2 }
      (fun t y e => if t.read ty b y e < n t then some (y, t.read ty b y e) else none)) ∧
    (∀ k : BitVec 3,
      moves (.vperm (.stride k) d a ty m) { ins := [], lat := 4, sr := 16, occ := 2, bound := pow2 (2 ^ k.toNat) }
        (fun t y e => some (y, e % (n t / 2 ^ k.toNat) * 2 ^ k.toNat + e / (n t / 2 ^ k.toNat))) ∧
      moves (.vperm (.unstride k) d a ty m) { ins := [], lat := 4, sr := 16, occ := 2, bound := pow2 (2 ^ k.toNat) }
        (fun t y e => some (y, e % 2 ^ k.toNat * (n t / 2 ^ k.toNat) + e / 2 ^ k.toNat))) ∧
    moves (.vperm .brev d a ty m) { ins := [], lat := 4, sr := 16, occ := 2, bound := pow2 1 }
      (fun t y e => some (y, brev e (n t).log2)) ∧
    (∀ (row : BitVec 4) (el : BitVec 7),
      let bound := fun (t : Team) => if row.toNat < t.rows ∧ el.toNat < n t then none
        else some (Cause.bounds, BitVec.ofNat 64 (el.toNat + row.toNat * 256))
      moves (.vext d a row el ty m) { ins := [], lat := 2, bound := bound } (fun _ _ _ => some (row.toNat, el.toNat)) ∧
      Sends (.vins d a row el ty m) { ins := [a], ty := some ty, mask := m, lat := 2, bound := bound } (.reg d 0) (fun _ => .same) fun t =>
        gridOut t.rows ty.width (n t) fun y e =>
          if y = row.toNat ∧ e = el.toNat ∧ t.enabled m y e = true then
            some ⟨t.read ty a 0 0, t.readTaint ty.width a 0 0 || t.maskTaint m y, 0⟩
          else none) ∧
    moves (.vexp d a ty m) { ins := [], lat := 4, sr := 16, occ := 2 } (fun t y e =>
      let j := (List.range (n t * y + e)).countP fun k => t.enabled m (k / n t) (k % n t)
      some (j / n t, j % n t))

/-- The enabled active elements of n-element rows, numbered row-major, in that order (R195, R196). -/
def Sys2Proof.enabledOnes (t : Team) (m : Mask) (n : Nat) : List Nat :=
  (List.range (t.rows * n)).filter fun i => t.enabled m (i / n) (i % n)

/-- An image of 512 32-bit words. -/
def Sys2Proof.imageOf (f : Nat → Nat) : Nat := ((List.range 512).map fun j => f j % 2 ^ 32 * 2 ^ (32 * j)).sum

/-- R195, R196, R197: VCOMP packs the enabled elements in order, with +0 after them, and their count goes to lat, tainted as
the active mask rows are; VPART sorts the indices of the enabled elements by key over all 512 words of its register, with
the gather sentinel after them, and the count and the first slot of each key go to lat, all tainted if a word read or an
active mask row is; VSHAPE lands the shape a beat later. -/
def Sys2Proof.CompressAndPartitionComplete : Prop :=
  ∀ (d : VDst) (a : VSrc) (ty : ElemTy) (m : Mask),
    let maskTainted := fun (t : Team) => (List.range t.rows).any (t.maskTaint m)
    let n := fun (t : Team) => 64 * t.rowb / ty.width
    let on := fun (t : Team) => enabledOnes t m (n t)
    Sends (.vcomp d a ty m) { ins := [a], ty := some ty, mask := m, lat := 4, sr := 16, occ := 2 } (.reg d 0)
      (fun t => .value ⟨BitVec.ofNat 16384 (on t).length, if maskTainted t then 3 else 0⟩)
      (fun t => gridOut t.rows ty.width (n t) fun y e => match (on t)[n t * y + e]? with
        | some i => some ⟨t.read ty a (i / n t) (i % n t),
            t.readTaint ty.width a (i / n t) (i % n t) || t.maskTaint m (i / n t), 0⟩
        | none => some ⟨0, false, 0⟩) ∧
    (let w := fun (t : Team) => 64 * t.rowb / 32
     let key := fun (t : Team) (i : Nat) => min (t.read .i32 a (i / w t) (i % w t)) 15
     let ones := fun (t : Team) => enabledOnes t m (w t)
     let sorted := fun (t : Team) => (List.range 16).flatMap fun k => (ones t).filter fun i => key t i = k
     let tainted := fun (t : Team) => maskTainted t || (ones t).any fun i => t.readTaint 32 a (i / w t) (i % w t)
     ∀ (s : State) (t : Team), s.cur.col = .vec → let x : VSpec := { ins := [a], mask := m, lat := 6, sr := 16, occ := 2 }
       Completes s t (x.gate (some d) (s.atIssue t) (t.seen s.cur)) (.vpart d a m) (vecEffect x (.reg d 0) (fun _ => 16)
         (fun t => .value ⟨BitVec.ofNat 16384 (imageOf fun j =>
             if j < 16 then (ones t).countP fun i => key t i = j
             else if j < 32 then (ones t).countP fun i => key t i < j - 16 else 0),
           if tainted t then BitVec.allOnes 512 else 0⟩)
         fun t => ⟨imageOf fun j => match (sorted t)[j]? with
             | some i => 32 * (i / w t) + i % w t
             | none => 0x80000000,
           2 ^ 16384 - 1, if tainted t then 2 ^ 512 - 1 else 0, 0⟩)) ∧
    ∀ (s : State) (t : Team) (rows rowb : BitVec 5), s.cur.col = .vec →
      let x : VSpec := { ins := [], other := [], lat := 1, sr := 16 }
      Completes s t { x.gate none (s.atIssue t) (t.seen s.cur) with occ := 1 } (.vshape rows rowb)
        (vecWriteEffect x fun _ => .vshape rows.toNat rowb.toNat)

/-- R198, R199, R201: VBNLD loads a pattern whose reserved bits are clear; VBNET makes each output bit from the bit its
entry names, or 0, tainted as the pattern and the words that hold the bits it reads are; VPACK writes the nibbles and, of
the 6-bit types, the crumbs of the enabled codes and no other bit; VUNPK joins them into codes. -/
def Sys2Proof.BitNetworkAndPackWordsComplete : Prop :=
  ∀ (d : VDst) (a : VSrc) (p : BitVec 3) (ty : ElemTy) (m : Mask),
    (∀ (s : State) (t : Team), s.cur.col = .vec →
      let x : VSpec := { ins := [a], other := [], lat := 4, sr := 16, occ := 2, range := netTrap a }
      Completes s t { x.gate none (s.atIssue t) (t.seen s.cur) with occ := 2 } (.vbnld p a) (vecWriteEffect x fun u =>
        .bitpat p (u.whole .i16 a).bits ((u.whole .i16 a).taint != 0))) ∧
    (let entry := fun (t : Team) (i : Nat) => fld (t.n.get p.toFin).bits.toNat (16 * i) 16
     let reads := fun (t : Team) (x : Nat) => !x.testBit 15 && decide (x % 1024 < 64 * t.rowb)
     let bit := fun (t : Team) (y i : Nat) => let x := entry t i
       !x.testBit 15 && ((reads t x && (t.read ty a y (x % 1024 / ty.width)).testBit (x % 1024 % ty.width)) != x.testBit 14)
     Sends (.vbnet d a p ty m) { ins := [a], ty := some ty, mask := m, other := [.csr 0x12, .net p.toNat], lat := 3 } (.reg d 0)
      (fun _ => .same) fun t => elemOut t ty.width (64 * t.rowb / ty.width) m
        (fun y e => (t.n.get p.toFin).t || (List.range ty.width).any fun k => let x := entry t (ty.width * e + k)
          reads t x && t.readTaint 32 a y (x % 1024 / 32))
        fun y e => (((List.range ty.width).map fun k => if bit t y (ty.width * e + k) then 2 ^ k else 0).sum, 0)) ∧
    (let out := fun (t : Team) => rowsOut (fun y => (List.range (8 * t.rowb)).foldl (fun (r : VOut) e =>
        if t.enabled m y e then
          let c := t.read .i8 a y e
          let k := t.readTaint 8 a y e || t.maskTaint m y
          if hasCrumbs ty then (r.put (4 * e) 4 ⟨c / 4, k, 0⟩).put (512 + 2 * e) 2 ⟨c, k, 0⟩ else r.put (4 * e) 4 ⟨c, k, 0⟩
        else r) .none) t.rows
     Sends (.vpack d a ty m) { ins := [a], mask := m, lat := 2 } (.reg d 0) (fun _ => .same) out ∧
      ∀ t : Team, t.rows ≤ 16 → t.rowb ≤ 16 → ∀ y < t.rows, ∀ e < 8 * t.rowb, t.enabled m y e = true →
        fld (out t).data (1024 * y + 4 * e) 4 = (if hasCrumbs ty then t.read .i8 a y e / 4 else t.read .i8 a y e) % 16 ∧
        (hasCrumbs ty = true → fld (out t).data (1024 * y + 512 + 2 * e) 2 = t.read .i8 a y e % 4)) ∧
    Sends (.vunpk d a ty m) { ins := [a], mask := m, lat := 2 } (.reg d 0) (fun _ => .same) fun t =>
      elemOut t 8 (8 * t.rowb) m (fun y e => t.readTaint 8 a y (e / 2) || (hasCrumbs ty && t.readTaint 8 a y (64 + e / 4)))
        fun y e =>
          let nib := t.read .i8 a y (e / 2) / 16 ^ (e % 2) % 16
          (if hasCrumbs ty then 4 * nib + t.read .i8 a y (64 + e / 4) / 4 ^ (e % 4) % 4 else nib, 0)

/-- R203 to R206: VTAB sends a function's value by its built-in table or a loaded slot's, VTABLD loads a slot of good nodes;
VSEL takes each active element from one of two sources; the mask words combine masks on the active elements. -/
def Sys2Proof.TableSelectAndMaskWordsComplete : Prop :=
  ∀ (d : VDst) (a b : VSrc) (ty : ElemTy) (m : Mask) (k x y : BitVec 3),
    (∀ f : TabFn, SendsElements (.vtab (.fn f) d a ty m) d ty m [a] fpReads 10 8 1 fun t l =>
      tabBuiltin f ty t.mode t.sat (l.getD 0 0)) ∧
    (∀ n : BitVec 2, let bound := fun (t : Team) => if (t.slot n).loaded then none else some (Cause.bounds, n.setWidth 64)
      Sends (.vtab (.slot n) d a ty m) { ins := [a], mask := m, other := fpReads ++ [.tab n.toNat], lat := 10, bound := bound } (.reg d 0) (fun _ => .same) fun t =>
        elemOut t ty.width (64 * t.rowb / ty.width) m (fun y e => t.readTaint ty.width a y e || (t.slot n).t)
          fun y e => tabUser (t.slot n).fn (fun i => (t.slot n).nodes.getD i (0, 0)) ty t.mode t.sat (t.read ty a y e)) ∧
    (∀ (f : TabFn) (n : BitVec 2) (s : State) (t : Team), s.cur.col = .vec →
      let x : VSpec := { ins := [a, b], ty := some .f32, other := [], lat := 32, sr := 16, occ := 32, range := nodeTrap a b }
      Completes s t { x.gate none (s.atIssue t) (t.seen s.cur) with occ := 32 } (.vtabld f n a b) (vecWriteEffect x fun u =>
        .tab n f (nodesIn (u.whole .f32 a) (u.whole .f32 b))
          ((u.whole .f32 a).taint != 0 || (u.whole .f32 b).taint.toNat % 4 != 0))) ∧
    (Sends (.vsel d a b ty m) { ins := [a, b], ty := some ty, mask := m, lat := 1, sr := 16 } (.reg d 0) (fun _ => .same) fun t =>
      gridOut t.rows ty.width (64 * t.rowb / ty.width) fun y e =>
        let z := if t.enabled m y e then a else b
        some ⟨t.read ty z y e, t.readTaint ty.width z y e || t.maskTaint m y, 0⟩) ∧
    (∀ p ∈ [(Instr.kand k x y ty, [x, y], fun l => l.getD 0 false && l.getD 1 false),
            (.kor k x y ty, [x, y], fun l => l.getD 0 false || l.getD 1 false),
            (.knot k x ty, [x], fun l : List Bool => !l.getD 0 false)],
      Sends p.1 { ins := [], other := .csr 0x12 :: (p.2.1.filter (· != 0)).map (.mask ·.toNat), lat := 1, sr := 16 } (.mask k)
        (fun _ => .keep) fun t => maskOut t.rows (64 * t.rowb / ty.width) fun r e =>
          some ⟨if p.2.2 (p.2.1.map fun q => (t.getK q).bits.getLsbD (128 * r + e)) then 1 else 0,
            p.2.1.any fun q => (t.getK q).taint.getLsbD r, 0⟩) ∧
    Sends (.kmov k a ty) { ins := [a], ty := some ty, lat := 1, sr := 16 } (.mask k) (fun _ => .keep) fun t =>
      maskOut t.rows (64 * t.rowb / ty.width) fun r e =>
        some ⟨if t.read ty a r e = 0 then 0 else 1, t.readTaint ty.width a r e, 0⟩

/-- The elementwise modular words with their latency, rows of a slice and result (R80, R212). -/
def Sys2Proof.modularWords : List ((VDst → VSrc → VSrc → BitVec 3 → ElemTy → Mask → Instr) × Nat × Bool × (Nat → Int → Int → Int)) :=
  [(.vmmul, 6, true, fun q a b => a * b % q), (.vmadd, 2, false, fun q a b => (a + b) % q),
   (.vmsub, 2, false, fun q a b => (a - b) % q)]

/-- R207 to R213: the modular words send residues under each row's modulus, once every enabled operand element is in range;
VMMAC adds to its destination; VMRED takes an integer of one or two elements into range. -/
def Sys2Proof.ModularWordsComplete : Prop :=
  ∀ (d : VDst) (a b : VSrc) (ms : BitVec 3) (ty : ElemTy) (m : Mask),
    let on := fun (t : Team) y e => t.enabled m y e
    let r := fun (t : Team) (x : VSrc) y e => t.residue ms ty x y e
    let spec := fun (ins : List VSrc) (lat sr : Nat) (range : Team → Option Trap) =>
      ({ ins := ins, mask := m, other := [.csr 0x12, .set ms.toNat], lat := lat, sr := sr, range := range } : VSpec)
    let out := fun (ins : List VSrc) (f : Team → Nat → Nat → Int) (t : Team) =>
      elemOut t ty.width (64 * t.rowb / ty.width) m
        (fun y e => t.entryTaint ms y || ins.any fun x => t.readTaint ty.width x y e) fun y e => ((f t y e).toNat, 0)
    let rows := if ty = .r64 then 4 else 8
    (∀ p ∈ modularWords, ∃ o : Team → VOut, Sends (p.1 d a b ms ty m)
      (spec [a, b] p.2.1 (if p.2.2.1 then rows else 8) (modTrap ms ty [(a, a.code, on), (b, b.code, on)])) (.reg d 0) (fun _ => .same) o ∧
      ∀ t : Team, (∀ y, 0 < t.modulus ms y) → o t =
        out [a, b] (fun t y e => p.2.2.2 (t.modulus ms y) (r t a y e) (r t b y e)) t) ∧
    Sends (.vmmac d a b ms ty m)
      (spec [a, b, dstSrc d] 6 rows (modTrap ms ty [(a, a.code, on), (b, b.code, on), (dstSrc d, (dstSrc d).code, on)])) (.reg d 0)
      (fun _ => .same) (out [a, b, dstSrc d] fun t y e => (r t a y e * r t b y e + r t (dstSrc d) y e : Int) % t.modulus ms y) ∧
    (∀ p ∈ [(RedMode.u, [], false), (.s, [], true), (.w b, [b], false), (.sw b, [b], true)],
      Sends (.vmred p.1 d a ms ty m) (spec (a :: p.2.1) 6 rows (entryTrap ms ty)) (.reg d 0) (fun _ => .same)
        (out (a :: p.2.1) fun t y e =>
          let hi : Int := if p.2.2 then sx ty.width (r t a y e) else (r t a y e % 2 ^ ty.width : Nat)
          (if p.2.1 = [] then hi else hi * 2 ^ ty.width + r t b y e) % t.modulus ms y))

/-- R214 to R216, R210: a butterfly pairs elements e and e + 2^k: the forward one gives u + w·v and u - w·v, the inverse one
u + v and (u - v)·w; VMSET loads the moduli of the enabled rows. -/
def Sys2Proof.ButterflyAndSetWordsComplete : Prop :=
  ∀ (d : VDst) (a b : VSrc) (ms k : BitVec 3) (ty : ElemTy) (m : Mask),
    let h := 2 ^ k.toNat
    let low := fun e => if e % (2 * h) < h then e else e - h
    let on := fun (t : Team) y e => t.enabled m y (low e) || t.enabled m y (low e + h)
    let tw := fun (t : Team) y e => decide (e % (2 * h) < h) && on t y e
    let r := fun (t : Team) (x : VSrc) y e => t.residue ms ty x y e
    (∀ p ∈ [(Instr.vbfly d a b ms k ty m, fun (q u v w : Int) => ((u + w * v) % q, (u - w * v) % q)),
            (.vibfly d a b ms k ty m, fun q u v w => ((u + v) % q, (u - v) * w % q))],
      ∃ out : Team → VOut,
        Sends p.1 { ins := [a, b], mask := m, other := [.csr 0x12, .set ms.toNat], lat := 8, sr := if ty = .r64 then 4 else 8,
                    bound := bflyTrap k ty, range := modTrap ms ty [(a, a.code, on), (b, b.code, tw)] } (.reg d 0) (fun _ => .same) out ∧
        ∀ t : Team, (∀ y, 0 < t.modulus ms y) → out t = elemOut t ty.width (64 * t.rowb / ty.width) m
          (fun y e => t.entryTaint ms y || t.readTaint ty.width a y (low e) || t.readTaint ty.width a y (low e + h) ||
            t.readTaint ty.width b y (low e))
          fun y e =>
            let z := p.2 (t.modulus ms y) (r t a y (low e)) (r t a y (low e + h)) (r t b y (low e))
            ((if low e = e then z.1 else z.2).toNat, 0)) ∧
    ∀ (s : State) (t : Team), s.cur.col = .vec →
      let x : VSpec := { ins := [a], mask := m, lat := 4, sr := 16, range := setTrap a ty m }
      Completes s t { x.gate none (s.atIssue t) (t.seen s.cur) with occ := 1 } (.vmset ms a ty m) (vecWriteEffect x fun u =>
        .modset ms (((List.range u.rows).filter fun y => u.enabled m y 0).map fun y =>
          (y, ⟨u.read ty a y 0, ty = .r64, (if ty = .r64 then 2 ^ 128 else 2 ^ 64) / u.read ty a y 0, u.readTaint ty.width a y 0⟩)))

/-- R209: a modular word whose operand element is not below its row's modulus takes the modular trap and has no effect. -/
def Sys2Proof.ResidueOutOfRangeTraps : Prop :=
  ∀ (s : State) (t : Team) (d : VDst) (a b : VSrc) (ms : BitVec 3) (ty : ElemTy) (m : Mask) (x : Trap),
    s.cur.col = .vec → MayIssue s t {} → missing t [a, b] = none → (∀ q, d = .w q → (t.wAt q).length < 4) →
    let on := fun (u : Team) y e => u.enabled m y e
    modTrap ms ty [(a, a.code, on), (b, b.code, on)] (t.seen s.cur) = some x →
    x.1 = .modular ∧ ∀ i ∈ [Instr.vmmul d a b ms ty m, .vmadd d a b ms ty m, .vmsub d a b ms ty m],
      exec i s = .next ((s.atIssue t).raise t (s.curAt t) x)

/-! ## mat -/

/-- R217, R221, R222, R244: MFMT, MRING and MINBOX, whose value is legal, land it a beat after issue; MINBOX's SIGNAL waits for the
landing. -/
def Sys2Proof.MatConfigurationWordsComplete : Prop :=
  ∀ (s : State) (t : Team) (a b : SReg) (g : BitVec 5), s.cur.col = .mat →
    let quiet := fun (l : List SReg) => earlyRead (s.atIssue t) (t.seen s.cur) (sReads l) = none
    let v := (t.getS a).v
    (v.toNat < 2 ^ 15 → v.toNat / 2 ^ 13 % 4 ≠ 3 → quiet [a] → Completes s t {} (.mfmt a) fun s' t' =>
      done1 s' (t'.land s'.cur (t.clk + 1) (.mfmt v))) ∧
    (ringValueBad v = false → ringValueBad (t.getS b).v = false → quiet [a, b] → Completes s t {} (.mring a b) fun s' t' =>
      done1 s' (t'.land s'.cur (t.clk + 1) (.mring v (t.getS b).v))) ∧
    (let acc := v.toNat / 2 ^ 21 % 4
     v.toNat < 2 ^ 29 → acc ≠ 3 → earlyRead (s.atIssue t) (t.seen s.cur) (sReads [a] ++ [.shadow 3]) = none →
     t.granulesBad g.toNat 1 = false →
     t.granulesBad g.toNat (tileGranules (16 * (v.toNat / 2 ^ 12 % 32 + 1)) (16 * (v.toNat / 2 ^ 17 % 16 + 1)) acc) = false →
     Completes s t {} (.minbox g a) fun s' t' => s'.setTeam (t'.land s'.cur (t.clk + 1) (.minbox g.toNat v)))

/-- R217, R224: MNEST reads its table of six levels, and its descriptor unless s_b is s0, a beat after issue into the shadow
nest; a table that asks for drains without a descriptor, or has an illegal level, takes the bounds trap with the address of
the first; a sector that is not sealed then holds it a beat longer, or gives a timed word the schedule trap; and ECC that
cannot read the table gives its own trap (R438). -/
def Sys2Proof.NestWordReadsItsTable : Prop :=
  ∀ (s : State) (t : Team) (a b : SReg), s.cur.col = .mat →
    (valueTrap t (t.getS a).v 8 48 = none → (b ≠ 0 → valueTrap t (t.getS b).v 1 8 = none) →
      t.unsealed (t.col .mat).timed (t.getS a).v.toNat 48 = false →
      (b ≠ 0 → t.unsealed (t.col .mat).timed (t.getS b).v.toNat 8 = false) →
      earlyRead (s.atIssue t) (t.seen s.cur) (sReads [a, b]) = none →
      Completes s t {} (.mnest a b) fun s' t' => s'.setTeam
        (t'.again s'.cur (t.clk + 1) .access [(t.getS a).v.toNat, (t.getS b).v.toNat] (.mnest a b))) ∧
    ∀ x y, s.team s.cur.cid = some t → s.cur.phase = .access → s.cur.args = [x, y] →
      (nestUnsealed t s.cur.timed b x y = true →
        (s.cur.timed = true → exec (.mnest a b) s =
          .next (s.raise t s.cur (.schedule, s.beatOf t - BitVec.ofNat 64 (t.clk - s.cur.issued)))) ∧
        (s.cur.timed = false → exec (.mnest a b) s = .next (s.setTeam
          ((t.again s.cur (t.clk + 1) .access [x, y] (.mnest a b)).modCol .mat fun c =>
            { c with portFree := max c.portFree (t.clk + 1) })))) ∧
      (nestUnsealed t s.cur.timed b x y = false → ∀ l, levelsOf (readNat (t.view 3).spad x 48) 6 = .ok l →
        t.eccTrap 48 [x] = none →
        (b = 0 → (∀ e ∈ l, e.drain = false) → exec (.mnest a b) s =
          .next (s.setTeam (({ t.readEcc 48 [x] with mnest := some ⟨l, none⟩ } : Team).signalAt s.cur t.clk))) ∧
        (b ≠ 0 → t.eccTrap 8 [y] = none → ∀ d, descOf (readNat (t.view 3).spad y 8) = some d → exec (.mnest a b) s =
          .next (s.setTeam (({ (t.readEcc 48 [x]).readEcc 8 [y] with mnest := some ⟨l, some d⟩ } : Team).signalAt s.cur t.clk)))) ∧
      (nestUnsealed t s.cur.timed b x y = false → t.eccTrap 48 [x] = none → (b ≠ 0 → t.eccTrap 8 [y] = none) →
        let level := fun (i : Nat) => levelOf (readNat (t.view 3).spad (x + 8 * i) 8)
        let bad := fun (i : Nat) => level i = none ∨ (b = 0 ∧ ∃ e, level i = some e ∧ e.drain = true)
        ∀ i < 6, bad i → (∀ j < i, ¬ bad j) →
        exec (.mnest a b) s = .next (s.raise t s.cur (.bounds, BitVec.ofNat 64 (x + 8 * i)))) ∧
      (nestUnsealed t s.cur.timed b x y = false → ∀ e, t.eccTrap 48 [x] = some e → exec (.mnest a b) s = .next (s.raise t s.cur e)) ∧
      (t.sick = [] → t.readEcc 48 [x] = t ∧ t.readEcc 8 [y] = t ∧ t.eccTrap 48 [x] = none ∧ t.eccTrap 8 [y] = none)

/-- A word joins the engine queue with a configuration and the endpoints that it has read (R218). -/
def Sys2Proof.joins (t : Team) (cx : Cur) (i : Instr) (c : MatCfg) (recs : List Layout) : Team :=
  { t with engine := t.engine ++ [⟨cx.id, { cx with phase := .perform }, i, c, recs, 0, 0, 0, 0, false, false, none, none, none⟩] }

/-- R218, R225, R228, R229, R230, R239, R243: the words of the engines, where fewer than four wait and their own fields and
values are legal, join the engine queue in program order: nests with the shadow state, MOP with the format in force, MCHK
and the peer drain with the value of s_a. -/
def Sys2Proof.EngineWordsJoinTheQueue : Prop :=
  ∀ (s : State) (t : Team) (g : BitVec 5), s.cur.col = .mat → t.queued < 4 →
    let early := fun (l : List RdName) => earlyRead (s.atIssue t) (t.seen s.cur) l = none
    let shadow : MatCfg := ⟨t.mfmt, t.mringA, t.mringB, 0, 0, [], t.mnest, none⟩
    let ahead : MatCfg := { shadow with fmt := t.formatAhead, nest := none }
    (early [.shadow 0, .shadow 1, .shadow 2] → ∀ i ∈ [Instr.mgo g, .mgoQuad g],
      Completes s t {} i fun s' t' => s'.setTeam (joins t' s'.cur i shadow [])) ∧
    (∀ (z : Bool) (ia ib : BitVec 4), t.willBeActive = true → t.granulesBad g.toNat 1 = false →
      Completes s t {} (.mop g z ia ib) fun s' t' => s'.setTeam (joins t' s'.cur (.mop g z ia ib) ahead [])) ∧
    (∀ n : BitVec 5, t.granulesBad g.toNat (n.toNat + 1) = false →
      Completes s t {} (.mzero g n) fun s' t' => s'.setTeam (joins t' s'.cur (.mzero g n) shadow [])) ∧
    (∀ a : SReg, writeTrap t (t.getS a).v = none → early (sReads [a]) → Completes s t {} (.mchk a) fun s' t' =>
      s'.setTeam (joins t' { s'.cur with args := [(t.getS a).v.toNat] } (.mchk a) shadow [])) ∧
    (∀ (a : SReg) (m : BitVec 5) (n : BitVec 4) (q : BitVec 12),
      let grans := tileGranules (16 * (m.toNat + 1)) (16 * (n.toNat + 1)) (fmtAcc t.formatAhead)
      t.granulesBad g.toNat 1 = false → t.granulesBad g.toNat grans = false →
      (s.atIssue t).peerTrap (t.seen s.cur) (t.col .mat).timed (t.getS a).v grans = none → early (sReads [a]) →
      Completes s t {} (.mdrainPeer g a m n q) fun s' t' =>
        (s'.setTeam (joins t' { s'.cur with args := [(t.getS a).v.toNat] } (.mdrainPeer g a m n q) ahead [])).expect t' s'.cur.timed
          s'.cur.id (m.toNat + 1) (t.getS a).v.toNat)

/-- R240, R242, R250: MDRAIN and MDRAIN.T read their records at issue and join the engine queue with the endpoints. -/
def Sys2Proof.DrainWordsJoinTheQueue : Prop :=
  ∀ (s : State) (t : Team) (g : BitVec 5) (a b : SReg) (m : BitVec 5) (n : BitVec 4), s.cur.col = .mat → t.queued < 4 →
    t.granulesBad g.toNat 1 = false →
    ∀ p ∈ [(Instr.mdrain g a m n, none, [a]), (.mdrainT g a b m n, some b, [a, b])],
      let recs := fun (s : State) (t : Team) => drainRecs s t g.toNat (16 * (m.toNat + 1)) (16 * (n.toNat + 1)) a p.2.1
      (∀ l, recs (s.atIssue t) (t.seen s.cur) = .ok l →
        earlyRead (s.atIssue t) (t.seen s.cur) (sReads p.2.2 ++ l.flatMap bankReads) = none) →
      trapOf (recs (s.atIssue t) (t.seen s.cur)) = none →
      (∀ r ∈ p.2.2, t.unsealed (t.col .mat).timed (t.getS r).v.toNat 64 = false) →
      ∀ l, recs (s.atIssue t) (s.past t 1) = .ok l →
      Completes s t {} p.1 fun s' t' =>
        let cfg : MatCfg := ⟨t.formatAhead, t.mringA, t.mringB, 0, 0, [], none, none⟩
        l.zipIdx.foldl (fun s x => if x.1.loc = 1 then s.expect t' s'.cur.timed s'.cur.id (if x.2 = 0 then m.toNat + 1 else 1) x.1.core else s)
          (s'.setTeam (joins (p.2.2.foldl (fun u r => u.readEcc 64 [(t.getS r).v.toNat]) t') s'.cur p.1 cfg l))

/-- R230: the engine reaches an MZERO whose granules no open row group holds and takes n beats; at their end its granules
read 0, without taint, every other byte of the accumulator is as before, and the SIGNAL fires. -/
def Sys2Proof.ZeroWordClearsItsGranules : Prop :=
  ∀ (s : State) (t : Team) (g n : BitVec 5), s.team s.cur.cid = some t → Memory.wf t.acc = true →
    (s.cur.phase = .access → t.granulesOpen s.cur.timed g.toNat (n.toNat + 1) = false → t.applying g.toNat (n.toNat + 1) = false →
      ∃ t' : Team, exec (.mzero g n) s = .next (s.setTeam t') ∧ t'.engineFree = t.clk + n.toNat + 1 ∧ t'.acc = t.acc ∧
        ⟨t.clk + n.toNat + 1, rankOf .mat, { s.cur with phase := .perform }, .mzero g n⟩ ∈ t'.pend) ∧
    (s.cur.phase = .perform → (∃ j ∈ t.engine, j.id = s.cur.id) →
      ∃ t' : Team, exec (.mzero g n) s = .next (s.setTeam (t'.signalAt s.cur t.clk)) ∧
        (∀ a, readByte t'.acc a = if 65536 * g.toNat ≤ a ∧ a < 65536 * (g.toNat + n.toNat + 1) then 0 else readByte t.acc a) ∧
        (∀ u ∈ t'.accTaint, u ∈ t.accTaint ∧ (4 * u < 65536 * g.toNat ∨ 65536 * (g.toNat + n.toNat + 1) ≤ 4 * u)) ∧
        (∀ j, j ∈ t'.engine ↔ j ∈ t.engine ∧ j.id ≠ s.cur.id) ∧ t'.spad = t.spad ∧ t'.border = t.border)

/-- R231, R239, R247: MPLAIT waits and then writes its dword, untainted; MPOP retires n slots of its ring and no other; the engine
holds 8192 beats for MCHK, whose dword names the wrong answers. -/
def Sys2Proof.PlaitPopAndCheckComplete : Prop :=
  ∀ (s : State) (t : Team),
    (∀ (w : PlaitSel) (a : SReg),
      (s.cur.col = .mat → ((t.col .mat).timed = true → t.plaitReady true s.cur.id w = true) → writeTrap t (t.getS a).v = none →
        earlyRead (s.atIssue t) (t.seen s.cur) (sReads [a]) = none → Completes s t {} (.mplait w a) fun s' t' =>
          s'.setTeam (t'.await s'.cur [(t.getS a).v.toNat] (.mplait w a))) ∧
      ∀ x, s.team s.cur.cid = some t → s.cur.phase = .perform → s.cur.args = [x] → Memory.wf t.spad = true →
        ∃ t' : Team, exec (.mplait w a) s = .next (s.setTeam (t'.signalAt s.cur t.clk)) ∧
          readNat t'.spad x 8 = (t.plaitValue s.cur.id w).toNat ∧
          (∀ b, b < x ∨ x + 8 ≤ b → readByte t'.spad b = readByte t.spad b) ∧
          t' = { t with spad := t'.spad, spadTaint := t'.spadTaint, unseen := t'.unseen }) ∧
    (∀ (r : Ring) (n : BitVec 4),
      (let lo := (t.ringOf r).head + t.popsAhead r
       s.cur.col = .mat → lo + n.toNat + 1 ≤ (t.ringOf r).tail → t.nestReads r lo (lo + n.toNat + 1) = false →
       (r = .b → s.sharedReads t lo (lo + n.toNat + 1) = false) →
       ((t.col .mat).timed = true → s.popOpen t true s.cur.id r lo (lo + n.toNat + 1) = false) →
       Completes s t {} (.mpop r n) fun s' t' => s'.setTeam (t'.await s'.cur [lo] (.mpop r n))) ∧
      ∀ x, s.team s.cur.cid = some t → s.cur.phase = .perform → s.cur.args = [x] →
        ∃ t' : Team, exec (.mpop r n) s = .next (s.setTeam (t'.signalAt s.cur t.clk)) ∧
          (t'.ringOf r).head = max (t.ringOf r).head (x + n.toNat + 1) ∧ (t'.ringOf r).tail = (t.ringOf r).tail ∧
          (∀ q, q ≠ r → t'.ringOf q = t.ringOf q) ∧ t' = { t with rA := t'.rA, rB := t'.rB }) ∧
    (∀ a : SReg, s.team s.cur.cid = some t → s.cur.phase = .access → ∃ t' : Team, exec (.mchk a) s = .next (s.setTeam t') ∧
      t'.engineFree = t.clk + 8192 ∧ ⟨t.clk + 8192, rankOf .mat, { s.cur with phase := .perform }, .mchkResult⟩ ∈ t'.pend) ∧
    (∀ (j : MatJob) (x : Nat), s.team s.cur.cid = some t → t.jobOf s.cur.id = some j → j.cx.args = [x] → Memory.wf t.spad = true →
      s.upset t.cid j.id 4 = 0 → ∃ t' : Team, exec .mchkResult s = .next (s.setTeam (t'.signalAt s.cur t.clk)) ∧ readNat t'.spad x 8 = 0 ∧
        (∀ b, b < x ∨ x + 8 ≤ b → readByte t'.spad b = readByte t.spad b) ∧ t'.acc = t.acc)

/-- R70, R71, R74, R197, R210, R217: a landed configuration write sets its own register: a pattern, a bank's format, a
shadow register of mat, the active shape, entries of a modulus set, a bit pattern or a table slot; every other one keeps its
value. -/
def Sys2Proof.ConfigurationWritesLand : Prop :=
  ∀ (s : State) (t : Team), s.team s.cur.cid = some t →
    let lands := fun (w : RegWrite) (t' : Team) => exec (.registerWriteLands w) s = .next (s.setTeam t')
    (∀ (p : BitVec 3) (x : Pattern), ∃ t' : Team, lands (.pat p x) t' ∧ t' = { t with p := t'.p } ∧
      ∀ q : BitVec 3, t'.p.get q.toFin = if q = p then some x else t.p.get q.toFin) ∧
    (∀ (n : Nat) (v : Word), n < 16 → ∃ t' : Team, lands (.bfmt n v) t' ∧ t' = { t with bfmt := t'.bfmt } ∧
      ∀ k : Fin 16, t'.bfmt[k] = if k.val = n then v else t.bfmt[k]) ∧
    (∀ v : Word, lands (.mfmt v) { t with mfmt := v }) ∧ (∀ a b : Word, lands (.mring a b) { t with mringA := a, mringB := b }) ∧
    (∀ l d, lands (.mnest l d) { t with mnest := some ⟨l, d⟩ }) ∧
    (∀ r b : Nat, r < 32 → b < 32 → ∃ t' : Team, lands (.vshape r b) t' ∧ t' = { t with vshape := t'.vshape } ∧ t'.rows = r ∧ t'.rowb = b) ∧
    (∀ (m : BitVec 3) (y : Nat) (e : ModEntry), y < 16 → ∃ t' : Team, lands (.modset m [(y, e)]) t' ∧ t' = { t with m := t'.m } ∧
      ∀ (q : BitVec 3) (z : Nat), z < 16 → t'.entry q z = if q = m ∧ z = y then some e else t.entry q z) ∧
    (∀ (n : BitVec 3) (v : BitVec 16384) (k : Bool), ∃ t' : Team, lands (.bitpat n v k) t' ∧ t' = { t with n := t'.n } ∧
      ∀ q : BitVec 3, t'.n.get q.toFin = if q = n then ⟨v, k⟩ else t.n.get q.toFin) ∧
    (∀ (n : BitVec 2) f l k, ∃ t' : Team, lands (.tab n f l k) t' ∧ t' = { t with tab := t'.tab } ∧
      ∀ q : BitVec 2, t'.tab.get q.toFin = if q = n then ⟨true, f, l, k⟩ else t.tab.get q.toFin) ∧
    (∀ (g : Nat) (v : Word), t.inbox.busy = false → t.inbox.early = [] → ∃ t' : Team, exec (.registerWriteLands (.minbox g v)) s =
        .next (s.setTeam (t'.signalAt s.cur (t.clock s.cur.col))) ∧ t' = { t with inbox := t'.inbox } ∧
      t'.inbox.g = g ∧ t'.inbox.cfg = v ∧ t'.inbox.active = true ∧ t'.inbox.seq = v.toNat % 4096) ∧
    (∀ (g : Nat) (v : Word), t.inbox.busy = true → exec (.registerWriteLands (.minbox g v)) s =
      .next (s.setTeam { t with waiting := t.waiting ++ [⟨0, rankWait, s.cur, .registerWriteLands (.minbox g v)⟩] }))

/-! ## cpy -/

/-- The words of a copy, with the registers that they read and what they ask for (R249). -/
def Sys2Proof.copyWords (t : Team) (a d e k : SReg) (slot : BitVec 3) (cls : BitVec 4) : List (Instr × List SReg × CopyWord) :=
  [(.cp a d cls, [a, d], ⟨0, 0, 0, (t.getS a).v, (t.getS d).v, [], cls.toNat⟩),
   (.cpWs a d cls, [a, d], ⟨0, 2 ^ 22, 0, (t.getS a).v, (t.getS d).v, [], cls.toNat⟩),
   (.cpCb a slot cls, [a], ⟨0, 2 ^ 23 + slot.toNat * 2 ^ 19, 0, (t.getS a).v, 0, [], cls.toNat⟩),
   (.cpd a d e k cls, [a, d, e, k],
     ⟨1, e.toNat * 2 ^ 18 + k.toNat * 2 ^ 12, 0, (t.getS a).v, (t.getS d).v, [t.getS e, t.getS k], cls.toNat⟩),
   (.cpfill d e cls, [d, e], ⟨3, e.toNat * 2 ^ 18, 0, 0, (t.getS d).v, [t.getS e], cls.toNat⟩)]

/-- R249 to R263: A COPY WORD whose records and values pass their checks starts its copy: the copy is in flight, its ring advance is
pending, and its first chunk, or in timed mode its sampling at the beat after issue, is due. CPRES resumes the copy that its dword
describes at its first chunk. -/
def Sys2Proof.CopyWordsStartTheirCopy : Prop :=
  ∀ (s : State) (t : Team) (a d e k : SReg) (slot : BitVec 3) (cls : BitVec 4), s.cur.col = .cpy →
    let starts := fun (i : Instr) (regs : List SReg) (w : CopyWord) =>
      trapOf ((s.atIssue t).planCopy (t.seen s.cur) (s.curAt t) w) = none →
      copyStall t w ((s.atIssue t).planCopy (t.seen s.cur) (s.curAt t) w) = false →
      earlyRead (s.atIssue t) (t.seen s.cur) (sReads regs ++ copyBanks ((s.atIssue t).planCopy (t.seen s.cur) (s.curAt t) w)) = none →
      ∀ c, (s.atIssue t).planCopy (s.past t 1) (s.curAt t) w = .ok c →
      Completes s t {} i fun s' t' => (s'.startCopy t' c).recordReads c.cx w
    (∀ p ∈ copyWords t a d e k slot cls, starts p.1 p.2.1 p.2.2) ∧
    (s.team s.cur.cid = some t → s.cur.phase ≠ .perform →
      let v := (t.getS e).v.toNat
      let body := fld v 0 24
      let named : List SReg := if fld v 28 4 = 1 then [BitVec.ofNat 6 (body / 2 ^ 18), BitVec.ofNat 6 (body / 2 ^ 12)]
        else if fld v 28 4 = 3 then [BitVec.ofNat 6 (body / 2 ^ 18)] else []
      starts (.cpres a d e cls) ([a, d, e] ++ named)
        ⟨if fld v 24 4 = 0 then fld v 28 4 else 15, body, fld v 32 32, (t.getS a).v, (t.getS d).v, named.map t.getS, cls.toNat⟩)

/-- R254, R257: what starting a copy leaves: one more copy in flight, its next event due (the beat after issue when it is
timed), the port held four beats for each sector in timed mode, and every register and byte of the team as before. -/
def Sys2Proof.StartedCopyIsInFlight : Prop :=
  ∀ (s : State) (t u : Team) (k : Copy), s.team t.cid = some u →
    ∃ t' : Team, (s.startCopy t k).team t.cid = some t' ∧ t'.copies = t.copies ++ [k] ∧
      (k.timed = true → t'.xferFree = t.clk + 4 * k.sectors) ∧ (k.timed = false → t'.xferFree = t.xferFree) ∧
      (∃ p ∈ t'.pend, p.cx.id = k.cx.id ∧ t.clk < p.due ∧ (k.timed = true → p.due = t.clk + 1) ∧
        p.act = if k.chunks ≤ k.chunk then .copyPerforms else .copyChunk) ∧
      t'.spad = t.spad ∧ t'.s = t.s ∧ t'.acc = t.acc ∧ (s.startCopy t k).mem = s.mem

/-- R58, R265, R330: CPCHK, in elastic mode after the earlier copies of class 0 and those that write what it reads, folds
the image of its record and compares it with P_k: its SIGNAL fires four beats for each sector after issue, or the copy-check
trap comes then. -/
def Sys2Proof.CopyCheckFoldsItsImage : Prop :=
  ∀ (s : State) (t : Team) (a k : SReg), s.cur.col = .cpy →
    let plan := fun (s : State) (u : Team) => s.chkPlan u (t.getS a).v.toNat (t.getS k).v.toNat
    let timed := (t.col .cpy).timed
    let held := fun (x n : Nat) => t.unsealed timed x n || (!timed && t.copyInto x n)
    (held (t.getS a).v.toNat 64 = false → held (t.getS k).v.toNat 8 = false → (timed = false → ∀ x ∈ t.copies, x.cls ≠ 0) →
      ∀ l, plan (s.atIssue t) (t.seen s.cur) = .ok l → plan (s.atIssue t) (s.past t 1) = .ok l → (∀ x ∈ l, held x 1 = false) →
      earlyRead (s.atIssue t) (t.seen s.cur) (sReads [a, k] ++ (banksOf l).map .bank) = none →
      Completes s t {} (.cpchk a k) fun s' t' =>
        let fold := plait (((t'.view 2).getCells l).map fun c => c.2.1)
        let due := t.clk + 4 * ((l.length + 255) / 256)
        let u := if fold.toNat = readNat (t.view 2).spad (t.getS k).v.toNat 8 then t'.signalAt s'.cur due
          else t'.again s'.cur due .perform [fold.toNat] (.cpchk a k)
        (((t.getS a).v.toNat, 64) :: ((t.getS k).v.toNat, 8) :: runsOf l).foldl
          (fun (s2 : State) r => s2.afterRows s'.cur 2 false t' r.2 [r.1]) (s'.setTeam u)) ∧
    ∀ v : Nat, s.team s.cur.cid = some t → s.cur.phase = .perform → s.cur.args = [v] → exec (.cpchk a k) s =
      .next (s.setTeam (t.pendTrap .cpy s.cur.pos .copyCheck (BitVec.ofNat 64 v) 0 s.cur.issued))

/-- R266, R417: the CPX words, elastic only, where fewer than sixteen requests wait and the descriptor is legal, hand their
request of 64 bytes to its engine: it is listed in the team and at the fabric under a fresh number, with ten milliseconds to end in,
and its end is due, but of a collective between modules, which a response ends. -/
def Sys2Proof.EngineRequestsAreHandedOver : Prop :=
  ∀ (s : State) (t : Team) (a : SReg) (cls : BitVec 4), s.cur.col = .cpy → t.cpx.length < 16 →
    let d := (t.getS a).v.toNat
    dwordTrap t d 64 = none → (t.seen s.cur).readsTrap 2 64 [d] = none → t.unsealed (t.col .cpy).timed d 64 = false →
    t.copyInto d 64 = false → earlyRead (s.atIssue t) (t.seen s.cur) (sReads [a]) = none →
    ∀ p ∈ [(Instr.cpxHost a cls, 0), (.cpxPeer a cls, 1), (.cpxColl a cls, 2)],
      (s.atIssue t).cpxBad t p.2 (readNat ((t.seen s.cur).view 2).spad d 64) = false → Completes s t { reject := true } p.1 fun s' t' =>
        let die := s.kensia.ioDie s.kensia.remapDie[dieFin (dieOf t.cid)]
        let cx := { s'.cur with phase := .perform, args := [t.launch] }
        let s1 := (s'.setTeam { t' with cpx := t'.cpx ++ [⟨s'.cur.id, p.2, cls.toNat, readBytes (t'.view 2).spad d 64,
          { s'.cur with phase := .perform }⟩] }).afterRows s'.cur 2 false t' 64 [d]
        let late := insertPend ⟨s.now + s.beatsOfNs 10000000, 0, cx, .fabricTimeout⟩ s1.agenda
        { s1.took with
          agenda := if p.2 = 2 && die < 8 then late else insertPend ⟨s.memDue s.now, 0, cx, .cpxComplete⟩ late,
          fabric := s1.fabric ++ [⟨die + 16 * s.nextReq, die, s.resets[die % 8]'(Nat.mod_lt _ (by decide)), t.cid, t.launch, s.cur.id⟩],
          nextReq := s1.nextReq + 1 }

/-- R240, R254, R257, R259, R286: a sector of at most 256 bytes that its receiver admits lands: each of its cells reads back
and every byte outside it is as before, a copy's chunk or a drain's row group counts it, and the rest of a longer one lands
four beats later; one that it does not admit writes no byte and leaves its trap pending. Bytes for write slots go to their
rim. -/
def Sys2Proof.SectorLandingWritesItsCells : Prop :=
  ∀ (s : State) (t : Team) (x : Sector), s.team s.cur.cid = some t → s.upset x.sender x.id 6 = 0 → x.path = .cpy ∨ x.path = .mat →
    (2 ^ 32 ≤ (x.cells.headD (0, 0, false)).1 → x.path = .cpy →
      exec (.sectorLanding x) s = .next ((s.fillSlots t x).sectorDone x.sender x.id x.start)) ∧
    ((x.cells.headD (0, 0, false)).1 < 2 ^ 32 →
      let first := if x.path = .mat then x.cells.take 256 else x.cells
      let known := (x.path = .cpy ∧ x.sender = t.cid) ∨ (x.path = .mat ∧ x.index ≠ 0)
      (known ∨ t.landTrap x.sender (x.cells.map (·.1)) = none → t.landConflict { x with cells := first } = none →
        let v := (t.putCellsOver first x.entire).freshen { x with cells := first }
        let u := if x.path = .cpy ∧ x.sender = t.cid ∧ x.timed = false then
            match t.copy x.id with
            | some k => v.wrote t s.now 2 k.cls k.cx.id false (first.map (·.1))
            | none => v
          else v
        (x.path = .cpy → exec (.sectorLanding x) s =
          .next (((s.setTeam u).watchLanding x t.spad u.spad).sectorDone x.sender x.id x.start)) ∧
        (x.path = .mat → x.cells.length ≤ 256 → exec (.sectorLanding x) s = .next ((s.setTeam u).setTeam (u.arrived x.sender x.id))) ∧
        (x.path = .mat → 256 < x.cells.length → exec (.sectorLanding x) s =
          .next ((s.setTeam u).sendSector t.cid 4 s.cur { x with cells := x.cells.drop 256, index := x.index + 1 })) ∧
        ((first.map (·.1)).Nodup → Memory.wf t.spad = true → (∀ c ∈ first, readByte u.spad c.1 = c.2.1) ∧
          ∀ b, (∀ c ∈ first, c.1 ≠ b) → readByte u.spad b = readByte t.spad b)) ∧
      (¬ known → ∀ e, t.landTrap x.sender (x.cells.map (·.1)) = some e →
        let v := t.pendTrap x.path (t.col x.path).head e.1 e.2 0 t.clk
        exec (.sectorLanding x) s = .next (if x.path = .cpy then (s.setTeam v).sectorDone x.sender x.id x.start
          else (s.setTeam v).setTeam (v.arrived x.sender x.id))))

/-- What a chunk leaves of its copy: its exceptions, the source bytes sampled for a CPD, whose resumed form samples the
chunks before its first too, and the bytes that it writes over (R253, R255, R263). -/
def Sys2Proof.chunkTaken (s : State) (t : Team) (k : Copy) (r : ChunkOut) : Copy :=
  let skipped := if k.op = 1 && k.chunk = k.first then
      (List.range k.first).foldl (fun m c => match s.makeChunk t k c with
        | .ok x => k.sample c x.read m
        | .error _ => m) k.image
    else k.image
  { k with exc := if k.op = 3 then k.exc ||| r.exc else r.exc,
           image := if k.op = 1 then k.sample k.chunk r.read skipped else k.image,
           kept := s.keepOld t k r.cells }

/-- R252, R253, R255, R257, R316, R325: A CHUNK of a copy, timed at issue + 1 or elastic when the copies before it, the
sectors that it reads and the rd.l2 fills allow it, makes its stored bytes: it loads a codebook slot, sends the bytes of a
scratchpad or of write slots as sectors, or writes memory; in a running program's window it first makes its demand requests.
A chunk whose making faults leaves the fault with an elastic copy. One that has to wait is tried again on the next beat. -/
def Sys2Proof.CopyChunksComplete : Prop :=
  ∀ (s : State) (t : Team) (k : Copy), s.team s.cur.cid = some t → t.copy s.cur.id = some k → k.halted = false →
    let free := (∀ a ∈ k.spadSource, t.unsealed k.timed a 1 = false) ∧ (k.timed = false →
      (∀ x ∈ t.copies.takeWhile (fun x => x.id != k.id), s.copyAfter t k x = false) ∧ ∀ a ∈ s.tableReach t k, s.filling a 1 = false)
    (k.timed = false → (∃ a ∈ k.spadSource, t.unsealed false a 1 = true) → exec .copyChunk s = .next
      (s.setTeam { t with pend := insertPend ⟨t.clk + 1, rankOf .cpy, s.cur, .copyChunk⟩ t.pend })) ∧
    (k.timed = false → free → ∀ e, s.makeChunk t k k.chunk = .error e → exec .copyChunk s = .next (s.chunkFault t k e)) ∧
    (free → ∀ r, s.makeChunk t k k.chunk = .ok r →
      let pas := s.chunkReach t k r
      let served := s.cur.args.headD 0
      let asks := (s.windowReqs t.cid k.id false pas.1 ++ s.windowReqs t.cid k.id true pas.2).drop served
      (k.timed = false → ∀ a ∈ pas.1, s.filling a 1 = false) →
      (k.timed = false → asks ≠ [] → s.outstanding t < 4096 →
        let room := 4096 - s.outstanding t
        exec .copyChunk s = .next ((s.request (asks.take room)).setTeam (t.await s.cur [served + min room asks.length] .copyChunk))) ∧
      ((k.timed = false → asks = []) → ∀ u, r.state.team t.cid = some u →
        let k' := chunkTaken s t k r
        (k.target = 2 → exec .copyChunk s = .next (r.state.loadBook (u.setCopy k') k' r.read)) ∧
        (k.target ≠ 2 → (∀ d, k.dst = some d → d.loc ≠ 2) → exec .copyChunk s = .next
          (if k.timed then r.state.sendCells u k' k.cx.issued (k.delay - 1) r.cells else r.state.sendCells u k' s.now k.delay r.cells)) ∧
        (k.target ≠ 2 → ∀ d, k.dst = some d → d.loc = 2 →
          ∀ s', (r.state.setTeam (u.setCopy k')).writeCells u k.cx d r.cells (k.newUnits 32 r.cells) = .ok s' →
          exec .copyChunk s = .next (s'.chunkDone t.cid k.id))))

/-- R254, R261, R263, R264, R301: when a copy performs, its ring's tail moves by its advance, a fill's exceptions join CEXC,
it leaves the list, and its SIGNAL fires. -/
def Sys2Proof.CopiesPerform : Prop :=
  ∀ (s : State) (t : Team) (k : Copy), s.team s.cur.cid = some t → t.copy s.cur.id = some k →
    ∃ t' : Team, exec .copyPerforms s = .next (s.setTeam (t'.signalAt k.cx t.clk)) ∧ t'.cexc = t.cexc ||| k.exc.setWidth 64 ∧
      (∀ x, x ∈ t'.copies ↔ x ∈ t.copies ∧ x.id ≠ k.id) ∧
      (t.advances.filter (fun x => x.1 = k.id) = [] → t'.rA = t.rA ∧ t'.rB = t.rB) ∧
      (∀ n, t.advances.filter (fun x => x.1 = k.id) = [(k.id, .a, n)] → t'.rA = { t.rA with tail := t.rA.tail + n } ∧ t'.rB = t.rB) ∧
      (∀ n, t.advances.filter (fun x => x.1 = k.id) = [(k.id, .b, n)] → t'.rB = { t.rB with tail := t.rB.tail + n } ∧ t'.rA = t.rA) ∧
      t'.spad = t.spad ∧ t'.acc = t.acc ∧ t'.s = t.s

/-- R258, R263, R264: the check dword of a CPD, sent from one core to this one, is written only if the fold of the source's
image is the expected one, and its copy then performs; otherwise the sender takes the copy-check trap with the fold. A
receiver that does not admit it takes its landing trap, and its copy performs all the same. -/
def Sys2Proof.CheckDwordsLand : Prop :=
  ∀ (s : State) (t u : Team) (k : Copy) (core r0 : Nat), s.team s.cur.cid = some t → s.team core = some u → u.copy s.cur.id = some k →
    s.cur.args = [core, r0] → s.upset core k.id 5 = 0 →
    let a := (k.regs.getD 1 0).toNat
    let cells : Cells := (bytesOf k.plaitS.toNat 8).zipIdx.map fun y => (a + y.2, y.1, false)
    let x : Sector := ⟨cells, k.sent, core, k.id, .cpy, 0, true, k.timed, [], []⟩
    let performs := fun (s' : State) => s'.sendTo core 0 (rankOf .cpy) k.cx .copyPerforms
    (k.plaitS ≠ k.expect → exec .cpdCheckDwordLands s =
      let rest := fun (v : Team) => { v with coming := v.coming.filter fun e => e.2 != core + 2048 * k.id }
      .next ((s.setTeam (rest t)).setTeam (((if u.cid = t.cid then rest u else u).dropCopy k.id).pendTrap .cpy k.cx.pos .copyCheck
        k.plaitS 0 k.cx.issued))) ∧
    (k.plaitS = k.expect → (core = t.cid ∨ t.landTrap core ((List.range 8).map (a + ·)) = none) → t.landConflict x = none →
      let v := (t.putCells cells).freshen x
      exec .cpdCheckDwordLands s = .next (performs ((s.setTeam v).watchLanding x t.spad v.spad)) ∧
      (Memory.wf t.spad = true → readNat v.spad a 8 = k.plaitS.toNat ∧ ∀ b, b < a ∨ a + 8 ≤ b → readByte v.spad b = readByte t.spad b)) ∧
    (k.plaitS = k.expect → core ≠ t.cid → ∀ e, t.landTrap core ((List.range 8).map (a + ·)) = some e →
      exec .cpdCheckDwordLands s = .next (performs (s.setTeam (t.pendTrap .cpy (t.col .cpy).head e.1 e.2 0 t.clk))))

/-! ## Channel words and the rims -/

/-- A channel word completes: whenever it may issue, it answers the next state that `eff` makes. -/
def Sys2Proof.ChanCompletes (s : State) (t : Team) (p : Pc) (g : ChanProg) (i : Instr) (r : State) : Prop :=
  MayIssueChan s t p g → exec i s = .next r

/-- R268, R311, R313, R317, R320: ACT opens a closed bank on a window row; PRE and PREA close what is open; REF and REFSB
refresh closed banks; MRW writes its mode register at level S only: each once every timing parameter has elapsed, and each
is recorded for the checker at its issue beat. -/
def Sys2Proof.CommandWordsComplete : Prop :=
  ∀ (s : State) (t : Team) (p : Pc) (g : ChanProg),
    (∀ (bg bk : BitVec 2) (row : BitVec 18), p.open? (4 * bg.toNat + bk.toNat) = none → row.toNat < s.wrows → row.toNat < Config.rimRows (p.pc / 128) →
      p.actFails t.clk (4 * bg.toNat + bk.toNat) = [] → ChanCompletes s t p g (.act bg bk row)
        (s.chanDone t ((p.setBank (4 * bg.toNat + bk.toNat) (some row.toNat)).record t.clk .act [4 * bg.toNat + bk.toNat]) g 1)) ∧
    (∀ q ∈ [(Instr.prea, List.range 16)] ++ (List.range 16).map fun b => (Instr.pre (BitVec.ofNat 2 (b / 4)) (BitVec.ofNat 2 b), [b]),
      let opened := q.2.filter fun b => (p.open? b).isSome
      (∀ b ∈ opened, p.closeFails t.clk b = []) → ChanCompletes s t p g q.1
        (s.chanDone t ((opened.foldl (fun p b => p.setBank b none) p).record t.clk .close opened) g 1)) ∧
    ((∀ b < 16, p.open? b = none) → p.wholeFails t.clk .ref (List.range 16) = [] →
      ChanCompletes s t p g .ref (s.chanDone t ((p.countRefs (List.range 16)).record t.clk .ref [0]) g 1)) ∧
    (∀ bk : BitVec 2, let l := [bk.toNat, 4 + bk.toNat, 8 + bk.toNat, 12 + bk.toNat]
      (∀ b ∈ l, p.open? b = none) → p.wholeFails t.clk .refsb l = [] →
      ChanCompletes s t p g (.refsb bk) (s.chanDone t ((p.countRefs l).record t.clk .refsb [bk.toNat]) g 1)) ∧
    (∀ (mr : BitVec 4) (v : BitVec 8), g.svc = true → (∀ b < 16, p.open? b = none) → Config.mrwMask (rimOf p.pc) mr.toNat = true →
      p.wholeFails t.clk .mrw (List.range 16) = [] → let k := 16 * (p.pc / 64) + mr.toNat
      ChanCompletes s t p g (.mrw mr v) (({ s with mrs := (s.mrs.filter fun x => x.1 != k) ++ [(k, v)] } : State).chanDone t
        (p.record t.clk .mrw [0]) g 1)) ∧
    (∀ n : BitVec 16, ChanCompletes s t p g (.pass n) (s.chanDone t { p with winEnd := t.clk + 2 * (n.toNat - 1) } g n.toNat))

/-- R268, R269, R313: a command that the state of its bank does not admit is suppressed: the DRAM-timing trap is taken with
REASON 1, the word's position and its grant, the program stops, and the rim closes its banks once their timing allows. MRW
of a U program takes the privilege trap. -/
def Sys2Proof.BadCommandsAreSuppressed : Prop :=
  ∀ (s : State) (t : Team) (p : Pc) (g : ChanProg), MayIssueChan s t p g →
    let bad : Host.Outcome State Fault Refusal := .next (s.raiseChan t p g .dramTiming
      (BitVec.ofNat 64 (s.cur.pos % 2 ^ 32 * 2 ^ 32 + 4096 + g.grant % 1024)))
    (∀ (bg bk : BitVec 2) (row : BitVec 18), (p.open? (4 * bg.toNat + bk.toNat) ≠ none ∨ s.wrows ≤ row.toNat ∨ Config.rimRows (p.pc / 128) ≤ row.toNat) →
      exec (.act bg bk row) s = bad) ∧
    (∀ (bg bk : BitVec 2) (col : BitVec 6), p.open? (4 * bg.toNat + bk.toNat) = none →
      (∀ core granule, exec (.rd bg bk col core granule) s = bad) ∧ (∀ alloc, exec (.rdL2 bg bk col alloc) s = bad) ∧
      ∀ slot, exec (.wr bg bk col slot) s = bad) ∧
    ((∃ b < 16, p.open? b ≠ none) → exec .ref s = bad ∧ (g.svc = true → ∀ mr v, exec (.mrw mr v) s = bad)) ∧
    (g.svc = false → ∀ mr v, exec (.mrw mr v) s = .next (s.raiseChan t p g .privilege s.cur.word)) ∧
    ∀ k v, ∃ p' g', (s.raiseChan t p g k v).pc p.pc = some p' ∧ p'.prog = some g' ∧ g'.st.stopped = true ∧ p'.owned = false ∧ p'.banks = p.banks ∧
      p'.busyTill = max p.busyTill (s.now + p.closing t.clk)

/-- R317: the timing rules of an ACT: it fails exactly the parameters whose time since their event has not elapsed, two beats to the
tick: tRP and tRC of its bank, tRRD of another bank group and of its own, four ACTs in tFAW, and the refreshes before it. -/
def Sys2Proof.ActTimingRules : Prop :=
  ∀ (p : Pc) (clk b : Nat),
    let since := fun (i : Nat) (f : CmdRec → Prop) => ∃ c ∈ p.hist, f c ∧ (∀ d ∈ p.hist, f d → d.tick ≤ c.tick) ∧
      clk < c.tick + 2 * Config.fusedTiming (rimOf p.pc) i
    p.hist.Pairwise (fun x y => x.tick ≤ y.tick) →
      (1 ∈ p.actFails clk b ↔ since 1 fun c => c.kind = 3 ∧ c.bank = b) ∧
      (3 ∈ p.actFails clk b ↔ since 3 fun c => c.kind = 0 ∧ c.bank = b) ∧
      (4 ∈ p.actFails clk b ↔ since 4 fun c => c.kind = 0 ∧ c.bank / 4 ≠ b / 4) ∧
      (5 ∈ p.actFails clk b ↔ since 5 fun c => c.kind = 0 ∧ c.bank / 4 = b / 4 ∧ c.bank ≠ b) ∧
      (6 ∈ p.actFails clk b ↔ ∃ c, (p.hist.filter fun c => c.kind = 0).reverse[3]? = some c ∧ clk < c.tick + 2 * Config.fusedTiming (rimOf p.pc) 6) ∧
      (13 ∈ p.actFails clk b ↔ since 13 fun c => c.kind = 4) ∧ (14 ∈ p.actFails clk b ↔ since 14 fun c => c.kind = 5 ∧ c.bank = b % 4) ∧
      (15 ∈ p.actFails clk b ↔ since 15 fun c => c.kind = 6) ∧ ∀ x ∈ p.actFails clk b, x ∈ [1, 3, 4, 5, 6, 13, 14, 15]

/-- R270, R272, R313, R357: RD samples 32 bytes of the open row at its issue and lands them 256 beats later in the granule
of its core, or fills an L2 sector; WR sends its slot's 32 bytes to the open row and drops the L2 sector. -/
def Sys2Proof.DataWordsComplete : Prop :=
  ∀ (s : State) (t : Team) (p : Pc) (g : ChanProg) (bg bk : BitVec 2) (col : BitVec 6) (row : Nat),
    let b := 4 * bg.toNat + bk.toNat
    let pa := 2 ^ 51 + p.pc * 2 ^ 32 + row * 2 ^ 14 + b * 2 ^ 10 + col.toNat * 32
    p.open? b = some row → row < s.wrows → row < Config.rimRows (p.pc / 128) →
    (p.moveFails t.clk b true = [] → ∀ v s2, s.chanJudge t .read pa = .ok (v, s2) →
      let s3 := (s2.dramRead t (pa / 32)).chanDone t (p.record t.clk .rd [b]) g 1
      let bad := s.poison.contains (pa / 32) || decide ((s.upset 0 (pa / 32) 7).toNat % 4 = 2)
      let taint := v.taint || s.memTaint.contains (pa / 32)
      let cx : Cur := { s.cur with issued := t.clk, args := [t.cid] }
      (∀ (core : BitVec 11) (granule : BitVec 16) (w : Team), s.team core.toNat = some w → w.launch = t.launch →
        w.banks.getLsbD (32 * granule.toNat / 131072) = true → ∀ u, s3.team core.toNat = some u → ChanCompletes s t p g (.rd bg bk col core granule)
        (s3.setTeam { u with pend := insertLand ⟨u.clk + 256, rankLand, { cx with cid := u.cid },
          .rdLanding s.cur.pc granule.toNat (BitVec.ofNat 256 (readNat s.mem pa 32)) taint bad⟩ u.pend })) ∧
      ∀ (alloc : Bool) (u : Team), s3.team t.cid = some u → ChanCompletes s t p g (.rdL2 bg bk col alloc)
        (s3.setTeam { u with pend := insertLand ⟨u.clk + 256, rankLand, { cx with cid := u.cid },
          .rdL2Fill s.cur.pc pa (BitVec.ofNat 256 (readNat s.mem pa 32)) taint alloc bad⟩ u.pend })) ∧
    (p.moveFails t.clk b false = [] → ∀ slot : BitVec 16, (∀ x ∈ p.slotLand, x.1 = slot.toNat → x.2 + 63 < t.clk ∨ t.clk < x.2) →
      ∀ v s2, s.chanJudge t .write pa = .ok (v, s2) →
      let taint := p.slotTaint.contains slot.toNat
      let en := v.enables pa 32 (allBits 32)
      ChanCompletes s t p g (.wr bg bk col slot) (((({ s2 with l2 := s2.l2.filter fun x => x.sector != pa / 256 } : State).l2Write none pa 32
        (readNat p.slots (32 * slot.toNat) 32) en fun _ => taint).markTaint t.cid (taint && en != 0)).chanDone t
          (p.record t.clk .wr [b]) g 1))

/-- R173, R169 to R171, R172, R174, R358: the common group on a channel program: NOP takes a tick; a loop word opens its body, or
skips it; HOOP makes the program wait for its alignment; RDV ends it once its last RD has performed, and the default program takes
over once the banks are closed. -/
def Sys2Proof.CommonGroupOfChannels : Prop :=
  ∀ (s : State) (t : Team) (p : Pc) (g : ChanProg), s.cur.col = .chn →
    let program := fun (s' : State) (f : Column → Column) (p' : Pc) => s'.setPc { p' with prog := p'.prog.map fun g' => { g' with st := f g'.st } }
    ChanCompletes s t p g .nop (s.chanDone t p g 1) ∧
    (∀ (fixed : Bool) (src : LoopSrc) (bound len : BitVec 12), let x := loopCount t src bound
      loopTrap (t.ndet = 2) g.st s.cur.pos fixed x src bound.toNat len.toNat = none →
      ∀ p', (s.chanDone t p g 1).pc s.cur.pc = some p' →
      let past := s.cur.pos + len.toNat
      let skipped := match g.st.loops with
        | l :: r => if l.holds s.cur.pos then afterWord past (l :: r) else (past + 1, l :: r)
        | [] => (past + 1, [])
      let r := if fixed = false ∧ x.v = 0 then skipped
        else (s.cur.pos + 1, ⟨s.cur.pos + 1, len.toNat, bound.toNat, fixed, x.v.toNat, 0⟩ :: g.st.loops)
      ChanCompletes s t p g (if fixed then .loopf src bound len else .loope src bound len)
        (program (s.chanDone t p g 1) (fun st => { st with head := r.1, loops := r.2 }) p')) ∧
    (∀ (x : SReg) (u : BitVec 34) (p' : Pc), (s.chanStep t p g 1).pc s.cur.pc = some p' → ChanCompletes s t p g (.hoop x u)
      (program (s.chanStep t p g 1) (fun st => { st with hoop := some ⟨0, t.clk, false, s.cur.pos, s.cur.loops, s.cur.signal⟩ }) p')) ∧
    (s.cur.phase ≠ .perform → s.rdLeft p.pc = 0 → ChanCompletes s t p g .rdv ((s.chanStep t p g (2 ^ 64)).endProg t.cid s.cur)) ∧
    (s.cur.phase ≠ .perform → s.rdLeft p.pc ≠ 0 → ChanCompletes s t p g .rdv ((s.chanStep t p g (2 ^ 64)).setTeam
      { t with pend := insertPend ⟨t.clk + s.rdLeft p.pc, 7, { s.cur with phase := .perform }, .rdv⟩ t.pend })) ∧
    (s.cur.phase = .perform → s.team s.cur.cid = some t → exec .rdv s = .next (s.endProg t.cid s.cur)) ∧
    (s.pc s.cur.pc = some p → p.prog = some g → s.cur.signal = .none → ∃ (p' : Pc) (g' : ChanProg),
      (s.endProg t.cid s.cur).pc s.cur.pc = some p' ∧ p'.prog = some g' ∧ g'.st.ended = true ∧ p'.owned = false ∧ p'.banks = p.banks ∧
      (s.endProg t.cid s.cur).mem = s.mem ∧ (s.endProg t.cid s.cur).teams = s.teams)

/-- R258, R270, R287, R438: the 32 bytes of an RD land in their granule and nowhere else, or, where the bank is not the
launch's or ECC could not correct them, none does and the landing team traps; a fill puts its part into the L2 sector, and
where the L2 has room no other sector is lost. -/
def Sys2Proof.ChannelLandingsComplete : Prop :=
  ∀ (s : State) (t : Team) (pc granule : Nat) (data : BitVec 256) (k : Bool), s.team s.cur.cid = some t →
    let owner := s.cur.args.headD 0
    let bytes := (List.range 32).map (32 * granule + ·)
    let x : Sector := ⟨(bytesOf data.toNat 32).zipIdx.map fun x => (32 * granule + x.2, x.1, k), s.cur.issued, owner, s.cur.id, .chn, 0, true, true, [], []⟩
    exec (.rdLanding pc granule data k true) s = .next ((s.setTeam (t.pendTrap .chn 0 .ecc (BitVec.ofNat 64 (32 * granule)) 0 t.clk)).checkEvent
      ⟨3, s.cur.pc⟩ 0x21 (some t) 0 0) ∧
    (s.upset owner s.cur.id 6 = 0 → Memory.wf t.spad = true →
      (t.landTrap owner bytes = none → t.landConflict x = none → ∃ t' : Team, exec (.rdLanding pc granule data k false) s = .next (s.setTeam t') ∧
        readNat t'.spad (32 * granule) 32 = data.toNat ∧
        (∀ a, a < 32 * granule ∨ 32 * granule + 32 ≤ a → readByte t'.spad a = readByte t.spad a) ∧
        t' = { t with spad := t'.spad, spadTaint := t'.spadTaint, sick := t'.sick, unseen := t'.unseen }) ∧
      ∀ e, t.landTrap owner bytes = some e → exec (.rdLanding pc granule data k false) s =
        .next (s.setTeam (t.pendTrap .chn 0 e.1 (e.2 ||| 1 <<< 43) 0 t.clk))) ∧
    (∀ (pa : Nat) (alloc : Bool), exec (.rdL2Fill pc pa data k alloc true) s =
      .next ((s.setTeam (t.pendTrap .chn 0 .ecc (BitVec.ofNat 64 pa) 0 t.clk)).checkEvent ⟨3, s.cur.pc⟩ 0x21 (some t) 0 0)) ∧
    ∀ (pa : Nat) (alloc : Bool), ∃ s' : State, exec (.rdL2Fill pc pa data k alloc false) s = .next s' ∧ s'.mem = s.mem ∧ s'.teams = s.teams ∧
      (alloc = true ∨ (∃ x ∈ s.l2, x.sector = pa / 256) → ∃ x ∈ s'.l2, x.sector = pa / 256 ∧ x.parts.getLsbD (pa / 32 % 8) = true ∧
        x.taint.getLsbD (pa / 32 % 8) = k ∧ (x.data >>> (256 * (pa / 32 % 8))).setWidth 256 = data) ∧
      let d := rimOf (sectorPc (pa / 256))
      (alloc = false ∨ (∃ x ∈ s.l2, x.sector = pa / 256) ∨ (s.l2.filter fun x => rimOf (sectorPc x.sector) = d).length < s.l2Room d →
        ∀ x ∈ s.l2, x.sector ≠ pa / 256 → x ∈ s'.l2)

/-- R319, R321 to R325, R438, R439: the rims' own events: an overdue program is trapped with its bank; the hot debt rises by
one in every bank when a refresh interval's hot time is complete, and requests an emergency freeze at eight; a stack that
turns hot asks for a stretch, and over 105 degrees for a freeze; demand requests queue in order and are served oldest first;
a refresh pays the debt, and under the default program the banks that an ended program left open are closed; a scrub of
sound memory changes nothing. -/
def Sys2Proof.RimEventsComplete : Prop :=
  ∀ (s : State) (p : Pc), s.pc s.cur.pc = some p →
    (∀ g b t, p.prog = some g → s.overdueBank p = some b → s.team g.owner = some t →
      let pos := if g.lastAt = t.clk then g.lastPos else g.st.head
      exec .refreshOverdue s = .next (({ s with cur := { s.cur with pos := pos } } : State).raiseChan t p g .refreshOverdue
        (BitVec.ofNat 64 (pos % 2 ^ 32 * 2 ^ 32 + b * 2 ^ 16 + g.grant % 1024)))) ∧
    (p.hotDue = true → ∃ (s' : State) (p' : Pc), exec .hotDebtTick s = .next s' ∧
      s'.pc p.pc = some p' ∧ (∀ b : Fin 16, p'.debt[b] = p.debt[b] + 1) ∧ p'.hotQ = p.hotQ - hotRise p.pc ∧
      ((∃ b : Fin 16, 8 ≤ p'.debt[b]) → ∃ e ∈ s'.agenda, e.act = .emergencyFreezeRequest .hotDebt)) ∧
    (∀ stack level, ∃ s' : State, exec (.stackTempCrossing stack level) s = .next s' ∧
      (s'.temps.find? fun x => x.1 = stack) = some (stack, level) ∧
      ((s.temps.find? fun x => x.1 = stack) = none → 0 < level → s'.kensia.stretchReq ≠ none ∧
        (2 ≤ level → ∃ e ∈ s'.agenda, e.act = .emergencyFreezeRequest .hbmTemp))) ∧
    (∀ k bank row, exec (.demandRequest s.cur.pc k bank row) s = .next (s.setPc { p with queue := p.queue ++ [⟨k, bank % 16, row, 0, 0⟩] })) ∧
    (∀ n k bank row, n < 768 → s.pc n = none → exec (.demandRequest n k bank row) s =
      .next { s with pcs := s.pcs ++ [{ blankPc n with queue := [⟨k, bank % 16, row, 0, 0⟩] }] }) ∧
    (∀ r l, p.queue = r :: l → s.canServe p = true → let till := s.now + 2 * serveTicks (rimOf p.pc) r.kind
      (r.kind = .read ∨ r.kind = .write → exec .demandServe s =
        .next ((s.setPc { p with queue := l, busyTill := till }).servedWord r.cid r.id)) ∧
      (r.kind = .refresh → ∃ p' : Pc, exec .demandServe s = .next (s.setPc p') ∧ p'.queue = l ∧ p'.busyTill = till ∧
        ∀ b : Fin 16, p'.debt[b] = p.debt[b] - 1) ∧
      (r.kind = .scrub → ∃ s' : State, exec .demandServe s = .next s' ∧ s'.pc s.cur.pc = some { p with queue := l, busyTill := till } ∧
        ∃ e ∈ s'.agenda, e.act = .scrubRow p.pc r.bank r.row)) ∧
    (p.owned = true → s.canRefresh p = true → ∃ p' : Pc, exec .demandRefresh s = .next (s.setPc p') ∧ p'.banks = p.banks ∧
      ∀ b : Fin 16, p'.debt[b] = p.debt[b] - 1) ∧
    (p.owned = false → ∃ p' : Pc, exec .demandRefresh s = .next (s.setPc p') ∧
      p'.banks = (if s.canClose p then Vector.replicate 16 none else p.banks) ∧ ∀ b : Fin 16, p'.debt[b] = 0) ∧
    (s.upsets = [] → (∀ pc bank row, exec (.scrubRow pc bank row) s = .next s) ∧ exec .l2Scrub s = .next s) ∧
    ∀ u, s.upsets = [u] → u.cid = 0 → u.place = 8 → u.x = 1 → ∃ s' : State, exec .l2Scrub s = .next s' ∧ s'.upsets = [] ∧ s'.poison = s.poison

/-! ## Events of a team -/

/-- R92, R93, R139, R72, R285, R335, R389: what fires or arrives in a team. With no earlier access of its path to perform, a
SIGNAL sets or clears its flag, makes its tokens poppable, adds to its counter, or sends its link increment; with one, it
waits. A link increment adds to the counter that it names; a barrier's completion is seen; the timer sets TIP[1]; an
interrupt of a partner sets TIP[2] of the team that it names, and nothing where there is none.
It rests on the model's readings and choices of log 14. -/
def Obligations.TeamEventsComplete : Prop :=
  ∀ (s : State) (t : Team), s.team s.cur.cid = some t →
    (∀ e, e = .code .none ∨ t.accessBefore s.cur.col s.cur.id = false → exec (.signalFire e) s = .next (s.fire t s.cur e)) ∧
    s.fire t s.cur (.code .none) = s ∧
    (∀ (f : BitVec 5) (n : Nat), ∀ e ∈ [SigEvent.code (.flag f), .count (.flag f) n], ∃ t', s.fire t s.cur e = s.setTeam t' ∧
      (∀ i : Nat, t'.flags.getLsbD i = (decide (i = f.toNat) || t.flags.getLsbD i)) ∧ t' = { t with flags := t'.flags, told := t'.told }) ∧
    (∀ (f : BitVec 5) (n : Nat), ∀ e ∈ [SigEvent.code (.clr f), .count (.clr f) n], ∃ t', s.fire t s.cur e = s.setTeam t' ∧
      (∀ i : Nat, t'.flags.getLsbD i = (decide (i ≠ f.toNat) && t.flags.getLsbD i)) ∧ t' = { t with flags := t'.flags }) ∧
    (∀ dst n, ∃ t', s.fire t s.cur (.code (.tok dst n)) = s.setTeam t' ∧ t' = { t with toks := t'.toks } ∧
      t'.toks = t.toks.map fun k => if k.src = s.cur.col ∧ k.dst = dst ∧ k.id = s.cur.id then { k with ready := true } else k) ∧
    (∀ (j : BitVec 5) (n : Nat), 0 < n → ∀ e ∈ [SigEvent.count (.link j) n] ++ (if n = 1 then [.code (.link j)] else []),
      let far := (t.cnt.get j.toFin).link.toNat / 64
      s.fire t s.cur e = s.sendTo far (crossDelay t.cid far) 7 s.cur
        (.linkIncrementArrives (BitVec.ofNat 5 ((t.cnt.get j.toFin).link.toNat / 2)) n)) ∧
    (t.accessBefore s.cur.col s.cur.id = true → ∀ e, e ≠ .code .none →
      exec (.signalFire e) s = .next (s.setTeam { t with waiting := t.waiting ++ [⟨0, rankEvent e, s.cur, .signalFire e⟩] })) ∧
    (∀ (j : BitVec 5) (n : Nat), (t.cnt.get j.toFin).val.toNat + n < 2 ^ 32 →
      ∀ r ∈ [s.fire t s.cur (.count (.cnt j) n)] ++ (if n = 1 then [s.fire t s.cur (.code (.cnt j))] else []), ∃ t', r = s.setTeam t' ∧
        (∀ m : Fin 32, (t'.cnt.get m).val.toNat = (t.cnt.get m).val.toNat + (if m = j.toFin then n else 0)) ∧
        t' = { t with cnt := t'.cnt, told := t'.told, hidden := t'.hidden }) ∧
    (∀ (j : BitVec 5) (n : Nat), (t.cnt.get j.toFin).val.toNat + n < 2 ^ 32 → ∃ t', exec (.linkIncrementArrives j n) s = .next (s.setTeam t') ∧
        (∀ m : Fin 32, (t'.cnt.get m).val.toNat = (t.cnt.get m).val.toNat + (if m = j.toFin then n else 0)) ∧ t' = { t with cnt := t'.cnt }) ∧
    (∀ (j : BitVec 5) (n : Nat), 2 ^ 32 ≤ (t.cnt.get j.toFin).val.toNat + n → ∃ t', exec (.linkIncrementArrives j n) s = .next (s.setTeam t') ∧
        (t'.cnt.get j.toFin).val.toNat = 2 ^ 32 - 1 ∧ t'.traps = t.traps ++ [⟨.chn, 0, 6 * 256 + Cause.counterOver.code, j.setWidth 64, t.clk, 0, 0⟩] ∧
        t' = { t with cnt := t'.cnt, traps := t'.traps, freezeReq := earlier t.freezeReq t.clk }) ∧
    (∀ (b : BitVec 3) (g : Nat), ∃ t', exec (.barrierCompletionObserved b g) s = .next (s.setTeam t') ∧
      (∀ m : Fin 8, (t'.bars.get m).seen = if m = b.toFin then max (t.bars.get m).seen g else (t.bars.get m).seen) ∧
      t' = { t with bars := t'.bars }) ∧
    (∃ t', exec .timerInterruptPend s = .next (s.setTeam t') ∧ t'.tip = t.tip ||| 2 ∧ t' = { t with tip := t'.tip, freezeReq := t'.freezeReq } ∧
      (t.svc = true → t'.freezeReq = t.freezeReq)) ∧
    (∀ job ord core u, s.teamNamed job ord core = some u → ∃ t', exec (.peerInterruptFrame job ord core) s = .next (s.setTeam t') ∧
      t'.tip = u.tip ||| 4 ∧ t' = { u with tip := t'.tip, freezeReq := t'.freezeReq }) ∧
    (∀ job ord core, s.teamNamed job ord core = none → exec (.peerInterruptFrame job ord core) s = .next s) ∧
    (t.inSvc s.cur.col = false → s.cur.phase = .issue ∨ s.cur.phase = .final → s.cur.col ≠ .chn → ∃ t', exec .emptyRingFault s = .next (s.setTeam t') ∧
      t'.traps = t.traps ++ [⟨s.cur.col, s.cur.pos, tcauseOf s.cur.col .schedule, s.beatOf t, (t.col s.cur.col).sched s.cur.wait, 0, s.cur.pos⟩] ∧ (t'.col s.cur.col).stopped = true) ∧
    ∀ g : Group, ∃ s' : State, exec (.hoopOverdue g) s = .next s' ∧ s'.teams.length = s.teams.length ∧
      ∀ u ∈ s.teams, (u.inGroup g = false → u ∈ s'.teams) ∧ (u.inGroup g = true → ∃ v ∈ s'.teams, v.cid = u.cid ∧ v.s = u.s ∧
        v.traps = u.traps ++ [⟨.chn, 0, 6 * 256 + Cause.hoopOverdue.code, u.lastPulse, u.clk, 0, 0⟩])

/-- R174: the pulse of an alignment whose hoops all have the target H, none of them behind its team's BEAT. Every column of
the group that waits in a hoop becomes timed, with its next word scheduled from the beat after the pulse, and the other
columns stay as they are; so does every channel program of the group, from two beats after it; with no team restored, the
participants' dies have BEAT H. If targets differ, or one is behind, every hoop of the group takes the schedule trap with
its own target. A stretch that has been requested comes first (R292). -/
def Obligations.AlignmentPulseStartsItsColumns : Prop :=
  ∀ (s : State) (g : Group),
    (∀ n t, s.kensia.stretchReq = some n → s.team s.cur.cid = some t → exec (.alignmentPulse g) s =
      let s' := s.setTeam { t with pend := insertPend ⟨t.clk, rankLand, s.cur, .alignmentPulse g⟩ t.pend }
      .next { s' with agenda := insertPend ⟨s'.now, 0, Cur.none, .stretch⟩ s'.agenda }) ∧
    (s.kensia.stretchReq = none → ∀ h : Word, (s.groupProgs g ≠ [] → h.getLsbD 0 = false) →
      (∀ q ∈ s.groupProgs g, ∀ x, q.2.st.hoop = some x → x.signal = .none) → (∃ t ∈ s.groupTeams g, t.hoops ≠ []) →
      (∀ t ∈ s.groupTeams g, h.toNat ≥ (s.beatOf t).toNat ∧ ∀ x ∈ t.hoops, x.2.target = h) →
      ∃ s' : State, exec (.alignmentPulse g) s = .next s' ∧ s'.teams.length = s.teams.length ∧
        (∀ t ∈ s.teams, t.inGroup g = false → t ∈ s'.teams) ∧
        (∀ t ∈ s.groupTeams g, ∃ u ∈ s'.teams, u.cid = t.cid ∧ u.lastPulse = h ∧ u.s = t.s ∧ u.spad = t.spad ∧
          ∀ c : Fin 5, if (t.cols[c]).hoop.isSome then (u.cols[c]).hoop = none ∧ (u.cols[c]).timed = true ∧ (u.cols[c]).next = t.clk + 1 ∧
            (u.cols[c]).head = (t.cols[c]).head else u.cols[c] = t.cols[c]) ∧
        (∀ t l, s.groupTeams g = t :: l → ∀ q ∈ s.groupProgs g, ∃ p ∈ s'.pcs, ∃ x, p.pc = q.1.pc ∧ p.prog = some x ∧ x.st.hoop = none ∧
          x.st.timed = true ∧ x.st.next = t.clk + 2 ∧ x.st.head = q.2.st.head ∧ p.t0 = (if q.1.t0 = 0 then t.clk else q.1.t0)) ∧
        ((∀ t ∈ s.groupTeams g, t.delta = 0) → ∀ t ∈ s.groupParts g, dieOf t.cid < 5 → (s'.die (dieOf t.cid)).beat = h)) ∧
    (s.kensia.stretchReq = none → (∃ t ∈ s.groupTeams g, ∃ u ∈ s.groupTeams g, ∃ x ∈ t.hoops, ∃ y ∈ u.hoops, x.2.target ≠ y.2.target) →
      ∃ s' : State, exec (.alignmentPulse g) s = .next s' ∧ s'.mem = s.mem ∧
        (∀ t ∈ s.teams, t.inGroup g = false → t ∈ s'.teams) ∧
        ∀ t ∈ s.groupTeams g, ∃ u ∈ s'.teams, u.cid = t.cid ∧ u.s = t.s ∧ u.traps.length = t.traps.length + t.hoops.length ∧
          ∀ x ∈ t.hoops, ∃ r ∈ u.traps, r.col = x.1 ∧ r.tval = x.2.target ∧ r.cause = tcauseOf x.1 .schedule)

/-- R236, R291, R381, R382, R389: a freeze first lets settle what the cut settles; it then stops every team of its extent that no
handler holds. While a row group waits for Bodkin, its arbitration is due and no handler is entered; with none to arbitrate, a
team of it without a trap or an interrupt stays frozen, and one with a trap pending enters its handler for the trap that comes
first, or else for its interrupt. Teams outside the extent do not stop. -/
def Obligations.FreezeStopsItsExtent : Prop :=
  ∀ (s : State) (g : Group), (s.teams.map (·.cid)).Nodup →
    let ext := s.extent [g] s.teams.length
    let into := fun (t : Team) => ext.contains t.group
    (∀ s', s.settling into = some s' → exec (.freeze g) s = .next s' ∧
      ∀ t ∈ s.teams, ∃ u ∈ s'.teams, u.cid = t.cid ∧ u.frozen = t.frozen ∧ u.s = t.s ∧ u.spad = t.spad ∧ u.pend.length = t.pend.length) ∧
    (s.settling into = none →
      ((∃ t ∈ s.teams, into t = true ∧ t.failedGroup ≠ none) → ∃ s' : State, exec (.freeze g) s = .next s' ∧
        (∀ t ∈ s.teams, into t = false → t ∈ s'.teams) ∧
        (∀ t ∈ s.teams, into t = true → ∃ u ∈ s'.teams, u.cid = t.cid ∧ u.frozen = true ∧ u.handler = t.handler ∧ u.s = t.s ∧
          u.spad = t.spad ∧ u.traps = t.traps) ∧
        (∀ t ∈ s.teams, into t = true → t.failedGroup ≠ none → ∃ e ∈ s'.agenda, e.act = .bodkinArbitration ∧ e.cx.cid = t.cid)) ∧
      ((∀ t ∈ s.teams, into t = true → t.failedGroup = none ∧ t.handler = false ∧ s.stops t = false) →
        ∃ s' : State, exec (.freeze g) s = .next s' ∧
          (∀ t ∈ s.teams, into t = false → t ∈ s'.teams) ∧
          (∀ t ∈ s.teams, into t = true → t.traps = [] → t.takeable = false →
            ∃ u ∈ s'.teams, u.cid = t.cid ∧ u.frozen = true ∧ u.svc = t.svc ∧ u.s = t.s ∧ u.spad = t.spad ∧ u.freezeReq = none) ∧
          (∀ t ∈ s.teams, into t = true →
            let hvec := readNat t.spad (t.tfb.toNat + 0xF8) 8
            hvec ≠ 0 → (t.col .ctl).inRing hvec = true →
            let head := BitVec.ofNat 64 ((t.col .ctl).hoop.elim (t.col .ctl).head (·.pos))
            let enters := fun (cause tval tepc clear : Word) => ∃ u ∈ s'.teams, u.cid = t.cid ∧ u.frozen = true ∧ u.handler = true ∧
              u.svc = true ∧ u.tcause = cause ∧ u.tval = tval ∧ u.tepc = tepc ∧ u.tip = t.tip &&& ~~~clear ∧ (u.col .ctl).head = hvec ∧
              u.traps = []
            (∀ x, firstTrap t.traps = some x →
              enters (BitVec.ofNat 64 x.cause) x.tval (if x.col = .ctl then BitVec.ofNat 64 x.epc else head) 0) ∧
            (∀ k clear, t.traps = [] → t.interrupt = some (k, clear) → enters (intCause k) 0 head clear))))

/-! ## Events of the matrix engines -/

/-- R225, R226, R228, R229, R232, R240: an engine starts its work. A plain mgo within its deadline at an idle engine, whose
checks pass, makes its configuration active; an mgo.quad notes that its engine has reached it, and the quad's common beat is
96 beats after the last of them; a step of a nest or of a mop whose slots are live adds M/16 row groups to the Border, row
group i to complete (i + 1) beats-per-row-group and 24 beats later, and holds the engine for their time; a drain adds its
own. Accumulators, scratchpad and registers stay as they are.
It rests on the model's readings and choices of log 57 and 59. -/
def Obligations.EngineEventsStartTheirWork : Prop :=
  ∀ (s : State) (t : Team) (j : MatJob), s.team s.cur.cid = some t → t.jobOf s.cur.id = some j →
    (∀ g c, j.act = .mgo g → (j.cx.timed = true → t.clk ≤ j.cx.issued + 1 ∧ t.engineIdle j = true) → s.activation t j t = .ok c →
      ∃ t', exec .mgoActivation s = .next (s.setTeam t') ∧ t'.active = some c ∧ t'.acc = t.acc ∧ t'.spad = t.spad ∧ t'.s = t.s ∧
        t'.border = t.border) ∧
    (∀ g, j.act = .mgoQuad g → j.quadAt = none → (j.cx.timed = true → t.engineIdle j = true) →
      let s1 := s.setTeam (t.setJob { j with reach := some t.clk })
      let at_ := fun (u : Team) => match u.quadJob with
        | some i => u.setJob { i with quadAt := some (u.clk + 96) }
        | none => u
      exec .mgoActivation s = .next (if (s1.quad (t.setJob { j with reach := some t.clk })).all fun u => u.quadJob.any fun i => i.reach.isSome
        then (s1.quad (t.setJob { j with reach := some t.clk })).foldl (fun (s : State) u => s.setTeam (at_ u)) s1 else s1)) ∧
    (∀ g q, j.act = .mgoQuad g → j.quadAt = some q → exec .mgoActivation s = .next (s.quadGo t)) ∧
    (∀ p g, s.nextStep t j = some p → s.stepReady t j p = false → j.act = .mgo g → exec .stepStart s = .next (s.failJob t j (.schedule, s.beatOf t))) ∧
    (∀ p g, s.nextStep t j = some p → s.stepReady t j p = true → j.act = .mgo g → s.stepEcc t p j.cfg = none →
      ∃ t', exec .stepStart s = .next (s.setTeam t') ∧
        t'.border.map (fun r => (r.id, r.row, r.complete)) = t.border.map (fun r => (r.id, r.row, r.complete)) ++
          (List.range (fmtM j.cfg.fmt / 16)).map (fun i => (t.nextId + i, i, t.clk + (i + 1) * j.cfg.gt + 24)) ∧
        t'.engineFree = t.clk + fmtM j.cfg.fmt / 16 * j.cfg.gt ∧ t'.acc = t.acc ∧ t'.spad = t.spad ∧ t'.s = t.s) ∧
    (∀ g z ia ib c p c', j.act = .mop g z ia ib → t.active = some c → s.nextStep t j = some p → s.stepReady t j p = true →
      t.granulesBad g.toNat (tileGranules (fmtM c.fmt) (fmtN c.fmt) (fmtAcc c.fmt)) = false → s.mopCfg t c = .ok c' →
      s.stepEcc t p c' = none →
      ∃ t', exec .stepStart s = .next (s.setTeam t') ∧ t'.border.length = t.border.length + fmtM c'.fmt / 16 ∧
        t'.engineFree = t.clk + fmtM c'.fmt / 16 * c'.gt ∧ t'.acc = t.acc ∧ t'.spad = t.spad ∧ t'.s = t.s) ∧
    (let d := t.nextDrain j;
      t.applying d.g (tileGranules d.m d.n d.acc) = false → t.recordsSealed j d = true → t.accEccTrap d.span.1 d.span.2 = none →
      ∀ dst, s.drainTargets t j d = .ok dst → ∃ (s' : State) (t' : Team), exec .drainStart s = .next s' ∧ s'.team s.cur.cid = some t' ∧
        t'.border.length = t.border.length + d.m / 16 + (if d.mode = 1 then 1 else 0) ∧
        t'.engineFree = t.clk + d.m / 16 * drainBeats d.m d.n d.acc dst ∧ t'.acc = t.acc ∧ t'.spad = t.spad ∧ t'.s = t.s ∧
        (j.exit = false → s' = s.setTeam t')) ∧
    (∀ g m n r, j.act = .mdrain g r m n → j.exit = false → s.drainTargets t j (t.nextDrain j) = .ok j.recs ∧ t.recordsSealed j (t.nextDrain j) = true ∧
      (t.nextDrain j).g = g.toNat ∧ (t.nextDrain j).m = 16 * (m.toNat + 1) ∧ (t.nextDrain j).n = 16 * (n.toNat + 1) ∧ (t.nextDrain j).mode = 0)

/-- R233, R235, R236: a row group commits only when both engines' images fold alike. If they do, its values stand in its
accumulator bytes and no other byte of the accumulators changes, or, of a drain into own scratchpad, its bytes stand there and no
accumulator changes; if they do not, nothing commits, and a freeze is requested at this beat. A row group completes once: its values
are computed, and a drain into own scratchpad writes the bytes of the engine at stake, unsealed. -/
def Obligations.RowGroupsCommitOrFreeze : Prop :=
  ∀ (s : State) (t : Team) (r : RowGroup) (id : Nat), s.team s.cur.cid = some t → s.cur.args = [id] → t.rowGroup id = some r →
    let img := wrong r.stake r.image
    (r.done = true → r.committed = false → r.failed = false → r.stake = s.upset t.cid r.id 1 ∨ plait img = plait (wrong (s.upset t.cid r.id 1) r.image) →
      exec .rowGroupCommit s = .next (s.commitGroup t.cid r img (r.complete + 560)) ∧
      ∃ t' : Team, (s.commitGroup t.cid r img (r.complete + 560)).team s.cur.cid = some t' ∧ t'.s = t.s ∧ t'.mexc = t.mexc ||| r.exc.setWidth 64 ∧
        (r.kind ≠ 1 → Memory.wf t.acc = true → readBytes t'.acc r.span.1 img.length = img ∧
          (∀ a, a < r.span.1 ∨ r.span.1 + img.length ≤ a → readByte t'.acc a = readByte t.acc a) ∧ t'.spad = t.spad) ∧
        (r.kind = 1 → t'.acc = t.acc ∧ (r.loc = 0 → Memory.wf t.spad = true → (r.bytes.map (·.1)).Nodup →
          (∀ x ∈ r.bytes.zip img, readByte t'.spad x.1.1 = x.2) ∧ ∀ a, (∀ c ∈ r.bytes, c.1 ≠ a) → readByte t'.spad a = readByte t.spad a) ∧
          (r.loc ≠ 0 → t'.spad = t.spad ∧ ∃ e ∈ t'.pend, e.act = .borderRelease ∧ e.due = max (r.complete + 560) t.clk))) ∧
    (r.done = true → r.committed = false → r.failed = false →
      r.stake ≠ s.upset t.cid r.id 1 → plait img ≠ plait (wrong (s.upset t.cid r.id 1) r.image) →
      ∃ t', exec .rowGroupCommit s = .next (s.setTeam t') ∧ t'.freezeReq = earlier t.freezeReq t.clk ∧ t'.acc = t.acc ∧
        t'.spad = t.spad ∧ t'.mexc = t.mexc ∧ t'.s = t.s) ∧
    (r.done = true → exec .rowGroupComplete s = .next s) ∧
    (r.done = false → let r' := { s.computeGroup t r with done := true, stake := s.upset t.cid r.id 0 }
      (r.kind = 1 ∧ r.loc = 0 → let cells := (r'.bytes.zip (wrong r'.stake r'.image)).map fun x => (x.1.1, x.2, x.1.2.2)
        exec .rowGroupComplete s = .next (s.setTeam ((t.putCells cells).setGroup { r' with saved := t.getCells (r'.bytes.map (·.1)) }))) ∧
      (¬ (r.kind = 1 ∧ r.loc = 0) → exec .rowGroupComplete s = .next (s.setTeam (t.setGroup r'))) ∧
      r'.committed = r.committed ∧ r'.done = true)

/-- R234, R236, R243, R245, R246: a drain's row group that is bound for another core, or for global memory, sends its bytes
at its release, and its word performs when they have landed; one that has performed leaves the Border; a contribution in its
turn is taken into the inbox, one before its turn is held, and any other raises the reduction-order fault; its row group is
applied 24 beats later; and where one engine of the two agrees with Bodkin, the arbitration commits the agreed image.
It rests on the model's readings and choices of log 54, 55 and 60. -/
def Obligations.BorderEventsComplete : Prop :=
  ∀ (s : State) (t : Team), s.team s.cur.cid = some t →
    (∀ id r, s.cur.args.headD 0 = id → t.rowGroup id = some r → s.cur.phase ≠ .perform →
      let delay := crossDelay t.cid r.core
      let later := fun (s1 : State) (u : Team) (n : Nat) =>
        s1.setTeam { u with pend := insertPend ⟨u.clk + n, rankOf .mat, { s1.cur with phase := .perform }, .borderRelease⟩ u.pend }
      (r.loc = 2 → ∀ s1, s.storeMapped t .mat r.bytes r.pages = .ok s1 → exec .borderRelease s = .next (s1.releaseDone t.cid id)) ∧
      (r.loc = 2 → ∀ e, s.storeMapped t .mat r.bytes r.pages = .error e → exec .borderRelease s =
        .next ((s.releaseDone t.cid id).raiseAt t r.cx e.1 e.2 r.cx.pos)) ∧
      (r.loc = 1 → let s1 := s.sendSector r.core delay r.cx ⟨r.bytes, s.cur.args.getD 1 r.complete, t.cid, r.step, .mat, 0, true, r.cx.timed, [], []⟩
        ∀ u, s1.team t.cid = some u → exec .borderRelease s = .next (later s1 u (delay + 4 * ((r.bytes.length + 255) / 256 - 1)))) ∧
      (r.loc ≠ 1 → r.loc ≠ 2 →
        let c : Contribution := ⟨t.cid, r.seq, r.acc, r.m, r.n, r.row, r.vals, r.taint⟩
        let s1 := s.sendTo r.core delay rankLand { r.cx with cid := r.core, args := [t.cid, r.step] } (.peerAddArrival c)
        ∀ u, s1.team t.cid = some u → exec .borderRelease s = .next (later s1 u delay))) ∧
    (∀ id r, s.cur.args.headD 0 = id → t.rowGroup id = some r → s.cur.phase = .perform →
      ∃ t', exec .borderRelease s = .next (s.setTeam t') ∧ (∀ x, t'.rowGroup id = some x → x.released = true) ∧ t'.acc = t.acc ∧
        t'.spad = t.spad ∧ t'.s = t.s) ∧
    (∀ (c : Contribution) (x y : Nat), s.cur.args = [x, y] →
      let k := t.inbox
      let u := t.arrived x y
      (k.active = true → (c.acc, c.m, c.n) = k.shape → c.seq = k.seq → k.busy = false ∨ (k.row ≤ c.row ∧ ∀ e ∈ k.rows, e.row ≠ c.row) →
        exec (.peerAddArrival c) s = .next (s.setTeam { u with inbox := { k with rows := k.rows ++ [c], busy := true } })) ∧
      (k.active = false ∨ ((c.acc, c.m, c.n) = k.shape ∧ c.seq ≠ k.seq) → c.seq ∉ k.applied →
        (∀ e l, k.early = e :: l → e.seq = c.seq ∧ e.sender = c.sender) →
        exec (.peerAddArrival c) s = .next (s.setTeam { u with inbox := { k with early := k.early ++ [c] } })) ∧
      (k.active = true ∧ (c.acc, c.m, c.n) ≠ k.shape → exec (.peerAddArrival c) s = .next (s.setTeam (u.orderFault c))) ∧
      u = { t with inbound := u.inbound }) ∧
    (∀ c, t.applyDue = some c → t.accEccTrap (65536 * t.inbox.g + 16 * c.row * c.n * accBytes c.acc) (16 * c.n * accBytes c.acc) = none →
      ∃ t', exec .peerAddApply s = .next (s.setTeam t') ∧ t'.border.length = t.border.length + 1 ∧
      (∃ e ∈ t'.pend, e.act = .rowGroupComplete ∧ e.due = t.clk + 24) ∧ t'.inbox.row = t.inbox.row + 1 ∧ t'.acc = t.acc ∧ t'.s = t.s) ∧
    (t.failedGroup = none → exec .bodkinArbitration s = .next s) ∧
    (∀ r, t.failedGroup = some r → let s1 := (s.arbitrate t.cid r.id).redo t.cid ((t.dependents r.id).filter (· != r.id))
      ∀ u, s1.team t.cid = some u → exec .bodkinArbitration s = .next (if u.failedGroup = none then s1 else
        { s1 with agenda := insertPend ⟨s1.now + u.bodkinBeats, 0, { Cur.none with cid := u.cid }, .bodkinArbitration⟩ s1.agenda })) ∧
    ∀ r, t.failedGroup = some r → t.rowGroup r.id = some r → t.border = [r] → r.kind = 0 → t.jobOf r.job = none →
      s.upset t.cid r.id 1 = 0 → s.upset t.cid r.id 2 = 0 → wrong r.stake r.image ≠ r.image → Memory.wf t.acc = true →
      ∃ (s' : State) (t' : Team), exec .bodkinArbitration s = .next s' ∧ s'.team t.cid = some t' ∧
        readBytes t'.acc r.span.1 r.image.length = r.image ∧
        (∀ a, a < r.span.1 ∨ r.span.1 + r.image.length ≤ a → readByte t'.acc a = readByte t.acc a) ∧ t'.spad = t.spad ∧ t'.s = t.s

/-! ## Events of the dispatcher -/

/-- R363, R412: an entry of a host queue that can be read is taken: HEAD moves on by one. A good kind-0 entry submits
nothing; a kind above 2 or another bad field gives a record of status 2; a kind-1 entry opens a graph of its job. -/
def Sys2Proof.HostQueueEntriesAreTaken : Prop :=
  ∀ (s : State) (q : Fin 64) (e : List Word), s.cur.args = [q.val] → s.queueReads q = true → s.nextEntry q = .ok e →
    let kind := fld (e.getD 0 0).toNat 0 8
    (kind = 0 ∨ 3 ≤ kind → ∃ s' : State, exec .hostQueueEntryNop s = .next s' ∧ (s'.queues[q]).qhead = ((s.queues[q]).qhead + 1) % 2 ^ 32 ∧
      s'.mem = s.mem ∧ s'.teams = s.teams ∧ s'.launches = s.launches ∧
      (entryOff e = none → (s'.queues[q]).pendRecs = (s.queues[q]).pendRecs) ∧
      (∀ o, entryOff e = some o → (s'.queues[q]).pendRecs = (s.queues[q]).pendRecs ++ [(0, recordWords
        (BitVec.ofNat 64 ((s.queues[q]).job * 2 ^ 32)) 2 false (fld (e.getD 0 0).toNat 16 16) 0 ((s.queues[q]).openGraph.getD 0) o 0)])) ∧
    (∀ p ∈ [(Instr.hostQueueEntryOpenGraph, 1), (.hostQueueEntryAdd, 2)], kind = p.2 → ∀ o, entryOff e = some o →
      ∃ s' : State, exec p.1 s = .next s' ∧ (s'.queues[q]).qhead = ((s.queues[q]).qhead + 1) % 2 ^ 32 ∧ s'.mem = s.mem ∧
        s'.teams = s.teams ∧ s'.launches = s.launches ∧ (s'.queues[q]).pendRecs.length = (s.queues[q]).pendRecs.length + 1) ∧
    ((e.getD 0 0).getLsbD 8 = false → entryOff e = none → ∀ p, s.vdwords (s.queues[q]).job (fld (e.getD 1 0).toNat 0 55) 32 = .ok p →
      ∀ i ∈ [(Instr.hostQueueEntryOpenGraph, 1), (.hostQueueEntryAdd, 2)], kind = i.2 →
      ∃ s' : State, exec i.1 s = .next s' ∧ (s'.queues[q]).qhead = ((s.queues[q]).qhead + 1) % 2 ^ 32 ∧
        (s'.launches.length = s.launches.length + 1 ∨ s'.launches = s.launches) ∧ (i.2 = 1 → s'.graphs.length = s.graphs.length + 1))

/-- R362, R363, R278, R364: a good kind-2 entry adds its launch to the graph that is open in its queue; a kind-1 entry, or a
kind-2 one of a queue with none open, opens a new graph for it. Where the packet passes the checks, and no other source has
submitted in a watched phase of the job, the launch joins the scoreboard, waiting, with the job's next ordinal, its phase,
and the entry's tag, and its dependences are looked at on this beat; where the packet fails a check, a record of status 2
names the field, and one of status 3 the byte of a packet that cannot be read. CLOSE closes the graph. -/
def Sys2Proof.EntriesSubmitTheirLaunch : Prop :=
  ∀ (s : State) (q : Fin 64) (e : List Word) (i : Instr) (s1 : State) (g : Nat), s.cur.args = [q.val] → s.queueReads q = true →
    s.nextEntry q = .ok e → entryOff e = none →
    let x := s.queues[q]
    let kind := fld (e.getD 0 0).toNat 0 8
    let s0 := s.setQueue q { x with qhead := (x.qhead + 1) % 2 ^ 32 }
    (i = .hostQueueEntryAdd ∧ kind = 2 ∧ x.openGraph = some g ∧ s1 = s0) ∨
      (((i = .hostQueueEntryOpenGraph ∧ kind = 1) ∨ (i = .hostQueueEntryAdd ∧ kind = 2 ∧ x.openGraph = none)) ∧ s0.openGraph q x.job = (s1, g)) →
    let svc := x.qctl.getLsbD 4
    let tag := fld (e.getD 0 0).toNat 16 16
    let va := fld (e.getD 1 0).toNat 0 55
    (∀ f, s1.vdwords x.job va 32 = .error f → ∃ s' : State, exec i s = .next s' ∧ s'.launches = s.launches ∧ s'.mem = s.mem ∧
      s'.teams = s.teams ∧ (s'.queues[q]).qhead = (x.qhead + 1) % 2 ^ 32 ∧
      (s'.queues[q]).pendRecs = x.pendRecs ++ [(0, recordWords (BitVec.ofNat 64 (x.job * 2 ^ 32)) 3 false tag 0 g (f.2.toNat - va) 0)]) ∧
    ∀ p, s1.vdwords x.job va 32 = .ok p →
    let tables := s1.readTables x.job p
    (∀ j, (s1.withJob x.job).job x.job = some j → (s1.withJob x.job).packetOff x.job svc p tables = none →
      (j.watched = false ∧ packetDet p ≠ 1 ∧ packetDet p ≠ 2) ∨ (∀ y ∈ j.sources, y = q.val) →
      ∃ (s' : State) (l : Launch), exec i s = .next s' ∧ s'.launches = s.launches ++ [l] ∧
        l.state = .waiting ∧ l.job = x.job ∧ l.ord = j.nextOrd ∧ l.phase = j.phase ∧ l.graph = g ∧ l.queue = some q.val ∧ l.tag = tag ∧
        l.pkt = p ∧ (∃ y ∈ s'.agenda, y.act = .dependencePoll ∧ y.due = s.now) ∧
        (s'.queues[q]).qhead = (x.qhead + 1) % 2 ^ 32 ∧ (s'.queues[q]).pendRecs = x.pendRecs ∧
        (s'.queues[q]).openGraph = (if (e.getD 0 0).getLsbD 8 then none else some g) ∧ s'.mem = s.mem ∧ s'.host = s.host ∧
        s'.teams = s.teams) ∧
    ∀ off, (s1.withJob x.job).packetOff x.job svc p tables = some off →
      ∃ s' : State, exec i s = .next s' ∧ s'.launches = s.launches ∧ (s'.queues[q]).qhead = (x.qhead + 1) % 2 ^ 32 ∧
        (s'.queues[q]).pendRecs = x.pendRecs ++ [(0, recordWords (BitVec.ofNat 64 (x.job * 2 ^ 32)) 2 false tag 0 g off 0)] ∧
        s'.mem = s.mem ∧ s'.teams = s.teams

/-- R365, R366, R367, R281, R282: the dispatcher's polls and placements. A launch whose dependences hold becomes READY, one
with a word that cannot be read ends with status 6, and while one waits the words are looked at again within 10
microseconds; the dispatcher's choice is placed or ends, with status 3 if its set-up cannot be read; a gang start lets every
team of its launch run, the launch RUNNING, or DRAINING where its drain began in set-up. -/
def Sys2Proof.LaunchesStart : Prop :=
  (∀ (s : State) (l : Launch), s.launches = [l] → l.state = .waiting → s.depsHold l = some true →
    ∃ s' : State, exec .dependencePoll s = .next s' ∧ s'.launches = [{ l with state := .ready }] ∧ s'.mem = s.mem ∧ s'.teams = s.teams) ∧
  (∀ s : State,
    let s1 := (s.launches.filter fun l => l.state = .waiting).foldl (fun (s : State) l => match s.depsHold l with
      | none => s.completeLaunch l.handle 6
      | some true => s.modLaunch l.handle fun x => { x with state := .ready }
      | some false => s) s
    ((∃ l ∈ s1.launches, l.state = .waiting) → (∀ e ∈ s1.agenda, e.act ≠ .dependencePoll) →
      exec .dependencePoll s = .next (s1.plan (s1.now + s1.beatsOfNs 10000) 0 [] .dependencePoll)) ∧
    ((∀ l ∈ s1.launches, l.state ≠ .waiting) ∨ (∃ e ∈ s1.agenda, e.act = .dependencePoll) → exec .dependencePoll s = .next s1)) ∧
  (∀ s : State, s.choose = none → exec .dispatchPlace s = .next s) ∧
  (∀ (s : State) (h status : Nat), s.choose = some (.finish h status) → exec .dispatchPlace s = .next (s.completeLaunch h status)) ∧
  (∀ (s : State) (l : Launch) (org : Nat × Nat × Nat), s.choose = some (.place l.handle org) → s.launch l.handle = some l →
    let s1 : State := { s with free := s.free + 1 }
    (l.state = .saved → exec .dispatchPlace s = .next ((s1.modLaunch l.handle fun l => { l with state := .setup, drain := none }).plan
      (s.now + Config.setupBeats s.free + 512) 0 [l.handle] .restore)) ∧
    (l.state ≠ .saved → ∀ off, l.unread = some off ∨ (l.unread = none ∧ (s1.setupSpad l = .error off ∨
      ∃ m, s1.setupSpad l = .ok m ∧ s1.setupProgs l org = .error off)) → exec .dispatchPlace s = .next (s1.setupFault l.handle off))) ∧
  (∀ (s : State) (l : Launch) (org : Nat × Nat × Nat) (m : List Host.Cell) (ps : List Pc), s.choose = some (.place l.handle org) →
    s.launch l.handle = some l → l.state = .ready → l.unread = none →
    State.setupSpad { s with free := s.free + 1 } l = .ok m → State.setupProgs { s with free := s.free + 1 } l org = .ok ps →
    ∃ s' : State, exec .dispatchPlace s = .next s' ∧ s'.mem = s.mem ∧ s'.teams = s.teams ∧
      ∃ l', s'.launch l.handle = some l' ∧ l'.state = .setup ∧ l'.cids = patchAt (packetExt l.pkt) org ∧
        l'.savedTeams.length = (packetExt l.pkt).1 * (packetExt l.pkt).2.1 * (packetExt l.pkt).2.2 ∧
        (∀ t ∈ l'.savedTeams, t.launch = l.handle ∧ t.job = l.job ∧ t.spad = m ∧ t.svc = false ∧ (∀ r, t.getS r = ⟨0, false⟩) ∧
          t.timecmp = BitVec.allOnes 64 ∧ ∀ c : Fin 5, (t.cols[c]).head = 0 ∧ (t.cols[c]).timed = false)) ∧
  ∀ (s : State) (l : Launch) (h : Nat), s.cur.args = [h] → s.launch h = some l → l.state = .setup → l.cut = none →
    ((s.teams ++ l.savedTeams).map (·.cid)).Nodup →
    ∃ s' : State, exec .gangStart s = .next s' ∧
      (∃ l', s'.launch h = some l' ∧ l'.state = (if l.drain = none then .running else .draining) ∧ l'.savedTeams = []) ∧
      ∀ t ∈ s.teams ++ l.savedTeams, ∃ u ∈ s'.teams, u.cid = t.cid ∧ u.s = t.s ∧ u.spad = t.spad ∧ u.cols = t.cols

/-- R360, R361, R369, R172: a launch whose streams have ended, or whose cut has come, completes: its teams are gone, no
pseudo-channel holds its programs, and if its entry stays, it is DONE. -/
def Sys2Proof.LaunchesComplete : Prop :=
  ∀ (s : State) (l : Launch) (h : Nat), s.cur.args = [h] → s.launch h = some l → l.state ≠ .done →
    (s.teams.map (·.cid)).Nodup → ∀ i, (i = Instr.launchComplete ∧ s.finished l = true) ∨ (i = .cancelCut ∧ l.cut.isSome) →
    ∃ s' : State, exec i s = .next s' ∧ (∀ t ∈ s'.teams, t.launch ≠ h) ∧ (∀ t ∈ s.teams, t.launch ≠ h → ∃ u ∈ s'.teams, u.cid = t.cid ∧
      u.s = t.s ∧ u.spad = t.spad) ∧ (∀ p ∈ s'.pcs, ∀ g, p.prog = some g → g.launch ≠ h) ∧
      (∀ x, s'.launch h = some x → x.state = .done) ∧ (∀ x ∈ s.launches, x.handle ≠ h → x.handle ∈ s'.launches.map (·.handle)) ∧
      ∃ e ∈ s'.agenda, e.act = .dependencePoll ∧ e.due = s.now

/-- R370, R371, R381, R391 to R394: drains, saves and restores. A drain that begins makes each running launch asked for
DRAINING, leaves one in set-up there, and has its forced save due at the limit; a forced save with a context image takes the
launch's teams away as they stand, with their registers and scratchpad, once Bodkin has arbitrated and what the cut settles
has settled, and with none cancels the launch; one that finds its launch in set-up drops the set-up, and the launch waits
for a place again; a restore brings the teams back; and the window of a reservation begins the drains of the launches inside
it.
It rests on the model's readings and choices of log 93 and 97. -/
def Obligations.DrainsSavesAndRestores : Prop :=
  (∀ s : State, ∀ p ∈ [(Instr.drainBegin, s.needsDrained ++ s.inReserved), (.reservationWindowStart, s.inReserved)],
    ∃ s' : State, exec p.1 s = .next s' ∧ s'.teams = s.teams ∧ s'.mem = s.mem ∧
      ∀ h ∈ p.2, ∀ l, s.launch h = some l → l.state = .running ∨ l.state = .setup → l.cut = none → l.drain = none →
        (∃ l', s'.launch h = some l' ∧ l'.state = (if l.state = .running then .draining else .setup) ∧ l'.drain = some s.now) ∧
        ∃ e ∈ s'.agenda, e.act = .forcedSave ∧ e.cx.args = [h] ∧ e.due = s.now + s.drainBeats + 512) ∧
  (∀ s : State, exec .reservationWindowEnd s = .next s) ∧
  (∀ (s : State) (l : Launch) (h : Nat), s.cur.args = [h] → s.launch h = some l → l.state = .draining → l.cut = none → l.drain.isSome →
    (l.image = none → exec .forcedSave s = .next (s.completeLaunch h 1)) ∧
    (l.image.isSome → s.arbitrates h = true → ∃ s' : State, exec .forcedSave s = .next s' ∧ s'.teams = s.teams ∧ s'.mem = s.mem ∧
      ∃ e ∈ s'.agenda, e.act = .forcedSave ∧ e.cx.args = [h] ∧ e.due = s.now + 1) ∧
    (l.image.isSome → s.arbitrates h = false → ∀ s1, s.settling (fun t => t.launch = h) = some s1 →
      exec .forcedSave s = .next (s1.plan s1.now 0 [h] .forcedSave))) ∧
  (∀ (s : State) (l : Launch) (h : Nat), s.cur.args = [h] → s.launch h = some l → l.state = .setup → l.cut = none → l.drain.isSome →
    (∀ e ∈ s.agenda, e.cx.args = [h] → e.act ≠ .restore) →
    ∃ (s' : State) (l' : Launch), exec .forcedSave s = .next s' ∧ s'.launch h = some l' ∧ l'.state = .ready ∧ l'.drain = none ∧
      l'.cids = [] ∧ l'.savedTeams = [] ∧ s'.teams = s.teams ∧ s'.mem = s.mem ∧
      ∀ e ∈ s'.agenda, e.cx.args = [h] → e.act ≠ .gangStart) ∧
  (∀ (s : State) (l : Launch) (h : Nat), s.cur.args = [h] → s.launch h = some l → l.state = .draining → l.cut = none → l.image.isSome →
    l.drain.isSome → s.arbitrates h = false → s.settling (fun t => t.launch = h) = none → (s.teams.map (·.cid)).Nodup →
    ∃ (s' : State) (l' : Launch), exec .forcedSave s = .next s' ∧ s'.launch h = some l' ∧ l'.state = .saved ∧
      (∀ t ∈ s'.teams, t.launch ≠ h) ∧ l'.savedTeams.length = (s.teams.filter fun t => t.launch = h).length ∧
      (∀ t ∈ s.teams, t.launch = h → ∃ u ∈ l'.savedTeams, u.cid = t.cid ∧ u.s = t.s ∧ u.a = t.a ∧ u.v = t.v ∧ u.spad = t.spad ∧
        u.acc = t.acc ∧ u.cols = t.cols ∧ u.cache = [])) ∧
  ∀ (s : State) (l : Launch) (h : Nat), s.cur.args = [h] → s.launch h = some l → l.state = .setup → l.cut = none →
    ∃ (s' : State) (l' : Launch), exec .restore s = .next s' ∧ s'.launch h = some l' ∧
      l'.state = (if l.drain = none then .running else .draining) ∧
      (∀ t ∈ s.teams, t ∈ s'.teams) ∧ ∀ t ∈ l.savedTeams, ∃ u ∈ s'.teams, u.cid = t.cid ∧ u.s = t.s ∧ u.a = t.a ∧ u.v = t.v ∧
        u.spad = t.spad ∧ u.acc = t.acc

/-- R413: the oldest completion record of a queue is written where the event queue names, 32 bytes at EQBASE + 32 times the
count modulo the size, the count goes to EQTA and rises by one, and the record leaves the queue. One that would lie in a
peer's memory faults the queue instead (R412, R414). -/
def Sys2Proof.EventRecordsAreWritten : Prop :=
  ∀ (s : State) (q : Fin 64) (r : Nat × List Word) (rest : List (Nat × List Word)), s.cur.args = [q.val] → s.recordReady q = true →
    (s.queues[q]).pendRecs = r :: rest →
    let x := s.queues[q]
    let at_ := x.eqbase.toNat + 32 * (x.eqt % 2 ^ x.eqsize)
    let open_ := s.queueOk x.job false at_ 32 && s.queueOk x.job false x.eqta.toNat 8
    (open_ = false → exec .eventRecordWrite s = .next (s.setQueue q { x.fault with held := true })) ∧
    ∀ s1 s2 : State, open_ = true → s.vwrite x.job (x.eqbase.toNat + 32 * (x.eqt % 2 ^ x.eqsize)) (r.2.flatMap fun w => bytesOf w.toNat 8) = .ok s1 →
      s1.vwrite x.job x.eqta.toNat (bytesOf (x.eqt + 1) 8) = .ok s2 →
      ∃ s' : State, exec .eventRecordWrite s = .next s' ∧ s'.mem = s2.mem ∧ s'.host = s2.host ∧ (s'.queues[q]).pendRecs = rest ∧
        (s'.queues[q]).eqt = x.eqt + 1 ∧ (∀ p : Fin 64, p ≠ q → s'.queues[p] = s2.queues[p]) ∧
        ∀ l ∈ s'.launches, l.handle = r.1 → l.state ≠ .done

/-! ## Events beyond the package -/

/-- R266, R325, R330, R417: a DMA copy of a program is made at its completion. A host request, or a peer's with a partner
attached, that has a route, no earlier request that orders it, and nothing left for the demand sequencers to serve, ends
with what its copy finds: the record is written and the request leaves the team and the fabric; a conflict of a strict
launch traps in its team instead. A copy from device memory to one range of host memory leaves the bytes of its source
there, and no other byte of host memory changes. -/
def Sys2Proof.DmaCopiesComplete : Prop :=
  ∀ (s : State) (f : FabReq) (t : Team) (r : CpxReq), s.curReq = some f → s.reqHome f = .live t r → r.engine ≤ 1 → s.engineLost f = false →
    (r.engine = 1 → s.anyPartner = true) → s.cpxBefore t r = false → s.reqQueued t r = false → s.reqFilling t r = false →
    (s.cur.phase = .perform ∨ s.reqAsks t r = []) →
    let d := natOfBytes r.desc
    (∀ st exc tn s1 u, s.dmaCopy t (r.engine + 1) d = .ok (st, exc, tn, s1) → s1.team t.cid = some u →
      exec .cpxComplete s = .next ((s1.endCpx u r st exc tn).dropReq f)) ∧
    (∀ e, s.dmaCopy t (r.engine + 1) d = .error e → ∃ (s' : State) (t' : Team), exec .cpxComplete s = .next s' ∧
      s'.team t.cid = some t' ∧ t'.traps.map (fun x => (x.cause, x.tval)) = t.traps.map (fun x => (x.cause, x.tval)) ++ [(tcauseOf .cpy e.1, e.2)] ∧
      t'.cpx = t.cpx ∧ s'.host = s.host ∧ ∃ y ∈ s'.agenda, y.act = .cpxComplete ∧ y.cx.id = s.cur.id) ∧
    ∀ (p q : Piece) (rt : Bool) (s1 : State), r.engine = 0 →
      s.extEnds t.job (cpxFld d 2 0 64) (cpxFld d 4 0 64) (cpxFld d 3 0 64) (cpxFld d 4 0 64)
        (fun x y => (x = 1 && y = 0) || (x = 0 && y = 1)) = .ok ([p], [q]) →
      p.leaf.tgt = 0 → q.leaf.tgt = 1 → p.n = q.n → s.judgedExt t .read [p] = .ok ([(p, allBits p.n)], rt, s1) → Memory.wf s.host = true →
      let a := cpxFld d 1 0 21
      t.landTrap t.cid ((List.range 32).map (a + ·)) = none → r.cx.col = .cpy → Memory.wf t.spad = true →
      ∃ (s' : State) (t' : Team), exec .cpxComplete s = .next s' ∧ readBytes s'.host q.leaf.pa q.n = s.pieceBytes p ∧
        (∀ b, b < q.leaf.pa ∨ q.leaf.pa + q.n ≤ b → readByte s'.host b = readByte s.host b) ∧ s'.team t.cid = some t' ∧
        readNat t'.spad a 32 % 2 ^ 128 = 0 ∧ (∀ x ∈ t'.cpx, x.id ≠ r.id) ∧ (∀ x ∈ s'.fabric, x.id ≠ f.id) ∧ t'.s = t.s

/-- R266, R416, R417, R421: requests of the programs end. A request at the fabric whose team is at work, with no earlier
request of the team that orders it and nothing of it left for the demand sequencers, ends where it is answered: with no
route, or a peer's with no partner, status 3; after its time, status 3, or 4 where its die was reset; a response with a
status other than 0, that status. Its record of 32 bytes stands in the scratchpad, and the request leaves the team and the
fabric. A response with another count of resets than its die's is counted and dropped, and one of no request is dropped; any other
response ends its request with what its engine finds. A request whose team is away is made again later, and one whose team is gone
leaves the fabric. A die's reset raises its count, and ends a request of the die with status 4. -/
def Sys2Proof.FabricEventsComplete : Prop :=
  (∀ (s : State) (f : FabReq) (t : Team) (r : CpxReq), s.fabric.find? (fun x => x.id = f.id) = some f → s.curReq = some f →
    s.reqHome f = .live t r → s.cpxBefore t r = false → let a := cpxFld (natOfBytes r.desc) 1 0 21
    t.landTrap t.cid ((List.range 32).map (a + ·)) = none → r.cx.col = .cpy → Memory.wf t.spad = true →
    ∀ p ∈ [(Instr.cpxComplete, 3, decide (s.engineLost f = true ∨ (r.engine = 1 ∧ s.anyPartner = false))),
           (.fabricTimeout, if f.die = 9 then 4 else 3, true),
           (.fabricResponse f.id (s.resetsOf (f.id % 8)) 5 [], 5, true)], p.2.2 = true →
      (p.1 = .cpxComplete → s.reqQueued t r = false ∧ s.reqFilling t r = false ∧ (s.cur.phase = .perform ∨ s.reqAsks t r = [])) →
      ∃ (s' : State) (t' : Team), exec p.1 s = .next s' ∧ s'.team t.cid = some t' ∧ readNat t'.spad a 32 = p.2.1 ∧
        (∀ b, b < a ∨ a + 32 ≤ b → readByte t'.spad b = readByte t.spad b) ∧ (∀ x ∈ t'.cpx, x.id ≠ r.id) ∧
        (∀ x ∈ s'.fabric, x.id ≠ f.id) ∧ t'.s = t.s) ∧
  (∀ (s : State) (id epoch status : Nat) (data : List Byte), epoch ≠ s.resetsOf (id % 8) →
    ∃ s' : State, exec (.fabricResponse id epoch status data) s = .next s' ∧ s'.mem = s.mem ∧ s'.teams = s.teams ∧ s'.fabric = s.fabric ∧
      ∀ d : Fin 8, s'.stale[d] = s.stale[d] + (if d.val = id % 8 then 1 else 0)) ∧
  (∀ (s : State) (f : FabReq) (t : Team) (r : CpxReq) (data : List Byte), s.fabric.find? (fun x => x.id = f.id) = some f →
    s.reqHome f = .live t r → s.engineLost f = false → s.cpxBefore t r = false → s.reqQueued t r = false → s.reqFilling t r = false →
    (s.cur.phase = .perform ∨ s.reqAsks t r = []) →
    let d := natOfBytes r.desc
    ∀ st exc tn s1 u, (if r.engine = 2 then s.collect t d data else s.dmaCopy t (r.engine + 1) d) = .ok (st, exc, tn, s1) →
      s1.team t.cid = some u → exec (.fabricResponse f.id (s.resetsOf (f.id % 8)) 0 data) s = .next ((s1.endCpx u r st exc tn).dropReq f)) ∧
  (∀ (s : State) (f : FabReq) (status : Nat) (data : List Byte), s.fabric.find? (fun x => x.id = f.id) = some f → s.curReq = some f →
    ∀ i ∈ [Instr.cpxComplete, .fabricTimeout, .fabricResponse f.id (s.resetsOf (f.id % 8)) status data],
      (s.reqHome f = .gone → exec i s = .next (s.dropReq f)) ∧
      (s.reqHome f = .away → exec i s = .next (s.tryLater ⟨0, 0, s.cur, i⟩ s.cur.phase))) ∧
  (∀ (s : State) (id epoch status : Nat) (data : List Byte), (∀ f ∈ s.fabric, f.id ≠ id) → epoch = s.resetsOf (id % 8) →
    exec (.fabricResponse id epoch status data) s = .next s) ∧
  (∀ s : State, s.curReq = none → exec .cpxComplete s = .next s ∧ exec .fabricTimeout s = .next s) ∧
  ∀ (s : State) (d : Nat), s.cur.args = [d] →
    let s1 : State := { s with resets := s.resets.set (d % 8) ((s.resetsOf d + 1) % 256) (Nat.mod_lt _ (by decide)) }
    let hit := fun (f : FabReq) => f.die = d % 8 ∨ s.kensia.remapDie[dieFin (dieOf f.cid)] = d % 8
    ((∀ f ∈ s.fabric, ¬ hit f) → exec .dieReset s = .next s1) ∧
    ∀ f, s.fabric = [f] → hit f →
      (∀ t r, s1.reqHome f = .live t r → exec .dieReset s = .next ((s1.endCpx t r 4 0 false).dropReq f)) ∧
      (s1.reqHome f = .gone → exec .dieReset s = .next (s1.dropReq f)) ∧
      (s1.reqHome f = .away → ∃ s' : State, exec .dieReset s = .next s' ∧ s'.teams = s.teams ∧ s'.mem = s.mem ∧ s'.fabric = [{ f with die := 9 }] ∧
        ∃ e ∈ s'.agenda, e.act = .fabricTimeout ∧ e.cx.cid = f.cid ∧ e.cx.id = f.req)

/-- R410, R419, R420, R433: a Reedlink frame with a CRC error is a check event on its lane, and it is retried. A frame of a minor
version above the agreed one is dropped and counted, and so is one on a port, or for a port, that is down or has no partner. One
for this device is delivered as its destination takes it; one that goes on is sent as it is where the next partner takes its code,
and else with every block expanded, as code 3. A partner of major version 1 attaches to a live port with its minor version and
codes, in the place of the one before it; any other does not. -/
def Sys2Proof.LinkFramesGoOn : Prop :=
  ∀ s : State,
    (∀ x : LinkUnits,
      let s1 := match x.crc with
        | some lane => s.checkEvent ⟨2, 128 + 8 * (x.port % 16) + lane % 8⟩ 0x1A none 0 0
        | none => s
      let live := fun (p : Nat) => s.kensia.portDown p = false ∧ ∃ q ∈ s.partners, q.1 = p
      let agreed := x.minor ≤ fld (s.vers[3]).toNat 16 8
      ((¬ agreed ∨ ¬ live x.port ∨ ∃ q, x.out = some q ∧ ¬ live q) → exec (.linkFrame x) s = .next { s1 with linkDrops := s.linkDrops + 1 }) ∧
      (agreed → live x.port → x.out = none → x.dest = none →
        exec (.linkFrame x) s = .next { s1 with linkIn := s.linkIn ++ [(x.port, x.code, x.payload)] }) ∧
      (∀ d, agreed → live x.port → x.out = none → x.dest = some d → ∃ c l,
        exec (.linkFrame x) s = .next { s1 with linkIn := s.linkIn ++ [(x.port, c, l)] } ∧
        let own := if d.ty = .q4 then 1 else if d.ty = .c4 then 2 else 0
        ((x.code = 0 ∨ (x.code = own ∧ d.tscale = x.tscale ∧ (own = 1 ∨ d.book = x.book))) → c = x.code ∧ l = x.payload) ∧
        (¬ (x.code = 0 ∨ (x.code = own ∧ d.tscale = x.tscale ∧ (own = 1 ∨ d.book = x.book))) →
          c = own ∧ l = arriveAll x.code (f32V x.tscale.toNat) x.book d x.payload.length x.payload)) ∧
      (∀ q, agreed → live x.port → x.out = some q → live q →
        (s.accepts q x.code = true → exec (.linkFrame x) s = .next { s1 with linkOut := s.linkOut ++ [(q, x.code, x.payload)] }) ∧
        (s.accepts q x.code = false → exec (.linkFrame x) s =
          .next { s1 with linkOut := s.linkOut ++ [(q, 3, expandAll x.code (f32V x.tscale.toNat) x.book x.payload.length x.payload)] }))) ∧
    ∀ port major minor codes : Nat,
      (major = 1 → port < 16 → s.kensia.portDown port = false → exec (.partnerAttach port major minor codes) s =
        .next { s with partners := (s.partners.filter fun p => p.1 != port) ++ [(port, minor, codes % 4)] }) ∧
      ((major ≠ 1 ∨ 16 ≤ port ∨ s.kensia.portDown port = true) → exec (.partnerAttach port major minor codes) s = .next s)

/-- R344, R402, R409, R451, R460: a host's write that its window reaches lands in device memory and nowhere else, and its
read gets the bytes, or nothing where a unit of them is poisoned; one that reaches no memory, or before the functions
attach, changes nothing. PTM sets the target of NSCNT's slewing; a walk of the records drops those of no phase; a walk of
the tables brings the leaf that it finds into a TLB, if it passes the checks of the access, and of memory only corrects what
ECC can correct on its way. -/
def Sys2Proof.OutsideEventsComplete : Prop :=
  ∀ s : State,
    (∀ (pa len : Nat),
      let reaches := s.kensia.step = 6 ∧ s.rangeOk pa len = true ∧
        pa + len ≤ (if s.kensia.cxl[0] = true ∨ s.kensia.cxl[1] = true then 2 ^ 51 else 2 ^ 36)
      (∀ data : List Byte, data.length = len → reaches → Memory.wf s.mem = true →
        ∃ s' : State, exec (.hostMemoryAccess pa 0 (some data)) s = .next s' ∧
          readBytes s'.mem pa data.length = data ∧ (∀ a, a < pa ∨ pa + data.length ≤ a → readByte s'.mem a = readByte s.mem a) ∧
          s'.teams = s.teams ∧ s'.kensia = s.kensia ∧ s'.hostData = s.hostData) ∧
      (∀ data : List Byte, data.length = len → ¬ reaches → exec (.hostMemoryAccess pa 0 (some data)) s = .next s) ∧
      (reaches → ∃ s' : State, exec (.hostMemoryAccess pa len none) s = .next s' ∧ s'.mem = s.mem ∧ s'.teams = s.teams ∧
        s'.hostData = (if s.poisoned pa len = true then none else some (bytesOf (s.l2Read none pa len) len)) ∧
        (s.upsets = [] → s.poison = [] → s' = { s with recs := s'.recs, hostData := s'.hostData })) ∧
      (¬ reaches → exec (.hostMemoryAccess pa len none) s = .next { s with hostData := none })) ∧
    (∀ t : Nat, exec (.ptmSlew t) s = .next { s with slew := (t : Int) - s.ns }) ∧
    (∃ s' : State, exec .recordWalk s = .next s' ∧ (∀ r, r ∈ s'.recs ↔ r ∈ s.recs ∧ s.phaseOf r.2.2 = r.2.1.toNat % 2 ^ 16) ∧
      s' = { s with recs := s'.recs }) ∧
    ∀ job va write,
      let s1 := (s.walkReads job va).foldl (fun (s : State) a => s.corrected none a 8) s
      let passes := fun (e n : Nat) (beyond : Bool) => s.leafOk ⟨job, !write, write, beyond⟩ (leafOf e n va) 1 = true
      (s.upsets = [] → s1 = s) ∧
      (∀ c, s.walkTables job va = .error c → exec (.tlbMissWalk job va write) s = .next s1) ∧
      ∀ e n, s.walkTables job va = .ok (e, n) → let x : TlbEntry := ⟨job, n, va / 2 ^ (13 * n + 16), e⟩
        (passes e n false ∨ passes e n true → ¬ x ∈ s.tlb → exec (.tlbMissWalk job va write) s = .next { s1 with tlb := s.tlb ++ [x] }) ∧
        ((¬ (passes e n false ∨ passes e n true) ∨ x ∈ s.tlb) → exec (.tlbMissWalk job va write) s = .next s1)

/-! ## Kensia -/

/-- R435 to R437: RETREQ marks a unit of types 0 to 3 that the package has and that is neither marked nor retired: it is retired at
once where the cores that it concerns are free, and else at its deadline, RETDL seconds on; any other RETREQ has no effect. At the
deadline the launches that hold those cores begin to drain, and Kensia looks again a millisecond later; with the cores free the
unit is retired. -/
def Sys2Proof.MarksAndDeadlines : Prop :=
  (∀ (s : State) (v : Word), let u : UnitId := ⟨fld v.toNat 16 3, fld v.toNat 0 16⟩
    let known := (u.kind = 0 ∧ u.index < 1632) ∨ (u.kind = 1 ∧ u.index < 192) ∨
      (u.kind = 2 ∧ (u.index < 88 ∨ (128 ≤ u.index ∧ u.index < 256))) ∨ (u.kind = 3 ∧ u.index < 768)
    ((¬ known ∨ s.isMarked u = true ∨ s.kensia.retired.contains u = true) → exec (.retreq v) s = .next s) ∧
    (known → s.isMarked u = false → s.kensia.retired.contains u = false →
      ∃ s' : State, exec (.retreq v) s = .next s' ∧ s'.kensia.marks = s.kensia.marks ++ [(u, 0xFF, s.ns)] ∧ s'.mem = s.mem ∧
        s'.teams = s.teams ∧ s'.kensia.health.getLsbD 3 = true ∧
        ∃ e ∈ s'.agenda, (s.coresFree (s.concerned u) = true → e.act = .unitRetirement u ∧ e.due = s.now) ∧
          (s.coresFree (s.concerned u) = false → e.act = .retirementDeadline u ∧
            e.due = s.now + s.beatsOfSec (s.kensia.retdl.toNat % 2 ^ 32)))) ∧
  ∀ (s : State) (u : UnitId),
    (s.isMarked u = false → exec (.retirementDeadline u) s = .next s) ∧
    (s.isMarked u = true → s.coresFree (s.concerned u) = true →
      exec (.retirementDeadline u) s = .next (s.plan s.now 0 [] (.unitRetirement u))) ∧
    (s.isMarked u = true → s.coresFree (s.concerned u) = false →
      ∃ s' : State, exec (.retirementDeadline u) s = .next s' ∧ s'.mem = s.mem ∧ s'.teams = s.teams ∧ s'.isMarked u = true ∧
        (∃ e ∈ s'.agenda, e.act = .retirementDeadline u ∧ e.due = s.now + s.msBeats) ∧
        ∀ l ∈ s.launches, s.launch l.handle = some l → l.state = .running → l.cut = none → l.drain = none →
          l.cids.any ((s.concerned u).contains ·) = true → ∃ l', s'.launch l.handle = some l' ∧ l'.state = .draining)

/-- R353, R436, R440 to R442, R444: a marked unit whose cores are free goes out of service, its mark is gone, and the
harvest log has an entry more; before that nothing happens. A retired core's logical core goes to the first unused die spare
of its field; with none, to the standing spare with all of its logical die, which leaves the field parked; with no standing
spare either, to a core of the field that serves one other, under beat interleave. A field without routes gives its logical
die to the standing spare. -/
def Sys2Proof.MarkedUnitsRetire : Prop :=
  ∀ (s : State) (u : UnitId),
    (s.isMarked u = false ∨ s.coresFree (s.concerned u) = false → exec (.unitRetirement u) s = .next s) ∧
    ∀ kind since, (s.kensia.marks.find? fun m => m.1 = u) = some (u, kind, since) → s.coresFree (s.concerned u) = true →
      let field := u.index / 272
      let mine := allCores.filter fun c => s.physCore c = u.index
      let gone := s.outOfService u
      let entry : List Word := [BitVec.ofNat 64 (kind + u.kind * 2 ^ 8 + u.index * 2 ^ 16 + s.kensia.boots % 2 ^ 32 * 2 ^ 32),
        BitVec.ofNat 64 s.ns]
      (u.kind ≠ 0 → u.kind ≠ 5 → s.kensia.harvestLog.length < 4096 → ∃ s' : State, exec (.unitRetirement u) s = .next s' ∧
        s'.kensia.retired.contains u = true ∧ s'.isMarked u = false ∧ s'.mem = s.mem ∧ s'.teams = s.teams ∧
        s'.kensia.harvestLog = s.kensia.harvestLog ++ [entry ++ [0xFFFF, BitVec.ofNat 64 s.kensia.harvestLog.length]]) ∧
      (u.kind = 0 → mine = [] → ∃ s' : State, exec (.unitRetirement u) s = .next s' ∧ s'.kensia.retired.contains u = true ∧
        s'.isMarked u = false ∧ (∀ c, s'.physCore c = s.physCore c) ∧ s'.mem = s.mem ∧ s'.teams = s.teams) ∧
      (∀ c p, u.kind = 0 → mine = [c] → s.kensia.remapDie[dieFin (dieOf c)] = field → gone.takerOf field = some (p, false) →
        s.kensia.harvestLog.length < 4096 → ∃ s' : State, exec (.unitRetirement u) s = .next s' ∧ s'.physCore c = p ∧
          (∀ x, x ≠ c → s'.physCore x = s.physCore x) ∧ s'.kensia.retired.contains u = true ∧ s'.isMarked u = false ∧ s'.mem = s.mem ∧
          s'.teams = s.teams ∧
          s'.kensia.harvestLog = s.kensia.harvestLog ++ [entry ++ [BitVec.ofNat 64 p, BitVec.ofNat 64 s.kensia.harvestLog.length]]) ∧
      (∀ z e, u.kind = 0 → mine ≠ [] → (∀ p, gone.takerOf field ≠ some (p, false)) → s.kensia.standing = some e → s.diesOf field = [z] →
        s.coresFree (allCores.filter fun c => z.val = dieOf c) = true →
        ∃ s' : State, exec (.unitRetirement u) s = .next s' ∧ s'.kensia.remapDie[z] = e ∧
          (∀ y, y ≠ z → s'.kensia.remapDie[y] = s.kensia.remapDie[y]) ∧ s'.kensia.retired.contains u = true ∧
          s'.kensia.retired.contains ⟨5, field⟩ = true ∧ s'.isMarked u = false ∧ s'.mem = s.mem ∧ s'.teams = s.teams) ∧
      (∀ c p, u.kind = 0 → mine = [c] → s.kensia.remapDie[dieFin (dieOf c)] = field → gone.takerOf field = some (p, true) →
        s.kensia.standing = none → ∃ s' : State, exec (.unitRetirement u) s = .next s' ∧ s'.physCore c = p ∧
          (∀ x, x ≠ c → s'.physCore x = s.physCore x) ∧ s'.kensia.interleave = true ∧ s'.kensia.retired.contains u = true ∧
          s'.isMarked u = false ∧ s'.mem = s.mem ∧ s'.teams = s.teams) ∧
      ∀ z e, u.kind = 5 → s.diesOf u.index = [z] → s.kensia.standing = some e → ∃ s' : State, exec (.unitRetirement u) s = .next s' ∧
        s'.kensia.remapDie[z] = e ∧ (∀ y, y ≠ z → s'.kensia.remapDie[y] = s.kensia.remapDie[y]) ∧
        s'.kensia.retired.contains u = true ∧ s'.isMarked u = false ∧ s'.kensia.harvestLog = s.kensia.harvestLog ∧ s'.mem = s.mem ∧
        s'.teams = s.teams

/-- R315, R433, R436, R440, R444: a rim that fails takes its field out of service with it, ends every launch, clears VALID
of the owners of its pseudo-channels, and moves a logical die of the field to the standing spare; service software re-forms
the memory map later, over the live rims, which leaves the window rows that still have an address and zeroes everything
else. A rim retired already, or one that the package does not have, does not fail. -/
def Sys2Proof.RimsFail : Prop :=
  ∀ s : State,
    (∀ d, s.cur.args = [d] → (6 ≤ d ∨ s.kensia.retired.contains ⟨4, d⟩ = true) → exec .rimFailure s = .next s) ∧
    (∀ d, s.cur.args = [d] → d < 6 → s.kensia.retired.contains ⟨4, d⟩ = false → (s.launches.map (·.handle)).Nodup →
      ∃ s' : State, exec .rimFailure s = .next s' ∧ s'.kensia.retired.contains ⟨4, d⟩ = true ∧ s'.kensia.retired.contains ⟨5, d⟩ = true ∧
        s'.isMarked ⟨4, d⟩ = false ∧ (∀ l ∈ s'.launches, l.state = .done) ∧ (∀ p ∈ s'.pcs, p.pc / 128 = d → p.winown.getLsbD 0 = false) ∧
        s'.kensia.health.getLsbD 10 = true ∧ (∀ z e, s.diesOf d = [z] → s.kensia.standing = some e → e ≠ d → s'.kensia.remapDie[z] = e) ∧
        ∃ e ∈ s'.agenda, e.act = .rimFailure ∧ e.cx.args = [d, 1]) ∧
    ∀ d, s.cur.args = [d, 1] → Memory.wf s.mem = true → ∃ s' : State, exec .rimFailure s = .next s' ∧ s'.kensia.rimMap = s.liveRims ∧
      (∀ a, readByte s'.mem a = if 2 ^ 51 ≤ a ∧ s.addressable a = true then readByte s.mem a else 0) ∧ s'.teams = s.teams ∧
      s'.launches = s.launches

/-- R435 to R437, R440 to R444: marks, deadlines, retirements and the failure of a rim.
It rests on the model's readings and choices of log 111, 112, 113 and 114. -/
def Obligations.RetirementEventsComplete : Prop :=
  Sys2Proof.MarksAndDeadlines ∧ Sys2Proof.MarkedUnitsRetire ∧ Sys2Proof.RimsFail

/-- R447, R453: FWCTL without GO, or while one is busy, stores LEN; a GO reads the staged image of LEN bytes and its STATUS
says what became of it: 6 where the host's memory ends first, 3 where it does not verify or is below its own floor, 4 where
it is below FLOOR, 5 where the flash fails, and 2 with the image in flash, from which a module in recovery starts again. A
write that is interrupted leaves an image that does not boot. -/
def Sys2Proof.FirmwareIsStaged : Prop :=
  ∀ (s : State) (v : Word), let len := fld v.toNat 8 32
    ((v.getLsbD 0 = false ∨ fld s.kensia.fwctl.toNat 4 4 = 1) → ∃ s' : State, exec (.fwctlGo v) s = .next s' ∧
      s' = { s with kensia := { s.kensia with fwctl := s'.kensia.fwctl } } ∧ fld s'.kensia.fwctl.toNat 8 32 = len ∧
      fld s'.kensia.fwctl.toNat 4 4 = fld s.kensia.fwctl.toNat 4 4) ∧
    (v.getLsbD 0 = true → fld s.kensia.fwctl.toNat 4 4 ≠ 1 →
      let ends := fun (st : Nat) (image : List Byte) (torn : Bool) => ∃ s' : State, exec (.fwctlGo v) s = .next s' ∧
        fld s'.kensia.fwctl.toNat 8 32 = len ∧ s'.kensia = { s.kensia with fwctl := s'.kensia.fwctl, image := image, torn := torn } ∧
        fld s'.kensia.fwctl.toNat 4 4 = st ∧ s'.host = s.host ∧ s'.mem = s.mem ∧ s'.teams = s.teams ∧
        (st = 2 → s.kensia.step = 15 → ∃ e ∈ s'.agenda, e.act = .bringUp ∧ e.due = s.now)
      (2 ^ 64 < s.kensia.fwaddr.toNat + len → ends 6 s.kensia.image s.kensia.torn) ∧
      (s.kensia.fwaddr.toNat + len ≤ 2 ^ 64 → let l := readBytes s.host s.kensia.fwaddr.toNat len
        let sound := Config.imageGood l = true ∧ (Config.imageFloor l).toNat ≤ (Config.imageVersion l).toNat
        let newer := s.kensia.floor.toNat ≤ (Config.imageVersion l).toNat
        (¬ sound → ends 3 s.kensia.image s.kensia.torn) ∧
        (sound → ¬ newer → ends 4 s.kensia.image s.kensia.torn) ∧
        (sound → newer → s.bringUpFault 16 = true → ends 5 s.kensia.image s.kensia.torn) ∧
        (sound → newer → s.bringUpFault 16 = false → s.bringUpFault 17 = true → ends 1 l true) ∧
        (sound → newer → s.bringUpFault 16 = false → s.bringUpFault 17 = false → ends 2 l false)))

/-- R454 to R459, R461: a token in order opens the debug port and destroys every key, or advances the lifecycle, which measures the
change; one out of order changes neither; each leaves a fresh nonce. ATTCTL writes a report with the host's nonce and its signature,
and KEYCTL in SEALED reads a key into an empty slot and clears its place in host memory; each says in STATUS why it did not. -/
def Sys2Proof.KensiaEventsComplete : Prop :=
  ∀ s : State,
    (s.tokenStatus 1 = 2 → ∃ s' : State, exec .unlockDebug s = .next s' ∧ s'.kensia.lifecycle = 3 ∧
      (∀ n : Fin 64, s'.kensia.keys[n] = none) ∧ s'.kensia.unlocks = s.kensia.unlocks + 1 ∧ s'.kensia.unlkctl = 0x20 ∧ s'.mem = s.mem ∧
      s'.kensia.meas[2] = extend s.kensia.meas[2] (eventOf 0x10 2 3 s.kensia.boots (wordBytes s.kensia.dnonce ++ List.replicate 16 0))) ∧
    (s.tokenStatus 2 = 2 → ∃ s' : State, exec .advanceLifecycle s = .next s' ∧ s'.kensia.lifecycle = nextLifecycle s.kensia.lifecycle ∧
      s'.kensia.unlkctl = 0x20 ∧ s'.mem = s.mem ∧ s'.kensia.keys = s.kensia.keys ∧
      (s.kensia.lifecycle ≠ 0 → s'.kensia.identity = s.kensia.identity) ∧
      s'.kensia.meas[2] = extend s.kensia.meas[2]
        (eventOf 0x11 s.kensia.lifecycle (nextLifecycle s.kensia.lifecycle) s.kensia.boots (wordBytes s.kensia.dnonce ++ List.replicate 16 0))) ∧
    (∀ p ∈ [(Instr.unlockDebug, 1), (.advanceLifecycle, 2)], s.tokenStatus p.2 ≠ 2 →
      ∃ s' : State, exec p.1 s = .next s' ∧
        s' = { s with free := s'.free, kensia := { s.kensia with unlkctl := BitVec.ofNat 64 (16 * s.tokenStatus p.2), dnonce := s'.kensia.dnonce } } ∧
        s'.kensia.dnonce = (List.range 4).map fun i => Config.randomWord (s.free + i)) ∧
    (∀ v : Word, (v.getLsbD 0 = false → exec (.attctlGo v) s = .next s) ∧
      (v.getLsbD 0 = true → 2 ^ 64 < s.kensia.attaddr.toNat + 64 + 4931 →
        exec (.attctlGo v) s = .next { s with kensia := { s.kensia with attctl := 0x70 } }) ∧
      (v.getLsbD 0 = true → s.kensia.attaddr.toNat + 64 + 4931 ≤ 2 ^ 64 → Memory.wf s.host = true →
        ∃ s' : State, exec (.attctlGo v) s = .next s' ∧ s' = { s with host := s'.host, kensia := { s.kensia with attctl := 0x20 } } ∧
          let r := s.kensia.report (readBytes s.host s.kensia.attaddr.toNat 32)
          let sig := (List.range 4627).map fun i => if s.kensia.lifecycle = 0 then 0 else Config.mlDsaSign r i
          let at_ := s.kensia.attaddr.toNat + 64
          readBytes s'.host at_ r.length = r ∧ readBytes s'.host (at_ + r.length) 4627 = sig ∧
          ∀ b, b < at_ ∨ at_ + r.length + 4627 ≤ b → readByte s'.host b = readByte s.host b)) ∧
    ∀ v : Word, let slot := fld v.toNat 8 6
      let ends := fun (st : Nat) => exec (.keyctlGo v) s =
        .next { s with kensia := { s.kensia with keyctl := BitVec.ofNat 64 (slot * 256 + 16 * st) } }
      (v.getLsbD 0 = false → ∃ s' : State, exec (.keyctlGo v) s = .next s' ∧ s' = { s with kensia := { s.kensia with keyctl := s'.kensia.keyctl } } ∧
        fld s'.kensia.keyctl.toNat 8 6 = slot ∧ fld s'.kensia.keyctl.toNat 4 4 = fld s.kensia.keyctl.toNat 4 4) ∧
      (v.getLsbD 0 = true → s.kensia.lifecycle ≠ 2 → ends 4) ∧
      (v.getLsbD 0 = true → s.kensia.lifecycle = 2 → holdsKey s.kensia.keys slot = true → ends 3) ∧
      (v.getLsbD 0 = true → s.kensia.lifecycle = 2 → holdsKey s.kensia.keys slot = false → 2 ^ 64 < s.kensia.keyaddr.toNat + 64 → ends 7) ∧
      (v.getLsbD 0 = true → s.kensia.lifecycle = 2 → holdsKey s.kensia.keys slot = false → s.kensia.keyaddr.toNat + 64 ≤ 2 ^ 64 →
        Memory.wf s.host = true → ∃ s' : State, exec (.keyctlGo v) s = .next s' ∧ s'.mem = s.mem ∧ s'.teams = s.teams ∧
          (∀ n : Fin 64, s'.kensia.keys[n] = if n.val = slot then
            some (BitVec.ofNat 512 (natOfBytes (readBytes s.host s.kensia.keyaddr.toNat 64))) else s.kensia.keys[n]) ∧
          (∀ b, readByte s'.host b = if s.kensia.keyaddr.toNat ≤ b ∧ b < s.kensia.keyaddr.toNat + 64 then 0 else readByte s.host b) ∧
          s'.kensia.keyctl = BitVec.ofNat 64 (slot * 256 + 32))

/-- R315, R442, R448, R452, R453: bring-up makes one step of its list at a time, in order: it counts BOOTCNT, verifies the
image or comes up in recovery, counts each die's reset and marks what does not train, verifies the harvest log, or comes up
in recovery, with memory zero and its map over the live rims, shows STEP 5, and with STEP 6 the module is ready, FLOOR at
least the image's; an error at STEP 1 or 5 is shown in ERR. Power removal, and a reset of a module that is up, in recovery
or stopped at STEP 1, keep the fuses, the flash and the host's memory, and no memory of the module's own. -/
def Sys2Proof.BringUpMakesItsSteps : Prop :=
  ∀ s : State,
    (s.kensia.step = 0 → ∃ s' : State, exec .bringUp s = .next s' ∧ s'.kensia.step = 1 ∧
      s'.kensia.err = (if s.bringUpFault 1 then 1 else 0) ∧ s'.kensia.boots = s.kensia.boots + 1 ∧ s'.ns = 0 ∧ s'.mem = s.mem) ∧
    (s.kensia.step = 1 → s.kensia.err ≠ 1 → ∃ s' : State, exec .bringUp s = .next s' ∧
      s'.kensia.step = (if s.kensia.torn = false ∧ imageBoots s.kensia.floor s.kensia.image = true then 2 else 15) ∧ s'.mem = s.mem ∧
      (s'.kensia.step = 2 → s'.kensia.fwver = (Config.imageVersion s.kensia.image).setWidth 64)) ∧
    (s.kensia.step = 2 → ∃ s' : State, exec .bringUp s = .next s' ∧ s'.kensia.step = 3 ∧ s'.mem = s.mem ∧
      (∀ d : Fin 8, s'.resets[d] = (s.resets[d] + 1) % 256) ∧
      ∀ u ∈ s.untrained, s.kensia.retired.contains u = false → s'.isMarked u = true) ∧
    (s.kensia.step = 3 → ∃ s' : State, exec .bringUp s = .next s' ∧
      (s.logVerifies = false → s'.kensia = { s.kensia with step := 15, err := 4 }) ∧
      (s.logVerifies = true → s'.kensia.step = 4 ∧ s'.mem = [] ∧ s'.recs = [] ∧ s'.l2 = [] ∧ s'.poison = [] ∧
        s'.kensia.rimMap = s'.liveRims ∧ s'.kensia.harvestLog = s.kensia.harvestLog ∧
        (s.kensia.harvestLog = [] → s'.kensia.retired = [] ∧ s'.kensia.interleave = false ∧ ∀ c, s'.physCore c = 272 * (dieFin (dieOf c)).val + c % 256))) ∧
    (s.kensia.step = 4 → exec .bringUp s = .next { s with kensia := { s.kensia with step := 5 } }) ∧
    (s.kensia.step = 5 → ∃ s' : State, exec .bringUp s = .next s' ∧ s'.mem = s.mem ∧
      (s.bringUpFault 5 = true → s'.kensia = { s.kensia with err := 5 }) ∧
      (s.bringUpFault 5 = false → s'.kensia.step = 6 ∧ s'.kensia.err = 0 ∧
        s'.kensia.floor.toNat = max s.kensia.floor.toNat (Config.imageFloor s.kensia.image).toNat ∧
        ∃ e ∈ s'.agenda, e.act = .powerCheck ∧ e.due = s.now + s.msBeats)) ∧
    (∀ p ∈ [(Instr.powerOff, True), (.bringUp, 6 ≤ s.kensia.step ∨ (s.kensia.step = 1 ∧ s.kensia.err = 1))], p.2 →
      ∃ s' : State, exec p.1 s = .next s' ∧ s'.teams = [] ∧ s'.launches = [] ∧ s'.mem = [] ∧
        s'.host = s.host ∧ s'.kensia.image = s.kensia.image ∧ s'.kensia.torn = s.kensia.torn ∧ s'.kensia.floor = s.kensia.floor ∧
        s'.kensia.harvestLog = s.kensia.harvestLog ∧ s'.kensia.unlocks = s.kensia.unlocks ∧
        s'.kensia.lifecycle = (if s.kensia.lifecycle = 3 then 2 else s.kensia.lifecycle) ∧
        (p.1 = .bringUp → s'.kensia.step = 1 ∧ s'.kensia.boots = s.kensia.boots + 1))

/-! ## Power, freezes and the clock -/

/-- R292, R449: the stretch asked for begins, of at most 2^20 beats, and ends with the hot debts paid. Once a millisecond
the mean power is compared with the limit, and one above it asks for a stretch of the fewest beats that bring the projected
power to the limit, or for the longest; two requests merge into the longer. -/
def Sys2Proof.StretchesAndPowerChecks : Prop :=
  ∀ s : State,
    (s.kensia.stretchReq = none → exec .stretch s = .next s) ∧ (s.kensia.stretchFrom = none → exec .stretchEnd s = .next s) ∧
    (∀ n, s.kensia.stretchReq = some n → exec .stretch s =
      .next { s with kensia := { s.kensia with stretchReq := none, stretchLeft := min n (2 ^ 20), stretchFrom := some s.ns } }) ∧
    (∀ n, s.kensia.stretchFrom = some n → ∃ s' : State, exec .stretchEnd s = .next s' ∧
      s'.kensia = { s.kensia with stretchLeft := 0, stretchFrom := none } ∧ s'.teams = s.teams ∧
      s'.pcs = s.pcs.map fun p => { p with debt := Vector.replicate 16 0 }) ∧
    (∃ s' : State, exec .powerCheck s = .next s' ∧ s'.kensia.pwravg = (Config.meanPower s.free).setWidth 64 ∧ s'.teams = s.teams ∧
      s'.mem = s.mem ∧ (∃ e ∈ s'.agenda, e.act = .powerCheck ∧ e.due = s.now + s.msBeats) ∧
      ((Config.meanPower s.free).toNat ≤ s.kensia.pwrlim.toNat → s'.kensia.stretchReq = s.kensia.stretchReq) ∧
      (s.kensia.pwrlim.toNat < (Config.meanPower s.free).toNat →
        let fits := fun (n : Nat) => (Config.projectedPower (s.free + 1) n).toNat ≤ s.kensia.pwrlim.toNat
        ∃ n, 1 ≤ n ∧ n ≤ 2 ^ 20 ∧ (fits n ∨ n = 2 ^ 20) ∧ (∀ m, 1 ≤ m → m < n → ¬ fits m) ∧
          s'.kensia.stretchReq = some (max n (s.kensia.stretchReq.getD 0))))

/-- R291, R321, R450: the first cause of an emergency asks for its freeze, with its limit of EMGTO; another joins it. The
freeze ends when the last cause has gone: before the freeze begins nothing ends, and a cause that goes leaves the others. At
the end hot debts are paid, freezes asked for within it are due at once, and RIMS follows if the limit has passed; at the
limit every running launch ends. -/
def Sys2Proof.EmergenciesFreezeThePackage : Prop :=
  ∀ s : State,
    (∀ c, let causes := if s.kensia.causes.contains c then s.kensia.causes else s.kensia.causes ++ [c]
      (s.kensia.emergency.isSome → exec (.emergencyFreezeRequest c) s = .next { s with kensia := { s.kensia with causes := causes } }) ∧
      (s.kensia.emergency = none → ∃ s' : State, exec (.emergencyFreezeRequest c) s = .next s' ∧
        s'.kensia = { s.kensia with emergency := some (c, s.now), causes := causes, emergencyLate := 0 } ∧
        s'.teams = s.teams ∧ s'.mem = s.mem ∧
        ∃ e ∈ s'.agenda, e.act = .emergencyTimeout ∧ e.cx.args = [s.now] ∧
          e.due = s.now + s.msBeats * (s.kensia.emgto.toNat % 2 ^ 32))) ∧
    (s.kensia.emergency = none → exec .emergencyClear s = .next s ∧ exec .emergencyTimeout s = .next s) ∧
    (∀ c b, s.kensia.emergency = some (c, b) →
      let left := if s.cur.args = [] then [] else s.kensia.causes.filter fun c => emergencyCode c ≠ s.cur.args.headD 0
      (s.halted = false → exec .emergencyClear s =
        .next (s.plan (b + 512 + s.kensia.emergencyLate) 0 s.cur.args .emergencyClear)) ∧
      (s.halted = true → left ≠ [] → exec .emergencyClear s = .next { s with kensia := { s.kensia with causes := left } }) ∧
      (s.halted = true → left = [] → ∃ s' : State, exec .emergencyClear s = .next s' ∧
        s'.kensia = { s.kensia with emergency := none, causes := [], rimsNext := false,
                                    pwrst := if s.kensia.rimsNext then (if s.working then 0x100 else 1) else s.kensia.pwrst } ∧
        s'.teams = (s.teams.map fun t => { t with freezeReq := t.freezeReq.map fun _ => t.clk - 512 }) ∧
        s'.pcs = s.pcs.map fun p => { p with debt := Vector.replicate 16 0 })) ∧
    (∀ c b, s.kensia.emergency = some (c, b) → (s.cur.args ≠ [b] → exec .emergencyTimeout s = .next s) ∧
      (s.cur.args = [b] → (s.launches.map (·.handle)).Nodup → ∃ s' : State, exec .emergencyTimeout s = .next s' ∧
        s'.kensia.rimsNext = true ∧ (∀ l ∈ s'.launches, l.state ≠ .running ∧ l.state ≠ .draining) ∧
        ∀ l ∈ s.launches, l.state ≠ .running → l.state ≠ .draining → l.handle ∈ s'.launches.map (·.handle)))

/-- R448: RIMS is entered at once where no launch holds cores, and else waits with its request kept; FULL starts each die's
BEAT again at 0. R430, R431: a debug stop freezes every stream of the launch that its ordinal names 512 beats after it,
whatever else they were asked for; with no such launch, or one stopped already, it is ignored. RESUME ends it once it
stands, and what was asked for within it comes first.
It rests on the model's choice of log 122 and its reading of log 125. -/
def Sys2Proof.PowerStatesAndDebugStops : Prop :=
  ∀ s : State,
    (s.kensia.pwrst = 1 → exec .pwrstReqRims s = .next s) ∧
    (s.kensia.pwrst ≠ 1 → exec .pwrstReqRims s =
      .next { s with kensia := { s.kensia with pwrst := if s.working then 0x100 else 1 } }) ∧
    (s.kensia.pwrst = 1 → exec .pwrstReqFull s =
      .next { s with kensia := { s.kensia with pwrst := 0 }, dies := s.dies.map fun d => { d with beat := 0 } }) ∧
    (s.kensia.pwrst ≠ 1 → exec .pwrstReqFull s = .next s) ∧
    ∀ n : Fin 64, s.cur.args = [n.val] →
      ((s.stopTarget n = none ∨ ∃ l, s.stopTarget n = some l ∧ ∃ m : Fin 64, (s.dstop[m]).launch = some l.handle) →
        exec .dstopStop s = .next s) ∧
      (∀ l, s.stopTarget n = some l → (∀ m : Fin 64, (s.dstop[m]).launch ≠ some l.handle) → exec .dstopStop s =
        .next { s with dstop := s.dstop.set n { s.dstop[n] with launch := some l.handle },
                       teams := s.teams.map fun t => if t.launch = l.handle then { t with freezeReq := some t.clk } else t }) ∧
      (((s.dstop[n]).launch = none ∨ (s.dstop[n]).ctl.getLsbD 33 = false) → exec .dstopResume s = .next s) ∧
      (∀ h, (s.dstop[n]).launch = some h → (s.dstop[n]).ctl.getLsbD 33 = true → ∃ s' : State, exec .dstopResume s = .next s' ∧
        (s'.dstop[n]).launch = none ∧ (s'.dstop[n]).ctl.toNat = (s.dstop[n]).ctl.toNat % 2 ^ 32 ∧
        (∀ m, m ≠ n → s'.dstop[m] = s.dstop[m]) ∧
        s'.teams = s.teams.map fun t =>
          if t.launch = h ∧ (t.traps ≠ [] ∨ t.takeable = true) then { t with freezeReq := some t.clk } else t)

/-- R291, R292, R430, R431, R448 to R450: stretches, emergencies, power states and debug stops.
It rests on the model's readings and choices of log 122, 123, 124 and 125. -/
def Obligations.PowerEventsComplete : Prop :=
  Sys2Proof.StretchesAndPowerChecks ∧ Sys2Proof.EmergenciesFreezeThePackage ∧ Sys2Proof.PowerStatesAndDebugStops

/-- R290, R291, R292, R423, R427, R450, R451: the end of a beat. The wall clock moves on every beat. In a stretch or an
emergency freeze nothing else does, but that a beat of a stretch before the freeze puts the freeze off. Otherwise the clock
of every team that is not frozen moves by one, a frozen team's stays, the BEAT of a die with no frozen team moves by one,
and no register or memory of a core changes. A sync record leaves the teams as they are, and is written once for its die.
It rests on the model's readings and choices of log 6. -/
def Obligations.ClockMovesTheBeat : Prop :=
  ∀ s : State, (∃ s' : State, exec .headClassification s = .next s' ∧ s'.now = s.now + 1 ∧ s'.nsThirds = s.nsThirds + s.perBeat ∧
      (s.stretched = true ∨ s.halted = true → s'.teams = s.teams ∧ s'.dies = s.dies ∧ s'.mem = s.mem) ∧
      (s.stretched = true → s'.kensia = { s.kensia with stretchLeft := s.kensia.stretchLeft - 1,
                                                             emergencyLate := s.kensia.emergencyLate + (if s.kensia.emergency.isSome && !s.halted then 1 else 0) }) ∧
      (s.stretched = false → s.halted = false → (s.teams.map (·.cid)).Nodup → s'.teams.length = s.teams.length ∧
        (∀ z : Fin 5, (∀ t ∈ s.teams, dieOf t.cid = z.val → t.frozen = false) → (s'.dies[z]).beat = (s.dies[z]).beat + 1) ∧
        ∀ t ∈ s.teams, ∃ u ∈ s'.teams, u.cid = t.cid ∧ u.clk = (if t.frozen then t.clk else t.clk + 1) ∧ u.s = t.s ∧ u.a = t.a ∧ u.v = t.v ∧
          u.spad = t.spad ∧ u.acc = t.acc)) ∧
    ∃ s' : State, exec .traceSync s = .next s' ∧ s'.teams = s.teams ∧ s'.host = s.host ∧ ∀ z, s.cur.args = [z] → z % 5 ∈ s'.synced

/-! ## Registers that the outside writes -/

/-- R308, R314, R372, R389, R396, R401, R405, R410 to R415, R452: with the module ready, writes of the management space take
effect as each register's rule says, or are ignored, or set ERR; before that none does. -/
def Sys2Proof.ManagementWritesLand : Prop :=
  (∀ (s : State) (i : Nat) (v : Word), s.answers = false →
    ∀ w ∈ [Instr.versWrite i v, .rsvctlWrite i v, .jrootWrite i v, .winownWrite i v, .wingeoWrite v, .apctlWrite i i v, .xinvGo v,
           .qctlWrite i v, .submit i v, .hostint i v], exec w s = .next s) ∧
  ∀ s : State, s.answers = true →
    (∀ (i : Fin 5) (v : Word), (fld v.toNat 16 8 ≤ (Config.versHigh i.val).toNat → ∃ s' : State, exec (.versWrite i.val v) s = .next s' ∧
        (s'.vers[i]).toNat = fld v.toNat 16 8 * 2 ^ 16 + 2 ^ 24 ∧ (∀ j, j ≠ i → s'.vers[j] = s.vers[j]) ∧ s' = { s with vers := s'.vers }) ∧
      ((Config.versHigh i.val).toNat < fld v.toNat 16 8 → exec (.versWrite i.val v) s = .next s)) ∧
    (∀ (n : Fin 16) (v : Word), let r := s.rsv[n]
      let w := v &&& 0xFFFFFFFF003FFFFF
      (r[0].getLsbD 0 = true → v.getLsbD 0 = true → exec (.rsvctlWrite n.val v) s = .next s) ∧
      ∃ s' : State, exec (.rsvctlWrite n.val v) s = .next s' ∧ (∀ m : Fin 16, m ≠ n → s'.rsv[m] = s.rsv[m]) ∧ s'.teams = s.teams ∧
        (s'.rsv[n])[1] = r[1] ∧ (s'.rsv[n])[2] = r[2] ∧
        (r[0].getLsbD 0 = true → v.getLsbD 0 = false → (s'.rsv[n])[0] = r[0] &&& ~~~1) ∧
        (r[0].getLsbD 0 = false → (v.getLsbD 0 && s.rsvOk n.val v r[1] r[2]) = false → (s'.rsv[n])[0] = w &&& ~~~1) ∧
        (r[0].getLsbD 0 = false → (v.getLsbD 0 && s.rsvOk n.val v r[1] r[2]) = true → (s'.rsv[n])[0] = w ∧
          (∃ e ∈ s'.agenda, e.act = .reservationWindowStart ∧ e.cx.args = [n.val]) ∧
          ∃ e ∈ s'.agenda, e.act = .reservationWindowEnd ∧ e.cx.args = [n.val] ∧ e.due = s.beatAt (3 * r[2].toNat))) ∧
    (∀ (n : Fin 64) (v : Word), let base := fld v.toNat 16 36 * 65536
      let taken := s.jobLive (s.jid[n]).toNat = false ∧ (v.getLsbD 0 = true → base < 2 ^ 51 ∧ s.rangeOk base 65536 = true ∧
        ∀ m : Fin 64, m ≠ n → (s.jroot[m]).getLsbD 0 = true → (s.jid[m]).toNat ≠ (s.jid[n]).toNat)
      (¬ taken → exec (.jrootWrite n.val v) s = .next s) ∧
      (taken → ∃ s' : State, exec (.jrootWrite n.val v) s = .next s' ∧ s'.jroot[n] = v &&& 0xFFFFFFFFF0001 ∧ s' = { s with jroot := s'.jroot } ∧
        ∀ m : Fin 64, m ≠ n → s'.jroot[m] = s.jroot[m])) ∧
    (∀ (p : Nat) (v : Word), p < 768 → let held := s.launches.any fun l => l.state != .done && l.pcs.contains p
      let lost := s.kensia.retired.contains ⟨3, p⟩ || s.kensia.retired.contains ⟨4, p / 128⟩
      (held = true → exec (.winownWrite p v) s = .next s) ∧
      (held = false → ∃ s' : State, exec (.winownWrite p v) s = .next s' ∧
        s'.mgmtRead (0x30000 + 8 * p) = v &&& (if lost then 0xFFFFFFFF00000000 else 0xFFFFFFFF00000001) ∧ s' = { s with pcs := s'.pcs } ∧
        ∀ q, q ≠ p → s'.mgmtRead (0x30000 + 8 * q) = s.mgmtRead (0x30000 + 8 * q))) ∧
    (∀ v : Word, let free := (∀ n : Fin 64, (s.jroot[n]).getLsbD 0 = false) ∧ (∀ p ∈ s.pcs, p.winown.getLsbD 0 = false)
      ((¬ free ∨ s.nrows < fld v.toNat 0 18) → exec (.wingeoWrite v) s = .next s) ∧
      (free → fld v.toNat 0 18 ≤ s.nrows → ∃ s' : State, exec (.wingeoWrite v) s = .next s' ∧ s'.wrows = fld v.toNat 0 18 ∧
        s' = { s with wrows := s'.wrows, mem := s'.mem, memTaint := s'.memTaint, poison := s'.poison, recs := s'.recs, l2 := s'.l2,
                      upsets := s'.upsets } ∧
        (fld v.toNat 0 18 = s.wrows → s' = s))) ∧
    (∀ (z : Fin 5) (n : Fin 16) (v : Word), ∃ s' : State, exec (.apctlWrite z.val n.val v) s = .next s' ∧
      s'.mgmtRead (0x40000 + 512 * z.val + 32 * n.val + 24) = (if s.apertureOk (apertureOf (((s.dies[z]).apertures[n]).set 3 (v &&& 0xFFFFFFFF00FFFFFF)))
        then v &&& 0xFFFFFFFF00FFFFFF else v &&& 0xFFFFFFFF00FFFFFE) ∧ s' = { s with dies := s'.dies }) ∧
    (∀ v : Word, (s.xinv.getLsbD 1 = true → exec (.xinvGo v) s = .next s) ∧
      (s.xinv.getLsbD 1 = false → v.getLsbD 0 = false → exec (.xinvGo v) s = .next { s with xinv := v &&& 0xFFFFFFFF0000000C }) ∧
      (s.xinv.getLsbD 1 = false → v.getLsbD 0 = true → ∃ s' : State, exec (.xinvGo v) s = .next s' ∧
        s'.xinv = (v &&& 0xFFFFFFFF0000000C) ||| 2 ∧ (∃ e ∈ s'.agenda, e.act = .xinvComplete) ∧ s'.teams = s.teams)) ∧
    (let f := fun (n k : Nat) => fld s.xinv.toNat n k
     let kept := dropLeaves (f 2 2) (f 32 32) s.xinvva.toNat s.tlb
     (s.leafInUse (f 2 2) (f 32 32) s.xinvva.toNat = false → exec .xinvComplete s = .next { s with xinv := s.xinv &&& ~~~2, tlb := kept }) ∧
     (s.leafInUse (f 2 2) (f 32 32) s.xinvva.toNat = true → ∃ s' : State, exec .xinvComplete s = .next s' ∧ s'.xinv = s.xinv ∧ s'.tlb = kept ∧
        s'.teams = s.teams ∧ ∃ e ∈ s'.agenda, e.act = .xinvComplete ∧ s.now < e.due)) ∧
    (∀ (q : Fin 64) (v : Word), ∃ s' : State, exec (.qctlWrite q.val v) s = .next s' ∧ let x := s.queues[q]
      let y := s'.queues[q]
      y.qctl.getLsbD 0 = v.getLsbD 0 ∧ y.qctl.getLsbD 1 = (x.qctl.getLsbD 1 && !v.getLsbD 1) ∧
      y.qctl.getLsbD 2 = (x.qctl.getLsbD 2 && !v.getLsbD 3) ∧ y.qctl.getLsbD 3 = false ∧ y.held = (x.held && !v.getLsbD 3) ∧
      (∀ i, (i = 4 ∨ 32 ≤ i) → y.qctl.getLsbD i = (if x.qctl.getLsbD 0 then x.qctl.getLsbD i else v.getLsbD i)) ∧
      s' = { s with queues := s'.queues } ∧ ∀ m : Fin 64, m ≠ q → s'.queues[m] = s.queues[m]) ∧
    (∀ (q : Fin 64) (v : Word), let ahead := fun (n : Nat) => (n + 2 ^ 32 - (s.queues[q]).qhead) % 2 ^ 32
      let taken := ahead (fld v.toNat 0 32) ≤ 2 ^ (s.queues[q]).qsize ∧ ahead (s.queues[q]).tail ≤ ahead (fld v.toNat 0 32)
      (taken → exec (.submit q.val v) s = .next (s.setQueue q { s.queues[q] with tail := fld v.toNat 0 32 })) ∧
      (¬ taken → exec (.submit q.val v) s = .next (s.setQueue q { s.queues[q] with qctl := (s.queues[q]).qctl ||| 2 }))) ∧
    (∀ (q : Fin 64) (v : Word), let at_ := s.teamNamed (s.queues[q]).job (fld v.toNat 32 32) (fld v.toNat 0 11)
      (at_ = none → exec (.hostint q.val v) s = .next (s.setQueue q { s.queues[q] with qctl := (s.queues[q]).qctl ||| 2 })) ∧
      ∀ t, at_ = some t → ∃ t', exec (.hostint q.val v) s = .next (s.setTeam t') ∧ t'.tip = t.tip ||| 1 ∧
        t' = { t with tip := t'.tip, freezeReq := t'.freezeReq })

/-- R391, R411, R412, R437: a register with no row of its own, and Kensia's registers through KSDATA: a read of the low half
keeps the high half, and a write of the high half writes both; a register of another number keeps its value. -/
def Sys2Proof.RegistersThroughTheirSpaces : Prop :=
  ∀ s : State, s.answers = true →
    (∀ v : Word, ∃ s' : State, exec (.managementRegisterWrite 0x100 v) s = .next s' ∧
      s'.drainlim.toNat = max 100 (min 1000000 (v.toNat % 2 ^ 32)) ∧ s' = { s with drainlim := s'.drainlim }) ∧
    (∀ (n : Fin 64) (v : Word), (s.queues[n]).qctl.getLsbD 0 = false →
      ∃ s' : State, exec (.managementRegisterWrite (0x10000 + 256 * n.val + 8) v) s = .next s' ∧
        s'.mgmtRead (0x10000 + 256 * n.val + 8) = BitVec.ofNat 64 (v.toNat / 64 % 2 ^ 49 * 64) ∧ s' = { s with queues := s'.queues }) ∧
    (∃ s' : State, exec .ksdataLowRead s = .next s' ∧
      s'.kensia.ksLatch.toNat = (s.kensiaRead s.kensia.ksidx).toNat / 2 ^ 32 ∧ s' = { s with kensia := { s.kensia with ksLatch := s'.kensia.ksLatch } }) ∧
    (∀ v : BitVec 32, s.kensia.ksidx = 0x10 → ∃ s' : State, exec (.ksdataHighWrite v) s = .next s' ∧
      s'.kensiaRead 0x10 = s.kensia.ksLow.setWidth 64 ∧ s' = { s with kensia := { s.kensia with retdl := s'.kensia.retdl } })

/-! ## The machine as a whole -/

/-- No instruction is refused, and none stops the machine but an event or a word of a team that does not live.
It rests on the model's readings and choices of log 129. -/
def Obligations.ExecutionNeverStops : Prop :=
  ∀ (i : Instr) (s : State), (∀ r, exec i s ≠ .refused r) ∧
    ((∃ t, s.team s.cur.cid = some t) → (∃ p, s.pc s.cur.pc = some p ∧ p.prog.isSome) → ∃ s' : State, exec i s = .next s')

/-- R85, R94 to R104: decode and encode agree. Every legal code that is a word of a column, with every operand, WAIT and
SIGNAL, has a word of 64 bits that decodes to it; and 64 bits that decode at all are legal and are the word of what they
decode to, so that no field, reserved code or must-be-zero bit is dropped. -/
def Obligations.DecodeAndEncodeAgree : Prop :=
  (∀ (c : Col) (x : Code) (w : Nat), x.wf c = true → encode c x = some w → w < 2 ^ 64 ∧ decode c w = .ok x) ∧
  (∀ (c : Col) (x : Code), (∃ p, x.instr.fields = some p ∧ (p.1 = .any ∨ p.1 = .one c)) → ∃ w, encode c x = some w) ∧
  ∀ (c : Col) (x : Code) (w : Nat), decode c w = .ok x → x.wf c = true ∧ encode c x = some w

/-- R85, R89 to R91, R97 to R104: words written out from the encoding tables decode to what they stand for; a WAIT, SIGNAL
or operation that is reserved, an illegal field, and a set must-be-zero bit are each refused by name. -/
def Obligations.WrittenWordsDecode : Prop :=
  decode .ctl 0x0000_7100_810B_0000 = .ok ⟨.none, .none, .csrw 0 0x810 44⟩ ∧
  decode .ctl 0x0000_411C_6066_0000 = .ok ⟨.none, .none, .st 7 6 0 .gl .rel .d 0⟩ ∧
  decode .ctl 0x0000_7500_0000_0000 = .ok ⟨.none, .none, .eret⟩ ∧
  decode .acs 0x0000_3802_0100_0500 = .ok ⟨.none, .none, .loopf .imm 16 5⟩ ∧
  decode .acs 0x0000_3000_0008_0000 = .ok ⟨.none, .none, .pat 0 0 1 0⟩ ∧
  decode .vec 0x0000_4800_0001_0200 = .ok ⟨.none, .none, .vshape 1 2⟩ ∧
  decode .vec 0x0300_404C_0400_0010 = .ok ⟨.idle 3, .none, .vmov (.w 0) (.v 4) .f32 ⟨0, false⟩⟩ ∧
  decode .cpy 0x0000_0008_3040_0000 = .ok ⟨.none, .none, .cpWs 2 3 0⟩ ∧
  decode .chn 0x0000_0018_0123_0000 = .ok ⟨.none, .none, .act 1 2 0x123⟩ ∧
  decode .chn 0x0000_0700_0000_0097 = .ok ⟨.none, .none, .pass 151⟩ ∧
  decode .mat 0xC100_3F00_0000_0000 = .ok ⟨.cnt 1, .none, .nop⟩ ∧
  decode .ctl 0xEF00_3F00_0000_0000 = .error .wait ∧ decode .ctl 0x0000_1C00_0000_0000 = .error .operation ∧
  decode .chn 0x0000_0700_0000_0000 = .error .field ∧ decode .ctl 0x0000_0000_0000_0001 = .error .mustBeZero

/-- R85, R86, R94, R95, R144: a step runs the word that stands at the head of a column. With nothing of the package or of
the teams due, no stretch, no emergency freeze and no word of a channel program to try, the first column in order that may
try a word takes the word that it fetched at its predecessor's issue, and with none the 8 bytes at its ring's position of
the head; if they decode, and the word's scheduled beat has come, the step is that word's execution, with the fuse read that
its register names for OPC 0x78; if they do not, the word takes the illegal-word trap with its bits, after the idle count of
its WAIT where that is one. -/
def Sys2Proof.StepRunsTheFetchedWord : Prop :=
  ∀ (s : State) (pre post : List Team) (t : Team) (cs ds : List Col) (c : Col),
    s.pickPackage = none → s.stretched = false → s.halted = false → s.pickTeams = none →
    (∀ p ∈ s.pcs, s.chanAction p .issue = none) → s.teams = pre ++ t :: post → wordOrder = cs ++ c :: ds →
    (∀ u ∈ pre, ∀ d ∈ wordOrder, s.pickColumn u d = none) → (∀ d ∈ cs, s.pickColumn t d = none) →
    t.tries c = true → s.stopped t = false → (t.col c).tried = false → t.noWord (t.col c) = false →
    let x := t.col c
    let w := x.word.getD (readNat t.spad (x.base + 8 * (x.head % x.size)) 8)
    let read := t.eccTrap 8 [x.base + 8 * (x.head % x.size)]
    (t.sick = [] → read = none) ∧
    (∀ e, read = some e → max x.next x.floor ≤ t.clock c →
      step s = .next (s.raise t (t.wordCur c w ⟨.none, .none, .nop⟩ .issue) e)) ∧
    (∀ k : Code, read = none → decode c w = .ok k → max (x.next + idleOf k.wait) x.floor ≤ t.clock c →
      step s = exec (t.resolve k.instr) { s with cur := t.wordCur c w k .issue }) ∧
    (∀ e, read = none → decode c w = .error e → let wait := (Wait.ofCode (fld w 56 8)).getD .none
      max (x.next + idleOf wait) x.floor ≤ t.clock c →
      step s = .next (s.raise t (t.wordCur c w ⟨wait, .none, .nop⟩ .issue) (.illegal, BitVec.ofNat 64 w)))

/-- R74, R86, R131, R340: what a step does besides words. An input that is due comes first, but for an access of the host,
which comes last on its beat; a fill of the L2 by an rd comes before every other event of the teams, then the landings of
the beat and the writes of channel programs, and then an effect of a team that has come due is executed in its own context,
once, before any word; when nothing is left to do the beat passes. -/
def Sys2Proof.StepRunsWhatIsDue : Prop :=
  (∀ (s : State) (p : Pend) (l : List Pend), s.kensia.step = 6 → s.inputs = p :: l → p.due ≤ s.now → isHostAccess p = false →
    step s = exec p.act { s with inputs := l, cur := p.cx }) ∧
  (∀ (s : State) (t : Team) (post : List Team) (p : Pend) (l : List Pend), s.pickPackage = none → s.stretched = false → s.halted = false →
    (∀ u ∈ s.teams, s.pickFill u = none) → s.teams = t :: post → t.handler = false → t.frozen = false → t.pend = p :: l → p.due ≤ t.clk →
    (p.rank ≤ rankLand ∨ ((∀ u ∈ s.teams, s.pickLanding u = none) ∧ (∀ q ∈ s.pcs, s.pickWr q = none) ∧ s.takeWaiting t = none)) →
    step s = exec p.act { s.setTeam { t with pend := l } with cur := p.cx }) ∧
  (∀ (s : State) (t : Team) (post : List Team) (p : Pend) (l : List Pend) (n pa : Nat) (data : BitVec 256) (x y z : Bool), s.pickPackage = none →
    s.stretched = false → s.halted = false → s.teams = t :: post → t.frozen = false → t.pend = p :: l → p.due ≤ t.clk →
    p.act = .rdL2Fill n pa data x y z →
    step s = exec p.act { s.setTeam { t with pend := l } with cur := p.cx }) ∧
  ∀ s : State, s.pickPackage = none → (s.stretched = true ∨ s.halted = true ∨ (s.pickTeams = none ∧ s.pickWord = none ∧ s.pickLate = none ∧
    s.pickRims = none)) → (∀ p ∈ s.agenda, p.due ≤ s.now → isEngineRequest p = false) → s.choose = none →
    s.needsDrained ++ s.inReserved = [] → (∀ p ∈ s.inputs, p.due ≤ s.now → isHostAccess p = false) → step s = exec .headClassification { s with cur := Cur.none }

/-- The memories of the module stay in canonical form: HBM, the host's memory, every scratchpad and accumulator, running or
saved, and every rim's slots. Every step keeps it.
It rests on the model's readings and choices of log 4. -/
def Obligations.EveryStepKeepsMemoriesCanonical : Prop :=
  ∀ s s' : State, s.wf = true → step s = .next s' → s'.wf = true

/-- R412, R437, R447, R448, R452: at power-on the memories are in canonical form and read as 0, bring-up stands at STEP 0,
no team and no launch exists, no slot, queue or owner is valid, and the registers have the values that their rules give:
QSIZE and EQSIZE 4, CETHR, RETDL, PWRLIM, EMGTO and DRAINLIM; the first step is the first of bring-up. That memory reads as
0 before bring-up, and which state counts as reset, are the model's choices of log 1 and 3. -/
def Obligations.ResetLeavesTheSpecifiedState : Prop :=
  State.reset.wf = true ∧ (∀ a, readByte State.reset.mem a = 0) ∧ State.reset.kensia.step = 0 ∧ State.reset.teams = [] ∧
  State.reset.launches = [] ∧ (∀ n : Fin 64, State.reset.jroot[n] = 0 ∧ (State.reset.queues[n]).qctl = 0 ∧ (State.reset.queues[n]).qsize = 4 ∧
    (State.reset.queues[n]).eqsize = 4) ∧ State.reset.kensia.cethr = 0x1518000000010 ∧ State.reset.kensia.retdl = 3600 ∧
  State.reset.kensia.pwrlim = 4200 ∧ State.reset.kensia.emgto = 2000 ∧ State.reset.drainlim = 2000 ∧ State.reset.kensia.pwrst = 0 ∧
  step State.reset = exec .bringUp { State.reset with cur := Cur.none }

/-! ## Frames -/

/-- The state of a team that words read and programs see: its registers, special registers, scratchpad and accumulators. -/
def Sys2Proof.sameRegisters (t t' : Team) : Prop :=
  t'.s = t.s ∧ t'.a = t.a ∧ t'.v = t.v ∧ t'.o = t.o ∧ t'.lat = t.lat ∧ t'.k = t.k ∧ t'.w = t.w ∧ t'.m = t.m ∧ t'.n = t.n ∧ t'.tab = t.tab ∧
  t'.p = t.p ∧ t'.flags = t.flags ∧ t'.cnt = t.cnt ∧ t'.mbx = t.mbx ∧ t'.vrm = t.vrm ∧ t'.vsat = t.vsat ∧ t'.vshape = t.vshape ∧
  t'.vexc = t.vexc ∧ t'.mexc = t.mexc ∧ t'.cexc = t.cexc ∧ t'.stkp = t.stkp ∧ t'.tfb = t.tfb ∧ t'.tcause = t.tcause ∧ t'.tval = t.tval ∧
  t'.tepc = t.tepc ∧ t'.tstat = t.tstat ∧ t'.svc = t.svc ∧ t'.tip = t.tip ∧ t'.tie = t.tie ∧ t'.spad = t.spad ∧ t'.acc = t.acc

/-- R74, R80, R118 to R122, R148: while no handler runs, the words of ctl that only compute, test or move the head change no
register, no memory and no other team at their issue: what they write lands later, by the landing of that register alone.
The same where they trap. -/
def Obligations.RegisterWordsChangeNothingAtIssue : Prop :=
  ∀ (s s' : State) (t : Team) (d a b x : SReg) (i28 : BitVec 28) (n : BitVec 12) (off : BitVec 22) (off40 : BitVec 40) (k : Cond),
    s.team s.cur.cid = some t → s.cur.col = .ctl → t.handler = false →
    ∀ i, (∃ p ∈ arithmeticWords, i = p.1 d a b) ∨ (∃ p ∈ unaryWords, i = p.1 d a) ∨ (∃ p ∈ immediateWords, i = p.1 d a i28) ∨
        i ∈ [Instr.sel d a b, .b k a x off, .jmp off40, .jr a, .tchk a, .csrr d n, .csrw d n a, .csrs d n a, .csrc d n a, .cntrd d .job, .nop] →
      exec i s = .next s' →
      s'.mem = s.mem ∧ s'.host = s.host ∧ s'.pcs = s.pcs ∧ s'.launches = s.launches ∧ s'.kensia = s.kensia ∧
      (∀ u ∈ s.teams, u.cid ≠ t.cid → u ∈ s'.teams) ∧ ∃ t', s'.team t.cid = some t' ∧ sameRegisters t t'

/-- R60, R78, R86: no word of vec touches HBM, the host's memory, another team, or the scratchpad, accumulators, s or a
registers, level or exception registers of its own: it reads its operands at issue and what it makes lands as slices, or in
the queue and mask registers that its own rule names. -/
def Obligations.VecWordsTouchNoMemory : Prop :=
  ∀ (s s' : State) (t : Team) (w : Nat) (k : Code), s.team s.cur.cid = some t → s.cur.col = .vec → decode .vec w = .ok k →
    exec k.instr s = .next s' →
    s'.mem = s.mem ∧ s'.host = s.host ∧ s'.pcs = s.pcs ∧ s'.launches = s.launches ∧ (∀ u ∈ s.teams, u.cid ≠ t.cid → u ∈ s'.teams) ∧
    ∃ t', s'.team t.cid = some t' ∧ t'.spad = t.spad ∧ t'.acc = t.acc ∧ t'.s = t.s ∧ t'.a = t.a ∧ t'.svc = t.svc ∧ t'.tcause = t.tcause ∧
      t'.tval = t.tval ∧ t'.tepc = t.tepc ∧ t'.tstat = t.tstat

/-- R155, R142, R382: while no handler runs and the level is U, no word of ctl raises the level or changes TCAUSE, TVAL,
TEPC, TSTAT, TIE, TFB or the timer's compare value at its issue; and a write to one of the registers of level S is not even
scheduled. -/
def Obligations.UserWordsKeepServiceRegisters : Prop :=
  ∀ (s s' : State) (t : Team), s.team s.cur.cid = some t → s.cur.col = .ctl → t.svc = false → t.handler = false →
    (∀ (a d : SReg) (n : BitVec 12), csrWritable false n.toNat = false → ∀ i ∈ [Instr.csrw d n a, .csrs d n a, .csrc d n a],
      exec i s = .next s' → ∃ t', s'.team t.cid = some t' ∧
        ∀ p ∈ t'.pend, p ∉ t.pend → ∀ op v k, p.act ≠ .registerWriteLands (.csr op n.toNat v k)) ∧
    ∀ i ∈ [Instr.eret, .trap 0, .ebrk 0, .wfi, .ret], exec i s = .next s' → ∃ t', s'.team t.cid = some t' ∧ t'.svc = false ∧
      t'.tcause = t.tcause ∧ t'.tval = t.tval ∧ t'.tepc = t.tepc ∧ t'.tstat = t.tstat ∧ t'.tie = t.tie ∧ t'.tfb = t.tfb ∧
      t'.timecmp = t.timecmp

/-! ## Two rules of ctl, whole -/

/-- R118: a unary word with a nonzero b field is an illegal word. -/
def Sys2Proof.UnaryWordsHaveNoSecondSource : Prop :=
  ∀ opc ∈ [0x17, 0x18, 0x19, 0x1A], ∀ a b d low wt sg : Nat, a < 64 → b < 64 → d < 64 → low < 2 ^ 22 → wt < 256 → sg < 256 → b ≠ 0 →
    ∃ e, decode .ctl (wt * 2 ^ 56 + sg * 2 ^ 48 + opc * 2 ^ 40 + d * 2 ^ 34 + a * 2 ^ 28 + b * 2 ^ 22 + low) = .error e

/-- R119: division never traps: a word of the four that may issue lands a result. Division by zero gives all ones for DIV
and DIVU and a for REM and REMU; -2^63 divided by -1 gives -2^63 and remainder 0, and the unsigned words follow the general
rule there. -/
def Obligations.DivisionNeverTraps : Prop :=
  ∀ (s : State) (t : Team) (d a b : SReg), MayIssue s t { regs := [.s a, .s b, .s d], occ := 24 } →
    let x := (t.getS a).v
    let y := (t.getS b).v
    let lands := fun (i : Instr) (v : Word) =>
      exec i s = .next (landS (s.atIssue t) (s.past t 24) d 24 ⟨v, (t.getS a).t || (t.getS b).t⟩)
    (∀ i ∈ [Instr.div d a b, .divu d a b, .rem d a b, .remu d a b], ∃ v, lands i v) ∧
    (y = 0 → lands (.div d a b) (-1) ∧ lands (.divu d a b) (BitVec.ofNat 64 (2 ^ 64 - 1)) ∧ lands (.rem d a b) x ∧ lands (.remu d a b) x) ∧
    (x.toInt = -2 ^ 63 → y.toInt = -1 → lands (.div d a b) (BitVec.ofInt 64 (-2 ^ 63)) ∧ lands (.rem d a b) 0 ∧
      lands (.divu d a b) (BitVec.ofNat 64 (x.toNat / y.toNat)) ∧ lands (.remu d a b) (BitVec.ofNat 64 (x.toNat % y.toNat)))

/-! ## Statements of several parts -/

/-- R118: the arithmetic words of ctl land their results, and a unary word with a second source is illegal. -/
def Obligations.ArithmeticWordsLand : Prop :=
  Sys2Proof.ArithmeticResultLands ∧ Sys2Proof.UnaryAndSelectResultLands ∧ Sys2Proof.UnaryWordsHaveNoSecondSource

/-- Arithmetic words with an immediate, and the landing of a register write. -/
def Obligations.ImmediateWordsLand : Prop :=
  Sys2Proof.ImmediateResultLands ∧ Sys2Proof.RegisterWriteSetsItsRegisterOnly

/-- Branches, jumps, calls and returns move the head of ctl.
It rests on the model's readings and choices of log 16 and 137. -/
def Obligations.TransfersMoveTheHead : Prop :=
  Sys2Proof.JumpsMoveTheHead ∧ Sys2Proof.CallsPushAndReturnsPop

/-- Words of ctl that break a rule take its trap: bounds, misalign, privilege, taint. -/
def Obligations.IllegalWordsTrap : Prop :=
  Sys2Proof.BadTransfersTrap ∧ Sys2Proof.BadLoadsTrap ∧ Sys2Proof.PrivilegedWordsTrapAtUserLevel ∧ Sys2Proof.TaintCheckTraps

/-- CSRR, CSRW, CSRS, CSRC and POPX, and what a landed write keeps. -/
def Obligations.ControlRegisterWordsComplete : Prop :=
  Sys2Proof.CsrWordsReadAndWrite ∧ Sys2Proof.CsrWriteKeepsFields

/-- A trap pends, the handler is entered with its registers and frame, and a nested trap re-enters it.
It rests on the model's readings and choices of log 17, 28, 31, 32 and 151. -/
def Obligations.TrapsEnterTheHandler : Prop :=
  Sys2Proof.TrapWordsPend ∧ Sys2Proof.TrapWordsNest ∧ Sys2Proof.HandlerEntrySetsRegisters ∧ Sys2Proof.HandlerEntryWritesFrame ∧ Sys2Proof.NestedTrapReentersHandler

/-- NOP, ELAS, RDV, HOOP, LOOPF and LOOPE complete in columns and channel programs, and the head follows the loops.
It rests on the model's readings and choices of log 136. -/
def Obligations.CommonGroupAndLoops : Prop :=
  Sys2Proof.CommonGroupOfColumns ∧ Sys2Proof.LoopWordsOpenTheirBody ∧ Sys2Proof.HeadAfterWordFollowsLoops ∧ Sys2Proof.CommonGroupOfChannels

/-- BAR, CSIG, CWAIT, TCHK, CNTRD, QPUT and QPUB complete. -/
def Obligations.ControlSynchronisationComplete : Prop :=
  Sys2Proof.SynchronisationWordsComplete ∧ Sys2Proof.RingWordsAppendAndPublish

/-- AMO and CAS complete on scratchpad and on global memory.
It rests on the model's readings and choices of log 7, 15 and 82. -/
def Obligations.AtomicsComplete : Prop :=
  Sys2Proof.ScratchpadAtomicsComplete ∧ Sys2Proof.GlobalAtomicsComplete

/-- R329, R332, R334, R136: what a path sees of its core's scratchpad. A byte that a timed word has written reads for every
path as it was written; one that an elastic word has written reads so for its own path, and for another either so or as that
path saw it before; and after a fence of scratchpad at team scope or wider no write of the classes that it names, by ctl or
by a word whose completion ctl has observed, is hidden from a path that it names beside the writer's. -/
def Sys2Proof.PathsSeeWrites : Prop :=
  (∀ (t : Team) (path : Nat), t.unseen = [] → t.view path = t) ∧
  (∀ (t before : Team) (now path cls id a : Nat) (bytes : List Nat), Memory.wf t.spad = true → a ∈ bytes →
    (∀ d, readByte ((t.wrote before now path cls id true bytes).view d).spad a = readByte t.spad a) ∧
    readByte ((t.wrote before now path cls id false bytes).view path).spad a = readByte t.spad a ∧
    (Memory.wf before.spad = true → before.clk = t.clk → ∀ d,
      let x := readByte ((t.wrote before now path cls id false bytes).view d).spad a
      x = readByte t.spad a ∨ x = readByte (before.view d).spad a)) ∧
  ∀ (t : Team) (sc : Scope) (stor : BitVec 4) (classes : BitVec 16) (paths : BitVec 6), sc ≠ .stream → stor.getLsbD 0 = true →
    ∀ e ∈ (t.fenced sc stor classes paths).unseen, e ∈ t.unseen ∧
      ¬ (paths.getLsbD e.src = true ∧ paths.getLsbD e.dst = true ∧ classes.getLsbD e.cls = true ∧
        (e.src = 0 ∨ ∃ h ∈ t.heard, h.1 = e.src ∧ e.id ≤ h.2))

/-- PREF, CBO, WAYS, FENCE and TCHK.GL complete, WAYS clears changed banks only, and a fence shows writes to the paths that
it names.
It rests on the model's readings and choices of log 7, 18, 23, 24, 131 and 157. -/
def Obligations.CacheWordsAndWays : Prop :=
  Sys2Proof.CacheWordsComplete ∧ Sys2Proof.WaysClearsChangedBanksOnly ∧ Sys2Proof.PathsSeeWrites

/-- LAUNCH, the cancels, the fuse reads and KWIPE complete.
It rests on the model's readings and choices of log 99, 128 and 146. -/
def Obligations.LaunchAndServiceRequestsComplete : Prop :=
  Sys2Proof.LaunchAndCancelComplete ∧ Sys2Proof.KensiaRequestsComplete

/-- The address words of acs, PAT, PATLD, and the rows of a pattern. -/
def Obligations.AddressAndPatternWords : Prop :=
  Sys2Proof.AddressResultLands ∧ Sys2Proof.PatternWordsComplete ∧ Sys2Proof.RowAddresses

/-- LQ, LQB and LQX complete.
It rests on the model's readings and choices of log 44, 45 and 152. -/
def Obligations.AcsLoadsComplete : Prop :=
  Sys2Proof.QueueLoadsComplete ∧ Sys2Proof.IndexedLoadCompletes

/-- SQ and SQX complete, and their rows alone change.
It rests on the model's readings and choices of log 45. -/
def Obligations.AcsStoresComplete : Prop :=
  Sys2Proof.QueueStoreCompletes ∧ Sys2Proof.IndexedStoreCompletes

/-- LQG, SQG, BFMT, RADV and QCLR complete.
It rests on the model's readings and choices of log 7, 46 and 82. -/
def Obligations.AcsOtherWordsComplete : Prop :=
  Sys2Proof.GlobalRowWordsComplete ∧ Sys2Proof.QueueAndRingWordsComplete

/-- A vec word sends its result as slices, and a slice lands in its own rows.
It rests on the model's readings and choices of log 42. -/
def Obligations.VecResultsLandAsSlices : Prop :=
  Sys2Proof.VecResultSlices ∧ Sys2Proof.SliceLandsInItsRows ∧ Sys2Proof.ElementsOfAResult

/-- The floating-point words complete with their results, and the corners of division and root. -/
def Obligations.FloatWordsAndCorners : Prop :=
  Sys2Proof.FloatWordsComplete ∧ Sys2Proof.DivisionAndRootCorners

/-- A representable value rounds to itself, and directed rounding bounds the exact value. -/
def Obligations.RoundingIsExactAndDirected : Prop :=
  Sys2Proof.RepresentableValuesRoundToThemselves ∧ Sys2Proof.DirectedRoundingBoundsTheValue

/-- VCMP, VCLASS, VCVT, VRND and VICMP complete, and compares of NaNs.
It rests on the model's readings and choices of log 37, 38 and 153. -/
def Obligations.CompareAndConvertComplete : Prop :=
  Sys2Proof.CompareAndConvertWordsComplete ∧ Sys2Proof.ComparesOfNans

/-- The movement, table, select and mask words complete.
It rests on the model's readings and choices of log 41 and 135. -/
def Obligations.MovementAndSelectComplete : Prop :=
  Sys2Proof.MovementWordsComplete ∧ Sys2Proof.TableSelectAndMaskWordsComplete

/-- VCOMP, VEXP, VPART, the bit network and the pack words complete.
It rests on the model's readings and choices of log 40 and 41. -/
def Obligations.CompressAndBitWordsComplete : Prop :=
  Sys2Proof.CompressAndPartitionComplete ∧ Sys2Proof.BitNetworkAndPackWordsComplete

/-- The modular words, the butterflies and VMSET complete, and a residue out of range traps.
It rests on the model's readings and choices of log 36. -/
def Obligations.ModularAndButterflyComplete : Prop :=
  Sys2Proof.ModularWordsComplete ∧ Sys2Proof.ButterflyAndSetWordsComplete ∧ Sys2Proof.ResidueOutOfRangeTraps

/-- MFMT, MRING, MNEST, MINBOX, MPLAIT, MPOP and MCHK complete, and configuration writes land. -/
def Obligations.MatSetupWordsComplete : Prop :=
  Sys2Proof.MatConfigurationWordsComplete ∧ Sys2Proof.NestWordReadsItsTable ∧ Sys2Proof.ConfigurationWritesLand ∧ Sys2Proof.PlaitPopAndCheckComplete

/-- MGO, MOP, the drains and MZERO join the engine queue.
It rests on the model's readings and choices of log 56 and 142. -/
def Obligations.EngineQueueWordsComplete : Prop :=
  Sys2Proof.EngineWordsJoinTheQueue ∧ Sys2Proof.DrainWordsJoinTheQueue ∧ Sys2Proof.ZeroWordClearsItsGranules

/-- The copy words start their copy, and a started copy is in flight.
It rests on the model's readings and choices of log 70, 71 and 140. -/
def Obligations.CopyWordsComplete : Prop :=
  Sys2Proof.CopyWordsStartTheirCopy ∧ Sys2Proof.StartedCopyIsInFlight

/-- CPCHK folds its image, and the CPX words hand over their request.
It rests on the model's readings and choices of log 68 and 73. -/
def Obligations.CopyChecksAndRequestsComplete : Prop :=
  Sys2Proof.CopyCheckFoldsItsImage ∧ Sys2Proof.EngineRequestsAreHandedOver

/-- Sectors land, chunks go on, copies perform, and the check dword of CPD.
It rests on the model's readings and choices of log 70, 75 and 141. -/
def Obligations.CopyLandingsComplete : Prop :=
  Sys2Proof.SectorLandingWritesItsCells ∧ Sys2Proof.CopyChunksComplete ∧ Sys2Proof.CopiesPerform ∧ Sys2Proof.CheckDwordsLand

/-- The DRAM commands complete, bad ones are suppressed, and the timing of ACT.
It rests on the model's readings and choices of log 78, 85 and 86. -/
def Obligations.ChannelCommandsComplete : Prop :=
  Sys2Proof.CommandWordsComplete ∧ Sys2Proof.BadCommandsAreSuppressed ∧ Sys2Proof.ActTimingRules

/-- RD, RD.L2 and WR complete.
It rests on the model's readings and choices of log 79 and 80. -/
def Obligations.ChannelDataWordsComplete : Prop :=
  Sys2Proof.DataWordsComplete

/-- R377, R438: a read of scratchpad that ECC cannot correct raises its trap with the first byte of the failing word that the access
touches, as LD shows, and its cause is 0x12; a write that covers a unit of memory clears its poison and what ails it; and at the end
of a beat the check events that teams found are in the check log. -/
def Sys2Proof.UnsoundUnitsAreFound : Prop :=
  (∀ (s : State) (t : Team) (d base : SReg) (cls : BitVec 4) (o : Order) (z : Size) (off : BitVec 17), s.cur.col = .ctl →
    let x := spanOf z (effAddr t base off.toInt)
    MayIssue s t { regs := [.s d, .s base] } → t.unsealed (t.col .ctl).timed x.a x.n = false → x.misaligned = false → t.spBad x.a x.n = none →
    (x.a / 8, 2) ∈ t.sick → exec (.ld d base cls .sp o z off) s =
      .next ((s.atIssue t).raise t (s.curAt t) (.eccFound 0x09 t.cid, BitVec.ofNat 64 x.a))) ∧
  (∀ kind unit, (Cause.eccFound kind unit).code = 0x12) ∧
  (∀ (s : State) (u x : Nat) (tn : Nat → Bool), s.poison.Pairwise (· < ·) → let s' := s.l2Write none (32 * u) 32 x (allBits 32) tn
    u ∉ s'.poison ∧ (∀ y ∈ s'.upsets, y.place = 7 ∨ y.place = 8 → y.id ≠ u) ∧ ∀ w, w ≠ u → (w ∈ s'.poison ↔ w ∈ s.poison)) ∧
  ∀ (s : State) (t : Team), s.teams = [t] → t.sick = [] → t.found = [(0x09, t.cid)] → s.eccEvents.kensia.clogTail = s.kensia.clogTail + 1 ∧
    (∃ u, s.eccEvents.teams = [u] ∧ u.found = [] ∧ u.s = t.s ∧ u.spad = t.spad)

/-- R439: as the wall clock passes an hour the L2's scrub is asked for, once bring-up has ended. That it is counted from power-on is
the model's choice of log 156. -/
def Sys2Proof.ScrubsAreAskedFor : Prop :=
  ∀ s : State, s.kensia.step = 6 → s.nsThirds / 10800000000000 ≠ (s.nsThirds + s.perBeat) / 10800000000000 →
    ∃ s' : State, exec .headClassification s = .next s' ∧ ∃ e ∈ s'.agenda, e.act = .l2Scrub ∧ e.due = s.now + 1

/-- Landings of channel reads, demand, refresh, scrub and temperature events; units that ECC finds unsound.
It rests on the model's readings and choices of log 9, 25, 82, 83, 84, 85, 143, 144 and 156. -/
def Obligations.ChannelEventsComplete : Prop :=
  Sys2Proof.ChannelLandingsComplete ∧ Sys2Proof.RimEventsComplete ∧ Sys2Proof.UnsoundUnitsAreFound ∧ Sys2Proof.ScrubsAreAskedFor

/-- Entries of host queues are taken and completion records are written.
It rests on the model's readings and choices of log 89 and 96. -/
def Obligations.HostQueuesAreServed : Prop :=
  Sys2Proof.HostQueueEntriesAreTaken ∧ Sys2Proof.EntriesSubmitTheirLaunch ∧ Sys2Proof.EventRecordsAreWritten

/-- Launches become ready, are set up, start and complete.
It rests on the model's readings and choices of log 90, 94, 95 and 100. -/
def Obligations.LaunchesRunAndComplete : Prop :=
  Sys2Proof.LaunchesStart ∧ Sys2Proof.LaunchesComplete

/-- Responses, time-outs, die resets, Reedlink frames, host accesses and walks.
It rests on the model's readings and choices of log 8, 11, 82, 102, 103, 104, 105, 107 and 109. -/
def Obligations.FabricAndOutsideEventsComplete : Prop :=
  Sys2Proof.DmaCopiesComplete ∧ Sys2Proof.FabricEventsComplete ∧ Sys2Proof.LinkFramesGoOn ∧ Sys2Proof.OutsideEventsComplete

/-- Firmware, tokens, attestation and keys, and the steps of bring-up.
It rests on the model's readings and choices of log 9, 12, 116, 117, 118, 119 and 122. -/
def Obligations.KensiaEventsAndBringUp : Prop :=
  Sys2Proof.FirmwareIsStaged ∧ Sys2Proof.KensiaEventsComplete ∧ Sys2Proof.BringUpMakesItsSteps

/-- Writes of the management space and of Kensia's registers.
It rests on the model's readings and choices of log 11, 115, 120 and 121. -/
def Obligations.OutsideRegisterWritesLand : Prop :=
  Sys2Proof.ManagementWritesLand ∧ Sys2Proof.RegistersThroughTheirSpaces

/-- A step runs the word at a column's head, or the event that is due.
It rests on the model's readings and choices of log 6, 10 and 11. -/
def Obligations.StepRunsWhatStands : Prop :=
  Sys2Proof.StepRunsTheFetchedWord ∧ Sys2Proof.StepRunsWhatIsDue
end

