-- ==== Sys2Proof/Laws/Ops.lean ====
section
/-! SUPPORT. What the shared operations can do: the issue of a word, events of a team, and the teams of a state after one of
them is replaced. -/

namespace Sys2Proof.Machine

/-! ## Teams of a state -/

theorem find_map_same {α : Type} (l : List α) (p : α → Bool) (f : α → α) (h : ∀ x, p (f x) = p x) :
    (l.map f).find? p = (l.find? p).map f := by
  induction l with
  | nil => rfl
  | cons x l ih =>
    simp only [List.map_cons, List.find?_cons, h]
    cases p x <;> simp [ih]

/-- The team found for a core is that core's team. -/
theorem team_cid {s : State} {cid : Nat} {t : Team} (h : s.team cid = some t) : t.cid = cid := by
  have := List.find?_some h
  simpa using this

/-- A replaced team is the one found for its core. -/
theorem team_setTeam {s : State} {t u : Team} (h : s.team u.cid = some t) : (s.setTeam u).team u.cid = some u := by
  have hp : ∀ x : Team, ((if x.cid = u.cid then u else x).cid == u.cid) = (x.cid == u.cid) := by
    intro x; split <;> simp_all
  have hc := team_cid h
  unfold State.setTeam State.team at *
  rw [find_map_same _ _ _ hp, h]
  simp [hc]

/-- The other teams stay when one is replaced. -/
theorem team_setTeam_other (s : State) (u : Team) {cid : Nat} (h : cid ≠ u.cid) :
    (s.setTeam u).team cid = s.team cid := by
  have hp : ∀ x : Team, ((if x.cid = u.cid then u else x).cid == cid) = (x.cid == cid) := by
    intro x; split <;> simp_all
  unfold State.setTeam State.team
  rw [find_map_same _ _ _ hp]
  cases hf : s.teams.find? (fun t => t.cid == cid) with
  | none => rfl
  | some x =>
    have : x.cid = cid := by have := List.find?_some hf; simpa using this
    simp [this, h]

/-! ## The issue of a word -/

/-- A word that may issue is judged to go. -/
theorem judge_go {s : State} {t : Team} {g : Gate} (h : MayIssue s t g) : t.judge (s.beatOf t) (s.curAt t) g = .go := by
  obtain ⟨_, _, hn, hl, hd, hs, hp, hw, hr, hb, hm, hst, hu, hf, hra, hla, _⟩ := h
  have hc : t.canIssue (s.curAt t) g = true := by
    cases hg : g.reject <;> simp_all [Team.canIssue, State.curAt]
  unfold Team.judge
  cases hg : g.svc <;> simp_all [State.curAt]

/-- A WORD THAT MAY ISSUE takes its effect on the team past the word, and answers a next state. -/
theorem runWordN_issues {s : State} {t : Team} {g : Gate} {gate : State → Team → Gate} {nul eff : State → Team → State}
    (h : MayIssue s t g) (hg : gate (s.atIssue t) (t.seen s.cur) = g) :
    runWordN s gate nul eff = .next (eff (s.atIssue t) (t.commit (s.curAt t) g.occ)) := by
  unfold runWordN
  simp [h.live, hg, judge_go h, h.plain, h.served]

/-- A word that may issue answers the state of its effect. -/
theorem runWord_issues {s : State} {t : Team} {g : Gate} {gate : State → Team → Gate} {eff : State → Team → State}
    (h : MayIssue s t g) (hg : gate (s.atIssue t) (t.seen s.cur) = g) :
    runWord s gate eff = .next (eff (s.atIssue t) (t.commit (s.curAt t) g.occ)) := runWordN_issues h hg

/-- A word of a live team, in its level and with valid WAIT and SIGNAL, TAKES ITS OWN TRAP before any stall and any effect. -/
theorem runWordN_traps {s : State} {t : Team} {x : Trap} {gate : State → Team → Gate} {nul eff : State → Team → State}
    (hl : s.team s.cur.cid = some t) (hn : s.cur.nul = false) (hs : t.syncTrap s.cur.wait s.cur.signal = none)
    (hv : (gate (s.atIssue t) (t.seen s.cur)).svc = true → t.svc = true)
    (hd : (gate (s.atIssue t) (t.seen s.cur)).deny = false)
    (hx : (gate (s.atIssue t) (t.seen s.cur)).fault = some x) :
    runWordN s gate nul eff = .next ((s.atIssue t).raise t (s.curAt t) x) := by
  have hj : t.judge (s.beatOf t) (s.curAt t) (gate (s.atIssue t) (t.seen s.cur)) = .trap x := by
    unfold Team.judge
    cases hg : (gate (s.atIssue t) (t.seen s.cur)).svc <;> simp_all [State.curAt]
  unfold runWordN
  simp only [hl, hj]

/-- A word of level S in a team at level U, or one that its gate denies, takes the privilege trap with its bits. -/
theorem runWordN_privilege {s : State} {t : Team} {gate : State → Team → Gate} {nul eff : State → Team → State}
    (hl : s.team s.cur.cid = some t) (hn : s.cur.nul = false)
    (hv : (gate (s.atIssue t) (t.seen s.cur)).svc = true ∧ t.svc = false ∨ (gate (s.atIssue t) (t.seen s.cur)).deny = true) :
    runWordN s gate nul eff = .next ((s.atIssue t).raise t (s.curAt t) (.privilege, s.cur.word)) := by
  have hj : t.judge (s.beatOf t) (s.curAt t) (gate (s.atIssue t) (t.seen s.cur)) = .trap (.privilege, s.cur.word) := by
    unfold Team.judge
    rcases hv with ⟨h1, h2⟩ | h1 <;> simp [State.curAt, *]
  unfold runWordN
  simp only [hl, hj]

/-- An event of a live team answers the state that it makes. -/
theorem onTeam_live {s : State} {t : Team} (h : s.team s.cur.cid = some t) (f : Team → State) : onTeam s f = .next (f t) := by
  simp [onTeam, h]

/-- An event of a team never refuses. -/
theorem onTeam_never_refuses (s : State) (f : Team → State) (r : Refusal) : onTeam s f ≠ .refused r := by
  unfold onTeam; split <;> simp

/-- The issue of a word never refuses. -/
theorem runWordN_never_refuses (s : State) (gate : State → Team → Gate) (nul eff : State → Team → State) (r : Refusal) :
    runWordN s gate nul eff ≠ .refused r := by
  unfold runWordN
  split
  · simp
  · dsimp only
    split <;> try simp
    repeat' split
    all_goals simp

/-! ## The conditions of an issue, as tests -/

/-- `MayIssue` as a test of a state. -/
def mayIssue (s : State) (t : Team) (g : Gate) : Bool :=
  decide (s.team s.cur.cid = some t) && (s.cur.phase != .access && s.cur.phase != .perform) && !s.cur.nul && (!g.svc || t.svc) && !g.deny &&
  decide (t.syncTrap s.cur.wait s.cur.signal = none) && decide ((t.col s.cur.col).portFree ≤ t.clock s.cur.col) &&
  t.waitOk s.cur.col (t.col s.cur.col) s.cur.wait && t.pushOk s.cur.col s.cur.wait s.cur.signal && !t.busy s.cur.col g.regs &&
  (!g.reject || !(t.col s.cur.col).timed) && !g.stall && decide (g.under = none) && decide (g.fault = none) && decide (g.range = none) &&
  decide (g.late = none) && ((s.atIssue t).stalls t (s.curAt t) g.asks).isNone

/-- A word that passes the test may issue. -/
theorem mayIssue_sound {s : State} {t : Team} {g : Gate} (h : mayIssue s t g = true) : MayIssue s t g := by
  simp only [mayIssue, Bool.and_eq_true, Bool.or_eq_true, Bool.not_eq_true', decide_eq_true_eq, bne_iff_ne, Option.isNone_iff_eq_none] at h
  obtain ⟨⟨⟨⟨⟨⟨⟨⟨⟨⟨⟨⟨⟨⟨⟨⟨h1, h2⟩, h3⟩, h4⟩, hd⟩, h5⟩, h6⟩, h7⟩, h8⟩, h9⟩, h10⟩, h11⟩, h12⟩, h13⟩, hr⟩, h14⟩, h15⟩ := h
  exact ⟨h1, h2, h3, fun g1 => h4.resolve_left (by simp [g1]), hd, h5, h6, h7, h8, h9, fun g1 => h10.resolve_left (by simp [g1]),
    h11, h12, h13, hr, h14, h15⟩

/-- `MayIssueChan` as a test of a state. -/
def mayIssueChan (s : State) (t : Team) (p : Pc) (g : ChanProg) : Bool :=
  decide (s.team s.cur.cid = some t) && decide (s.pc s.cur.pc = some p) && decide (p.prog = some g) && !s.cur.nul &&
  decide (t.syncTrap s.cur.wait s.cur.signal = none) && t.waitOk .chn g.st s.cur.wait

/-- A channel word that passes the test may issue. -/
theorem mayIssueChan_sound {s : State} {t : Team} {p : Pc} {g : ChanProg} (h : mayIssueChan s t p g = true) :
    MayIssueChan s t p g := by
  simp only [mayIssueChan, Bool.and_eq_true, Bool.not_eq_true', decide_eq_true_eq] at h
  obtain ⟨⟨⟨⟨⟨h1, h2⟩, h3⟩, h4⟩, h5⟩, h6⟩ := h
  exact ⟨h1, h2, h3, h4, h5, h6⟩

/-! ## The issue of a channel word -/

/-- A CHANNEL WORD THAT MAY ISSUE, and whose level its program has, answers the state of its effect. -/
theorem runChanN_issues {s : State} {t : Team} {p : Pc} {g : ChanProg} {svc : Bool}
    {nul eff : State → Team → Pc → ChanProg → State} (h : MayIssueChan s t p g) (hs : svc = true → g.svc = true) :
    runChanN s svc nul eff = .next (eff s t p g) := by
  obtain ⟨h1, h2, h3, h4, h5, h6⟩ := h
  cases svc
  · simp [runChanN, h1, h2, h3, h4, h5, h6]
  · simp [runChanN, h1, h2, h3, h4, h5, h6, hs rfl]

/-- A channel word that may issue, whose level its program has, and that has no other effect when nullified. -/
theorem runChan_issues {s : State} {t : Team} {p : Pc} {g : ChanProg} {svc : Bool} {eff : State → Team → Pc → ChanProg → State}
    (h : MayIssueChan s t p g) (hs : svc = true → g.svc = true) : runChan s svc eff = .next (eff s t p g) := runChanN_issues h hs

/-- A word of level S in a program of level U takes the privilege trap with its bits. -/
theorem runChan_privilege {s : State} {t : Team} {p : Pc} {g : ChanProg} {eff : State → Team → Pc → ChanProg → State}
    (h : MayIssueChan s t p g) (hs : g.svc = false) :
    runChan s true eff = .next (s.raiseChan t p g .privilege s.cur.word) := by
  obtain ⟨h1, h2, h3, h4, -, -⟩ := h
  simp [runChan, runChanN, h1, h2, h3, h4, hs]

/-- A channel word that its bank or a timing parameter does not admit takes the DRAM-timing trap. -/
theorem chanWord_bad {s : State} {t : Team} {p : Pc} {g : ChanProg} {svc : Bool} {eff : State → Team → Pc → ChanProg → State}
    {bad : State → Team → Pc → ChanProg → Option (Nat × Nat)} (h : MayIssueChan s t p g) (hs : svc = true → g.svc = true)
    {r : Nat × Nat} (hb : bad s t p g = some r) :
    chanWord s svc bad eff = .next (s.raiseChan t p g .dramTiming
      (BitVec.ofNat 64 (s.cur.pos % 2 ^ 32 * 2 ^ 32 + r.2 % 256 * 2 ^ 16 + r.1 * 2 ^ 12 + g.grant % 1024))) := by
  unfold chanWord
  rw [runChan_issues h hs]
  simp [hb]

/-- A channel word that the checker admits answers the state of its effect. -/
theorem chanWord_issues {s : State} {t : Team} {p : Pc} {g : ChanProg} {svc : Bool} {eff : State → Team → Pc → ChanProg → State}
    {bad : State → Team → Pc → ChanProg → Option (Nat × Nat)} (h : MayIssueChan s t p g) (hs : svc = true → g.svc = true)
    (hb : bad s t p g = none) : chanWord s svc bad eff = .next (eff s t p g) := by
  unfold chanWord
  rw [runChan_issues h hs]
  simp [hb]

end Sys2Proof.Machine
end

