-- ==== Sys2Proof/Laws/State.lean ====
section
/-! SUPPORT. One lemma for each field under each update of a team or of the whole state: what the update leaves alone. -/

namespace Sys2Proof.Machine

/-! ## A column replaced -/

@[simp] theorem setCol_cid (t : Team) (c : Col) (x : Column) : (t.setCol c x).cid = t.cid := rfl
@[simp] theorem setCol_launch (t : Team) (c : Col) (x : Column) : (t.setCol c x).launch = t.launch := rfl
@[simp] theorem setCol_job (t : Team) (c : Col) (x : Column) : (t.setCol c x).job = t.job := rfl
@[simp] theorem setCol_ord (t : Team) (c : Col) (x : Column) : (t.setCol c x).ord = t.ord := rfl
@[simp] theorem setCol_patch (t : Team) (c : Col) (x : Column) : (t.setCol c x).patch = t.patch := rfl
@[simp] theorem setCol_pext (t : Team) (c : Col) (x : Column) : (t.setCol c x).pext = t.pext := rfl
@[simp] theorem setCol_ndet (t : Team) (c : Col) (x : Column) : (t.setCol c x).ndet = t.ndet := rfl
@[simp] theorem setCol_tgroup (t : Team) (c : Col) (x : Column) : (t.setCol c x).tgroup = t.tgroup := rfl
@[simp] theorem setCol_banks (t : Team) (c : Col) (x : Column) : (t.setCol c x).banks = t.banks := rfl
@[simp] theorem setCol_granules (t : Team) (c : Col) (x : Column) : (t.setCol c x).granules = t.granules := rfl
@[simp] theorem setCol_inboxBase (t : Team) (c : Col) (x : Column) : (t.setCol c x).inboxBase = t.inboxBase := rfl
@[simp] theorem setCol_tfLen (t : Team) (c : Col) (x : Column) : (t.setCol c x).tfLen = t.tfLen := rfl
@[simp] theorem setCol_clk (t : Team) (c : Col) (x : Column) : (t.setCol c x).clk = t.clk := rfl
@[simp] theorem setCol_delta (t : Team) (c : Col) (x : Column) : (t.setCol c x).delta = t.delta := rfl
@[simp] theorem setCol_frozen (t : Team) (c : Col) (x : Column) : (t.setCol c x).frozen = t.frozen := rfl
@[simp] theorem setCol_frozenNs (t : Team) (c : Col) (x : Column) : (t.setCol c x).frozenNs = t.frozenNs := rfl
@[simp] theorem setCol_frozenWhy (t : Team) (c : Col) (x : Column) : (t.setCol c x).frozenWhy = t.frozenWhy := rfl
@[simp] theorem setCol_svc (t : Team) (c : Col) (x : Column) : (t.setCol c x).svc = t.svc := rfl
@[simp] theorem setCol_handler (t : Team) (c : Col) (x : Column) : (t.setCol c x).handler = t.handler := rfl
@[simp] theorem setCol_depth (t : Team) (c : Col) (x : Column) : (t.setCol c x).depth = t.depth := rfl
@[simp] theorem setCol_svcClk (t : Team) (c : Col) (x : Column) : (t.setCol c x).svcClk = t.svcClk := rfl
@[simp] theorem setCol_svcPend (t : Team) (c : Col) (x : Column) : (t.setCol c x).svcPend = t.svcPend := rfl
@[simp] theorem setCol_held (t : Team) (c : Col) (x : Column) : (t.setCol c x).held = t.held := rfl
@[simp] theorem setCol_parked (t : Team) (c : Col) (x : Column) : (t.setCol c x).parked = t.parked := rfl
@[simp] theorem setCol_hoop (t : Team) (c : Col) (x : Column) : (t.setCol c x).hoop = t.hoop := rfl
@[simp] theorem setCol_s (t : Team) (c : Col) (x : Column) : (t.setCol c x).s = t.s := rfl
@[simp] theorem setCol_a (t : Team) (c : Col) (x : Column) : (t.setCol c x).a = t.a := rfl
@[simp] theorem setCol_v (t : Team) (c : Col) (x : Column) : (t.setCol c x).v = t.v := rfl
@[simp] theorem setCol_o (t : Team) (c : Col) (x : Column) : (t.setCol c x).o = t.o := rfl
@[simp] theorem setCol_lat (t : Team) (c : Col) (x : Column) : (t.setCol c x).lat = t.lat := rfl
@[simp] theorem setCol_q (t : Team) (c : Col) (x : Column) : (t.setCol c x).q = t.q := rfl
@[simp] theorem setCol_w (t : Team) (c : Col) (x : Column) : (t.setCol c x).w = t.w := rfl
@[simp] theorem setCol_k (t : Team) (c : Col) (x : Column) : (t.setCol c x).k = t.k := rfl
@[simp] theorem setCol_m (t : Team) (c : Col) (x : Column) : (t.setCol c x).m = t.m := rfl
@[simp] theorem setCol_n (t : Team) (c : Col) (x : Column) : (t.setCol c x).n = t.n := rfl
@[simp] theorem setCol_tab (t : Team) (c : Col) (x : Column) : (t.setCol c x).tab = t.tab := rfl
@[simp] theorem setCol_p (t : Team) (c : Col) (x : Column) : (t.setCol c x).p = t.p := rfl
@[simp] theorem setCol_toks (t : Team) (c : Col) (x : Column) : (t.setCol c x).toks = t.toks := rfl
@[simp] theorem setCol_flags (t : Team) (c : Col) (x : Column) : (t.setCol c x).flags = t.flags := rfl
@[simp] theorem setCol_cnt (t : Team) (c : Col) (x : Column) : (t.setCol c x).cnt = t.cnt := rfl
@[simp] theorem setCol_bars (t : Team) (c : Col) (x : Column) : (t.setCol c x).bars = t.bars := rfl
@[simp] theorem setCol_mbx (t : Team) (c : Col) (x : Column) : (t.setCol c x).mbx = t.mbx := rfl
@[simp] theorem setCol_vrm (t : Team) (c : Col) (x : Column) : (t.setCol c x).vrm = t.vrm := rfl
@[simp] theorem setCol_vsat (t : Team) (c : Col) (x : Column) : (t.setCol c x).vsat = t.vsat := rfl
@[simp] theorem setCol_vshape (t : Team) (c : Col) (x : Column) : (t.setCol c x).vshape = t.vshape := rfl
@[simp] theorem setCol_vexc (t : Team) (c : Col) (x : Column) : (t.setCol c x).vexc = t.vexc := rfl
@[simp] theorem setCol_mexc (t : Team) (c : Col) (x : Column) : (t.setCol c x).mexc = t.mexc := rfl
@[simp] theorem setCol_cexc (t : Team) (c : Col) (x : Column) : (t.setCol c x).cexc = t.cexc := rfl
@[simp] theorem setCol_stkb (t : Team) (c : Col) (x : Column) : (t.setCol c x).stkb = t.stkb := rfl
@[simp] theorem setCol_stkl (t : Team) (c : Col) (x : Column) : (t.setCol c x).stkl = t.stkl := rfl
@[simp] theorem setCol_stkp (t : Team) (c : Col) (x : Column) : (t.setCol c x).stkp = t.stkp := rfl
@[simp] theorem setCol_dbgctl (t : Team) (c : Col) (x : Column) : (t.setCol c x).dbgctl = t.dbgctl := rfl
@[simp] theorem setCol_tfb (t : Team) (c : Col) (x : Column) : (t.setCol c x).tfb = t.tfb := rfl
@[simp] theorem setCol_tcause (t : Team) (c : Col) (x : Column) : (t.setCol c x).tcause = t.tcause := rfl
@[simp] theorem setCol_tval (t : Team) (c : Col) (x : Column) : (t.setCol c x).tval = t.tval := rfl
@[simp] theorem setCol_tepc (t : Team) (c : Col) (x : Column) : (t.setCol c x).tepc = t.tepc := rfl
@[simp] theorem setCol_tstat (t : Team) (c : Col) (x : Column) : (t.setCol c x).tstat = t.tstat := rfl
@[simp] theorem setCol_tie (t : Team) (c : Col) (x : Column) : (t.setCol c x).tie = t.tie := rfl
@[simp] theorem setCol_tip (t : Team) (c : Col) (x : Column) : (t.setCol c x).tip = t.tip := rfl
@[simp] theorem setCol_tscratch (t : Team) (c : Col) (x : Column) : (t.setCol c x).tscratch = t.tscratch := rfl
@[simp] theorem setCol_timecmp (t : Team) (c : Col) (x : Column) : (t.setCol c x).timecmp = t.timecmp := rfl
@[simp] theorem setCol_csrTaint (t : Team) (c : Col) (x : Column) : (t.setCol c x).csrTaint = t.csrTaint := rfl
@[simp] theorem setCol_spad (t : Team) (c : Col) (x : Column) : (t.setCol c x).spad = t.spad := rfl
@[simp] theorem setCol_spadTaint (t : Team) (c : Col) (x : Column) : (t.setCol c x).spadTaint = t.spadTaint := rfl
@[simp] theorem setCol_sick (t : Team) (c : Col) (x : Column) : (t.setCol c x).sick = t.sick := rfl
@[simp] theorem setCol_unseen (t : Team) (c : Col) (x : Column) : (t.setCol c x).unseen = t.unseen := rfl
@[simp] theorem setCol_told (t : Team) (c : Col) (x : Column) : (t.setCol c x).told = t.told := rfl
@[simp] theorem setCol_heard (t : Team) (c : Col) (x : Column) : (t.setCol c x).heard = t.heard := rfl
@[simp] theorem setCol_fresh (t : Team) (c : Col) (x : Column) : (t.setCol c x).fresh = t.fresh := rfl
@[simp] theorem setCol_touch (t : Team) (c : Col) (x : Column) : (t.setCol c x).touch = t.touch := rfl
@[simp] theorem setCol_coming (t : Team) (c : Col) (x : Column) : (t.setCol c x).coming = t.coming := rfl
@[simp] theorem setCol_ways (t : Team) (c : Col) (x : Column) : (t.setCol c x).ways = t.ways := rfl
@[simp] theorem setCol_bfmt (t : Team) (c : Col) (x : Column) : (t.setCol c x).bfmt = t.bfmt := rfl
@[simp] theorem setCol_books (t : Team) (c : Col) (x : Column) : (t.setCol c x).books = t.books := rfl
@[simp] theorem setCol_cache (t : Team) (c : Col) (x : Column) : (t.setCol c x).cache = t.cache := rfl
@[simp] theorem setCol_acc (t : Team) (c : Col) (x : Column) : (t.setCol c x).acc = t.acc := rfl
@[simp] theorem setCol_accTaint (t : Team) (c : Col) (x : Column) : (t.setCol c x).accTaint = t.accTaint := rfl
@[simp] theorem setCol_accSick (t : Team) (c : Col) (x : Column) : (t.setCol c x).accSick = t.accSick := rfl
@[simp] theorem setCol_found (t : Team) (c : Col) (x : Column) : (t.setCol c x).found = t.found := rfl
@[simp] theorem setCol_mfmt (t : Team) (c : Col) (x : Column) : (t.setCol c x).mfmt = t.mfmt := rfl
@[simp] theorem setCol_mringA (t : Team) (c : Col) (x : Column) : (t.setCol c x).mringA = t.mringA := rfl
@[simp] theorem setCol_mringB (t : Team) (c : Col) (x : Column) : (t.setCol c x).mringB = t.mringB := rfl
@[simp] theorem setCol_mnest (t : Team) (c : Col) (x : Column) : (t.setCol c x).mnest = t.mnest := rfl
@[simp] theorem setCol_active (t : Team) (c : Col) (x : Column) : (t.setCol c x).active = t.active := rfl
@[simp] theorem setCol_rA (t : Team) (c : Col) (x : Column) : (t.setCol c x).rA = t.rA := rfl
@[simp] theorem setCol_rB (t : Team) (c : Col) (x : Column) : (t.setCol c x).rB = t.rB := rfl
@[simp] theorem setCol_engine (t : Team) (c : Col) (x : Column) : (t.setCol c x).engine = t.engine := rfl
@[simp] theorem setCol_engineFree (t : Team) (c : Col) (x : Column) : (t.setCol c x).engineFree = t.engineFree := rfl
@[simp] theorem setCol_plaitObs (t : Team) (c : Col) (x : Column) : (t.setCol c x).plaitObs = t.plaitObs := rfl
@[simp] theorem setCol_hidden (t : Team) (c : Col) (x : Column) : (t.setCol c x).hidden = t.hidden := rfl
@[simp] theorem setCol_inbound (t : Team) (c : Col) (x : Column) : (t.setCol c x).inbound = t.inbound := rfl
@[simp] theorem setCol_border (t : Team) (c : Col) (x : Column) : (t.setCol c x).border = t.border := rfl
@[simp] theorem setCol_inbox (t : Team) (c : Col) (x : Column) : (t.setCol c x).inbox = t.inbox := rfl
@[simp] theorem setCol_plaits (t : Team) (c : Col) (x : Column) : (t.setCol c x).plaits = t.plaits := rfl
@[simp] theorem setCol_copies (t : Team) (c : Col) (x : Column) : (t.setCol c x).copies = t.copies := rfl
@[simp] theorem setCol_xferFree (t : Team) (c : Col) (x : Column) : (t.setCol c x).xferFree = t.xferFree := rfl
@[simp] theorem setCol_advances (t : Team) (c : Col) (x : Column) : (t.setCol c x).advances = t.advances := rfl
@[simp] theorem setCol_cpx (t : Team) (c : Col) (x : Column) : (t.setCol c x).cpx = t.cpx := rfl
@[simp] theorem setCol_pend (t : Team) (c : Col) (x : Column) : (t.setCol c x).pend = t.pend := rfl
@[simp] theorem setCol_waiting (t : Team) (c : Col) (x : Column) : (t.setCol c x).waiting = t.waiting := rfl
@[simp] theorem setCol_traps (t : Team) (c : Col) (x : Column) : (t.setCol c x).traps = t.traps := rfl
@[simp] theorem setCol_freezeReq (t : Team) (c : Col) (x : Column) : (t.setCol c x).freezeReq = t.freezeReq := rfl
@[simp] theorem setCol_lastPulse (t : Team) (c : Col) (x : Column) : (t.setCol c x).lastPulse = t.lastPulse := rfl
@[simp] theorem setCol_nextId (t : Team) (c : Col) (x : Column) : (t.setCol c x).nextId = t.nextId := rfl

/-! ## A column changed -/

@[simp] theorem modCol_cid (t : Team) (c : Col) (g : Column → Column) : (t.modCol c g).cid = t.cid := rfl
@[simp] theorem modCol_launch (t : Team) (c : Col) (g : Column → Column) : (t.modCol c g).launch = t.launch := rfl
@[simp] theorem modCol_job (t : Team) (c : Col) (g : Column → Column) : (t.modCol c g).job = t.job := rfl
@[simp] theorem modCol_ord (t : Team) (c : Col) (g : Column → Column) : (t.modCol c g).ord = t.ord := rfl
@[simp] theorem modCol_patch (t : Team) (c : Col) (g : Column → Column) : (t.modCol c g).patch = t.patch := rfl
@[simp] theorem modCol_pext (t : Team) (c : Col) (g : Column → Column) : (t.modCol c g).pext = t.pext := rfl
@[simp] theorem modCol_ndet (t : Team) (c : Col) (g : Column → Column) : (t.modCol c g).ndet = t.ndet := rfl
@[simp] theorem modCol_tgroup (t : Team) (c : Col) (g : Column → Column) : (t.modCol c g).tgroup = t.tgroup := rfl
@[simp] theorem modCol_banks (t : Team) (c : Col) (g : Column → Column) : (t.modCol c g).banks = t.banks := rfl
@[simp] theorem modCol_granules (t : Team) (c : Col) (g : Column → Column) : (t.modCol c g).granules = t.granules := rfl
@[simp] theorem modCol_inboxBase (t : Team) (c : Col) (g : Column → Column) : (t.modCol c g).inboxBase = t.inboxBase := rfl
@[simp] theorem modCol_tfLen (t : Team) (c : Col) (g : Column → Column) : (t.modCol c g).tfLen = t.tfLen := rfl
@[simp] theorem modCol_clk (t : Team) (c : Col) (g : Column → Column) : (t.modCol c g).clk = t.clk := rfl
@[simp] theorem modCol_delta (t : Team) (c : Col) (g : Column → Column) : (t.modCol c g).delta = t.delta := rfl
@[simp] theorem modCol_frozen (t : Team) (c : Col) (g : Column → Column) : (t.modCol c g).frozen = t.frozen := rfl
@[simp] theorem modCol_frozenNs (t : Team) (c : Col) (g : Column → Column) : (t.modCol c g).frozenNs = t.frozenNs := rfl
@[simp] theorem modCol_frozenWhy (t : Team) (c : Col) (g : Column → Column) : (t.modCol c g).frozenWhy = t.frozenWhy := rfl
@[simp] theorem modCol_svc (t : Team) (c : Col) (g : Column → Column) : (t.modCol c g).svc = t.svc := rfl
@[simp] theorem modCol_handler (t : Team) (c : Col) (g : Column → Column) : (t.modCol c g).handler = t.handler := rfl
@[simp] theorem modCol_depth (t : Team) (c : Col) (g : Column → Column) : (t.modCol c g).depth = t.depth := rfl
@[simp] theorem modCol_svcClk (t : Team) (c : Col) (g : Column → Column) : (t.modCol c g).svcClk = t.svcClk := rfl
@[simp] theorem modCol_svcPend (t : Team) (c : Col) (g : Column → Column) : (t.modCol c g).svcPend = t.svcPend := rfl
@[simp] theorem modCol_held (t : Team) (c : Col) (g : Column → Column) : (t.modCol c g).held = t.held := rfl
@[simp] theorem modCol_parked (t : Team) (c : Col) (g : Column → Column) : (t.modCol c g).parked = t.parked := rfl
@[simp] theorem modCol_hoop (t : Team) (c : Col) (g : Column → Column) : (t.modCol c g).hoop = t.hoop := rfl
@[simp] theorem modCol_s (t : Team) (c : Col) (g : Column → Column) : (t.modCol c g).s = t.s := rfl
@[simp] theorem modCol_a (t : Team) (c : Col) (g : Column → Column) : (t.modCol c g).a = t.a := rfl
@[simp] theorem modCol_v (t : Team) (c : Col) (g : Column → Column) : (t.modCol c g).v = t.v := rfl
@[simp] theorem modCol_o (t : Team) (c : Col) (g : Column → Column) : (t.modCol c g).o = t.o := rfl
@[simp] theorem modCol_lat (t : Team) (c : Col) (g : Column → Column) : (t.modCol c g).lat = t.lat := rfl
@[simp] theorem modCol_q (t : Team) (c : Col) (g : Column → Column) : (t.modCol c g).q = t.q := rfl
@[simp] theorem modCol_w (t : Team) (c : Col) (g : Column → Column) : (t.modCol c g).w = t.w := rfl
@[simp] theorem modCol_k (t : Team) (c : Col) (g : Column → Column) : (t.modCol c g).k = t.k := rfl
@[simp] theorem modCol_m (t : Team) (c : Col) (g : Column → Column) : (t.modCol c g).m = t.m := rfl
@[simp] theorem modCol_n (t : Team) (c : Col) (g : Column → Column) : (t.modCol c g).n = t.n := rfl
@[simp] theorem modCol_tab (t : Team) (c : Col) (g : Column → Column) : (t.modCol c g).tab = t.tab := rfl
@[simp] theorem modCol_p (t : Team) (c : Col) (g : Column → Column) : (t.modCol c g).p = t.p := rfl
@[simp] theorem modCol_toks (t : Team) (c : Col) (g : Column → Column) : (t.modCol c g).toks = t.toks := rfl
@[simp] theorem modCol_flags (t : Team) (c : Col) (g : Column → Column) : (t.modCol c g).flags = t.flags := rfl
@[simp] theorem modCol_cnt (t : Team) (c : Col) (g : Column → Column) : (t.modCol c g).cnt = t.cnt := rfl
@[simp] theorem modCol_bars (t : Team) (c : Col) (g : Column → Column) : (t.modCol c g).bars = t.bars := rfl
@[simp] theorem modCol_mbx (t : Team) (c : Col) (g : Column → Column) : (t.modCol c g).mbx = t.mbx := rfl
@[simp] theorem modCol_vrm (t : Team) (c : Col) (g : Column → Column) : (t.modCol c g).vrm = t.vrm := rfl
@[simp] theorem modCol_vsat (t : Team) (c : Col) (g : Column → Column) : (t.modCol c g).vsat = t.vsat := rfl
@[simp] theorem modCol_vshape (t : Team) (c : Col) (g : Column → Column) : (t.modCol c g).vshape = t.vshape := rfl
@[simp] theorem modCol_vexc (t : Team) (c : Col) (g : Column → Column) : (t.modCol c g).vexc = t.vexc := rfl
@[simp] theorem modCol_mexc (t : Team) (c : Col) (g : Column → Column) : (t.modCol c g).mexc = t.mexc := rfl
@[simp] theorem modCol_cexc (t : Team) (c : Col) (g : Column → Column) : (t.modCol c g).cexc = t.cexc := rfl
@[simp] theorem modCol_stkb (t : Team) (c : Col) (g : Column → Column) : (t.modCol c g).stkb = t.stkb := rfl
@[simp] theorem modCol_stkl (t : Team) (c : Col) (g : Column → Column) : (t.modCol c g).stkl = t.stkl := rfl
@[simp] theorem modCol_stkp (t : Team) (c : Col) (g : Column → Column) : (t.modCol c g).stkp = t.stkp := rfl
@[simp] theorem modCol_dbgctl (t : Team) (c : Col) (g : Column → Column) : (t.modCol c g).dbgctl = t.dbgctl := rfl
@[simp] theorem modCol_tfb (t : Team) (c : Col) (g : Column → Column) : (t.modCol c g).tfb = t.tfb := rfl
@[simp] theorem modCol_tcause (t : Team) (c : Col) (g : Column → Column) : (t.modCol c g).tcause = t.tcause := rfl
@[simp] theorem modCol_tval (t : Team) (c : Col) (g : Column → Column) : (t.modCol c g).tval = t.tval := rfl
@[simp] theorem modCol_tepc (t : Team) (c : Col) (g : Column → Column) : (t.modCol c g).tepc = t.tepc := rfl
@[simp] theorem modCol_tstat (t : Team) (c : Col) (g : Column → Column) : (t.modCol c g).tstat = t.tstat := rfl
@[simp] theorem modCol_tie (t : Team) (c : Col) (g : Column → Column) : (t.modCol c g).tie = t.tie := rfl
@[simp] theorem modCol_tip (t : Team) (c : Col) (g : Column → Column) : (t.modCol c g).tip = t.tip := rfl
@[simp] theorem modCol_tscratch (t : Team) (c : Col) (g : Column → Column) : (t.modCol c g).tscratch = t.tscratch := rfl
@[simp] theorem modCol_timecmp (t : Team) (c : Col) (g : Column → Column) : (t.modCol c g).timecmp = t.timecmp := rfl
@[simp] theorem modCol_csrTaint (t : Team) (c : Col) (g : Column → Column) : (t.modCol c g).csrTaint = t.csrTaint := rfl
@[simp] theorem modCol_spad (t : Team) (c : Col) (g : Column → Column) : (t.modCol c g).spad = t.spad := rfl
@[simp] theorem modCol_spadTaint (t : Team) (c : Col) (g : Column → Column) : (t.modCol c g).spadTaint = t.spadTaint := rfl
@[simp] theorem modCol_sick (t : Team) (c : Col) (g : Column → Column) : (t.modCol c g).sick = t.sick := rfl
@[simp] theorem modCol_unseen (t : Team) (c : Col) (g : Column → Column) : (t.modCol c g).unseen = t.unseen := rfl
@[simp] theorem modCol_told (t : Team) (c : Col) (g : Column → Column) : (t.modCol c g).told = t.told := rfl
@[simp] theorem modCol_heard (t : Team) (c : Col) (g : Column → Column) : (t.modCol c g).heard = t.heard := rfl
@[simp] theorem modCol_fresh (t : Team) (c : Col) (g : Column → Column) : (t.modCol c g).fresh = t.fresh := rfl
@[simp] theorem modCol_touch (t : Team) (c : Col) (g : Column → Column) : (t.modCol c g).touch = t.touch := rfl
@[simp] theorem modCol_coming (t : Team) (c : Col) (g : Column → Column) : (t.modCol c g).coming = t.coming := rfl
@[simp] theorem modCol_ways (t : Team) (c : Col) (g : Column → Column) : (t.modCol c g).ways = t.ways := rfl
@[simp] theorem modCol_bfmt (t : Team) (c : Col) (g : Column → Column) : (t.modCol c g).bfmt = t.bfmt := rfl
@[simp] theorem modCol_books (t : Team) (c : Col) (g : Column → Column) : (t.modCol c g).books = t.books := rfl
@[simp] theorem modCol_cache (t : Team) (c : Col) (g : Column → Column) : (t.modCol c g).cache = t.cache := rfl
@[simp] theorem modCol_acc (t : Team) (c : Col) (g : Column → Column) : (t.modCol c g).acc = t.acc := rfl
@[simp] theorem modCol_accTaint (t : Team) (c : Col) (g : Column → Column) : (t.modCol c g).accTaint = t.accTaint := rfl
@[simp] theorem modCol_accSick (t : Team) (c : Col) (g : Column → Column) : (t.modCol c g).accSick = t.accSick := rfl
@[simp] theorem modCol_found (t : Team) (c : Col) (g : Column → Column) : (t.modCol c g).found = t.found := rfl
@[simp] theorem modCol_mfmt (t : Team) (c : Col) (g : Column → Column) : (t.modCol c g).mfmt = t.mfmt := rfl
@[simp] theorem modCol_mringA (t : Team) (c : Col) (g : Column → Column) : (t.modCol c g).mringA = t.mringA := rfl
@[simp] theorem modCol_mringB (t : Team) (c : Col) (g : Column → Column) : (t.modCol c g).mringB = t.mringB := rfl
@[simp] theorem modCol_mnest (t : Team) (c : Col) (g : Column → Column) : (t.modCol c g).mnest = t.mnest := rfl
@[simp] theorem modCol_active (t : Team) (c : Col) (g : Column → Column) : (t.modCol c g).active = t.active := rfl
@[simp] theorem modCol_rA (t : Team) (c : Col) (g : Column → Column) : (t.modCol c g).rA = t.rA := rfl
@[simp] theorem modCol_rB (t : Team) (c : Col) (g : Column → Column) : (t.modCol c g).rB = t.rB := rfl
@[simp] theorem modCol_engine (t : Team) (c : Col) (g : Column → Column) : (t.modCol c g).engine = t.engine := rfl
@[simp] theorem modCol_engineFree (t : Team) (c : Col) (g : Column → Column) : (t.modCol c g).engineFree = t.engineFree := rfl
@[simp] theorem modCol_plaitObs (t : Team) (c : Col) (g : Column → Column) : (t.modCol c g).plaitObs = t.plaitObs := rfl
@[simp] theorem modCol_hidden (t : Team) (c : Col) (g : Column → Column) : (t.modCol c g).hidden = t.hidden := rfl
@[simp] theorem modCol_inbound (t : Team) (c : Col) (g : Column → Column) : (t.modCol c g).inbound = t.inbound := rfl
@[simp] theorem modCol_border (t : Team) (c : Col) (g : Column → Column) : (t.modCol c g).border = t.border := rfl
@[simp] theorem modCol_inbox (t : Team) (c : Col) (g : Column → Column) : (t.modCol c g).inbox = t.inbox := rfl
@[simp] theorem modCol_plaits (t : Team) (c : Col) (g : Column → Column) : (t.modCol c g).plaits = t.plaits := rfl
@[simp] theorem modCol_copies (t : Team) (c : Col) (g : Column → Column) : (t.modCol c g).copies = t.copies := rfl
@[simp] theorem modCol_xferFree (t : Team) (c : Col) (g : Column → Column) : (t.modCol c g).xferFree = t.xferFree := rfl
@[simp] theorem modCol_advances (t : Team) (c : Col) (g : Column → Column) : (t.modCol c g).advances = t.advances := rfl
@[simp] theorem modCol_cpx (t : Team) (c : Col) (g : Column → Column) : (t.modCol c g).cpx = t.cpx := rfl
@[simp] theorem modCol_pend (t : Team) (c : Col) (g : Column → Column) : (t.modCol c g).pend = t.pend := rfl
@[simp] theorem modCol_waiting (t : Team) (c : Col) (g : Column → Column) : (t.modCol c g).waiting = t.waiting := rfl
@[simp] theorem modCol_traps (t : Team) (c : Col) (g : Column → Column) : (t.modCol c g).traps = t.traps := rfl
@[simp] theorem modCol_freezeReq (t : Team) (c : Col) (g : Column → Column) : (t.modCol c g).freezeReq = t.freezeReq := rfl
@[simp] theorem modCol_lastPulse (t : Team) (c : Col) (g : Column → Column) : (t.modCol c g).lastPulse = t.lastPulse := rfl
@[simp] theorem modCol_nextId (t : Team) (c : Col) (g : Column → Column) : (t.modCol c g).nextId = t.nextId := rfl

/-! ## An effect on its way -/

@[simp] theorem later_cid (t : Team) (c : Col) (p : Pend) : (t.later c p).cid = t.cid := by unfold Team.later; split <;> rfl
@[simp] theorem later_launch (t : Team) (c : Col) (p : Pend) : (t.later c p).launch = t.launch :=
  by unfold Team.later; split <;> rfl
@[simp] theorem later_job (t : Team) (c : Col) (p : Pend) : (t.later c p).job = t.job := by unfold Team.later; split <;> rfl
@[simp] theorem later_ord (t : Team) (c : Col) (p : Pend) : (t.later c p).ord = t.ord := by unfold Team.later; split <;> rfl
@[simp] theorem later_patch (t : Team) (c : Col) (p : Pend) : (t.later c p).patch = t.patch :=
  by unfold Team.later; split <;> rfl
@[simp] theorem later_pext (t : Team) (c : Col) (p : Pend) : (t.later c p).pext = t.pext := by unfold Team.later; split <;> rfl
@[simp] theorem later_ndet (t : Team) (c : Col) (p : Pend) : (t.later c p).ndet = t.ndet := by unfold Team.later; split <;> rfl
@[simp] theorem later_tgroup (t : Team) (c : Col) (p : Pend) : (t.later c p).tgroup = t.tgroup :=
  by unfold Team.later; split <;> rfl
@[simp] theorem later_banks (t : Team) (c : Col) (p : Pend) : (t.later c p).banks = t.banks :=
  by unfold Team.later; split <;> rfl
@[simp] theorem later_granules (t : Team) (c : Col) (p : Pend) : (t.later c p).granules = t.granules :=
  by unfold Team.later; split <;> rfl
@[simp] theorem later_inboxBase (t : Team) (c : Col) (p : Pend) : (t.later c p).inboxBase = t.inboxBase :=
  by unfold Team.later; split <;> rfl
@[simp] theorem later_tfLen (t : Team) (c : Col) (p : Pend) : (t.later c p).tfLen = t.tfLen :=
  by unfold Team.later; split <;> rfl
@[simp] theorem later_clk (t : Team) (c : Col) (p : Pend) : (t.later c p).clk = t.clk := by unfold Team.later; split <;> rfl
@[simp] theorem later_delta (t : Team) (c : Col) (p : Pend) : (t.later c p).delta = t.delta :=
  by unfold Team.later; split <;> rfl
@[simp] theorem later_frozen (t : Team) (c : Col) (p : Pend) : (t.later c p).frozen = t.frozen :=
  by unfold Team.later; split <;> rfl
@[simp] theorem later_frozenNs (t : Team) (c : Col) (p : Pend) : (t.later c p).frozenNs = t.frozenNs :=
  by unfold Team.later; split <;> rfl
@[simp] theorem later_frozenWhy (t : Team) (c : Col) (p : Pend) : (t.later c p).frozenWhy = t.frozenWhy :=
  by unfold Team.later; split <;> rfl
@[simp] theorem later_svc (t : Team) (c : Col) (p : Pend) : (t.later c p).svc = t.svc := by unfold Team.later; split <;> rfl
@[simp] theorem later_handler (t : Team) (c : Col) (p : Pend) : (t.later c p).handler = t.handler :=
  by unfold Team.later; split <;> rfl
@[simp] theorem later_depth (t : Team) (c : Col) (p : Pend) : (t.later c p).depth = t.depth :=
  by unfold Team.later; split <;> rfl
@[simp] theorem later_svcClk (t : Team) (c : Col) (p : Pend) : (t.later c p).svcClk = t.svcClk :=
  by unfold Team.later; split <;> rfl
@[simp] theorem later_held (t : Team) (c : Col) (p : Pend) : (t.later c p).held = t.held := by unfold Team.later; split <;> rfl
@[simp] theorem later_parked (t : Team) (c : Col) (p : Pend) : (t.later c p).parked = t.parked :=
  by unfold Team.later; split <;> rfl
@[simp] theorem later_hoop (t : Team) (c : Col) (p : Pend) : (t.later c p).hoop = t.hoop := by unfold Team.later; split <;> rfl
@[simp] theorem later_cols (t : Team) (c : Col) (p : Pend) : (t.later c p).cols = t.cols := by unfold Team.later; split <;> rfl
@[simp] theorem later_s (t : Team) (c : Col) (p : Pend) : (t.later c p).s = t.s := by unfold Team.later; split <;> rfl
@[simp] theorem later_a (t : Team) (c : Col) (p : Pend) : (t.later c p).a = t.a := by unfold Team.later; split <;> rfl
@[simp] theorem later_v (t : Team) (c : Col) (p : Pend) : (t.later c p).v = t.v := by unfold Team.later; split <;> rfl
@[simp] theorem later_o (t : Team) (c : Col) (p : Pend) : (t.later c p).o = t.o := by unfold Team.later; split <;> rfl
@[simp] theorem later_lat (t : Team) (c : Col) (p : Pend) : (t.later c p).lat = t.lat := by unfold Team.later; split <;> rfl
@[simp] theorem later_q (t : Team) (c : Col) (p : Pend) : (t.later c p).q = t.q := by unfold Team.later; split <;> rfl
@[simp] theorem later_w (t : Team) (c : Col) (p : Pend) : (t.later c p).w = t.w := by unfold Team.later; split <;> rfl
@[simp] theorem later_k (t : Team) (c : Col) (p : Pend) : (t.later c p).k = t.k := by unfold Team.later; split <;> rfl
@[simp] theorem later_m (t : Team) (c : Col) (p : Pend) : (t.later c p).m = t.m := by unfold Team.later; split <;> rfl
@[simp] theorem later_n (t : Team) (c : Col) (p : Pend) : (t.later c p).n = t.n := by unfold Team.later; split <;> rfl
@[simp] theorem later_tab (t : Team) (c : Col) (p : Pend) : (t.later c p).tab = t.tab := by unfold Team.later; split <;> rfl
@[simp] theorem later_p (t : Team) (c : Col) (p : Pend) : (t.later c p).p = t.p := by unfold Team.later; split <;> rfl
@[simp] theorem later_toks (t : Team) (c : Col) (p : Pend) : (t.later c p).toks = t.toks := by unfold Team.later; split <;> rfl
@[simp] theorem later_flags (t : Team) (c : Col) (p : Pend) : (t.later c p).flags = t.flags :=
  by unfold Team.later; split <;> rfl
@[simp] theorem later_cnt (t : Team) (c : Col) (p : Pend) : (t.later c p).cnt = t.cnt := by unfold Team.later; split <;> rfl
@[simp] theorem later_bars (t : Team) (c : Col) (p : Pend) : (t.later c p).bars = t.bars := by unfold Team.later; split <;> rfl
@[simp] theorem later_mbx (t : Team) (c : Col) (p : Pend) : (t.later c p).mbx = t.mbx := by unfold Team.later; split <;> rfl
@[simp] theorem later_vrm (t : Team) (c : Col) (p : Pend) : (t.later c p).vrm = t.vrm := by unfold Team.later; split <;> rfl
@[simp] theorem later_vsat (t : Team) (c : Col) (p : Pend) : (t.later c p).vsat = t.vsat := by unfold Team.later; split <;> rfl
@[simp] theorem later_vshape (t : Team) (c : Col) (p : Pend) : (t.later c p).vshape = t.vshape :=
  by unfold Team.later; split <;> rfl
@[simp] theorem later_vexc (t : Team) (c : Col) (p : Pend) : (t.later c p).vexc = t.vexc := by unfold Team.later; split <;> rfl
@[simp] theorem later_mexc (t : Team) (c : Col) (p : Pend) : (t.later c p).mexc = t.mexc := by unfold Team.later; split <;> rfl
@[simp] theorem later_cexc (t : Team) (c : Col) (p : Pend) : (t.later c p).cexc = t.cexc := by unfold Team.later; split <;> rfl
@[simp] theorem later_stkb (t : Team) (c : Col) (p : Pend) : (t.later c p).stkb = t.stkb := by unfold Team.later; split <;> rfl
@[simp] theorem later_stkl (t : Team) (c : Col) (p : Pend) : (t.later c p).stkl = t.stkl := by unfold Team.later; split <;> rfl
@[simp] theorem later_stkp (t : Team) (c : Col) (p : Pend) : (t.later c p).stkp = t.stkp := by unfold Team.later; split <;> rfl
@[simp] theorem later_dbgctl (t : Team) (c : Col) (p : Pend) : (t.later c p).dbgctl = t.dbgctl :=
  by unfold Team.later; split <;> rfl
@[simp] theorem later_tfb (t : Team) (c : Col) (p : Pend) : (t.later c p).tfb = t.tfb := by unfold Team.later; split <;> rfl
@[simp] theorem later_tcause (t : Team) (c : Col) (p : Pend) : (t.later c p).tcause = t.tcause :=
  by unfold Team.later; split <;> rfl
@[simp] theorem later_tval (t : Team) (c : Col) (p : Pend) : (t.later c p).tval = t.tval := by unfold Team.later; split <;> rfl
@[simp] theorem later_tepc (t : Team) (c : Col) (p : Pend) : (t.later c p).tepc = t.tepc := by unfold Team.later; split <;> rfl
@[simp] theorem later_tstat (t : Team) (c : Col) (p : Pend) : (t.later c p).tstat = t.tstat :=
  by unfold Team.later; split <;> rfl
@[simp] theorem later_tie (t : Team) (c : Col) (p : Pend) : (t.later c p).tie = t.tie := by unfold Team.later; split <;> rfl
@[simp] theorem later_tip (t : Team) (c : Col) (p : Pend) : (t.later c p).tip = t.tip := by unfold Team.later; split <;> rfl
@[simp] theorem later_tscratch (t : Team) (c : Col) (p : Pend) : (t.later c p).tscratch = t.tscratch :=
  by unfold Team.later; split <;> rfl
@[simp] theorem later_timecmp (t : Team) (c : Col) (p : Pend) : (t.later c p).timecmp = t.timecmp :=
  by unfold Team.later; split <;> rfl
@[simp] theorem later_csrTaint (t : Team) (c : Col) (p : Pend) : (t.later c p).csrTaint = t.csrTaint :=
  by unfold Team.later; split <;> rfl
@[simp] theorem later_spad (t : Team) (c : Col) (p : Pend) : (t.later c p).spad = t.spad := by unfold Team.later; split <;> rfl
@[simp] theorem later_spadTaint (t : Team) (c : Col) (p : Pend) : (t.later c p).spadTaint = t.spadTaint :=
  by unfold Team.later; split <;> rfl
@[simp] theorem later_sick (t : Team) (c : Col) (p : Pend) : (t.later c p).sick = t.sick := by unfold Team.later; split <;> rfl
@[simp] theorem later_unseen (t : Team) (c : Col) (p : Pend) : (t.later c p).unseen = t.unseen :=
  by unfold Team.later; split <;> rfl
@[simp] theorem later_told (t : Team) (c : Col) (p : Pend) : (t.later c p).told = t.told := by unfold Team.later; split <;> rfl
@[simp] theorem later_heard (t : Team) (c : Col) (p : Pend) : (t.later c p).heard = t.heard :=
  by unfold Team.later; split <;> rfl
@[simp] theorem later_fresh (t : Team) (c : Col) (p : Pend) : (t.later c p).fresh = t.fresh :=
  by unfold Team.later; split <;> rfl
@[simp] theorem later_touch (t : Team) (c : Col) (p : Pend) : (t.later c p).touch = t.touch :=
  by unfold Team.later; split <;> rfl
@[simp] theorem later_coming (t : Team) (c : Col) (p : Pend) : (t.later c p).coming = t.coming :=
  by unfold Team.later; split <;> rfl
@[simp] theorem later_ways (t : Team) (c : Col) (p : Pend) : (t.later c p).ways = t.ways := by unfold Team.later; split <;> rfl
@[simp] theorem later_bfmt (t : Team) (c : Col) (p : Pend) : (t.later c p).bfmt = t.bfmt := by unfold Team.later; split <;> rfl
@[simp] theorem later_books (t : Team) (c : Col) (p : Pend) : (t.later c p).books = t.books :=
  by unfold Team.later; split <;> rfl
@[simp] theorem later_cache (t : Team) (c : Col) (p : Pend) : (t.later c p).cache = t.cache :=
  by unfold Team.later; split <;> rfl
@[simp] theorem later_acc (t : Team) (c : Col) (p : Pend) : (t.later c p).acc = t.acc := by unfold Team.later; split <;> rfl
@[simp] theorem later_accTaint (t : Team) (c : Col) (p : Pend) : (t.later c p).accTaint = t.accTaint :=
  by unfold Team.later; split <;> rfl
@[simp] theorem later_accSick (t : Team) (c : Col) (p : Pend) : (t.later c p).accSick = t.accSick :=
  by unfold Team.later; split <;> rfl
@[simp] theorem later_found (t : Team) (c : Col) (p : Pend) : (t.later c p).found = t.found :=
  by unfold Team.later; split <;> rfl
@[simp] theorem later_mfmt (t : Team) (c : Col) (p : Pend) : (t.later c p).mfmt = t.mfmt := by unfold Team.later; split <;> rfl
@[simp] theorem later_mringA (t : Team) (c : Col) (p : Pend) : (t.later c p).mringA = t.mringA :=
  by unfold Team.later; split <;> rfl
@[simp] theorem later_mringB (t : Team) (c : Col) (p : Pend) : (t.later c p).mringB = t.mringB :=
  by unfold Team.later; split <;> rfl
@[simp] theorem later_mnest (t : Team) (c : Col) (p : Pend) : (t.later c p).mnest = t.mnest :=
  by unfold Team.later; split <;> rfl
@[simp] theorem later_active (t : Team) (c : Col) (p : Pend) : (t.later c p).active = t.active :=
  by unfold Team.later; split <;> rfl
@[simp] theorem later_rA (t : Team) (c : Col) (p : Pend) : (t.later c p).rA = t.rA := by unfold Team.later; split <;> rfl
@[simp] theorem later_rB (t : Team) (c : Col) (p : Pend) : (t.later c p).rB = t.rB := by unfold Team.later; split <;> rfl
@[simp] theorem later_engine (t : Team) (c : Col) (p : Pend) : (t.later c p).engine = t.engine :=
  by unfold Team.later; split <;> rfl
@[simp] theorem later_engineFree (t : Team) (c : Col) (p : Pend) : (t.later c p).engineFree = t.engineFree :=
  by unfold Team.later; split <;> rfl
@[simp] theorem later_plaitObs (t : Team) (c : Col) (p : Pend) : (t.later c p).plaitObs = t.plaitObs :=
  by unfold Team.later; split <;> rfl
@[simp] theorem later_hidden (t : Team) (c : Col) (p : Pend) : (t.later c p).hidden = t.hidden :=
  by unfold Team.later; split <;> rfl
@[simp] theorem later_inbound (t : Team) (c : Col) (p : Pend) : (t.later c p).inbound = t.inbound :=
  by unfold Team.later; split <;> rfl
@[simp] theorem later_border (t : Team) (c : Col) (p : Pend) : (t.later c p).border = t.border :=
  by unfold Team.later; split <;> rfl
@[simp] theorem later_inbox (t : Team) (c : Col) (p : Pend) : (t.later c p).inbox = t.inbox :=
  by unfold Team.later; split <;> rfl
@[simp] theorem later_plaits (t : Team) (c : Col) (p : Pend) : (t.later c p).plaits = t.plaits :=
  by unfold Team.later; split <;> rfl
@[simp] theorem later_copies (t : Team) (c : Col) (p : Pend) : (t.later c p).copies = t.copies :=
  by unfold Team.later; split <;> rfl
@[simp] theorem later_xferFree (t : Team) (c : Col) (p : Pend) : (t.later c p).xferFree = t.xferFree :=
  by unfold Team.later; split <;> rfl
@[simp] theorem later_advances (t : Team) (c : Col) (p : Pend) : (t.later c p).advances = t.advances :=
  by unfold Team.later; split <;> rfl
@[simp] theorem later_cpx (t : Team) (c : Col) (p : Pend) : (t.later c p).cpx = t.cpx := by unfold Team.later; split <;> rfl
@[simp] theorem later_waiting (t : Team) (c : Col) (p : Pend) : (t.later c p).waiting = t.waiting :=
  by unfold Team.later; split <;> rfl
@[simp] theorem later_traps (t : Team) (c : Col) (p : Pend) : (t.later c p).traps = t.traps :=
  by unfold Team.later; split <;> rfl
@[simp] theorem later_freezeReq (t : Team) (c : Col) (p : Pend) : (t.later c p).freezeReq = t.freezeReq :=
  by unfold Team.later; split <;> rfl
@[simp] theorem later_lastPulse (t : Team) (c : Col) (p : Pend) : (t.later c p).lastPulse = t.lastPulse :=
  by unfold Team.later; split <;> rfl
@[simp] theorem later_nextId (t : Team) (c : Col) (p : Pend) : (t.later c p).nextId = t.nextId :=
  by unfold Team.later; split <;> rfl

/-! ## A register write on its way -/

@[simp] theorem land_cid (t : Team) (cx : Cur) (n : Nat) (w : RegWrite) : (t.land cx n w).cid = t.cid := later_cid ..
@[simp] theorem land_launch (t : Team) (cx : Cur) (n : Nat) (w : RegWrite) : (t.land cx n w).launch = t.launch :=
  later_launch ..
@[simp] theorem land_job (t : Team) (cx : Cur) (n : Nat) (w : RegWrite) : (t.land cx n w).job = t.job := later_job ..
@[simp] theorem land_ord (t : Team) (cx : Cur) (n : Nat) (w : RegWrite) : (t.land cx n w).ord = t.ord := later_ord ..
@[simp] theorem land_patch (t : Team) (cx : Cur) (n : Nat) (w : RegWrite) : (t.land cx n w).patch = t.patch := later_patch ..
@[simp] theorem land_pext (t : Team) (cx : Cur) (n : Nat) (w : RegWrite) : (t.land cx n w).pext = t.pext := later_pext ..
@[simp] theorem land_ndet (t : Team) (cx : Cur) (n : Nat) (w : RegWrite) : (t.land cx n w).ndet = t.ndet := later_ndet ..
@[simp] theorem land_tgroup (t : Team) (cx : Cur) (n : Nat) (w : RegWrite) : (t.land cx n w).tgroup = t.tgroup :=
  later_tgroup ..
@[simp] theorem land_banks (t : Team) (cx : Cur) (n : Nat) (w : RegWrite) : (t.land cx n w).banks = t.banks := later_banks ..
@[simp] theorem land_granules (t : Team) (cx : Cur) (n : Nat) (w : RegWrite) : (t.land cx n w).granules = t.granules :=
  later_granules ..
@[simp] theorem land_inboxBase (t : Team) (cx : Cur) (n : Nat) (w : RegWrite) : (t.land cx n w).inboxBase = t.inboxBase :=
  later_inboxBase ..
@[simp] theorem land_tfLen (t : Team) (cx : Cur) (n : Nat) (w : RegWrite) : (t.land cx n w).tfLen = t.tfLen := later_tfLen ..
@[simp] theorem land_clk (t : Team) (cx : Cur) (n : Nat) (w : RegWrite) : (t.land cx n w).clk = t.clk := later_clk ..
@[simp] theorem land_delta (t : Team) (cx : Cur) (n : Nat) (w : RegWrite) : (t.land cx n w).delta = t.delta := later_delta ..
@[simp] theorem land_frozen (t : Team) (cx : Cur) (n : Nat) (w : RegWrite) : (t.land cx n w).frozen = t.frozen :=
  later_frozen ..
@[simp] theorem land_frozenNs (t : Team) (cx : Cur) (n : Nat) (w : RegWrite) : (t.land cx n w).frozenNs = t.frozenNs :=
  later_frozenNs ..
@[simp] theorem land_frozenWhy (t : Team) (cx : Cur) (n : Nat) (w : RegWrite) : (t.land cx n w).frozenWhy = t.frozenWhy :=
  later_frozenWhy ..
@[simp] theorem land_svc (t : Team) (cx : Cur) (n : Nat) (w : RegWrite) : (t.land cx n w).svc = t.svc := later_svc ..
@[simp] theorem land_handler (t : Team) (cx : Cur) (n : Nat) (w : RegWrite) : (t.land cx n w).handler = t.handler :=
  later_handler ..
@[simp] theorem land_depth (t : Team) (cx : Cur) (n : Nat) (w : RegWrite) : (t.land cx n w).depth = t.depth := later_depth ..
@[simp] theorem land_svcClk (t : Team) (cx : Cur) (n : Nat) (w : RegWrite) : (t.land cx n w).svcClk = t.svcClk :=
  later_svcClk ..
@[simp] theorem land_held (t : Team) (cx : Cur) (n : Nat) (w : RegWrite) : (t.land cx n w).held = t.held := later_held ..
@[simp] theorem land_parked (t : Team) (cx : Cur) (n : Nat) (w : RegWrite) : (t.land cx n w).parked = t.parked :=
  later_parked ..
@[simp] theorem land_hoop (t : Team) (cx : Cur) (n : Nat) (w : RegWrite) : (t.land cx n w).hoop = t.hoop := later_hoop ..
@[simp] theorem land_cols (t : Team) (cx : Cur) (n : Nat) (w : RegWrite) : (t.land cx n w).cols = t.cols := later_cols ..
@[simp] theorem land_s (t : Team) (cx : Cur) (n : Nat) (w : RegWrite) : (t.land cx n w).s = t.s := later_s ..
@[simp] theorem land_a (t : Team) (cx : Cur) (n : Nat) (w : RegWrite) : (t.land cx n w).a = t.a := later_a ..
@[simp] theorem land_v (t : Team) (cx : Cur) (n : Nat) (w : RegWrite) : (t.land cx n w).v = t.v := later_v ..
@[simp] theorem land_o (t : Team) (cx : Cur) (n : Nat) (w : RegWrite) : (t.land cx n w).o = t.o := later_o ..
@[simp] theorem land_lat (t : Team) (cx : Cur) (n : Nat) (w : RegWrite) : (t.land cx n w).lat = t.lat := later_lat ..
@[simp] theorem land_q (t : Team) (cx : Cur) (n : Nat) (w : RegWrite) : (t.land cx n w).q = t.q := later_q ..
@[simp] theorem land_w (t : Team) (cx : Cur) (n : Nat) (w : RegWrite) : (t.land cx n w).w = t.w := later_w ..
@[simp] theorem land_k (t : Team) (cx : Cur) (n : Nat) (w : RegWrite) : (t.land cx n w).k = t.k := later_k ..
@[simp] theorem land_m (t : Team) (cx : Cur) (n : Nat) (w : RegWrite) : (t.land cx n w).m = t.m := later_m ..
@[simp] theorem land_n (t : Team) (cx : Cur) (n : Nat) (w : RegWrite) : (t.land cx n w).n = t.n := later_n ..
@[simp] theorem land_tab (t : Team) (cx : Cur) (n : Nat) (w : RegWrite) : (t.land cx n w).tab = t.tab := later_tab ..
@[simp] theorem land_p (t : Team) (cx : Cur) (n : Nat) (w : RegWrite) : (t.land cx n w).p = t.p := later_p ..
@[simp] theorem land_toks (t : Team) (cx : Cur) (n : Nat) (w : RegWrite) : (t.land cx n w).toks = t.toks := later_toks ..
@[simp] theorem land_flags (t : Team) (cx : Cur) (n : Nat) (w : RegWrite) : (t.land cx n w).flags = t.flags := later_flags ..
@[simp] theorem land_cnt (t : Team) (cx : Cur) (n : Nat) (w : RegWrite) : (t.land cx n w).cnt = t.cnt := later_cnt ..
@[simp] theorem land_bars (t : Team) (cx : Cur) (n : Nat) (w : RegWrite) : (t.land cx n w).bars = t.bars := later_bars ..
@[simp] theorem land_mbx (t : Team) (cx : Cur) (n : Nat) (w : RegWrite) : (t.land cx n w).mbx = t.mbx := later_mbx ..
@[simp] theorem land_vrm (t : Team) (cx : Cur) (n : Nat) (w : RegWrite) : (t.land cx n w).vrm = t.vrm := later_vrm ..
@[simp] theorem land_vsat (t : Team) (cx : Cur) (n : Nat) (w : RegWrite) : (t.land cx n w).vsat = t.vsat := later_vsat ..
@[simp] theorem land_vshape (t : Team) (cx : Cur) (n : Nat) (w : RegWrite) : (t.land cx n w).vshape = t.vshape :=
  later_vshape ..
@[simp] theorem land_vexc (t : Team) (cx : Cur) (n : Nat) (w : RegWrite) : (t.land cx n w).vexc = t.vexc := later_vexc ..
@[simp] theorem land_mexc (t : Team) (cx : Cur) (n : Nat) (w : RegWrite) : (t.land cx n w).mexc = t.mexc := later_mexc ..
@[simp] theorem land_cexc (t : Team) (cx : Cur) (n : Nat) (w : RegWrite) : (t.land cx n w).cexc = t.cexc := later_cexc ..
@[simp] theorem land_stkb (t : Team) (cx : Cur) (n : Nat) (w : RegWrite) : (t.land cx n w).stkb = t.stkb := later_stkb ..
@[simp] theorem land_stkl (t : Team) (cx : Cur) (n : Nat) (w : RegWrite) : (t.land cx n w).stkl = t.stkl := later_stkl ..
@[simp] theorem land_stkp (t : Team) (cx : Cur) (n : Nat) (w : RegWrite) : (t.land cx n w).stkp = t.stkp := later_stkp ..
@[simp] theorem land_dbgctl (t : Team) (cx : Cur) (n : Nat) (w : RegWrite) : (t.land cx n w).dbgctl = t.dbgctl :=
  later_dbgctl ..
@[simp] theorem land_tfb (t : Team) (cx : Cur) (n : Nat) (w : RegWrite) : (t.land cx n w).tfb = t.tfb := later_tfb ..
@[simp] theorem land_tcause (t : Team) (cx : Cur) (n : Nat) (w : RegWrite) : (t.land cx n w).tcause = t.tcause :=
  later_tcause ..
@[simp] theorem land_tval (t : Team) (cx : Cur) (n : Nat) (w : RegWrite) : (t.land cx n w).tval = t.tval := later_tval ..
@[simp] theorem land_tepc (t : Team) (cx : Cur) (n : Nat) (w : RegWrite) : (t.land cx n w).tepc = t.tepc := later_tepc ..
@[simp] theorem land_tstat (t : Team) (cx : Cur) (n : Nat) (w : RegWrite) : (t.land cx n w).tstat = t.tstat := later_tstat ..
@[simp] theorem land_tie (t : Team) (cx : Cur) (n : Nat) (w : RegWrite) : (t.land cx n w).tie = t.tie := later_tie ..
@[simp] theorem land_tip (t : Team) (cx : Cur) (n : Nat) (w : RegWrite) : (t.land cx n w).tip = t.tip := later_tip ..
@[simp] theorem land_tscratch (t : Team) (cx : Cur) (n : Nat) (w : RegWrite) : (t.land cx n w).tscratch = t.tscratch :=
  later_tscratch ..
@[simp] theorem land_timecmp (t : Team) (cx : Cur) (n : Nat) (w : RegWrite) : (t.land cx n w).timecmp = t.timecmp :=
  later_timecmp ..
@[simp] theorem land_csrTaint (t : Team) (cx : Cur) (n : Nat) (w : RegWrite) : (t.land cx n w).csrTaint = t.csrTaint :=
  later_csrTaint ..
@[simp] theorem land_spad (t : Team) (cx : Cur) (n : Nat) (w : RegWrite) : (t.land cx n w).spad = t.spad := later_spad ..
@[simp] theorem land_spadTaint (t : Team) (cx : Cur) (n : Nat) (w : RegWrite) : (t.land cx n w).spadTaint = t.spadTaint :=
  later_spadTaint ..
@[simp] theorem land_sick (t : Team) (cx : Cur) (n : Nat) (w : RegWrite) : (t.land cx n w).sick = t.sick := later_sick ..
@[simp] theorem land_unseen (t : Team) (cx : Cur) (n : Nat) (w : RegWrite) : (t.land cx n w).unseen = t.unseen :=
  later_unseen ..
@[simp] theorem land_told (t : Team) (cx : Cur) (n : Nat) (w : RegWrite) : (t.land cx n w).told = t.told := later_told ..
@[simp] theorem land_heard (t : Team) (cx : Cur) (n : Nat) (w : RegWrite) : (t.land cx n w).heard = t.heard := later_heard ..
@[simp] theorem land_fresh (t : Team) (cx : Cur) (n : Nat) (w : RegWrite) : (t.land cx n w).fresh = t.fresh := later_fresh ..
@[simp] theorem land_touch (t : Team) (cx : Cur) (n : Nat) (w : RegWrite) : (t.land cx n w).touch = t.touch := later_touch ..
@[simp] theorem land_coming (t : Team) (cx : Cur) (n : Nat) (w : RegWrite) : (t.land cx n w).coming = t.coming :=
  later_coming ..
@[simp] theorem land_ways (t : Team) (cx : Cur) (n : Nat) (w : RegWrite) : (t.land cx n w).ways = t.ways := later_ways ..
@[simp] theorem land_bfmt (t : Team) (cx : Cur) (n : Nat) (w : RegWrite) : (t.land cx n w).bfmt = t.bfmt := later_bfmt ..
@[simp] theorem land_books (t : Team) (cx : Cur) (n : Nat) (w : RegWrite) : (t.land cx n w).books = t.books := later_books ..
@[simp] theorem land_cache (t : Team) (cx : Cur) (n : Nat) (w : RegWrite) : (t.land cx n w).cache = t.cache := later_cache ..
@[simp] theorem land_acc (t : Team) (cx : Cur) (n : Nat) (w : RegWrite) : (t.land cx n w).acc = t.acc := later_acc ..
@[simp] theorem land_accTaint (t : Team) (cx : Cur) (n : Nat) (w : RegWrite) : (t.land cx n w).accTaint = t.accTaint :=
  later_accTaint ..
@[simp] theorem land_accSick (t : Team) (cx : Cur) (n : Nat) (w : RegWrite) : (t.land cx n w).accSick = t.accSick :=
  later_accSick ..
@[simp] theorem land_found (t : Team) (cx : Cur) (n : Nat) (w : RegWrite) : (t.land cx n w).found = t.found := later_found ..
@[simp] theorem land_mfmt (t : Team) (cx : Cur) (n : Nat) (w : RegWrite) : (t.land cx n w).mfmt = t.mfmt := later_mfmt ..
@[simp] theorem land_mringA (t : Team) (cx : Cur) (n : Nat) (w : RegWrite) : (t.land cx n w).mringA = t.mringA :=
  later_mringA ..
@[simp] theorem land_mringB (t : Team) (cx : Cur) (n : Nat) (w : RegWrite) : (t.land cx n w).mringB = t.mringB :=
  later_mringB ..
@[simp] theorem land_mnest (t : Team) (cx : Cur) (n : Nat) (w : RegWrite) : (t.land cx n w).mnest = t.mnest := later_mnest ..
@[simp] theorem land_active (t : Team) (cx : Cur) (n : Nat) (w : RegWrite) : (t.land cx n w).active = t.active :=
  later_active ..
@[simp] theorem land_rA (t : Team) (cx : Cur) (n : Nat) (w : RegWrite) : (t.land cx n w).rA = t.rA := later_rA ..
@[simp] theorem land_rB (t : Team) (cx : Cur) (n : Nat) (w : RegWrite) : (t.land cx n w).rB = t.rB := later_rB ..
@[simp] theorem land_engine (t : Team) (cx : Cur) (n : Nat) (w : RegWrite) : (t.land cx n w).engine = t.engine :=
  later_engine ..
@[simp] theorem land_engineFree (t : Team) (cx : Cur) (n : Nat) (w : RegWrite) : (t.land cx n w).engineFree = t.engineFree :=
  later_engineFree ..
@[simp] theorem land_plaitObs (t : Team) (cx : Cur) (n : Nat) (w : RegWrite) : (t.land cx n w).plaitObs = t.plaitObs :=
  later_plaitObs ..
@[simp] theorem land_hidden (t : Team) (cx : Cur) (n : Nat) (w : RegWrite) : (t.land cx n w).hidden = t.hidden :=
  later_hidden ..
@[simp] theorem land_inbound (t : Team) (cx : Cur) (n : Nat) (w : RegWrite) : (t.land cx n w).inbound = t.inbound :=
  later_inbound ..
@[simp] theorem land_border (t : Team) (cx : Cur) (n : Nat) (w : RegWrite) : (t.land cx n w).border = t.border :=
  later_border ..
@[simp] theorem land_inbox (t : Team) (cx : Cur) (n : Nat) (w : RegWrite) : (t.land cx n w).inbox = t.inbox := later_inbox ..
@[simp] theorem land_plaits (t : Team) (cx : Cur) (n : Nat) (w : RegWrite) : (t.land cx n w).plaits = t.plaits :=
  later_plaits ..
@[simp] theorem land_copies (t : Team) (cx : Cur) (n : Nat) (w : RegWrite) : (t.land cx n w).copies = t.copies :=
  later_copies ..
@[simp] theorem land_xferFree (t : Team) (cx : Cur) (n : Nat) (w : RegWrite) : (t.land cx n w).xferFree = t.xferFree :=
  later_xferFree ..
@[simp] theorem land_advances (t : Team) (cx : Cur) (n : Nat) (w : RegWrite) : (t.land cx n w).advances = t.advances :=
  later_advances ..
@[simp] theorem land_cpx (t : Team) (cx : Cur) (n : Nat) (w : RegWrite) : (t.land cx n w).cpx = t.cpx := later_cpx ..
@[simp] theorem land_waiting (t : Team) (cx : Cur) (n : Nat) (w : RegWrite) : (t.land cx n w).waiting = t.waiting :=
  later_waiting ..
@[simp] theorem land_traps (t : Team) (cx : Cur) (n : Nat) (w : RegWrite) : (t.land cx n w).traps = t.traps := later_traps ..
@[simp] theorem land_freezeReq (t : Team) (cx : Cur) (n : Nat) (w : RegWrite) : (t.land cx n w).freezeReq = t.freezeReq :=
  later_freezeReq ..
@[simp] theorem land_lastPulse (t : Team) (cx : Cur) (n : Nat) (w : RegWrite) : (t.land cx n w).lastPulse = t.lastPulse :=
  later_lastPulse ..
@[simp] theorem land_nextId (t : Team) (cx : Cur) (n : Nat) (w : RegWrite) : (t.land cx n w).nextId = t.nextId :=
  later_nextId ..

/-! ## A signal on its way -/

@[simp] theorem signalAt_cid (t : Team) (cx : Cur) (n : Nat) : (t.signalAt cx n).cid = t.cid := later_cid ..
@[simp] theorem signalAt_launch (t : Team) (cx : Cur) (n : Nat) : (t.signalAt cx n).launch = t.launch := later_launch ..
@[simp] theorem signalAt_job (t : Team) (cx : Cur) (n : Nat) : (t.signalAt cx n).job = t.job := later_job ..
@[simp] theorem signalAt_ord (t : Team) (cx : Cur) (n : Nat) : (t.signalAt cx n).ord = t.ord := later_ord ..
@[simp] theorem signalAt_patch (t : Team) (cx : Cur) (n : Nat) : (t.signalAt cx n).patch = t.patch := later_patch ..
@[simp] theorem signalAt_pext (t : Team) (cx : Cur) (n : Nat) : (t.signalAt cx n).pext = t.pext := later_pext ..
@[simp] theorem signalAt_ndet (t : Team) (cx : Cur) (n : Nat) : (t.signalAt cx n).ndet = t.ndet := later_ndet ..
@[simp] theorem signalAt_tgroup (t : Team) (cx : Cur) (n : Nat) : (t.signalAt cx n).tgroup = t.tgroup := later_tgroup ..
@[simp] theorem signalAt_banks (t : Team) (cx : Cur) (n : Nat) : (t.signalAt cx n).banks = t.banks := later_banks ..
@[simp] theorem signalAt_granules (t : Team) (cx : Cur) (n : Nat) : (t.signalAt cx n).granules = t.granules := later_granules ..
@[simp] theorem signalAt_inboxBase (t : Team) (cx : Cur) (n : Nat) : (t.signalAt cx n).inboxBase = t.inboxBase :=
  later_inboxBase ..
@[simp] theorem signalAt_tfLen (t : Team) (cx : Cur) (n : Nat) : (t.signalAt cx n).tfLen = t.tfLen := later_tfLen ..
@[simp] theorem signalAt_clk (t : Team) (cx : Cur) (n : Nat) : (t.signalAt cx n).clk = t.clk := later_clk ..
@[simp] theorem signalAt_delta (t : Team) (cx : Cur) (n : Nat) : (t.signalAt cx n).delta = t.delta := later_delta ..
@[simp] theorem signalAt_frozen (t : Team) (cx : Cur) (n : Nat) : (t.signalAt cx n).frozen = t.frozen := later_frozen ..
@[simp] theorem signalAt_frozenNs (t : Team) (cx : Cur) (n : Nat) : (t.signalAt cx n).frozenNs = t.frozenNs := later_frozenNs ..
@[simp] theorem signalAt_frozenWhy (t : Team) (cx : Cur) (n : Nat) : (t.signalAt cx n).frozenWhy = t.frozenWhy :=
  later_frozenWhy ..
@[simp] theorem signalAt_svc (t : Team) (cx : Cur) (n : Nat) : (t.signalAt cx n).svc = t.svc := later_svc ..
@[simp] theorem signalAt_handler (t : Team) (cx : Cur) (n : Nat) : (t.signalAt cx n).handler = t.handler := later_handler ..
@[simp] theorem signalAt_depth (t : Team) (cx : Cur) (n : Nat) : (t.signalAt cx n).depth = t.depth := later_depth ..
@[simp] theorem signalAt_svcClk (t : Team) (cx : Cur) (n : Nat) : (t.signalAt cx n).svcClk = t.svcClk := later_svcClk ..
@[simp] theorem signalAt_held (t : Team) (cx : Cur) (n : Nat) : (t.signalAt cx n).held = t.held := later_held ..
@[simp] theorem signalAt_parked (t : Team) (cx : Cur) (n : Nat) : (t.signalAt cx n).parked = t.parked := later_parked ..
@[simp] theorem signalAt_hoop (t : Team) (cx : Cur) (n : Nat) : (t.signalAt cx n).hoop = t.hoop := later_hoop ..
@[simp] theorem signalAt_cols (t : Team) (cx : Cur) (n : Nat) : (t.signalAt cx n).cols = t.cols := later_cols ..
@[simp] theorem signalAt_s (t : Team) (cx : Cur) (n : Nat) : (t.signalAt cx n).s = t.s := later_s ..
@[simp] theorem signalAt_a (t : Team) (cx : Cur) (n : Nat) : (t.signalAt cx n).a = t.a := later_a ..
@[simp] theorem signalAt_v (t : Team) (cx : Cur) (n : Nat) : (t.signalAt cx n).v = t.v := later_v ..
@[simp] theorem signalAt_o (t : Team) (cx : Cur) (n : Nat) : (t.signalAt cx n).o = t.o := later_o ..
@[simp] theorem signalAt_lat (t : Team) (cx : Cur) (n : Nat) : (t.signalAt cx n).lat = t.lat := later_lat ..
@[simp] theorem signalAt_q (t : Team) (cx : Cur) (n : Nat) : (t.signalAt cx n).q = t.q := later_q ..
@[simp] theorem signalAt_w (t : Team) (cx : Cur) (n : Nat) : (t.signalAt cx n).w = t.w := later_w ..
@[simp] theorem signalAt_k (t : Team) (cx : Cur) (n : Nat) : (t.signalAt cx n).k = t.k := later_k ..
@[simp] theorem signalAt_m (t : Team) (cx : Cur) (n : Nat) : (t.signalAt cx n).m = t.m := later_m ..
@[simp] theorem signalAt_n (t : Team) (cx : Cur) (n : Nat) : (t.signalAt cx n).n = t.n := later_n ..
@[simp] theorem signalAt_tab (t : Team) (cx : Cur) (n : Nat) : (t.signalAt cx n).tab = t.tab := later_tab ..
@[simp] theorem signalAt_p (t : Team) (cx : Cur) (n : Nat) : (t.signalAt cx n).p = t.p := later_p ..
@[simp] theorem signalAt_toks (t : Team) (cx : Cur) (n : Nat) : (t.signalAt cx n).toks = t.toks := later_toks ..
@[simp] theorem signalAt_flags (t : Team) (cx : Cur) (n : Nat) : (t.signalAt cx n).flags = t.flags := later_flags ..
@[simp] theorem signalAt_cnt (t : Team) (cx : Cur) (n : Nat) : (t.signalAt cx n).cnt = t.cnt := later_cnt ..
@[simp] theorem signalAt_bars (t : Team) (cx : Cur) (n : Nat) : (t.signalAt cx n).bars = t.bars := later_bars ..
@[simp] theorem signalAt_mbx (t : Team) (cx : Cur) (n : Nat) : (t.signalAt cx n).mbx = t.mbx := later_mbx ..
@[simp] theorem signalAt_vrm (t : Team) (cx : Cur) (n : Nat) : (t.signalAt cx n).vrm = t.vrm := later_vrm ..
@[simp] theorem signalAt_vsat (t : Team) (cx : Cur) (n : Nat) : (t.signalAt cx n).vsat = t.vsat := later_vsat ..
@[simp] theorem signalAt_vshape (t : Team) (cx : Cur) (n : Nat) : (t.signalAt cx n).vshape = t.vshape := later_vshape ..
@[simp] theorem signalAt_vexc (t : Team) (cx : Cur) (n : Nat) : (t.signalAt cx n).vexc = t.vexc := later_vexc ..
@[simp] theorem signalAt_mexc (t : Team) (cx : Cur) (n : Nat) : (t.signalAt cx n).mexc = t.mexc := later_mexc ..
@[simp] theorem signalAt_cexc (t : Team) (cx : Cur) (n : Nat) : (t.signalAt cx n).cexc = t.cexc := later_cexc ..
@[simp] theorem signalAt_stkb (t : Team) (cx : Cur) (n : Nat) : (t.signalAt cx n).stkb = t.stkb := later_stkb ..
@[simp] theorem signalAt_stkl (t : Team) (cx : Cur) (n : Nat) : (t.signalAt cx n).stkl = t.stkl := later_stkl ..
@[simp] theorem signalAt_stkp (t : Team) (cx : Cur) (n : Nat) : (t.signalAt cx n).stkp = t.stkp := later_stkp ..
@[simp] theorem signalAt_dbgctl (t : Team) (cx : Cur) (n : Nat) : (t.signalAt cx n).dbgctl = t.dbgctl := later_dbgctl ..
@[simp] theorem signalAt_tfb (t : Team) (cx : Cur) (n : Nat) : (t.signalAt cx n).tfb = t.tfb := later_tfb ..
@[simp] theorem signalAt_tcause (t : Team) (cx : Cur) (n : Nat) : (t.signalAt cx n).tcause = t.tcause := later_tcause ..
@[simp] theorem signalAt_tval (t : Team) (cx : Cur) (n : Nat) : (t.signalAt cx n).tval = t.tval := later_tval ..
@[simp] theorem signalAt_tepc (t : Team) (cx : Cur) (n : Nat) : (t.signalAt cx n).tepc = t.tepc := later_tepc ..
@[simp] theorem signalAt_tstat (t : Team) (cx : Cur) (n : Nat) : (t.signalAt cx n).tstat = t.tstat := later_tstat ..
@[simp] theorem signalAt_tie (t : Team) (cx : Cur) (n : Nat) : (t.signalAt cx n).tie = t.tie := later_tie ..
@[simp] theorem signalAt_tip (t : Team) (cx : Cur) (n : Nat) : (t.signalAt cx n).tip = t.tip := later_tip ..
@[simp] theorem signalAt_tscratch (t : Team) (cx : Cur) (n : Nat) : (t.signalAt cx n).tscratch = t.tscratch := later_tscratch ..
@[simp] theorem signalAt_timecmp (t : Team) (cx : Cur) (n : Nat) : (t.signalAt cx n).timecmp = t.timecmp := later_timecmp ..
@[simp] theorem signalAt_csrTaint (t : Team) (cx : Cur) (n : Nat) : (t.signalAt cx n).csrTaint = t.csrTaint := later_csrTaint ..
@[simp] theorem signalAt_spad (t : Team) (cx : Cur) (n : Nat) : (t.signalAt cx n).spad = t.spad := later_spad ..
@[simp] theorem signalAt_spadTaint (t : Team) (cx : Cur) (n : Nat) : (t.signalAt cx n).spadTaint = t.spadTaint :=
  later_spadTaint ..
@[simp] theorem signalAt_sick (t : Team) (cx : Cur) (n : Nat) : (t.signalAt cx n).sick = t.sick := later_sick ..
@[simp] theorem signalAt_unseen (t : Team) (cx : Cur) (n : Nat) : (t.signalAt cx n).unseen = t.unseen := later_unseen ..
@[simp] theorem signalAt_told (t : Team) (cx : Cur) (n : Nat) : (t.signalAt cx n).told = t.told := later_told ..
@[simp] theorem signalAt_heard (t : Team) (cx : Cur) (n : Nat) : (t.signalAt cx n).heard = t.heard := later_heard ..
@[simp] theorem signalAt_fresh (t : Team) (cx : Cur) (n : Nat) : (t.signalAt cx n).fresh = t.fresh := later_fresh ..
@[simp] theorem signalAt_touch (t : Team) (cx : Cur) (n : Nat) : (t.signalAt cx n).touch = t.touch := later_touch ..
@[simp] theorem signalAt_coming (t : Team) (cx : Cur) (n : Nat) : (t.signalAt cx n).coming = t.coming := later_coming ..
@[simp] theorem signalAt_ways (t : Team) (cx : Cur) (n : Nat) : (t.signalAt cx n).ways = t.ways := later_ways ..
@[simp] theorem signalAt_bfmt (t : Team) (cx : Cur) (n : Nat) : (t.signalAt cx n).bfmt = t.bfmt := later_bfmt ..
@[simp] theorem signalAt_books (t : Team) (cx : Cur) (n : Nat) : (t.signalAt cx n).books = t.books := later_books ..
@[simp] theorem signalAt_cache (t : Team) (cx : Cur) (n : Nat) : (t.signalAt cx n).cache = t.cache := later_cache ..
@[simp] theorem signalAt_acc (t : Team) (cx : Cur) (n : Nat) : (t.signalAt cx n).acc = t.acc := later_acc ..
@[simp] theorem signalAt_accTaint (t : Team) (cx : Cur) (n : Nat) : (t.signalAt cx n).accTaint = t.accTaint := later_accTaint ..
@[simp] theorem signalAt_accSick (t : Team) (cx : Cur) (n : Nat) : (t.signalAt cx n).accSick = t.accSick := later_accSick ..
@[simp] theorem signalAt_found (t : Team) (cx : Cur) (n : Nat) : (t.signalAt cx n).found = t.found := later_found ..
@[simp] theorem signalAt_mfmt (t : Team) (cx : Cur) (n : Nat) : (t.signalAt cx n).mfmt = t.mfmt := later_mfmt ..
@[simp] theorem signalAt_mringA (t : Team) (cx : Cur) (n : Nat) : (t.signalAt cx n).mringA = t.mringA := later_mringA ..
@[simp] theorem signalAt_mringB (t : Team) (cx : Cur) (n : Nat) : (t.signalAt cx n).mringB = t.mringB := later_mringB ..
@[simp] theorem signalAt_mnest (t : Team) (cx : Cur) (n : Nat) : (t.signalAt cx n).mnest = t.mnest := later_mnest ..
@[simp] theorem signalAt_active (t : Team) (cx : Cur) (n : Nat) : (t.signalAt cx n).active = t.active := later_active ..
@[simp] theorem signalAt_rA (t : Team) (cx : Cur) (n : Nat) : (t.signalAt cx n).rA = t.rA := later_rA ..
@[simp] theorem signalAt_rB (t : Team) (cx : Cur) (n : Nat) : (t.signalAt cx n).rB = t.rB := later_rB ..
@[simp] theorem signalAt_engine (t : Team) (cx : Cur) (n : Nat) : (t.signalAt cx n).engine = t.engine := later_engine ..
@[simp] theorem signalAt_engineFree (t : Team) (cx : Cur) (n : Nat) : (t.signalAt cx n).engineFree = t.engineFree :=
  later_engineFree ..
@[simp] theorem signalAt_plaitObs (t : Team) (cx : Cur) (n : Nat) : (t.signalAt cx n).plaitObs = t.plaitObs := later_plaitObs ..
@[simp] theorem signalAt_hidden (t : Team) (cx : Cur) (n : Nat) : (t.signalAt cx n).hidden = t.hidden := later_hidden ..
@[simp] theorem signalAt_inbound (t : Team) (cx : Cur) (n : Nat) : (t.signalAt cx n).inbound = t.inbound := later_inbound ..
@[simp] theorem signalAt_border (t : Team) (cx : Cur) (n : Nat) : (t.signalAt cx n).border = t.border := later_border ..
@[simp] theorem signalAt_inbox (t : Team) (cx : Cur) (n : Nat) : (t.signalAt cx n).inbox = t.inbox := later_inbox ..
@[simp] theorem signalAt_plaits (t : Team) (cx : Cur) (n : Nat) : (t.signalAt cx n).plaits = t.plaits := later_plaits ..
@[simp] theorem signalAt_copies (t : Team) (cx : Cur) (n : Nat) : (t.signalAt cx n).copies = t.copies := later_copies ..
@[simp] theorem signalAt_xferFree (t : Team) (cx : Cur) (n : Nat) : (t.signalAt cx n).xferFree = t.xferFree := later_xferFree ..
@[simp] theorem signalAt_advances (t : Team) (cx : Cur) (n : Nat) : (t.signalAt cx n).advances = t.advances := later_advances ..
@[simp] theorem signalAt_cpx (t : Team) (cx : Cur) (n : Nat) : (t.signalAt cx n).cpx = t.cpx := later_cpx ..
@[simp] theorem signalAt_waiting (t : Team) (cx : Cur) (n : Nat) : (t.signalAt cx n).waiting = t.waiting := later_waiting ..
@[simp] theorem signalAt_traps (t : Team) (cx : Cur) (n : Nat) : (t.signalAt cx n).traps = t.traps := later_traps ..
@[simp] theorem signalAt_freezeReq (t : Team) (cx : Cur) (n : Nat) : (t.signalAt cx n).freezeReq = t.freezeReq :=
  later_freezeReq ..
@[simp] theorem signalAt_lastPulse (t : Team) (cx : Cur) (n : Nat) : (t.signalAt cx n).lastPulse = t.lastPulse :=
  later_lastPulse ..
@[simp] theorem signalAt_nextId (t : Team) (cx : Cur) (n : Nat) : (t.signalAt cx n).nextId = t.nextId := later_nextId ..

/-! ## A word to be executed again -/

@[simp] theorem again_cid (t : Team) (cx : Cur) (n : Nat) (ph : Phase) (l : List Nat) (i : Instr) : (t.again cx n ph l i).cid = t.cid :=
  later_cid ..
@[simp] theorem again_launch (t : Team) (cx : Cur) (n : Nat) (ph : Phase) (l : List Nat) (i : Instr) : (t.again cx n ph l i).launch = t.launch :=
  later_launch ..
@[simp] theorem again_job (t : Team) (cx : Cur) (n : Nat) (ph : Phase) (l : List Nat) (i : Instr) : (t.again cx n ph l i).job = t.job :=
  later_job ..
@[simp] theorem again_ord (t : Team) (cx : Cur) (n : Nat) (ph : Phase) (l : List Nat) (i : Instr) : (t.again cx n ph l i).ord = t.ord :=
  later_ord ..
@[simp] theorem again_patch (t : Team) (cx : Cur) (n : Nat) (ph : Phase) (l : List Nat) (i : Instr) : (t.again cx n ph l i).patch = t.patch :=
  later_patch ..
@[simp] theorem again_pext (t : Team) (cx : Cur) (n : Nat) (ph : Phase) (l : List Nat) (i : Instr) : (t.again cx n ph l i).pext = t.pext :=
  later_pext ..
@[simp] theorem again_ndet (t : Team) (cx : Cur) (n : Nat) (ph : Phase) (l : List Nat) (i : Instr) : (t.again cx n ph l i).ndet = t.ndet :=
  later_ndet ..
@[simp] theorem again_tgroup (t : Team) (cx : Cur) (n : Nat) (ph : Phase) (l : List Nat) (i : Instr) : (t.again cx n ph l i).tgroup = t.tgroup :=
  later_tgroup ..
@[simp] theorem again_banks (t : Team) (cx : Cur) (n : Nat) (ph : Phase) (l : List Nat) (i : Instr) : (t.again cx n ph l i).banks = t.banks :=
  later_banks ..
@[simp] theorem again_granules (t : Team) (cx : Cur) (n : Nat) (ph : Phase) (l : List Nat) (i : Instr) : (t.again cx n ph l i).granules = t.granules :=
  later_granules ..
@[simp] theorem again_inboxBase (t : Team) (cx : Cur) (n : Nat) (ph : Phase) (l : List Nat) (i : Instr) : (t.again cx n ph l i).inboxBase = t.inboxBase :=
  later_inboxBase ..
@[simp] theorem again_tfLen (t : Team) (cx : Cur) (n : Nat) (ph : Phase) (l : List Nat) (i : Instr) : (t.again cx n ph l i).tfLen = t.tfLen :=
  later_tfLen ..
@[simp] theorem again_clk (t : Team) (cx : Cur) (n : Nat) (ph : Phase) (l : List Nat) (i : Instr) : (t.again cx n ph l i).clk = t.clk :=
  later_clk ..
@[simp] theorem again_delta (t : Team) (cx : Cur) (n : Nat) (ph : Phase) (l : List Nat) (i : Instr) : (t.again cx n ph l i).delta = t.delta :=
  later_delta ..
@[simp] theorem again_frozen (t : Team) (cx : Cur) (n : Nat) (ph : Phase) (l : List Nat) (i : Instr) : (t.again cx n ph l i).frozen = t.frozen :=
  later_frozen ..
@[simp] theorem again_frozenNs (t : Team) (cx : Cur) (n : Nat) (ph : Phase) (l : List Nat) (i : Instr) : (t.again cx n ph l i).frozenNs = t.frozenNs :=
  later_frozenNs ..
@[simp] theorem again_frozenWhy (t : Team) (cx : Cur) (n : Nat) (ph : Phase) (l : List Nat) (i : Instr) : (t.again cx n ph l i).frozenWhy = t.frozenWhy :=
  later_frozenWhy ..
@[simp] theorem again_svc (t : Team) (cx : Cur) (n : Nat) (ph : Phase) (l : List Nat) (i : Instr) : (t.again cx n ph l i).svc = t.svc :=
  later_svc ..
@[simp] theorem again_handler (t : Team) (cx : Cur) (n : Nat) (ph : Phase) (l : List Nat) (i : Instr) : (t.again cx n ph l i).handler = t.handler :=
  later_handler ..
@[simp] theorem again_depth (t : Team) (cx : Cur) (n : Nat) (ph : Phase) (l : List Nat) (i : Instr) : (t.again cx n ph l i).depth = t.depth :=
  later_depth ..
@[simp] theorem again_svcClk (t : Team) (cx : Cur) (n : Nat) (ph : Phase) (l : List Nat) (i : Instr) : (t.again cx n ph l i).svcClk = t.svcClk :=
  later_svcClk ..
@[simp] theorem again_held (t : Team) (cx : Cur) (n : Nat) (ph : Phase) (l : List Nat) (i : Instr) : (t.again cx n ph l i).held = t.held :=
  later_held ..
@[simp] theorem again_parked (t : Team) (cx : Cur) (n : Nat) (ph : Phase) (l : List Nat) (i : Instr) : (t.again cx n ph l i).parked = t.parked :=
  later_parked ..
@[simp] theorem again_hoop (t : Team) (cx : Cur) (n : Nat) (ph : Phase) (l : List Nat) (i : Instr) : (t.again cx n ph l i).hoop = t.hoop :=
  later_hoop ..
@[simp] theorem again_cols (t : Team) (cx : Cur) (n : Nat) (ph : Phase) (l : List Nat) (i : Instr) : (t.again cx n ph l i).cols = t.cols :=
  later_cols ..
@[simp] theorem again_s (t : Team) (cx : Cur) (n : Nat) (ph : Phase) (l : List Nat) (i : Instr) : (t.again cx n ph l i).s = t.s :=
  later_s ..
@[simp] theorem again_a (t : Team) (cx : Cur) (n : Nat) (ph : Phase) (l : List Nat) (i : Instr) : (t.again cx n ph l i).a = t.a :=
  later_a ..
@[simp] theorem again_v (t : Team) (cx : Cur) (n : Nat) (ph : Phase) (l : List Nat) (i : Instr) : (t.again cx n ph l i).v = t.v :=
  later_v ..
@[simp] theorem again_o (t : Team) (cx : Cur) (n : Nat) (ph : Phase) (l : List Nat) (i : Instr) : (t.again cx n ph l i).o = t.o :=
  later_o ..
@[simp] theorem again_lat (t : Team) (cx : Cur) (n : Nat) (ph : Phase) (l : List Nat) (i : Instr) : (t.again cx n ph l i).lat = t.lat :=
  later_lat ..
@[simp] theorem again_q (t : Team) (cx : Cur) (n : Nat) (ph : Phase) (l : List Nat) (i : Instr) : (t.again cx n ph l i).q = t.q :=
  later_q ..
@[simp] theorem again_w (t : Team) (cx : Cur) (n : Nat) (ph : Phase) (l : List Nat) (i : Instr) : (t.again cx n ph l i).w = t.w :=
  later_w ..
@[simp] theorem again_k (t : Team) (cx : Cur) (n : Nat) (ph : Phase) (l : List Nat) (i : Instr) : (t.again cx n ph l i).k = t.k :=
  later_k ..
@[simp] theorem again_m (t : Team) (cx : Cur) (n : Nat) (ph : Phase) (l : List Nat) (i : Instr) : (t.again cx n ph l i).m = t.m :=
  later_m ..
@[simp] theorem again_n (t : Team) (cx : Cur) (n : Nat) (ph : Phase) (l : List Nat) (i : Instr) : (t.again cx n ph l i).n = t.n :=
  later_n ..
@[simp] theorem again_tab (t : Team) (cx : Cur) (n : Nat) (ph : Phase) (l : List Nat) (i : Instr) : (t.again cx n ph l i).tab = t.tab :=
  later_tab ..
@[simp] theorem again_p (t : Team) (cx : Cur) (n : Nat) (ph : Phase) (l : List Nat) (i : Instr) : (t.again cx n ph l i).p = t.p :=
  later_p ..
@[simp] theorem again_toks (t : Team) (cx : Cur) (n : Nat) (ph : Phase) (l : List Nat) (i : Instr) : (t.again cx n ph l i).toks = t.toks :=
  later_toks ..
@[simp] theorem again_flags (t : Team) (cx : Cur) (n : Nat) (ph : Phase) (l : List Nat) (i : Instr) : (t.again cx n ph l i).flags = t.flags :=
  later_flags ..
@[simp] theorem again_cnt (t : Team) (cx : Cur) (n : Nat) (ph : Phase) (l : List Nat) (i : Instr) : (t.again cx n ph l i).cnt = t.cnt :=
  later_cnt ..
@[simp] theorem again_bars (t : Team) (cx : Cur) (n : Nat) (ph : Phase) (l : List Nat) (i : Instr) : (t.again cx n ph l i).bars = t.bars :=
  later_bars ..
@[simp] theorem again_mbx (t : Team) (cx : Cur) (n : Nat) (ph : Phase) (l : List Nat) (i : Instr) : (t.again cx n ph l i).mbx = t.mbx :=
  later_mbx ..
@[simp] theorem again_vrm (t : Team) (cx : Cur) (n : Nat) (ph : Phase) (l : List Nat) (i : Instr) : (t.again cx n ph l i).vrm = t.vrm :=
  later_vrm ..
@[simp] theorem again_vsat (t : Team) (cx : Cur) (n : Nat) (ph : Phase) (l : List Nat) (i : Instr) : (t.again cx n ph l i).vsat = t.vsat :=
  later_vsat ..
@[simp] theorem again_vshape (t : Team) (cx : Cur) (n : Nat) (ph : Phase) (l : List Nat) (i : Instr) : (t.again cx n ph l i).vshape = t.vshape :=
  later_vshape ..
@[simp] theorem again_vexc (t : Team) (cx : Cur) (n : Nat) (ph : Phase) (l : List Nat) (i : Instr) : (t.again cx n ph l i).vexc = t.vexc :=
  later_vexc ..
@[simp] theorem again_mexc (t : Team) (cx : Cur) (n : Nat) (ph : Phase) (l : List Nat) (i : Instr) : (t.again cx n ph l i).mexc = t.mexc :=
  later_mexc ..
@[simp] theorem again_cexc (t : Team) (cx : Cur) (n : Nat) (ph : Phase) (l : List Nat) (i : Instr) : (t.again cx n ph l i).cexc = t.cexc :=
  later_cexc ..
@[simp] theorem again_stkb (t : Team) (cx : Cur) (n : Nat) (ph : Phase) (l : List Nat) (i : Instr) : (t.again cx n ph l i).stkb = t.stkb :=
  later_stkb ..
@[simp] theorem again_stkl (t : Team) (cx : Cur) (n : Nat) (ph : Phase) (l : List Nat) (i : Instr) : (t.again cx n ph l i).stkl = t.stkl :=
  later_stkl ..
@[simp] theorem again_stkp (t : Team) (cx : Cur) (n : Nat) (ph : Phase) (l : List Nat) (i : Instr) : (t.again cx n ph l i).stkp = t.stkp :=
  later_stkp ..
@[simp] theorem again_dbgctl (t : Team) (cx : Cur) (n : Nat) (ph : Phase) (l : List Nat) (i : Instr) : (t.again cx n ph l i).dbgctl = t.dbgctl :=
  later_dbgctl ..
@[simp] theorem again_tfb (t : Team) (cx : Cur) (n : Nat) (ph : Phase) (l : List Nat) (i : Instr) : (t.again cx n ph l i).tfb = t.tfb :=
  later_tfb ..
@[simp] theorem again_tcause (t : Team) (cx : Cur) (n : Nat) (ph : Phase) (l : List Nat) (i : Instr) : (t.again cx n ph l i).tcause = t.tcause :=
  later_tcause ..
@[simp] theorem again_tval (t : Team) (cx : Cur) (n : Nat) (ph : Phase) (l : List Nat) (i : Instr) : (t.again cx n ph l i).tval = t.tval :=
  later_tval ..
@[simp] theorem again_tepc (t : Team) (cx : Cur) (n : Nat) (ph : Phase) (l : List Nat) (i : Instr) : (t.again cx n ph l i).tepc = t.tepc :=
  later_tepc ..
@[simp] theorem again_tstat (t : Team) (cx : Cur) (n : Nat) (ph : Phase) (l : List Nat) (i : Instr) : (t.again cx n ph l i).tstat = t.tstat :=
  later_tstat ..
@[simp] theorem again_tie (t : Team) (cx : Cur) (n : Nat) (ph : Phase) (l : List Nat) (i : Instr) : (t.again cx n ph l i).tie = t.tie :=
  later_tie ..
@[simp] theorem again_tip (t : Team) (cx : Cur) (n : Nat) (ph : Phase) (l : List Nat) (i : Instr) : (t.again cx n ph l i).tip = t.tip :=
  later_tip ..
@[simp] theorem again_tscratch (t : Team) (cx : Cur) (n : Nat) (ph : Phase) (l : List Nat) (i : Instr) : (t.again cx n ph l i).tscratch = t.tscratch :=
  later_tscratch ..
@[simp] theorem again_timecmp (t : Team) (cx : Cur) (n : Nat) (ph : Phase) (l : List Nat) (i : Instr) : (t.again cx n ph l i).timecmp = t.timecmp :=
  later_timecmp ..
@[simp] theorem again_csrTaint (t : Team) (cx : Cur) (n : Nat) (ph : Phase) (l : List Nat) (i : Instr) : (t.again cx n ph l i).csrTaint = t.csrTaint :=
  later_csrTaint ..
@[simp] theorem again_spad (t : Team) (cx : Cur) (n : Nat) (ph : Phase) (l : List Nat) (i : Instr) : (t.again cx n ph l i).spad = t.spad :=
  later_spad ..
@[simp] theorem again_spadTaint (t : Team) (cx : Cur) (n : Nat) (ph : Phase) (l : List Nat) (i : Instr) : (t.again cx n ph l i).spadTaint = t.spadTaint :=
  later_spadTaint ..
@[simp] theorem again_sick (t : Team) (cx : Cur) (n : Nat) (ph : Phase) (l : List Nat) (i : Instr) : (t.again cx n ph l i).sick = t.sick :=
  later_sick ..
@[simp] theorem again_unseen (t : Team) (cx : Cur) (n : Nat) (ph : Phase) (l : List Nat) (i : Instr) : (t.again cx n ph l i).unseen = t.unseen :=
  later_unseen ..
@[simp] theorem again_told (t : Team) (cx : Cur) (n : Nat) (ph : Phase) (l : List Nat) (i : Instr) : (t.again cx n ph l i).told = t.told :=
  later_told ..
@[simp] theorem again_heard (t : Team) (cx : Cur) (n : Nat) (ph : Phase) (l : List Nat) (i : Instr) : (t.again cx n ph l i).heard = t.heard :=
  later_heard ..
@[simp] theorem again_fresh (t : Team) (cx : Cur) (n : Nat) (ph : Phase) (l : List Nat) (i : Instr) : (t.again cx n ph l i).fresh = t.fresh :=
  later_fresh ..
@[simp] theorem again_touch (t : Team) (cx : Cur) (n : Nat) (ph : Phase) (l : List Nat) (i : Instr) : (t.again cx n ph l i).touch = t.touch :=
  later_touch ..
@[simp] theorem again_coming (t : Team) (cx : Cur) (n : Nat) (ph : Phase) (l : List Nat) (i : Instr) : (t.again cx n ph l i).coming = t.coming :=
  later_coming ..
@[simp] theorem again_ways (t : Team) (cx : Cur) (n : Nat) (ph : Phase) (l : List Nat) (i : Instr) : (t.again cx n ph l i).ways = t.ways :=
  later_ways ..
@[simp] theorem again_bfmt (t : Team) (cx : Cur) (n : Nat) (ph : Phase) (l : List Nat) (i : Instr) : (t.again cx n ph l i).bfmt = t.bfmt :=
  later_bfmt ..
@[simp] theorem again_books (t : Team) (cx : Cur) (n : Nat) (ph : Phase) (l : List Nat) (i : Instr) : (t.again cx n ph l i).books = t.books :=
  later_books ..
@[simp] theorem again_cache (t : Team) (cx : Cur) (n : Nat) (ph : Phase) (l : List Nat) (i : Instr) : (t.again cx n ph l i).cache = t.cache :=
  later_cache ..
@[simp] theorem again_acc (t : Team) (cx : Cur) (n : Nat) (ph : Phase) (l : List Nat) (i : Instr) : (t.again cx n ph l i).acc = t.acc :=
  later_acc ..
@[simp] theorem again_accTaint (t : Team) (cx : Cur) (n : Nat) (ph : Phase) (l : List Nat) (i : Instr) : (t.again cx n ph l i).accTaint = t.accTaint :=
  later_accTaint ..
@[simp] theorem again_accSick (t : Team) (cx : Cur) (n : Nat) (ph : Phase) (l : List Nat) (i : Instr) : (t.again cx n ph l i).accSick = t.accSick :=
  later_accSick ..
@[simp] theorem again_found (t : Team) (cx : Cur) (n : Nat) (ph : Phase) (l : List Nat) (i : Instr) : (t.again cx n ph l i).found = t.found :=
  later_found ..
@[simp] theorem again_mfmt (t : Team) (cx : Cur) (n : Nat) (ph : Phase) (l : List Nat) (i : Instr) : (t.again cx n ph l i).mfmt = t.mfmt :=
  later_mfmt ..
@[simp] theorem again_mringA (t : Team) (cx : Cur) (n : Nat) (ph : Phase) (l : List Nat) (i : Instr) : (t.again cx n ph l i).mringA = t.mringA :=
  later_mringA ..
@[simp] theorem again_mringB (t : Team) (cx : Cur) (n : Nat) (ph : Phase) (l : List Nat) (i : Instr) : (t.again cx n ph l i).mringB = t.mringB :=
  later_mringB ..
@[simp] theorem again_mnest (t : Team) (cx : Cur) (n : Nat) (ph : Phase) (l : List Nat) (i : Instr) : (t.again cx n ph l i).mnest = t.mnest :=
  later_mnest ..
@[simp] theorem again_active (t : Team) (cx : Cur) (n : Nat) (ph : Phase) (l : List Nat) (i : Instr) : (t.again cx n ph l i).active = t.active :=
  later_active ..
@[simp] theorem again_rA (t : Team) (cx : Cur) (n : Nat) (ph : Phase) (l : List Nat) (i : Instr) : (t.again cx n ph l i).rA = t.rA :=
  later_rA ..
@[simp] theorem again_rB (t : Team) (cx : Cur) (n : Nat) (ph : Phase) (l : List Nat) (i : Instr) : (t.again cx n ph l i).rB = t.rB :=
  later_rB ..
@[simp] theorem again_engine (t : Team) (cx : Cur) (n : Nat) (ph : Phase) (l : List Nat) (i : Instr) : (t.again cx n ph l i).engine = t.engine :=
  later_engine ..
@[simp] theorem again_engineFree (t : Team) (cx : Cur) (n : Nat) (ph : Phase) (l : List Nat) (i : Instr) : (t.again cx n ph l i).engineFree = t.engineFree :=
  later_engineFree ..
@[simp] theorem again_plaitObs (t : Team) (cx : Cur) (n : Nat) (ph : Phase) (l : List Nat) (i : Instr) : (t.again cx n ph l i).plaitObs = t.plaitObs :=
  later_plaitObs ..
@[simp] theorem again_hidden (t : Team) (cx : Cur) (n : Nat) (ph : Phase) (l : List Nat) (i : Instr) : (t.again cx n ph l i).hidden = t.hidden :=
  later_hidden ..
@[simp] theorem again_inbound (t : Team) (cx : Cur) (n : Nat) (ph : Phase) (l : List Nat) (i : Instr) : (t.again cx n ph l i).inbound = t.inbound :=
  later_inbound ..
@[simp] theorem again_border (t : Team) (cx : Cur) (n : Nat) (ph : Phase) (l : List Nat) (i : Instr) : (t.again cx n ph l i).border = t.border :=
  later_border ..
@[simp] theorem again_inbox (t : Team) (cx : Cur) (n : Nat) (ph : Phase) (l : List Nat) (i : Instr) : (t.again cx n ph l i).inbox = t.inbox :=
  later_inbox ..
@[simp] theorem again_plaits (t : Team) (cx : Cur) (n : Nat) (ph : Phase) (l : List Nat) (i : Instr) : (t.again cx n ph l i).plaits = t.plaits :=
  later_plaits ..
@[simp] theorem again_copies (t : Team) (cx : Cur) (n : Nat) (ph : Phase) (l : List Nat) (i : Instr) : (t.again cx n ph l i).copies = t.copies :=
  later_copies ..
@[simp] theorem again_xferFree (t : Team) (cx : Cur) (n : Nat) (ph : Phase) (l : List Nat) (i : Instr) : (t.again cx n ph l i).xferFree = t.xferFree :=
  later_xferFree ..
@[simp] theorem again_advances (t : Team) (cx : Cur) (n : Nat) (ph : Phase) (l : List Nat) (i : Instr) : (t.again cx n ph l i).advances = t.advances :=
  later_advances ..
@[simp] theorem again_cpx (t : Team) (cx : Cur) (n : Nat) (ph : Phase) (l : List Nat) (i : Instr) : (t.again cx n ph l i).cpx = t.cpx :=
  later_cpx ..
@[simp] theorem again_waiting (t : Team) (cx : Cur) (n : Nat) (ph : Phase) (l : List Nat) (i : Instr) : (t.again cx n ph l i).waiting = t.waiting :=
  later_waiting ..
@[simp] theorem again_traps (t : Team) (cx : Cur) (n : Nat) (ph : Phase) (l : List Nat) (i : Instr) : (t.again cx n ph l i).traps = t.traps :=
  later_traps ..
@[simp] theorem again_freezeReq (t : Team) (cx : Cur) (n : Nat) (ph : Phase) (l : List Nat) (i : Instr) : (t.again cx n ph l i).freezeReq = t.freezeReq :=
  later_freezeReq ..
@[simp] theorem again_lastPulse (t : Team) (cx : Cur) (n : Nat) (ph : Phase) (l : List Nat) (i : Instr) : (t.again cx n ph l i).lastPulse = t.lastPulse :=
  later_lastPulse ..
@[simp] theorem again_nextId (t : Team) (cx : Cur) (n : Nat) (ph : Phase) (l : List Nat) (i : Instr) : (t.again cx n ph l i).nextId = t.nextId :=
  later_nextId ..

/-! ## A word left waiting -/

@[simp] theorem await_cid (t : Team) (cx : Cur) (l : List Nat) (i : Instr) : (t.await cx l i).cid = t.cid := rfl
@[simp] theorem await_launch (t : Team) (cx : Cur) (l : List Nat) (i : Instr) : (t.await cx l i).launch = t.launch := rfl
@[simp] theorem await_job (t : Team) (cx : Cur) (l : List Nat) (i : Instr) : (t.await cx l i).job = t.job := rfl
@[simp] theorem await_ord (t : Team) (cx : Cur) (l : List Nat) (i : Instr) : (t.await cx l i).ord = t.ord := rfl
@[simp] theorem await_patch (t : Team) (cx : Cur) (l : List Nat) (i : Instr) : (t.await cx l i).patch = t.patch := rfl
@[simp] theorem await_pext (t : Team) (cx : Cur) (l : List Nat) (i : Instr) : (t.await cx l i).pext = t.pext := rfl
@[simp] theorem await_ndet (t : Team) (cx : Cur) (l : List Nat) (i : Instr) : (t.await cx l i).ndet = t.ndet := rfl
@[simp] theorem await_tgroup (t : Team) (cx : Cur) (l : List Nat) (i : Instr) : (t.await cx l i).tgroup = t.tgroup := rfl
@[simp] theorem await_banks (t : Team) (cx : Cur) (l : List Nat) (i : Instr) : (t.await cx l i).banks = t.banks := rfl
@[simp] theorem await_granules (t : Team) (cx : Cur) (l : List Nat) (i : Instr) : (t.await cx l i).granules = t.granules := rfl
@[simp] theorem await_inboxBase (t : Team) (cx : Cur) (l : List Nat) (i : Instr) : (t.await cx l i).inboxBase = t.inboxBase :=
  rfl
@[simp] theorem await_tfLen (t : Team) (cx : Cur) (l : List Nat) (i : Instr) : (t.await cx l i).tfLen = t.tfLen := rfl
@[simp] theorem await_clk (t : Team) (cx : Cur) (l : List Nat) (i : Instr) : (t.await cx l i).clk = t.clk := rfl
@[simp] theorem await_delta (t : Team) (cx : Cur) (l : List Nat) (i : Instr) : (t.await cx l i).delta = t.delta := rfl
@[simp] theorem await_frozen (t : Team) (cx : Cur) (l : List Nat) (i : Instr) : (t.await cx l i).frozen = t.frozen := rfl
@[simp] theorem await_frozenNs (t : Team) (cx : Cur) (l : List Nat) (i : Instr) : (t.await cx l i).frozenNs = t.frozenNs := rfl
@[simp] theorem await_frozenWhy (t : Team) (cx : Cur) (l : List Nat) (i : Instr) : (t.await cx l i).frozenWhy = t.frozenWhy :=
  rfl
@[simp] theorem await_svc (t : Team) (cx : Cur) (l : List Nat) (i : Instr) : (t.await cx l i).svc = t.svc := rfl
@[simp] theorem await_handler (t : Team) (cx : Cur) (l : List Nat) (i : Instr) : (t.await cx l i).handler = t.handler := rfl
@[simp] theorem await_depth (t : Team) (cx : Cur) (l : List Nat) (i : Instr) : (t.await cx l i).depth = t.depth := rfl
@[simp] theorem await_svcClk (t : Team) (cx : Cur) (l : List Nat) (i : Instr) : (t.await cx l i).svcClk = t.svcClk := rfl
@[simp] theorem await_svcPend (t : Team) (cx : Cur) (l : List Nat) (i : Instr) : (t.await cx l i).svcPend = t.svcPend := rfl
@[simp] theorem await_held (t : Team) (cx : Cur) (l : List Nat) (i : Instr) : (t.await cx l i).held = t.held := rfl
@[simp] theorem await_parked (t : Team) (cx : Cur) (l : List Nat) (i : Instr) : (t.await cx l i).parked = t.parked := rfl
@[simp] theorem await_hoop (t : Team) (cx : Cur) (l : List Nat) (i : Instr) : (t.await cx l i).hoop = t.hoop := rfl
@[simp] theorem await_cols (t : Team) (cx : Cur) (l : List Nat) (i : Instr) : (t.await cx l i).cols = t.cols := rfl
@[simp] theorem await_s (t : Team) (cx : Cur) (l : List Nat) (i : Instr) : (t.await cx l i).s = t.s := rfl
@[simp] theorem await_a (t : Team) (cx : Cur) (l : List Nat) (i : Instr) : (t.await cx l i).a = t.a := rfl
@[simp] theorem await_v (t : Team) (cx : Cur) (l : List Nat) (i : Instr) : (t.await cx l i).v = t.v := rfl
@[simp] theorem await_o (t : Team) (cx : Cur) (l : List Nat) (i : Instr) : (t.await cx l i).o = t.o := rfl
@[simp] theorem await_lat (t : Team) (cx : Cur) (l : List Nat) (i : Instr) : (t.await cx l i).lat = t.lat := rfl
@[simp] theorem await_q (t : Team) (cx : Cur) (l : List Nat) (i : Instr) : (t.await cx l i).q = t.q := rfl
@[simp] theorem await_w (t : Team) (cx : Cur) (l : List Nat) (i : Instr) : (t.await cx l i).w = t.w := rfl
@[simp] theorem await_k (t : Team) (cx : Cur) (l : List Nat) (i : Instr) : (t.await cx l i).k = t.k := rfl
@[simp] theorem await_m (t : Team) (cx : Cur) (l : List Nat) (i : Instr) : (t.await cx l i).m = t.m := rfl
@[simp] theorem await_n (t : Team) (cx : Cur) (l : List Nat) (i : Instr) : (t.await cx l i).n = t.n := rfl
@[simp] theorem await_tab (t : Team) (cx : Cur) (l : List Nat) (i : Instr) : (t.await cx l i).tab = t.tab := rfl
@[simp] theorem await_p (t : Team) (cx : Cur) (l : List Nat) (i : Instr) : (t.await cx l i).p = t.p := rfl
@[simp] theorem await_toks (t : Team) (cx : Cur) (l : List Nat) (i : Instr) : (t.await cx l i).toks = t.toks := rfl
@[simp] theorem await_flags (t : Team) (cx : Cur) (l : List Nat) (i : Instr) : (t.await cx l i).flags = t.flags := rfl
@[simp] theorem await_cnt (t : Team) (cx : Cur) (l : List Nat) (i : Instr) : (t.await cx l i).cnt = t.cnt := rfl
@[simp] theorem await_bars (t : Team) (cx : Cur) (l : List Nat) (i : Instr) : (t.await cx l i).bars = t.bars := rfl
@[simp] theorem await_mbx (t : Team) (cx : Cur) (l : List Nat) (i : Instr) : (t.await cx l i).mbx = t.mbx := rfl
@[simp] theorem await_vrm (t : Team) (cx : Cur) (l : List Nat) (i : Instr) : (t.await cx l i).vrm = t.vrm := rfl
@[simp] theorem await_vsat (t : Team) (cx : Cur) (l : List Nat) (i : Instr) : (t.await cx l i).vsat = t.vsat := rfl
@[simp] theorem await_vshape (t : Team) (cx : Cur) (l : List Nat) (i : Instr) : (t.await cx l i).vshape = t.vshape := rfl
@[simp] theorem await_vexc (t : Team) (cx : Cur) (l : List Nat) (i : Instr) : (t.await cx l i).vexc = t.vexc := rfl
@[simp] theorem await_mexc (t : Team) (cx : Cur) (l : List Nat) (i : Instr) : (t.await cx l i).mexc = t.mexc := rfl
@[simp] theorem await_cexc (t : Team) (cx : Cur) (l : List Nat) (i : Instr) : (t.await cx l i).cexc = t.cexc := rfl
@[simp] theorem await_stkb (t : Team) (cx : Cur) (l : List Nat) (i : Instr) : (t.await cx l i).stkb = t.stkb := rfl
@[simp] theorem await_stkl (t : Team) (cx : Cur) (l : List Nat) (i : Instr) : (t.await cx l i).stkl = t.stkl := rfl
@[simp] theorem await_stkp (t : Team) (cx : Cur) (l : List Nat) (i : Instr) : (t.await cx l i).stkp = t.stkp := rfl
@[simp] theorem await_dbgctl (t : Team) (cx : Cur) (l : List Nat) (i : Instr) : (t.await cx l i).dbgctl = t.dbgctl := rfl
@[simp] theorem await_tfb (t : Team) (cx : Cur) (l : List Nat) (i : Instr) : (t.await cx l i).tfb = t.tfb := rfl
@[simp] theorem await_tcause (t : Team) (cx : Cur) (l : List Nat) (i : Instr) : (t.await cx l i).tcause = t.tcause := rfl
@[simp] theorem await_tval (t : Team) (cx : Cur) (l : List Nat) (i : Instr) : (t.await cx l i).tval = t.tval := rfl
@[simp] theorem await_tepc (t : Team) (cx : Cur) (l : List Nat) (i : Instr) : (t.await cx l i).tepc = t.tepc := rfl
@[simp] theorem await_tstat (t : Team) (cx : Cur) (l : List Nat) (i : Instr) : (t.await cx l i).tstat = t.tstat := rfl
@[simp] theorem await_tie (t : Team) (cx : Cur) (l : List Nat) (i : Instr) : (t.await cx l i).tie = t.tie := rfl
@[simp] theorem await_tip (t : Team) (cx : Cur) (l : List Nat) (i : Instr) : (t.await cx l i).tip = t.tip := rfl
@[simp] theorem await_tscratch (t : Team) (cx : Cur) (l : List Nat) (i : Instr) : (t.await cx l i).tscratch = t.tscratch := rfl
@[simp] theorem await_timecmp (t : Team) (cx : Cur) (l : List Nat) (i : Instr) : (t.await cx l i).timecmp = t.timecmp := rfl
@[simp] theorem await_csrTaint (t : Team) (cx : Cur) (l : List Nat) (i : Instr) : (t.await cx l i).csrTaint = t.csrTaint := rfl
@[simp] theorem await_spad (t : Team) (cx : Cur) (l : List Nat) (i : Instr) : (t.await cx l i).spad = t.spad := rfl
@[simp] theorem await_spadTaint (t : Team) (cx : Cur) (l : List Nat) (i : Instr) : (t.await cx l i).spadTaint = t.spadTaint :=
  rfl
@[simp] theorem await_sick (t : Team) (cx : Cur) (l : List Nat) (i : Instr) : (t.await cx l i).sick = t.sick := rfl
@[simp] theorem await_unseen (t : Team) (cx : Cur) (l : List Nat) (i : Instr) : (t.await cx l i).unseen = t.unseen := rfl
@[simp] theorem await_told (t : Team) (cx : Cur) (l : List Nat) (i : Instr) : (t.await cx l i).told = t.told := rfl
@[simp] theorem await_heard (t : Team) (cx : Cur) (l : List Nat) (i : Instr) : (t.await cx l i).heard = t.heard := rfl
@[simp] theorem await_fresh (t : Team) (cx : Cur) (l : List Nat) (i : Instr) : (t.await cx l i).fresh = t.fresh := rfl
@[simp] theorem await_touch (t : Team) (cx : Cur) (l : List Nat) (i : Instr) : (t.await cx l i).touch = t.touch := rfl
@[simp] theorem await_coming (t : Team) (cx : Cur) (l : List Nat) (i : Instr) : (t.await cx l i).coming = t.coming := rfl
@[simp] theorem await_ways (t : Team) (cx : Cur) (l : List Nat) (i : Instr) : (t.await cx l i).ways = t.ways := rfl
@[simp] theorem await_bfmt (t : Team) (cx : Cur) (l : List Nat) (i : Instr) : (t.await cx l i).bfmt = t.bfmt := rfl
@[simp] theorem await_books (t : Team) (cx : Cur) (l : List Nat) (i : Instr) : (t.await cx l i).books = t.books := rfl
@[simp] theorem await_cache (t : Team) (cx : Cur) (l : List Nat) (i : Instr) : (t.await cx l i).cache = t.cache := rfl
@[simp] theorem await_acc (t : Team) (cx : Cur) (l : List Nat) (i : Instr) : (t.await cx l i).acc = t.acc := rfl
@[simp] theorem await_accTaint (t : Team) (cx : Cur) (l : List Nat) (i : Instr) : (t.await cx l i).accTaint = t.accTaint := rfl
@[simp] theorem await_accSick (t : Team) (cx : Cur) (l : List Nat) (i : Instr) : (t.await cx l i).accSick = t.accSick := rfl
@[simp] theorem await_found (t : Team) (cx : Cur) (l : List Nat) (i : Instr) : (t.await cx l i).found = t.found := rfl
@[simp] theorem await_mfmt (t : Team) (cx : Cur) (l : List Nat) (i : Instr) : (t.await cx l i).mfmt = t.mfmt := rfl
@[simp] theorem await_mringA (t : Team) (cx : Cur) (l : List Nat) (i : Instr) : (t.await cx l i).mringA = t.mringA := rfl
@[simp] theorem await_mringB (t : Team) (cx : Cur) (l : List Nat) (i : Instr) : (t.await cx l i).mringB = t.mringB := rfl
@[simp] theorem await_mnest (t : Team) (cx : Cur) (l : List Nat) (i : Instr) : (t.await cx l i).mnest = t.mnest := rfl
@[simp] theorem await_active (t : Team) (cx : Cur) (l : List Nat) (i : Instr) : (t.await cx l i).active = t.active := rfl
@[simp] theorem await_rA (t : Team) (cx : Cur) (l : List Nat) (i : Instr) : (t.await cx l i).rA = t.rA := rfl
@[simp] theorem await_rB (t : Team) (cx : Cur) (l : List Nat) (i : Instr) : (t.await cx l i).rB = t.rB := rfl
@[simp] theorem await_engine (t : Team) (cx : Cur) (l : List Nat) (i : Instr) : (t.await cx l i).engine = t.engine := rfl
@[simp] theorem await_engineFree (t : Team) (cx : Cur) (l : List Nat) (i : Instr) : (t.await cx l i).engineFree = t.engineFree :=
  rfl
@[simp] theorem await_plaitObs (t : Team) (cx : Cur) (l : List Nat) (i : Instr) : (t.await cx l i).plaitObs = t.plaitObs := rfl
@[simp] theorem await_hidden (t : Team) (cx : Cur) (l : List Nat) (i : Instr) : (t.await cx l i).hidden = t.hidden := rfl
@[simp] theorem await_inbound (t : Team) (cx : Cur) (l : List Nat) (i : Instr) : (t.await cx l i).inbound = t.inbound := rfl
@[simp] theorem await_border (t : Team) (cx : Cur) (l : List Nat) (i : Instr) : (t.await cx l i).border = t.border := rfl
@[simp] theorem await_inbox (t : Team) (cx : Cur) (l : List Nat) (i : Instr) : (t.await cx l i).inbox = t.inbox := rfl
@[simp] theorem await_plaits (t : Team) (cx : Cur) (l : List Nat) (i : Instr) : (t.await cx l i).plaits = t.plaits := rfl
@[simp] theorem await_copies (t : Team) (cx : Cur) (l : List Nat) (i : Instr) : (t.await cx l i).copies = t.copies := rfl
@[simp] theorem await_xferFree (t : Team) (cx : Cur) (l : List Nat) (i : Instr) : (t.await cx l i).xferFree = t.xferFree := rfl
@[simp] theorem await_advances (t : Team) (cx : Cur) (l : List Nat) (i : Instr) : (t.await cx l i).advances = t.advances := rfl
@[simp] theorem await_cpx (t : Team) (cx : Cur) (l : List Nat) (i : Instr) : (t.await cx l i).cpx = t.cpx := rfl
@[simp] theorem await_pend (t : Team) (cx : Cur) (l : List Nat) (i : Instr) : (t.await cx l i).pend = t.pend := rfl
@[simp] theorem await_traps (t : Team) (cx : Cur) (l : List Nat) (i : Instr) : (t.await cx l i).traps = t.traps := rfl
@[simp] theorem await_freezeReq (t : Team) (cx : Cur) (l : List Nat) (i : Instr) : (t.await cx l i).freezeReq = t.freezeReq :=
  rfl
@[simp] theorem await_lastPulse (t : Team) (cx : Cur) (l : List Nat) (i : Instr) : (t.await cx l i).lastPulse = t.lastPulse :=
  rfl
@[simp] theorem await_nextId (t : Team) (cx : Cur) (l : List Nat) (i : Instr) : (t.await cx l i).nextId = t.nextId := rfl

/-! ## An acquire -/

@[simp] theorem acquire_cid (t : Team) (c : Col) : (t.acquire c).cid = t.cid := by unfold Team.acquire; split <;> rfl
@[simp] theorem acquire_launch (t : Team) (c : Col) : (t.acquire c).launch = t.launch := by unfold Team.acquire; split <;> rfl
@[simp] theorem acquire_job (t : Team) (c : Col) : (t.acquire c).job = t.job := by unfold Team.acquire; split <;> rfl
@[simp] theorem acquire_ord (t : Team) (c : Col) : (t.acquire c).ord = t.ord := by unfold Team.acquire; split <;> rfl
@[simp] theorem acquire_patch (t : Team) (c : Col) : (t.acquire c).patch = t.patch := by unfold Team.acquire; split <;> rfl
@[simp] theorem acquire_pext (t : Team) (c : Col) : (t.acquire c).pext = t.pext := by unfold Team.acquire; split <;> rfl
@[simp] theorem acquire_ndet (t : Team) (c : Col) : (t.acquire c).ndet = t.ndet := by unfold Team.acquire; split <;> rfl
@[simp] theorem acquire_tgroup (t : Team) (c : Col) : (t.acquire c).tgroup = t.tgroup := by unfold Team.acquire; split <;> rfl
@[simp] theorem acquire_banks (t : Team) (c : Col) : (t.acquire c).banks = t.banks := by unfold Team.acquire; split <;> rfl
@[simp] theorem acquire_granules (t : Team) (c : Col) : (t.acquire c).granules = t.granules :=
  by unfold Team.acquire; split <;> rfl
@[simp] theorem acquire_inboxBase (t : Team) (c : Col) : (t.acquire c).inboxBase = t.inboxBase :=
  by unfold Team.acquire; split <;> rfl
@[simp] theorem acquire_tfLen (t : Team) (c : Col) : (t.acquire c).tfLen = t.tfLen := by unfold Team.acquire; split <;> rfl
@[simp] theorem acquire_clk (t : Team) (c : Col) : (t.acquire c).clk = t.clk := by unfold Team.acquire; split <;> rfl
@[simp] theorem acquire_delta (t : Team) (c : Col) : (t.acquire c).delta = t.delta := by unfold Team.acquire; split <;> rfl
@[simp] theorem acquire_frozen (t : Team) (c : Col) : (t.acquire c).frozen = t.frozen := by unfold Team.acquire; split <;> rfl
@[simp] theorem acquire_frozenNs (t : Team) (c : Col) : (t.acquire c).frozenNs = t.frozenNs :=
  by unfold Team.acquire; split <;> rfl
@[simp] theorem acquire_frozenWhy (t : Team) (c : Col) : (t.acquire c).frozenWhy = t.frozenWhy :=
  by unfold Team.acquire; split <;> rfl
@[simp] theorem acquire_svc (t : Team) (c : Col) : (t.acquire c).svc = t.svc := by unfold Team.acquire; split <;> rfl
@[simp] theorem acquire_handler (t : Team) (c : Col) : (t.acquire c).handler = t.handler :=
  by unfold Team.acquire; split <;> rfl
@[simp] theorem acquire_depth (t : Team) (c : Col) : (t.acquire c).depth = t.depth := by unfold Team.acquire; split <;> rfl
@[simp] theorem acquire_svcClk (t : Team) (c : Col) : (t.acquire c).svcClk = t.svcClk := by unfold Team.acquire; split <;> rfl
@[simp] theorem acquire_svcPend (t : Team) (c : Col) : (t.acquire c).svcPend = t.svcPend :=
  by unfold Team.acquire; split <;> rfl
@[simp] theorem acquire_held (t : Team) (c : Col) : (t.acquire c).held = t.held := by unfold Team.acquire; split <;> rfl
@[simp] theorem acquire_parked (t : Team) (c : Col) : (t.acquire c).parked = t.parked := by unfold Team.acquire; split <;> rfl
@[simp] theorem acquire_hoop (t : Team) (c : Col) : (t.acquire c).hoop = t.hoop := by unfold Team.acquire; split <;> rfl
@[simp] theorem acquire_cols (t : Team) (c : Col) : (t.acquire c).cols = t.cols := by unfold Team.acquire; split <;> rfl
@[simp] theorem acquire_s (t : Team) (c : Col) : (t.acquire c).s = t.s := by unfold Team.acquire; split <;> rfl
@[simp] theorem acquire_a (t : Team) (c : Col) : (t.acquire c).a = t.a := by unfold Team.acquire; split <;> rfl
@[simp] theorem acquire_v (t : Team) (c : Col) : (t.acquire c).v = t.v := by unfold Team.acquire; split <;> rfl
@[simp] theorem acquire_o (t : Team) (c : Col) : (t.acquire c).o = t.o := by unfold Team.acquire; split <;> rfl
@[simp] theorem acquire_lat (t : Team) (c : Col) : (t.acquire c).lat = t.lat := by unfold Team.acquire; split <;> rfl
@[simp] theorem acquire_q (t : Team) (c : Col) : (t.acquire c).q = t.q := by unfold Team.acquire; split <;> rfl
@[simp] theorem acquire_w (t : Team) (c : Col) : (t.acquire c).w = t.w := by unfold Team.acquire; split <;> rfl
@[simp] theorem acquire_k (t : Team) (c : Col) : (t.acquire c).k = t.k := by unfold Team.acquire; split <;> rfl
@[simp] theorem acquire_m (t : Team) (c : Col) : (t.acquire c).m = t.m := by unfold Team.acquire; split <;> rfl
@[simp] theorem acquire_n (t : Team) (c : Col) : (t.acquire c).n = t.n := by unfold Team.acquire; split <;> rfl
@[simp] theorem acquire_tab (t : Team) (c : Col) : (t.acquire c).tab = t.tab := by unfold Team.acquire; split <;> rfl
@[simp] theorem acquire_p (t : Team) (c : Col) : (t.acquire c).p = t.p := by unfold Team.acquire; split <;> rfl
@[simp] theorem acquire_toks (t : Team) (c : Col) : (t.acquire c).toks = t.toks := by unfold Team.acquire; split <;> rfl
@[simp] theorem acquire_flags (t : Team) (c : Col) : (t.acquire c).flags = t.flags := by unfold Team.acquire; split <;> rfl
@[simp] theorem acquire_cnt (t : Team) (c : Col) : (t.acquire c).cnt = t.cnt := by unfold Team.acquire; split <;> rfl
@[simp] theorem acquire_bars (t : Team) (c : Col) : (t.acquire c).bars = t.bars := by unfold Team.acquire; split <;> rfl
@[simp] theorem acquire_mbx (t : Team) (c : Col) : (t.acquire c).mbx = t.mbx := by unfold Team.acquire; split <;> rfl
@[simp] theorem acquire_vrm (t : Team) (c : Col) : (t.acquire c).vrm = t.vrm := by unfold Team.acquire; split <;> rfl
@[simp] theorem acquire_vsat (t : Team) (c : Col) : (t.acquire c).vsat = t.vsat := by unfold Team.acquire; split <;> rfl
@[simp] theorem acquire_vshape (t : Team) (c : Col) : (t.acquire c).vshape = t.vshape := by unfold Team.acquire; split <;> rfl
@[simp] theorem acquire_vexc (t : Team) (c : Col) : (t.acquire c).vexc = t.vexc := by unfold Team.acquire; split <;> rfl
@[simp] theorem acquire_mexc (t : Team) (c : Col) : (t.acquire c).mexc = t.mexc := by unfold Team.acquire; split <;> rfl
@[simp] theorem acquire_cexc (t : Team) (c : Col) : (t.acquire c).cexc = t.cexc := by unfold Team.acquire; split <;> rfl
@[simp] theorem acquire_stkb (t : Team) (c : Col) : (t.acquire c).stkb = t.stkb := by unfold Team.acquire; split <;> rfl
@[simp] theorem acquire_stkl (t : Team) (c : Col) : (t.acquire c).stkl = t.stkl := by unfold Team.acquire; split <;> rfl
@[simp] theorem acquire_stkp (t : Team) (c : Col) : (t.acquire c).stkp = t.stkp := by unfold Team.acquire; split <;> rfl
@[simp] theorem acquire_dbgctl (t : Team) (c : Col) : (t.acquire c).dbgctl = t.dbgctl := by unfold Team.acquire; split <;> rfl
@[simp] theorem acquire_tfb (t : Team) (c : Col) : (t.acquire c).tfb = t.tfb := by unfold Team.acquire; split <;> rfl
@[simp] theorem acquire_tcause (t : Team) (c : Col) : (t.acquire c).tcause = t.tcause := by unfold Team.acquire; split <;> rfl
@[simp] theorem acquire_tval (t : Team) (c : Col) : (t.acquire c).tval = t.tval := by unfold Team.acquire; split <;> rfl
@[simp] theorem acquire_tepc (t : Team) (c : Col) : (t.acquire c).tepc = t.tepc := by unfold Team.acquire; split <;> rfl
@[simp] theorem acquire_tstat (t : Team) (c : Col) : (t.acquire c).tstat = t.tstat := by unfold Team.acquire; split <;> rfl
@[simp] theorem acquire_tie (t : Team) (c : Col) : (t.acquire c).tie = t.tie := by unfold Team.acquire; split <;> rfl
@[simp] theorem acquire_tip (t : Team) (c : Col) : (t.acquire c).tip = t.tip := by unfold Team.acquire; split <;> rfl
@[simp] theorem acquire_tscratch (t : Team) (c : Col) : (t.acquire c).tscratch = t.tscratch :=
  by unfold Team.acquire; split <;> rfl
@[simp] theorem acquire_timecmp (t : Team) (c : Col) : (t.acquire c).timecmp = t.timecmp :=
  by unfold Team.acquire; split <;> rfl
@[simp] theorem acquire_csrTaint (t : Team) (c : Col) : (t.acquire c).csrTaint = t.csrTaint :=
  by unfold Team.acquire; split <;> rfl
@[simp] theorem acquire_spad (t : Team) (c : Col) : (t.acquire c).spad = t.spad := by unfold Team.acquire; split <;> rfl
@[simp] theorem acquire_spadTaint (t : Team) (c : Col) : (t.acquire c).spadTaint = t.spadTaint :=
  by unfold Team.acquire; split <;> rfl
@[simp] theorem acquire_sick (t : Team) (c : Col) : (t.acquire c).sick = t.sick := by unfold Team.acquire; split <;> rfl
@[simp] theorem acquire_unseen (t : Team) (c : Col) : (t.acquire c).unseen = t.unseen := by unfold Team.acquire; split <;> rfl
@[simp] theorem acquire_told (t : Team) (c : Col) : (t.acquire c).told = t.told := by unfold Team.acquire; split <;> rfl
@[simp] theorem acquire_heard (t : Team) (c : Col) : (t.acquire c).heard = t.heard := by unfold Team.acquire; split <;> rfl
@[simp] theorem acquire_coming (t : Team) (c : Col) : (t.acquire c).coming = t.coming := by unfold Team.acquire; split <;> rfl
@[simp] theorem acquire_ways (t : Team) (c : Col) : (t.acquire c).ways = t.ways := by unfold Team.acquire; split <;> rfl
@[simp] theorem acquire_bfmt (t : Team) (c : Col) : (t.acquire c).bfmt = t.bfmt := by unfold Team.acquire; split <;> rfl
@[simp] theorem acquire_books (t : Team) (c : Col) : (t.acquire c).books = t.books := by unfold Team.acquire; split <;> rfl
@[simp] theorem acquire_cache (t : Team) (c : Col) : (t.acquire c).cache = t.cache := by unfold Team.acquire; split <;> rfl
@[simp] theorem acquire_acc (t : Team) (c : Col) : (t.acquire c).acc = t.acc := by unfold Team.acquire; split <;> rfl
@[simp] theorem acquire_accTaint (t : Team) (c : Col) : (t.acquire c).accTaint = t.accTaint :=
  by unfold Team.acquire; split <;> rfl
@[simp] theorem acquire_accSick (t : Team) (c : Col) : (t.acquire c).accSick = t.accSick :=
  by unfold Team.acquire; split <;> rfl
@[simp] theorem acquire_found (t : Team) (c : Col) : (t.acquire c).found = t.found := by unfold Team.acquire; split <;> rfl
@[simp] theorem acquire_mfmt (t : Team) (c : Col) : (t.acquire c).mfmt = t.mfmt := by unfold Team.acquire; split <;> rfl
@[simp] theorem acquire_mringA (t : Team) (c : Col) : (t.acquire c).mringA = t.mringA := by unfold Team.acquire; split <;> rfl
@[simp] theorem acquire_mringB (t : Team) (c : Col) : (t.acquire c).mringB = t.mringB := by unfold Team.acquire; split <;> rfl
@[simp] theorem acquire_mnest (t : Team) (c : Col) : (t.acquire c).mnest = t.mnest := by unfold Team.acquire; split <;> rfl
@[simp] theorem acquire_active (t : Team) (c : Col) : (t.acquire c).active = t.active := by unfold Team.acquire; split <;> rfl
@[simp] theorem acquire_rA (t : Team) (c : Col) : (t.acquire c).rA = t.rA := by unfold Team.acquire; split <;> rfl
@[simp] theorem acquire_rB (t : Team) (c : Col) : (t.acquire c).rB = t.rB := by unfold Team.acquire; split <;> rfl
@[simp] theorem acquire_engine (t : Team) (c : Col) : (t.acquire c).engine = t.engine := by unfold Team.acquire; split <;> rfl
@[simp] theorem acquire_engineFree (t : Team) (c : Col) : (t.acquire c).engineFree = t.engineFree :=
  by unfold Team.acquire; split <;> rfl
@[simp] theorem acquire_plaitObs (t : Team) (c : Col) : (t.acquire c).plaitObs = t.plaitObs :=
  by unfold Team.acquire; split <;> rfl
@[simp] theorem acquire_hidden (t : Team) (c : Col) : (t.acquire c).hidden = t.hidden := by unfold Team.acquire; split <;> rfl
@[simp] theorem acquire_inbound (t : Team) (c : Col) : (t.acquire c).inbound = t.inbound :=
  by unfold Team.acquire; split <;> rfl
@[simp] theorem acquire_border (t : Team) (c : Col) : (t.acquire c).border = t.border := by unfold Team.acquire; split <;> rfl
@[simp] theorem acquire_inbox (t : Team) (c : Col) : (t.acquire c).inbox = t.inbox := by unfold Team.acquire; split <;> rfl
@[simp] theorem acquire_plaits (t : Team) (c : Col) : (t.acquire c).plaits = t.plaits := by unfold Team.acquire; split <;> rfl
@[simp] theorem acquire_copies (t : Team) (c : Col) : (t.acquire c).copies = t.copies := by unfold Team.acquire; split <;> rfl
@[simp] theorem acquire_xferFree (t : Team) (c : Col) : (t.acquire c).xferFree = t.xferFree :=
  by unfold Team.acquire; split <;> rfl
@[simp] theorem acquire_advances (t : Team) (c : Col) : (t.acquire c).advances = t.advances :=
  by unfold Team.acquire; split <;> rfl
@[simp] theorem acquire_cpx (t : Team) (c : Col) : (t.acquire c).cpx = t.cpx := by unfold Team.acquire; split <;> rfl
@[simp] theorem acquire_pend (t : Team) (c : Col) : (t.acquire c).pend = t.pend := by unfold Team.acquire; split <;> rfl
@[simp] theorem acquire_waiting (t : Team) (c : Col) : (t.acquire c).waiting = t.waiting :=
  by unfold Team.acquire; split <;> rfl
@[simp] theorem acquire_traps (t : Team) (c : Col) : (t.acquire c).traps = t.traps := by unfold Team.acquire; split <;> rfl
@[simp] theorem acquire_freezeReq (t : Team) (c : Col) : (t.acquire c).freezeReq = t.freezeReq :=
  by unfold Team.acquire; split <;> rfl
@[simp] theorem acquire_lastPulse (t : Team) (c : Col) : (t.acquire c).lastPulse = t.lastPulse :=
  by unfold Team.acquire; split <;> rfl
@[simp] theorem acquire_nextId (t : Team) (c : Col) : (t.acquire c).nextId = t.nextId := by unfold Team.acquire; split <;> rfl

/-! ## The team as a word sees it -/

@[simp] theorem seen_cid (t : Team) (cx : Cur) : (t.seen cx).cid = t.cid := by unfold Team.seen; split <;> simp
@[simp] theorem seen_launch (t : Team) (cx : Cur) : (t.seen cx).launch = t.launch := by unfold Team.seen; split <;> simp
@[simp] theorem seen_job (t : Team) (cx : Cur) : (t.seen cx).job = t.job := by unfold Team.seen; split <;> simp
@[simp] theorem seen_ord (t : Team) (cx : Cur) : (t.seen cx).ord = t.ord := by unfold Team.seen; split <;> simp
@[simp] theorem seen_patch (t : Team) (cx : Cur) : (t.seen cx).patch = t.patch := by unfold Team.seen; split <;> simp
@[simp] theorem seen_pext (t : Team) (cx : Cur) : (t.seen cx).pext = t.pext := by unfold Team.seen; split <;> simp
@[simp] theorem seen_ndet (t : Team) (cx : Cur) : (t.seen cx).ndet = t.ndet := by unfold Team.seen; split <;> simp
@[simp] theorem seen_tgroup (t : Team) (cx : Cur) : (t.seen cx).tgroup = t.tgroup := by unfold Team.seen; split <;> simp
@[simp] theorem seen_banks (t : Team) (cx : Cur) : (t.seen cx).banks = t.banks := by unfold Team.seen; split <;> simp
@[simp] theorem seen_granules (t : Team) (cx : Cur) : (t.seen cx).granules = t.granules := by unfold Team.seen; split <;> simp
@[simp] theorem seen_inboxBase (t : Team) (cx : Cur) : (t.seen cx).inboxBase = t.inboxBase :=
  by unfold Team.seen; split <;> simp
@[simp] theorem seen_tfLen (t : Team) (cx : Cur) : (t.seen cx).tfLen = t.tfLen := by unfold Team.seen; split <;> simp
@[simp] theorem seen_clk (t : Team) (cx : Cur) : (t.seen cx).clk = t.clk := by unfold Team.seen; split <;> simp
@[simp] theorem seen_delta (t : Team) (cx : Cur) : (t.seen cx).delta = t.delta := by unfold Team.seen; split <;> simp
@[simp] theorem seen_frozen (t : Team) (cx : Cur) : (t.seen cx).frozen = t.frozen := by unfold Team.seen; split <;> simp
@[simp] theorem seen_frozenNs (t : Team) (cx : Cur) : (t.seen cx).frozenNs = t.frozenNs := by unfold Team.seen; split <;> simp
@[simp] theorem seen_frozenWhy (t : Team) (cx : Cur) : (t.seen cx).frozenWhy = t.frozenWhy :=
  by unfold Team.seen; split <;> simp
@[simp] theorem seen_svc (t : Team) (cx : Cur) : (t.seen cx).svc = t.svc := by unfold Team.seen; split <;> simp
@[simp] theorem seen_handler (t : Team) (cx : Cur) : (t.seen cx).handler = t.handler := by unfold Team.seen; split <;> simp
@[simp] theorem seen_depth (t : Team) (cx : Cur) : (t.seen cx).depth = t.depth := by unfold Team.seen; split <;> simp
@[simp] theorem seen_svcClk (t : Team) (cx : Cur) : (t.seen cx).svcClk = t.svcClk := by unfold Team.seen; split <;> simp
@[simp] theorem seen_svcPend (t : Team) (cx : Cur) : (t.seen cx).svcPend = t.svcPend := by unfold Team.seen; split <;> simp
@[simp] theorem seen_held (t : Team) (cx : Cur) : (t.seen cx).held = t.held := by unfold Team.seen; split <;> simp
@[simp] theorem seen_parked (t : Team) (cx : Cur) : (t.seen cx).parked = t.parked := by unfold Team.seen; split <;> simp
@[simp] theorem seen_hoop (t : Team) (cx : Cur) : (t.seen cx).hoop = t.hoop := by unfold Team.seen; split <;> simp
@[simp] theorem seen_cols (t : Team) (cx : Cur) : (t.seen cx).cols = t.cols := by unfold Team.seen; split <;> simp
@[simp] theorem seen_s (t : Team) (cx : Cur) : (t.seen cx).s = t.s := by unfold Team.seen; split <;> simp
@[simp] theorem seen_a (t : Team) (cx : Cur) : (t.seen cx).a = t.a := by unfold Team.seen; split <;> simp
@[simp] theorem seen_v (t : Team) (cx : Cur) : (t.seen cx).v = t.v := by unfold Team.seen; split <;> simp
@[simp] theorem seen_o (t : Team) (cx : Cur) : (t.seen cx).o = t.o := by unfold Team.seen; split <;> simp
@[simp] theorem seen_lat (t : Team) (cx : Cur) : (t.seen cx).lat = t.lat := by unfold Team.seen; split <;> simp
@[simp] theorem seen_q (t : Team) (cx : Cur) : (t.seen cx).q = t.q := by unfold Team.seen; split <;> simp
@[simp] theorem seen_w (t : Team) (cx : Cur) : (t.seen cx).w = t.w := by unfold Team.seen; split <;> simp
@[simp] theorem seen_k (t : Team) (cx : Cur) : (t.seen cx).k = t.k := by unfold Team.seen; split <;> simp
@[simp] theorem seen_m (t : Team) (cx : Cur) : (t.seen cx).m = t.m := by unfold Team.seen; split <;> simp
@[simp] theorem seen_n (t : Team) (cx : Cur) : (t.seen cx).n = t.n := by unfold Team.seen; split <;> simp
@[simp] theorem seen_tab (t : Team) (cx : Cur) : (t.seen cx).tab = t.tab := by unfold Team.seen; split <;> simp
@[simp] theorem seen_p (t : Team) (cx : Cur) : (t.seen cx).p = t.p := by unfold Team.seen; split <;> simp
@[simp] theorem seen_toks (t : Team) (cx : Cur) : (t.seen cx).toks = t.toks := by unfold Team.seen; split <;> simp
@[simp] theorem seen_flags (t : Team) (cx : Cur) : (t.seen cx).flags = t.flags := by unfold Team.seen; split <;> simp
@[simp] theorem seen_cnt (t : Team) (cx : Cur) : (t.seen cx).cnt = t.cnt := by unfold Team.seen; split <;> simp
@[simp] theorem seen_bars (t : Team) (cx : Cur) : (t.seen cx).bars = t.bars := by unfold Team.seen; split <;> simp
@[simp] theorem seen_mbx (t : Team) (cx : Cur) : (t.seen cx).mbx = t.mbx := by unfold Team.seen; split <;> simp
@[simp] theorem seen_vrm (t : Team) (cx : Cur) : (t.seen cx).vrm = t.vrm := by unfold Team.seen; split <;> simp
@[simp] theorem seen_vsat (t : Team) (cx : Cur) : (t.seen cx).vsat = t.vsat := by unfold Team.seen; split <;> simp
@[simp] theorem seen_vshape (t : Team) (cx : Cur) : (t.seen cx).vshape = t.vshape := by unfold Team.seen; split <;> simp
@[simp] theorem seen_vexc (t : Team) (cx : Cur) : (t.seen cx).vexc = t.vexc := by unfold Team.seen; split <;> simp
@[simp] theorem seen_mexc (t : Team) (cx : Cur) : (t.seen cx).mexc = t.mexc := by unfold Team.seen; split <;> simp
@[simp] theorem seen_cexc (t : Team) (cx : Cur) : (t.seen cx).cexc = t.cexc := by unfold Team.seen; split <;> simp
@[simp] theorem seen_stkb (t : Team) (cx : Cur) : (t.seen cx).stkb = t.stkb := by unfold Team.seen; split <;> simp
@[simp] theorem seen_stkl (t : Team) (cx : Cur) : (t.seen cx).stkl = t.stkl := by unfold Team.seen; split <;> simp
@[simp] theorem seen_stkp (t : Team) (cx : Cur) : (t.seen cx).stkp = t.stkp := by unfold Team.seen; split <;> simp
@[simp] theorem seen_dbgctl (t : Team) (cx : Cur) : (t.seen cx).dbgctl = t.dbgctl := by unfold Team.seen; split <;> simp
@[simp] theorem seen_tfb (t : Team) (cx : Cur) : (t.seen cx).tfb = t.tfb := by unfold Team.seen; split <;> simp
@[simp] theorem seen_tcause (t : Team) (cx : Cur) : (t.seen cx).tcause = t.tcause := by unfold Team.seen; split <;> simp
@[simp] theorem seen_tval (t : Team) (cx : Cur) : (t.seen cx).tval = t.tval := by unfold Team.seen; split <;> simp
@[simp] theorem seen_tepc (t : Team) (cx : Cur) : (t.seen cx).tepc = t.tepc := by unfold Team.seen; split <;> simp
@[simp] theorem seen_tstat (t : Team) (cx : Cur) : (t.seen cx).tstat = t.tstat := by unfold Team.seen; split <;> simp
@[simp] theorem seen_tie (t : Team) (cx : Cur) : (t.seen cx).tie = t.tie := by unfold Team.seen; split <;> simp
@[simp] theorem seen_tip (t : Team) (cx : Cur) : (t.seen cx).tip = t.tip := by unfold Team.seen; split <;> simp
@[simp] theorem seen_tscratch (t : Team) (cx : Cur) : (t.seen cx).tscratch = t.tscratch := by unfold Team.seen; split <;> simp
@[simp] theorem seen_timecmp (t : Team) (cx : Cur) : (t.seen cx).timecmp = t.timecmp := by unfold Team.seen; split <;> simp
@[simp] theorem seen_csrTaint (t : Team) (cx : Cur) : (t.seen cx).csrTaint = t.csrTaint := by unfold Team.seen; split <;> simp
@[simp] theorem seen_spad (t : Team) (cx : Cur) : (t.seen cx).spad = t.spad := by unfold Team.seen; split <;> simp
@[simp] theorem seen_spadTaint (t : Team) (cx : Cur) : (t.seen cx).spadTaint = t.spadTaint :=
  by unfold Team.seen; split <;> simp
@[simp] theorem seen_sick (t : Team) (cx : Cur) : (t.seen cx).sick = t.sick := by unfold Team.seen; split <;> simp
@[simp] theorem seen_unseen (t : Team) (cx : Cur) : (t.seen cx).unseen = t.unseen := by unfold Team.seen; split <;> simp
@[simp] theorem seen_told (t : Team) (cx : Cur) : (t.seen cx).told = t.told := by unfold Team.seen; split <;> simp
@[simp] theorem seen_heard (t : Team) (cx : Cur) : (t.seen cx).heard = t.heard := by unfold Team.seen; split <;> simp
@[simp] theorem seen_coming (t : Team) (cx : Cur) : (t.seen cx).coming = t.coming := by unfold Team.seen; split <;> simp
@[simp] theorem seen_ways (t : Team) (cx : Cur) : (t.seen cx).ways = t.ways := by unfold Team.seen; split <;> simp
@[simp] theorem seen_bfmt (t : Team) (cx : Cur) : (t.seen cx).bfmt = t.bfmt := by unfold Team.seen; split <;> simp
@[simp] theorem seen_books (t : Team) (cx : Cur) : (t.seen cx).books = t.books := by unfold Team.seen; split <;> simp
@[simp] theorem seen_cache (t : Team) (cx : Cur) : (t.seen cx).cache = t.cache := by unfold Team.seen; split <;> simp
@[simp] theorem seen_acc (t : Team) (cx : Cur) : (t.seen cx).acc = t.acc := by unfold Team.seen; split <;> simp
@[simp] theorem seen_accTaint (t : Team) (cx : Cur) : (t.seen cx).accTaint = t.accTaint := by unfold Team.seen; split <;> simp
@[simp] theorem seen_accSick (t : Team) (cx : Cur) : (t.seen cx).accSick = t.accSick := by unfold Team.seen; split <;> simp
@[simp] theorem seen_found (t : Team) (cx : Cur) : (t.seen cx).found = t.found := by unfold Team.seen; split <;> simp
@[simp] theorem seen_mfmt (t : Team) (cx : Cur) : (t.seen cx).mfmt = t.mfmt := by unfold Team.seen; split <;> simp
@[simp] theorem seen_mringA (t : Team) (cx : Cur) : (t.seen cx).mringA = t.mringA := by unfold Team.seen; split <;> simp
@[simp] theorem seen_mringB (t : Team) (cx : Cur) : (t.seen cx).mringB = t.mringB := by unfold Team.seen; split <;> simp
@[simp] theorem seen_mnest (t : Team) (cx : Cur) : (t.seen cx).mnest = t.mnest := by unfold Team.seen; split <;> simp
@[simp] theorem seen_active (t : Team) (cx : Cur) : (t.seen cx).active = t.active := by unfold Team.seen; split <;> simp
@[simp] theorem seen_rA (t : Team) (cx : Cur) : (t.seen cx).rA = t.rA := by unfold Team.seen; split <;> simp
@[simp] theorem seen_rB (t : Team) (cx : Cur) : (t.seen cx).rB = t.rB := by unfold Team.seen; split <;> simp
@[simp] theorem seen_engine (t : Team) (cx : Cur) : (t.seen cx).engine = t.engine := by unfold Team.seen; split <;> simp
@[simp] theorem seen_engineFree (t : Team) (cx : Cur) : (t.seen cx).engineFree = t.engineFree :=
  by unfold Team.seen; split <;> simp
@[simp] theorem seen_plaitObs (t : Team) (cx : Cur) : (t.seen cx).plaitObs = t.plaitObs := by unfold Team.seen; split <;> simp
@[simp] theorem seen_hidden (t : Team) (cx : Cur) : (t.seen cx).hidden = t.hidden := by unfold Team.seen; split <;> simp
@[simp] theorem seen_inbound (t : Team) (cx : Cur) : (t.seen cx).inbound = t.inbound := by unfold Team.seen; split <;> simp
@[simp] theorem seen_border (t : Team) (cx : Cur) : (t.seen cx).border = t.border := by unfold Team.seen; split <;> simp
@[simp] theorem seen_inbox (t : Team) (cx : Cur) : (t.seen cx).inbox = t.inbox := by unfold Team.seen; split <;> simp
@[simp] theorem seen_plaits (t : Team) (cx : Cur) : (t.seen cx).plaits = t.plaits := by unfold Team.seen; split <;> simp
@[simp] theorem seen_copies (t : Team) (cx : Cur) : (t.seen cx).copies = t.copies := by unfold Team.seen; split <;> simp
@[simp] theorem seen_xferFree (t : Team) (cx : Cur) : (t.seen cx).xferFree = t.xferFree := by unfold Team.seen; split <;> simp
@[simp] theorem seen_advances (t : Team) (cx : Cur) : (t.seen cx).advances = t.advances := by unfold Team.seen; split <;> simp
@[simp] theorem seen_cpx (t : Team) (cx : Cur) : (t.seen cx).cpx = t.cpx := by unfold Team.seen; split <;> simp
@[simp] theorem seen_pend (t : Team) (cx : Cur) : (t.seen cx).pend = t.pend := by unfold Team.seen; split <;> simp
@[simp] theorem seen_waiting (t : Team) (cx : Cur) : (t.seen cx).waiting = t.waiting := by unfold Team.seen; split <;> simp
@[simp] theorem seen_traps (t : Team) (cx : Cur) : (t.seen cx).traps = t.traps := by unfold Team.seen; split <;> simp
@[simp] theorem seen_freezeReq (t : Team) (cx : Cur) : (t.seen cx).freezeReq = t.freezeReq :=
  by unfold Team.seen; split <;> simp
@[simp] theorem seen_lastPulse (t : Team) (cx : Cur) : (t.seen cx).lastPulse = t.lastPulse :=
  by unfold Team.seen; split <;> simp
@[simp] theorem seen_nextId (t : Team) (cx : Cur) : (t.seen cx).nextId = t.nextId := by unfold Team.seen; split <;> simp

/-! ## An s register written -/

@[simp] theorem setS_cid (t : Team) (r : SReg) (x : TW) : (t.setS r x).cid = t.cid := by unfold Team.setS; split <;> rfl
@[simp] theorem setS_launch (t : Team) (r : SReg) (x : TW) : (t.setS r x).launch = t.launch :=
  by unfold Team.setS; split <;> rfl
@[simp] theorem setS_job (t : Team) (r : SReg) (x : TW) : (t.setS r x).job = t.job := by unfold Team.setS; split <;> rfl
@[simp] theorem setS_ord (t : Team) (r : SReg) (x : TW) : (t.setS r x).ord = t.ord := by unfold Team.setS; split <;> rfl
@[simp] theorem setS_patch (t : Team) (r : SReg) (x : TW) : (t.setS r x).patch = t.patch := by unfold Team.setS; split <;> rfl
@[simp] theorem setS_pext (t : Team) (r : SReg) (x : TW) : (t.setS r x).pext = t.pext := by unfold Team.setS; split <;> rfl
@[simp] theorem setS_ndet (t : Team) (r : SReg) (x : TW) : (t.setS r x).ndet = t.ndet := by unfold Team.setS; split <;> rfl
@[simp] theorem setS_tgroup (t : Team) (r : SReg) (x : TW) : (t.setS r x).tgroup = t.tgroup :=
  by unfold Team.setS; split <;> rfl
@[simp] theorem setS_banks (t : Team) (r : SReg) (x : TW) : (t.setS r x).banks = t.banks := by unfold Team.setS; split <;> rfl
@[simp] theorem setS_granules (t : Team) (r : SReg) (x : TW) : (t.setS r x).granules = t.granules :=
  by unfold Team.setS; split <;> rfl
@[simp] theorem setS_inboxBase (t : Team) (r : SReg) (x : TW) : (t.setS r x).inboxBase = t.inboxBase :=
  by unfold Team.setS; split <;> rfl
@[simp] theorem setS_tfLen (t : Team) (r : SReg) (x : TW) : (t.setS r x).tfLen = t.tfLen := by unfold Team.setS; split <;> rfl
@[simp] theorem setS_clk (t : Team) (r : SReg) (x : TW) : (t.setS r x).clk = t.clk := by unfold Team.setS; split <;> rfl
@[simp] theorem setS_delta (t : Team) (r : SReg) (x : TW) : (t.setS r x).delta = t.delta := by unfold Team.setS; split <;> rfl
@[simp] theorem setS_frozen (t : Team) (r : SReg) (x : TW) : (t.setS r x).frozen = t.frozen :=
  by unfold Team.setS; split <;> rfl
@[simp] theorem setS_frozenNs (t : Team) (r : SReg) (x : TW) : (t.setS r x).frozenNs = t.frozenNs :=
  by unfold Team.setS; split <;> rfl
@[simp] theorem setS_frozenWhy (t : Team) (r : SReg) (x : TW) : (t.setS r x).frozenWhy = t.frozenWhy :=
  by unfold Team.setS; split <;> rfl
@[simp] theorem setS_svc (t : Team) (r : SReg) (x : TW) : (t.setS r x).svc = t.svc := by unfold Team.setS; split <;> rfl
@[simp] theorem setS_handler (t : Team) (r : SReg) (x : TW) : (t.setS r x).handler = t.handler :=
  by unfold Team.setS; split <;> rfl
@[simp] theorem setS_depth (t : Team) (r : SReg) (x : TW) : (t.setS r x).depth = t.depth := by unfold Team.setS; split <;> rfl
@[simp] theorem setS_svcClk (t : Team) (r : SReg) (x : TW) : (t.setS r x).svcClk = t.svcClk :=
  by unfold Team.setS; split <;> rfl
@[simp] theorem setS_svcPend (t : Team) (r : SReg) (x : TW) : (t.setS r x).svcPend = t.svcPend :=
  by unfold Team.setS; split <;> rfl
@[simp] theorem setS_held (t : Team) (r : SReg) (x : TW) : (t.setS r x).held = t.held := by unfold Team.setS; split <;> rfl
@[simp] theorem setS_parked (t : Team) (r : SReg) (x : TW) : (t.setS r x).parked = t.parked :=
  by unfold Team.setS; split <;> rfl
@[simp] theorem setS_hoop (t : Team) (r : SReg) (x : TW) : (t.setS r x).hoop = t.hoop := by unfold Team.setS; split <;> rfl
@[simp] theorem setS_cols (t : Team) (r : SReg) (x : TW) : (t.setS r x).cols = t.cols := by unfold Team.setS; split <;> rfl
@[simp] theorem setS_a (t : Team) (r : SReg) (x : TW) : (t.setS r x).a = t.a := by unfold Team.setS; split <;> rfl
@[simp] theorem setS_v (t : Team) (r : SReg) (x : TW) : (t.setS r x).v = t.v := by unfold Team.setS; split <;> rfl
@[simp] theorem setS_o (t : Team) (r : SReg) (x : TW) : (t.setS r x).o = t.o := by unfold Team.setS; split <;> rfl
@[simp] theorem setS_lat (t : Team) (r : SReg) (x : TW) : (t.setS r x).lat = t.lat := by unfold Team.setS; split <;> rfl
@[simp] theorem setS_q (t : Team) (r : SReg) (x : TW) : (t.setS r x).q = t.q := by unfold Team.setS; split <;> rfl
@[simp] theorem setS_w (t : Team) (r : SReg) (x : TW) : (t.setS r x).w = t.w := by unfold Team.setS; split <;> rfl
@[simp] theorem setS_k (t : Team) (r : SReg) (x : TW) : (t.setS r x).k = t.k := by unfold Team.setS; split <;> rfl
@[simp] theorem setS_m (t : Team) (r : SReg) (x : TW) : (t.setS r x).m = t.m := by unfold Team.setS; split <;> rfl
@[simp] theorem setS_n (t : Team) (r : SReg) (x : TW) : (t.setS r x).n = t.n := by unfold Team.setS; split <;> rfl
@[simp] theorem setS_tab (t : Team) (r : SReg) (x : TW) : (t.setS r x).tab = t.tab := by unfold Team.setS; split <;> rfl
@[simp] theorem setS_p (t : Team) (r : SReg) (x : TW) : (t.setS r x).p = t.p := by unfold Team.setS; split <;> rfl
@[simp] theorem setS_toks (t : Team) (r : SReg) (x : TW) : (t.setS r x).toks = t.toks := by unfold Team.setS; split <;> rfl
@[simp] theorem setS_flags (t : Team) (r : SReg) (x : TW) : (t.setS r x).flags = t.flags := by unfold Team.setS; split <;> rfl
@[simp] theorem setS_cnt (t : Team) (r : SReg) (x : TW) : (t.setS r x).cnt = t.cnt := by unfold Team.setS; split <;> rfl
@[simp] theorem setS_bars (t : Team) (r : SReg) (x : TW) : (t.setS r x).bars = t.bars := by unfold Team.setS; split <;> rfl
@[simp] theorem setS_mbx (t : Team) (r : SReg) (x : TW) : (t.setS r x).mbx = t.mbx := by unfold Team.setS; split <;> rfl
@[simp] theorem setS_vrm (t : Team) (r : SReg) (x : TW) : (t.setS r x).vrm = t.vrm := by unfold Team.setS; split <;> rfl
@[simp] theorem setS_vsat (t : Team) (r : SReg) (x : TW) : (t.setS r x).vsat = t.vsat := by unfold Team.setS; split <;> rfl
@[simp] theorem setS_vshape (t : Team) (r : SReg) (x : TW) : (t.setS r x).vshape = t.vshape :=
  by unfold Team.setS; split <;> rfl
@[simp] theorem setS_vexc (t : Team) (r : SReg) (x : TW) : (t.setS r x).vexc = t.vexc := by unfold Team.setS; split <;> rfl
@[simp] theorem setS_mexc (t : Team) (r : SReg) (x : TW) : (t.setS r x).mexc = t.mexc := by unfold Team.setS; split <;> rfl
@[simp] theorem setS_cexc (t : Team) (r : SReg) (x : TW) : (t.setS r x).cexc = t.cexc := by unfold Team.setS; split <;> rfl
@[simp] theorem setS_stkb (t : Team) (r : SReg) (x : TW) : (t.setS r x).stkb = t.stkb := by unfold Team.setS; split <;> rfl
@[simp] theorem setS_stkl (t : Team) (r : SReg) (x : TW) : (t.setS r x).stkl = t.stkl := by unfold Team.setS; split <;> rfl
@[simp] theorem setS_stkp (t : Team) (r : SReg) (x : TW) : (t.setS r x).stkp = t.stkp := by unfold Team.setS; split <;> rfl
@[simp] theorem setS_dbgctl (t : Team) (r : SReg) (x : TW) : (t.setS r x).dbgctl = t.dbgctl :=
  by unfold Team.setS; split <;> rfl
@[simp] theorem setS_tfb (t : Team) (r : SReg) (x : TW) : (t.setS r x).tfb = t.tfb := by unfold Team.setS; split <;> rfl
@[simp] theorem setS_tcause (t : Team) (r : SReg) (x : TW) : (t.setS r x).tcause = t.tcause :=
  by unfold Team.setS; split <;> rfl
@[simp] theorem setS_tval (t : Team) (r : SReg) (x : TW) : (t.setS r x).tval = t.tval := by unfold Team.setS; split <;> rfl
@[simp] theorem setS_tepc (t : Team) (r : SReg) (x : TW) : (t.setS r x).tepc = t.tepc := by unfold Team.setS; split <;> rfl
@[simp] theorem setS_tstat (t : Team) (r : SReg) (x : TW) : (t.setS r x).tstat = t.tstat := by unfold Team.setS; split <;> rfl
@[simp] theorem setS_tie (t : Team) (r : SReg) (x : TW) : (t.setS r x).tie = t.tie := by unfold Team.setS; split <;> rfl
@[simp] theorem setS_tip (t : Team) (r : SReg) (x : TW) : (t.setS r x).tip = t.tip := by unfold Team.setS; split <;> rfl
@[simp] theorem setS_tscratch (t : Team) (r : SReg) (x : TW) : (t.setS r x).tscratch = t.tscratch :=
  by unfold Team.setS; split <;> rfl
@[simp] theorem setS_timecmp (t : Team) (r : SReg) (x : TW) : (t.setS r x).timecmp = t.timecmp :=
  by unfold Team.setS; split <;> rfl
@[simp] theorem setS_csrTaint (t : Team) (r : SReg) (x : TW) : (t.setS r x).csrTaint = t.csrTaint :=
  by unfold Team.setS; split <;> rfl
@[simp] theorem setS_spad (t : Team) (r : SReg) (x : TW) : (t.setS r x).spad = t.spad := by unfold Team.setS; split <;> rfl
@[simp] theorem setS_spadTaint (t : Team) (r : SReg) (x : TW) : (t.setS r x).spadTaint = t.spadTaint :=
  by unfold Team.setS; split <;> rfl
@[simp] theorem setS_sick (t : Team) (r : SReg) (x : TW) : (t.setS r x).sick = t.sick := by unfold Team.setS; split <;> rfl
@[simp] theorem setS_unseen (t : Team) (r : SReg) (x : TW) : (t.setS r x).unseen = t.unseen :=
  by unfold Team.setS; split <;> rfl
@[simp] theorem setS_told (t : Team) (r : SReg) (x : TW) : (t.setS r x).told = t.told := by unfold Team.setS; split <;> rfl
@[simp] theorem setS_heard (t : Team) (r : SReg) (x : TW) : (t.setS r x).heard = t.heard := by unfold Team.setS; split <;> rfl
@[simp] theorem setS_fresh (t : Team) (r : SReg) (x : TW) : (t.setS r x).fresh = t.fresh := by unfold Team.setS; split <;> rfl
@[simp] theorem setS_touch (t : Team) (r : SReg) (x : TW) : (t.setS r x).touch = t.touch := by unfold Team.setS; split <;> rfl
@[simp] theorem setS_coming (t : Team) (r : SReg) (x : TW) : (t.setS r x).coming = t.coming :=
  by unfold Team.setS; split <;> rfl
@[simp] theorem setS_ways (t : Team) (r : SReg) (x : TW) : (t.setS r x).ways = t.ways := by unfold Team.setS; split <;> rfl
@[simp] theorem setS_bfmt (t : Team) (r : SReg) (x : TW) : (t.setS r x).bfmt = t.bfmt := by unfold Team.setS; split <;> rfl
@[simp] theorem setS_books (t : Team) (r : SReg) (x : TW) : (t.setS r x).books = t.books := by unfold Team.setS; split <;> rfl
@[simp] theorem setS_cache (t : Team) (r : SReg) (x : TW) : (t.setS r x).cache = t.cache := by unfold Team.setS; split <;> rfl
@[simp] theorem setS_acc (t : Team) (r : SReg) (x : TW) : (t.setS r x).acc = t.acc := by unfold Team.setS; split <;> rfl
@[simp] theorem setS_accTaint (t : Team) (r : SReg) (x : TW) : (t.setS r x).accTaint = t.accTaint :=
  by unfold Team.setS; split <;> rfl
@[simp] theorem setS_accSick (t : Team) (r : SReg) (x : TW) : (t.setS r x).accSick = t.accSick :=
  by unfold Team.setS; split <;> rfl
@[simp] theorem setS_found (t : Team) (r : SReg) (x : TW) : (t.setS r x).found = t.found := by unfold Team.setS; split <;> rfl
@[simp] theorem setS_mfmt (t : Team) (r : SReg) (x : TW) : (t.setS r x).mfmt = t.mfmt := by unfold Team.setS; split <;> rfl
@[simp] theorem setS_mringA (t : Team) (r : SReg) (x : TW) : (t.setS r x).mringA = t.mringA :=
  by unfold Team.setS; split <;> rfl
@[simp] theorem setS_mringB (t : Team) (r : SReg) (x : TW) : (t.setS r x).mringB = t.mringB :=
  by unfold Team.setS; split <;> rfl
@[simp] theorem setS_mnest (t : Team) (r : SReg) (x : TW) : (t.setS r x).mnest = t.mnest := by unfold Team.setS; split <;> rfl
@[simp] theorem setS_active (t : Team) (r : SReg) (x : TW) : (t.setS r x).active = t.active :=
  by unfold Team.setS; split <;> rfl
@[simp] theorem setS_rA (t : Team) (r : SReg) (x : TW) : (t.setS r x).rA = t.rA := by unfold Team.setS; split <;> rfl
@[simp] theorem setS_rB (t : Team) (r : SReg) (x : TW) : (t.setS r x).rB = t.rB := by unfold Team.setS; split <;> rfl
@[simp] theorem setS_engine (t : Team) (r : SReg) (x : TW) : (t.setS r x).engine = t.engine :=
  by unfold Team.setS; split <;> rfl
@[simp] theorem setS_engineFree (t : Team) (r : SReg) (x : TW) : (t.setS r x).engineFree = t.engineFree :=
  by unfold Team.setS; split <;> rfl
@[simp] theorem setS_plaitObs (t : Team) (r : SReg) (x : TW) : (t.setS r x).plaitObs = t.plaitObs :=
  by unfold Team.setS; split <;> rfl
@[simp] theorem setS_hidden (t : Team) (r : SReg) (x : TW) : (t.setS r x).hidden = t.hidden :=
  by unfold Team.setS; split <;> rfl
@[simp] theorem setS_inbound (t : Team) (r : SReg) (x : TW) : (t.setS r x).inbound = t.inbound :=
  by unfold Team.setS; split <;> rfl
@[simp] theorem setS_border (t : Team) (r : SReg) (x : TW) : (t.setS r x).border = t.border :=
  by unfold Team.setS; split <;> rfl
@[simp] theorem setS_inbox (t : Team) (r : SReg) (x : TW) : (t.setS r x).inbox = t.inbox := by unfold Team.setS; split <;> rfl
@[simp] theorem setS_plaits (t : Team) (r : SReg) (x : TW) : (t.setS r x).plaits = t.plaits :=
  by unfold Team.setS; split <;> rfl
@[simp] theorem setS_copies (t : Team) (r : SReg) (x : TW) : (t.setS r x).copies = t.copies :=
  by unfold Team.setS; split <;> rfl
@[simp] theorem setS_xferFree (t : Team) (r : SReg) (x : TW) : (t.setS r x).xferFree = t.xferFree :=
  by unfold Team.setS; split <;> rfl
@[simp] theorem setS_advances (t : Team) (r : SReg) (x : TW) : (t.setS r x).advances = t.advances :=
  by unfold Team.setS; split <;> rfl
@[simp] theorem setS_cpx (t : Team) (r : SReg) (x : TW) : (t.setS r x).cpx = t.cpx := by unfold Team.setS; split <;> rfl
@[simp] theorem setS_pend (t : Team) (r : SReg) (x : TW) : (t.setS r x).pend = t.pend := by unfold Team.setS; split <;> rfl
@[simp] theorem setS_waiting (t : Team) (r : SReg) (x : TW) : (t.setS r x).waiting = t.waiting :=
  by unfold Team.setS; split <;> rfl
@[simp] theorem setS_traps (t : Team) (r : SReg) (x : TW) : (t.setS r x).traps = t.traps := by unfold Team.setS; split <;> rfl
@[simp] theorem setS_freezeReq (t : Team) (r : SReg) (x : TW) : (t.setS r x).freezeReq = t.freezeReq :=
  by unfold Team.setS; split <;> rfl
@[simp] theorem setS_lastPulse (t : Team) (r : SReg) (x : TW) : (t.setS r x).lastPulse = t.lastPulse :=
  by unfold Team.setS; split <;> rfl
@[simp] theorem setS_nextId (t : Team) (r : SReg) (x : TW) : (t.setS r x).nextId = t.nextId :=
  by unfold Team.setS; split <;> rfl

/-! ## An a register written -/

@[simp] theorem setA_cid (t : Team) (r : AReg) (x : TW) : (t.setA r x).cid = t.cid := rfl
@[simp] theorem setA_launch (t : Team) (r : AReg) (x : TW) : (t.setA r x).launch = t.launch := rfl
@[simp] theorem setA_job (t : Team) (r : AReg) (x : TW) : (t.setA r x).job = t.job := rfl
@[simp] theorem setA_ord (t : Team) (r : AReg) (x : TW) : (t.setA r x).ord = t.ord := rfl
@[simp] theorem setA_patch (t : Team) (r : AReg) (x : TW) : (t.setA r x).patch = t.patch := rfl
@[simp] theorem setA_pext (t : Team) (r : AReg) (x : TW) : (t.setA r x).pext = t.pext := rfl
@[simp] theorem setA_ndet (t : Team) (r : AReg) (x : TW) : (t.setA r x).ndet = t.ndet := rfl
@[simp] theorem setA_tgroup (t : Team) (r : AReg) (x : TW) : (t.setA r x).tgroup = t.tgroup := rfl
@[simp] theorem setA_banks (t : Team) (r : AReg) (x : TW) : (t.setA r x).banks = t.banks := rfl
@[simp] theorem setA_granules (t : Team) (r : AReg) (x : TW) : (t.setA r x).granules = t.granules := rfl
@[simp] theorem setA_inboxBase (t : Team) (r : AReg) (x : TW) : (t.setA r x).inboxBase = t.inboxBase := rfl
@[simp] theorem setA_tfLen (t : Team) (r : AReg) (x : TW) : (t.setA r x).tfLen = t.tfLen := rfl
@[simp] theorem setA_clk (t : Team) (r : AReg) (x : TW) : (t.setA r x).clk = t.clk := rfl
@[simp] theorem setA_delta (t : Team) (r : AReg) (x : TW) : (t.setA r x).delta = t.delta := rfl
@[simp] theorem setA_frozen (t : Team) (r : AReg) (x : TW) : (t.setA r x).frozen = t.frozen := rfl
@[simp] theorem setA_frozenNs (t : Team) (r : AReg) (x : TW) : (t.setA r x).frozenNs = t.frozenNs := rfl
@[simp] theorem setA_frozenWhy (t : Team) (r : AReg) (x : TW) : (t.setA r x).frozenWhy = t.frozenWhy := rfl
@[simp] theorem setA_svc (t : Team) (r : AReg) (x : TW) : (t.setA r x).svc = t.svc := rfl
@[simp] theorem setA_handler (t : Team) (r : AReg) (x : TW) : (t.setA r x).handler = t.handler := rfl
@[simp] theorem setA_depth (t : Team) (r : AReg) (x : TW) : (t.setA r x).depth = t.depth := rfl
@[simp] theorem setA_svcClk (t : Team) (r : AReg) (x : TW) : (t.setA r x).svcClk = t.svcClk := rfl
@[simp] theorem setA_svcPend (t : Team) (r : AReg) (x : TW) : (t.setA r x).svcPend = t.svcPend := rfl
@[simp] theorem setA_held (t : Team) (r : AReg) (x : TW) : (t.setA r x).held = t.held := rfl
@[simp] theorem setA_parked (t : Team) (r : AReg) (x : TW) : (t.setA r x).parked = t.parked := rfl
@[simp] theorem setA_hoop (t : Team) (r : AReg) (x : TW) : (t.setA r x).hoop = t.hoop := rfl
@[simp] theorem setA_cols (t : Team) (r : AReg) (x : TW) : (t.setA r x).cols = t.cols := rfl
@[simp] theorem setA_s (t : Team) (r : AReg) (x : TW) : (t.setA r x).s = t.s := rfl
@[simp] theorem setA_v (t : Team) (r : AReg) (x : TW) : (t.setA r x).v = t.v := rfl
@[simp] theorem setA_o (t : Team) (r : AReg) (x : TW) : (t.setA r x).o = t.o := rfl
@[simp] theorem setA_lat (t : Team) (r : AReg) (x : TW) : (t.setA r x).lat = t.lat := rfl
@[simp] theorem setA_q (t : Team) (r : AReg) (x : TW) : (t.setA r x).q = t.q := rfl
@[simp] theorem setA_w (t : Team) (r : AReg) (x : TW) : (t.setA r x).w = t.w := rfl
@[simp] theorem setA_k (t : Team) (r : AReg) (x : TW) : (t.setA r x).k = t.k := rfl
@[simp] theorem setA_m (t : Team) (r : AReg) (x : TW) : (t.setA r x).m = t.m := rfl
@[simp] theorem setA_n (t : Team) (r : AReg) (x : TW) : (t.setA r x).n = t.n := rfl
@[simp] theorem setA_tab (t : Team) (r : AReg) (x : TW) : (t.setA r x).tab = t.tab := rfl
@[simp] theorem setA_p (t : Team) (r : AReg) (x : TW) : (t.setA r x).p = t.p := rfl
@[simp] theorem setA_toks (t : Team) (r : AReg) (x : TW) : (t.setA r x).toks = t.toks := rfl
@[simp] theorem setA_flags (t : Team) (r : AReg) (x : TW) : (t.setA r x).flags = t.flags := rfl
@[simp] theorem setA_cnt (t : Team) (r : AReg) (x : TW) : (t.setA r x).cnt = t.cnt := rfl
@[simp] theorem setA_bars (t : Team) (r : AReg) (x : TW) : (t.setA r x).bars = t.bars := rfl
@[simp] theorem setA_mbx (t : Team) (r : AReg) (x : TW) : (t.setA r x).mbx = t.mbx := rfl
@[simp] theorem setA_vrm (t : Team) (r : AReg) (x : TW) : (t.setA r x).vrm = t.vrm := rfl
@[simp] theorem setA_vsat (t : Team) (r : AReg) (x : TW) : (t.setA r x).vsat = t.vsat := rfl
@[simp] theorem setA_vshape (t : Team) (r : AReg) (x : TW) : (t.setA r x).vshape = t.vshape := rfl
@[simp] theorem setA_vexc (t : Team) (r : AReg) (x : TW) : (t.setA r x).vexc = t.vexc := rfl
@[simp] theorem setA_mexc (t : Team) (r : AReg) (x : TW) : (t.setA r x).mexc = t.mexc := rfl
@[simp] theorem setA_cexc (t : Team) (r : AReg) (x : TW) : (t.setA r x).cexc = t.cexc := rfl
@[simp] theorem setA_stkb (t : Team) (r : AReg) (x : TW) : (t.setA r x).stkb = t.stkb := rfl
@[simp] theorem setA_stkl (t : Team) (r : AReg) (x : TW) : (t.setA r x).stkl = t.stkl := rfl
@[simp] theorem setA_stkp (t : Team) (r : AReg) (x : TW) : (t.setA r x).stkp = t.stkp := rfl
@[simp] theorem setA_dbgctl (t : Team) (r : AReg) (x : TW) : (t.setA r x).dbgctl = t.dbgctl := rfl
@[simp] theorem setA_tfb (t : Team) (r : AReg) (x : TW) : (t.setA r x).tfb = t.tfb := rfl
@[simp] theorem setA_tcause (t : Team) (r : AReg) (x : TW) : (t.setA r x).tcause = t.tcause := rfl
@[simp] theorem setA_tval (t : Team) (r : AReg) (x : TW) : (t.setA r x).tval = t.tval := rfl
@[simp] theorem setA_tepc (t : Team) (r : AReg) (x : TW) : (t.setA r x).tepc = t.tepc := rfl
@[simp] theorem setA_tstat (t : Team) (r : AReg) (x : TW) : (t.setA r x).tstat = t.tstat := rfl
@[simp] theorem setA_tie (t : Team) (r : AReg) (x : TW) : (t.setA r x).tie = t.tie := rfl
@[simp] theorem setA_tip (t : Team) (r : AReg) (x : TW) : (t.setA r x).tip = t.tip := rfl
@[simp] theorem setA_tscratch (t : Team) (r : AReg) (x : TW) : (t.setA r x).tscratch = t.tscratch := rfl
@[simp] theorem setA_timecmp (t : Team) (r : AReg) (x : TW) : (t.setA r x).timecmp = t.timecmp := rfl
@[simp] theorem setA_csrTaint (t : Team) (r : AReg) (x : TW) : (t.setA r x).csrTaint = t.csrTaint := rfl
@[simp] theorem setA_spad (t : Team) (r : AReg) (x : TW) : (t.setA r x).spad = t.spad := rfl
@[simp] theorem setA_spadTaint (t : Team) (r : AReg) (x : TW) : (t.setA r x).spadTaint = t.spadTaint := rfl
@[simp] theorem setA_sick (t : Team) (r : AReg) (x : TW) : (t.setA r x).sick = t.sick := rfl
@[simp] theorem setA_unseen (t : Team) (r : AReg) (x : TW) : (t.setA r x).unseen = t.unseen := rfl
@[simp] theorem setA_told (t : Team) (r : AReg) (x : TW) : (t.setA r x).told = t.told := rfl
@[simp] theorem setA_heard (t : Team) (r : AReg) (x : TW) : (t.setA r x).heard = t.heard := rfl
@[simp] theorem setA_fresh (t : Team) (r : AReg) (x : TW) : (t.setA r x).fresh = t.fresh := rfl
@[simp] theorem setA_touch (t : Team) (r : AReg) (x : TW) : (t.setA r x).touch = t.touch := rfl
@[simp] theorem setA_coming (t : Team) (r : AReg) (x : TW) : (t.setA r x).coming = t.coming := rfl
@[simp] theorem setA_ways (t : Team) (r : AReg) (x : TW) : (t.setA r x).ways = t.ways := rfl
@[simp] theorem setA_bfmt (t : Team) (r : AReg) (x : TW) : (t.setA r x).bfmt = t.bfmt := rfl
@[simp] theorem setA_books (t : Team) (r : AReg) (x : TW) : (t.setA r x).books = t.books := rfl
@[simp] theorem setA_cache (t : Team) (r : AReg) (x : TW) : (t.setA r x).cache = t.cache := rfl
@[simp] theorem setA_acc (t : Team) (r : AReg) (x : TW) : (t.setA r x).acc = t.acc := rfl
@[simp] theorem setA_accTaint (t : Team) (r : AReg) (x : TW) : (t.setA r x).accTaint = t.accTaint := rfl
@[simp] theorem setA_accSick (t : Team) (r : AReg) (x : TW) : (t.setA r x).accSick = t.accSick := rfl
@[simp] theorem setA_found (t : Team) (r : AReg) (x : TW) : (t.setA r x).found = t.found := rfl
@[simp] theorem setA_mfmt (t : Team) (r : AReg) (x : TW) : (t.setA r x).mfmt = t.mfmt := rfl
@[simp] theorem setA_mringA (t : Team) (r : AReg) (x : TW) : (t.setA r x).mringA = t.mringA := rfl
@[simp] theorem setA_mringB (t : Team) (r : AReg) (x : TW) : (t.setA r x).mringB = t.mringB := rfl
@[simp] theorem setA_mnest (t : Team) (r : AReg) (x : TW) : (t.setA r x).mnest = t.mnest := rfl
@[simp] theorem setA_active (t : Team) (r : AReg) (x : TW) : (t.setA r x).active = t.active := rfl
@[simp] theorem setA_rA (t : Team) (r : AReg) (x : TW) : (t.setA r x).rA = t.rA := rfl
@[simp] theorem setA_rB (t : Team) (r : AReg) (x : TW) : (t.setA r x).rB = t.rB := rfl
@[simp] theorem setA_engine (t : Team) (r : AReg) (x : TW) : (t.setA r x).engine = t.engine := rfl
@[simp] theorem setA_engineFree (t : Team) (r : AReg) (x : TW) : (t.setA r x).engineFree = t.engineFree := rfl
@[simp] theorem setA_plaitObs (t : Team) (r : AReg) (x : TW) : (t.setA r x).plaitObs = t.plaitObs := rfl
@[simp] theorem setA_hidden (t : Team) (r : AReg) (x : TW) : (t.setA r x).hidden = t.hidden := rfl
@[simp] theorem setA_inbound (t : Team) (r : AReg) (x : TW) : (t.setA r x).inbound = t.inbound := rfl
@[simp] theorem setA_border (t : Team) (r : AReg) (x : TW) : (t.setA r x).border = t.border := rfl
@[simp] theorem setA_inbox (t : Team) (r : AReg) (x : TW) : (t.setA r x).inbox = t.inbox := rfl
@[simp] theorem setA_plaits (t : Team) (r : AReg) (x : TW) : (t.setA r x).plaits = t.plaits := rfl
@[simp] theorem setA_copies (t : Team) (r : AReg) (x : TW) : (t.setA r x).copies = t.copies := rfl
@[simp] theorem setA_xferFree (t : Team) (r : AReg) (x : TW) : (t.setA r x).xferFree = t.xferFree := rfl
@[simp] theorem setA_advances (t : Team) (r : AReg) (x : TW) : (t.setA r x).advances = t.advances := rfl
@[simp] theorem setA_cpx (t : Team) (r : AReg) (x : TW) : (t.setA r x).cpx = t.cpx := rfl
@[simp] theorem setA_pend (t : Team) (r : AReg) (x : TW) : (t.setA r x).pend = t.pend := rfl
@[simp] theorem setA_waiting (t : Team) (r : AReg) (x : TW) : (t.setA r x).waiting = t.waiting := rfl
@[simp] theorem setA_traps (t : Team) (r : AReg) (x : TW) : (t.setA r x).traps = t.traps := rfl
@[simp] theorem setA_freezeReq (t : Team) (r : AReg) (x : TW) : (t.setA r x).freezeReq = t.freezeReq := rfl
@[simp] theorem setA_lastPulse (t : Team) (r : AReg) (x : TW) : (t.setA r x).lastPulse = t.lastPulse := rfl
@[simp] theorem setA_nextId (t : Team) (r : AReg) (x : TW) : (t.setA r x).nextId = t.nextId := rfl

/-! ## A mask register written -/

@[simp] theorem setK_cid (t : Team) (r : BitVec 3) (x : KReg) : (t.setK r x).cid = t.cid := by unfold Team.setK; split <;> rfl
@[simp] theorem setK_launch (t : Team) (r : BitVec 3) (x : KReg) : (t.setK r x).launch = t.launch :=
  by unfold Team.setK; split <;> rfl
@[simp] theorem setK_job (t : Team) (r : BitVec 3) (x : KReg) : (t.setK r x).job = t.job := by unfold Team.setK; split <;> rfl
@[simp] theorem setK_ord (t : Team) (r : BitVec 3) (x : KReg) : (t.setK r x).ord = t.ord := by unfold Team.setK; split <;> rfl
@[simp] theorem setK_patch (t : Team) (r : BitVec 3) (x : KReg) : (t.setK r x).patch = t.patch :=
  by unfold Team.setK; split <;> rfl
@[simp] theorem setK_pext (t : Team) (r : BitVec 3) (x : KReg) : (t.setK r x).pext = t.pext :=
  by unfold Team.setK; split <;> rfl
@[simp] theorem setK_ndet (t : Team) (r : BitVec 3) (x : KReg) : (t.setK r x).ndet = t.ndet :=
  by unfold Team.setK; split <;> rfl
@[simp] theorem setK_tgroup (t : Team) (r : BitVec 3) (x : KReg) : (t.setK r x).tgroup = t.tgroup :=
  by unfold Team.setK; split <;> rfl
@[simp] theorem setK_banks (t : Team) (r : BitVec 3) (x : KReg) : (t.setK r x).banks = t.banks :=
  by unfold Team.setK; split <;> rfl
@[simp] theorem setK_granules (t : Team) (r : BitVec 3) (x : KReg) : (t.setK r x).granules = t.granules :=
  by unfold Team.setK; split <;> rfl
@[simp] theorem setK_inboxBase (t : Team) (r : BitVec 3) (x : KReg) : (t.setK r x).inboxBase = t.inboxBase :=
  by unfold Team.setK; split <;> rfl
@[simp] theorem setK_tfLen (t : Team) (r : BitVec 3) (x : KReg) : (t.setK r x).tfLen = t.tfLen :=
  by unfold Team.setK; split <;> rfl
@[simp] theorem setK_clk (t : Team) (r : BitVec 3) (x : KReg) : (t.setK r x).clk = t.clk := by unfold Team.setK; split <;> rfl
@[simp] theorem setK_delta (t : Team) (r : BitVec 3) (x : KReg) : (t.setK r x).delta = t.delta :=
  by unfold Team.setK; split <;> rfl
@[simp] theorem setK_frozen (t : Team) (r : BitVec 3) (x : KReg) : (t.setK r x).frozen = t.frozen :=
  by unfold Team.setK; split <;> rfl
@[simp] theorem setK_frozenNs (t : Team) (r : BitVec 3) (x : KReg) : (t.setK r x).frozenNs = t.frozenNs :=
  by unfold Team.setK; split <;> rfl
@[simp] theorem setK_frozenWhy (t : Team) (r : BitVec 3) (x : KReg) : (t.setK r x).frozenWhy = t.frozenWhy :=
  by unfold Team.setK; split <;> rfl
@[simp] theorem setK_svc (t : Team) (r : BitVec 3) (x : KReg) : (t.setK r x).svc = t.svc := by unfold Team.setK; split <;> rfl
@[simp] theorem setK_handler (t : Team) (r : BitVec 3) (x : KReg) : (t.setK r x).handler = t.handler :=
  by unfold Team.setK; split <;> rfl
@[simp] theorem setK_depth (t : Team) (r : BitVec 3) (x : KReg) : (t.setK r x).depth = t.depth :=
  by unfold Team.setK; split <;> rfl
@[simp] theorem setK_svcClk (t : Team) (r : BitVec 3) (x : KReg) : (t.setK r x).svcClk = t.svcClk :=
  by unfold Team.setK; split <;> rfl
@[simp] theorem setK_svcPend (t : Team) (r : BitVec 3) (x : KReg) : (t.setK r x).svcPend = t.svcPend :=
  by unfold Team.setK; split <;> rfl
@[simp] theorem setK_held (t : Team) (r : BitVec 3) (x : KReg) : (t.setK r x).held = t.held :=
  by unfold Team.setK; split <;> rfl
@[simp] theorem setK_parked (t : Team) (r : BitVec 3) (x : KReg) : (t.setK r x).parked = t.parked :=
  by unfold Team.setK; split <;> rfl
@[simp] theorem setK_hoop (t : Team) (r : BitVec 3) (x : KReg) : (t.setK r x).hoop = t.hoop :=
  by unfold Team.setK; split <;> rfl
@[simp] theorem setK_cols (t : Team) (r : BitVec 3) (x : KReg) : (t.setK r x).cols = t.cols :=
  by unfold Team.setK; split <;> rfl
@[simp] theorem setK_s (t : Team) (r : BitVec 3) (x : KReg) : (t.setK r x).s = t.s := by unfold Team.setK; split <;> rfl
@[simp] theorem setK_a (t : Team) (r : BitVec 3) (x : KReg) : (t.setK r x).a = t.a := by unfold Team.setK; split <;> rfl
@[simp] theorem setK_v (t : Team) (r : BitVec 3) (x : KReg) : (t.setK r x).v = t.v := by unfold Team.setK; split <;> rfl
@[simp] theorem setK_o (t : Team) (r : BitVec 3) (x : KReg) : (t.setK r x).o = t.o := by unfold Team.setK; split <;> rfl
@[simp] theorem setK_lat (t : Team) (r : BitVec 3) (x : KReg) : (t.setK r x).lat = t.lat := by unfold Team.setK; split <;> rfl
@[simp] theorem setK_q (t : Team) (r : BitVec 3) (x : KReg) : (t.setK r x).q = t.q := by unfold Team.setK; split <;> rfl
@[simp] theorem setK_w (t : Team) (r : BitVec 3) (x : KReg) : (t.setK r x).w = t.w := by unfold Team.setK; split <;> rfl
@[simp] theorem setK_m (t : Team) (r : BitVec 3) (x : KReg) : (t.setK r x).m = t.m := by unfold Team.setK; split <;> rfl
@[simp] theorem setK_n (t : Team) (r : BitVec 3) (x : KReg) : (t.setK r x).n = t.n := by unfold Team.setK; split <;> rfl
@[simp] theorem setK_tab (t : Team) (r : BitVec 3) (x : KReg) : (t.setK r x).tab = t.tab := by unfold Team.setK; split <;> rfl
@[simp] theorem setK_p (t : Team) (r : BitVec 3) (x : KReg) : (t.setK r x).p = t.p := by unfold Team.setK; split <;> rfl
@[simp] theorem setK_toks (t : Team) (r : BitVec 3) (x : KReg) : (t.setK r x).toks = t.toks :=
  by unfold Team.setK; split <;> rfl
@[simp] theorem setK_flags (t : Team) (r : BitVec 3) (x : KReg) : (t.setK r x).flags = t.flags :=
  by unfold Team.setK; split <;> rfl
@[simp] theorem setK_cnt (t : Team) (r : BitVec 3) (x : KReg) : (t.setK r x).cnt = t.cnt := by unfold Team.setK; split <;> rfl
@[simp] theorem setK_bars (t : Team) (r : BitVec 3) (x : KReg) : (t.setK r x).bars = t.bars :=
  by unfold Team.setK; split <;> rfl
@[simp] theorem setK_mbx (t : Team) (r : BitVec 3) (x : KReg) : (t.setK r x).mbx = t.mbx := by unfold Team.setK; split <;> rfl
@[simp] theorem setK_vrm (t : Team) (r : BitVec 3) (x : KReg) : (t.setK r x).vrm = t.vrm := by unfold Team.setK; split <;> rfl
@[simp] theorem setK_vsat (t : Team) (r : BitVec 3) (x : KReg) : (t.setK r x).vsat = t.vsat :=
  by unfold Team.setK; split <;> rfl
@[simp] theorem setK_vshape (t : Team) (r : BitVec 3) (x : KReg) : (t.setK r x).vshape = t.vshape :=
  by unfold Team.setK; split <;> rfl
@[simp] theorem setK_vexc (t : Team) (r : BitVec 3) (x : KReg) : (t.setK r x).vexc = t.vexc :=
  by unfold Team.setK; split <;> rfl
@[simp] theorem setK_mexc (t : Team) (r : BitVec 3) (x : KReg) : (t.setK r x).mexc = t.mexc :=
  by unfold Team.setK; split <;> rfl
@[simp] theorem setK_cexc (t : Team) (r : BitVec 3) (x : KReg) : (t.setK r x).cexc = t.cexc :=
  by unfold Team.setK; split <;> rfl
@[simp] theorem setK_stkb (t : Team) (r : BitVec 3) (x : KReg) : (t.setK r x).stkb = t.stkb :=
  by unfold Team.setK; split <;> rfl
@[simp] theorem setK_stkl (t : Team) (r : BitVec 3) (x : KReg) : (t.setK r x).stkl = t.stkl :=
  by unfold Team.setK; split <;> rfl
@[simp] theorem setK_stkp (t : Team) (r : BitVec 3) (x : KReg) : (t.setK r x).stkp = t.stkp :=
  by unfold Team.setK; split <;> rfl
@[simp] theorem setK_dbgctl (t : Team) (r : BitVec 3) (x : KReg) : (t.setK r x).dbgctl = t.dbgctl :=
  by unfold Team.setK; split <;> rfl
@[simp] theorem setK_tfb (t : Team) (r : BitVec 3) (x : KReg) : (t.setK r x).tfb = t.tfb := by unfold Team.setK; split <;> rfl
@[simp] theorem setK_tcause (t : Team) (r : BitVec 3) (x : KReg) : (t.setK r x).tcause = t.tcause :=
  by unfold Team.setK; split <;> rfl
@[simp] theorem setK_tval (t : Team) (r : BitVec 3) (x : KReg) : (t.setK r x).tval = t.tval :=
  by unfold Team.setK; split <;> rfl
@[simp] theorem setK_tepc (t : Team) (r : BitVec 3) (x : KReg) : (t.setK r x).tepc = t.tepc :=
  by unfold Team.setK; split <;> rfl
@[simp] theorem setK_tstat (t : Team) (r : BitVec 3) (x : KReg) : (t.setK r x).tstat = t.tstat :=
  by unfold Team.setK; split <;> rfl
@[simp] theorem setK_tie (t : Team) (r : BitVec 3) (x : KReg) : (t.setK r x).tie = t.tie := by unfold Team.setK; split <;> rfl
@[simp] theorem setK_tip (t : Team) (r : BitVec 3) (x : KReg) : (t.setK r x).tip = t.tip := by unfold Team.setK; split <;> rfl
@[simp] theorem setK_tscratch (t : Team) (r : BitVec 3) (x : KReg) : (t.setK r x).tscratch = t.tscratch :=
  by unfold Team.setK; split <;> rfl
@[simp] theorem setK_timecmp (t : Team) (r : BitVec 3) (x : KReg) : (t.setK r x).timecmp = t.timecmp :=
  by unfold Team.setK; split <;> rfl
@[simp] theorem setK_csrTaint (t : Team) (r : BitVec 3) (x : KReg) : (t.setK r x).csrTaint = t.csrTaint :=
  by unfold Team.setK; split <;> rfl
@[simp] theorem setK_spad (t : Team) (r : BitVec 3) (x : KReg) : (t.setK r x).spad = t.spad :=
  by unfold Team.setK; split <;> rfl
@[simp] theorem setK_spadTaint (t : Team) (r : BitVec 3) (x : KReg) : (t.setK r x).spadTaint = t.spadTaint :=
  by unfold Team.setK; split <;> rfl
@[simp] theorem setK_sick (t : Team) (r : BitVec 3) (x : KReg) : (t.setK r x).sick = t.sick :=
  by unfold Team.setK; split <;> rfl
@[simp] theorem setK_unseen (t : Team) (r : BitVec 3) (x : KReg) : (t.setK r x).unseen = t.unseen :=
  by unfold Team.setK; split <;> rfl
@[simp] theorem setK_told (t : Team) (r : BitVec 3) (x : KReg) : (t.setK r x).told = t.told :=
  by unfold Team.setK; split <;> rfl
@[simp] theorem setK_heard (t : Team) (r : BitVec 3) (x : KReg) : (t.setK r x).heard = t.heard :=
  by unfold Team.setK; split <;> rfl
@[simp] theorem setK_fresh (t : Team) (r : BitVec 3) (x : KReg) : (t.setK r x).fresh = t.fresh :=
  by unfold Team.setK; split <;> rfl
@[simp] theorem setK_touch (t : Team) (r : BitVec 3) (x : KReg) : (t.setK r x).touch = t.touch :=
  by unfold Team.setK; split <;> rfl
@[simp] theorem setK_coming (t : Team) (r : BitVec 3) (x : KReg) : (t.setK r x).coming = t.coming :=
  by unfold Team.setK; split <;> rfl
@[simp] theorem setK_ways (t : Team) (r : BitVec 3) (x : KReg) : (t.setK r x).ways = t.ways :=
  by unfold Team.setK; split <;> rfl
@[simp] theorem setK_bfmt (t : Team) (r : BitVec 3) (x : KReg) : (t.setK r x).bfmt = t.bfmt :=
  by unfold Team.setK; split <;> rfl
@[simp] theorem setK_books (t : Team) (r : BitVec 3) (x : KReg) : (t.setK r x).books = t.books :=
  by unfold Team.setK; split <;> rfl
@[simp] theorem setK_cache (t : Team) (r : BitVec 3) (x : KReg) : (t.setK r x).cache = t.cache :=
  by unfold Team.setK; split <;> rfl
@[simp] theorem setK_acc (t : Team) (r : BitVec 3) (x : KReg) : (t.setK r x).acc = t.acc := by unfold Team.setK; split <;> rfl
@[simp] theorem setK_accTaint (t : Team) (r : BitVec 3) (x : KReg) : (t.setK r x).accTaint = t.accTaint :=
  by unfold Team.setK; split <;> rfl
@[simp] theorem setK_accSick (t : Team) (r : BitVec 3) (x : KReg) : (t.setK r x).accSick = t.accSick :=
  by unfold Team.setK; split <;> rfl
@[simp] theorem setK_found (t : Team) (r : BitVec 3) (x : KReg) : (t.setK r x).found = t.found :=
  by unfold Team.setK; split <;> rfl
@[simp] theorem setK_mfmt (t : Team) (r : BitVec 3) (x : KReg) : (t.setK r x).mfmt = t.mfmt :=
  by unfold Team.setK; split <;> rfl
@[simp] theorem setK_mringA (t : Team) (r : BitVec 3) (x : KReg) : (t.setK r x).mringA = t.mringA :=
  by unfold Team.setK; split <;> rfl
@[simp] theorem setK_mringB (t : Team) (r : BitVec 3) (x : KReg) : (t.setK r x).mringB = t.mringB :=
  by unfold Team.setK; split <;> rfl
@[simp] theorem setK_mnest (t : Team) (r : BitVec 3) (x : KReg) : (t.setK r x).mnest = t.mnest :=
  by unfold Team.setK; split <;> rfl
@[simp] theorem setK_active (t : Team) (r : BitVec 3) (x : KReg) : (t.setK r x).active = t.active :=
  by unfold Team.setK; split <;> rfl
@[simp] theorem setK_rA (t : Team) (r : BitVec 3) (x : KReg) : (t.setK r x).rA = t.rA := by unfold Team.setK; split <;> rfl
@[simp] theorem setK_rB (t : Team) (r : BitVec 3) (x : KReg) : (t.setK r x).rB = t.rB := by unfold Team.setK; split <;> rfl
@[simp] theorem setK_engine (t : Team) (r : BitVec 3) (x : KReg) : (t.setK r x).engine = t.engine :=
  by unfold Team.setK; split <;> rfl
@[simp] theorem setK_engineFree (t : Team) (r : BitVec 3) (x : KReg) : (t.setK r x).engineFree = t.engineFree :=
  by unfold Team.setK; split <;> rfl
@[simp] theorem setK_plaitObs (t : Team) (r : BitVec 3) (x : KReg) : (t.setK r x).plaitObs = t.plaitObs :=
  by unfold Team.setK; split <;> rfl
@[simp] theorem setK_hidden (t : Team) (r : BitVec 3) (x : KReg) : (t.setK r x).hidden = t.hidden :=
  by unfold Team.setK; split <;> rfl
@[simp] theorem setK_inbound (t : Team) (r : BitVec 3) (x : KReg) : (t.setK r x).inbound = t.inbound :=
  by unfold Team.setK; split <;> rfl
@[simp] theorem setK_border (t : Team) (r : BitVec 3) (x : KReg) : (t.setK r x).border = t.border :=
  by unfold Team.setK; split <;> rfl
@[simp] theorem setK_inbox (t : Team) (r : BitVec 3) (x : KReg) : (t.setK r x).inbox = t.inbox :=
  by unfold Team.setK; split <;> rfl
@[simp] theorem setK_plaits (t : Team) (r : BitVec 3) (x : KReg) : (t.setK r x).plaits = t.plaits :=
  by unfold Team.setK; split <;> rfl
@[simp] theorem setK_copies (t : Team) (r : BitVec 3) (x : KReg) : (t.setK r x).copies = t.copies :=
  by unfold Team.setK; split <;> rfl
@[simp] theorem setK_xferFree (t : Team) (r : BitVec 3) (x : KReg) : (t.setK r x).xferFree = t.xferFree :=
  by unfold Team.setK; split <;> rfl
@[simp] theorem setK_advances (t : Team) (r : BitVec 3) (x : KReg) : (t.setK r x).advances = t.advances :=
  by unfold Team.setK; split <;> rfl
@[simp] theorem setK_cpx (t : Team) (r : BitVec 3) (x : KReg) : (t.setK r x).cpx = t.cpx := by unfold Team.setK; split <;> rfl
@[simp] theorem setK_pend (t : Team) (r : BitVec 3) (x : KReg) : (t.setK r x).pend = t.pend :=
  by unfold Team.setK; split <;> rfl
@[simp] theorem setK_waiting (t : Team) (r : BitVec 3) (x : KReg) : (t.setK r x).waiting = t.waiting :=
  by unfold Team.setK; split <;> rfl
@[simp] theorem setK_traps (t : Team) (r : BitVec 3) (x : KReg) : (t.setK r x).traps = t.traps :=
  by unfold Team.setK; split <;> rfl
@[simp] theorem setK_freezeReq (t : Team) (r : BitVec 3) (x : KReg) : (t.setK r x).freezeReq = t.freezeReq :=
  by unfold Team.setK; split <;> rfl
@[simp] theorem setK_lastPulse (t : Team) (r : BitVec 3) (x : KReg) : (t.setK r x).lastPulse = t.lastPulse :=
  by unfold Team.setK; split <;> rfl
@[simp] theorem setK_nextId (t : Team) (r : BitVec 3) (x : KReg) : (t.setK r x).nextId = t.nextId :=
  by unfold Team.setK; split <;> rfl

/-! ## A column that stalls -/

@[simp] theorem hold_cid (t : Team) (cx : Cur) : (t.hold cx).cid = t.cid := rfl
@[simp] theorem hold_launch (t : Team) (cx : Cur) : (t.hold cx).launch = t.launch := rfl
@[simp] theorem hold_job (t : Team) (cx : Cur) : (t.hold cx).job = t.job := rfl
@[simp] theorem hold_ord (t : Team) (cx : Cur) : (t.hold cx).ord = t.ord := rfl
@[simp] theorem hold_patch (t : Team) (cx : Cur) : (t.hold cx).patch = t.patch := rfl
@[simp] theorem hold_pext (t : Team) (cx : Cur) : (t.hold cx).pext = t.pext := rfl
@[simp] theorem hold_ndet (t : Team) (cx : Cur) : (t.hold cx).ndet = t.ndet := rfl
@[simp] theorem hold_tgroup (t : Team) (cx : Cur) : (t.hold cx).tgroup = t.tgroup := rfl
@[simp] theorem hold_banks (t : Team) (cx : Cur) : (t.hold cx).banks = t.banks := rfl
@[simp] theorem hold_granules (t : Team) (cx : Cur) : (t.hold cx).granules = t.granules := rfl
@[simp] theorem hold_inboxBase (t : Team) (cx : Cur) : (t.hold cx).inboxBase = t.inboxBase := rfl
@[simp] theorem hold_tfLen (t : Team) (cx : Cur) : (t.hold cx).tfLen = t.tfLen := rfl
@[simp] theorem hold_clk (t : Team) (cx : Cur) : (t.hold cx).clk = t.clk := rfl
@[simp] theorem hold_delta (t : Team) (cx : Cur) : (t.hold cx).delta = t.delta := rfl
@[simp] theorem hold_frozen (t : Team) (cx : Cur) : (t.hold cx).frozen = t.frozen := rfl
@[simp] theorem hold_frozenNs (t : Team) (cx : Cur) : (t.hold cx).frozenNs = t.frozenNs := rfl
@[simp] theorem hold_frozenWhy (t : Team) (cx : Cur) : (t.hold cx).frozenWhy = t.frozenWhy := rfl
@[simp] theorem hold_svc (t : Team) (cx : Cur) : (t.hold cx).svc = t.svc := rfl
@[simp] theorem hold_handler (t : Team) (cx : Cur) : (t.hold cx).handler = t.handler := rfl
@[simp] theorem hold_depth (t : Team) (cx : Cur) : (t.hold cx).depth = t.depth := rfl
@[simp] theorem hold_svcClk (t : Team) (cx : Cur) : (t.hold cx).svcClk = t.svcClk := rfl
@[simp] theorem hold_svcPend (t : Team) (cx : Cur) : (t.hold cx).svcPend = t.svcPend := rfl
@[simp] theorem hold_held (t : Team) (cx : Cur) : (t.hold cx).held = t.held := rfl
@[simp] theorem hold_parked (t : Team) (cx : Cur) : (t.hold cx).parked = t.parked := rfl
@[simp] theorem hold_hoop (t : Team) (cx : Cur) : (t.hold cx).hoop = t.hoop := rfl
@[simp] theorem hold_s (t : Team) (cx : Cur) : (t.hold cx).s = t.s := rfl
@[simp] theorem hold_a (t : Team) (cx : Cur) : (t.hold cx).a = t.a := rfl
@[simp] theorem hold_v (t : Team) (cx : Cur) : (t.hold cx).v = t.v := rfl
@[simp] theorem hold_o (t : Team) (cx : Cur) : (t.hold cx).o = t.o := rfl
@[simp] theorem hold_lat (t : Team) (cx : Cur) : (t.hold cx).lat = t.lat := rfl
@[simp] theorem hold_q (t : Team) (cx : Cur) : (t.hold cx).q = t.q := rfl
@[simp] theorem hold_w (t : Team) (cx : Cur) : (t.hold cx).w = t.w := rfl
@[simp] theorem hold_k (t : Team) (cx : Cur) : (t.hold cx).k = t.k := rfl
@[simp] theorem hold_m (t : Team) (cx : Cur) : (t.hold cx).m = t.m := rfl
@[simp] theorem hold_n (t : Team) (cx : Cur) : (t.hold cx).n = t.n := rfl
@[simp] theorem hold_tab (t : Team) (cx : Cur) : (t.hold cx).tab = t.tab := rfl
@[simp] theorem hold_p (t : Team) (cx : Cur) : (t.hold cx).p = t.p := rfl
@[simp] theorem hold_toks (t : Team) (cx : Cur) : (t.hold cx).toks = t.toks := rfl
@[simp] theorem hold_flags (t : Team) (cx : Cur) : (t.hold cx).flags = t.flags := rfl
@[simp] theorem hold_cnt (t : Team) (cx : Cur) : (t.hold cx).cnt = t.cnt := rfl
@[simp] theorem hold_bars (t : Team) (cx : Cur) : (t.hold cx).bars = t.bars := rfl
@[simp] theorem hold_mbx (t : Team) (cx : Cur) : (t.hold cx).mbx = t.mbx := rfl
@[simp] theorem hold_vrm (t : Team) (cx : Cur) : (t.hold cx).vrm = t.vrm := rfl
@[simp] theorem hold_vsat (t : Team) (cx : Cur) : (t.hold cx).vsat = t.vsat := rfl
@[simp] theorem hold_vshape (t : Team) (cx : Cur) : (t.hold cx).vshape = t.vshape := rfl
@[simp] theorem hold_vexc (t : Team) (cx : Cur) : (t.hold cx).vexc = t.vexc := rfl
@[simp] theorem hold_mexc (t : Team) (cx : Cur) : (t.hold cx).mexc = t.mexc := rfl
@[simp] theorem hold_cexc (t : Team) (cx : Cur) : (t.hold cx).cexc = t.cexc := rfl
@[simp] theorem hold_stkb (t : Team) (cx : Cur) : (t.hold cx).stkb = t.stkb := rfl
@[simp] theorem hold_stkl (t : Team) (cx : Cur) : (t.hold cx).stkl = t.stkl := rfl
@[simp] theorem hold_stkp (t : Team) (cx : Cur) : (t.hold cx).stkp = t.stkp := rfl
@[simp] theorem hold_dbgctl (t : Team) (cx : Cur) : (t.hold cx).dbgctl = t.dbgctl := rfl
@[simp] theorem hold_tfb (t : Team) (cx : Cur) : (t.hold cx).tfb = t.tfb := rfl
@[simp] theorem hold_tcause (t : Team) (cx : Cur) : (t.hold cx).tcause = t.tcause := rfl
@[simp] theorem hold_tval (t : Team) (cx : Cur) : (t.hold cx).tval = t.tval := rfl
@[simp] theorem hold_tepc (t : Team) (cx : Cur) : (t.hold cx).tepc = t.tepc := rfl
@[simp] theorem hold_tstat (t : Team) (cx : Cur) : (t.hold cx).tstat = t.tstat := rfl
@[simp] theorem hold_tie (t : Team) (cx : Cur) : (t.hold cx).tie = t.tie := rfl
@[simp] theorem hold_tip (t : Team) (cx : Cur) : (t.hold cx).tip = t.tip := rfl
@[simp] theorem hold_tscratch (t : Team) (cx : Cur) : (t.hold cx).tscratch = t.tscratch := rfl
@[simp] theorem hold_timecmp (t : Team) (cx : Cur) : (t.hold cx).timecmp = t.timecmp := rfl
@[simp] theorem hold_csrTaint (t : Team) (cx : Cur) : (t.hold cx).csrTaint = t.csrTaint := rfl
@[simp] theorem hold_spad (t : Team) (cx : Cur) : (t.hold cx).spad = t.spad := rfl
@[simp] theorem hold_spadTaint (t : Team) (cx : Cur) : (t.hold cx).spadTaint = t.spadTaint := rfl
@[simp] theorem hold_sick (t : Team) (cx : Cur) : (t.hold cx).sick = t.sick := rfl
@[simp] theorem hold_unseen (t : Team) (cx : Cur) : (t.hold cx).unseen = t.unseen := rfl
@[simp] theorem hold_told (t : Team) (cx : Cur) : (t.hold cx).told = t.told := rfl
@[simp] theorem hold_heard (t : Team) (cx : Cur) : (t.hold cx).heard = t.heard := rfl
@[simp] theorem hold_fresh (t : Team) (cx : Cur) : (t.hold cx).fresh = t.fresh := rfl
@[simp] theorem hold_touch (t : Team) (cx : Cur) : (t.hold cx).touch = t.touch := rfl
@[simp] theorem hold_coming (t : Team) (cx : Cur) : (t.hold cx).coming = t.coming := rfl
@[simp] theorem hold_ways (t : Team) (cx : Cur) : (t.hold cx).ways = t.ways := rfl
@[simp] theorem hold_bfmt (t : Team) (cx : Cur) : (t.hold cx).bfmt = t.bfmt := rfl
@[simp] theorem hold_books (t : Team) (cx : Cur) : (t.hold cx).books = t.books := rfl
@[simp] theorem hold_cache (t : Team) (cx : Cur) : (t.hold cx).cache = t.cache := rfl
@[simp] theorem hold_acc (t : Team) (cx : Cur) : (t.hold cx).acc = t.acc := rfl
@[simp] theorem hold_accTaint (t : Team) (cx : Cur) : (t.hold cx).accTaint = t.accTaint := rfl
@[simp] theorem hold_accSick (t : Team) (cx : Cur) : (t.hold cx).accSick = t.accSick := rfl
@[simp] theorem hold_found (t : Team) (cx : Cur) : (t.hold cx).found = t.found := rfl
@[simp] theorem hold_mfmt (t : Team) (cx : Cur) : (t.hold cx).mfmt = t.mfmt := rfl
@[simp] theorem hold_mringA (t : Team) (cx : Cur) : (t.hold cx).mringA = t.mringA := rfl
@[simp] theorem hold_mringB (t : Team) (cx : Cur) : (t.hold cx).mringB = t.mringB := rfl
@[simp] theorem hold_mnest (t : Team) (cx : Cur) : (t.hold cx).mnest = t.mnest := rfl
@[simp] theorem hold_active (t : Team) (cx : Cur) : (t.hold cx).active = t.active := rfl
@[simp] theorem hold_rA (t : Team) (cx : Cur) : (t.hold cx).rA = t.rA := rfl
@[simp] theorem hold_rB (t : Team) (cx : Cur) : (t.hold cx).rB = t.rB := rfl
@[simp] theorem hold_engine (t : Team) (cx : Cur) : (t.hold cx).engine = t.engine := rfl
@[simp] theorem hold_engineFree (t : Team) (cx : Cur) : (t.hold cx).engineFree = t.engineFree := rfl
@[simp] theorem hold_plaitObs (t : Team) (cx : Cur) : (t.hold cx).plaitObs = t.plaitObs := rfl
@[simp] theorem hold_hidden (t : Team) (cx : Cur) : (t.hold cx).hidden = t.hidden := rfl
@[simp] theorem hold_inbound (t : Team) (cx : Cur) : (t.hold cx).inbound = t.inbound := rfl
@[simp] theorem hold_border (t : Team) (cx : Cur) : (t.hold cx).border = t.border := rfl
@[simp] theorem hold_inbox (t : Team) (cx : Cur) : (t.hold cx).inbox = t.inbox := rfl
@[simp] theorem hold_plaits (t : Team) (cx : Cur) : (t.hold cx).plaits = t.plaits := rfl
@[simp] theorem hold_copies (t : Team) (cx : Cur) : (t.hold cx).copies = t.copies := rfl
@[simp] theorem hold_xferFree (t : Team) (cx : Cur) : (t.hold cx).xferFree = t.xferFree := rfl
@[simp] theorem hold_advances (t : Team) (cx : Cur) : (t.hold cx).advances = t.advances := rfl
@[simp] theorem hold_cpx (t : Team) (cx : Cur) : (t.hold cx).cpx = t.cpx := rfl
@[simp] theorem hold_pend (t : Team) (cx : Cur) : (t.hold cx).pend = t.pend := rfl
@[simp] theorem hold_waiting (t : Team) (cx : Cur) : (t.hold cx).waiting = t.waiting := rfl
@[simp] theorem hold_traps (t : Team) (cx : Cur) : (t.hold cx).traps = t.traps := rfl
@[simp] theorem hold_freezeReq (t : Team) (cx : Cur) : (t.hold cx).freezeReq = t.freezeReq := rfl
@[simp] theorem hold_lastPulse (t : Team) (cx : Cur) : (t.hold cx).lastPulse = t.lastPulse := rfl
@[simp] theorem hold_nextId (t : Team) (cx : Cur) : (t.hold cx).nextId = t.nextId := rfl

/-! ## The team past a word -/

@[simp] theorem commit_cid (t : Team) (cx : Cur) (n : Nat) : (t.commit cx n).cid = t.cid :=
  by unfold Team.commit Team.hears; simp only [modCol_cid]; cases waitAcquires cx.wait <;> simp <;> split <;> simp
@[simp] theorem commit_launch (t : Team) (cx : Cur) (n : Nat) : (t.commit cx n).launch = t.launch :=
  by unfold Team.commit Team.hears; simp only [modCol_launch]; cases waitAcquires cx.wait <;> simp <;> split <;> simp
@[simp] theorem commit_job (t : Team) (cx : Cur) (n : Nat) : (t.commit cx n).job = t.job :=
  by unfold Team.commit Team.hears; simp only [modCol_job]; cases waitAcquires cx.wait <;> simp <;> split <;> simp
@[simp] theorem commit_ord (t : Team) (cx : Cur) (n : Nat) : (t.commit cx n).ord = t.ord :=
  by unfold Team.commit Team.hears; simp only [modCol_ord]; cases waitAcquires cx.wait <;> simp <;> split <;> simp
@[simp] theorem commit_patch (t : Team) (cx : Cur) (n : Nat) : (t.commit cx n).patch = t.patch :=
  by unfold Team.commit Team.hears; simp only [modCol_patch]; cases waitAcquires cx.wait <;> simp <;> split <;> simp
@[simp] theorem commit_pext (t : Team) (cx : Cur) (n : Nat) : (t.commit cx n).pext = t.pext :=
  by unfold Team.commit Team.hears; simp only [modCol_pext]; cases waitAcquires cx.wait <;> simp <;> split <;> simp
@[simp] theorem commit_ndet (t : Team) (cx : Cur) (n : Nat) : (t.commit cx n).ndet = t.ndet :=
  by unfold Team.commit Team.hears; simp only [modCol_ndet]; cases waitAcquires cx.wait <;> simp <;> split <;> simp
@[simp] theorem commit_tgroup (t : Team) (cx : Cur) (n : Nat) : (t.commit cx n).tgroup = t.tgroup :=
  by unfold Team.commit Team.hears; simp only [modCol_tgroup]; cases waitAcquires cx.wait <;> simp <;> split <;> simp
@[simp] theorem commit_banks (t : Team) (cx : Cur) (n : Nat) : (t.commit cx n).banks = t.banks :=
  by unfold Team.commit Team.hears; simp only [modCol_banks]; cases waitAcquires cx.wait <;> simp <;> split <;> simp
@[simp] theorem commit_granules (t : Team) (cx : Cur) (n : Nat) : (t.commit cx n).granules = t.granules :=
  by unfold Team.commit Team.hears; simp only [modCol_granules]; cases waitAcquires cx.wait <;> simp <;> split <;> simp
@[simp] theorem commit_inboxBase (t : Team) (cx : Cur) (n : Nat) : (t.commit cx n).inboxBase = t.inboxBase :=
  by unfold Team.commit Team.hears; simp only [modCol_inboxBase]; cases waitAcquires cx.wait <;> simp <;> split <;> simp
@[simp] theorem commit_tfLen (t : Team) (cx : Cur) (n : Nat) : (t.commit cx n).tfLen = t.tfLen :=
  by unfold Team.commit Team.hears; simp only [modCol_tfLen]; cases waitAcquires cx.wait <;> simp <;> split <;> simp
@[simp] theorem commit_clk (t : Team) (cx : Cur) (n : Nat) : (t.commit cx n).clk = t.clk :=
  by unfold Team.commit Team.hears; simp only [modCol_clk]; cases waitAcquires cx.wait <;> simp <;> split <;> simp
@[simp] theorem commit_delta (t : Team) (cx : Cur) (n : Nat) : (t.commit cx n).delta = t.delta :=
  by unfold Team.commit Team.hears; simp only [modCol_delta]; cases waitAcquires cx.wait <;> simp <;> split <;> simp
@[simp] theorem commit_frozen (t : Team) (cx : Cur) (n : Nat) : (t.commit cx n).frozen = t.frozen :=
  by unfold Team.commit Team.hears; simp only [modCol_frozen]; cases waitAcquires cx.wait <;> simp <;> split <;> simp
@[simp] theorem commit_frozenNs (t : Team) (cx : Cur) (n : Nat) : (t.commit cx n).frozenNs = t.frozenNs :=
  by unfold Team.commit Team.hears; simp only [modCol_frozenNs]; cases waitAcquires cx.wait <;> simp <;> split <;> simp
@[simp] theorem commit_frozenWhy (t : Team) (cx : Cur) (n : Nat) : (t.commit cx n).frozenWhy = t.frozenWhy :=
  by unfold Team.commit Team.hears; simp only [modCol_frozenWhy]; cases waitAcquires cx.wait <;> simp <;> split <;> simp
@[simp] theorem commit_svc (t : Team) (cx : Cur) (n : Nat) : (t.commit cx n).svc = t.svc :=
  by unfold Team.commit Team.hears; simp only [modCol_svc]; cases waitAcquires cx.wait <;> simp <;> split <;> simp
@[simp] theorem commit_handler (t : Team) (cx : Cur) (n : Nat) : (t.commit cx n).handler = t.handler :=
  by unfold Team.commit Team.hears; simp only [modCol_handler]; cases waitAcquires cx.wait <;> simp <;> split <;> simp
@[simp] theorem commit_depth (t : Team) (cx : Cur) (n : Nat) : (t.commit cx n).depth = t.depth :=
  by unfold Team.commit Team.hears; simp only [modCol_depth]; cases waitAcquires cx.wait <;> simp <;> split <;> simp
@[simp] theorem commit_svcClk (t : Team) (cx : Cur) (n : Nat) : (t.commit cx n).svcClk = t.svcClk :=
  by unfold Team.commit Team.hears; simp only [modCol_svcClk]; cases waitAcquires cx.wait <;> simp <;> split <;> simp
@[simp] theorem commit_svcPend (t : Team) (cx : Cur) (n : Nat) : (t.commit cx n).svcPend = t.svcPend :=
  by unfold Team.commit Team.hears; simp only [modCol_svcPend]; cases waitAcquires cx.wait <;> simp <;> split <;> simp
@[simp] theorem commit_held (t : Team) (cx : Cur) (n : Nat) : (t.commit cx n).held = t.held :=
  by unfold Team.commit Team.hears; simp only [modCol_held]; cases waitAcquires cx.wait <;> simp <;> split <;> simp
@[simp] theorem commit_parked (t : Team) (cx : Cur) (n : Nat) : (t.commit cx n).parked = t.parked :=
  by unfold Team.commit Team.hears; simp only [modCol_parked]; cases waitAcquires cx.wait <;> simp <;> split <;> simp
@[simp] theorem commit_hoop (t : Team) (cx : Cur) (n : Nat) : (t.commit cx n).hoop = t.hoop :=
  by unfold Team.commit Team.hears; simp only [modCol_hoop]; cases waitAcquires cx.wait <;> simp <;> split <;> simp
@[simp] theorem commit_s (t : Team) (cx : Cur) (n : Nat) : (t.commit cx n).s = t.s :=
  by unfold Team.commit Team.hears; simp only [modCol_s]; cases waitAcquires cx.wait <;> simp <;> split <;> simp
@[simp] theorem commit_a (t : Team) (cx : Cur) (n : Nat) : (t.commit cx n).a = t.a :=
  by unfold Team.commit Team.hears; simp only [modCol_a]; cases waitAcquires cx.wait <;> simp <;> split <;> simp
@[simp] theorem commit_v (t : Team) (cx : Cur) (n : Nat) : (t.commit cx n).v = t.v :=
  by unfold Team.commit Team.hears; simp only [modCol_v]; cases waitAcquires cx.wait <;> simp <;> split <;> simp
@[simp] theorem commit_o (t : Team) (cx : Cur) (n : Nat) : (t.commit cx n).o = t.o :=
  by unfold Team.commit Team.hears; simp only [modCol_o]; cases waitAcquires cx.wait <;> simp <;> split <;> simp
@[simp] theorem commit_lat (t : Team) (cx : Cur) (n : Nat) : (t.commit cx n).lat = t.lat :=
  by unfold Team.commit Team.hears; simp only [modCol_lat]; cases waitAcquires cx.wait <;> simp <;> split <;> simp
@[simp] theorem commit_q (t : Team) (cx : Cur) (n : Nat) : (t.commit cx n).q = t.q :=
  by unfold Team.commit Team.hears; simp only [modCol_q]; cases waitAcquires cx.wait <;> simp <;> split <;> simp
@[simp] theorem commit_w (t : Team) (cx : Cur) (n : Nat) : (t.commit cx n).w = t.w :=
  by unfold Team.commit Team.hears; simp only [modCol_w]; cases waitAcquires cx.wait <;> simp <;> split <;> simp
@[simp] theorem commit_k (t : Team) (cx : Cur) (n : Nat) : (t.commit cx n).k = t.k :=
  by unfold Team.commit Team.hears; simp only [modCol_k]; cases waitAcquires cx.wait <;> simp <;> split <;> simp
@[simp] theorem commit_m (t : Team) (cx : Cur) (n : Nat) : (t.commit cx n).m = t.m :=
  by unfold Team.commit Team.hears; simp only [modCol_m]; cases waitAcquires cx.wait <;> simp <;> split <;> simp
@[simp] theorem commit_n (t : Team) (cx : Cur) (n : Nat) : (t.commit cx n).n = t.n :=
  by unfold Team.commit Team.hears; simp only [modCol_n]; cases waitAcquires cx.wait <;> simp <;> split <;> simp
@[simp] theorem commit_tab (t : Team) (cx : Cur) (n : Nat) : (t.commit cx n).tab = t.tab :=
  by unfold Team.commit Team.hears; simp only [modCol_tab]; cases waitAcquires cx.wait <;> simp <;> split <;> simp
@[simp] theorem commit_p (t : Team) (cx : Cur) (n : Nat) : (t.commit cx n).p = t.p :=
  by unfold Team.commit Team.hears; simp only [modCol_p]; cases waitAcquires cx.wait <;> simp <;> split <;> simp
@[simp] theorem commit_flags (t : Team) (cx : Cur) (n : Nat) : (t.commit cx n).flags = t.flags :=
  by unfold Team.commit Team.hears; simp only [modCol_flags]; cases waitAcquires cx.wait <;> simp <;> split <;> simp
@[simp] theorem commit_cnt (t : Team) (cx : Cur) (n : Nat) : (t.commit cx n).cnt = t.cnt :=
  by unfold Team.commit Team.hears; simp only [modCol_cnt]; cases waitAcquires cx.wait <;> simp <;> split <;> simp
@[simp] theorem commit_bars (t : Team) (cx : Cur) (n : Nat) : (t.commit cx n).bars = t.bars :=
  by unfold Team.commit Team.hears; simp only [modCol_bars]; cases waitAcquires cx.wait <;> simp <;> split <;> simp
@[simp] theorem commit_mbx (t : Team) (cx : Cur) (n : Nat) : (t.commit cx n).mbx = t.mbx :=
  by unfold Team.commit Team.hears; simp only [modCol_mbx]; cases waitAcquires cx.wait <;> simp <;> split <;> simp
@[simp] theorem commit_vrm (t : Team) (cx : Cur) (n : Nat) : (t.commit cx n).vrm = t.vrm :=
  by unfold Team.commit Team.hears; simp only [modCol_vrm]; cases waitAcquires cx.wait <;> simp <;> split <;> simp
@[simp] theorem commit_vsat (t : Team) (cx : Cur) (n : Nat) : (t.commit cx n).vsat = t.vsat :=
  by unfold Team.commit Team.hears; simp only [modCol_vsat]; cases waitAcquires cx.wait <;> simp <;> split <;> simp
@[simp] theorem commit_vshape (t : Team) (cx : Cur) (n : Nat) : (t.commit cx n).vshape = t.vshape :=
  by unfold Team.commit Team.hears; simp only [modCol_vshape]; cases waitAcquires cx.wait <;> simp <;> split <;> simp
@[simp] theorem commit_vexc (t : Team) (cx : Cur) (n : Nat) : (t.commit cx n).vexc = t.vexc :=
  by unfold Team.commit Team.hears; simp only [modCol_vexc]; cases waitAcquires cx.wait <;> simp <;> split <;> simp
@[simp] theorem commit_mexc (t : Team) (cx : Cur) (n : Nat) : (t.commit cx n).mexc = t.mexc :=
  by unfold Team.commit Team.hears; simp only [modCol_mexc]; cases waitAcquires cx.wait <;> simp <;> split <;> simp
@[simp] theorem commit_cexc (t : Team) (cx : Cur) (n : Nat) : (t.commit cx n).cexc = t.cexc :=
  by unfold Team.commit Team.hears; simp only [modCol_cexc]; cases waitAcquires cx.wait <;> simp <;> split <;> simp
@[simp] theorem commit_stkb (t : Team) (cx : Cur) (n : Nat) : (t.commit cx n).stkb = t.stkb :=
  by unfold Team.commit Team.hears; simp only [modCol_stkb]; cases waitAcquires cx.wait <;> simp <;> split <;> simp
@[simp] theorem commit_stkl (t : Team) (cx : Cur) (n : Nat) : (t.commit cx n).stkl = t.stkl :=
  by unfold Team.commit Team.hears; simp only [modCol_stkl]; cases waitAcquires cx.wait <;> simp <;> split <;> simp
@[simp] theorem commit_stkp (t : Team) (cx : Cur) (n : Nat) : (t.commit cx n).stkp = t.stkp :=
  by unfold Team.commit Team.hears; simp only [modCol_stkp]; cases waitAcquires cx.wait <;> simp <;> split <;> simp
@[simp] theorem commit_dbgctl (t : Team) (cx : Cur) (n : Nat) : (t.commit cx n).dbgctl = t.dbgctl :=
  by unfold Team.commit Team.hears; simp only [modCol_dbgctl]; cases waitAcquires cx.wait <;> simp <;> split <;> simp
@[simp] theorem commit_tfb (t : Team) (cx : Cur) (n : Nat) : (t.commit cx n).tfb = t.tfb :=
  by unfold Team.commit Team.hears; simp only [modCol_tfb]; cases waitAcquires cx.wait <;> simp <;> split <;> simp
@[simp] theorem commit_tcause (t : Team) (cx : Cur) (n : Nat) : (t.commit cx n).tcause = t.tcause :=
  by unfold Team.commit Team.hears; simp only [modCol_tcause]; cases waitAcquires cx.wait <;> simp <;> split <;> simp
@[simp] theorem commit_tval (t : Team) (cx : Cur) (n : Nat) : (t.commit cx n).tval = t.tval :=
  by unfold Team.commit Team.hears; simp only [modCol_tval]; cases waitAcquires cx.wait <;> simp <;> split <;> simp
@[simp] theorem commit_tepc (t : Team) (cx : Cur) (n : Nat) : (t.commit cx n).tepc = t.tepc :=
  by unfold Team.commit Team.hears; simp only [modCol_tepc]; cases waitAcquires cx.wait <;> simp <;> split <;> simp
@[simp] theorem commit_tstat (t : Team) (cx : Cur) (n : Nat) : (t.commit cx n).tstat = t.tstat :=
  by unfold Team.commit Team.hears; simp only [modCol_tstat]; cases waitAcquires cx.wait <;> simp <;> split <;> simp
@[simp] theorem commit_tie (t : Team) (cx : Cur) (n : Nat) : (t.commit cx n).tie = t.tie :=
  by unfold Team.commit Team.hears; simp only [modCol_tie]; cases waitAcquires cx.wait <;> simp <;> split <;> simp
@[simp] theorem commit_tip (t : Team) (cx : Cur) (n : Nat) : (t.commit cx n).tip = t.tip :=
  by unfold Team.commit Team.hears; simp only [modCol_tip]; cases waitAcquires cx.wait <;> simp <;> split <;> simp
@[simp] theorem commit_tscratch (t : Team) (cx : Cur) (n : Nat) : (t.commit cx n).tscratch = t.tscratch :=
  by unfold Team.commit Team.hears; simp only [modCol_tscratch]; cases waitAcquires cx.wait <;> simp <;> split <;> simp
@[simp] theorem commit_timecmp (t : Team) (cx : Cur) (n : Nat) : (t.commit cx n).timecmp = t.timecmp :=
  by unfold Team.commit Team.hears; simp only [modCol_timecmp]; cases waitAcquires cx.wait <;> simp <;> split <;> simp
@[simp] theorem commit_csrTaint (t : Team) (cx : Cur) (n : Nat) : (t.commit cx n).csrTaint = t.csrTaint :=
  by unfold Team.commit Team.hears; simp only [modCol_csrTaint]; cases waitAcquires cx.wait <;> simp <;> split <;> simp
@[simp] theorem commit_spad (t : Team) (cx : Cur) (n : Nat) : (t.commit cx n).spad = t.spad :=
  by unfold Team.commit Team.hears; simp only [modCol_spad]; cases waitAcquires cx.wait <;> simp <;> split <;> simp
@[simp] theorem commit_spadTaint (t : Team) (cx : Cur) (n : Nat) : (t.commit cx n).spadTaint = t.spadTaint :=
  by unfold Team.commit Team.hears; simp only [modCol_spadTaint]; cases waitAcquires cx.wait <;> simp <;> split <;> simp
@[simp] theorem commit_sick (t : Team) (cx : Cur) (n : Nat) : (t.commit cx n).sick = t.sick :=
  by unfold Team.commit Team.hears; simp only [modCol_sick]; cases waitAcquires cx.wait <;> simp <;> split <;> simp
@[simp] theorem commit_unseen (t : Team) (cx : Cur) (n : Nat) : (t.commit cx n).unseen = t.unseen :=
  by unfold Team.commit Team.hears; simp only [modCol_unseen]; cases waitAcquires cx.wait <;> simp <;> split <;> simp
@[simp] theorem commit_told (t : Team) (cx : Cur) (n : Nat) : (t.commit cx n).told = t.told :=
  by unfold Team.commit Team.hears; simp only [modCol_told]; cases waitAcquires cx.wait <;> simp <;> split <;> simp
@[simp] theorem commit_coming (t : Team) (cx : Cur) (n : Nat) : (t.commit cx n).coming = t.coming :=
  by unfold Team.commit Team.hears; simp only [modCol_coming]; cases waitAcquires cx.wait <;> simp <;> split <;> simp
@[simp] theorem commit_ways (t : Team) (cx : Cur) (n : Nat) : (t.commit cx n).ways = t.ways :=
  by unfold Team.commit Team.hears; simp only [modCol_ways]; cases waitAcquires cx.wait <;> simp <;> split <;> simp
@[simp] theorem commit_bfmt (t : Team) (cx : Cur) (n : Nat) : (t.commit cx n).bfmt = t.bfmt :=
  by unfold Team.commit Team.hears; simp only [modCol_bfmt]; cases waitAcquires cx.wait <;> simp <;> split <;> simp
@[simp] theorem commit_books (t : Team) (cx : Cur) (n : Nat) : (t.commit cx n).books = t.books :=
  by unfold Team.commit Team.hears; simp only [modCol_books]; cases waitAcquires cx.wait <;> simp <;> split <;> simp
@[simp] theorem commit_cache (t : Team) (cx : Cur) (n : Nat) : (t.commit cx n).cache = t.cache :=
  by unfold Team.commit Team.hears; simp only [modCol_cache]; cases waitAcquires cx.wait <;> simp <;> split <;> simp
@[simp] theorem commit_acc (t : Team) (cx : Cur) (n : Nat) : (t.commit cx n).acc = t.acc :=
  by unfold Team.commit Team.hears; simp only [modCol_acc]; cases waitAcquires cx.wait <;> simp <;> split <;> simp
@[simp] theorem commit_accTaint (t : Team) (cx : Cur) (n : Nat) : (t.commit cx n).accTaint = t.accTaint :=
  by unfold Team.commit Team.hears; simp only [modCol_accTaint]; cases waitAcquires cx.wait <;> simp <;> split <;> simp
@[simp] theorem commit_accSick (t : Team) (cx : Cur) (n : Nat) : (t.commit cx n).accSick = t.accSick :=
  by unfold Team.commit Team.hears; simp only [modCol_accSick]; cases waitAcquires cx.wait <;> simp <;> split <;> simp
@[simp] theorem commit_found (t : Team) (cx : Cur) (n : Nat) : (t.commit cx n).found = t.found :=
  by unfold Team.commit Team.hears; simp only [modCol_found]; cases waitAcquires cx.wait <;> simp <;> split <;> simp
@[simp] theorem commit_mfmt (t : Team) (cx : Cur) (n : Nat) : (t.commit cx n).mfmt = t.mfmt :=
  by unfold Team.commit Team.hears; simp only [modCol_mfmt]; cases waitAcquires cx.wait <;> simp <;> split <;> simp
@[simp] theorem commit_mringA (t : Team) (cx : Cur) (n : Nat) : (t.commit cx n).mringA = t.mringA :=
  by unfold Team.commit Team.hears; simp only [modCol_mringA]; cases waitAcquires cx.wait <;> simp <;> split <;> simp
@[simp] theorem commit_mringB (t : Team) (cx : Cur) (n : Nat) : (t.commit cx n).mringB = t.mringB :=
  by unfold Team.commit Team.hears; simp only [modCol_mringB]; cases waitAcquires cx.wait <;> simp <;> split <;> simp
@[simp] theorem commit_mnest (t : Team) (cx : Cur) (n : Nat) : (t.commit cx n).mnest = t.mnest :=
  by unfold Team.commit Team.hears; simp only [modCol_mnest]; cases waitAcquires cx.wait <;> simp <;> split <;> simp
@[simp] theorem commit_active (t : Team) (cx : Cur) (n : Nat) : (t.commit cx n).active = t.active :=
  by unfold Team.commit Team.hears; simp only [modCol_active]; cases waitAcquires cx.wait <;> simp <;> split <;> simp
@[simp] theorem commit_rA (t : Team) (cx : Cur) (n : Nat) : (t.commit cx n).rA = t.rA :=
  by unfold Team.commit Team.hears; simp only [modCol_rA]; cases waitAcquires cx.wait <;> simp <;> split <;> simp
@[simp] theorem commit_rB (t : Team) (cx : Cur) (n : Nat) : (t.commit cx n).rB = t.rB :=
  by unfold Team.commit Team.hears; simp only [modCol_rB]; cases waitAcquires cx.wait <;> simp <;> split <;> simp
@[simp] theorem commit_engine (t : Team) (cx : Cur) (n : Nat) : (t.commit cx n).engine = t.engine :=
  by unfold Team.commit Team.hears; simp only [modCol_engine]; cases waitAcquires cx.wait <;> simp <;> split <;> simp
@[simp] theorem commit_engineFree (t : Team) (cx : Cur) (n : Nat) : (t.commit cx n).engineFree = t.engineFree :=
  by unfold Team.commit Team.hears; simp only [modCol_engineFree]; cases waitAcquires cx.wait <;> simp <;> split <;> simp
@[simp] theorem commit_plaitObs (t : Team) (cx : Cur) (n : Nat) : (t.commit cx n).plaitObs = t.plaitObs :=
  by unfold Team.commit Team.hears; simp only [modCol_plaitObs]; cases waitAcquires cx.wait <;> simp <;> split <;> simp
@[simp] theorem commit_hidden (t : Team) (cx : Cur) (n : Nat) : (t.commit cx n).hidden = t.hidden :=
  by unfold Team.commit Team.hears; simp only [modCol_hidden]; cases waitAcquires cx.wait <;> simp <;> split <;> simp
@[simp] theorem commit_inbound (t : Team) (cx : Cur) (n : Nat) : (t.commit cx n).inbound = t.inbound :=
  by unfold Team.commit Team.hears; simp only [modCol_inbound]; cases waitAcquires cx.wait <;> simp <;> split <;> simp
@[simp] theorem commit_border (t : Team) (cx : Cur) (n : Nat) : (t.commit cx n).border = t.border :=
  by unfold Team.commit Team.hears; simp only [modCol_border]; cases waitAcquires cx.wait <;> simp <;> split <;> simp
@[simp] theorem commit_inbox (t : Team) (cx : Cur) (n : Nat) : (t.commit cx n).inbox = t.inbox :=
  by unfold Team.commit Team.hears; simp only [modCol_inbox]; cases waitAcquires cx.wait <;> simp <;> split <;> simp
@[simp] theorem commit_plaits (t : Team) (cx : Cur) (n : Nat) : (t.commit cx n).plaits = t.plaits :=
  by unfold Team.commit Team.hears; simp only [modCol_plaits]; cases waitAcquires cx.wait <;> simp <;> split <;> simp
@[simp] theorem commit_copies (t : Team) (cx : Cur) (n : Nat) : (t.commit cx n).copies = t.copies :=
  by unfold Team.commit Team.hears; simp only [modCol_copies]; cases waitAcquires cx.wait <;> simp <;> split <;> simp
@[simp] theorem commit_xferFree (t : Team) (cx : Cur) (n : Nat) : (t.commit cx n).xferFree = t.xferFree :=
  by unfold Team.commit Team.hears; simp only [modCol_xferFree]; cases waitAcquires cx.wait <;> simp <;> split <;> simp
@[simp] theorem commit_advances (t : Team) (cx : Cur) (n : Nat) : (t.commit cx n).advances = t.advances :=
  by unfold Team.commit Team.hears; simp only [modCol_advances]; cases waitAcquires cx.wait <;> simp <;> split <;> simp
@[simp] theorem commit_cpx (t : Team) (cx : Cur) (n : Nat) : (t.commit cx n).cpx = t.cpx :=
  by unfold Team.commit Team.hears; simp only [modCol_cpx]; cases waitAcquires cx.wait <;> simp <;> split <;> simp
@[simp] theorem commit_pend (t : Team) (cx : Cur) (n : Nat) : (t.commit cx n).pend = t.pend :=
  by unfold Team.commit Team.hears; simp only [modCol_pend]; cases waitAcquires cx.wait <;> simp <;> split <;> simp
@[simp] theorem commit_waiting (t : Team) (cx : Cur) (n : Nat) : (t.commit cx n).waiting = t.waiting :=
  by unfold Team.commit Team.hears; simp only [modCol_waiting]; cases waitAcquires cx.wait <;> simp <;> split <;> simp
@[simp] theorem commit_traps (t : Team) (cx : Cur) (n : Nat) : (t.commit cx n).traps = t.traps :=
  by unfold Team.commit Team.hears; simp only [modCol_traps]; cases waitAcquires cx.wait <;> simp <;> split <;> simp
@[simp] theorem commit_freezeReq (t : Team) (cx : Cur) (n : Nat) : (t.commit cx n).freezeReq = t.freezeReq :=
  by unfold Team.commit Team.hears; simp only [modCol_freezeReq]; cases waitAcquires cx.wait <;> simp <;> split <;> simp
@[simp] theorem commit_lastPulse (t : Team) (cx : Cur) (n : Nat) : (t.commit cx n).lastPulse = t.lastPulse :=
  by unfold Team.commit Team.hears; simp only [modCol_lastPulse]; cases waitAcquires cx.wait <;> simp <;> split <;> simp

/-! ## The team past the word of a state -/

@[simp] theorem past_cid (s : State) (t : Team) (n : Nat) : (s.past t n).cid = t.cid := commit_cid ..
@[simp] theorem past_launch (s : State) (t : Team) (n : Nat) : (s.past t n).launch = t.launch := commit_launch ..
@[simp] theorem past_job (s : State) (t : Team) (n : Nat) : (s.past t n).job = t.job := commit_job ..
@[simp] theorem past_ord (s : State) (t : Team) (n : Nat) : (s.past t n).ord = t.ord := commit_ord ..
@[simp] theorem past_patch (s : State) (t : Team) (n : Nat) : (s.past t n).patch = t.patch := commit_patch ..
@[simp] theorem past_pext (s : State) (t : Team) (n : Nat) : (s.past t n).pext = t.pext := commit_pext ..
@[simp] theorem past_ndet (s : State) (t : Team) (n : Nat) : (s.past t n).ndet = t.ndet := commit_ndet ..
@[simp] theorem past_tgroup (s : State) (t : Team) (n : Nat) : (s.past t n).tgroup = t.tgroup := commit_tgroup ..
@[simp] theorem past_banks (s : State) (t : Team) (n : Nat) : (s.past t n).banks = t.banks := commit_banks ..
@[simp] theorem past_granules (s : State) (t : Team) (n : Nat) : (s.past t n).granules = t.granules := commit_granules ..
@[simp] theorem past_inboxBase (s : State) (t : Team) (n : Nat) : (s.past t n).inboxBase = t.inboxBase := commit_inboxBase ..
@[simp] theorem past_tfLen (s : State) (t : Team) (n : Nat) : (s.past t n).tfLen = t.tfLen := commit_tfLen ..
@[simp] theorem past_clk (s : State) (t : Team) (n : Nat) : (s.past t n).clk = t.clk := commit_clk ..
@[simp] theorem past_delta (s : State) (t : Team) (n : Nat) : (s.past t n).delta = t.delta := commit_delta ..
@[simp] theorem past_frozen (s : State) (t : Team) (n : Nat) : (s.past t n).frozen = t.frozen := commit_frozen ..
@[simp] theorem past_frozenNs (s : State) (t : Team) (n : Nat) : (s.past t n).frozenNs = t.frozenNs := commit_frozenNs ..
@[simp] theorem past_frozenWhy (s : State) (t : Team) (n : Nat) : (s.past t n).frozenWhy = t.frozenWhy := commit_frozenWhy ..
@[simp] theorem past_svc (s : State) (t : Team) (n : Nat) : (s.past t n).svc = t.svc := commit_svc ..
@[simp] theorem past_handler (s : State) (t : Team) (n : Nat) : (s.past t n).handler = t.handler := commit_handler ..
@[simp] theorem past_depth (s : State) (t : Team) (n : Nat) : (s.past t n).depth = t.depth := commit_depth ..
@[simp] theorem past_svcClk (s : State) (t : Team) (n : Nat) : (s.past t n).svcClk = t.svcClk := commit_svcClk ..
@[simp] theorem past_svcPend (s : State) (t : Team) (n : Nat) : (s.past t n).svcPend = t.svcPend := commit_svcPend ..
@[simp] theorem past_held (s : State) (t : Team) (n : Nat) : (s.past t n).held = t.held := commit_held ..
@[simp] theorem past_parked (s : State) (t : Team) (n : Nat) : (s.past t n).parked = t.parked := commit_parked ..
@[simp] theorem past_hoop (s : State) (t : Team) (n : Nat) : (s.past t n).hoop = t.hoop := commit_hoop ..
@[simp] theorem past_s (s : State) (t : Team) (n : Nat) : (s.past t n).s = t.s := commit_s ..
@[simp] theorem past_a (s : State) (t : Team) (n : Nat) : (s.past t n).a = t.a := commit_a ..
@[simp] theorem past_v (s : State) (t : Team) (n : Nat) : (s.past t n).v = t.v := commit_v ..
@[simp] theorem past_o (s : State) (t : Team) (n : Nat) : (s.past t n).o = t.o := commit_o ..
@[simp] theorem past_lat (s : State) (t : Team) (n : Nat) : (s.past t n).lat = t.lat := commit_lat ..
@[simp] theorem past_q (s : State) (t : Team) (n : Nat) : (s.past t n).q = t.q := commit_q ..
@[simp] theorem past_w (s : State) (t : Team) (n : Nat) : (s.past t n).w = t.w := commit_w ..
@[simp] theorem past_k (s : State) (t : Team) (n : Nat) : (s.past t n).k = t.k := commit_k ..
@[simp] theorem past_m (s : State) (t : Team) (n : Nat) : (s.past t n).m = t.m := commit_m ..
@[simp] theorem past_n (s : State) (t : Team) (n : Nat) : (s.past t n).n = t.n := commit_n ..
@[simp] theorem past_tab (s : State) (t : Team) (n : Nat) : (s.past t n).tab = t.tab := commit_tab ..
@[simp] theorem past_p (s : State) (t : Team) (n : Nat) : (s.past t n).p = t.p := commit_p ..
@[simp] theorem past_flags (s : State) (t : Team) (n : Nat) : (s.past t n).flags = t.flags := commit_flags ..
@[simp] theorem past_cnt (s : State) (t : Team) (n : Nat) : (s.past t n).cnt = t.cnt := commit_cnt ..
@[simp] theorem past_bars (s : State) (t : Team) (n : Nat) : (s.past t n).bars = t.bars := commit_bars ..
@[simp] theorem past_mbx (s : State) (t : Team) (n : Nat) : (s.past t n).mbx = t.mbx := commit_mbx ..
@[simp] theorem past_vrm (s : State) (t : Team) (n : Nat) : (s.past t n).vrm = t.vrm := commit_vrm ..
@[simp] theorem past_vsat (s : State) (t : Team) (n : Nat) : (s.past t n).vsat = t.vsat := commit_vsat ..
@[simp] theorem past_vshape (s : State) (t : Team) (n : Nat) : (s.past t n).vshape = t.vshape := commit_vshape ..
@[simp] theorem past_vexc (s : State) (t : Team) (n : Nat) : (s.past t n).vexc = t.vexc := commit_vexc ..
@[simp] theorem past_mexc (s : State) (t : Team) (n : Nat) : (s.past t n).mexc = t.mexc := commit_mexc ..
@[simp] theorem past_cexc (s : State) (t : Team) (n : Nat) : (s.past t n).cexc = t.cexc := commit_cexc ..
@[simp] theorem past_stkb (s : State) (t : Team) (n : Nat) : (s.past t n).stkb = t.stkb := commit_stkb ..
@[simp] theorem past_stkl (s : State) (t : Team) (n : Nat) : (s.past t n).stkl = t.stkl := commit_stkl ..
@[simp] theorem past_stkp (s : State) (t : Team) (n : Nat) : (s.past t n).stkp = t.stkp := commit_stkp ..
@[simp] theorem past_dbgctl (s : State) (t : Team) (n : Nat) : (s.past t n).dbgctl = t.dbgctl := commit_dbgctl ..
@[simp] theorem past_tfb (s : State) (t : Team) (n : Nat) : (s.past t n).tfb = t.tfb := commit_tfb ..
@[simp] theorem past_tcause (s : State) (t : Team) (n : Nat) : (s.past t n).tcause = t.tcause := commit_tcause ..
@[simp] theorem past_tval (s : State) (t : Team) (n : Nat) : (s.past t n).tval = t.tval := commit_tval ..
@[simp] theorem past_tepc (s : State) (t : Team) (n : Nat) : (s.past t n).tepc = t.tepc := commit_tepc ..
@[simp] theorem past_tstat (s : State) (t : Team) (n : Nat) : (s.past t n).tstat = t.tstat := commit_tstat ..
@[simp] theorem past_tie (s : State) (t : Team) (n : Nat) : (s.past t n).tie = t.tie := commit_tie ..
@[simp] theorem past_tip (s : State) (t : Team) (n : Nat) : (s.past t n).tip = t.tip := commit_tip ..
@[simp] theorem past_tscratch (s : State) (t : Team) (n : Nat) : (s.past t n).tscratch = t.tscratch := commit_tscratch ..
@[simp] theorem past_timecmp (s : State) (t : Team) (n : Nat) : (s.past t n).timecmp = t.timecmp := commit_timecmp ..
@[simp] theorem past_csrTaint (s : State) (t : Team) (n : Nat) : (s.past t n).csrTaint = t.csrTaint := commit_csrTaint ..
@[simp] theorem past_spad (s : State) (t : Team) (n : Nat) : (s.past t n).spad = t.spad := commit_spad ..
@[simp] theorem past_spadTaint (s : State) (t : Team) (n : Nat) : (s.past t n).spadTaint = t.spadTaint := commit_spadTaint ..
@[simp] theorem past_sick (s : State) (t : Team) (n : Nat) : (s.past t n).sick = t.sick := commit_sick ..
@[simp] theorem past_unseen (s : State) (t : Team) (n : Nat) : (s.past t n).unseen = t.unseen := commit_unseen ..
@[simp] theorem past_told (s : State) (t : Team) (n : Nat) : (s.past t n).told = t.told := commit_told ..
@[simp] theorem past_coming (s : State) (t : Team) (n : Nat) : (s.past t n).coming = t.coming := commit_coming ..
@[simp] theorem past_ways (s : State) (t : Team) (n : Nat) : (s.past t n).ways = t.ways := commit_ways ..
@[simp] theorem past_bfmt (s : State) (t : Team) (n : Nat) : (s.past t n).bfmt = t.bfmt := commit_bfmt ..
@[simp] theorem past_books (s : State) (t : Team) (n : Nat) : (s.past t n).books = t.books := commit_books ..
@[simp] theorem past_cache (s : State) (t : Team) (n : Nat) : (s.past t n).cache = t.cache := commit_cache ..
@[simp] theorem past_acc (s : State) (t : Team) (n : Nat) : (s.past t n).acc = t.acc := commit_acc ..
@[simp] theorem past_accTaint (s : State) (t : Team) (n : Nat) : (s.past t n).accTaint = t.accTaint := commit_accTaint ..
@[simp] theorem past_accSick (s : State) (t : Team) (n : Nat) : (s.past t n).accSick = t.accSick := commit_accSick ..
@[simp] theorem past_found (s : State) (t : Team) (n : Nat) : (s.past t n).found = t.found := commit_found ..
@[simp] theorem past_mfmt (s : State) (t : Team) (n : Nat) : (s.past t n).mfmt = t.mfmt := commit_mfmt ..
@[simp] theorem past_mringA (s : State) (t : Team) (n : Nat) : (s.past t n).mringA = t.mringA := commit_mringA ..
@[simp] theorem past_mringB (s : State) (t : Team) (n : Nat) : (s.past t n).mringB = t.mringB := commit_mringB ..
@[simp] theorem past_mnest (s : State) (t : Team) (n : Nat) : (s.past t n).mnest = t.mnest := commit_mnest ..
@[simp] theorem past_active (s : State) (t : Team) (n : Nat) : (s.past t n).active = t.active := commit_active ..
@[simp] theorem past_rA (s : State) (t : Team) (n : Nat) : (s.past t n).rA = t.rA := commit_rA ..
@[simp] theorem past_rB (s : State) (t : Team) (n : Nat) : (s.past t n).rB = t.rB := commit_rB ..
@[simp] theorem past_engine (s : State) (t : Team) (n : Nat) : (s.past t n).engine = t.engine := commit_engine ..
@[simp] theorem past_engineFree (s : State) (t : Team) (n : Nat) : (s.past t n).engineFree = t.engineFree :=
  commit_engineFree ..
@[simp] theorem past_plaitObs (s : State) (t : Team) (n : Nat) : (s.past t n).plaitObs = t.plaitObs := commit_plaitObs ..
@[simp] theorem past_hidden (s : State) (t : Team) (n : Nat) : (s.past t n).hidden = t.hidden := commit_hidden ..
@[simp] theorem past_inbound (s : State) (t : Team) (n : Nat) : (s.past t n).inbound = t.inbound := commit_inbound ..
@[simp] theorem past_border (s : State) (t : Team) (n : Nat) : (s.past t n).border = t.border := commit_border ..
@[simp] theorem past_inbox (s : State) (t : Team) (n : Nat) : (s.past t n).inbox = t.inbox := commit_inbox ..
@[simp] theorem past_plaits (s : State) (t : Team) (n : Nat) : (s.past t n).plaits = t.plaits := commit_plaits ..
@[simp] theorem past_copies (s : State) (t : Team) (n : Nat) : (s.past t n).copies = t.copies := commit_copies ..
@[simp] theorem past_xferFree (s : State) (t : Team) (n : Nat) : (s.past t n).xferFree = t.xferFree := commit_xferFree ..
@[simp] theorem past_advances (s : State) (t : Team) (n : Nat) : (s.past t n).advances = t.advances := commit_advances ..
@[simp] theorem past_cpx (s : State) (t : Team) (n : Nat) : (s.past t n).cpx = t.cpx := commit_cpx ..
@[simp] theorem past_pend (s : State) (t : Team) (n : Nat) : (s.past t n).pend = t.pend := commit_pend ..
@[simp] theorem past_waiting (s : State) (t : Team) (n : Nat) : (s.past t n).waiting = t.waiting := commit_waiting ..
@[simp] theorem past_traps (s : State) (t : Team) (n : Nat) : (s.past t n).traps = t.traps := commit_traps ..
@[simp] theorem past_freezeReq (s : State) (t : Team) (n : Nat) : (s.past t n).freezeReq = t.freezeReq := commit_freezeReq ..
@[simp] theorem past_lastPulse (s : State) (t : Team) (n : Nat) : (s.past t n).lastPulse = t.lastPulse := commit_lastPulse ..

/-! ## A trap pending -/

@[simp] theorem pendTrap_cid (t : Team) (c : Col) (pos : Nat) (k : Cause) (v aux : Word) (n : Nat) : (t.pendTrap c pos k v aux n).cid = t.cid :=
  by unfold Team.pendTrap; split <;> rfl
@[simp] theorem pendTrap_launch (t : Team) (c : Col) (pos : Nat) (k : Cause) (v aux : Word) (n : Nat) : (t.pendTrap c pos k v aux n).launch = t.launch :=
  by unfold Team.pendTrap; split <;> rfl
@[simp] theorem pendTrap_job (t : Team) (c : Col) (pos : Nat) (k : Cause) (v aux : Word) (n : Nat) : (t.pendTrap c pos k v aux n).job = t.job :=
  by unfold Team.pendTrap; split <;> rfl
@[simp] theorem pendTrap_ord (t : Team) (c : Col) (pos : Nat) (k : Cause) (v aux : Word) (n : Nat) : (t.pendTrap c pos k v aux n).ord = t.ord :=
  by unfold Team.pendTrap; split <;> rfl
@[simp] theorem pendTrap_patch (t : Team) (c : Col) (pos : Nat) (k : Cause) (v aux : Word) (n : Nat) : (t.pendTrap c pos k v aux n).patch = t.patch :=
  by unfold Team.pendTrap; split <;> rfl
@[simp] theorem pendTrap_pext (t : Team) (c : Col) (pos : Nat) (k : Cause) (v aux : Word) (n : Nat) : (t.pendTrap c pos k v aux n).pext = t.pext :=
  by unfold Team.pendTrap; split <;> rfl
@[simp] theorem pendTrap_ndet (t : Team) (c : Col) (pos : Nat) (k : Cause) (v aux : Word) (n : Nat) : (t.pendTrap c pos k v aux n).ndet = t.ndet :=
  by unfold Team.pendTrap; split <;> rfl
@[simp] theorem pendTrap_tgroup (t : Team) (c : Col) (pos : Nat) (k : Cause) (v aux : Word) (n : Nat) : (t.pendTrap c pos k v aux n).tgroup = t.tgroup :=
  by unfold Team.pendTrap; split <;> rfl
@[simp] theorem pendTrap_banks (t : Team) (c : Col) (pos : Nat) (k : Cause) (v aux : Word) (n : Nat) : (t.pendTrap c pos k v aux n).banks = t.banks :=
  by unfold Team.pendTrap; split <;> rfl
@[simp] theorem pendTrap_granules (t : Team) (c : Col) (pos : Nat) (k : Cause) (v aux : Word) (n : Nat) : (t.pendTrap c pos k v aux n).granules = t.granules :=
  by unfold Team.pendTrap; split <;> rfl
@[simp] theorem pendTrap_inboxBase (t : Team) (c : Col) (pos : Nat) (k : Cause) (v aux : Word) (n : Nat) : (t.pendTrap c pos k v aux n).inboxBase = t.inboxBase :=
  by unfold Team.pendTrap; split <;> rfl
@[simp] theorem pendTrap_tfLen (t : Team) (c : Col) (pos : Nat) (k : Cause) (v aux : Word) (n : Nat) : (t.pendTrap c pos k v aux n).tfLen = t.tfLen :=
  by unfold Team.pendTrap; split <;> rfl
@[simp] theorem pendTrap_clk (t : Team) (c : Col) (pos : Nat) (k : Cause) (v aux : Word) (n : Nat) : (t.pendTrap c pos k v aux n).clk = t.clk :=
  by unfold Team.pendTrap; split <;> rfl
@[simp] theorem pendTrap_delta (t : Team) (c : Col) (pos : Nat) (k : Cause) (v aux : Word) (n : Nat) : (t.pendTrap c pos k v aux n).delta = t.delta :=
  by unfold Team.pendTrap; split <;> rfl
@[simp] theorem pendTrap_frozen (t : Team) (c : Col) (pos : Nat) (k : Cause) (v aux : Word) (n : Nat) : (t.pendTrap c pos k v aux n).frozen = t.frozen :=
  by unfold Team.pendTrap; split <;> rfl
@[simp] theorem pendTrap_frozenNs (t : Team) (c : Col) (pos : Nat) (k : Cause) (v aux : Word) (n : Nat) : (t.pendTrap c pos k v aux n).frozenNs = t.frozenNs :=
  by unfold Team.pendTrap; split <;> rfl
@[simp] theorem pendTrap_frozenWhy (t : Team) (c : Col) (pos : Nat) (k : Cause) (v aux : Word) (n : Nat) : (t.pendTrap c pos k v aux n).frozenWhy = t.frozenWhy :=
  by unfold Team.pendTrap; split <;> rfl
@[simp] theorem pendTrap_svc (t : Team) (c : Col) (pos : Nat) (k : Cause) (v aux : Word) (n : Nat) : (t.pendTrap c pos k v aux n).svc = t.svc :=
  by unfold Team.pendTrap; split <;> rfl
@[simp] theorem pendTrap_handler (t : Team) (c : Col) (pos : Nat) (k : Cause) (v aux : Word) (n : Nat) : (t.pendTrap c pos k v aux n).handler = t.handler :=
  by unfold Team.pendTrap; split <;> rfl
@[simp] theorem pendTrap_depth (t : Team) (c : Col) (pos : Nat) (k : Cause) (v aux : Word) (n : Nat) : (t.pendTrap c pos k v aux n).depth = t.depth :=
  by unfold Team.pendTrap; split <;> rfl
@[simp] theorem pendTrap_svcClk (t : Team) (c : Col) (pos : Nat) (k : Cause) (v aux : Word) (n : Nat) : (t.pendTrap c pos k v aux n).svcClk = t.svcClk :=
  by unfold Team.pendTrap; split <;> rfl
@[simp] theorem pendTrap_svcPend (t : Team) (c : Col) (pos : Nat) (k : Cause) (v aux : Word) (n : Nat) : (t.pendTrap c pos k v aux n).svcPend = t.svcPend :=
  by unfold Team.pendTrap; split <;> rfl
@[simp] theorem pendTrap_held (t : Team) (c : Col) (pos : Nat) (k : Cause) (v aux : Word) (n : Nat) : (t.pendTrap c pos k v aux n).held = t.held :=
  by unfold Team.pendTrap; split <;> rfl
@[simp] theorem pendTrap_parked (t : Team) (c : Col) (pos : Nat) (k : Cause) (v aux : Word) (n : Nat) : (t.pendTrap c pos k v aux n).parked = t.parked :=
  by unfold Team.pendTrap; split <;> rfl
@[simp] theorem pendTrap_hoop (t : Team) (c : Col) (pos : Nat) (k : Cause) (v aux : Word) (n : Nat) : (t.pendTrap c pos k v aux n).hoop = t.hoop :=
  by unfold Team.pendTrap; split <;> rfl
@[simp] theorem pendTrap_s (t : Team) (c : Col) (pos : Nat) (k : Cause) (v aux : Word) (n : Nat) : (t.pendTrap c pos k v aux n).s = t.s :=
  by unfold Team.pendTrap; split <;> rfl
@[simp] theorem pendTrap_a (t : Team) (c : Col) (pos : Nat) (k : Cause) (v aux : Word) (n : Nat) : (t.pendTrap c pos k v aux n).a = t.a :=
  by unfold Team.pendTrap; split <;> rfl
@[simp] theorem pendTrap_v (t : Team) (c : Col) (pos : Nat) (k : Cause) (v aux : Word) (n : Nat) : (t.pendTrap c pos k v aux n).v = t.v :=
  by unfold Team.pendTrap; split <;> rfl
@[simp] theorem pendTrap_o (t : Team) (c : Col) (pos : Nat) (k : Cause) (v aux : Word) (n : Nat) : (t.pendTrap c pos k v aux n).o = t.o :=
  by unfold Team.pendTrap; split <;> rfl
@[simp] theorem pendTrap_lat (t : Team) (c : Col) (pos : Nat) (k : Cause) (v aux : Word) (n : Nat) : (t.pendTrap c pos k v aux n).lat = t.lat :=
  by unfold Team.pendTrap; split <;> rfl
@[simp] theorem pendTrap_q (t : Team) (c : Col) (pos : Nat) (k : Cause) (v aux : Word) (n : Nat) : (t.pendTrap c pos k v aux n).q = t.q :=
  by unfold Team.pendTrap; split <;> rfl
@[simp] theorem pendTrap_w (t : Team) (c : Col) (pos : Nat) (k : Cause) (v aux : Word) (n : Nat) : (t.pendTrap c pos k v aux n).w = t.w :=
  by unfold Team.pendTrap; split <;> rfl
@[simp] theorem pendTrap_k (t : Team) (c : Col) (pos : Nat) (k : Cause) (v aux : Word) (n : Nat) : (t.pendTrap c pos k v aux n).k = t.k :=
  by unfold Team.pendTrap; split <;> rfl
@[simp] theorem pendTrap_m (t : Team) (c : Col) (pos : Nat) (k : Cause) (v aux : Word) (n : Nat) : (t.pendTrap c pos k v aux n).m = t.m :=
  by unfold Team.pendTrap; split <;> rfl
@[simp] theorem pendTrap_n (t : Team) (c : Col) (pos : Nat) (k : Cause) (v aux : Word) (n : Nat) : (t.pendTrap c pos k v aux n).n = t.n :=
  by unfold Team.pendTrap; split <;> rfl
@[simp] theorem pendTrap_tab (t : Team) (c : Col) (pos : Nat) (k : Cause) (v aux : Word) (n : Nat) : (t.pendTrap c pos k v aux n).tab = t.tab :=
  by unfold Team.pendTrap; split <;> rfl
@[simp] theorem pendTrap_p (t : Team) (c : Col) (pos : Nat) (k : Cause) (v aux : Word) (n : Nat) : (t.pendTrap c pos k v aux n).p = t.p :=
  by unfold Team.pendTrap; split <;> rfl
@[simp] theorem pendTrap_toks (t : Team) (c : Col) (pos : Nat) (k : Cause) (v aux : Word) (n : Nat) : (t.pendTrap c pos k v aux n).toks = t.toks :=
  by unfold Team.pendTrap; split <;> rfl
@[simp] theorem pendTrap_flags (t : Team) (c : Col) (pos : Nat) (k : Cause) (v aux : Word) (n : Nat) : (t.pendTrap c pos k v aux n).flags = t.flags :=
  by unfold Team.pendTrap; split <;> rfl
@[simp] theorem pendTrap_cnt (t : Team) (c : Col) (pos : Nat) (k : Cause) (v aux : Word) (n : Nat) : (t.pendTrap c pos k v aux n).cnt = t.cnt :=
  by unfold Team.pendTrap; split <;> rfl
@[simp] theorem pendTrap_bars (t : Team) (c : Col) (pos : Nat) (k : Cause) (v aux : Word) (n : Nat) : (t.pendTrap c pos k v aux n).bars = t.bars :=
  by unfold Team.pendTrap; split <;> rfl
@[simp] theorem pendTrap_mbx (t : Team) (c : Col) (pos : Nat) (k : Cause) (v aux : Word) (n : Nat) : (t.pendTrap c pos k v aux n).mbx = t.mbx :=
  by unfold Team.pendTrap; split <;> rfl
@[simp] theorem pendTrap_vrm (t : Team) (c : Col) (pos : Nat) (k : Cause) (v aux : Word) (n : Nat) : (t.pendTrap c pos k v aux n).vrm = t.vrm :=
  by unfold Team.pendTrap; split <;> rfl
@[simp] theorem pendTrap_vsat (t : Team) (c : Col) (pos : Nat) (k : Cause) (v aux : Word) (n : Nat) : (t.pendTrap c pos k v aux n).vsat = t.vsat :=
  by unfold Team.pendTrap; split <;> rfl
@[simp] theorem pendTrap_vshape (t : Team) (c : Col) (pos : Nat) (k : Cause) (v aux : Word) (n : Nat) : (t.pendTrap c pos k v aux n).vshape = t.vshape :=
  by unfold Team.pendTrap; split <;> rfl
@[simp] theorem pendTrap_vexc (t : Team) (c : Col) (pos : Nat) (k : Cause) (v aux : Word) (n : Nat) : (t.pendTrap c pos k v aux n).vexc = t.vexc :=
  by unfold Team.pendTrap; split <;> rfl
@[simp] theorem pendTrap_mexc (t : Team) (c : Col) (pos : Nat) (k : Cause) (v aux : Word) (n : Nat) : (t.pendTrap c pos k v aux n).mexc = t.mexc :=
  by unfold Team.pendTrap; split <;> rfl
@[simp] theorem pendTrap_cexc (t : Team) (c : Col) (pos : Nat) (k : Cause) (v aux : Word) (n : Nat) : (t.pendTrap c pos k v aux n).cexc = t.cexc :=
  by unfold Team.pendTrap; split <;> rfl
@[simp] theorem pendTrap_stkb (t : Team) (c : Col) (pos : Nat) (k : Cause) (v aux : Word) (n : Nat) : (t.pendTrap c pos k v aux n).stkb = t.stkb :=
  by unfold Team.pendTrap; split <;> rfl
@[simp] theorem pendTrap_stkl (t : Team) (c : Col) (pos : Nat) (k : Cause) (v aux : Word) (n : Nat) : (t.pendTrap c pos k v aux n).stkl = t.stkl :=
  by unfold Team.pendTrap; split <;> rfl
@[simp] theorem pendTrap_stkp (t : Team) (c : Col) (pos : Nat) (k : Cause) (v aux : Word) (n : Nat) : (t.pendTrap c pos k v aux n).stkp = t.stkp :=
  by unfold Team.pendTrap; split <;> rfl
@[simp] theorem pendTrap_dbgctl (t : Team) (c : Col) (pos : Nat) (k : Cause) (v aux : Word) (n : Nat) : (t.pendTrap c pos k v aux n).dbgctl = t.dbgctl :=
  by unfold Team.pendTrap; split <;> rfl
@[simp] theorem pendTrap_tfb (t : Team) (c : Col) (pos : Nat) (k : Cause) (v aux : Word) (n : Nat) : (t.pendTrap c pos k v aux n).tfb = t.tfb :=
  by unfold Team.pendTrap; split <;> rfl
@[simp] theorem pendTrap_tcause (t : Team) (c : Col) (pos : Nat) (k : Cause) (v aux : Word) (n : Nat) : (t.pendTrap c pos k v aux n).tcause = t.tcause :=
  by unfold Team.pendTrap; split <;> rfl
@[simp] theorem pendTrap_tval (t : Team) (c : Col) (pos : Nat) (k : Cause) (v aux : Word) (n : Nat) : (t.pendTrap c pos k v aux n).tval = t.tval :=
  by unfold Team.pendTrap; split <;> rfl
@[simp] theorem pendTrap_tepc (t : Team) (c : Col) (pos : Nat) (k : Cause) (v aux : Word) (n : Nat) : (t.pendTrap c pos k v aux n).tepc = t.tepc :=
  by unfold Team.pendTrap; split <;> rfl
@[simp] theorem pendTrap_tstat (t : Team) (c : Col) (pos : Nat) (k : Cause) (v aux : Word) (n : Nat) : (t.pendTrap c pos k v aux n).tstat = t.tstat :=
  by unfold Team.pendTrap; split <;> rfl
@[simp] theorem pendTrap_tie (t : Team) (c : Col) (pos : Nat) (k : Cause) (v aux : Word) (n : Nat) : (t.pendTrap c pos k v aux n).tie = t.tie :=
  by unfold Team.pendTrap; split <;> rfl
@[simp] theorem pendTrap_tip (t : Team) (c : Col) (pos : Nat) (k : Cause) (v aux : Word) (n : Nat) : (t.pendTrap c pos k v aux n).tip = t.tip :=
  by unfold Team.pendTrap; split <;> rfl
@[simp] theorem pendTrap_tscratch (t : Team) (c : Col) (pos : Nat) (k : Cause) (v aux : Word) (n : Nat) : (t.pendTrap c pos k v aux n).tscratch = t.tscratch :=
  by unfold Team.pendTrap; split <;> rfl
@[simp] theorem pendTrap_timecmp (t : Team) (c : Col) (pos : Nat) (k : Cause) (v aux : Word) (n : Nat) : (t.pendTrap c pos k v aux n).timecmp = t.timecmp :=
  by unfold Team.pendTrap; split <;> rfl
@[simp] theorem pendTrap_csrTaint (t : Team) (c : Col) (pos : Nat) (k : Cause) (v aux : Word) (n : Nat) : (t.pendTrap c pos k v aux n).csrTaint = t.csrTaint :=
  by unfold Team.pendTrap; split <;> rfl
@[simp] theorem pendTrap_spad (t : Team) (c : Col) (pos : Nat) (k : Cause) (v aux : Word) (n : Nat) : (t.pendTrap c pos k v aux n).spad = t.spad :=
  by unfold Team.pendTrap; split <;> rfl
@[simp] theorem pendTrap_spadTaint (t : Team) (c : Col) (pos : Nat) (k : Cause) (v aux : Word) (n : Nat) : (t.pendTrap c pos k v aux n).spadTaint = t.spadTaint :=
  by unfold Team.pendTrap; split <;> rfl
@[simp] theorem pendTrap_sick (t : Team) (c : Col) (pos : Nat) (k : Cause) (v aux : Word) (n : Nat) : (t.pendTrap c pos k v aux n).sick = t.sick :=
  by unfold Team.pendTrap; split <;> rfl
@[simp] theorem pendTrap_unseen (t : Team) (c : Col) (pos : Nat) (k : Cause) (v aux : Word) (n : Nat) : (t.pendTrap c pos k v aux n).unseen = t.unseen :=
  by unfold Team.pendTrap; split <;> rfl
@[simp] theorem pendTrap_told (t : Team) (c : Col) (pos : Nat) (k : Cause) (v aux : Word) (n : Nat) : (t.pendTrap c pos k v aux n).told = t.told :=
  by unfold Team.pendTrap; split <;> rfl
@[simp] theorem pendTrap_heard (t : Team) (c : Col) (pos : Nat) (k : Cause) (v aux : Word) (n : Nat) : (t.pendTrap c pos k v aux n).heard = t.heard :=
  by unfold Team.pendTrap; split <;> rfl
@[simp] theorem pendTrap_fresh (t : Team) (c : Col) (pos : Nat) (k : Cause) (v aux : Word) (n : Nat) : (t.pendTrap c pos k v aux n).fresh = t.fresh :=
  by unfold Team.pendTrap; split <;> rfl
@[simp] theorem pendTrap_touch (t : Team) (c : Col) (pos : Nat) (k : Cause) (v aux : Word) (n : Nat) : (t.pendTrap c pos k v aux n).touch = t.touch :=
  by unfold Team.pendTrap; split <;> rfl
@[simp] theorem pendTrap_coming (t : Team) (c : Col) (pos : Nat) (k : Cause) (v aux : Word) (n : Nat) : (t.pendTrap c pos k v aux n).coming = t.coming :=
  by unfold Team.pendTrap; split <;> rfl
@[simp] theorem pendTrap_ways (t : Team) (c : Col) (pos : Nat) (k : Cause) (v aux : Word) (n : Nat) : (t.pendTrap c pos k v aux n).ways = t.ways :=
  by unfold Team.pendTrap; split <;> rfl
@[simp] theorem pendTrap_bfmt (t : Team) (c : Col) (pos : Nat) (k : Cause) (v aux : Word) (n : Nat) : (t.pendTrap c pos k v aux n).bfmt = t.bfmt :=
  by unfold Team.pendTrap; split <;> rfl
@[simp] theorem pendTrap_books (t : Team) (c : Col) (pos : Nat) (k : Cause) (v aux : Word) (n : Nat) : (t.pendTrap c pos k v aux n).books = t.books :=
  by unfold Team.pendTrap; split <;> rfl
@[simp] theorem pendTrap_cache (t : Team) (c : Col) (pos : Nat) (k : Cause) (v aux : Word) (n : Nat) : (t.pendTrap c pos k v aux n).cache = t.cache :=
  by unfold Team.pendTrap; split <;> rfl
@[simp] theorem pendTrap_acc (t : Team) (c : Col) (pos : Nat) (k : Cause) (v aux : Word) (n : Nat) : (t.pendTrap c pos k v aux n).acc = t.acc :=
  by unfold Team.pendTrap; split <;> rfl
@[simp] theorem pendTrap_accTaint (t : Team) (c : Col) (pos : Nat) (k : Cause) (v aux : Word) (n : Nat) : (t.pendTrap c pos k v aux n).accTaint = t.accTaint :=
  by unfold Team.pendTrap; split <;> rfl
@[simp] theorem pendTrap_accSick (t : Team) (c : Col) (pos : Nat) (k : Cause) (v aux : Word) (n : Nat) : (t.pendTrap c pos k v aux n).accSick = t.accSick :=
  by unfold Team.pendTrap; split <;> rfl
@[simp] theorem pendTrap_mfmt (t : Team) (c : Col) (pos : Nat) (k : Cause) (v aux : Word) (n : Nat) : (t.pendTrap c pos k v aux n).mfmt = t.mfmt :=
  by unfold Team.pendTrap; split <;> rfl
@[simp] theorem pendTrap_mringA (t : Team) (c : Col) (pos : Nat) (k : Cause) (v aux : Word) (n : Nat) : (t.pendTrap c pos k v aux n).mringA = t.mringA :=
  by unfold Team.pendTrap; split <;> rfl
@[simp] theorem pendTrap_mringB (t : Team) (c : Col) (pos : Nat) (k : Cause) (v aux : Word) (n : Nat) : (t.pendTrap c pos k v aux n).mringB = t.mringB :=
  by unfold Team.pendTrap; split <;> rfl
@[simp] theorem pendTrap_mnest (t : Team) (c : Col) (pos : Nat) (k : Cause) (v aux : Word) (n : Nat) : (t.pendTrap c pos k v aux n).mnest = t.mnest :=
  by unfold Team.pendTrap; split <;> rfl
@[simp] theorem pendTrap_active (t : Team) (c : Col) (pos : Nat) (k : Cause) (v aux : Word) (n : Nat) : (t.pendTrap c pos k v aux n).active = t.active :=
  by unfold Team.pendTrap; split <;> rfl
@[simp] theorem pendTrap_rA (t : Team) (c : Col) (pos : Nat) (k : Cause) (v aux : Word) (n : Nat) : (t.pendTrap c pos k v aux n).rA = t.rA :=
  by unfold Team.pendTrap; split <;> rfl
@[simp] theorem pendTrap_rB (t : Team) (c : Col) (pos : Nat) (k : Cause) (v aux : Word) (n : Nat) : (t.pendTrap c pos k v aux n).rB = t.rB :=
  by unfold Team.pendTrap; split <;> rfl
@[simp] theorem pendTrap_engine (t : Team) (c : Col) (pos : Nat) (k : Cause) (v aux : Word) (n : Nat) : (t.pendTrap c pos k v aux n).engine = t.engine :=
  by unfold Team.pendTrap; split <;> rfl
@[simp] theorem pendTrap_engineFree (t : Team) (c : Col) (pos : Nat) (k : Cause) (v aux : Word) (n : Nat) : (t.pendTrap c pos k v aux n).engineFree = t.engineFree :=
  by unfold Team.pendTrap; split <;> rfl
@[simp] theorem pendTrap_plaitObs (t : Team) (c : Col) (pos : Nat) (k : Cause) (v aux : Word) (n : Nat) : (t.pendTrap c pos k v aux n).plaitObs = t.plaitObs :=
  by unfold Team.pendTrap; split <;> rfl
@[simp] theorem pendTrap_hidden (t : Team) (c : Col) (pos : Nat) (k : Cause) (v aux : Word) (n : Nat) : (t.pendTrap c pos k v aux n).hidden = t.hidden :=
  by unfold Team.pendTrap; split <;> rfl
@[simp] theorem pendTrap_inbound (t : Team) (c : Col) (pos : Nat) (k : Cause) (v aux : Word) (n : Nat) : (t.pendTrap c pos k v aux n).inbound = t.inbound :=
  by unfold Team.pendTrap; split <;> rfl
@[simp] theorem pendTrap_border (t : Team) (c : Col) (pos : Nat) (k : Cause) (v aux : Word) (n : Nat) : (t.pendTrap c pos k v aux n).border = t.border :=
  by unfold Team.pendTrap; split <;> rfl
@[simp] theorem pendTrap_inbox (t : Team) (c : Col) (pos : Nat) (k : Cause) (v aux : Word) (n : Nat) : (t.pendTrap c pos k v aux n).inbox = t.inbox :=
  by unfold Team.pendTrap; split <;> rfl
@[simp] theorem pendTrap_plaits (t : Team) (c : Col) (pos : Nat) (k : Cause) (v aux : Word) (n : Nat) : (t.pendTrap c pos k v aux n).plaits = t.plaits :=
  by unfold Team.pendTrap; split <;> rfl
@[simp] theorem pendTrap_copies (t : Team) (c : Col) (pos : Nat) (k : Cause) (v aux : Word) (n : Nat) : (t.pendTrap c pos k v aux n).copies = t.copies :=
  by unfold Team.pendTrap; split <;> rfl
@[simp] theorem pendTrap_xferFree (t : Team) (c : Col) (pos : Nat) (k : Cause) (v aux : Word) (n : Nat) : (t.pendTrap c pos k v aux n).xferFree = t.xferFree :=
  by unfold Team.pendTrap; split <;> rfl
@[simp] theorem pendTrap_advances (t : Team) (c : Col) (pos : Nat) (k : Cause) (v aux : Word) (n : Nat) : (t.pendTrap c pos k v aux n).advances = t.advances :=
  by unfold Team.pendTrap; split <;> rfl
@[simp] theorem pendTrap_cpx (t : Team) (c : Col) (pos : Nat) (k : Cause) (v aux : Word) (n : Nat) : (t.pendTrap c pos k v aux n).cpx = t.cpx :=
  by unfold Team.pendTrap; split <;> rfl
@[simp] theorem pendTrap_pend (t : Team) (c : Col) (pos : Nat) (k : Cause) (v aux : Word) (n : Nat) : (t.pendTrap c pos k v aux n).pend = t.pend :=
  by unfold Team.pendTrap; split <;> rfl
@[simp] theorem pendTrap_waiting (t : Team) (c : Col) (pos : Nat) (k : Cause) (v aux : Word) (n : Nat) : (t.pendTrap c pos k v aux n).waiting = t.waiting :=
  by unfold Team.pendTrap; split <;> rfl
@[simp] theorem pendTrap_lastPulse (t : Team) (c : Col) (pos : Nat) (k : Cause) (v aux : Word) (n : Nat) : (t.pendTrap c pos k v aux n).lastPulse = t.lastPulse :=
  by unfold Team.pendTrap; split <;> rfl
@[simp] theorem pendTrap_nextId (t : Team) (c : Col) (pos : Nat) (k : Cause) (v aux : Word) (n : Nat) : (t.pendTrap c pos k v aux n).nextId = t.nextId :=
  by unfold Team.pendTrap; split <;> rfl

/-! ## A team replaced -/

@[simp] theorem setTeam_now (s : State) (u : Team) : (s.setTeam u).now = s.now := rfl
@[simp] theorem setTeam_nsThirds (s : State) (u : Team) : (s.setTeam u).nsThirds = s.nsThirds := rfl
@[simp] theorem setTeam_nsOffset (s : State) (u : Team) : (s.setTeam u).nsOffset = s.nsOffset := rfl
@[simp] theorem setTeam_slew (s : State) (u : Team) : (s.setTeam u).slew = s.slew := rfl
@[simp] theorem setTeam_dies (s : State) (u : Team) : (s.setTeam u).dies = s.dies := rfl
@[simp] theorem setTeam_pcs (s : State) (u : Team) : (s.setTeam u).pcs = s.pcs := rfl
@[simp] theorem setTeam_mem (s : State) (u : Team) : (s.setTeam u).mem = s.mem := rfl
@[simp] theorem setTeam_memTaint (s : State) (u : Team) : (s.setTeam u).memTaint = s.memTaint := rfl
@[simp] theorem setTeam_poison (s : State) (u : Team) : (s.setTeam u).poison = s.poison := rfl
@[simp] theorem setTeam_recs (s : State) (u : Team) : (s.setTeam u).recs = s.recs := rfl
@[simp] theorem setTeam_l2 (s : State) (u : Team) : (s.setTeam u).l2 = s.l2 := rfl
@[simp] theorem setTeam_host (s : State) (u : Team) : (s.setTeam u).host = s.host := rfl
@[simp] theorem setTeam_mrs (s : State) (u : Team) : (s.setTeam u).mrs = s.mrs := rfl
@[simp] theorem setTeam_temps (s : State) (u : Team) : (s.setTeam u).temps = s.temps := rfl
@[simp] theorem setTeam_launches (s : State) (u : Team) : (s.setTeam u).launches = s.launches := rfl
@[simp] theorem setTeam_graphs (s : State) (u : Team) : (s.setTeam u).graphs = s.graphs := rfl
@[simp] theorem setTeam_jobs (s : State) (u : Team) : (s.setTeam u).jobs = s.jobs := rfl
@[simp] theorem setTeam_nextHandle (s : State) (u : Team) : (s.setTeam u).nextHandle = s.nextHandle := rfl
@[simp] theorem setTeam_nextOrder (s : State) (u : Team) : (s.setTeam u).nextOrder = s.nextOrder := rfl
@[simp] theorem setTeam_drainlim (s : State) (u : Team) : (s.setTeam u).drainlim = s.drainlim := rfl
@[simp] theorem setTeam_rsv (s : State) (u : Team) : (s.setTeam u).rsv = s.rsv := rfl
@[simp] theorem setTeam_ctxbase (s : State) (u : Team) : (s.setTeam u).ctxbase = s.ctxbase := rfl
@[simp] theorem setTeam_ctxlen (s : State) (u : Team) : (s.setTeam u).ctxlen = s.ctxlen := rfl
@[simp] theorem setTeam_vers (s : State) (u : Team) : (s.setTeam u).vers = s.vers := rfl
@[simp] theorem setTeam_jroot (s : State) (u : Team) : (s.setTeam u).jroot = s.jroot := rfl
@[simp] theorem setTeam_jid (s : State) (u : Team) : (s.setTeam u).jid = s.jid := rfl
@[simp] theorem setTeam_mbx (s : State) (u : Team) : (s.setTeam u).mbx = s.mbx := rfl
@[simp] theorem setTeam_queues (s : State) (u : Team) : (s.setTeam u).queues = s.queues := rfl
@[simp] theorem setTeam_xinv (s : State) (u : Team) : (s.setTeam u).xinv = s.xinv := rfl
@[simp] theorem setTeam_xinvva (s : State) (u : Team) : (s.setTeam u).xinvva = s.xinvva := rfl
@[simp] theorem setTeam_tlb (s : State) (u : Team) : (s.setTeam u).tlb = s.tlb := rfl
@[simp] theorem setTeam_wrows (s : State) (u : Team) : (s.setTeam u).wrows = s.wrows := rfl
@[simp] theorem setTeam_upsets (s : State) (u : Team) : (s.setTeam u).upsets = s.upsets := rfl
@[simp] theorem setTeam_obs (s : State) (u : Team) : (s.setTeam u).obs = s.obs := rfl
@[simp] theorem setTeam_traces (s : State) (u : Team) : (s.setTeam u).traces = s.traces := rfl
@[simp] theorem setTeam_dstop (s : State) (u : Team) : (s.setTeam u).dstop = s.dstop := rfl
@[simp] theorem setTeam_resets (s : State) (u : Team) : (s.setTeam u).resets = s.resets := rfl
@[simp] theorem setTeam_stale (s : State) (u : Team) : (s.setTeam u).stale = s.stale := rfl
@[simp] theorem setTeam_partners (s : State) (u : Team) : (s.setTeam u).partners = s.partners := rfl
@[simp] theorem setTeam_fabric (s : State) (u : Team) : (s.setTeam u).fabric = s.fabric := rfl
@[simp] theorem setTeam_nextReq (s : State) (u : Team) : (s.setTeam u).nextReq = s.nextReq := rfl
@[simp] theorem setTeam_linkIn (s : State) (u : Team) : (s.setTeam u).linkIn = s.linkIn := rfl
@[simp] theorem setTeam_linkOut (s : State) (u : Team) : (s.setTeam u).linkOut = s.linkOut := rfl
@[simp] theorem setTeam_hostData (s : State) (u : Team) : (s.setTeam u).hostData = s.hostData := rfl
@[simp] theorem setTeam_linkDrops (s : State) (u : Team) : (s.setTeam u).linkDrops = s.linkDrops := rfl
@[simp] theorem setTeam_msix (s : State) (u : Team) : (s.setTeam u).msix = s.msix := rfl
@[simp] theorem setTeam_kensia (s : State) (u : Team) : (s.setTeam u).kensia = s.kensia := rfl
@[simp] theorem setTeam_agenda (s : State) (u : Team) : (s.setTeam u).agenda = s.agenda := rfl
@[simp] theorem setTeam_inputs (s : State) (u : Team) : (s.setTeam u).inputs = s.inputs := rfl
@[simp] theorem setTeam_synced (s : State) (u : Team) : (s.setTeam u).synced = s.synced := rfl
@[simp] theorem setTeam_free (s : State) (u : Team) : (s.setTeam u).free = s.free := rfl
@[simp] theorem setTeam_cur (s : State) (u : Team) : (s.setTeam u).cur = s.cur := rfl

/-! ## The state at an issue -/

@[simp] theorem atIssue_now (s : State) (u : Team) : (s.atIssue u).now = s.now := rfl
@[simp] theorem atIssue_nsThirds (s : State) (u : Team) : (s.atIssue u).nsThirds = s.nsThirds := rfl
@[simp] theorem atIssue_nsOffset (s : State) (u : Team) : (s.atIssue u).nsOffset = s.nsOffset := rfl
@[simp] theorem atIssue_slew (s : State) (u : Team) : (s.atIssue u).slew = s.slew := rfl
@[simp] theorem atIssue_dies (s : State) (u : Team) : (s.atIssue u).dies = s.dies := rfl
@[simp] theorem atIssue_teams (s : State) (u : Team) : (s.atIssue u).teams = s.teams := rfl
@[simp] theorem atIssue_pcs (s : State) (u : Team) : (s.atIssue u).pcs = s.pcs := rfl
@[simp] theorem atIssue_mem (s : State) (u : Team) : (s.atIssue u).mem = s.mem := rfl
@[simp] theorem atIssue_memTaint (s : State) (u : Team) : (s.atIssue u).memTaint = s.memTaint := rfl
@[simp] theorem atIssue_poison (s : State) (u : Team) : (s.atIssue u).poison = s.poison := rfl
@[simp] theorem atIssue_recs (s : State) (u : Team) : (s.atIssue u).recs = s.recs := rfl
@[simp] theorem atIssue_l2 (s : State) (u : Team) : (s.atIssue u).l2 = s.l2 := rfl
@[simp] theorem atIssue_host (s : State) (u : Team) : (s.atIssue u).host = s.host := rfl
@[simp] theorem atIssue_mrs (s : State) (u : Team) : (s.atIssue u).mrs = s.mrs := rfl
@[simp] theorem atIssue_temps (s : State) (u : Team) : (s.atIssue u).temps = s.temps := rfl
@[simp] theorem atIssue_launches (s : State) (u : Team) : (s.atIssue u).launches = s.launches := rfl
@[simp] theorem atIssue_graphs (s : State) (u : Team) : (s.atIssue u).graphs = s.graphs := rfl
@[simp] theorem atIssue_jobs (s : State) (u : Team) : (s.atIssue u).jobs = s.jobs := rfl
@[simp] theorem atIssue_nextHandle (s : State) (u : Team) : (s.atIssue u).nextHandle = s.nextHandle := rfl
@[simp] theorem atIssue_nextOrder (s : State) (u : Team) : (s.atIssue u).nextOrder = s.nextOrder := rfl
@[simp] theorem atIssue_drainlim (s : State) (u : Team) : (s.atIssue u).drainlim = s.drainlim := rfl
@[simp] theorem atIssue_rsv (s : State) (u : Team) : (s.atIssue u).rsv = s.rsv := rfl
@[simp] theorem atIssue_ctxbase (s : State) (u : Team) : (s.atIssue u).ctxbase = s.ctxbase := rfl
@[simp] theorem atIssue_ctxlen (s : State) (u : Team) : (s.atIssue u).ctxlen = s.ctxlen := rfl
@[simp] theorem atIssue_vers (s : State) (u : Team) : (s.atIssue u).vers = s.vers := rfl
@[simp] theorem atIssue_jroot (s : State) (u : Team) : (s.atIssue u).jroot = s.jroot := rfl
@[simp] theorem atIssue_jid (s : State) (u : Team) : (s.atIssue u).jid = s.jid := rfl
@[simp] theorem atIssue_mbx (s : State) (u : Team) : (s.atIssue u).mbx = s.mbx := rfl
@[simp] theorem atIssue_queues (s : State) (u : Team) : (s.atIssue u).queues = s.queues := rfl
@[simp] theorem atIssue_xinv (s : State) (u : Team) : (s.atIssue u).xinv = s.xinv := rfl
@[simp] theorem atIssue_xinvva (s : State) (u : Team) : (s.atIssue u).xinvva = s.xinvva := rfl
@[simp] theorem atIssue_tlb (s : State) (u : Team) : (s.atIssue u).tlb = s.tlb := rfl
@[simp] theorem atIssue_wrows (s : State) (u : Team) : (s.atIssue u).wrows = s.wrows := rfl
@[simp] theorem atIssue_upsets (s : State) (u : Team) : (s.atIssue u).upsets = s.upsets := rfl
@[simp] theorem atIssue_obs (s : State) (u : Team) : (s.atIssue u).obs = s.obs := rfl
@[simp] theorem atIssue_traces (s : State) (u : Team) : (s.atIssue u).traces = s.traces := rfl
@[simp] theorem atIssue_dstop (s : State) (u : Team) : (s.atIssue u).dstop = s.dstop := rfl
@[simp] theorem atIssue_resets (s : State) (u : Team) : (s.atIssue u).resets = s.resets := rfl
@[simp] theorem atIssue_stale (s : State) (u : Team) : (s.atIssue u).stale = s.stale := rfl
@[simp] theorem atIssue_partners (s : State) (u : Team) : (s.atIssue u).partners = s.partners := rfl
@[simp] theorem atIssue_fabric (s : State) (u : Team) : (s.atIssue u).fabric = s.fabric := rfl
@[simp] theorem atIssue_nextReq (s : State) (u : Team) : (s.atIssue u).nextReq = s.nextReq := rfl
@[simp] theorem atIssue_linkIn (s : State) (u : Team) : (s.atIssue u).linkIn = s.linkIn := rfl
@[simp] theorem atIssue_linkOut (s : State) (u : Team) : (s.atIssue u).linkOut = s.linkOut := rfl
@[simp] theorem atIssue_hostData (s : State) (u : Team) : (s.atIssue u).hostData = s.hostData := rfl
@[simp] theorem atIssue_linkDrops (s : State) (u : Team) : (s.atIssue u).linkDrops = s.linkDrops := rfl
@[simp] theorem atIssue_msix (s : State) (u : Team) : (s.atIssue u).msix = s.msix := rfl
@[simp] theorem atIssue_kensia (s : State) (u : Team) : (s.atIssue u).kensia = s.kensia := rfl
@[simp] theorem atIssue_agenda (s : State) (u : Team) : (s.atIssue u).agenda = s.agenda := rfl
@[simp] theorem atIssue_inputs (s : State) (u : Team) : (s.atIssue u).inputs = s.inputs := rfl
@[simp] theorem atIssue_synced (s : State) (u : Team) : (s.atIssue u).synced = s.synced := rfl
@[simp] theorem atIssue_free (s : State) (u : Team) : (s.atIssue u).free = s.free := rfl

/-! ## A pseudo-channel replaced -/

@[simp] theorem setPc_now (s : State) (p : Pc) : (s.setPc p).now = s.now := rfl
@[simp] theorem setPc_nsThirds (s : State) (p : Pc) : (s.setPc p).nsThirds = s.nsThirds := rfl
@[simp] theorem setPc_nsOffset (s : State) (p : Pc) : (s.setPc p).nsOffset = s.nsOffset := rfl
@[simp] theorem setPc_slew (s : State) (p : Pc) : (s.setPc p).slew = s.slew := rfl
@[simp] theorem setPc_dies (s : State) (p : Pc) : (s.setPc p).dies = s.dies := rfl
@[simp] theorem setPc_teams (s : State) (p : Pc) : (s.setPc p).teams = s.teams := rfl
@[simp] theorem setPc_mem (s : State) (p : Pc) : (s.setPc p).mem = s.mem := rfl
@[simp] theorem setPc_memTaint (s : State) (p : Pc) : (s.setPc p).memTaint = s.memTaint := rfl
@[simp] theorem setPc_poison (s : State) (p : Pc) : (s.setPc p).poison = s.poison := rfl
@[simp] theorem setPc_recs (s : State) (p : Pc) : (s.setPc p).recs = s.recs := rfl
@[simp] theorem setPc_l2 (s : State) (p : Pc) : (s.setPc p).l2 = s.l2 := rfl
@[simp] theorem setPc_host (s : State) (p : Pc) : (s.setPc p).host = s.host := rfl
@[simp] theorem setPc_mrs (s : State) (p : Pc) : (s.setPc p).mrs = s.mrs := rfl
@[simp] theorem setPc_temps (s : State) (p : Pc) : (s.setPc p).temps = s.temps := rfl
@[simp] theorem setPc_launches (s : State) (p : Pc) : (s.setPc p).launches = s.launches := rfl
@[simp] theorem setPc_graphs (s : State) (p : Pc) : (s.setPc p).graphs = s.graphs := rfl
@[simp] theorem setPc_jobs (s : State) (p : Pc) : (s.setPc p).jobs = s.jobs := rfl
@[simp] theorem setPc_nextHandle (s : State) (p : Pc) : (s.setPc p).nextHandle = s.nextHandle := rfl
@[simp] theorem setPc_nextOrder (s : State) (p : Pc) : (s.setPc p).nextOrder = s.nextOrder := rfl
@[simp] theorem setPc_drainlim (s : State) (p : Pc) : (s.setPc p).drainlim = s.drainlim := rfl
@[simp] theorem setPc_rsv (s : State) (p : Pc) : (s.setPc p).rsv = s.rsv := rfl
@[simp] theorem setPc_ctxbase (s : State) (p : Pc) : (s.setPc p).ctxbase = s.ctxbase := rfl
@[simp] theorem setPc_ctxlen (s : State) (p : Pc) : (s.setPc p).ctxlen = s.ctxlen := rfl
@[simp] theorem setPc_vers (s : State) (p : Pc) : (s.setPc p).vers = s.vers := rfl
@[simp] theorem setPc_jroot (s : State) (p : Pc) : (s.setPc p).jroot = s.jroot := rfl
@[simp] theorem setPc_jid (s : State) (p : Pc) : (s.setPc p).jid = s.jid := rfl
@[simp] theorem setPc_mbx (s : State) (p : Pc) : (s.setPc p).mbx = s.mbx := rfl
@[simp] theorem setPc_queues (s : State) (p : Pc) : (s.setPc p).queues = s.queues := rfl
@[simp] theorem setPc_xinv (s : State) (p : Pc) : (s.setPc p).xinv = s.xinv := rfl
@[simp] theorem setPc_xinvva (s : State) (p : Pc) : (s.setPc p).xinvva = s.xinvva := rfl
@[simp] theorem setPc_tlb (s : State) (p : Pc) : (s.setPc p).tlb = s.tlb := rfl
@[simp] theorem setPc_wrows (s : State) (p : Pc) : (s.setPc p).wrows = s.wrows := rfl
@[simp] theorem setPc_upsets (s : State) (p : Pc) : (s.setPc p).upsets = s.upsets := rfl
@[simp] theorem setPc_obs (s : State) (p : Pc) : (s.setPc p).obs = s.obs := rfl
@[simp] theorem setPc_traces (s : State) (p : Pc) : (s.setPc p).traces = s.traces := rfl
@[simp] theorem setPc_dstop (s : State) (p : Pc) : (s.setPc p).dstop = s.dstop := rfl
@[simp] theorem setPc_resets (s : State) (p : Pc) : (s.setPc p).resets = s.resets := rfl
@[simp] theorem setPc_stale (s : State) (p : Pc) : (s.setPc p).stale = s.stale := rfl
@[simp] theorem setPc_partners (s : State) (p : Pc) : (s.setPc p).partners = s.partners := rfl
@[simp] theorem setPc_fabric (s : State) (p : Pc) : (s.setPc p).fabric = s.fabric := rfl
@[simp] theorem setPc_nextReq (s : State) (p : Pc) : (s.setPc p).nextReq = s.nextReq := rfl
@[simp] theorem setPc_linkIn (s : State) (p : Pc) : (s.setPc p).linkIn = s.linkIn := rfl
@[simp] theorem setPc_linkOut (s : State) (p : Pc) : (s.setPc p).linkOut = s.linkOut := rfl
@[simp] theorem setPc_hostData (s : State) (p : Pc) : (s.setPc p).hostData = s.hostData := rfl
@[simp] theorem setPc_linkDrops (s : State) (p : Pc) : (s.setPc p).linkDrops = s.linkDrops := rfl
@[simp] theorem setPc_msix (s : State) (p : Pc) : (s.setPc p).msix = s.msix := rfl
@[simp] theorem setPc_kensia (s : State) (p : Pc) : (s.setPc p).kensia = s.kensia := rfl
@[simp] theorem setPc_agenda (s : State) (p : Pc) : (s.setPc p).agenda = s.agenda := rfl
@[simp] theorem setPc_inputs (s : State) (p : Pc) : (s.setPc p).inputs = s.inputs := rfl
@[simp] theorem setPc_synced (s : State) (p : Pc) : (s.setPc p).synced = s.synced := rfl
@[simp] theorem setPc_free (s : State) (p : Pc) : (s.setPc p).free = s.free := rfl
@[simp] theorem setPc_cur (s : State) (p : Pc) : (s.setPc p).cur = s.cur := rfl

/-! ## Registers, clocks and columns of an updated team -/

@[simp] theorem past_getS (s : State) (t : Team) (n : Nat) (r : SReg) : (s.past t n).getS r = t.getS r := by simp [Team.getS]
@[simp] theorem past_getA (s : State) (t : Team) (n : Nat) (r : AReg) : (s.past t n).getA r = t.getA r := by simp [Team.getA]
@[simp] theorem past_getK (s : State) (t : Team) (n : Nat) (r : BitVec 3) : (s.past t n).getK r = t.getK r := by simp [Team.getK]
@[simp] theorem seen_getS (t : Team) (cx : Cur) (r : SReg) : (t.seen cx).getS r = t.getS r := by simp [Team.getS]
@[simp] theorem seen_getA (t : Team) (cx : Cur) (r : AReg) : (t.seen cx).getA r = t.getA r := by simp [Team.getA]
@[simp] theorem seen_getK (t : Team) (cx : Cur) (r : BitVec 3) : (t.seen cx).getK r = t.getK r := by simp [Team.getK]
@[simp] theorem seen_col (t : Team) (cx : Cur) (c : Col) : (t.seen cx).col c = t.col c := by simp [Team.col]
@[simp] theorem acquire_col (t : Team) (c d : Col) : (t.acquire c).col d = t.col d := by simp [Team.col]
@[simp] theorem past_clock (s : State) (t : Team) (n : Nat) (c : Col) : (s.past t n).clock c = t.clock c := by
  simp [Team.clock, Team.inSvc]
@[simp] theorem past_inSvc (s : State) (t : Team) (n : Nat) (c : Col) : (s.past t n).inSvc c = t.inSvc c := by simp [Team.inSvc]
@[simp] theorem seen_clock (t : Team) (cx : Cur) (c : Col) : (t.seen cx).clock c = t.clock c := by simp [Team.clock, Team.inSvc]
@[simp] theorem seen_inSvc (t : Team) (cx : Cur) (c : Col) : (t.seen cx).inSvc c = t.inSvc c := by simp [Team.inSvc]
@[simp] theorem seen_busy (t : Team) (cx : Cur) (c : Col) (l : List RName) : (t.seen cx).busy c l = t.busy c l := by
  simp [Team.busy, Team.inSvc]
@[simp] theorem atIssue_team (s : State) (t : Team) (n : Nat) : (s.atIssue t).team n = s.team n := rfl
@[simp] theorem atIssue_cur (s : State) (t : Team) : (s.atIssue t).cur = s.curAt t := rfl
@[simp] theorem atIssue_beatOf (s : State) (t u : Team) : (s.atIssue t).beatOf u = s.beatOf u := rfl
@[simp] theorem curAt_cid (s : State) (t : Team) : (s.curAt t).cid = s.cur.cid := rfl
@[simp] theorem curAt_col (s : State) (t : Team) : (s.curAt t).col = s.cur.col := rfl
@[simp] theorem curAt_pos (s : State) (t : Team) : (s.curAt t).pos = s.cur.pos := rfl
@[simp] theorem curAt_wait (s : State) (t : Team) : (s.curAt t).wait = s.cur.wait := rfl
@[simp] theorem curAt_signal (s : State) (t : Team) : (s.curAt t).signal = s.cur.signal := rfl
@[simp] theorem curAt_word (s : State) (t : Team) : (s.curAt t).word = s.cur.word := rfl
@[simp] theorem curAt_phase (s : State) (t : Team) : (s.curAt t).phase = s.cur.phase := rfl
@[simp] theorem curAt_nul (s : State) (t : Team) : (s.curAt t).nul = s.cur.nul := rfl
@[simp] theorem curAt_id (s : State) (t : Team) : (s.curAt t).id = s.cur.id := rfl
@[simp] theorem curAt_args (s : State) (t : Team) : (s.curAt t).args = s.cur.args := rfl
@[simp] theorem curAt_loops (s : State) (t : Team) : (s.curAt t).loops = s.cur.loops := rfl
@[simp] theorem curAt_timed (s : State) (t : Team) : (s.curAt t).timed = s.cur.timed := rfl
@[simp] theorem curAt_issued (s : State) (t : Team) : (s.curAt t).issued = t.clock s.cur.col := rfl

end Sys2Proof.Machine
end

