-- ==== Sys2Proof/Laws/Checks.lean ====
section
/-! SUPPORT. What a check event can change: the logs and marks of Kensia, HEALTH, the messages it sends and the agenda; an event of memory
also the poison and the upsets; and the events of a beat the list of what each team has found (R433 to R438). -/

namespace Sys2Proof.Machine

/-- Two states that differ at most in Kensia's logs, marks and HEALTH, in messages, the agenda, poison, upsets and teams. -/
def SameButChecks (s s' : State) : Prop :=
  ∃ (l : List (List Word)) (c : Nat × Nat) (n : Nat) (e : List (UnitId × Nat × Nat)) (m : List (UnitId × Nat × Nat)) (h : Word)
    (x : List Nat) (a : List Pend) (p : List Nat) (u : List Upset) (t : List Team), s' = { s with
      kensia := { s.kensia with checkLog := l, clogNew := c, clogTail := n, events := e, marks := m, health := h }, msix := x, agenda := a,
      poison := p, upsets := u, teams := t }

theorem SameButChecks.refl (s : State) : SameButChecks s s := ⟨_, _, _, _, _, _, _, _, _, _, _, rfl⟩

theorem SameButChecks.trans {s t u : State} (h : SameButChecks s t) (k : SameButChecks t u) : SameButChecks s u := by
  obtain ⟨_, _, _, _, _, _, _, _, _, _, _, rfl⟩ := h
  obtain ⟨_, _, _, _, _, _, _, _, _, _, _, rfl⟩ := k
  exact ⟨_, _, _, _, _, _, _, _, _, _, _, rfl⟩

theorem SameButChecks.ite {s t u : State} {c : Prop} [Decidable c] (h : SameButChecks s t) (k : SameButChecks s u) :
    SameButChecks s (if c then t else u) := by split <;> assumption

theorem SameButChecks.foldl {α : Type} {f : State → α → State} (h : ∀ s x, SameButChecks s (f s x)) :
    ∀ (l : List α) (s : State), SameButChecks s (l.foldl f s)
  | [], s => .refl s
  | x :: l, s => (h s x).trans (SameButChecks.foldl h l (f s x))

/-- A mark changes no team, poison or upset. -/
theorem mark_same (s : State) (u : UnitId) (k : Nat) :
    SameButChecks s (s.mark u k) ∧ (s.mark u k).teams = s.teams ∧ (s.mark u k).poison = s.poison ∧ (s.mark u k).upsets = s.upsets := by
  unfold State.mark
  split
  · exact ⟨.refl s, rfl, rfl, rfl⟩
  · dsimp only
    split
    · exact ⟨⟨_, _, _, _, _, _, _, _, _, _, _, rfl⟩, rfl, rfl, rfl⟩
    · split <;> exact ⟨⟨_, _, _, _, _, _, _, _, _, _, _, rfl⟩, rfl, rfl, rfl⟩

/-- A record more in the check log. -/
theorem logged_same (s : State) (c : Nat × Nat) (l : List (List Word)) (n : Nat) (e : List (UnitId × Nat × Nat)) :
    SameButChecks s { s with kensia := { s.kensia with clogNew := c, checkLog := l, clogTail := n, events := e } } :=
  ⟨_, _, _, _, _, _, _, _, _, _, _, rfl⟩

/-- A check event changes no team, poison or upset. -/
theorem checkEvent_same (s : State) (u : UnitId) (k : Nat) (t : Option Team) (g r : Nat) :
    SameButChecks s (s.checkEvent u k t g r) ∧ (s.checkEvent u k t g r).teams = s.teams ∧ (s.checkEvent u k t g r).poison = s.poison ∧
      (s.checkEvent u k t g r).upsets = s.upsets := by
  have key : ∀ (c : Prop) [Decidable c] (b : State), SameButChecks s b → b.teams = s.teams → b.poison = s.poison → b.upsets = s.upsets →
      SameButChecks s (if c then b.mark u k else b) ∧ (if c then b.mark u k else b).teams = s.teams ∧
        (if c then b.mark u k else b).poison = s.poison ∧ (if c then b.mark u k else b).upsets = s.upsets := by
    intro c _ b h1 h2 h3 h4
    obtain ⟨m1, m2, m3, m4⟩ := mark_same b u k
    split
    · exact ⟨h1.trans m1, m2.trans h2, m3.trans h3, m4.trans h4⟩
    · exact ⟨h1, h2, h3, h4⟩
  unfold State.checkEvent
  dsimp only
  exact key _ _ (logged_same s _ _ _ _) rfl rfl rfl

/-- Other poison and upsets. -/
theorem cured_same (s : State) (p : List Nat) (u : List Upset) : SameButChecks s { s with poison := p, upsets := u } :=
  ⟨_, _, _, _, _, _, _, _, _, _, _, rfl⟩

/-- An event of memory changes no team. -/
theorem memEvent_same (s : State) (t : Option Team) (k u : Nat) : SameButChecks s (s.memEvent t k u) ∧ (s.memEvent t k u).teams = s.teams := by
  unfold State.memEvent
  dsimp only [State.cured]
  exact ⟨(cured_same s _ _).trans (checkEvent_same _ _ _ _ _ _).1, (checkEvent_same _ _ _ _ _ _).2.1⟩

/-- A corrected read changes no team. -/
theorem corrected_same (s : State) (t : Option Team) (pa n : Nat) :
    SameButChecks s (s.corrected t pa n) ∧ (s.corrected t pa n).teams = s.teams := by
  have key : ∀ (l : List Upset) (s : State), SameButChecks s (l.foldl (fun s u => s.memEvent t (if u.place = 7 then 0x20 else 0x10) u.id) s) ∧
      (l.foldl (fun s u => State.memEvent s t (if u.place = 7 then 0x20 else 0x10) u.id) s).teams = s.teams := by
    intro l
    induction l with
    | nil => exact fun s => ⟨.refl s, rfl⟩
    | cons u l ih =>
      intro s
      have h := memEvent_same s t (if u.place = 7 then 0x20 else 0x10) u.id
      exact ⟨h.1.trans (ih _).1, (ih _).2.trans h.2⟩
  unfold State.corrected
  split
  · exact ⟨.refl s, rfl⟩
  · exact key _ s

/-- With no upset pending a read of memory corrects nothing. -/
theorem corrected_sound {s : State} (h : s.upsets = []) (t : Option Team) (pa n : Nat) : s.corrected t pa n = s := by
  unfold State.corrected
  split
  · rfl
  · simp [h]

/-- An event of ECC changes no team. -/
theorem eccEvent_same (s : State) (t : Team) (e : Nat × Nat) : SameButChecks s (s.eccEvent t e) ∧ (s.eccEvent t e).teams = s.teams := by
  unfold State.eccEvent
  split
  · exact ⟨(checkEvent_same ..).1, (checkEvent_same ..).2.1⟩
  · exact memEvent_same ..

/-- THE EVENTS OF ECC OF A BEAT change only what check events change, and what the teams have found. -/
theorem eccEvents_same (s : State) : SameButChecks s s.eccEvents := by
  unfold State.eccEvents
  refine SameButChecks.foldl (fun s t => ?_) _ _
  have h := SameButChecks.foldl (fun s e => (eccEvent_same s t e).1) (t.found ++ t.fetchEcc) s
  exact .ite (.refl s) (h.trans ⟨_, _, _, _, _, _, _, _, _, _, _, rfl⟩)

end Sys2Proof.Machine
end

