-- ==== Sys2Proof/Laws/Memory.lean ====
section
/-! SUPPORT. The laws of byte memories: every operation keeps the canonical form, a byte written reads back, and the
other bytes stay. -/

namespace Sys2Proof.Machine

/-- The canonical form, with every address at or above a bound. -/
def memFrom : Nat → List Host.Cell → Prop
  | _, [] => True
  | a, c :: m => a ≤ c.1 ∧ c.2 ≠ 0 ∧ memFrom (c.1 + 1) m

theorem memFrom_mono {a b : Nat} (h : b ≤ a) : ∀ {m : List Host.Cell}, memFrom a m → memFrom b m
  | [], _ => trivial
  | _ :: _, ⟨h1, h2, h3⟩ => ⟨Nat.le_trans h h1, h2, h3⟩

theorem wf_iff_memFrom : ∀ m : List Host.Cell, Memory.wf m = true ↔ memFrom 0 m
  | [] => by simp [Memory.wf, memFrom]
  | [c] => by simp [Memory.wf, memFrom]
  | c :: d :: m => by
    have ih := wf_iff_memFrom (d :: m)
    simp only [memFrom, Nat.zero_le, true_and] at ih
    simp only [Memory.wf, Bool.and_eq_true, bne_iff_ne, decide_eq_true_eq, ih, memFrom, Nat.zero_le, true_and]
    constructor
    · rintro ⟨⟨h1, h2⟩, h3, h4⟩; exact ⟨h1, h2, h3, h4⟩
    · rintro ⟨h1, h2, h3, h4⟩; exact ⟨⟨h1, h2⟩, h3, h4⟩

theorem readByte_below {a b : Nat} (h : b < a) : ∀ {m : List Host.Cell}, memFrom a m → readByte m b = 0
  | [], _ => rfl
  | c :: m, ⟨h1, _, _⟩ => by
    have h2 : c.1 ≠ b := by omega
    have h3 : b < c.1 := by omega
    simp [readByte, h2, h3]

theorem writeByte_from (x : Byte) : ∀ {m : List Host.Cell} {lo a : Nat}, memFrom lo m → lo ≤ a → memFrom lo (writeByte m a x)
  | [], lo, a, _, h => by
    unfold writeByte; split
    · trivial
    · exact ⟨h, ‹_›, trivial⟩
  | c :: m, lo, a, ⟨h1, h2, h3⟩, h => by
    unfold writeByte
    split
    · exact ⟨h1, h2, writeByte_from x h3 (by omega)⟩
    · split
      · split
        · exact memFrom_mono (by omega) h3
        · rename_i hc hx; exact ⟨h, hx, by rw [← hc]; exact h3⟩
      · split
        · exact ⟨h1, h2, h3⟩
        · rename_i hx; exact ⟨h, hx, by omega, h2, h3⟩

/-- A byte written reads back, and every other byte stays. -/
theorem readByte_writeByte (x : Byte) (b : Nat) : ∀ {m : List Host.Cell} {lo a : Nat}, memFrom lo m →
    readByte (writeByte m a x) b = if b = a then x else readByte m b
  | [], _, a, _ => by
    have hba : (a = b) = (b = a) := propext ⟨Eq.symm, Eq.symm⟩
    by_cases hx : x = 0
    · subst hx; simp [writeByte, readByte]
    · have h1 : writeByte [] a x = [(a, x)] := if_neg hx
      simp only [h1, readByte, hba]
      by_cases hb : b = a <;> simp [hb]
  | c :: m, lo, a, ⟨h1, h2, h3⟩ => by
    unfold writeByte
    split
    · rename_i hca
      simp only [readByte, readByte_writeByte x b h3]
      by_cases hcb : c.1 = b
      · have : b ≠ a := by omega
        simp [hcb, this]
      · by_cases hlt : b < c.1
        · have : b ≠ a := by omega
          simp [hcb, hlt, this]
        · simp [hcb, hlt]
    · split
      · rename_i hn hc
        split
        · rename_i hx
          by_cases hb : b = a
          · subst hb; simp [hx, readByte_below (Nat.lt_succ_self b) (hc ▸ h3)]
          · by_cases hlt : b < c.1
            · have : c.1 ≠ b := by omega
              simp [readByte, hb, hlt, this, readByte_below (by omega : b < c.1 + 1) h3]
            · have : c.1 ≠ b := by omega
              simp [readByte, hb, hlt, this]
        · by_cases hb : b = a
          · simp [readByte, hb]
          · have h4 : ¬ a = b := fun h => hb h.symm
            simp [readByte, hb, h4, hc]
      · rename_i hn hc
        have hac : a < c.1 := by omega
        split
        · rename_i hx
          by_cases hb : b = a
          · have : c.1 ≠ b := by omega
            subst hb; simp [readByte, hx, this, hac]
          · simp [hb]
        · by_cases hb : b = a
          · simp [readByte, hb]
          · have h4 : ¬ a = b := fun h => hb h.symm
            by_cases hlt : b < a
            · have h5 : c.1 ≠ b := by omega
              have h6 : b < c.1 := by omega
              simp [readByte, hb, h4, hlt, h5, h6]
            · simp [readByte, hb, h4, hlt]

/-- WRITING A BYTE keeps the canonical form. -/
theorem wf_writeByte {m : List Host.Cell} (h : Memory.wf m = true) (a : Nat) (x : Byte) : Memory.wf (writeByte m a x) = true :=
  (wf_iff_memFrom _).2 (writeByte_from x ((wf_iff_memFrom _).1 h) (Nat.zero_le a))

/-- The byte at an address after a write. -/
theorem read_writeByte {m : List Host.Cell} (h : Memory.wf m = true) (a b : Nat) (x : Byte) :
    readByte (writeByte m a x) b = if b = a then x else readByte m b :=
  readByte_writeByte x b ((wf_iff_memFrom _).1 h)

/-- WRITING A NUMBER keeps the canonical form. -/
theorem wf_writeNat : ∀ (n : Nat) {m : List Host.Cell} (a x : Nat), Memory.wf m = true → Memory.wf (writeNat m a x n) = true
  | 0, _, _, _, h => h
  | n + 1, _, a, x, h => wf_writeNat n (a + 1) (x / 256) (wf_writeByte h a _)

/-- A byte after a number is written: inside its bytes the number's, outside as before. -/
theorem read_writeNat : ∀ (n : Nat) {m : List Host.Cell} (a x b : Nat), Memory.wf m = true →
    readByte (writeNat m a x n) b = if a ≤ b ∧ b < a + n then BitVec.ofNat 8 (x / 256 ^ (b - a)) else readByte m b
  | 0, m, a, x, b, _ => by rw [if_neg (by omega)]; rfl
  | n + 1, m, a, x, b, h => by
    rw [writeNat, read_writeNat n _ _ b (wf_writeByte h a _), read_writeByte h]
    by_cases h1 : b = a
    · subst h1
      have h2 : ¬ (b + 1 ≤ b ∧ b < b + 1 + n) := by omega
      simp only [h2, if_false]; simp
    · by_cases h2 : a + 1 ≤ b ∧ b < a + 1 + n
      · have h3 : a ≤ b ∧ b < a + (n + 1) := by omega
        have h4 : b - a = (b - (a + 1)) + 1 := by omega
        simp only [h2, and_self, if_true, h3]
        rw [h4, Nat.pow_succ, Nat.mul_comm, ← Nat.div_div_eq_div_mul]
      · have h3 : ¬ (a ≤ b ∧ b < a + (n + 1)) := by omega
        simp only [h2, h3, if_false, h1]

/-- WRITING BYTES keeps the canonical form. -/
theorem wf_writeBytes : ∀ (l : List (Option Byte)) {m : List Host.Cell} (a : Nat), Memory.wf m = true → Memory.wf (writeBytes m a l) = true
  | [], _, _, h => h
  | some _ :: l, _, a, h => wf_writeBytes l (a + 1) (wf_writeByte h a _)
  | none :: l, _, a, h => wf_writeBytes l (a + 1) h

/-- Writing cells one by one keeps the canonical form. -/
theorem wf_foldl_writeByte {α : Type} (f : α → Nat × Byte) : ∀ (l : List α) {m : List Host.Cell}, Memory.wf m = true →
    Memory.wf (l.foldl (fun m c => writeByte m (f c).1 (f c).2) m) = true
  | [], _, h => h
  | _ :: l, _, h => wf_foldl_writeByte f l (wf_writeByte h _ _)

theorem filter_from (p : Host.Cell → Bool) : ∀ {m : List Host.Cell} {a : Nat}, memFrom a m → memFrom a (m.filter p)
  | [], _, _ => trivial
  | c :: m, a, ⟨h1, h2, h3⟩ => by
    rw [List.filter_cons]; split
    · exact ⟨h1, h2, filter_from p h3⟩
    · exact memFrom_mono (by omega) (filter_from p h3)

/-- TAKING CELLS OUT keeps the canonical form. -/
theorem wf_filter {m : List Host.Cell} (h : Memory.wf m = true) (p : Host.Cell → Bool) : Memory.wf (m.filter p) = true :=
  (wf_iff_memFrom _).2 (filter_from p ((wf_iff_memFrom _).1 h))

/-- CLEARING A RANGE keeps the canonical form. -/
theorem wf_clearRange {m : List Host.Cell} (h : Memory.wf m = true) (lo hi : Nat) : Memory.wf (clearRange m lo hi) = true := wf_filter h _

theorem append_from : ∀ {m n : List Host.Cell} {a b : Nat}, memFrom a m → (∀ c ∈ m, c.1 < b) → a ≤ b → memFrom b n → memFrom a (m ++ n)
  | [], _, _, _, _, _, hab, hn => memFrom_mono hab hn
  | c :: m, _, _, _, ⟨h1, h2, h3⟩, hb, _, hn =>
    ⟨h1, h2, append_from h3 (fun d hd => hb d (List.mem_cons_of_mem _ hd)) (hb c List.mem_cons_self) hn⟩

theorem cellsFrom_from : ∀ (l : List Byte) (a : Nat), memFrom a (cellsFrom a l) ∧ ∀ c ∈ cellsFrom a l, c.1 < a + l.length
  | [], _ => ⟨trivial, by simp [cellsFrom]⟩
  | b :: l, a => by
    obtain ⟨h1, h2⟩ := cellsFrom_from l (a + 1)
    unfold cellsFrom; split
    · exact ⟨memFrom_mono (by omega) h1, fun c hc => by have := h2 c hc; simp only [List.length_cons]; omega⟩
    · refine ⟨⟨Nat.le_refl _, ‹_›, h1⟩, fun c hc => ?_⟩
      rcases List.mem_cons.1 hc with rfl | hc
      · simp
      · have := h2 c hc; simp only [List.length_cons]; omega

theorem filter_ge_from : ∀ {m : List Host.Cell} {a : Nat} (b : Nat), memFrom a m → memFrom b (m.filter fun c => decide (b ≤ c.1))
  | [], _, _, _ => trivial
  | c :: m, a, b, ⟨_, h2, h3⟩ => by
    rw [List.filter_cons]; split
    · rename_i h; simp only [decide_eq_true_eq] at h
      exact ⟨h, h2, filter_from _ h3⟩
    · exact filter_ge_from b h3

/-- LAYING BYTES keeps the canonical form. -/
theorem wf_layBytes {m : List Host.Cell} (h : Memory.wf m = true) (a : Nat) (l : List Byte) : Memory.wf (layBytes m a l) = true := by
  have hm := (wf_iff_memFrom _).1 h
  obtain ⟨h1, h2⟩ := cellsFrom_from l a
  refine (wf_iff_memFrom _).2 (append_from (b := a + l.length) (append_from (b := a) (filter_from _ hm) ?_ (Nat.zero_le _) h1) ?_
    (Nat.zero_le _) (filter_ge_from _ hm))
  · intro c hc; simpa using (List.mem_filter.1 hc).2
  · intro c hc
    rcases List.mem_append.1 hc with hc | hc
    · have : c.1 < a := by simpa using (List.mem_filter.1 hc).2
      omega
    · exact h2 c hc

/-- The memories of the powered-off module are in canonical form. -/
theorem wf_reset : Memory.wf State.reset.mem = true ∧ Memory.wf State.reset.host = true := ⟨rfl, rfl⟩

end Sys2Proof.Machine
end

