-- ==== Sys2Proof/Laws/PerInstr.lean ====
section
/-! SUPPORT. Statements made one constructor at a time; LAWS.json names no family. -/
end

