-- ==== Sys2Proof/Laws/Unseen.lean ====
section
/-! SUPPORT. What the lists of unseen writes say: a path that has none sees the scratchpad as it is, and what has performed for a path
is off the list (R332). -/

namespace Sys2Proof.Machine

@[simp] theorem view_of_none (t : Team) (path : Nat) (h : t.unseen.filter (fun e => e.dst = path) = []) : t.view path = t := by
  simp only [Team.view, h]

@[simp] theorem view_of_nil (t : Team) (path : Nat) (h : t.unseen = []) : t.view path = t := view_of_none t path (by simp [h])

/-- A byte without an entry of the path is read as it is. -/
theorem oldAt_of_absent (clk a : Nat) (l : List Unseen) (h : ∀ e ∈ l, e.a ≠ a) : oldAt l clk a = none := by
  unfold oldAt
  suffices ∀ o, l.foldl (fun o e => if e.a ≠ a then o else if e.till ≤ clk then none else o.orElse fun _ => some (e.old, e.taint)) o = o
    from this none
  induction l with
  | nil => exact fun _ => rfl
  | cons e l ih =>
    intro o
    rw [List.foldl_cons, if_pos (h e (by simp))]
    exact ih (fun x hx => h x (by simp [hx])) o

/-- What performedFor leaves was there, and has not performed. -/
theorem mem_performedFor {p : Unseen → Bool} {l : List Unseen} {e : Unseen} (h : e ∈ performedFor p l) : e ∈ l ∧ p e = false := by
  induction l with
  | nil => simp [performedFor] at h
  | cons x l ih =>
    simp only [performedFor] at h
    split at h
    · exact ⟨by simp [(ih h).1], (ih h).2⟩
    · rename_i hx
      rcases List.mem_cons.1 h with rfl | h
      · refine ⟨by simp, ?_⟩
        cases hp : p e with
        | false => rfl
        | true => exact absurd (by simp [hp]) hx
      · exact ⟨by simp [(ih h).1], (ih h).2⟩

/-- A timed write leaves no entry of its bytes. -/
theorem mem_performed {t : Team} {bytes : List Nat} {e : Unseen} (h : e ∈ (t.performed bytes).unseen) : e ∈ t.unseen ∧ e.a ∉ bytes := by
  simpa [Team.performed] using h

end Sys2Proof.Machine
end

