-- ==== Sys2Proof/Tests/Slice0.lean ====
section
/-! SUPPORT. The model's own tests: ill-formed terms refused, words written out from the encoding tables and what they decode to, a
witness for the hypotheses of every statement of the certificate, and the results of words in the spec's tables and examples. -/

namespace Sys2Proof.Tests
open Machine

set_option maxRecDepth 100000
set_option Elab.async false

/-- No memory lists anything at reset. -/
theorem test_reset_memories : State.reset.mem = [] ∧ State.reset.host = [] := ⟨rfl, rfl⟩

/-! ## Ill-formed terms -/

/-- A word with no WAIT and no SIGNAL. -/
def word (i : Instr) : Code := ⟨.none, .none, i⟩

/-- Ill-formed WAIT and SIGNAL fields (R89 to R91) and ill-formed BAR words (R138). -/
def illFormedFields : List (Col × Code) :=
  [(.ctl, ⟨.idle 0, .none, .nop⟩), (.ctl, ⟨.tok .ctl 0, .none, .nop⟩), (.acs, ⟨.tok .chn 0, .none, .nop⟩),
   (.chn, ⟨.tok .ctl 0, .none, .nop⟩), (.vec, ⟨.colIdle .chn, .none, .nop⟩), (.chn, ⟨.colIdle .ctl, .none, .nop⟩),
   (.chn, ⟨.flag 0, .none, .nop⟩), (.chn, ⟨.cnt 0, .none, .nop⟩), (.chn, ⟨.plait, .none, .nop⟩), (.chn, ⟨.landed, .none, .nop⟩),
   (.mat, ⟨.none, .tok .mat 0, .nop⟩), (.cpy, ⟨.none, .tok .chn 0, .nop⟩), (.chn, ⟨.none, .tok .ctl 0, .nop⟩),
   (.chn, ⟨.none, .clr 0, .nop⟩), (.chn, ⟨.none, .link 0, .nop⟩), (.chn, ⟨.none, .flag 0, .nop⟩), (.chn, ⟨.none, .cnt 0, .nop⟩),
   (.ctl, ⟨.none, .bar 3, .bar 2⟩), (.ctl, ⟨.bar 2, .none, .bar 2⟩)]

/-- Ill-formed words of ctl, of acs, of the channels and of the common group: one for each check of their fields. -/
def illFormedWords : List (Col × Instr) :=
  [(.ctl, .shli 1 2 64), (.ctl, .shri 1 2 64), (.ctl, .sari 1 2 (-1)), (.ctl, .b .al 1 0 0), (.ctl, .b .al 0 1 0),
   (.ctl, .ld 1 2 0 .sp .rel .d 0), (.ctl, .ld 1 2 0 .sp .ar .d 0), (.ctl, .st 1 2 0 .gl .acq .d 0), (.ctl, .st 1 2 0 .gl .ar .d 0),
   (.ctl, .amo 1 2 0 .hp .plain .d 3 .add), (.ctl, .amo 1 2 0 .sp .plain .h 3 .add), (.ctl, .cas 1 2 0 .ap .plain .d 3),
   (.ctl, .cas 1 2 0 .sp .plain .b 3), (.ctl, .csig (.flag 0) 1), (.ctl, .csig (.clr 0) 1), (.ctl, .cwait (.flag 0) 1),
   (.ctl, .cwait (.bar 0) 1), (.ctl, .cwait .plait 1), (.ctl, .cwait .landed 1), (.ctl, .cwait (.colIdle .acs) 1),
   (.ctl, .cwait (.colIdle .chn) 0), (.ctl, .qput .ctl 1), (.ctl, .qpub .chn), (.ctl, .launch 1 .hp 2), (.ctl, .launch 1 .ap 2),
   (.ctl, .cntrd 1 (.head .ctl)), (.ctl, .cntrd 1 (.tail .chn)), (.ctl, .cntrd 1 (.put .ctl)), (.ctl, .csrr 1 5),
   (.ctl, .csrw 1 0x16 2), (.ctl, .csrs 1 0x110 2), (.ctl, .csrc 1 0x811 2), (.ctl, .fuseReadIdentity 1 2),
   (.ctl, .fuseReadLifecycle 1 2), (.acs, .radv .a 0), (.acs, .radv .b 4096),
   (.chn, .rd 0 0 32 0 0), (.chn, .rdL2 0 0 63 false), (.chn, .wr 0 0 32 0), (.chn, .wr 0 0 0 1024), (.chn, .pass 0),
   (.ctl, .loopf .imm 0 1), (.ctl, .loopf .imm 1 0), (.ctl, .loope .imm 1 0), (.chn, .loopf (.reg 0) 1 1), (.chn, .loope .imm 1 1),
   (.chn, .elas), (.chn, .hoop 1 0), (.chn, .hoop 0 1)]

/-- A mask field of zeros. -/
def allOn : Mask := ⟨0, false⟩

/-- Ill-formed words of vec and mat: a type that the word does not accept, a destination that it may not have, a shape, a
granule. -/
def illFormedVecAndMat : List Instr :=
  [.vadd (.v 0) (.v 0) (.v 0) .i32 allOn, .vsub (.v 0) (.v 0) (.v 0) .e3m2 allOn, .vmul (.v 0) (.v 0) (.v 0) .r32 allOn,
   .vfma (.v 0) (.v 0) (.v 0) (.v 0) .q4 allOn, .vfms (.v 0) (.v 0) (.v 0) (.v 0) .i8 allOn, .vfnma (.v 0) (.v 0) (.v 0) (.v 0) .c4 allOn,
   .vdiv (.v 0) (.v 0) (.v 0) .i16 allOn, .vsqrt (.v 0) (.v 0) .i64 allOn, .vmin (.v 0) (.v 0) (.v 0) .i32 allOn,
   .vmax (.v 0) (.v 0) (.v 0) .i32 allOn, .vabs (.v 0) (.v 0) .i32 allOn, .vneg (.v 0) (.v 0) .i32 allOn,
   .vcmp .eq 0 (.v 0) (.v 0) .i32 allOn, .vclass 0 (.v 0) 1 .i32 allOn, .vrnd (.v 0) (.v 0) .i32 allOn,
   .vcvt (.v 0) (.v 0) .r32 .f32 false false allOn, .vcvt (.v 0) (.v 0) .i64 .r32 false false allOn,
   .vcvt (.v 0) (.v 0) .i32 .f32 true false allOn, .vcvt (.v 0) (.v 0) .f32 .i32 false true allOn,
   .vcvt (.v 0) (.v 0) .q4 .f32 false false allOn, .vcvt (.v 0) (.v 0) .f32 .e2m3 false false allOn,
   .vsum (.v 0) (.v 0) (.v 0) .r32 allOn, .vmaxr (.v 0) (.v 0) (.v 0) .r64 allOn, .vminr (.v 0) (.v 0) (.v 0) .q4 allOn,
   .vdot (.v 0) (.v 0) (.v 0) (.v 0) .r32 allOn, .viadd .wrap (.v 0) (.v 0) (.v 0) .f32 allOn, .visub .ss (.v 0) (.v 0) (.v 0) .r32 allOn,
   .vimul (.v 0) (.v 0) (.v 0) .r32 allOn, .vimulh false (.v 0) (.v 0) (.v 0) .f64 allOn, .vand (.v 0) (.v 0) (.v 0) .f32 allOn,
   .vor (.v 0) (.v 0) (.v 0) .f32 allOn, .vxor (.v 0) (.v 0) (.v 0) .f32 allOn, .vshl (.v 0) (.v 0) (.v 0) .f32 allOn,
   .vshr (.v 0) (.v 0) (.v 0) .f32 allOn, .vsar (.v 0) (.v 0) (.v 0) .f32 allOn, .vimin true (.v 0) (.v 0) (.v 0) .f32 allOn,
   .vimax true (.v 0) (.v 0) (.v 0) .f32 allOn, .viabsd true (.v 0) (.v 0) (.v 0) .f32 allOn, .vicmp .eq 0 (.v 0) (.v 0) .f32 allOn,
   .vmmul (.v 0) (.v 0) (.v 0) 0 .i32 allOn, .vmadd (.v 0) (.v 0) (.v 0) 0 .i64 allOn, .vmsub (.v 0) (.v 0) (.v 0) 0 .f32 allOn,
   .vmred .u (.v 0) (.v 0) 0 .i32 allOn, .vbfly (.v 0) (.v 0) (.v 0) 0 0 .i32 allOn, .vibfly (.v 0) (.v 0) (.v 0) 0 0 .i32 allOn,
   .vmset 0 (.v 0) .i32 allOn, .vmmac (.v 0) (.v 0) (.v 0) 0 .i32 allOn, .vmmac (.w 0) (.v 0) (.v 0) 0 .r32 allOn]

/-- The rest of them. -/
def illFormedMovement : List Instr :=
  [.vmov (.v 0) (.v 0) .q4 allOn, .vbcast (.v 0) (.v 0) .e3m2 allOn, .vtr (.v 0) (.v 0) .c4 allOn, .vrot (.v 0) (.v 0) 1 false .q4 allOn,
   .vexp (.v 0) (.v 0) .q4 allOn, .vperm .brev (.v 0) (.v 0) .q4 allOn, .vext (.v 0) (.v 0) 0 0 .q4 allOn,
   .vins (.v 0) (.v 0) 0 0 .q4 allOn, .vbnet (.v 0) (.v 0) 0 .q4 allOn, .vpopc (.v 0) (.v 0) .q4 allOn, .vclz (.v 0) (.v 0) .q4 allOn,
   .vsel (.v 0) (.v 0) (.v 0) .q4 allOn, .kand 0 0 0 .q4, .kor 0 0 0 .q4, .knot 0 0 .q4, .kmov 0 (.v 0) .q4,
   .vcomp (.v 0) (.v 0) .q4 allOn, .vcomp .lat (.v 0) .i32 allOn, .vpart .lat (.v 0) allOn, .vshape 17 0, .vshape 0 31,
   .vpack (.v 0) (.v 0) .i8 allOn, .vunpk (.v 0) (.v 0) .f32 allOn, .vtab (.fn .exp2) (.v 0) (.v 0) .f64 allOn,
   .vtab (.slot 0) (.v 0) (.v 0) .e4m3 allOn]

theorem test_wf_refuses_fields : (illFormedFields.all fun x => !x.2.wf x.1) = true := by decide

theorem test_wf_refuses_words : (illFormedWords.all fun x => !(word x.2).wf x.1) = true := by decide

theorem test_wf_refuses_vec_words : ((illFormedVecAndMat ++ illFormedMovement).all fun i => !(word i).wf .vec) = true := by decide

theorem test_wf_refuses_granules : ([Instr.mgo 24, .mgoQuad 31, .mop 24 false 0 0, .mzero 25 0, .mdrain 24 0 0 0, .mdrainT 24 0 0 0 0,
    .mdrainPeer 24 0 0 0 0, .minbox 24 0].all fun i => !(word i).wf .mat) = true := by decide

/-! ## Illegal words -/

/-- The decoder refuses 64 bits in a column. -/
def refuses (c : Col) (w : Nat) : Bool :=
  match decode c w with
  | .ok _ => false
  | .error _ => true

/-- Illegal words of ctl: reserved codes and bits that must be zero (R89, R91, R97, R104, R135). -/
def illegalCtl1 : List Nat :=
  [0x0000_3A00_0000_0000, 0x0000_3D00_0000_0000, 0x0000_1C00_0000_0000, 0x0000_2B00_0000_0000, 0x0000_3600_0000_0000,
   0x0000_4700_0000_0000, 0x0000_5600_0000_0000, 0x0000_6500_0000_0000, 0x0000_7A00_0000_0000, 0x0000_0000_0000_0001,
   0x0000_3070_0000_0000, 0x0000_3004_0000_0000, 0x0000_3304_5000_0000, 0x0000_3400_1000_0000, 0x0000_4000_000C_0000,
   0x0000_4100_000E_0000, 0x0000_4200_0006_0480, 0x0000_4200_0006_0001, 0x0000_4300_0006_0080, 0x0000_4400_0000_0000,
   0x0000_4404_0040_0000, 0x0000_4508_0040_0000, 0x0000_4500_0000_0000, 0x0000_4600_0000_0001]

theorem test_refuses_illegalCtl1 : (illegalCtl1.all (refuses .ctl)) = true := by decide

/-- Illegal words of ctl: reserved codes and bits that must be zero (R89, R91, R97, R104, R135). -/
def illegalCtl2 : List Nat :=
  [0x0000_50A0_0000_0000, 0x0000_5000_0000_0300, 0x0000_5001_0000_0000, 0x0000_5108_0000_0000, 0x0000_5100_0000_0001,
   0x0000_5280_0000_0000, 0x0000_539F_0000_0000, 0x0000_53EF_0000_0000, 0x0000_5403_0000_0000, 0x0000_5400_0010_0000,
   0x0000_5503_0000_0000, 0x0000_6000_0000_0000, 0x0000_61A0_0000_0000, 0x0000_6202_0000_0000, 0x0000_6304_0000_0000,
   0x0000_6400_8000_0000, 0x0000_6400_0000_0000, 0x0000_6400_3000_0001, 0x0000_6400_6040_0000, 0x0000_7000_0050_0000,
   0x0000_7000_0000_4000, 0x0000_7401_0000_0000, 0x0000_7500_0000_0001, 0x0000_7800_0000_0001]

theorem test_refuses_illegalCtl2 : (illegalCtl2.all (refuses .ctl)) = true := by decide

/-- Illegal words of ctl: reserved codes and bits that must be zero (R89, R91, R97, R104, R135). -/
def illegalCtl3 : List Nat :=
  [0x0000_2400_0000_0040, 0x0000_3B00_0000_0001, 0x0000_3F00_0000_0001]

theorem test_refuses_illegalCtl3 : (illegalCtl3.all (refuses .ctl)) = true := by decide

/-- Illegal words of acs: reserved codes and bits that must be zero (R89, R91, R98, R104). -/
def illegalAcs1 : List Nat :=
  [0x8500_3F00_0000_0000, 0x8100_3F00_0000_0000, 0xEF00_3F00_0000_0000, 0xFF00_3F00_0000_0000, 0x0001_3F00_0000_0000,
   0x001F_3F00_0000_0000, 0x0060_3F00_0000_0000, 0x0086_3F00_0000_0000, 0x0081_3F00_0000_0000, 0x00E8_3F00_0000_0000,
   0x00FF_3F00_0000_0000, 0x0000_3A00_0000_0000, 0x0000_3D00_0000_0000, 0x0000_0800_0000_0000, 0x0000_1400_0000_0000,
   0x0000_2300_0000_0000, 0x0000_3200_0000_0000, 0x0000_4300_0000_0000, 0x0000_0000_0000_0001, 0x0000_0400_1000_0000,
   0x0000_0601_0000_0000, 0x0000_1100_0000_0001, 0x0000_1300_0000_0001, 0x0000_1200_0000_0001]

theorem test_refuses_illegalAcs1 : (illegalAcs1.all (refuses .acs)) = true := by decide

/-- Illegal words of acs: reserved codes and bits that must be zero (R89, R91, R98, R104). -/
def illegalAcs2 : List Nat :=
  [0x0000_3000_0800_0000, 0x0000_4000_1000_0000, 0x0000_4120_0000_0001, 0x0000_4100_0000_0000, 0x0000_4200_0000_0001,
   0x0000_3803_0010_0100, 0x0000_3841_0010_0100, 0x0000_3806_0010_0100, 0x0000_3800_0010_0000, 0x0000_3800_0010_0101]

theorem test_refuses_illegalAcs2 : (illegalAcs2.all (refuses .acs)) = true := by decide

/-- Illegal words of vec: reserved codes and bits that must be zero (R66, R99, R104, R184 to R210). -/
def illegalVec1 : List Nat :=
  [0x0000_3A00_0000_0000, 0x0000_3D00_0000_0000, 0x0000_1400_0000_0000, 0x0000_2E00_0000_0000, 0x0000_4B00_0000_0000,
   0x0000_5600_0000_0000, 0x0000_5A00_0000_0000, 0x0000_6500_0000_0000, 0x0000_4000_4C00_0010, 0x0000_4000_5100_0010,
   0x0000_4000_7F00_0010, 0x0000_4000_E000_0010, 0x0000_4000_FF00_0010, 0x0000_4048_0000_0010, 0x0000_4051_0000_0010,
   0x0000_4080_0000_0010, 0x0000_40C0_0000_0010, 0x0000_40FF_0000_0010, 0x0000_4000_0001_0010, 0x0000_4000_0000_0110,
   0x0000_0000_0000_0110, 0x0000_0C00_0000_8010, 0x0000_0C08_0000_0010, 0x0000_0C00_0000_0110]

theorem test_refuses_illegalVec1 : (illegalVec1.all (refuses .vec)) = true := by decide

/-- Illegal words of vec: reserved codes and bits that must be zero (R66, R99, R104, R184 to R210). -/
def illegalVec2 : List Nat :=
  [0x0000_2D00_0000_A0C0, 0x0000_0D00_0004_0010, 0x0000_0E00_0010_0110, 0x0000_2000_0000_03C0, 0x0000_2000_0000_04C0,
   0x0000_2200_0000_01C0, 0x0000_2300_0000_02C0, 0x0000_3000_0000_08E0, 0x0000_3000_0000_40E0, 0x0000_3400_0001_00E0,
   0x0000_3500_0000_40E0, 0x0000_3708_0000_00E0, 0x0000_3700_0000_01E0, 0x0000_4300_0000_8010, 0x0000_4300_0002_0010,
   0x0000_4600_0000_0010, 0x0000_4700_0000_4010, 0x0000_4700_0000_1810, 0x0000_4700_0001_1010, 0x0000_4700_0000_0110,
   0x0000_4800_0011_0000, 0x0000_4800_0000_0001, 0x0000_4900_0008_0010, 0x0000_5000_0000_0810]

theorem test_refuses_illegalVec2 : (illegalVec2.all (refuses .vec)) = true := by decide

/-- Illegal words of vec: reserved codes and bits that must be zero (R66, R99, R104, R184 to R210). -/
def illegalVec3 : List Nat :=
  [0x0000_5108_0000_00B0, 0x0000_5100_0000_00B1, 0x0000_5800_0000_0B10, 0x0000_5800_0000_1010, 0x0000_5800_0000_4010,
   0x0000_5800_0000_2110, 0x0000_5904_0000_0010, 0x0000_5900_0000_0B10, 0x0000_5900_0000_0020, 0x0000_6108_0000_0010,
   0x0000_6100_0000_0011, 0x0000_6300_0001_0010, 0x0000_6408_0000_0010]

theorem test_refuses_illegalVec3 : (illegalVec3.all (refuses .vec)) = true := by decide

/-- Illegal words of mat: reserved codes and bits that must be zero (R100, R104, R217). -/
def illegalMat : List Nat :=
  [0x0000_3A00_0000_0000, 0x0000_3D00_0000_0000, 0x0000_0B00_0000_0000, 0x0000_0000_0000_0001, 0x0000_0000_1000_0000,
   0x0000_0304_0000_0000, 0x0000_0300_0C00_0000, 0x0000_0400_0000_0001, 0x0000_0500_0000_0001, 0x0000_0600_0060_0000,
   0x0000_0600_1000_0000, 0x0000_0600_0000_0001, 0x0000_0700_0060_0000, 0x0000_0800_0000_0001, 0x0000_0900_0000_0001,
   0x0000_0A00_0000_0001]

theorem test_refuses_illegalMat : (illegalMat.all (refuses .mat)) = true := by decide

/-- Illegal words of cpy: reserved codes and bits that must be zero (R101, R104, R249). -/
def illegalCpy : List Nat :=
  [0x0000_3A00_0000_0000, 0x0000_3D00_0000_0000, 0x0000_0600_0000_0000, 0x0000_0000_00C0_0000, 0x0000_0000_0008_0000,
   0x0000_0000_0000_0001, 0x0000_0000_1080_0000, 0x0000_0100_0000_0001, 0x0000_0200_1000_0000, 0x0000_0200_0100_0000,
   0x0000_0304_0000_0000, 0x0000_0400_0000_0001, 0x0000_0500_00C0_0000, 0x0000_0500_1000_0000]

theorem test_refuses_illegalCpy : (illegalCpy.all (refuses .cpy)) = true := by decide

/-- Illegal words of chn: reserved codes and bits that must be zero (R90, R91, R102 to R104, R270, R326). -/
def illegalChn : List Nat :=
  [0x0000_3A00_0000_0000, 0x0000_3D00_0000_0000, 0x0000_0900_0000_0000, 0x0000_0040_0000_0000, 0x0000_0000_0000_0001,
   0x0000_0102_0000_0000, 0x0000_0100_0C00_0000, 0x0000_0100_0800_0001, 0x0000_0200_0001_0000, 0x0000_0200_0000_0400,
   0x0000_0300_0000_0001, 0x0000_0400_0000_0001, 0x0000_0500_0000_0001, 0x0000_0610_0000_0000, 0x0000_0700_0000_0000,
   0x0000_0700_0001_0000, 0x0000_0800_1000_0000, 0x0000_0801_0000_0000, 0x0000_0800_0000_0100, 0x0000_3902_0010_0100,
   0x0000_3C00_0000_0000, 0x0000_3800_0010_0100, 0x0000_3E00_0000_0001]

theorem test_refuses_illegalChn : (illegalChn.all (refuses .chn)) = true := by decide

/-- R97, R104: arithmetic words of ctl in form CA, as the encoding tables give them. -/
def ctlArithmeticWords1 : List (Col × Nat × Instr) :=
  [(.ctl, 0x0000_0007_C840_0000, .add 1 60 33),
   (.ctl, 0x0000_010B_B840_0000, .sub 2 59 33),
   (.ctl, 0x0000_020F_A840_0000, .and 3 58 33),
   (.ctl, 0x0000_0313_9840_0000, .or 4 57 33),
   (.ctl, 0x0000_0417_8840_0000, .xor 5 56 33),
   (.ctl, 0x0000_051B_7840_0000, .andn 6 55 33),
   (.ctl, 0x0000_061F_6840_0000, .shl 7 54 33),
   (.ctl, 0x0000_0723_5840_0000, .shr 8 53 33),
   (.ctl, 0x0000_0827_4840_0000, .sar 9 52 33),
   (.ctl, 0x0000_092B_3840_0000, .mul 10 51 33),
   (.ctl, 0x0000_0A2F_2840_0000, .mulh 11 50 33),
   (.ctl, 0x0000_0B33_1840_0000, .mulhu 12 49 33),
   (.ctl, 0x0000_0C37_0840_0000, .div 13 48 33),
   (.ctl, 0x0000_0D3A_F840_0000, .divu 14 47 33),
   (.ctl, 0x0000_0E3E_E840_0000, .rem 15 46 33),
   (.ctl, 0x0000_0F42_D840_0000, .remu 16 45 33),
   (.ctl, 0x0000_1046_C840_0000, .min 17 44 33),
   (.ctl, 0x0000_114A_B840_0000, .max 18 43 33),
   (.ctl, 0x0000_124E_A840_0000, .minu 19 42 33),
   (.ctl, 0x0000_1352_9840_0000, .maxu 20 41 33),
   (.ctl, 0x0000_1456_8840_0000, .slt 21 40 33),
   (.ctl, 0x0000_155A_7840_0000, .sltu 22 39 33),
   (.ctl, 0x0000_165E_6840_0000, .seq 23 38 33),
   (.ctl, 0x0000_1762_5000_0000, .clz 24 37)]

theorem test_decode_ctlArithmeticWords1 : (ctlArithmeticWords1.all fun x => decide (decode x.1 x.2.1 = .ok ⟨.none, .none, x.2.2⟩)) = true := by decide

/-- R97, R104: arithmetic words of ctl in form CA, as the encoding tables give them. -/
def ctlArithmeticWords2 : List (Col × Nat × Instr) :=
  [(.ctl, 0x0000_1866_4000_0000, .ctz 25 36),
   (.ctl, 0x0000_196A_3000_0000, .popc 26 35),
   (.ctl, 0x0000_1A6E_2000_0000, .bswap 27 34),
   (.ctl, 0x0000_1B72_1840_0000, .sel 28 33 33)]

theorem test_decode_ctlArithmeticWords2 : (ctlArithmeticWords2.all fun x => decide (decode x.1 x.2.1 = .ok ⟨.none, .none, x.2.2⟩)) = true := by decide

/-- R97, R104: arithmetic words of ctl in form CI, as the encoding tables give them. -/
def ctlImmediateWords1 : List (Col × Nat × Instr) :=
  [(.ctl, 0x0000_2017_EFFF_FFFD, .addi 5 62 (-3)),
   (.ctl, 0x0000_2117_EFFF_FFFD, .andi 5 62 (-3)),
   (.ctl, 0x0000_2217_EFFF_FFFD, .ori 5 62 (-3)),
   (.ctl, 0x0000_2317_EFFF_FFFD, .xori 5 62 (-3)),
   (.ctl, 0x0000_2417_E000_003F, .shli 5 62 63),
   (.ctl, 0x0000_2517_E000_003F, .shri 5 62 63),
   (.ctl, 0x0000_2617_E000_003F, .sari 5 62 63),
   (.ctl, 0x0000_2717_EFFF_FFFD, .slti 5 62 (-3)),
   (.ctl, 0x0000_2817_EFFF_FFFD, .sltiu 5 62 (-3)),
   (.ctl, 0x0000_2917_EFFF_FFFD, .lui 5 62 (-3)),
   (.ctl, 0x0000_2A17_EFFF_FFFD, .muli 5 62 (-3))]

theorem test_decode_ctlImmediateWords1 : (ctlImmediateWords1.all fun x => decide (decode x.1 x.2.1 = .ok ⟨.none, .none, x.2.2⟩)) = true := by decide

/-- R97, R104: transfers in forms CB, CJ and CA, as the encoding tables give them. -/
def ctlTransferWords1 : List (Col × Nat × Instr) :=
  [(.ctl, 0x0000_3000_98BF_FFFE, .b .eq 9 34 (-2)),
   (.ctl, 0x0000_3010_98BF_FFFE, .b .ne 9 34 (-2)),
   (.ctl, 0x0000_3020_98BF_FFFE, .b .lt 9 34 (-2)),
   (.ctl, 0x0000_3030_98BF_FFFE, .b .ge 9 34 (-2)),
   (.ctl, 0x0000_3040_98BF_FFFE, .b .ltu 9 34 (-2)),
   (.ctl, 0x0000_3050_98BF_FFFE, .b .geu 9 34 (-2)),
   (.ctl, 0x0000_3060_0000_0007, .b .al 0 0 7),
   (.ctl, 0x0000_31FF_FFFF_FFFB, .jmp (-5)),
   (.ctl, 0x0000_3200_0000_0006, .call 6),
   (.ctl, 0x0000_3301_1000_0000, .callr 17),
   (.ctl, 0x0000_3400_0000_0000, .ret),
   (.ctl, 0x0000_3502_8000_0000, .jr 40)]

theorem test_decode_ctlTransferWords1 : (ctlTransferWords1.all fun x => decide (decode x.1 x.2.1 = .ok ⟨.none, .none, x.2.2⟩)) = true := by decide

/-- R97, R104, R129 to R134: memory words in form CM, as the encoding tables give them. -/
def ctlMemoryWords1 : List (Col × Nat × Instr) :=
  [(.ctl, 0x0000_400F_2000_0000, .ld 3 50 0 .sp .plain .b (0)),
   (.ctl, 0x0000_410F_2F00_0000, .st 3 50 15 .sp .plain .b 0),
   (.ctl, 0x0000_400F_2153_FFF8, .ld 3 50 1 .gl .acq .h (-8)),
   (.ctl, 0x0000_410F_2E62_0008, .st 3 50 14 .gl .rel .h 8),
   (.ctl, 0x0000_400F_2285_FFF0, .ld 3 50 2 .hp .plain .w (-16)),
   (.ctl, 0x0000_410F_2D84_0010, .st 3 50 13 .hp .plain .w 16),
   (.ctl, 0x0000_400F_23D7_FFE8, .ld 3 50 3 .ap .acq .d (-24)),
   (.ctl, 0x0000_410F_2CE6_0018, .st 3 50 12 .ap .rel .d 24),
   (.ctl, 0x0000_400F_2409_FFE0, .ld 3 50 4 .sp .plain .nib (-32)),
   (.ctl, 0x0000_410F_2B08_0020, .st 3 50 11 .sp .plain .nib 32),
   (.ctl, 0x0000_400F_255B_FFD8, .ld 3 50 5 .gl .acq .crm (-40)),
   (.ctl, 0x0000_410F_2A6A_0028, .st 3 50 10 .gl .rel .crm 40),
   (.ctl, 0x0000_4213_3205_0800, .amo 4 51 2 .sp .plain .w 33 .swap),
   (.ctl, 0x0000_4213_3257_0880, .amo 4 51 2 .gl .acq .d 33 .add),
   (.ctl, 0x0000_4213_3225_0900, .amo 4 51 2 .sp .rel .w 33 .and),
   (.ctl, 0x0000_4213_3277_0980, .amo 4 51 2 .gl .ar .d 33 .or),
   (.ctl, 0x0000_4213_3205_0A00, .amo 4 51 2 .sp .plain .w 33 .xor),
   (.ctl, 0x0000_4213_3257_0A80, .amo 4 51 2 .gl .acq .d 33 .min),
   (.ctl, 0x0000_4213_3225_0B00, .amo 4 51 2 .sp .rel .w 33 .max),
   (.ctl, 0x0000_4213_3277_0B80, .amo 4 51 2 .gl .ar .d 33 .minu),
   (.ctl, 0x0000_4213_3205_0C00, .amo 4 51 2 .sp .plain .w 33 .maxu),
   (.ctl, 0x0000_4313_3277_0800, .cas 4 51 2 .gl .ar .d 33),
   (.ctl, 0x0000_4403_2741_FFF7, .pref 50 7 (-9)),
   (.ctl, 0x0000_4503_2740_0400, .cboClean 50 7 1024)]

theorem test_decode_ctlMemoryWords1 : (ctlMemoryWords1.all fun x => decide (decode x.1 x.2.1 = .ok ⟨.none, .none, x.2.2⟩)) = true := by decide

/-- R97, R104, R129 to R134: memory words in form CM, as the encoding tables give them. -/
def ctlMemoryWords2 : List (Col × Nat × Instr) :=
  [(.ctl, 0x0000_4507_2740_0400, .cboFlush 50 7 1024),
   (.ctl, 0x0000_4622_C000_0000, .ways 8 44)]

theorem test_decode_ctlMemoryWords2 : (ctlMemoryWords2.all fun x => decide (decode x.1 x.2.1 = .ok ⟨.none, .none, x.2.2⟩)) = true := by decide

/-- R135 to R142: words in form CS, as the encoding tables give them. -/
def ctlSynchronisationWords1 : List (Col × Nat × Instr) :=
  [(.ctl, 0x0000_500A_A501_AC00, .fence .stream 5 0xA501 0x2B .full),
   (.ctl, 0x0000_502C_A501_AD00, .fence .team 6 0xA501 0x2B .acq),
   (.ctl, 0x0000_504E_A501_AE00, .fence .die 7 0xA501 0x2B .rel),
   (.ctl, 0x0000_5070_A501_AC00, .fence .pkg 8 0xA501 0x2B .full),
   (.ctl, 0x0000_5092_A501_AD00, .fence .sys 9 0xA501 0x2B .acq),
   (.ctl, 0x0000_5106_0000_0000, .bar 6),
   (.ctl, 0x0000_5225_0000_0000, .csig (.clr 5) 0),
   (.ctl, 0x0000_525F_3000_0000, .csig (.link 31) 12),
   (.ctl, 0x0000_52A9_0000_0000, .csig (.flag 9) 0),
   (.ctl, 0x0000_52D1_3400_0000, .csig (.cnt 17) 13),
   (.ctl, 0x0000_53A2_0000_0000, .cwait (.flag 2) 0),
   (.ctl, 0x0000_53C3_3800_0000, .cwait (.cnt 3) 14),
   (.ctl, 0x0000_53E7_0000_0000, .cwait (.bar 7) 0),
   (.ctl, 0x0000_53EB_0000_0000, .cwait (.colIdle .mat) 0),
   (.ctl, 0x0000_53ED_0000_0000, .cwait .plait 0),
   (.ctl, 0x0000_53EE_0000_0000, .cwait .landed 0),
   (.ctl, 0x0000_5400_5000_0000, .tchk 20),
   (.ctl, 0x0000_5401_5150_0000, .tchkSp 20 21),
   (.ctl, 0x0000_5402_5150_0000, .tchkGl 20 21),
   (.ctl, 0x0000_5578_0000_0000, .popx 30 .vexc),
   (.ctl, 0x0000_5579_0000_0000, .popx 30 .mexc),
   (.ctl, 0x0000_557A_0000_0000, .popx 30 .cexc)]

theorem test_decode_ctlSynchronisationWords1 : (ctlSynchronisationWords1.all fun x => decide (decode x.1 x.2.1 = .ok ⟨.none, .none, x.2.2⟩)) = true := by decide

/-- R135, R143 to R153: words in form CS, as the encoding tables give them. -/
def ctlRequestsWords1 : List (Col × Nat × Instr) :=
  [(.ctl, 0x0000_6020_4C00_0000, .qput .acs 19),
   (.ctl, 0x0000_6120_0000_0000, .qpub .acs),
   (.ctl, 0x0000_6040_4C00_0000, .qput .vec 19),
   (.ctl, 0x0000_6140_0000_0000, .qpub .vec),
   (.ctl, 0x0000_6060_4C00_0000, .qput .mat 19),
   (.ctl, 0x0000_6160_0000_0000, .qpub .mat),
   (.ctl, 0x0000_6080_4C00_0000, .qput .cpy 19),
   (.ctl, 0x0000_6180_0000_0000, .qpub .cpy),
   (.ctl, 0x0000_6258_5C00_0000, .launch 22 .sp 23),
   (.ctl, 0x0000_6259_5C00_0000, .launch 22 .gl 23),
   (.ctl, 0x0000_6300_6000_0000, .cancelLaunch 24),
   (.ctl, 0x0000_6301_6000_0000, .cancelGraph 24),
   (.ctl, 0x0000_6302_6000_0000, .cancelPhase 24),
   (.ctl, 0x0000_6303_6000_0000, .cancelJob 24),
   (.ctl, 0x0000_6464_0000_0002, .cntrd 25 (.head .vec)),
   (.ctl, 0x0000_6464_1000_0003, .cntrd 25 (.tail .mat)),
   (.ctl, 0x0000_6464_2000_0004, .cntrd 25 (.put .cpy)),
   (.ctl, 0x0000_6464_3000_0000, .cntrd 25 .launch),
   (.ctl, 0x0000_6464_4000_0000, .cntrd 25 .graph),
   (.ctl, 0x0000_6464_5000_0000, .cntrd 25 .phase),
   (.ctl, 0x0000_6464_6000_0000, .cntrd 25 .job),
   (.ctl, 0x0000_6464_7680_0000, .cntrd 25 (.handle 26)),
   (.ctl, 0x0000_706C_1870_0000, .csrr 27 0x187),
   (.ctl, 0x0000_7170_8007_4000, .csrw 28 0x800 29)]

theorem test_decode_ctlRequestsWords1 : (ctlRequestsWords1.all fun x => decide (decode x.1 x.2.1 = .ok ⟨.none, .none, x.2.2⟩)) = true := by decide

/-- R135, R143 to R153: words in form CS, as the encoding tables give them. -/
def ctlRequestsWords2 : List (Col × Nat × Instr) :=
  [(.ctl, 0x0000_7270_8007_4000, .csrs 28 0x800 29),
   (.ctl, 0x0000_7370_8007_4000, .csrc 28 0x800 29),
   (.ctl, 0x0000_7400_DEAD_BEEF, .trap 0xDEADBEEF),
   (.ctl, 0x0000_7700_0000_1234, .ebrk 0x1234),
   (.ctl, 0x0000_7500_0000_0000, .eret),
   (.ctl, 0x0000_7600_0000_0000, .wfi),
   (.ctl, 0x0000_787C_8000_0000, .fuseReadWord 31 32),
   (.ctl, 0x0000_797C_8000_0000, .kwipe 31 32)]

theorem test_decode_ctlRequestsWords2 : (ctlRequestsWords2.all fun x => decide (decode x.1 x.2.1 = .ok ⟨.none, .none, x.2.2⟩)) = true := by decide

/-- R98, R104, R157 to R168: words of acs, as the encoding tables give them. -/
def acsWords1 : List (Col × Nat × Instr) :=
  [(.acs, 0x0000_001E_7000_0000, .aadd 1 14 7),
   (.acs, 0x0000_011E_7000_0000, .asub 1 14 7),
   (.acs, 0x0000_021E_7000_0000, .ashl 1 14 7),
   (.acs, 0x0000_031E_7000_0000, .amul 1 14 7),
   (.acs, 0x0000_071E_7000_0000, .amin 1 14 7),
   (.acs, 0x0000_0430_0B40_0000, .amov 3 45),
   (.acs, 0x0000_0535_0FFF_FFF0, .aaddi 3 5 (-16)),
   (.acs, 0x0000_0640_00AB_CDEF, .amovi 4 0xABCDEF),
   (.acs, 0x0000_10AC_B7FF_E003, .lq 2 5 9 6 (-1) 3),
   (.acs, 0x0000_1147_8DFF_8000, .lqx 1 0 15 1 2 (-4)),
   (.acs, 0x0000_12F4_1004_2000, .lqg 3 6 8 2 33),
   (.acs, 0x0000_1338_F804_4000, .lqb 0 7 1 15 34),
   (.acs, 0x0000_20AC_B000_FFFE, .sq 2 5 9 6 7 (-2)),
   (.acs, 0x0000_215F_8E00_A000, .sqx 1 3 15 1 3 5),
   (.acs, 0x0000_22F4_17FB_E000, .sqg 3 6 8 2 (-33)),
   (.acs, 0x0000_3030_07BF_FFFE, .pat 6 15 7 (-2)),
   (.acs, 0x0000_3125_87FF_FFFD, .patld 4 11 (-3)),
   (.acs, 0x0000_40D6_0000_0000, .bfmt 13 6),
   (.acs, 0x0000_4100_0000_0FFF, .radv .a 4095),
   (.acs, 0x0000_4110_0000_0001, .radv .b 1),
   (.acs, 0x0000_4280_0000_0000, .qclr false 2),
   (.acs, 0x0000_4240_0400_0000, .qclr true 1)]

theorem test_decode_acsWords1 : (acsWords1.all fun x => decide (decode x.1 x.2.1 = .ok ⟨.none, .none, x.2.2⟩)) = true := by decide

/-- R66, R99, R104, R182 to R187: floating-point words, as the encoding tables give them. -/
def vecFloatWords1 : List (Col × Nat × Instr) :=
  [(.vec, 0x0000_0045_C307_000B, .vadd (.o 5) (.imm 3) (.v 7) .f64 ⟨5, true⟩),
   (.vec, 0x0000_0145_C307_001B, .vsub (.o 5) (.imm 3) (.v 7) .f32 ⟨5, true⟩),
   (.vec, 0x0000_0245_C307_002B, .vmul (.o 5) (.imm 3) (.v 7) .bf16 ⟨5, true⟩),
   (.vec, 0x0000_033F_424B_BE3B, .vfma (.v 63) (.o 2) (.q 3) (.s 62) .f16 ⟨5, true⟩),
   (.vec, 0x0000_043F_424B_BE4B, .vfms (.v 63) (.o 2) (.q 3) (.s 62) .e4m3 ⟨5, true⟩),
   (.vec, 0x0000_053F_424B_BE5B, .vfnma (.v 63) (.o 2) (.q 3) (.s 62) .e5m2 ⟨5, true⟩),
   (.vec, 0x0000_0645_C307_000B, .vdiv (.o 5) (.imm 3) (.v 7) .f64 ⟨5, true⟩),
   (.vec, 0x0000_074E_5000_001B, .vsqrt (.w 2) .lat .f32 ⟨5, true⟩),
   (.vec, 0x0000_0845_C307_002B, .vmin (.o 5) (.imm 3) (.v 7) .bf16 ⟨5, true⟩),
   (.vec, 0x0000_0945_C307_003B, .vmax (.o 5) (.imm 3) (.v 7) .f16 ⟨5, true⟩),
   (.vec, 0x0000_0A4E_5000_004B, .vabs (.w 2) .lat .e4m3 ⟨5, true⟩),
   (.vec, 0x0000_0B4E_5000_005B, .vneg (.w 2) .lat .e5m2 ⟨5, true⟩),
   (.vec, 0x0000_0C06_1148_001B, .vcmp .eq 6 (.v 17) (.q 0) .f32 ⟨5, true⟩),
   (.vec, 0x0000_0C06_1148_101B, .vcmp .ne 6 (.v 17) (.q 0) .f32 ⟨5, true⟩),
   (.vec, 0x0000_0C06_1148_201B, .vcmp .lt 6 (.v 17) (.q 0) .f32 ⟨5, true⟩),
   (.vec, 0x0000_0C06_1148_301B, .vcmp .le 6 (.v 17) (.q 0) .f32 ⟨5, true⟩),
   (.vec, 0x0000_0C06_1148_401B, .vcmp .gt 6 (.v 17) (.q 0) .f32 ⟨5, true⟩),
   (.vec, 0x0000_0C06_1148_501B, .vcmp .ge 6 (.v 17) (.q 0) .f32 ⟨5, true⟩),
   (.vec, 0x0000_0C06_1148_601B, .vcmp .un 6 (.v 17) (.q 0) .f32 ⟨5, true⟩),
   (.vec, 0x0000_0C06_1148_701B, .vcmp .ord 6 (.v 17) (.q 0) .f32 ⟨5, true⟩),
   (.vec, 0x0000_0D07_1202_A53B, .vclass 7 (.v 18) 0x2A5 .f16 ⟨5, true⟩),
   (.vec, 0x0000_0E20_12A8_0010, .vcvt (.v 32) (.v 18) .f32 .i8 true false ⟨0, false⟩),
   (.vec, 0x0000_0E20_1214_00C0, .vcvt (.v 32) (.v 18) .i32 .f32 false true ⟨0, false⟩),
   (.vec, 0x0000_0F50_1200_0020, .vrnd .lat (.v 18) .bf16 ⟨0, false⟩)]

theorem test_decode_vecFloatWords1 : (vecFloatWords1.all fun x => decide (decode x.1 x.2.1 = .ok ⟨.none, .none, x.2.2⟩)) = true := by decide

/-- R66, R99, R104, R182 to R187: floating-point words, as the encoding tables give them. -/
def vecFloatWords2 : List (Col × Nat × Instr) :=
  [(.vec, 0x0000_1001_0203_00A0, .vsum (.v 1) (.v 2) (.v 3) .i8 ⟨0, false⟩),
   (.vec, 0x0000_1101_0203_00A0, .vmaxr (.v 1) (.v 2) (.v 3) .i8 ⟨0, false⟩),
   (.vec, 0x0000_1201_0203_00A0, .vminr (.v 1) (.v 2) (.v 3) .i8 ⟨0, false⟩),
   (.vec, 0x0000_1301_0203_04B0, .vdot (.v 1) (.v 2) (.v 3) (.v 4) .i16 ⟨0, false⟩)]

theorem test_decode_vecFloatWords2 : (vecFloatWords2.all fun x => decide (decode x.1 x.2.1 = .ok ⟨.none, .none, x.2.2⟩)) = true := by decide

/-- R99, R104, R184, R188: integer words, as the encoding tables give them. -/
def vecIntegerWords1 : List (Col × Nat × Instr) :=
  [(.vec, 0x0000_2001_0203_00CB, .viadd .wrap (.v 1) (.v 2) (.v 3) .i32 ⟨5, true⟩),
   (.vec, 0x0000_2101_0203_00DB, .visub .wrap (.v 1) (.v 2) (.v 3) .i64 ⟨5, true⟩),
   (.vec, 0x0000_2001_0203_01CB, .viadd .ss (.v 1) (.v 2) (.v 3) .i32 ⟨5, true⟩),
   (.vec, 0x0000_2101_0203_01DB, .visub .ss (.v 1) (.v 2) (.v 3) .i64 ⟨5, true⟩),
   (.vec, 0x0000_2001_0203_02CB, .viadd .us (.v 1) (.v 2) (.v 3) .i32 ⟨5, true⟩),
   (.vec, 0x0000_2101_0203_02DB, .visub .us (.v 1) (.v 2) (.v 3) .i64 ⟨5, true⟩),
   (.vec, 0x0000_2201_0203_00AB, .vimul (.v 1) (.v 2) (.v 3) .i8 ⟨5, true⟩),
   (.vec, 0x0000_2401_0203_00AB, .vand (.v 1) (.v 2) (.v 3) .i8 ⟨5, true⟩),
   (.vec, 0x0000_2501_0203_00AB, .vor (.v 1) (.v 2) (.v 3) .i8 ⟨5, true⟩),
   (.vec, 0x0000_2601_0203_00AB, .vxor (.v 1) (.v 2) (.v 3) .i8 ⟨5, true⟩),
   (.vec, 0x0000_2701_0203_00AB, .vshl (.v 1) (.v 2) (.v 3) .i8 ⟨5, true⟩),
   (.vec, 0x0000_2801_0203_00AB, .vshr (.v 1) (.v 2) (.v 3) .i8 ⟨5, true⟩),
   (.vec, 0x0000_2901_0203_00AB, .vsar (.v 1) (.v 2) (.v 3) .i8 ⟨5, true⟩),
   (.vec, 0x0000_2301_0203_00BB, .vimulh false (.v 1) (.v 2) (.v 3) .i16 ⟨5, true⟩),
   (.vec, 0x0000_2301_0203_01BB, .vimulh true (.v 1) (.v 2) (.v 3) .i16 ⟨5, true⟩),
   (.vec, 0x0000_2A01_0203_00BB, .vimin false (.v 1) (.v 2) (.v 3) .i16 ⟨5, true⟩),
   (.vec, 0x0000_2A01_0203_01BB, .vimin true (.v 1) (.v 2) (.v 3) .i16 ⟨5, true⟩),
   (.vec, 0x0000_2B01_0203_00BB, .vimax false (.v 1) (.v 2) (.v 3) .i16 ⟨5, true⟩),
   (.vec, 0x0000_2B01_0203_01BB, .vimax true (.v 1) (.v 2) (.v 3) .i16 ⟨5, true⟩),
   (.vec, 0x0000_2C01_0203_00BB, .viabsd false (.v 1) (.v 2) (.v 3) .i16 ⟨5, true⟩),
   (.vec, 0x0000_2C01_0203_01BB, .viabsd true (.v 1) (.v 2) (.v 3) .i16 ⟨5, true⟩),
   (.vec, 0x0000_2D06_11DF_00CB, .vicmp .eq 6 (.v 17) (.imm 31) .i32 ⟨5, true⟩),
   (.vec, 0x0000_2D06_11DF_10CB, .vicmp .ne 6 (.v 17) (.imm 31) .i32 ⟨5, true⟩),
   (.vec, 0x0000_2D06_11DF_20CB, .vicmp .lt 6 (.v 17) (.imm 31) .i32 ⟨5, true⟩)]

theorem test_decode_vecIntegerWords1 : (vecIntegerWords1.all fun x => decide (decode x.1 x.2.1 = .ok ⟨.none, .none, x.2.2⟩)) = true := by decide

/-- R99, R104, R184, R188: integer words, as the encoding tables give them. -/
def vecIntegerWords2 : List (Col × Nat × Instr) :=
  [(.vec, 0x0000_2D06_11DF_30CB, .vicmp .le 6 (.v 17) (.imm 31) .i32 ⟨5, true⟩),
   (.vec, 0x0000_2D06_11DF_40CB, .vicmp .gt 6 (.v 17) (.imm 31) .i32 ⟨5, true⟩),
   (.vec, 0x0000_2D06_11DF_50CB, .vicmp .ge 6 (.v 17) (.imm 31) .i32 ⟨5, true⟩),
   (.vec, 0x0000_2D06_11DF_60CB, .vicmp .ltu 6 (.v 17) (.imm 31) .i32 ⟨5, true⟩),
   (.vec, 0x0000_2D06_11DF_70CB, .vicmp .leu 6 (.v 17) (.imm 31) .i32 ⟨5, true⟩),
   (.vec, 0x0000_2D06_11DF_80CB, .vicmp .gtu 6 (.v 17) (.imm 31) .i32 ⟨5, true⟩),
   (.vec, 0x0000_2D06_11DF_90CB, .vicmp .geu 6 (.v 17) (.imm 31) .i32 ⟨5, true⟩)]

theorem test_decode_vecIntegerWords2 : (vecIntegerWords2.all fun x => decide (decode x.1 x.2.1 = .ok ⟨.none, .none, x.2.2⟩)) = true := by decide

/-- R99, R104, R190 to R197, R208 to R216: modular and movement words, as the encoding tables give them. -/
def vecModularAndMovementWords1 : List (Col × Nat × Instr) :=
  [(.vec, 0x0000_3001_0203_06EB, .vmmul (.v 1) (.v 2) (.v 3) 6 .r32 ⟨5, true⟩),
   (.vec, 0x0000_3101_0203_06EB, .vmadd (.v 1) (.v 2) (.v 3) 6 .r32 ⟨5, true⟩),
   (.vec, 0x0000_3201_0203_06EB, .vmsub (.v 1) (.v 2) (.v 3) 6 .r32 ⟨5, true⟩),
   (.vec, 0x0000_3301_0203_06EB, .vmmac (.v 1) (.v 2) (.v 3) 6 .r32 ⟨5, true⟩),
   (.vec, 0x0000_3401_0200_06FB, .vmred .u (.v 1) (.v 2) 6 .r64 ⟨5, true⟩),
   (.vec, 0x0000_3401_0200_46FB, .vmred .s (.v 1) (.v 2) 6 .r64 ⟨5, true⟩),
   (.vec, 0x0000_3401_0203_86FB, .vmred (.w (.v 3)) (.v 1) (.v 2) 6 .r64 ⟨5, true⟩),
   (.vec, 0x0000_3401_0203_C6FB, .vmred (.sw (.v 3)) (.v 1) (.v 2) 6 .r64 ⟨5, true⟩),
   (.vec, 0x0000_3501_0203_2EEB, .vbfly (.v 1) (.v 2) (.v 3) 6 5 .r32 ⟨5, true⟩),
   (.vec, 0x0000_3601_0203_2EEB, .vibfly (.v 1) (.v 2) (.v 3) 6 5 .r32 ⟨5, true⟩),
   (.vec, 0x0000_3707_9F00_00FB, .vmset 7 (.s 31) .r64 ⟨5, true⟩),
   (.vec, 0x0000_4001_0200_002B, .vmov (.v 1) (.v 2) .bf16 ⟨5, true⟩),
   (.vec, 0x0000_4101_0200_002B, .vbcast (.v 1) (.v 2) .bf16 ⟨5, true⟩),
   (.vec, 0x0000_4201_0200_002B, .vtr (.v 1) (.v 2) .bf16 ⟨5, true⟩),
   (.vec, 0x0000_4401_0200_002B, .vcomp (.v 1) (.v 2) .bf16 ⟨5, true⟩),
   (.vec, 0x0000_4501_0200_002B, .vexp (.v 1) (.v 2) .bf16 ⟨5, true⟩),
   (.vec, 0x0000_4301_0200_5D2B, .vrot (.v 1) (.v 2) 93 false .bf16 ⟨5, true⟩),
   (.vec, 0x0000_4301_0201_5D2B, .vrot (.v 1) (.v 2) 93 true .bf16 ⟨5, true⟩),
   (.vec, 0x0000_4601_0200_00CB, .vpart (.v 1) (.v 2) ⟨5, true⟩),
   (.vec, 0x0000_4701_0203_001B, .vperm (.idx (.v 3)) (.v 1) (.v 2) .f32 ⟨5, true⟩),
   (.vec, 0x0000_4701_0200_161B, .vperm (.stride 6) (.v 1) (.v 2) .f32 ⟨5, true⟩),
   (.vec, 0x0000_4701_0200_271B, .vperm (.unstride 7) (.v 1) (.v 2) .f32 ⟨5, true⟩),
   (.vec, 0x0000_4701_0200_301B, .vperm .brev (.v 1) (.v 2) .f32 ⟨5, true⟩),
   (.vec, 0x0000_4709_0800_11E0, .vperm (.stride 1) (.v 9) (.v 8) .r32 ⟨0, false⟩)]

theorem test_decode_vecModularAndMovementWords1 : (vecModularAndMovementWords1.all fun x => decide (decode x.1 x.2.1 = .ok ⟨.none, .none, x.2.2⟩)) = true := by decide

/-- R99, R104, R190 to R197, R208 to R216: modular and movement words, as the encoding tables give them. -/
def vecModularAndMovementWords2 : List (Col × Nat × Instr) :=
  [(.vec, 0x0000_4800_0010_0900, .vshape 16 9),
   (.vec, 0x0000_4901_02D6_504B, .vext (.v 1) (.v 2) 13 101 .e4m3 ⟨5, true⟩),
   (.vec, 0x0000_4A01_02D6_504B, .vins (.v 1) (.v 2) 13 101 .e4m3 ⟨5, true⟩)]

theorem test_decode_vecModularAndMovementWords2 : (vecModularAndMovementWords2.all fun x => decide (decode x.1 x.2.1 = .ok ⟨.none, .none, x.2.2⟩)) = true := by decide

/-- R99, R104, R198 to R206: bit, table, select and mask words, as the encoding tables give them. -/
def vecBitsAndMasksWords1 : List (Col × Nat × Instr) :=
  [(.vec, 0x0000_5001_0200_06BB, .vbnet (.v 1) (.v 2) 6 .i16 ⟨5, true⟩),
   (.vec, 0x0000_5105_0200_00B0, .vbnld 5 (.v 2)),
   (.vec, 0x0000_5201_0200_00DB, .vpopc (.v 1) (.v 2) .i64 ⟨5, true⟩),
   (.vec, 0x0000_5301_0200_00EB, .vclz (.v 1) (.v 2) .r32 ⟨5, true⟩),
   (.vec, 0x0000_5401_0200_008B, .vpack (.v 1) (.v 2) .q4 ⟨5, true⟩),
   (.vec, 0x0000_5501_0200_006B, .vunpk (.v 1) (.v 2) .e3m2 ⟨5, true⟩),
   (.vec, 0x0000_5801_0200_002B, .vtab (.fn .exp2) (.v 1) (.v 2) .bf16 ⟨5, true⟩),
   (.vec, 0x0000_5801_0200_012B, .vtab (.fn .log2) (.v 1) (.v 2) .bf16 ⟨5, true⟩),
   (.vec, 0x0000_5801_0200_022B, .vtab (.fn .rcp) (.v 1) (.v 2) .bf16 ⟨5, true⟩),
   (.vec, 0x0000_5801_0200_032B, .vtab (.fn .rsqrt) (.v 1) (.v 2) .bf16 ⟨5, true⟩),
   (.vec, 0x0000_5801_0200_042B, .vtab (.fn .sinpi) (.v 1) (.v 2) .bf16 ⟨5, true⟩),
   (.vec, 0x0000_5801_0200_052B, .vtab (.fn .cospi) (.v 1) (.v 2) .bf16 ⟨5, true⟩),
   (.vec, 0x0000_5801_0200_062B, .vtab (.fn .tanh) (.v 1) (.v 2) .bf16 ⟨5, true⟩),
   (.vec, 0x0000_5801_0200_072B, .vtab (.fn .sigmoid) (.v 1) (.v 2) .bf16 ⟨5, true⟩),
   (.vec, 0x0000_5801_0200_082B, .vtab (.fn .erf) (.v 1) (.v 2) .bf16 ⟨5, true⟩),
   (.vec, 0x0000_5801_0200_092B, .vtab (.fn .gelu) (.v 1) (.v 2) .bf16 ⟨5, true⟩),
   (.vec, 0x0000_5801_0200_0A2B, .vtab (.fn .silu) (.v 1) (.v 2) .bf16 ⟨5, true⟩),
   (.vec, 0x0000_5801_0200_E03B, .vtab (.slot 3) (.v 1) (.v 2) .f16 ⟨5, true⟩),
   (.vec, 0x0000_5902_0304_0710, .vtabld .sigmoid 2 (.v 3) (.v 4)),
   (.vec, 0x0000_6001_0203_00FB, .vsel (.v 1) (.v 2) (.v 3) .r64 ⟨5, true⟩),
   (.vec, 0x0000_6101_0203_0010, .kand 1 2 3 .f32),
   (.vec, 0x0000_6201_0203_0010, .kor 1 2 3 .f32),
   (.vec, 0x0000_6306_0500_0010, .knot 6 5 .f32),
   (.vec, 0x0000_6404_4A00_0010, .kmov 4 (.q 2) .f32)]

theorem test_decode_vecBitsAndMasksWords1 : (vecBitsAndMasksWords1.all fun x => decide (decode x.1 x.2.1 = .ok ⟨.none, .none, x.2.2⟩)) = true := by decide

/-- R100, R101, R104, R217, R249: words of mat and cpy, as the encoding tables give them. -/
def matCpyWords1 : List (Col × Nat × Instr) :=
  [(.mat, 0x0000_00A0_0000_0000, .mfmt 40),
   (.mat, 0x0000_01A2_9000_0000, .mring 40 41),
   (.mat, 0x0000_02A2_9000_0000, .mnest 40 41),
   (.mat, 0x0000_0300_0B80_0000, .mgo 23),
   (.mat, 0x0000_0300_0B40_0000, .mgoQuad 22),
   (.mat, 0x0000_0400_0AD6_4000, .mop 21 true 5 9),
   (.mat, 0x0000_0500_0A18_0000, .mzero 20 6),
   (.mat, 0x0000_06A8_0991_B000, .mdrain 19 42 17 11),
   (.mat, 0x0000_06AA_B9B1_B000, .mdrainT 19 42 43 17 11),
   (.mat, 0x0000_06A8_09D1_BABC, .mdrainPeer 19 42 17 11 0xABC),
   (.mat, 0x0000_07B0_0000_0000, .mplait .drain 44),
   (.mat, 0x0000_07B0_0020_0000, .mplait .transposed 44),
   (.mat, 0x0000_07B0_0040_0000, .mplait .checkpoint 44),
   (.mat, 0x0000_08B4_0000_0000, .mchk 45),
   (.mat, 0x0000_0900_0070_0000, .mpop .b 12),
   (.mat, 0x0000_0AB8_0900_0000, .minbox 18 46),
   (.cpy, 0x0000_0008_3700_0000, .cp 2 3 7),
   (.cpy, 0x0000_0008_3040_0000, .cpWs 2 3 0),
   (.cpy, 0x0000_0008_07A8_0000, .cpCb 2 5 7),
   (.cpy, 0x0000_0108_3710_5000, .cpd 2 3 4 5 7),
   (.cpy, 0x0000_0208_0014_0000, .cpchk 2 5),
   (.cpy, 0x0000_0300_3718_0000, .cpfill 3 6 7),
   (.cpy, 0x0000_0408_3720_0000, .cpres 2 3 8 7),
   (.cpy, 0x0000_0524_0700_0000, .cpxHost 9 7)]

theorem test_decode_matCpyWords1 : (matCpyWords1.all fun x => decide (decode x.1 x.2.1 = .ok ⟨.none, .none, x.2.2⟩)) = true := by decide

/-- R100, R101, R104, R217, R249: words of mat and cpy, as the encoding tables give them. -/
def matCpyWords2 : List (Col × Nat × Instr) :=
  [(.cpy, 0x0000_0524_0740_0000, .cpxPeer 9 7),
   (.cpy, 0x0000_0524_0780_0000, .cpxColl 9 7)]

theorem test_decode_matCpyWords2 : (matCpyWords2.all fun x => decide (decode x.1 x.2.1 = .ok ⟨.none, .none, x.2.2⟩)) = true := by decide

/-- R102, R103, R104, R270, R326: channel words and the common group, as the encoding tables give them. -/
def chnAndCommonWords1 : List (Col × Nat × Instr) :=
  [(.chn, 0x0000_0018_0123_0000, .act 1 2 0x123),
   (.chn, 0x0000_0139_F5A5_BEEF, .rd 3 2 31 0x5A5 0xBEEF),
   (.chn, 0x0000_0139_E800_0000, .rdL2 3 2 30 false),
   (.chn, 0x0000_0139_EA00_0000, .rdL2 3 2 30 true),
   (.chn, 0x0000_021D_D000_03FF, .wr 1 3 29 1023),
   (.chn, 0x0000_0318_0000_0000, .pre 1 2),
   (.chn, 0x0000_0400_0000_0000, .prea),
   (.chn, 0x0000_0500_0000_0000, .ref),
   (.chn, 0x0000_060C_0000_0000, .refsb 3),
   (.chn, 0x0000_0700_0000_0097, .pass 151),
   (.chn, 0x0000_0800_0D00_00C7, .mrw 13 0xC7),
   (.mat, 0x0000_3884_FFF0_0900, .loopf (.reg 33) 4095 9),
   (.acs, 0x0000_3939_007F_FF00, .loope (.mbx 14) 7 4095),
   (.cpy, 0x0000_3902_0030_0600, .loope .imm 3 6),
   (.chn, 0x0000_3802_0100_0500, .loopf .imm 16 5),
   (.vec, 0x0000_3B00_0000_0000, .rdv),
   (.vec, 0x0000_3C00_0000_0000, .elas),
   (.cpy, 0x0000_3E00_0000_0FA0, .hoop 0 4000),
   (.mat, 0x0000_3EFF_FFFF_FFFF, .hoop 63 0x3FFFFFFFF),
   (.chn, 0x0000_3E00_0000_0000, .hoop 0 0),
   (.ctl, 0x0000_3F00_0000_0000, .nop)]

theorem test_decode_chnAndCommonWords1 : (chnAndCommonWords1.all fun x => decide (decode x.1 x.2.1 = .ok ⟨.none, .none, x.2.2⟩)) = true := by decide

/-! ## Small states -/

/-- A column whose ring of 256 words lies at byte 0: it may fetch the words 0 to 15, and stands at word 4. -/
def ringed : Column := { blankColumn with size := 256, tail := 16, put := 16, head := 4, ended := false }

/-- A word as an s or a register that is untainted. -/
def plain (v : Word) : TW := ⟨v, false⟩

/-- A team of level S on core 0 at beat 256, with every bank and granule; s1 = 100, s2 = 7, s3 = -8, s4 = 0x1000, s5 = 8,
s6 = 1; a1 = 0x1000, a2 = 3; p1 has two rows of eight bytes; its stack has one free dword. -/
def core0 : Team :=
  { blankTeam with
    clk := 256, svc := true, banks := BitVec.allOnes 16, granules := BitVec.allOnes 24, cols := Vector.replicate 5 ringed,
    stkb := 0x20000, stkl := 0x20010, stkp := 0x20008,
    s := ((((((blankTeam.s.set 1 (plain 100)).set 2 (plain 7)).set 3 (plain (-8))).set 4 (plain 0x1000)).set 5 (plain 8)).set 6
      (plain 1)),
    a := (blankTeam.a.set 1 (plain 0x1000)).set 2 (plain 3),
    p := blankTeam.p.set 1 (some ⟨2, 8, 16, 0⟩) }

/-- The module with one team at work, a word of its column c about to be executed. -/
def on (c : Col) (t : Team) : State :=
  { State.reset with teams := [t], kensia := { State.reset.kensia with step := 6 },
                     cur := { Cur.none with col := c, pos := 4, id := 1, issued := 256 } }

/-- The team of `on` is found for its context. -/
theorem on_team {c : Col} {t : Team} (h : t.cid = 0) : (on c t).team (on c t).cur.cid = some t := by
  simp [on, State.team, Cur.none, h]

/-- What `MayIssue` asks beyond a team that lives, in the state `on c t`, but for the word's demand requests. -/
def readyBut (c : Col) (t : Team) (g : Gate) : Bool :=
  t.cid = 0 && (!g.svc || t.svc) && !g.deny && decide ((t.col c).portFree ≤ t.clock c) && t.pushOk c .none .none && !t.busy c g.regs &&
  (!g.reject || !(t.col c).timed) && !g.stall && decide (g.under = none) && decide (g.fault = none) && decide (g.range = none) &&
  decide (g.late = none)

/-- And no request is made, nor was one. -/
def ready (c : Col) (t : Team) (g : Gate) : Bool := readyBut c t g && ((t.col c).ask.isNone && g.asks.isEmpty)

/-- A word without WAIT and SIGNAL whose requests have been served may issue in every state that stands at it as `on c t` does. -/
theorem may_served {c : Col} {t : Team} {g : Gate} (s : State) (hc : s.cur = (on c t).cur) (ht : s.team 0 = some t)
    (h : readyBut c t g = true) (hs : (s.atIssue t).stalls t (s.curAt t) g.asks = none) : MayIssue s t g := by
  simp only [readyBut, Bool.and_eq_true, Bool.or_eq_true, Bool.not_eq_true', decide_eq_true_eq] at h
  obtain ⟨⟨⟨⟨⟨⟨⟨⟨⟨⟨⟨_, h1⟩, hd⟩, h2⟩, h3⟩, h4⟩, h5⟩, h6⟩, h7⟩, h8⟩, hr⟩, h9⟩ := h
  have hcol : s.cur.col = c := by rw [hc]; rfl
  have hcid : s.cur.cid = 0 := by rw [hc]; rfl
  have hw : s.cur.wait = .none := by rw [hc]; rfl
  have hg : s.cur.signal = .none := by rw [hc]; rfl
  exact ⟨by rw [hcid]; exact ht, by rw [hc]; simp [on, Cur.none], by rw [hc]; rfl, fun g1 => h1.resolve_left (by simp [g1]), hd,
    by rw [hw, hg]; rfl, by rw [hcol]; exact h2, by rw [hcol, hw]; rfl, by rw [hcol, hw, hg]; exact h3, by rw [hcol]; exact h4,
    fun g1 => by rw [hcol]; exact h5.resolve_left (by simp [g1]), h6, h7, h8, hr, h9, hs⟩

/-- A word without WAIT and SIGNAL may issue in every state that stands at it as `on c t` does. -/
theorem may_in {c : Col} {t : Team} {g : Gate} (s : State) (hc : s.cur = (on c t).cur) (ht : s.team 0 = some t)
    (h : ready c t g = true) : MayIssue s t g := by
  simp only [ready, Bool.and_eq_true, Option.isNone_iff_eq_none] at h
  refine may_served s hc ht h.1 ?_
  have ha : (t.col s.cur.col).ask = none := by simpa [show s.cur.col = c by rw [hc]; rfl] using h.2.1
  simp [State.stalls, State.curAt, ha, h.2.2]

/-- The team of a word that is ready but for its requests is on core 0. -/
theorem readyBut_cid {c : Col} {t : Team} {g : Gate} (h : readyBut c t g = true) : t.cid = 0 := by
  simp only [readyBut, Bool.and_eq_true, decide_eq_true_eq] at h
  exact h.1.1.1.1.1.1.1.1.1.1.1

/-- The team of a word that is ready is on core 0. -/
theorem ready_cid {c : Col} {t : Team} {g : Gate} (h : ready c t g = true) : t.cid = 0 := by
  simp only [ready, Bool.and_eq_true] at h
  exact readyBut_cid h.1

/-- A word without WAIT and SIGNAL may issue in `on c t`. -/
theorem on_may {c : Col} {t : Team} {g : Gate} (h : ready c t g = true) : MayIssue (on c t) t g :=
  may_in (c := c) _ rfl (on_team (c := c) (ready_cid h)) h

/-! ## Witnesses of the statements' hypotheses -/

/-- O1: every arithmetic word may issue. -/
theorem witness_ArithmeticResultLands :
    (arithmeticWords.all fun p => ready .ctl core0 { regs := [.s 1, .s 2, .s 3], occ := p.2.2.1 }) = true := by decide

theorem witness_UnaryAndSelectResultLands : MayIssue (on .ctl core0) core0 { regs := [.s 1, .s 3] } ∧
    MayIssue (on .ctl core0) core0 { regs := [.s 1, .s 2, .s 3] } := ⟨on_may (by decide), on_may (by decide)⟩

theorem witness_ImmediateResultLands : MayIssue (on .ctl core0) core0 { regs := [.s 1, .s 3] } := on_may (by decide)

theorem witness_RegisterWriteSetsItsRegisterOnly : (on .ctl core0).team (on .ctl core0).cur.cid = some core0 := on_team rfl

/-- A branch of ctl is taken to the first and to the last word of the ring, and one is not taken; s1 and s2 name words too. -/
theorem witness_JumpsMoveTheHead : (on .ctl core0).cur.col = .ctl ∧ MayIssue (on .ctl core0) core0 { regs := [.s 6, .s 6] } ∧
    branchTaken .eq (core0.getS 6).v (core0.getS 6).v ∧ ¬ branchTaken .ne (core0.getS 6).v (core0.getS 6).v ∧
    (core0.col .ctl).inRing (destination (on .ctl core0) (-4)) = true ∧
    (core0.col .ctl).inRing (destination (on .ctl core0) 11) = true ∧ MayIssue (on .ctl core0) core0 {} ∧
    (core0.col .ctl).inRing (core0.getS 5).v.toNat = true :=
  ⟨rfl, on_may (by decide), rfl, fun h => h rfl, by decide, by decide, on_may (by decide), by decide⟩

/-- The stack pointer one dword above the stack's base, and one below its end. -/
theorem witness_CallsPushAndReturnsPop : core0.stkp.toNat % 8 = 0 ∧ core0.stkb.toNat + 8 ≤ core0.stkp.toNat ∧
    (core0.col .ctl).inRing 0 = true ∧ destination (on .ctl core0) (-4) = 0 ∧ (core0.getS 5).v.toNat = 8 ∧
    core0.stkp.toNat + 8 ≤ core0.stkl.toNat ∧ (core0.col .ctl).inRing (readNat core0.spad core0.stkp.toNat 8) = true ∧
    MayIssue (on .ctl core0) core0 { regs := [.csr 0x22] } ∧ MayIssue (on .ctl core0) core0 { regs := [.s 5, .csr 0x22] } :=
  ⟨by decide, by decide, by decide, by decide, by decide, by decide, by decide, on_may (by decide), on_may (by decide)⟩

/-- The first position past the ring's tail, and a stack pointer that is 4 above a dword. -/
theorem witness_BadTransfersTrap : MayIssue (on .ctl core0) core0 {} ∧
    (core0.col .ctl).inRing (destination (on .ctl core0) 13) = false ∧
    MayIssue (on .ctl { core0 with stkp := 0x2000C }) { core0 with stkp := 0x2000C } {} ∧
    Team.busy { core0 with stkp := 0x2000C } .ctl [.csr 0x22] = false ∧ (0x2000C : Word).toNat % 8 ≠ 0 :=
  ⟨on_may (by decide), by decide, on_may (by decide), by decide, by decide⟩

/-- A team at level U, without a handler. -/
def user0 : Team := { core0 with svc := false }

theorem witness_CsrWordsReadAndWrite : csrAccess 0x801 = .sro ∧ core0.svc = true ∧
    MayIssue (on .ctl core0) core0 { regs := [.s 1, .csr 0x801] } ∧ MayIssue (on .ctl core0) core0 { regs := [.s 1, .s 2, .csr 0x10] } ∧
    linkTrap ((on .ctl core0).atIssue core0) (core0.seen (on .ctl core0).cur) 0x10
      (csrNew .write ((on .ctl core0).csr (core0.seen (on .ctl core0).cur) 0x10) (core0.getS 1).v) = none ∧
    MayIssue (on .ctl core0) core0 { regs := [.s 1, .csr 0x13] } :=
  ⟨by decide, rfl, on_may (by decide), on_may (by decide), by decide, on_may (by decide)⟩

theorem witness_CsrWriteKeepsFields : (on .ctl core0).team (on .ctl core0).cur.cid = some core0 := on_team rfl

theorem witness_PrivilegedWordsTrapAtUserLevel : (on .ctl user0).team (on .ctl user0).cur.cid = some user0 ∧ user0.svc = false ∧
    (on .ctl user0).cur.nul = false ∧ (on .ctl user0).cur.phase ≠ .access ∧ (on .ctl user0).cur.phase ≠ .perform ∧
    user0.syncTrap (on .ctl user0).cur.wait (on .ctl user0).cur.signal = none ∧ csrAccess 0x801 = .sro ∧ csrAccess 0x806 = .sro :=
  ⟨on_team rfl, rfl, rfl, by decide, by decide, rfl, by decide, by decide⟩

theorem witness_TrapWordsPend : (on .ctl core0).cur.col = .ctl ∧ core0.handler = false ∧ MayIssue (on .ctl core0) core0 {} :=
  ⟨rfl, rfl, on_may (by decide)⟩

/-- A team whose frame, at byte 0x30000, names word 8 of ctl's ring as its handler. -/
def trapped0 : Team := { core0 with tfb := 0x30000, tfLen := 0x800, spad := writeNat [] 0x300F8 8 8 }

theorem witness_HandlerEntrySetsRegisters : readNat trapped0.spad (trapped0.tfb.toNat + 0xF8) 8 = 8 ∧
    (trapped0.col .ctl).inRing 8 = true := ⟨by decide, by decide⟩

theorem witness_HandlerEntryWritesFrame : Memory.wf trapped0.spad = true ∧ (trapped0.enterHandler 9 7 0x1A 5 4 0).isSome = true :=
  ⟨by decide, by decide⟩

theorem witness_NestedTrapReentersHandler : Team.depth { trapped0 with depth := 1 } = 1 ∧ Memory.wf trapped0.spad = true ∧
    readNat trapped0.spad (trapped0.tfb.toNat + 0xF8) 8 ≠ 0 ∧ (trapped0.col .ctl).inRing 8 = true ∧ core0.depth ≠ 1 :=
  ⟨rfl, by decide, by decide, by decide, by decide⟩

theorem witness_TrapWordsNest : (on .ctl trapped0).cur.col = .ctl ∧
    MayIssue (on .ctl { trapped0 with handler := true, depth := 1 }) { trapped0 with handler := true, depth := 1 } {} :=
  ⟨rfl, on_may (by decide)⟩

/-- A handler at depth 2, one at depth 1 whose frame passes its checks, and an interrupt that is pending and enabled. -/
theorem witness_ReturnsAndWaitForInterrupt :
    (∃ t : Team, t.depth = 2 ∧ t.sick = [] ∧ frameTrap ((on .ctl t).atIssue t) (t.seen (on .ctl t).cur) = none ∧
      MayIssue (on .ctl t) t { svc := true }) ∧
    (∃ t u : Team, t.depth ≠ 2 ∧ frameTrap ((on .ctl t).atIssue t) (t.seen (on .ctl t).cur) = none ∧
      (eretFrom (on .ctl t) t).eretOuter (csrTakes ((on .ctl t).atIssue t) (eretFrom (on .ctl t) t))
        ((on .ctl t).beatOf (eretFrom (on .ctl t) t)) = .ok u ∧ MayIssue (on .ctl t) t { svc := true }) ∧
    ∃ t : Team, (t.tip &&& t.tie) ≠ 0 ∧ MayIssue (on .ctl t) t { regs := [.csr 0x805] } :=
  ⟨⟨{ trapped0 with depth := 2, handler := true }, rfl, rfl, by decide, on_may (by decide)⟩,
   ⟨{ trapped0 with depth := 1, handler := true }, _, by decide, by decide, rfl, on_may (by decide)⟩,
   ⟨{ core0 with tip := 2, tie := 2 }, by decide, on_may (by decide)⟩⟩

theorem witness_CommonGroupOfColumns : (on .acs core0).cur.col ≠ .chn ∧ MayIssue (on .acs core0) core0 {} ∧
    MayIssue (on .ctl core0) core0 { regs := [.s 1] } ∧ Phase.perform = .perform ∧
    earlyOf ((on .acs core0).atIssue core0) (core0.seen (on .acs core0).cur) [2] = none :=
  ⟨by decide, on_may (by decide), on_may (by decide), rfl, by decide⟩

/-- A fixed loop with its bound, a loop of no iteration, and one by a mailbox. -/
theorem witness_LoopWordsOpenTheirBody : (on .ctl core0).cur.col ≠ .chn ∧
    loopTrap false (core0.col .ctl) 4 true (loopCount core0 (.reg 2) 7) (.reg 2) 7 3 = none ∧
    loopTrap false (core0.col .ctl) 4 false (loopCount core0 (.mbx 15) 4095) (.mbx 15) 4095 4 = none ∧
    (loopCount core0 (.mbx 15) 4095).v = 0 ∧ earlyOf ((on .ctl core0).atIssue core0) (core0.seen (on .ctl core0).cur) [2] = none ∧
    MayIssue (on .ctl core0) core0 { regs := [.s 2] } ∧ MayIssue (on .ctl core0) core0 { reject := true } :=
  ⟨by decide, by decide, by decide, by decide, by decide, on_may (by decide), on_may (by decide)⟩

/-- A word before the end of its body, one that ends it with an iteration left, and one that closes the loop. -/
theorem witness_HeadAfterWordFollowsLoops : 6 + 1 ≠ 5 + 3 ∧ 7 + 1 = 5 + 3 ∧ 0 + 1 < 2 ∧ 2 ≤ 1 + 1 := by decide

/-- A team with barrier 7 valid and its JLINK 31 enabled. -/
def linked0 : Team :=
  { core0 with bars := core0.bars.set 7 ⟨true, false, 1, 0⟩, cnt := core0.cnt.set 31 ⟨5, 5, 1⟩, flags := 1, timecmp := 0 }

/-- An unheld barrier, an enabled link, conditions that hold and one that does not, and untainted sound scratchpad. -/
theorem witness_SynchronisationWordsComplete : (linked0.bars.get (7 : BitVec 3).toFin).valid = true ∧
    linked0.accessBefore .ctl (on .ctl linked0).cur.id = false ∧
    MayIssue (on .ctl linked0) linked0 {} ∧ (linked0.cnt.get (31 : BitVec 5).toFin).link.getLsbD 0 = true ∧
    (linked0.getS 2).v.toNat < 2 ^ 32 ∧ MayIssue (on .ctl linked0) linked0 { regs := [.s 2] } ∧
    cwaitHolds ((on .ctl linked0).past linked0 1) (.flag 0) 0 = true ∧ cwaitHolds ((on .ctl linked0).past linked0 1) (.cnt 31) 0 = true ∧
    cwaitHolds ((on .ctl linked0).past linked0 1) (.flag 1) 0 = false ∧ (linked0.col .ctl).timed = false ∧
    (linked0.getS 2).t = false ∧ (linked0.getS 0).v = 0 ∧ (linked0.getS 5).v.toNat ≠ 0 ∧
    linked0.spBad (linked0.getS 4).v.toNat (min (linked0.getS 5).v.toNat (2 ^ 22)) = none ∧
    ((linked0.seen (on .ctl linked0).cur).view 0).spadTaint = [] ∧
    freshTrap (linked0.seen (on .ctl linked0).cur) 0 (linked0.getS 5).v.toNat [(linked0.getS 4).v.toNat] = none ∧
    linked0.unsealed (linked0.col .ctl).timed (linked0.getS 4).v.toNat (linked0.getS 5).v.toNat = false :=
  ⟨by decide, by decide, on_may (by decide), by decide, by decide, on_may (by decide), by decide, by decide +kernel, by decide, by decide,
   by decide, by decide, by decide, by decide, by decide, by decide, by decide⟩

/-- s7 tainted. -/
def tainted0 : Team := { core0 with s := core0.s.set 7 ⟨9, true⟩ }

theorem witness_TaintCheckTraps : MayIssue (on .ctl tainted0) tainted0 { regs := [.s 7] } ∧ (tainted0.getS 7).t = true :=
  ⟨on_may (by decide), by decide⟩

/-- A ring with one place left. -/
theorem witness_RingWordsAppendAndPublish : (core0.col .acs).ended = false ∧
    (core0.col .acs).put < (core0.col .acs).lowest + (core0.col .acs).size ∧
    freshTrap (core0.seen (on .ctl core0).cur) 0 8 [(core0.col .acs).base + 8 * ((core0.col .acs).put % (core0.col .acs).size)] = none ∧
    (∃ t : Team, (t.col .acs).put + 1 = (t.col .acs).lowest + (t.col .acs).size ∧ MayIssue (on .ctl t) t { regs := [.s 1] }) ∧
    MayIssue (on .ctl core0) core0 {} ∧ Memory.wf core0.spad = true :=
  ⟨rfl, by decide, by decide, ⟨{ core0 with cols := Vector.replicate 5 { ringed with put := 259 } }, by decide, on_may (by decide)⟩,
   on_may (by decide), rfl⟩

/-- An answer that is no error. -/
def isOk {ε α : Type} : Except ε α → Bool
  | .ok _ => true
  | .error _ => false

/-- Every answer that is no error is some value. -/
theorem isOk_some {ε α : Type} {x : Except ε α} (h : isOk x = true) : ∃ r, x = .ok r := by
  cases x with
  | ok r => exact ⟨r, rfl⟩
  | error _ => cases h

/-- A module in which job 0 has one leaf, readable and writable, that maps its addresses onto the window rows of
pseudo-channel 0; the leaf's table lies in the window too. -/
def mapped (c : Col) (t : Team) : State :=
  { on c t with
    jroot := State.reset.jroot.set 0 (BitVec.ofNat 64 (2 ^ 51 + 0x10001)), wrows := 4,
    mem := writeNat [] (2 ^ 51 + 0x10000) (2 ^ 51 + 0xF) 8, pcs := [{ blankPc 0 with winown := 1 }] }

/-- A word may issue in that module as it may in `on`. -/
theorem mapped_may {c : Col} {t : Team} {g : Gate} (h : ready c t g = true) : MayIssue (mapped c t) t g :=
  may_in (c := c) _ rfl (on_team (c := c) (ready_cid h)) h

/-- A dword in the first and in the last bytes of a bank of the scratchpad, and one of global memory. -/
theorem witness_LoadsComplete :
    (∀ o ∈ [(0 : Int), -0x1000], let x := spanOf .d (effAddr core0 4 o)
      spTrap (core0.seen (on .ctl core0).cur) x false true = none ∧ core0.unsealed (core0.col .ctl).timed x.a x.n = false) ∧
    (let x := spanOf .d (effAddr core0 4 0)
     let s := mapped .ctl core0
     let pas := (s.atIssue core0).reachedBy (core0.seen s.cur) .gl true false x
     (s.atIssue core0).farStall (core0.seen s.cur) true pas = false ∧ (s.atIssue core0).windowReqs core0.cid 0 false pas = [] ∧
     trapOf ((s.atIssue core0).loadBeyond (core0.seen s.cur) .gl .plain x) = none ∧
     ∃ r, ((entered s core0).asking ((entered s core0).reachedBy (s.past core0 1) .gl true false x)).loadBeyond (s.past core0 1) .gl .plain x =
       .ok r) ∧
    MayIssue (on .ctl core0) core0 { regs := [.s 1, .s 4] } ∧
    MayIssue (mapped .ctl core0) core0 { regs := [.s 1, .s 4], reject := true } :=
  ⟨by decide, ⟨by decide, by decide, by decide, isOk_some (by decide)⟩, on_may (by decide), mapped_may (by decide)⟩

theorem witness_StoresComplete :
    (∀ o ∈ [(0 : Int), 0x1FEFF8], spTrap (core0.seen (on .ctl core0).cur) (spanOf .d (effAddr core0 4 o)) true false = none) ∧
    core0.releaseWaits .rel .sp 3 (on .ctl core0).cur.id = false ∧ core0.releaseWaits .rel .gl 3 (on .ctl core0).cur.id = false ∧
    (let x := spanOf .d (effAddr core0 4 0)
     let s := mapped .ctl core0
     let pas := (s.atIssue core0).reachedBy (core0.seen s.cur) .gl false true x
     (s.atIssue core0).farStall (core0.seen s.cur) false pas = false ∧ (s.atIssue core0).windowReqs core0.cid 0 true pas = [] ∧
     trapOf ((s.atIssue core0).storeBeyond (core0.seen s.cur) .gl .plain x (core0.getS 1)) = none ∧
     ∃ r, ((entered s core0).asking ((entered s core0).reachedBy (s.past core0 1) .gl false true x)).storeBeyond (s.past core0 1) .gl .plain x
       (core0.getS 1) = .ok r) ∧
    MayIssue (on .ctl core0) core0 { regs := [.s 1, .s 4] } ∧
    MayIssue (mapped .ctl core0) core0 { regs := [.s 1, .s 4], reject := true } ∧ Memory.wf core0.spad = true :=
  ⟨by decide, by decide, by decide, ⟨by decide, by decide, by decide, isOk_some (by decide)⟩, on_may (by decide), mapped_may (by decide), rfl⟩

theorem witness_ScratchpadAtomicsComplete :
    (let sp := spanOf .d (core0.getS 4).v.toNat
     spTrap (core0.seen (on .ctl core0).cur) sp true true = none ∧ core0.unsealed (core0.col .ctl).timed sp.a sp.n = false) ∧
    core0.releaseWaits .ar .sp 3 (on .ctl core0).cur.id = false ∧
    MayIssue (on .ctl core0) core0 { regs := [.s 1, .s 4, .s 2], occ := 2 } ∧ Memory.wf core0.spad = true :=
  ⟨⟨by decide, by decide⟩, by decide, on_may (by decide), rfl⟩

theorem witness_GlobalAtomicsComplete :
    (let sp := spanOf .d (core0.getS 4).v.toNat
     let s := mapped .ctl core0
     let pas := (s.atIssue core0).reachedBy (core0.seen s.cur) .gl true true sp
     let run := fun (s : State) (t' : Team) => s.rmwBeyond t' .ar sp (amoRec .add) (core0.getS 1).t fun old =>
       some (amoValue .add sp.w old ((core0.getS 1).v.toNat % 2 ^ sp.w))
     trapOf (run (s.atIssue core0) (core0.seen s.cur)) = none ∧ core0.releaseWaits .ar .gl 3 s.cur.id = false ∧
     (s.atIssue core0).farStall (core0.seen s.cur) true pas = false ∧ (s.atIssue core0).windowReqs core0.cid 0 true pas = [] ∧
     ∃ r, run ((entered s core0).asking ((s.atIssue core0).reachedBy (s.past core0 1) .gl true true sp)) (s.past core0 1) = .ok r) ∧
    MayIssue (mapped .ctl core0) core0 { regs := [.s 1, .s 4, .s 2], reject := true } :=
  ⟨⟨by decide, by decide, by decide, by decide, isOk_some (by decide)⟩, mapped_may (by decide)⟩

/-- The line of an address, a count of ways that is kept and one that changes, a fence with and without caches, and an empty and a
full range. -/
theorem witness_CacheWordsComplete : MayIssue (on .ctl core0) core0 { regs := [.s 4], reject := true } ∧
    trapOf (cboPiece ((mapped .ctl core0).atIssue core0) (core0.seen (mapped .ctl core0).cur) 4 0) = none ∧
    core0.waysOpen = false ∧ (core0.getS 0).v.toNat = core0.ways ∧ waysBad core0 core0.ways = false ∧
    (core0.getS 6).v.toNat ≠ core0.ways ∧ waysBad core0 (core0.getS 6).v.toNat = false ∧
    core0.ctlLeft 15 0xFFFF (on .ctl core0).cur.id = false ∧
    fenceCaches .team 1 0xFFFF 1 = false ∧ fenceCaches .die 4 0xFFFF 1 = true ∧
    (core0.getS 0).v = 0 ∧ (let s := mapped .ctl core0
      let pas := ((s.atIssue core0).reachedBy (core0.seen s.cur) .gl true false ⟨0x1000, 0x1000, 8, 0, 64⟩).take 4096
      (s.atIssue core0).farStall (core0.seen s.cur) true pas = false ∧ (s.atIssue core0).windowReqs core0.cid 0 false pas = [] ∧
      ∃ l, (s.atIssue core0).translate (wantOf core0 .gl true false) (core0.getS 4).v.toNat (core0.getS 5).v.toNat = .ok l ∧
        (s.atIssue core0).firstTaint (core0.seen s.cur) (cutAll l) = none) :=
  ⟨on_may (by decide), by decide, by decide, by decide, by decide, by decide, by decide, by decide, by decide, by decide, by decide,
   by decide, by decide, ⟨[⟨0x1000, ⟨2 ^ 51 + 0x1000, none, true, true, 0⟩, 8⟩], by decide, by decide⟩⟩

theorem witness_WaysClearsChangedBanksOnly : Memory.wf (writeNat [] 0x1E0000 7 8) = true := by decide

/-- An odd address, and the first half beyond the banks. -/
theorem witness_BadLoadsTrap : MayIssue (on .ctl core0) core0 { regs := [.s 1, .s 4] } ∧ effAddr core0 4 1 % 2 ≠ 0 ∧
    core0.unsealed (core0.col .ctl).timed (effAddr core0 4 1) 2 = false ∧ core0.releaseWaits .rel .sp 0 (on .ctl core0).cur.id = false ∧
    effAddr core0 4 0x1FF000 % 2 = 0 ∧ (core0.spBad (effAddr core0 4 0x1FF000) 2).isSome = true :=
  ⟨on_may (by decide), by decide, by decide, by decide, by decide, by decide⟩

/-- A launch packet of no team at byte 0x1000 (R278): its first word says major 1. -/
def packet0 : Team := { core0 with spad := writeNat [] 0x1000 1 8 }

theorem witness_LaunchAndCancelComplete : (on .ctl packet0).boardFull = false ∧ (packet0.getS 4).v.toNat % 256 = 0 ∧
    packet0.accessBefore .ctl (on .ctl packet0).cur.id = false ∧ packet0.unsealed (packet0.col .ctl).timed 0x1000 256 = false ∧
    (let s := on .ctl packet0
     let pas := (s.atIssue packet0).reachedBy (packet0.seen s.cur) .sp true false ⟨0x1000, 0x1000, 256, 0, 2048⟩
     (s.atIssue packet0).farStall (packet0.seen s.cur) true pas = false ∧ (s.atIssue packet0).windowReqs packet0.cid 0 false pas = []) ∧
    trapOf ((((on .ctl packet0).atIssue packet0).cleanCache packet0.cid).launchBy (packet0.seen (on .ctl packet0).cur) .sp
      (packet0.getS 4).v.toNat) = none ∧
    (∃ r, ((entered (on .ctl packet0) packet0).cleanCache packet0.cid).launchBy ((on .ctl packet0).past packet0 1) .sp
      (packet0.getS 4).v.toNat = .ok r) ∧
    MayIssue (on .ctl packet0) packet0 { regs := [.s 1, .s 4], reject := true } ∧ (core0.getS 1).v.toNat % 256 ≠ 0 ∧
    MayIssue (on .ctl core0) core0 { svc := true, regs := [.s 1], reject := true } :=
  ⟨by decide, by decide, by decide, by decide, by decide, by decide, isOk_some (by decide), on_may (by decide), by decide, on_may (by decide)⟩

/-- The last fuse word, the last word of the identity, the lifecycle, and the last key slot's number and the one past it. -/
theorem witness_KensiaRequestsComplete : fuseBad 0 1023 1023 = false ∧ fuseBad 1 7 (2 ^ 56 + 7) = false ∧ fuseBad 2 0 (2 ^ 57) = false ∧
    (core0.getS 5).v.toNat ≤ 64 ∧ MayIssue (on .ctl core0) core0 { svc := true, regs := [.s 1, .s 5], reject := true } :=
  ⟨by decide, by decide, by decide, by decide, on_may (by decide)⟩

theorem witness_AddressResultLands : MayIssue (on .acs core0) core0 { regs := [.a 1, .a 2, .a 3] } := on_may (by decide)

/-- A descriptor at byte 0x1000: 16 rows of 128 bytes, 128 bytes apart, that wrap in 2048 bytes; and one of no row. -/
theorem witness_PatternWordsComplete : MayIssue (on .acs core0) core0 { regs := [.p 7] } ∧
    addrTaint core0 1 = none ∧ addrPlus (core0.getA 1).v.toNat 0 % 16 = 0 ∧ core0.spBad 0x1000 16 = none ∧
    (core0.seen (on .acs core0).cur).readsTrap 1 16 [0x1000] = none ∧ core0.unsealed (core0.col .acs).timed 0x1000 16 = false ∧
    MayIssue (on .acs core0) core0 { regs := [.a 1, .p 7] } ∧ (patOf (16 + 16 * 2 ^ 8 + 128 * 2 ^ 32 + 2048 * 2 ^ 64)).isSome = true ∧
    patOf 0 = none :=
  ⟨on_may (by decide), by decide, by decide, by decide, by decide, by decide, on_may (by decide), by decide, by decide⟩

theorem witness_RowAddresses : (⟨16, 128, 128, 0⟩ : Pattern).wrap = 0 ∧ (⟨16, 128, -128, 2 ^ 11⟩ : Pattern).wrap = 2 ^ 11 ∧
    (⟨16, 128, -128, 2 ^ 21⟩ : Pattern).wrap = 2 ^ 21 := by decide

/-- An entry of a w queue that has landed, with row 0 all zero but for the index -2^31 of row 1. -/
def indices : QEntry := ⟨1, true, ⟨0x80000000 <<< 32, 0⟩⟩

/-- A team with one landed entry in w0 and two in w1. -/
def queued0 : Team := { core0 with w := (core0.w.set 0 [indices]).set 1 [indices, indices] }

theorem witness_QueueLoadsComplete : core0.p.get (1 : BitVec 3).toFin = some ⟨2, 8, 16, 0⟩ ∧ (core0.qAt 3).length < 4 ∧
    (∀ r ∈ patRows ⟨2, 8, 16, 0⟩ (rowBase core0 1 0), core0.unsealed (core0.col .acs).timed r 8 = false) ∧
    readTrap (core0.seen (on .acs core0).cur) 1 8 (patRows ⟨2, 8, 16, 0⟩ (rowBase core0 1 0)) = none ∧
    MayIssue (on .acs core0) core0 { regs := [.a 1, .p 1], occ := 2 } ∧ (∀ y < 2, patAddr ⟨2, 8, 16, 0⟩ 0x1000 y % 8 = 0) :=
  ⟨by decide, by decide, by decide, by decide, on_may (by decide), by decide⟩

theorem witness_IndexedLoadCompletes : queued0.wAt 0 = [indices] ∧ indices.landed = true ∧ (queued0.qAt 0).length < 4 ∧
    (let rows := (indexRows indices.v.bits 2 (rowBase queued0 1 0)).filterMap id
     (∀ r ∈ rows, queued0.unsealed (queued0.col .acs).timed r 8 = false) ∧ indexTaint queued0 indices.v 2 = none ∧
     readTrap (queued0.seen (on .acs queued0).cur) 1 8 rows = none) ∧
    MayIssue (on .acs queued0) queued0 { regs := [.a 1, .p 1], occ := 4 } :=
  ⟨by decide, by decide, by decide, ⟨by decide, by decide, by decide⟩, on_may (by decide)⟩

theorem witness_QueueStoreCompletes : queued0.wAt 0 = [indices] ∧
    storeTrap (queued0.seen (on .acs queued0).cur) 1 8 (patRows ⟨2, 8, 16, 0⟩ (rowBase queued0 1 0)) = none ∧
    MayIssue (on .acs queued0) queued0 { regs := [.a 1, .p 1], occ := 2 } ∧ Memory.wf queued0.spad = true ∧
    patAddr ⟨2, 8, 16, 0⟩ 0x1000 0 + 8 ≤ patAddr ⟨2, 8, 16, 0⟩ 0x1000 1 :=
  ⟨by decide, by decide, on_may (by decide), rfl, by decide⟩

theorem witness_IndexedStoreCompletes : queued0.wAt 0 = [indices] ∧ queued0.wAt 1 = [indices, indices] ∧
    indexTaint queued0 indices.v 2 = none ∧
    storeTrap (queued0.seen (on .acs queued0).cur) 1 8 ((indexRows indices.v.bits 2 (rowBase queued0 1 0)).filterMap id) = none ∧
    MayIssue (on .acs queued0) queued0 { regs := [.a 1, .p 1], occ := 4 } :=
  ⟨by decide, by decide, by decide, by decide, on_may (by decide)⟩

theorem witness_GlobalRowWordsComplete : addrTaint queued0 1 = none ∧ (queued0.qAt 0).length < 4 ∧
    (let s := mapped .acs queued0
     let rows := patRows ⟨2, 8, 16, 0⟩ (rowBase queued0 1 0)
     let reached := fun (w : Bool) => (s.atIssue queued0).rowsReached (queued0.seen s.cur) w 8 rows
     let u := (s.past queued0 1).setQ 0 [⟨1, false, ⟨0, 0⟩⟩]
     let v := (s.past queued0 1).setW 0 []
     (∀ w : Bool, (s.atIssue queued0).farStall (queued0.seen s.cur) (!w) (reached w) = false ∧
       (s.atIssue queued0).windowReqs queued0.cid 0 w (reached w) = []) ∧
     trapOf (lqgRun (s.atIssue queued0) (queued0.seen s.cur) 8 rows) = none ∧
     (match lqgRun (rowsBegin s queued0 u false 8 rows) u 8 rows with
       | .ok r => (r.2.2.team 0).isSome
       | .error _ => false) = true ∧
     trapOf (sqgRun (s.atIssue queued0) (queued0.seen s.cur) 8 rows indices.v.bits.toNat 0 false) = none ∧
     ∃ r, sqgRun (rowsBegin s queued0 v true 8 rows) v 8 rows indices.v.bits.toNat 0 false = .ok r) ∧
    queued0.wAt 0 = [indices] ∧ MayIssue (mapped .acs queued0) queued0 { regs := [.a 1, .p 1], reject := true } :=
  ⟨by decide, by decide, ⟨by decide, by decide, by decide, by decide, isOk_some (by decide)⟩, by decide, mapped_may (by decide)⟩

/-- A bank's format of FP32 with scale 1.0, and one of Q4; an active configuration; a ring advance in its turn. -/
theorem witness_QueueAndRingWordsComplete : MayIssue (on .acs core0) core0 {} ∧
    (let v : Word := 0x3F80000000000001
     v.toNat / 2 ^ 11 % 2 ^ 21 = 0 ∧ core0.bankOk 15 = true ∧ v.toNat % 16 ≠ 8 ∧ v.toNat % 16 ≠ 9) ∧
    (let v : Word := 0x3F80000000000008
     v.toNat % 16 = 8 ∧ 0 < v.toNat / 2 ^ 32 ∧ v.toNat / 2 ^ 32 < 0x7F800000) ∧
    MayIssue (on .acs core0) core0 { regs := [.a 1] } ∧
    (∃ t : Team, t.active ≠ none ∧ t.ringRoom (t.col .acs).timed .a 1 = true ∧ MayIssue (on .acs t) t {}) ∧
    ∃ t : Team, t.advances = [((on .acs t).cur.id, .a, 4095)] :=
  ⟨on_may (by decide), by decide, by decide, on_may (by decide),
   ⟨{ core0 with active := some ⟨0, 2 * 2 ^ 32, 0, 0, 0, [], none, none⟩ }, by decide, by decide, on_may (by decide)⟩,
   ⟨{ core0 with advances := [(1, .a, 4095)] }, rfl⟩⟩

/-- A word of vec on v1 and v2 may issue, under the gate of its description; and one that pops q0. -/
theorem witness_VecResultSlices : (on .vec core0).cur.col = .vec ∧ 0 < 8 ∧ 0 < core0.rows ∧ core0.rows = 16 ∧
    (∃ t : Team, t.rows = 1 ∧ t.rowb = 1) := ⟨rfl, by decide, by decide, by decide, ⟨{ core0 with vshape := 0x101 }, by decide, by decide⟩⟩

/-- The gate of an elementwise floating-point word: it may issue, so every such statement has a case. -/
theorem witness_FloatWordsComplete : MayIssue (on .vec core0) core0 (VSpec.gate { ins := [.v 1, .v 2, .v 3], other := fpReads, lat := 4 }
    (dstReg (.reg (.v 4) 0)) ((on .vec core0).atIssue core0) (core0.seen (on .vec core0).cur)) := on_may (by decide)

theorem witness_SliceLandsInItsRows : (on .vec core0).team (on .vec core0).cur.cid = some core0 ∧
    (on .vec core0).upset core0.cid (on .vec core0).cur.id 3 = 0 ∧ 8 + 8 ≤ 16 ∧ (0 : Nat) + 16 ≤ 16 :=
  ⟨on_team rfl, by decide, by decide, by decide⟩

theorem witness_ElementsOfAResult : (8 : Nat) ∈ [8, 16, 32, 64] ∧ 128 * 8 ≤ 1024 ∧ 16 * 64 ≤ 1024 ∧ core0.rows ≤ 16 := by decide

/-- 1.0, the least subnormal and the largest finite number of FP32 are finite numbers, as is the largest of E4M3. -/
theorem witness_RepresentableValuesRoundToThemselves : (∀ c ∈ [0x3F800000, 1, 0x7F7FFFFF], ∃ neg n d, decodeF (fmtOf .f32) c = .fin neg n d) ∧
    ∃ neg n d, decodeF (fmtOf .e4m3) 0x7E = .fin neg n d := by
  refine ⟨?_, ⟨_, _, _, rfl⟩⟩
  simp only [List.forall_mem_cons, List.not_mem_nil, false_implies, implies_true, and_true]
  exact ⟨⟨_, _, _, rfl⟩, ⟨_, _, _, rfl⟩, ⟨_, _, _, rfl⟩⟩

/-- A third, in FP32, under each rounding mode. -/
theorem witness_DirectedRoundingBoundsTheValue : ∀ mode ∈ [(0 : Mode), 1, 2, 3, 4],
    ∃ rn rd, decodeF (fmtOf .f32) (deliver (fmtOf .f32) mode false (.fin false 1 3)).1 = .fin false rn rd := by
  simp only [List.forall_mem_cons, List.not_mem_nil, false_implies, implies_true, and_true]
  exact ⟨⟨_, _, rfl⟩, ⟨_, _, rfl⟩, ⟨_, _, rfl⟩, ⟨_, _, rfl⟩, ⟨_, _, rfl⟩⟩

theorem witness_CompareAndConvertWordsComplete : MayIssue (on .vec core0) core0
    (VSpec.gate { ins := [.v 1, .v 2], mask := ⟨7, true⟩, other := fpReads, lat := 4 } (dstReg (.mask 3)) ((on .vec core0).atIssue core0)
      (core0.seen (on .vec core0).cur)) := on_may (by decide)

/-- A quiet and a signalling NaN of FP32, and the two zeros. -/
theorem witness_ComparesOfNans : (decodeF (fmtOf .f32) 0x7FC00000).isNan = true ∧ (decodeF (fmtOf .f32) 0x7F800001).isSig = true ∧
    (∃ d, decodeF (fmtOf .f32) 0 = .fin false 0 d ∧ 0 < d) ∧ ∃ d, decodeF (fmtOf .f32) 0x80000000 = .fin true 0 d ∧ 0 < d :=
  ⟨by decide, by decide, ⟨_, rfl, by decide⟩, ⟨_, rfl, by decide⟩⟩

theorem witness_DivisionAndRootCorners : (0 : Nat) < 1 := by decide

theorem witness_ReductionWordsComplete : MayIssue (on .vec core0) core0 (VSpec.gate { ins := [.v 1, .v 2, .imm 16], other := fpReads, lat := 8 }
    (dstReg (.reg .lat 0)) ((on .vec core0).atIssue core0) (core0.seen (on .vec core0).cur)) := on_may (by decide)

theorem witness_IntegerWordsComplete : MayIssue (on .vec core0) core0 (VSpec.gate { ins := [.v 1, .s 2], other := [.csr 0x12], lat := 2 }
    (dstReg (.reg (.w 0) 0)) ((on .vec core0).atIssue core0) (core0.seen (on .vec core0).cur)) := on_may (by decide)

/-- A square tile of FP64, a row whose length 8 has the divisor 8, and a row and an element inside the shape. -/
theorem witness_MovementWordsComplete : core0.rows = 64 * core0.rowb / 64 ∧ isPow2 16 = true ∧ 16 % 8 = 0 ∧
    MayIssue (on .vec core0) core0 (VSpec.gate { ins := [.v 1], lat := 4, sr := 16, occ := 2, bound := fun t =>
      if t.rows = 64 * t.rowb / 64 then none else some (.bounds, 0) } (dstReg (.reg (.v 4) 0)) ((on .vec core0).atIssue core0)
      (core0.seen (on .vec core0).cur)) := ⟨by decide, by decide, by decide, on_may (by decide)⟩

theorem witness_CompressAndPartitionComplete : MayIssue (on .vec core0) core0
    (VSpec.gate { ins := [.v 1], mask := ⟨2, true⟩, lat := 6, sr := 16, occ := 2 } (some (.v 4)) ((on .vec core0).atIssue core0)
      (core0.seen (on .vec core0).cur)) ∧ (64 * core0.rowb / 32) * 32 ≤ 1024 ∧ core0.rows ≤ 16 ∧ core0.rowb ≤ 16 :=
  ⟨on_may (by decide), by decide, by decide, by decide⟩

theorem witness_BitNetworkAndPackWordsComplete : MayIssue (on .vec core0) core0
    (VSpec.gate { ins := [.v 1], other := [], lat := 4, sr := 16, occ := 2, range := netTrap (.v 1) } none
      ((on .vec core0).atIssue core0) (core0.seen (on .vec core0).cur)) ∧ netTrap (.v 1) core0 = none ∧ ElemTy.width .i16 = 16 ∧
    core0.enabled ⟨0, false⟩ 15 63 = true :=
  ⟨on_may (by decide), by decide, by decide, by decide⟩

/-- A vtab word of slot 3. -/
def slotSpec : VSpec where
  ins := [.v 1]
  other := fpReads ++ [.tab 3]
  lat := 10
  bound := fun t => if (t.slot 3).loaded then none else some (Cause.bounds, (3 : BitVec 2).setWidth 64)

/-- Nodes that are all zero are finite; a slot that has been loaded. -/
theorem witness_TableSelectAndMaskWordsComplete :
    MayIssue (on .vec core0) core0 (VSpec.gate { ins := [.v 1, .v 2], other := [], lat := 32, sr := 16, occ := 32, range := nodeTrap (.v 1) (.v 2) }
      none ((on .vec core0).atIssue core0) (core0.seen (on .vec core0).cur)) ∧
    (∃ t : Team, (t.slot 3).loaded = true ∧ MayIssue (on .vec t) t (slotSpec.gate (some (.v 4)) ((on .vec t).atIssue t) (t.seen (on .vec t).cur))) :=
  ⟨on_may (by decide), ⟨{ core0 with tab := core0.tab.set 3 ⟨true, .exp2, [], false⟩ }, by decide, on_may (by decide)⟩⟩

/-- A team whose set m1 holds the modulus 17 in every row. -/
def modular0 : Team := { core0 with vshape := 0x101, m := core0.m.set 1 (Vector.replicate 16 (some ⟨17, false, 2 ^ 64 / 17, false⟩)) }

/-- A modular word on two immediates under m1. -/
def modSpec : VSpec where
  ins := [.imm 17, .imm 31]
  other := [.csr 0x12, .set 1]
  lat := 6
  range := modTrap 1 .r32 [(.imm 17, VSrc.code (.imm 17), fun t y e => t.enabled ⟨0, false⟩ y e),
    (.imm 31, VSrc.code (.imm 31), fun t y e => t.enabled ⟨0, false⟩ y e)]

theorem witness_ModularWordsComplete : (∀ y < 16, modular0.modulus 1 y = 17) ∧ MayIssue (on .vec modular0) modular0
    (modSpec.gate (some (.v 4)) ((on .vec modular0).atIssue modular0) (modular0.seen (on .vec modular0).cur)) :=
  ⟨by decide, on_may (by decide)⟩

theorem witness_ButterflyAndSetWordsComplete : bflyTrap 4 .r32 core0 = none ∧ bflyTrap 5 .r32 core0 ≠ none ∧
    setTrap (.imm 31) .r64 ⟨0, false⟩ core0 = none ∧
    MayIssue (on .vec core0) core0 (VSpec.gate { ins := [.imm 31], lat := 4, sr := 16, range := setTrap (.imm 31) .r64 ⟨0, false⟩ } none
      ((on .vec core0).atIssue core0) (core0.seen (on .vec core0).cur)) := ⟨by decide, by decide, by decide, on_may (by decide)⟩

/-- 17 is not below the modulus 17: s7 holds it. -/
theorem witness_ResidueOutOfRangeTraps : MayIssue (on .vec modular0) modular0 {} ∧ missing modular0 [.s 7, .imm 17] = none ∧
    (∃ t : Team, t = { modular0 with s := modular0.s.set 7 ⟨17, false⟩ } ∧ (modTrap 1 .r32 [(.s 7, VSrc.code (.s 7), fun u y e =>
      u.enabled ⟨0, false⟩ y e)] t).map (·.1) = some .modular) :=
  ⟨on_may (by decide), by decide, ⟨_, rfl, by decide⟩⟩

/-- A linear-strided record for a 16 by 16 tile of one-byte elements at a scratchpad byte (R303). -/
def tileRecord (base : Nat) : Nat :=
  0x3F800000_00010010 + base * 2 ^ 64 + (16 + 16 * 2 ^ 32) * 2 ^ 128 + (1 + 2 ^ 32) * 2 ^ 192 + 2 ^ 256 + 16 * 2 ^ 320

/-- The nest table of the worked example of the matrix chapter: L0 has TRIPS 2, AADV 1, BADV 1 and ZERO, and L1 to L5 one trip. -/
def nestTable : Nat :=
  0x100110002 + 2 ^ 64 + 2 ^ 128 + 2 ^ 192 + 2 ^ 256 + 2 ^ 320

/-- Records at 0x1000 and 0x1040 that s4 and s8 name, for tiles at 0x40000 and 0x42000; the nest table at 0x1080 (s9) and a
descriptor of the first record at 0x10C0 (s10); a free dword at 0x10C8 (s11); s12 the ring value of two slots of 512 bytes
of the worked example; bank 2 holds E4M3. -/
def tiled0 : Team :=
  { core0 with
    bfmt := core0.bfmt.set 2 0x3F80000000000004,
    s := ((((core0.s.set 8 (plain 0x1040)).set 9 (plain 0x1080)).set 10 (plain 0x10C0)).set 11 (plain 0x10C8)).set 12 (plain 0x1002000000)
    spad := writeNat (writeNat (writeNat (writeNat [] 0x1000 (tileRecord 0x40000) 64) 0x1040 (tileRecord 0x42000) 64) 0x1080 nestTable 48)
      0x10C0 0x1000 8 }

theorem witness_MatConfigurationWordsComplete : (core0.getS 0).v.toNat < 2 ^ 15 ∧ (core0.getS 0).v.toNat / 2 ^ 13 % 4 ≠ 3 ∧
    earlyRead ((on .mat core0).atIssue core0) (core0.seen (on .mat core0).cur) (sReads [0] ++ [.shadow 3]) = none ∧
    MayIssue (on .mat core0) core0 {} ∧ ringValueBad (tiled0.getS 12).v = false ∧ core0.granulesBad 23 1 = false ∧
    core0.granulesBad 23 (tileGranules (16 * (0 / 2 ^ 12 % 32 + 1)) (16 * (0 / 2 ^ 17 % 16 + 1)) 0) = false :=
  ⟨by decide, by decide, by decide, on_may (by decide), by decide, by decide, by decide⟩

theorem witness_NestWordReadsItsTable : valueTrap tiled0 (tiled0.getS 9).v 8 48 = none ∧ valueTrap tiled0 (tiled0.getS 10).v 1 8 = none ∧
    nestUnsealed tiled0 (tiled0.col .mat).timed 10 (tiled0.getS 9).v.toNat (tiled0.getS 10).v.toNat = false ∧
    earlyRead ((on .mat tiled0).atIssue tiled0) (tiled0.seen (on .mat tiled0).cur) (sReads [9, 10]) = none ∧
    MayIssue (on .mat tiled0) tiled0 {} ∧ (∃ l, levelsOf (readNat tiled0.spad 0x1080 48) 6 = .ok l ∧ ∀ e ∈ l, e.drain = false) ∧
    (descOf (readNat tiled0.spad 0x10C0 8)).isSome = true ∧ levelOf (readNat tiled0.spad 0x10C8 8) = none ∧
    (∃ e, levelOf (readNat (writeNat [] 0 (1 + 2 ^ 33) 8) 0 8) = some e ∧ e.drain = true) ∧ tiled0.sick = [] ∧
    ∃ t : Team, (t.eccTrap 48 [0x1080]).isSome = true :=
  ⟨by decide, by decide, by decide, by decide, on_may (by decide), ⟨_, rfl, by decide⟩, by decide, by decide, ⟨_, rfl, by decide⟩, rfl,
   ⟨{ tiled0 with sick := [(0x1080 / 8, 2)] }, by decide⟩⟩

/-- A team whose engines have a configuration in force; its neighbour is another team of its launch. -/
def active0 : Team := { tiled0 with active := some ⟨0, 0x1002000000, 0x1002020000, 0, 0, [], none, none⟩ }

/-- A neighbour, on core 1. -/
def core1 : Team := { core0 with cid := 1 }

/-- Two teams of one launch, at a word of the first. -/
def pair (c : Col) (t u : Team) : State := { on c t with teams := [t, u] }

/-- A word may issue beside another team as it may alone. -/
theorem pair_may {c : Col} {t u : Team} {g : Gate} (h : ready c t g = true) : MayIssue (pair c t u) t g :=
  may_in (c := c) _ rfl (by simp [pair, State.team, ready_cid h]) h

theorem witness_EngineWordsJoinTheQueue : active0.queued < 4 ∧ (∃ t : Team, t.queued = 3 ∧ t.cid = 0) ∧
    earlyRead ((on .mat active0).atIssue active0) (active0.seen (on .mat active0).cur) [.shadow 0, .shadow 1, .shadow 2] = none ∧
    active0.willBeActive = true ∧ active0.granulesBad 23 1 = false ∧ active0.granulesBad 0 24 = false ∧
    writeTrap active0 (active0.getS 11).v = none ∧ earlyRead ((on .mat active0).atIssue active0) (active0.seen (on .mat active0).cur)
      (sReads [11]) = none ∧ MayIssue (on .mat active0) active0 {} ∧ MayIssue (pair .mat active0 core1) active0 {} ∧
    ((pair .mat active0 core1).atIssue active0).peerTrap (active0.seen (pair .mat active0 core1).cur) (active0.col .mat).timed
      (active0.getS 6).v 1 = none :=
  ⟨by decide, ⟨{ core0 with engine := List.replicate 3 ⟨1, Cur.none, .nop, ⟨0, 0, 0, 0, 0, [], none, none⟩, [], 0, 0, 0, 0, false, false,
    none, none, none⟩ }, by decide, rfl⟩, by decide, by decide, by decide, by decide, by decide, by decide, on_may (by decide),
    pair_may (by decide), by decide⟩

/-- A record may be read before the word issues, but not while a write of its bank's format is due. -/
theorem witness_DrainWordsJoinTheQueue : tiled0.queued < 4 ∧ tiled0.granulesBad 0 1 = false ∧
    trapOf (drainRecs ((on .mat tiled0).atIssue tiled0) (tiled0.seen (on .mat tiled0).cur) 0 16 16 4 (some 8)) = none ∧
    (∃ l, drainRecs ((on .mat tiled0).atIssue tiled0) ((on .mat tiled0).past tiled0 1) 0 16 16 4 (some 8) = .ok l) ∧
    (match drainRecs ((on .mat tiled0).atIssue tiled0) (tiled0.seen (on .mat tiled0).cur) 0 16 16 4 (some 8) with
      | .ok l => decide (earlyRead ((on .mat tiled0).atIssue tiled0) (tiled0.seen (on .mat tiled0).cur) (sReads [4, 8] ++ l.flatMap bankReads) = none)
      | .error _ => false) = true ∧
    (∀ r ∈ [(4 : SReg), 8], tiled0.unsealed (tiled0.col .mat).timed (tiled0.getS r).v.toNat 64 = false) ∧ MayIssue (on .mat tiled0) tiled0 {} :=
  ⟨by decide, by decide, by decide +kernel, isOk_some (by decide +kernel), by decide +kernel, by decide, on_may (by decide)⟩

/-- The first and the last granule. -/
theorem witness_ZeroWordClearsItsGranules : Memory.wf core0.acc = true ∧ core0.granulesOpen false 0 24 = false ∧
    core0.applying 23 1 = false ∧ (∃ t : Team, ∃ j ∈ t.engine, j.id = (on .mat t).cur.id) :=
  ⟨rfl, by decide, by decide, ⟨{ core0 with engine := [⟨1, Cur.none, .mzero 23 0, ⟨0, 0, 0, 0, 0, [], none, none⟩, [], 0, 0, 0, 0, true, false,
    none, none, none⟩] }, _, List.mem_singleton.2 rfl, rfl⟩⟩

/-- A team with 16 live slots of ring A. -/
def live0 : Team := { tiled0 with rA := ⟨0x1002000000, 0, 16, []⟩ }

theorem witness_PlaitPopAndCheckComplete : writeTrap tiled0 (tiled0.getS 11).v = none ∧
    earlyRead ((on .mat tiled0).atIssue tiled0) (tiled0.seen (on .mat tiled0).cur) (sReads [11]) = none ∧ MayIssue (on .mat tiled0) tiled0 {} ∧
    Memory.wf tiled0.spad = true ∧ (live0.ringOf .a).head + live0.popsAhead .a + 15 + 1 ≤ (live0.ringOf .a).tail ∧
    live0.nestReads .a 0 16 = false ∧ MayIssue (on .mat live0) live0 {} ∧
    (∃ (t : Team) (j : MatJob), t.jobOf (on .mat t).cur.id = some j ∧ j.cx.args = [0x10C8] ∧ (on .mat t).upset t.cid j.id 4 = 0) :=
  ⟨by decide, by decide, on_may (by decide), by decide, by decide, by decide, on_may (by decide),
   ⟨{ tiled0 with engine := [⟨1, { Cur.none with args := [0x10C8] }, .mchk 11, ⟨0, 0, 0, 0, 0, [], none, none⟩, [], 0, 0, 0, 0, true, false,
    none, none, none⟩] }, _, rfl, rfl, by decide⟩⟩

theorem witness_ConfigurationWritesLand : (on .acs core0).team (on .acs core0).cur.cid = some core0 ∧ (15 : Nat) < 16 ∧
    core0.inbox.busy = false ∧ core0.inbox.early = [] ∧ (∃ t : Team, t.inbox.busy = true) :=
  ⟨on_team rfl, by decide, rfl, rfl, ⟨{ core0 with inbox := { core0.inbox with busy := true } }, rfl⟩⟩

/-- A linear-strided record of 16 elements in a row, each of n bytes (R303). -/
def rowRecord (base n : Nat) : Nat :=
  0x3F800000_00000010 + base * 2 ^ 64 + (16 + 2 ^ 32) * 2 ^ 128 + (1 + 2 ^ 32) * 2 ^ 192 + n * 2 ^ 256

/-- Records of 16 elements at 0x1000 (s4), 0x1040 (s8) and 0x1080 (s9): of bytes at 0x40000 and 0x42000 in a bank of E4M3,
and of FP16 at 0x60000; a dword for a plait at 0x10C0 (s10), one for a check dword at 0x10C8 (s11), and a request of the
host DMA at 0x1100 (s12) whose record goes to 0x2000. -/
def copying0 : Team :=
  { core0 with
    bfmt := (core0.bfmt.set 2 0x3F80000000000004).set 3 0x3F80000000000003,
    s := ((((core0.s.set 8 (plain 0x1040)).set 9 (plain 0x1080)).set 10 (plain 0x10C0)).set 11 (plain 0x10C8)).set 12 (plain 0x1100)
    spad := writeNat (writeNat (writeNat (writeNat [] 0x1000 (rowRecord 0x40000 1) 64) 0x1040 (rowRecord 0x42000 1) 64) 0x1080
      (rowRecord 0x60000 2) 64) 0x1100 (1 + 0x2000 * 2 ^ 64 + 32 * 2 ^ 256) 64 }

/-- What a copy word needs to start. -/
def startsCopy (s : State) (t : Team) (l : List SReg) (w : CopyWord) : Bool :=
  decide (trapOf ((s.atIssue t).planCopy (t.seen s.cur) (s.curAt t) w) = none) &&
  !copyStall t w ((s.atIssue t).planCopy (t.seen s.cur) (s.curAt t) w) &&
  decide (earlyRead (s.atIssue t) (t.seen s.cur) (sReads l ++ copyBanks ((s.atIssue t).planCopy (t.seen s.cur) (s.curAt t) w)) = none) &&
  isOk ((s.atIssue t).planCopy (s.past t 1) (s.curAt t) w)

/-- CP, CPD, CPFILL and CP.CB from an FP16 record may start, and CPRES of a copy whose resume dword is 0. -/
theorem witness_CopyWordsStartTheirCopy :
    startsCopy (on .cpy copying0) copying0 [4, 8] ⟨0, 0, 0, 0x1000, 0x1040, [], 7⟩ = true ∧
    startsCopy (on .cpy copying0) copying0 [4, 8, 10, 11] ⟨1, 10 * 2 ^ 18 + 11 * 2 ^ 12, 0, 0x1000, 0x1040, [plain 0x10C0, plain 0x10C8], 7⟩ = true ∧
    startsCopy (on .cpy copying0) copying0 [8, 6] ⟨3, 6 * 2 ^ 18, 0, 0, 0x1040, [plain 1], 7⟩ = true ∧
    startsCopy (on .cpy copying0) copying0 [9] ⟨0, 2 ^ 23 + 5 * 2 ^ 19, 0, 0x1080, 0, [], 7⟩ = true ∧ (copying0.getS 0).v.toNat = 0 ∧
    MayIssue (on .cpy copying0) copying0 {} :=
  ⟨by decide +kernel, by decide +kernel, by decide +kernel, by decide +kernel, by decide, on_may (by decide)⟩

/-- A copy in flight, elastic or timed, of a word that stores four bytes. -/
def inFlight (timed : Bool) : Copy :=
  { id := 1, cx := { Cur.none with col := .cpy, id := 1 }, op := 0, body := 0, regS := 0, regD := 0, regs := [], cls := 0, src := none, dst := none,
    first := 0, chunk := 0, chunks := 1, sent := 0, left := 0, exc := 0, image := [], expect := 0, kept := [], fill := ⟨0, false⟩, timed := timed,
    faulted := false, halted := false }

theorem witness_StartedCopyIsInFlight : (on .cpy core0).team core0.cid = some core0 ∧ (inFlight true).timed = true ∧
    (inFlight false).timed = false := ⟨on_team (c := .cpy) rfl, rfl, rfl⟩

/-- The two plans are the same, none of what they read is held, and no bank's format is still to be written. -/
def checkable (s : State) (t : Team) (a k : Nat) : Bool :=
  let held := fun (x n : Nat) => t.unsealed (t.col .cpy).timed x n || t.copyInto x n
  !held a 64 && !held k 8 && match (s.atIssue t).chkPlan (t.seen s.cur) a k, (s.atIssue t).chkPlan (s.past t 1) a k with
    | .ok l, .ok m => decide (l = m) && l.all (fun x => !held x 1) &&
        decide (earlyRead (s.atIssue t) (t.seen s.cur) (sReads [4, 10] ++ (banksOf l).map .bank) = none)
    | _, _ => false

theorem witness_CopyCheckFoldsItsImage : (copying0.getS 4).v.toNat = 0x1000 ∧ (copying0.getS 10).v.toNat = 0x10C0 ∧
    checkable (on .cpy copying0) copying0 0x1000 0x10C0 = true ∧ copying0.copies = [] ∧ MayIssue (on .cpy copying0) copying0 {} :=
  ⟨by decide, by decide, by decide, rfl, on_may (by decide)⟩

theorem witness_EngineRequestsAreHandedOver : copying0.cpx.length < 16 ∧ dwordTrap copying0 0x1100 64 = none ∧
    (copying0.seen (on .cpy copying0).cur).readsTrap 2 64 [0x1100] = none ∧ copying0.unsealed (copying0.col .cpy).timed 0x1100 64 = false ∧
    copying0.copyInto 0x1100 64 = false ∧
    earlyRead ((on .cpy copying0).atIssue copying0) (copying0.seen (on .cpy copying0).cur) (sReads [12]) = none ∧
    (∀ e ∈ [0, 1, 2], ((on .cpy copying0).atIssue copying0).cpxBad copying0 e (readNat ((copying0.seen (on .cpy copying0).cur).view 2).spad
      0x1100 64) = false) ∧ MayIssue (on .cpy copying0) copying0 { reject := true } :=
  ⟨by decide, by decide, by decide, by decide, by decide, by decide, by decide, on_may (by decide)⟩

/-- A sector of some cells, of a copy or of a drain. -/
def sector0 (path : Col) (cells : Cells) : Sector := ⟨cells, 0, 1, 7, path, 0, true, false, [], []⟩

/-- A sector of two bytes at the first and the last byte of the last bank, one whose byte lies past the banks, one of a drain
that is longer than 256 bytes, and one for write slots. -/
theorem witness_SectorLandingWritesItsCells : (on .cpy core0).team (on .cpy core0).cur.cid = some core0 ∧ Memory.wf core0.spad = true ∧
    (let x := sector0 .cpy [(0x1E0000, 1, false), (0x1FFFFF, 2, false)]
     x.cells.map (·.1) = [0x1E0000, 0x1FFFFF] ∧ [0x1E0000, 0x1FFFFF].Nodup ∧ core0.landConflict x = none) ∧
    core0.landTrap 1 [0x1E0000, 0x1FFFFF] = none ∧ (core0.landTrap 1 [0x200000]).isSome = true ∧
    (let x := sector0 .mat ((List.range 257).map fun i => (0x1E0000 + i, 1, false))
     256 < x.cells.length ∧ core0.landTrap 1 (x.cells.map (·.1)) = none ∧
     core0.landConflict { x with cells := x.cells.take 256 } = none) ∧
    2 ^ 32 ≤ ((sector0 .cpy [(2 ^ 32, 1, false)]).cells.headD (0, 0, false)).1 ∧ (on .cpy core0).upset 1 7 6 = 0 :=
  ⟨on_team rfl, rfl, ⟨rfl, by decide, by decide⟩, by decide, by decide, ⟨by decide, by decide, by decide⟩, by decide, by decide⟩

/-- The copy that CP starts, from 0x40000 to 0x42000. -/
def started (timed : Bool) : Copy :=
  match (on .cpy copying0).planCopy copying0 { Cur.none with col := .cpy, id := 1 } ⟨0, 0, 0, 0x1000, 0x1040, [], 0⟩ with
  | .ok k => { k with timed := timed }
  | .error _ => inFlight timed

/-- A row group of a drain that has written byte 0x40000 and has not committed. -/
def openDrain : RowGroup :=
  ⟨1, 1, 1, 0, 16, 16, 0, 0, 0, 0, 0, false, [], 0, true, false, false, false, 0, [], [], 0, [(0x40000, 0, false)], [], 0, 0, 0, 0, Cur.none,
    0, []⟩

/-- The copy starts where nothing holds it: its chunk is made, and what it reaches asks for no demand request. -/
def makes (s : State) (t : Team) (k : Copy) : Bool :=
  !k.halted && k.spadSource.all (fun a => !t.unsealed k.timed a 1) && (s.tableReach t k).all (fun a => !s.filling a 1) &&
  match s.makeChunk t k k.chunk with
  | .ok r => let pas := s.chunkReach t k r
      (s.windowReqs t.cid k.id false pas.1 ++ s.windowReqs t.cid k.id true pas.2).isEmpty && (r.state.team t.cid).isSome
  | .error _ => false

/-- An elastic copy whose source an open drain holds; a timed and an elastic one whose chunk goes to a scratchpad; one that
loads a slot; one whose chunk faults: its source is at no mapped address. -/
theorem witness_CopyChunksComplete :
    ((started false).halted = false ∧ (started false).timed = false ∧
      (started false).spadSource.any (fun a => Team.unsealed { copying0 with border := [openDrain] } false a 1) = true) ∧
    (∀ b : Bool, makes (on .cpy copying0) copying0 (started b) = true ∧ (started b).target = 0 ∧ (started b).dst.map (·.loc) = some 0) ∧
    { started true with body := 2 ^ 23 }.target = 2 := by decide +kernel

/-- A copy that performs, with and without its ring advance. -/
theorem witness_CopiesPerform : Team.copy { core0 with copies := [inFlight false], advances := [(1, .a, 16)] } (on .cpy core0).cur.id =
      some (inFlight false) ∧
    [((1, .a, 16) : Nat × Ring × Nat)].filter (fun x => x.1 = (inFlight false).id) = [((inFlight false).id, .a, 16)] := by decide

/-- The check dword of a copy with the expected plait and of one without. -/
theorem witness_CheckDwordsLand :
    { inFlight true with expect := 1 }.plaitS ≠ { inFlight true with expect := 1 }.expect ∧ (inFlight true).plaitS = (inFlight true).expect ∧
    core0.landTrap 0 ((List.range 8).map (0x10C8 + ·)) = none ∧ (core0.landTrap 1 ((List.range 8).map (0x200000 + ·))).isSome = true ∧
    Memory.wf core0.spad = true := by decide

/-! ## Witnesses: channels and rims -/

/-- A program of level S on pseudo-channel 0 that core 0 owns. -/
def prog0 : ChanProg := ⟨0, 0, 0, true, [], { blankColumn with ended := false }, 0, 0⟩

/-- Pseudo-channel 0 with every bank closed and nothing in its history. -/
def chan0 : Pc := { blankPc 0 with prog := some prog0 }

/-- Pseudo-channel 0 with bank 6 open on row 3. -/
def opened0 : Pc := chan0.setBank 6 (some 3)

/-- The module with one team at work and four rows in each window, a word of the channel program about to be executed. -/
def chan (p : Pc) (t : Team) : State := { on .chn t with pcs := [p], wrows := 4 }

theorem chan_may : MayIssueChan (chan chan0 core0) core0 chan0 prog0 ∧ MayIssueChan (chan opened0 core0) core0 opened0 prog0 :=
  ⟨mayIssueChan_sound (by decide), mayIssueChan_sound (by decide)⟩

/-- Every row of a window of four exists in the part. -/
theorem row_fits : 3 < Config.rimRows 0 := by unfold Config.rimRows; omega

/-- ACT on the last row of the window; PRE and PREA of an open bank and of none; REF, REFSB and MRW with every bank closed. -/
theorem witness_CommandWordsComplete : MayIssueChan (chan chan0 core0) core0 chan0 prog0 ∧
    chan0.open? (4 * (1 : BitVec 2).toNat + (2 : BitVec 2).toNat) = none ∧ (3 : BitVec 18).toNat < (chan chan0 core0).wrows ∧ 3 < Config.rimRows 0 ∧
    chan0.actFails core0.clk 6 = [] ∧ MayIssueChan (chan opened0 core0) core0 opened0 prog0 ∧
    (∀ b ∈ (List.range 16).filter fun b => (opened0.open? b).isSome, opened0.closeFails core0.clk b = []) ∧
    (∀ b < 16, chan0.open? b = none) ∧ chan0.wholeFails core0.clk .ref (List.range 16) = [] ∧ chan0.wholeFails core0.clk .refsb [3, 7, 11, 15] = [] ∧
    prog0.svc = true ∧ chan0.wholeFails core0.clk .mrw (List.range 16) = [] :=
  ⟨chan_may.1, by decide, by decide, row_fits, by decide, chan_may.2, by decide, by decide, by decide, by decide, by decide, by decide⟩

/-- The same program at level U. -/
def user1 : Pc := { chan0 with prog := some { prog0 with svc := false } }

/-- ACT of an open bank, and of the first row outside the window; RD and WR of a closed bank; REF with a bank open; MRW at
level U. -/
theorem witness_BadCommandsAreSuppressed : MayIssueChan (chan opened0 core0) core0 opened0 prog0 ∧ opened0.open? 6 ≠ none ∧
    (chan opened0 core0).wrows ≤ (4 : BitVec 18).toNat ∧ opened0.open? 5 = none ∧ (∃ b < 16, opened0.open? b ≠ none) ∧
    MayIssueChan (chan user1 core0) core0 user1 { prog0 with svc := false } :=
  ⟨chan_may.2, by decide, by decide, by decide, by decide, mayIssueChan_sound (by decide)⟩

/-- A history of an ACT and a PRE of bank 1 in the order of their beats. -/
theorem witness_ActTimingRules : [(⟨0, 0, 1⟩ : CmdRec), ⟨2, 3, 1⟩].Pairwise (fun x y => x.tick ≤ y.tick) := by decide

/-- RD and WR of column 63 of the open row, with core 0 as the target of the RD. -/
theorem witness_DataWordsComplete : MayIssueChan (chan opened0 core0) core0 opened0 prog0 ∧ opened0.open? 6 = some 3 ∧
    3 < (chan opened0 core0).wrows ∧ 3 < Config.rimRows 0 ∧ opened0.moveFails core0.clk 6 true = [] ∧ opened0.moveFails core0.clk 6 false = [] ∧
    isOk ((chan opened0 core0).chanJudge core0 .read (2 ^ 51 + 3 * 2 ^ 14 + 6 * 2 ^ 10 + 63 * 32)) = true ∧
    isOk ((chan opened0 core0).chanJudge core0 .write (2 ^ 51 + 3 * 2 ^ 14 + 6 * 2 ^ 10 + 63 * 32)) = true ∧
    (chan opened0 core0).team 0 = some core0 ∧ core0.banks.getLsbD (32 * 0xFFFF / 131072) = true ∧
    (∀ x ∈ opened0.slotLand, x.1 = 0 → x.2 + 63 < core0.clk ∨ core0.clk < x.2) :=
  ⟨chan_may.2, by decide, by decide, row_fits, by decide, by decide, by decide, by decide, by decide, by decide, by decide⟩

/-- LOOPF and LOOPE of an immediate count, LOOPE of a register that holds 0 inside an open body, HOOP, and RDV with no RD
outstanding and with one that lands in 44 beats. -/
theorem witness_CommonGroupOfChannels : MayIssueChan (chan chan0 core0) core0 chan0 prog0 ∧
    loopTrap (core0.ndet = 2) prog0.st 4 true (loopCount core0 .imm 3) .imm 3 1 = none ∧
    loopTrap (core0.ndet = 2) prog0.st 4 false (loopCount core0 .imm 3) .imm 3 1 = none ∧
    (loopCount core0 (.reg 0) 3).v = 0 ∧ loopTrap (core0.ndet = 2) prog0.st 4 false (loopCount core0 (.reg 0) 3) (.reg 0) 3 1 = none ∧
    (⟨2, 4, 3, true, 3, 0⟩ : LoopRec).holds 4 = true ∧ (⟨2, 2, 3, true, 3, 0⟩ : LoopRec).holds 4 = false ∧
    (((chan chan0 core0).chanDone core0 chan0 prog0 1).pc 0).isSome = true ∧ (((chan chan0 core0).chanStep core0 chan0 prog0 1).pc 0).isSome = true ∧
    (chan chan0 core0).cur.phase ≠ .perform ∧ (chan chan0 core0).rdLeft chan0.pc = 0 ∧
    (chan chan0 { core0 with pend := [⟨300, 0, Cur.none, .rdLanding 0 0 0 false false⟩] }).rdLeft 0 = 44 ∧
    (chan chan0 core0).cur.signal = .none :=
  ⟨chan_may.1, by decide, by decide, by decide, by decide, by decide, by decide, by decide, by decide, by decide, by decide, by decide, by decide⟩

/-- A landing in the last granule of the scratchpad, and one in a bank that the launch does not have. -/
theorem witness_ChannelLandingsComplete : (chan chan0 core0).team (chan chan0 core0).cur.cid = some core0 ∧
    (chan chan0 core0).upset 0 1 6 = 0 ∧ Memory.wf core0.spad = true ∧
    core0.landTrap 0 ((List.range 32).map (32 * 0xFFFF + ·)) = none ∧
    core0.landConflict ⟨(List.range 32).map fun i => (32 * 0xFFFF + i, 0, false), 0, 0, 1, .chn, 0, true, true, [], []⟩ = none ∧
    ({ core0 with banks := 1 } : Team).landTrap 0 ((List.range 32).map (32 * 0xFFFF + ·)) ≠ none :=
  ⟨by decide, by decide, by decide, by decide, by decide, by decide⟩

/-- Pseudo-channel 0 far behind its refreshes, and one with the default program. -/
def late0 : Pc := { chan0 with t0 := 1, debt := Vector.replicate 16 1, queue := [⟨.refresh, 3, 0, 0, 0⟩, ⟨.scrub, 4, 1, 0, 0⟩], winEnd := 2 ^ 32 }

theorem witness_RimEventsComplete :
    (let s := chan late0 { core0 with clk := 2 ^ 24 }
     s.pc s.cur.pc = some late0 ∧ late0.owned = true ∧ s.team 0 = some { core0 with clk := 2 ^ 24 } ∧ prog0.lastAt ≠ 2 ^ 24) ∧
    (blankPc 0).owned = false ∧ (chan chan0 core0).canClose (blankPc 0) = false ∧
    (chan chan0 core0).canClose ((blankPc 0).setBank 6 (some 3)) = true ∧ (chan chan0 core0).upsets = [] ∧
    (chan late0 core0).temps.find? (fun x => x.1 = 0) = none ∧ (chan chan0 core0).pc 767 = none ∧
    (∃ s : State, s.upsets = [⟨0, 8, 7, 1⟩]) :=
  ⟨by decide, by decide, by decide, by decide, by decide, by decide, by decide, ⟨{ chan chan0 core0 with upsets := [⟨0, 8, 7, 1⟩] }, rfl⟩⟩

/-- A demand refresh fits a window that is long enough, whatever the fused timing. -/
theorem witness_DemandsAreServed : (chan late0 core0).canServe late0 = true := by
  have h : serveTicks (rimOf late0.pc) .refresh ≤ 540 := by
    simp only [serveTicks, Config.fusedTiming, Config.archTiming]
    simp
  have hw : (chan late0 core0).inWindow late0 (serveTicks (rimOf late0.pc) .refresh) = true := by
    unfold State.inWindow
    have hp : late0.prog = some prog0 := rfl
    have ho : late0.owned = true := by decide
    have ht : (chan late0 core0).team prog0.owner = some core0 := by decide
    have h1 : core0.clk = 256 := rfl
    have h2 : late0.winEnd = 2 ^ 32 := rfl
    have h3 : prog0.lastAt = 0 := rfl
    have h4 : late0.busyTill = 0 := rfl
    simp only [hp, ho, ht, h1, h2, h3, h4]
    simp
    omega
  unfold State.canServe
  have hq : late0.queue = [⟨.refresh, 3, 0, 0, 0⟩, ⟨.scrub, 4, 1, 0, 0⟩] := rfl
  have ht : (late0.prog.bind fun g => (chan late0 core0).team g.owner) = some core0 := by decide
  have hs : late0.settled core0.clk ⟨.refresh, 3, 0, 0, 0⟩ = true := by decide
  simp only [hq, hw, ht, hs]
  simp

/-! ## Witnesses: events of a team, of its group and of its engines -/

/-- A job's barrier and a counter at the last value before an overflow. -/
def counted0 : Team := core0.modCnt 31 fun c => { c with val := 0xFFFFFFFE }

/-- A launch of job 7 in phase 5 with ordinal 3, whose packet holds the given dwords. -/
def launch0 (st : LState) (pkt : List Word) : Launch :=
  { handle := 2, job := 7, ord := 3, phase := 5, graph := 0, order := 0, state := st, source := 0, queue := none, tag := 0, pkt := pkt, grants := [],
    sync := [], bankimg := [], mbx := [], unread := none, cids := [0], pcs := [], bars := Vector.replicate 8 BarCount.zero, taint := false, conflicts := 0,
    status := 0, offset := 0, cut := none, drain := none, image := none, savedTeams := [], savedPcs := [], savedBeat := 0 }

/-- Job 7 in its phase 5. -/
def job0 : Job := ⟨7, 5, 4, Vector.replicate 8 BarCount.zero, 1, 0, 0, [], false⟩

/-- A team of that launch. -/
def member0 : Team := { core0 with launch := 2, job := 7, ord := 3 }

/-- The module with that launch at work. -/
def launched (st : LState) (pkt : List Word) : State := { on .ctl member0 with launches := [launch0 st pkt], jobs := [job0] }

theorem witness_TeamEventsComplete : (on .ctl counted0).team (on .ctl counted0).cur.cid = some counted0 ∧
    (counted0.cnt.get (31 : BitVec 5).toFin).val.toNat + 1 < 2 ^ 32 ∧
    (launched .running []).teamNamed 7 3 0 = some member0 ∧ (on .ctl core0).teamNamed 7 3 0 = none ∧
    core0.inSvc .acs = false ∧ (on .acs core0).cur.phase = .issue ∧ (on .acs core0).cur.col ≠ .chn ∧ core0.svc = true ∧
    core0.accessBefore .ctl 1 = false ∧ 2 ^ 32 ≤ (counted0.cnt.get (31 : BitVec 5).toFin).val.toNat + 2 ∧
    ∃ t : Team, t.accessBefore .ctl 2 = true :=
  ⟨on_team rfl, by decide, by decide, by decide, by decide, by decide, by decide, rfl, by decide, by decide,
   ⟨{ core0 with pend := [⟨300, 0, { Cur.none with id := 1, phase := .access }, .ld 1 2 0 .sp .plain .d 0⟩] }, by decide⟩⟩

/-- A team whose ctl waits in a hoop for a beat. -/
def hooped (c : Nat) (h : Word) : Team :=
  { core0 with cid := c, cols := core0.cols.set 0 { ringed with hoop := some ⟨h, 0, true, 4, [], .none⟩ } }

/-- A group of two teams of a launch. -/
def together (t u : Team) : State := pair .ctl { t with tgroup := true } { u with tgroup := true }

/-- Two teams whose hoops have the target 300, and two whose targets are 300 and 301. -/
theorem witness_AlignmentPulseStartsItsColumns : (together (hooped 0 300) (hooped 1 300)).kensia.stretchReq = none ∧
    (together (hooped 0 300) (hooped 1 300)).groupProgs (.launch 0) = [] ∧
    (let s := together (hooped 0 300) (hooped 1 300)
     (∃ t ∈ s.groupTeams (.launch 0), t.hoops ≠ []) ∧
     ∀ t ∈ s.groupTeams (.launch 0), (300 : Word).toNat ≥ (s.beatOf t).toNat ∧ t.delta = 0 ∧ dieOf t.cid < 5 ∧ ∀ x ∈ t.hoops, x.2.target = 300) ∧
    let s := together (hooped 0 300) (hooped 1 301)
    ∃ t ∈ s.groupTeams (.launch 0), ∃ u ∈ s.groupTeams (.launch 0), ∃ x ∈ t.hoops, ∃ y ∈ u.hoops, x.2.target ≠ y.2.target := by decide

/-- A team with a trap pending whose handler stands at word 8, and one without a trap. -/
theorem witness_FreezeStopsItsExtent :
    let s := pair .ctl { trapped0 with traps := [⟨.vec, 3, 9, 0, 5, 0, 3⟩] } core1
    (s.teams.map (·.cid)).Nodup ∧
    (∀ t ∈ s.teams, (s.extent [.team 0] s.teams.length).contains t.group = true → t.failedGroup = none ∧ t.handler = false ∧ s.stops t = false) ∧
    ((s.extent [.team 0] s.teams.length).contains (.team 0) = true) ∧ ((s.extent [.team 0] s.teams.length).contains (.team 1) = false) ∧
    (s.settling fun t => (s.extent [.team 0] s.teams.length).contains t.group) = none ∧
    (let u := { core0 with pend := [⟨300, 0, { Cur.none with col := .acs }, .queueEntryLands 0 1 ⟨0, 0⟩⟩] }
     u.settles ⟨300, 0, { Cur.none with col := .acs }, .queueEntryLands 0 1 ⟨0, 0⟩⟩ = false) ∧
    (firstTrap [⟨.vec, 3, 9, 0, 5, 0, 3⟩]).isSome = true ∧ core1.traps = [] ∧
    ({ core0 with tip := 2, tie := 2, tstat := 2, svc := false } : Team).interrupt = some (.timerInt, 0) ∧ core1.takeable = false ∧
    (readNat trapped0.spad (trapped0.tfb.toNat + 0xF8) 8 ≠ 0) ∧ (trapped0.col .ctl).inRing (readNat trapped0.spad (trapped0.tfb.toNat + 0xF8) 8) = true := by
  decide +kernel

/-- The configuration of the tests: rings of E4M3 and a nest of two trips. -/
def cfg0 : MatCfg := ⟨0, 0x1002060000, 0x1002080000, 0, 0, [], some ⟨[⟨2, 1, 1, 0, true, false, false⟩], none⟩, none⟩

/-- A word at the head of the engine queue. -/
def jobFor (i : Instr) : MatJob := ⟨1, Cur.none, i, cfg0, [], 0, 0, 0, 0, true, false, none, none, none⟩

/-- A team whose rings are live and whose engine has a word. -/
def engaged (i : Instr) : Team :=
  { tiled0 with active := some cfg0, bfmt := (tiled0.bfmt.set 3 0x3F80000000000004).set 4 0x3F80000000000004, rA := ⟨0x1002060000, 0, 2, []⟩, rB := ⟨0x1002080000, 0, 2, []⟩, engine := [jobFor i] }

/-- A plain mgo whose checks pass and whose first step's slots are live, a mop on the last granule, and a drain. -/
theorem witness_EngineEventsStartTheirWork : (on .mat (engaged (.mgo 23))).team 0 = some (engaged (.mgo 23)) ∧
    (engaged (.mgo 23)).jobOf (on .mat (engaged (.mgo 23))).cur.id = some (jobFor (.mgo 23)) ∧
    isOk ((on .mat (engaged (.mgo 23))).activation (engaged (.mgo 23)) (jobFor (.mgo 23)) (engaged (.mgo 23))) = true ∧
    (∃ p, (on .mat (engaged (.mgo 23))).nextStep (engaged (.mgo 23)) (jobFor (.mgo 23)) = some p ∧
      (on .mat (engaged (.mgo 23))).stepReady (engaged (.mgo 23)) (jobFor (.mgo 23)) p = true ∧
      (on .mat (engaged (.mgo 23))).stepEcc (engaged (.mgo 23)) p cfg0 = none) ∧
    (∃ p, (on .mat (engaged (.mop 23 false 0 0))).nextStep (engaged (.mop 23 false 0 0)) (jobFor (.mop 23 false 0 0)) = some p ∧
      (on .mat (engaged (.mop 23 false 0 0))).stepReady (engaged (.mop 23 false 0 0)) (jobFor (.mop 23 false 0 0)) p = true ∧
      (match (on .mat (engaged (.mop 23 false 0 0))).mopCfg (engaged (.mop 23 false 0 0)) cfg0 with
        | .ok c => decide ((on .mat (engaged (.mop 23 false 0 0))).stepEcc (engaged (.mop 23 false 0 0)) p c = none)
        | .error _ => false) = true) ∧
    (engaged (.mop 23 false 0 0)).active.isSome = true ∧ (engaged (.mop 23 false 0 0)).granulesBad 23 1 = false ∧
    (let t := engaged (.mdrain 0 4 0 0)
     let j := jobFor (.mdrain 0 4 0 0)
     let d := t.nextDrain j
     j.exit = false ∧ t.applying d.g (tileGranules d.m d.n d.acc) = false ∧ t.recordsSealed j d = true ∧
       t.accEccTrap d.span.1 d.span.2 = none ∧ isOk ((on .mat t).drainTargets t j d) = true) ∧ (jobFor (.mgoQuad 0)).quadAt = none :=
  ⟨rfl, rfl, by decide +kernel, ⟨_, rfl, by decide +kernel, by decide +kernel⟩, ⟨_, rfl, by decide +kernel, by decide +kernel⟩, by decide, by decide,
    by decide +kernel, rfl⟩

/-- A row group of 16 by 16 that has completed, with the two values of FP32, the given staked word and destination. -/
def group0 (stake : Word) (loc core : Nat) : RowGroup :=
  { id := 9, job := 0, kind := 0, g := 23, m := 16, n := 16, acc := 0, row := 0, step := 0, posA := 0, posB := 0, zero := true, deps := [],
    complete := 0, done := true, failed := false, committed := false, released := false, part := 0, vals := [0x3F800000, 0x40000000],
    taint := [], exc := 0, bytes := [], saved := [], loc := loc, core := core, seq := 0, stake := stake, cx := Cur.none }

/-- A team with a row group in the Border, at the group's event. -/
def bordered (r : RowGroup) : State :=
  let s := on .mat { core0 with border := [r] }
  { s with cur := { s.cur with args := [9] } }

/-- A row group with no wrong value, and one of which one engine's image differs. -/
theorem witness_RowGroupsCommitOrFreeze : (bordered (group0 0 0 0)).team 0 = some { core0 with border := [group0 0 0 0] } ∧
    (bordered (group0 0 0 0)).cur.args = [9] ∧ ({ core0 with border := [group0 0 0 0] } : Team).rowGroup 9 = some (group0 0 0 0) ∧
    (bordered (group0 0 0 0)).upset 0 9 1 = 0 ∧ Memory.wf core0.acc = true ∧ (group0 1 0 0).stake ≠ (bordered (group0 1 0 0)).upset 0 9 1 ∧
    plait (wrong 0x10001 (group0 0x10001 0 0).image) ≠ plait (wrong 0 (group0 0x10001 0 0).image) :=
  ⟨rfl, rfl, rfl, by decide, rfl, by decide, by decide +kernel⟩

/-- A contribution of FP32 for a tile of 16 by 16. -/
def contribution0 : Contribution := ⟨1, 5, 0, 16, 16, 0, [0x3F800000], [false]⟩

/-- A team whose inbox is for that tile, idle or with the contribution taken. -/
def inboxed (rows : List Contribution) (busy : Bool) : Team :=
  { core0 with inbox := { g := 0, cfg := 5, seq := 5, active := true, early := [], rows := rows, row := 0, busy := busy, applied := [] } }

/-- A row group that failed its check: the staked image has one wrong bit. -/
def failed0 : RowGroup := { group0 0x10001 0 0 with failed := true }

/-- A row group bound for core 1 at its release and after it, one whose bytes go to a mapped page and one to none, a
contribution in its turn, one before its turn and one of another shape, one to apply, and a group for Bodkin. -/
theorem witness_BorderEventsComplete :
    (let s := pair .mat { core0 with border := [group0 0 3 1] } core1
     ({ core0 with border := [group0 0 3 1] } : Team).rowGroup 9 = some (group0 0 3 1) ∧ (group0 0 3 1).loc = 3 ∧ s.team 1 = some core1 ∧
       (1 : Nat) ≠ core0.cid) ∧
    isOk ((mapped .mat core0).storeMapped core0 .mat [(0x1000, 7, false)] [⟨0, 2, 0, 2 ^ 51 + 0xF⟩]) = true ∧
    isOk ((mapped .mat core0).storeMapped core0 .mat [] []) = true ∧
    (inboxed [] false).inbox.active = true ∧ (inboxed [] false).inbox.busy = false ∧
    (contribution0.acc, contribution0.m, contribution0.n) = (inboxed [] false).inbox.shape ∧ contribution0.seq = (inboxed [] false).inbox.seq ∧
    ({ contribution0 with seq := 6 }.seq ≠ (inboxed [] false).inbox.seq ∧ (6 : Nat) ∉ (inboxed [] false).inbox.applied ∧
      (inboxed [] false).inbox.early = []) ∧
    ({ contribution0 with m := 32 }.m ≠ (inboxed [] false).inbox.shape.2.1) ∧
    (inboxed [contribution0] true).applyDue = some contribution0 ∧ (inboxed [contribution0] true).accEccTrap 0 1024 = none ∧
    core0.failedGroup = none ∧
    (let t := { core0 with border := [failed0] }
     t.failedGroup = some failed0 ∧ t.rowGroup failed0.id = some failed0 ∧ t.jobOf failed0.job = none ∧ failed0.kind = 0 ∧
       (on .mat t).upset 0 9 1 = 0 ∧ (on .mat t).upset 0 9 2 = 0) ∧
    wrong failed0.stake failed0.image ≠ failed0.image ∧ Memory.wf core0.acc = true :=
  ⟨⟨rfl, rfl, rfl, by decide⟩, by decide +kernel, by decide +kernel, rfl, rfl, by decide, rfl, by decide, by decide, by decide, by decide, by decide,
   ⟨rfl, rfl, rfl, rfl, by decide, by decide⟩, by decide +kernel, rfl⟩

/-! ## Witnesses: the dispatcher -/

/-- The module of `mapped` with queue 0 of job 0 open: one entry of the given dwords to read at 0x2000, records to 0x2800
with their count to 0x2A00, and one record pending. -/
def queue0 (e0 e1 : Nat) : State :=
  let s := { mapped .ctl core0 with mem := writeNat (writeNat (mapped .ctl core0).mem (2 ^ 51 + 0x2000) e0 8) (2 ^ 51 + 0x2008) e1 8 }
  let q := { s.queues[0] with qctl := 1, qbase := 0x2000, tail := 1, eqbase := 0x2800, eqta := 0x2A00, pendRecs := [(3, [1, 2, 3, 4])] }
  { s with queues := s.queues.set 0 q, cur := { s.cur with args := [0] } }

/-- Entries of kind 0, of kind 1 and 2 whose packet at 0x3000 can be read, of the kinds 3 and 255, and one with a reserved bit. -/
theorem witness_HostQueueEntriesAreTaken :
    (∀ p ∈ [(0, 0, (none : Option Nat)), (1, 0x3000, none), (2, 0x3000, none), (2 ^ 32, 0, some 0x4000), (2 ^ 32 + 1, 0, some 0x4000),
        (3, 0, some 0x4000), (255, 0, some 0x4000), (2, 0x3008, some 0x4008)],
      (queue0 p.1 p.2.1).queueReads 0 = true ∧ isOk ((queue0 p.1 p.2.1).nextEntry 0) = true ∧
      (match (queue0 p.1 p.2.1).nextEntry 0 with | .ok e => entryOff e == p.2.2 | .error _ => false) = true) ∧
    isOk ((queue0 1 0x3000).vdwords ((queue0 1 0x3000).queues[0]).job 0x3000 32) = true := by decide +kernel

/-- A record is written at 0x2800 and its count at 0x2A00. -/
theorem witness_EventRecordsAreWritten : (queue0 0 0).recordReady 0 = true ∧ ((queue0 0 0).queues[0]).pendRecs = [(3, [1, 2, 3, 4])] ∧
    (match (queue0 0 0).vwrite 0 0x2800 (List.replicate 32 1) with
      | .ok s => isOk (s.vwrite 0 0x2A00 (bytesOf 1 8)) | .error _ => false) = true := by decide +kernel

/-- A packet for one core at the origin of die 0. -/
def packet1 : List Word := [0, 0x100010001] ++ List.replicate 30 0

/-- A launch that waits for nothing, and one that waits on; one that is READY for core 0, one that is SAVED, one without a
core, and one whose table cannot be read; one set up; its team of core 0. -/
theorem witness_LaunchesStart : (launched .waiting packet1).launches = [launch0 .waiting packet1] ∧
    (launched .waiting packet1).depsHold (launch0 .waiting packet1) = some true ∧ (∀ e ∈ (launched .waiting packet1).agenda, e.act ≠ .dependencePoll) ∧
    (let s := { launched .ready packet1 with teams := [] }
     s.choose = some (.place 2 (0, 0, 0)) ∧ s.launch 2 = some (launch0 .ready packet1) ∧
     isOk (State.setupSpad { s with free := s.free + 1 } (launch0 .ready packet1)) = true ∧
     isOk (State.setupProgs { s with free := s.free + 1 } (launch0 .ready packet1) (0, 0, 0)) = true ∧
     ({ s with launches := [{ launch0 .ready packet1 with unread := some 24 }] } : State).choose = some (.place 2 (0, 0, 0))) ∧
    ({ launched .saved packet1 with teams := [] } : State).choose = some (.place 2 (0, 0, 0)) ∧
    ({ launched .ready (List.replicate 32 0) with teams := [] } : State).choose = some (.finish 2 0) ∧ (on .ctl core0).choose = none ∧
    (launched .setup packet1).launch 2 = some (launch0 .setup packet1) ∧ (launch0 .setup packet1).cut = none ∧
    (((launched .setup packet1).teams ++ [core1]).map (·.cid)).Nodup :=
  ⟨rfl, by decide +kernel, by decide, ⟨by decide +kernel, rfl, by decide +kernel, by decide +kernel, by decide +kernel⟩, by decide +kernel,
   by decide +kernel, by decide +kernel, rfl, rfl, by decide⟩

/-- A launch whose columns have ended, and one that is cut. -/
theorem witness_LaunchesComplete :
    (let s := { launched .running packet1 with teams := [{ member0 with cols := Vector.replicate 5 blankColumn }] }
     s.launch 2 = some (launch0 .running packet1) ∧ s.finished (launch0 .running packet1) = true ∧ (s.teams.map (·.cid)).Nodup) ∧
    ({ launch0 .running packet1 with cut := some 9 } : Launch).cut.isSome = true := ⟨⟨rfl, by decide +kernel, by decide⟩, rfl⟩

/-- A launch that is drained for its job, one DRAINING with a context image, and one set up from a save. -/
theorem witness_DrainsSavesAndRestores :
    (launched .running packet1).launch 2 = some (launch0 .running packet1) ∧ (launch0 .running packet1).cut = none ∧
    ({ launch0 .draining packet1 with image := some (0, 0) } : Launch).image.isSome = true ∧
    (launched .draining packet1).arbitrates 2 = false ∧ ((launched .draining packet1).teams.map (·.cid)).Nodup ∧
    (launched .setup packet1).launch 2 = some (launch0 .setup packet1) ∧
    (let l := { launch0 .ready ((3 * 2 ^ 16 : Word) :: packet1.tail) with handle := 3, cids := [] }
     ({ launched .running packet1 with launches := [launch0 .running packet1, l] } : State).needsDrained = [2]) :=
  ⟨rfl, rfl, rfl, by decide, by decide, rfl, by decide +kernel⟩

/-! ## Witnesses: beyond the package, Kensia, power and the whole machine -/

/-- A request of engine 1, whose record goes to 0x2000, and its place at the fabric: answered by die 8 (no route), or on its way. -/
def req0 : CpxReq := { id := 1, engine := 1, cls := 0, desc := bytesOf (1 + 0x2000 * 2 ^ 64) 64, cx := { Cur.none with col := .cpy, id := 1 } }

/-- The module with that request. -/
def asking (die : Nat) : State :=
  let s := on .cpy { core0 with cpx := [req0] }
  { s with fabric := [⟨9, die, 0, 0, 0, 1⟩], cur := { s.cur with args := [0] } }

theorem witness_FabricEventsComplete :
    (let s := asking 8
     (s.fabric.find? fun x => x.id = 9) = some ⟨9, 8, 0, 0, 0, 1⟩ ∧ s.curReq = some ⟨9, 8, 0, 0, 0, 1⟩) ∧
    (match (asking 8).reqHome ⟨9, 8, 0, 0, 0, 1⟩ with | .live t r => t == { core0 with cpx := [req0] } && r == req0 | _ => false) = true ∧
    (match ({ asking 8 with teams := [] } : State).reqHome ⟨9, 8, 0, 0, 0, 1⟩ with | .gone => true | _ => false) = true ∧
    (match ({ asking 8 with teams := [{ core0 with cpx := [req0], frozen := true }] } : State).reqHome ⟨9, 8, 0, 0, 0, 1⟩ with
      | .away => true | _ => false) = true ∧
    (asking 8).engineLost ⟨9, 8, 0, 0, 0, 1⟩ = true ∧ (asking 0).engineLost ⟨9, 0, 0, 0, 0, 1⟩ = false ∧
    (let t := { core0 with cpx := [req0] }
     (asking 8).reqQueued t req0 = false ∧ (asking 8).reqFilling t req0 = false ∧ (asking 8).reqAsks t req0 = []) ∧
    cpxFld (natOfBytes req0.desc) 1 0 21 = 0x2000 ∧ core0.landTrap 0 ((List.range 32).map (0x2000 + ·)) = none ∧ req0.cx.col = .cpy ∧
    Memory.wf core0.spad = true ∧ (1 : Nat) ≠ (asking 1).resetsOf (9 % 8) ∧ (∀ f ∈ (asking 1).fabric, f.die ≠ 5 % 8) ∧
    (on .ctl core0).curReq = none :=
  ⟨by decide, by decide +kernel, by decide +kernel, by decide +kernel, by decide +kernel, by decide +kernel, by decide +kernel, by decide +kernel,
   by decide +kernel, rfl, rfl, by decide, by decide, by decide⟩

/-- A frame that the device takes, one that goes on to a port with a partner, one of a later version. -/
def frame0 (minor : Nat) (out : Option Nat) : LinkUnits := ⟨3, minor, out, none, 0, 0, [], [1, 2], none⟩

theorem witness_LinkFramesGoOn :
    let s := { on .ctl core0 with partners := [(3, 0, 0), (4, 0, 1)] }
    (frame0 0 none).crc = none ∧ fld (s.vers[3]).toNat 16 8 < (frame0 255 none).minor ∧ (frame0 0 none).minor ≤ fld (s.vers[3]).toNat 16 8 ∧
      s.kensia.portDown 3 = false ∧ s.kensia.portDown 4 = false ∧ (∃ q ∈ s.partners, q.1 = 3) ∧ (∃ q ∈ s.partners, q.1 = 4) ∧
      (∀ q ∈ s.partners, q.1 ≠ 5) ∧ s.accepts 4 0 = true ∧ s.accepts 3 1 = false ∧
      { frame0 0 none with dest := some ⟨.q4, 0, 0, []⟩, code := 1 }.dest = some ⟨.q4, 0, 0, []⟩ ∧ s.kensia.portDown 15 = false := by decide

/-- The module is ready, a host may reach the first bytes of device memory, and the tables of job 0 have a leaf that no TLB
holds. -/
theorem witness_OutsideEventsComplete : (on .ctl core0).kensia.step = 6 ∧ 0 + 32 ≤ 2 ^ 36 ∧ ¬ (2 ^ 36 - 31 + 32 ≤ 2 ^ 36) ∧
    (on .ctl core0).poisoned 0 32 = false ∧ (on .ctl core0).upsets = [] ∧ (on .ctl core0).poison = [] ∧ Memory.wf (on .ctl core0).mem = true ∧
    (mapped .ctl core0).walkTables 0 0x1000 = .ok (2 ^ 51 + 0xF, 2) ∧
    (mapped .ctl core0).leafOk ⟨0, false, true, false⟩ (leafOf (2 ^ 51 + 0xF) 2 0x1000) 1 = true ∧ (mapped .ctl core0).tlb = [] ∧
    (match (on .ctl core0).walkTables 0 0x1000 with | .ok _ => false | .error _ => true) = true := by decide +kernel

/-- A host's write to the first bytes of the address space lies in memory. -/
theorem witness_HostMemoryWrite : (on .ctl core0).rangeOk 0 32 = true := by
  have hl : (on .ctl core0).liveRims = [0, 1, 2, 3, 4, 5] := by decide
  have hw : (on .ctl core0).wrows = 0 := rfl
  have hm : (on .ctl core0).kensia.rimMap = [0, 1, 2, 3, 4, 5] := rfl
  have hn : ¬ Config.rimRows 0 ≤ 3 := by unfold Config.rimRows; omega
  simp [State.rangeOk, State.addressable, State.placeOf, hl, hw, hm, fld, hn]

/-- The last pseudo-channel and the first number past it; one that is marked. -/
theorem witness_MarksAndDeadlines :
    let s := on .ctl core0
    let m := { s with kensia := { s.kensia with marks := [(⟨3, 767⟩, 0xFF, 0)] } }
    fld (0x302FF : Word).toNat 16 3 = 3 ∧ fld (0x302FF : Word).toNat 0 16 < 768 ∧ ¬ fld (0x30300 : Word).toNat 0 16 < 768 ∧
      s.isMarked ⟨3, 767⟩ = false ∧ s.kensia.retired.contains ⟨3, 767⟩ = false ∧ 4 ≤ fld (0x40000 : Word).toNat 16 3 ∧
      m.isMarked ⟨3, 767⟩ = true ∧ m.coresFree (m.concerned ⟨3, 767⟩) = true := by decide +kernel

/-- The module with no team, in which a unit is marked. -/
def marked (u : UnitId) : State :=
  let s := { on .ctl core0 with teams := [] }
  { s with kensia := { s.kensia with marks := [(u, 0xFF, 0)] } }

/-- The same with core 3 of field 0 marked, when all other cores of the field but one are out of service and some fields are
parked. -/
def spent (last : Nat) (parked : List UnitId) : State :=
  let gone := ((List.range 272).filter fun p => p != 3 && p != last).map fun p => (⟨0, p⟩ : UnitId)
  { marked ⟨0, 3⟩ with kensia := { (marked ⟨0, 3⟩).kensia with retired := gone ++ parked } }

/-- What takes the place of core 3: a spare (false) or a core that then serves two (true). -/
def taker (s : State) : Option (Nat × Bool) := (s.outOfService ⟨0, 3⟩).takerOf 0

/-- Marked units: the last pseudo-channel; a die spare; a core of a field; a field without routes. -/
theorem witness_MarkedUnitsRetire :
    (∀ u ∈ [(⟨3, 767⟩ : UnitId), ⟨0, 271⟩, ⟨0, 3⟩, ⟨5, 0⟩], ((marked u).kensia.marks.find? fun x => x.1 = u) = some (u, 0xFF, 0)) ∧
    (∀ (u : UnitId) (l : List Nat), (marked u).coresFree l = true) ∧ (marked ⟨0, 3⟩).kensia.remapDie[dieFin (dieOf 3)] = 3 / 272 ∧
    (spent 271 []).kensia.standing = some 5 ∧ (spent 271 [⟨5, 5⟩]).kensia.standing = none ∧ (marked ⟨5, 0⟩).diesOf 0 = [0] :=
  ⟨by decide, fun _ _ => rfl, by decide, by decide +kernel, by decide +kernel, by decide⟩

/-- Core 3 serves itself, and the last spare of the field takes its place. -/
theorem witness_TakersOfACore : (allCores.filter fun c => (marked ⟨0, 3⟩).physCore c = 3) = [3] ∧ taker (spent 271 []) = some (271, false) :=
  ⟨by decide +kernel, by decide +kernel⟩

/-- The last rim, and the first number past it. -/
theorem witness_RimsFail : (5 : Nat) < 6 ∧ 6 ≤ 6 ∧ (on .ctl core0).kensia.retired.contains ⟨4, 5⟩ = false ∧
    ((on .ctl core0).launches.map (·.handle)).Nodup ∧ (on .ctl core0).kensia.standing = some 5 ∧ Memory.wf (on .ctl core0).mem = true := by decide

/-- A launch that holds core 0 whose core is marked. -/
theorem witness_RetirementDeadline :
    let s := launched .running packet1
    let m := { s with kensia := { s.kensia with marks := [(⟨0, s.physCore 0⟩, 0xFF, 0)] } }
    m.isMarked ⟨0, s.physCore 0⟩ = true ∧ m.coresFree (m.concerned ⟨0, s.physCore 0⟩) = false := by decide +kernel

/-- The image's last byte at the end of host memory, and one past it; an interrupted and a failed write of the flash. -/
theorem witness_FirmwareIsStaged : (1 : Word).getLsbD 0 = true ∧ fld (on .ctl core0).kensia.fwctl.toNat 4 4 ≠ 1 ∧
    (2 ^ 64 - 1) + fld (0x101 : Word).toNat 8 32 = 2 ^ 64 ∧ 2 ^ 64 < (2 ^ 64 - 1) + fld (0x201 : Word).toNat 8 32 ∧
    (on .ctl core0).bringUpFault 16 = false ∧ (on .ctl core0).bringUpFault 17 = false ∧
    (∀ n ∈ [16, 17], ∃ s : State, s.bringUpFault n = true) := by
  refine ⟨by decide, by decide, by decide, by decide, by decide, by decide, fun n hn => ?_⟩
  rcases List.mem_cons.1 hn with rfl | hn
  · exact ⟨{ on .ctl core0 with upsets := [⟨0, 16, 9, 0⟩] }, by decide⟩
  · exact ⟨{ on .ctl core0 with upsets := [⟨0, 17, 9, 0⟩] }, by obtain rfl := List.mem_singleton.1 hn; decide⟩

theorem witness_KensiaEventsComplete : (on .ctl core0).kensia.attaddr.toNat + 64 + 4931 ≤ 2 ^ 64 ∧ Memory.wf (on .ctl core0).host = true ∧
    (let s := on .ctl core0
     let k := { s with kensia := { s.kensia with lifecycle := 2 } }
     k.kensia.lifecycle = 2 ∧ k.kensia.keyaddr.toNat + 64 ≤ 2 ^ 64 ∧ holdsKey k.kensia.keys 63 = false ∧
       holdsKey (s.kensia.keys.set 63 (some 5)) 63 = true ∧
       ({ s with kensia := { s.kensia with lifecycle := 1 } } : State).kensia.lifecycle ≠ 2) := by decide

/-- Each of the first six steps of bring-up, without a fault, with a good and with a bad harvest log. -/
theorem witness_BringUpMakesItsSteps : (∀ n ∈ [0, 1, 2, 3, 4, 5, 6, 15],
    let s := { State.reset with kensia := { State.reset.kensia with step := n } }
    s.kensia.step = n ∧ s.bringUpFault 1 = false ∧ s.kensia.err ≠ 1 ∧ s.untrained = [] ∧ s.logVerifies = true ∧ s.bringUpFault 5 = false ∧
      s.kensia.harvestLog = [] ∧ s.kensia.torn = false) ∧
    ({ State.reset with upsets := [⟨0, 4, 9, 0⟩] } : State).logVerifies = false ∧
    ({ State.reset with kensia := { State.reset.kensia with step := 1, err := 1 } } : State).kensia.err = 1 := by
  decide

theorem witness_PowerEventsComplete :
    let s := launched .running packet1
    let k := fun (f : Kensia → Kensia) => ({ s with kensia := f s.kensia } : State)
    (k fun x => { x with stretchReq := some (2 ^ 20 + 1) }).kensia.stretchReq = some (2 ^ 20 + 1) ∧
      (k fun x => { x with stretchFrom := some 5 }).kensia.stretchFrom = some 5 ∧ s.kensia.stretchReq = none ∧ s.kensia.stretchFrom = none ∧
      s.kensia.emergency = none ∧
      ({ k fun x => { x with emergency := some (.hotDebt, 0) } with now := 512 } : State).halted = true ∧
      ({ k fun x => { x with emergency := some (.hotDebt, 0) } with now := 511 } : State).halted = false ∧
      (k fun x => { x with causes := [.hotDebt, .thermal] }).kensia.causes.filter (fun c => emergencyCode c ≠ emergencyCode .hotDebt) = [.thermal] ∧
      (s.launches.map (·.handle)).Nodup ∧ (on .ctl core0).working = false ∧ s.kensia.pwrst ≠ 1 ∧
      (k fun x => { x with pwrst := 1 }).kensia.pwrst = 1 := by decide

/-- A debug stop of the launch by its ordinal, and one in force. -/
theorem witness_DebugStops :
    let s := launched .running packet1
    let d := { s with jroot := s.jroot.set 63 1, jid := s.jid.set 63 7, dstop := s.dstop.set 63 { s.dstop[63] with ctl := 3 } }
    let r := { s with dstop := s.dstop.set 63 { launch := some 2, ctl := 2 ^ 33 } }
    s.stopTarget 63 = none ∧ (s.dstop[63]).launch = none ∧ d.stopTarget 63 = some (launch0 .running packet1) ∧ (∀ m : Fin 64, (d.dstop[m]).launch ≠ some 2) ∧ (r.dstop[63]).launch = some 2 ∧
      (r.dstop[63]).ctl.getLsbD 33 = true := by decide +kernel

/-- The module with every kind of premise of the registers that the outside writes: a valid queue 63 with one entry, a live
job 7, no live job in slot 0 and no page table. -/
def outside0 : State :=
  let s := launched .running packet1
  { s with jid := s.jid.set 63 7, queues := s.queues.set 63 { s.queues[63] with qsize := 4, qhead := 2 ^ 32 - 1, tail := 0, qctl := 7 * 2 ^ 32 } }

theorem witness_ManagementWritesLand : outside0.answers = true ∧ State.reset.answers = false ∧
    (outside0.rsv[15])[0].getLsbD 0 = false ∧ outside0.rsvOk 15 3 0 1 = true ∧ (3 : Word).getLsbD 0 = true ∧ outside0.rsvOk 15 3 1 1 = false ∧
    outside0.jobLive (outside0.jid[0]).toNat = false ∧ outside0.jobLive (outside0.jid[63]).toNat = true ∧
    (outside0.launches.any fun l => l.state != .done && l.pcs.contains 767) = false ∧ outside0.kensia.retired = [] ∧
    (∀ n : Fin 64, (outside0.jroot[n]).getLsbD 0 = false) ∧ (∀ p ∈ outside0.pcs, p.winown.getLsbD 0 = false) ∧
    outside0.xinv.getLsbD 1 = false ∧
    (fld (15 : Word).toNat 0 32 + 2 ^ 32 - (outside0.queues[63]).qhead) % 2 ^ 32 ≤ 2 ^ (outside0.queues[63]).qsize ∧
    ¬ (fld (16 : Word).toNat 0 32 + 2 ^ 32 - (outside0.queues[63]).qhead) % 2 ^ 32 ≤ 2 ^ (outside0.queues[63]).qsize ∧
    outside0.teamNamed (outside0.queues[63]).job 3 0 = some member0 ∧ outside0.teamNamed (outside0.queues[63]).job 4 0 = none :=
  ⟨by decide, by decide, by decide, by decide, by decide, by decide, by decide, by decide, by decide, by decide, by decide, by decide,
    by decide, by decide, by decide, by decide +kernel, by decide +kernel⟩

/-- The minor version 0 and the window rows 0 are always in range; an invalidation finds its leaf in use where a drain has
translated it. -/
theorem witness_BoundsOfTheManagementRegisters : fld (0 : Word).toNat 16 8 ≤ (Config.versHigh 0).toNat ∧
    fld (0 : Word).toNat 0 18 ≤ outside0.nrows ∧ outside0.leafInUse 1 0 0 = false ∧
    (∃ s : State, s.leafInUse 0 0 0x1000 = true) :=
  ⟨Nat.zero_le _, Nat.zero_le _, by decide,
   ⟨on .mat { core0 with border := [{ openDrain with pages := [⟨0, 2, 0, 2 ^ 51 + 0xF⟩] }] }, by decide⟩⟩

theorem witness_RegistersThroughTheirSpaces : outside0.answers = true ∧ (outside0.queues[0]).qctl.getLsbD 0 = false ∧
    ({ outside0 with kensia := { outside0.kensia with ksidx := 0x10 } } : State).kensia.ksidx = 0x10 := by decide

/-- Two teams of different cores; a stretch, and a beat of work; a stretch while an emergency is to come. -/
theorem witness_ClockMovesTheBeat : (on .ctl core0).stretched = false ∧ (on .ctl core0).halted = false ∧
    ((pair .ctl core0 core1).teams.map (·.cid)).Nodup ∧
    (let s := on .ctl core0
     ({ s with kensia := { s.kensia with stretchLeft := 1 } } : State).stretched = true ∧
     ({ s with kensia := { s.kensia with stretchLeft := 1, emergency := some (.thermal, s.now) } } : State).halted = false) := by decide

theorem witness_ExecutionNeverStops : (∃ t, (chan chan0 core0).team (chan chan0 core0).cur.cid = some t) ∧
    ∃ p, (chan chan0 core0).pc (chan chan0 core0).cur.pc = some p ∧ p.prog.isSome :=
  ⟨⟨core0, by decide⟩, ⟨chan0, by decide, rfl⟩⟩

/-- A word of ctl with a WAIT and a SIGNAL. -/
theorem witness_DecodeAndEncodeAgree : (⟨.idle 3, .cnt 4, .add 1 2 3⟩ : Code).wf .ctl = true ∧
    (∃ w, encode .ctl ⟨.idle 3, .cnt 4, .add 1 2 3⟩ = some w ∧ decode .ctl w = .ok ⟨.idle 3, .cnt 4, .add 1 2 3⟩) ∧
    ∃ p, (Instr.add 1 2 3).fields = some p ∧ (p.1 = .any ∨ p.1 = .one .ctl) := by
  refine ⟨by decide, ⟨_, rfl, by decide⟩, ⟨_, rfl, by decide⟩⟩

/-- A module at work on core 0, whose ctl has the given word at its head. -/
def running (w : Nat) : State :=
  { on .ctl { core0 with cols := core0.cols.set 0 { ringed with next := 256 }, spad := writeNat [] 32 w 8 } with cur := Cur.none }

/-- The team of that module. -/
def runner (w : Nat) : Team := { core0 with cols := core0.cols.set 0 { ringed with next := 256 }, spad := writeNat [] 32 w 8 }

/-- ADD s1, s2, s3 and a word that decodes to nothing stand at the head of ctl. -/
theorem witness_StepRunsTheFetchedWord : ∀ w ∈ [0x00000104_20C00000, 0x0000_1C00_0000_0000],
    (running w).pickPackage = none ∧ (running w).stretched = false ∧ (running w).halted = false ∧ (running w).pickTeams = none ∧
    (running w).teams = [] ++ runner w :: [] ∧ (runner w).tries .ctl = true ∧ (running w).stopped (runner w) = false ∧
    (runner w).noWord ((runner w).col .ctl) = false ∧
    ((runner w).col .ctl).tried = false ∧ ((runner w).col .ctl).head ≠ ((runner w).col .ctl).tail ∧
    max ((runner w).col .ctl).next ((runner w).col .ctl).floor ≤ (runner w).clock .ctl ∧
    readNat (runner w).spad (((runner w).col .ctl).base + 8 * (((runner w).col .ctl).head % ((runner w).col .ctl).size)) 8 = w := by
  decide +kernel

/-- An input that is due, and a landing that is due in the first team. -/
theorem witness_StepRunsWhatIsDue :
    (let s := { State.reset with kensia := { State.reset.kensia with step := 6 }, inputs := [⟨0, 0, Cur.none, .xinvComplete⟩] }
     s.kensia.step = 6 ∧ s.inputs = ⟨0, 0, Cur.none, .xinvComplete⟩ :: [] ∧ (0 : Nat) ≤ s.now) ∧
    (let p : Pend := ⟨256, 0, Cur.none, .registerWriteLands (.csr .write 0x801 0 false)⟩
     let s := on .ctl { core0 with pend := [p] }
     s.pickPackage = none ∧ s.stretched = false ∧ s.halted = false ∧ p.due ≤ core0.clk ∧ core0.handler = false ∧ core0.frozen = false ∧
     p.rank ≤ rankLand ∧ s.takeWaiting core0 = none ∧ s.pickLanding core0 = none) ∧
    (let s := { State.reset with kensia := { State.reset.kensia with step := 6 } }
     s.pickPackage = none ∧ s.stretched = false ∧ s.halted = false ∧ s.pickTeams = none ∧ s.pickWord = none ∧ s.pickLate = none ∧
       s.pickRims = none) := by decide +kernel

/-! ## Witnesses: single clauses of statements above -/

/-- A program of level S on pseudo-channel 0 that core 0 owns, beside the module of `mapped`. -/
def mappedRun (c : Col) (t : Team) : State :=
  let s := mapped c t
  { s with pcs := s.pcs.map fun p => { p with prog := some ⟨0, 0, 0, true, [], { blankColumn with ended := false }, 0, 0⟩ } }

/-- A word whose requests have been served may issue in that module as it may in `on`, whatever it asks for. -/
theorem mappedRun_may {c : Col} {t : Team} {g : Gate} (l : List (Nat × DemandReq)) (h : readyBut c t g = true) (ha : (t.col c).ask = some 9)
    (hu : ((mappedRun c t).atIssue t).unserved t.cid 9 = false) : MayIssue (mappedRun c t) t { g with asks := l } := by
  refine may_served (c := c) _ rfl (on_team (c := c) (readyBut_cid h)) h ?_
  have : (t.col (mappedRun c t).cur.col).ask = some 9 := ha
  simp [State.stalls, State.curAt, this, hu]

theorem witness_CallsAccessTheStack : spTrap (core0.seen (on .ctl core0).cur) (stackSpan (core0.stkp.toNat - 8)) true false = none ∧
    spTrap (core0.seen (on .ctl core0).cur) (stackSpan core0.stkp.toNat) false true = none ∧
    core0.unsealed (core0.col .ctl).timed core0.stkp.toNat 8 = false ∧ core0.ndet ≠ 2 := by decide

theorem witness_ControlAccessesArePerformed : core0.accessBefore .ctl (on .ctl core0).cur.id = false ∧ (core0.getS 5).v.toNat ≠ 0 ∧
    (∀ u ∈ core0.spadTaint, u < (core0.getS 4).v.toNat / 4 ∨ ((core0.getS 4).v.toNat + (core0.getS 5).v.toNat - 1) / 4 < u) ∧
    freshTrap (core0.seen (on .ctl core0).cur) 0 (core0.getS 5).v.toNat [(core0.getS 4).v.toNat] = none := by decide

theorem witness_RingPlaceMayBeWritten : freshTrap (core0.seen (on .ctl core0).cur) 0 8
    [(core0.col .acs).base + 8 * ((core0.col .acs).put % (core0.col .acs).size)] = none := by decide

/-- A team whose next word of a column has made its demand requests under number 9, and they have been served. -/
def served0 (c : Col) (t : Team) : Team := t.modCol c fun x => { x with ask := some 9 }

/-- What a ctl access of the window reaches where a program runs on its pseudo-channel. -/
def reach0 (w : Bool) : List Nat :=
  let t := served0 .ctl core0
  ((mappedRun .ctl t).atIssue t).reachedBy (t.seen (on .ctl t).cur) .gl (!w) w (spanOf .d (effAddr core0 4 0))

/-- An access to the window of a running program has requests to make, and completes once they have been served. -/
theorem witness_WindowAccessesAreServed :
    (∀ w : Bool, ((mappedRun .ctl (served0 .ctl core0)).atIssue (served0 .ctl core0)).windowReqs 0 0 w (reach0 w) ≠ []) ∧
    (let x := spanOf .d (effAddr core0 4 0)
     let s := mappedRun .ctl (served0 .ctl core0)
     isOk (s.loadBeyond (served0 .ctl core0) .gl .plain x) = true ∧ isOk (s.storeBeyond (served0 .ctl core0) .gl .plain x (plain 1)) = true ∧
     isOk (s.rmwBeyond (served0 .ctl core0) .ar x (amoRec .add) false fun old => some (old + 1)) = true) ∧
    ∀ w : Bool, MayIssue (mappedRun .ctl (served0 .ctl core0)) (served0 .ctl core0)
      { regs := [.s 1, .s 4], reject := true,
        asks := ((mappedRun .ctl (served0 .ctl core0)).atIssue (served0 .ctl core0)).windowReqs 0 0 w (reach0 w) } :=
  ⟨by decide +kernel, by decide +kernel, fun _ => mappedRun_may (g := { regs := [.s 1, .s 4], reject := true }) _ (by decide) rfl (by decide +kernel)⟩

/-- What the rows of an lqg or sqg reach there. -/
def rowsReach0 (w : Bool) : List Nat :=
  let t := served0 .acs queued0
  ((mappedRun .acs t).atIssue t).rowsReached (t.seen (on .acs t).cur) w 8 (patRows ⟨2, 8, 16, 0⟩ (rowBase queued0 1 0))

theorem witness_RowsWaitForTheSequencer :
    (∀ w : Bool, ((mappedRun .acs (served0 .acs queued0)).atIssue (served0 .acs queued0)).windowReqs 0 0 w (rowsReach0 w) ≠ []) ∧
    (let rows := patRows ⟨2, 8, 16, 0⟩ (rowBase queued0 1 0)
     isOk (lqgRun (mappedRun .acs (served0 .acs queued0)) (served0 .acs queued0) 8 rows) = true ∧
     isOk (sqgRun (mappedRun .acs (served0 .acs queued0)) (served0 .acs queued0) 8 rows 5 0 false) = true) ∧
    ∀ w : Bool, MayIssue (mappedRun .acs (served0 .acs queued0)) (served0 .acs queued0)
      { regs := [.a 1, .p 1], reject := true,
        asks := ((mappedRun .acs (served0 .acs queued0)).atIssue (served0 .acs queued0)).windowReqs 0 0 w (rowsReach0 w) } :=
  ⟨by decide +kernel, by decide +kernel, fun _ => mappedRun_may (g := { regs := [.a 1, .p 1], reject := true }) _ (by decide) rfl (by decide +kernel)⟩

theorem witness_WaysPerform : (on .ctl core0).team core0.cid = some core0 ∧
    ((on .ctl core0).dropWays { core0 with ways := 0 } 0 15 16).team core0.cid ≠ none ∧ core0.accessBefore .ctl 1 = false := by decide +kernel

theorem witness_EntriesPushedAreKept : (queued0.qAt 1).filter queued0.pushedNow = [] := by decide

theorem witness_NestMayMeetAnOpenDrain : nestUnsealed tiled0 true 10 0x1080 0x10C0 = false ∧
    nestUnsealed { tiled0 with border := [{ openDrain with bytes := [(0x1080, 0, false)] }] } false 10 0x1080 0x10C0 = true := by decide +kernel

theorem witness_PopsAndInboxesWait : (on .mat live0).sharedReads live0 0 16 = false ∧ (on .mat live0).popOpen live0 true 1 .b 0 16 = false ∧
    ({ core0 with inbox := { core0.inbox with busy := true } } : Team).inbox.busy = true := by decide

/-- The teams are where a channel word's record leaves them. -/
theorem witness_ChannelWordsKeepTheirTeam : (match (chan opened0 core0).chanJudge core0 .read (2 ^ 51 + 3 * 2 ^ 14 + 6 * 2 ^ 10 + 63 * 32) with
      | .ok r => decide ((r.2.chanDone core0 (opened0.record core0.clk .rd [6]) prog0 1).team 0 ≠ none)
      | .error _ => false) = true ∧ (chan opened0 core0).rdLeft 0 = 0 := by decide +kernel

/-- A pseudo-channel whose hot time of a refresh interval is complete, and a demand on one that the module does not list. -/
theorem witness_RimEventsFindTheirChannel : ({ blankPc 0 with hotQ := hotRise 0 } : Pc).hotDue = true ∧ (chan late0 core0).pc 767 = none := by
  refine ⟨?_, by decide⟩
  simp only [Pc.hotDue, hotRise, blankPc, Config.fusedTiming, Config.archTiming]
  simp

/-- The hot debt of a pseudo-channel in its window may be paid with an extra refresh. -/
theorem witness_ExtraRefreshesAreMade : (chan late0 core0).canRefresh late0 = true := by
  have hw : (chan late0 core0).inWindow late0 (serveTicks (rimOf late0.pc) .refresh) = true := by
    have h := witness_DemandsAreServed
    simp only [State.canServe, show late0.queue = ⟨.refresh, 3, 0, 0, 0⟩ :: [⟨.scrub, 4, 1, 0, 0⟩] from rfl, Bool.and_eq_true] at h
    exact h.1
  have hp : late0.prog = some prog0 := rfl
  have ht : (chan late0 core0).team prog0.owner = some core0 := by decide
  simp only [State.canRefresh, hp, ht, hw]
  decide

theorem witness_SignalsFireOrWait : core0.accessBefore .ctl 1 = false ∧
    ({ core0 with pend := [⟨256, 0, { Cur.none with col := .ctl, id := 0, phase := .access }, .st 1 4 0 .sp .plain .d 0⟩] } : Team).accessBefore .ctl 1 = true ∧
    (on .acs core0).cur.phase = .issue := by decide

theorem witness_ParticipantsOfAPulse : ((together (hooped 0 300) (hooped 1 300)).groupParts (.launch 0)).length = 2 := by decide

theorem witness_TheEngineIsIdle : (engaged (.mgo 23)).engineIdle (jobFor (.mgo 23)) = true := by decide

/-- A row group that has not completed. -/
def opened1 : RowGroup := { group0 0 0 0 with done := false }

theorem witness_RowGroupsCompleteOnce : (bordered opened1).team 0 = some { core0 with border := [opened1] } ∧ opened1.done = false ∧ opened1.kind = 0 ∧
    (group0 0 0 0).done = true ∧ (group0 0 0 0).committed = false ∧ (group0 0 0 0).failed = false := ⟨rfl, rfl, rfl, rfl, rfl, rfl⟩

/-- The launch of the tests, its drain begun. -/
def draining0 (st : LState) : Launch := { launch0 st packet1 with drain := some 9, image := some (0, 0) }

/-- The module with that launch. -/
def drained (st : LState) : State := { launched st packet1 with launches := [draining0 st] }

theorem witness_DrainsOfEveryState : (launch0 .running packet1).drain = none ∧ (launch0 .setup packet1).drain = none ∧
    (drained .setup).launch 2 = some (draining0 .setup) ∧ (draining0 .setup).cut = none ∧ (draining0 .setup).drain.isSome = true ∧
    (∀ e ∈ (drained .setup).agenda, e.cx.args = [2] → e.act ≠ .restore) ∧ (drained .draining).launch 2 = some (draining0 .draining) ∧
    (draining0 .draining).image.isSome = true ∧ (drained .draining).arbitrates 2 = false ∧
    ((drained .draining).settling fun t => t.launch = 2) = none ∧ ((drained .draining).teams.map (·.cid)).Nodup := by
  decide

/-- The module of `queue0` with a kind-2 entry of the given packet address, a graph open, and the job's launches watched or not. -/
def graphed (va : Nat) : State :=
  let s := queue0 2 va
  { s with queues := s.queues.set 0 { s.queues[0] with openGraph := some 1 } }

/-- What the entry of that queue submits: a packet, and where its checks fail. -/
def submits (s : State) (kind : Nat) : Option (Option Nat × Bool) :=
  let x := s.queues[0]
  let s1 := (s.setQueue 0 { x with qhead := (x.qhead + 1) % 2 ^ 32 })
  match s.nextEntry 0 with
  | .error _ => none
  | .ok e => if fld (e.getD 0 0).toNat 0 8 ≠ kind ∨ entryOff e ≠ none then none else
    match s1.vdwords x.job (fld (e.getD 1 0).toNat 0 55) 32 with
    | .error _ => none
    | .ok p => match (s1.withJob x.job).job x.job with
      | none => none
      | some j => some ((s1.withJob x.job).packetOff x.job (x.qctl.getLsbD 4) p (s1.readTables x.job p), decide (∀ y ∈ j.sources, y = 0))

/-- A packet of zeros fails its first check, and one of major 1 with an empty patch passes them all; an entry of kind 1, or
of kind 2 with no graph open, opens one first. -/
theorem witness_EntriesSubmitTheirLaunch : (graphed 0x3000).queueReads 0 = true ∧ ((graphed 0x3000).queues[0]).openGraph = some 1 ∧
    submits (graphed 0x3000) 2 = some (some 0, true) ∧
    submits ({ graphed 0x3000 with mem := writeNat (graphed 0x3000).mem (2 ^ 51 + 0x3000) 1 8 }) 2 = some (none, true) ∧
    submits (queue0 1 0x3000) 1 = some (some 0, true) ∧ ((queue0 1 0x3000).queues[0]).openGraph = none := by decide +kernel

/-- A request of the host DMA for 32 bytes from 0x2000 to the host page at 0x400_0000_0100, whose record goes to 0x2000. -/
def dma0 : CpxReq :=
  { id := 1, engine := 0, cls := 0, desc := bytesOf (1 + 0x2000 * 2 ^ 64 + 0x2000 * 2 ^ 128 + (2 ^ 42 + 0x100) * 2 ^ 192 + 32 * 2 ^ 256) 64,
    cx := { Cur.none with col := .cpy, id := 1 } }

/-- The module of `mapped` with that request, at its event, and a leaf of host memory beside the leaf of the window. -/
def asked0 : State :=
  let t := { core0 with cpx := [dma0] }
  let s := mapped .cpy t
  { s with mem := writeNat s.mem (2 ^ 51 + 0x10008) 0x8F 8, fabric := [⟨9, 0, 0, 0, 0, 1⟩], cur := { s.cur with args := [0] } }

/-- What the walk finds for that request's two ends: one piece each, in device memory and in host memory. -/
def ends0 : Bool :=
  match asked0.extEnds core0.job 0x2000 32 (2 ^ 42 + 0x100) 32 (fun x y => (x = 1 && y = 0) || (x = 0 && y = 1)) with
  | .ok ([p], [q]) => decide (p.leaf.tgt = 0) && decide (q.leaf.tgt = 1) && decide (p.n = q.n) && decide (q.leaf.pa = 0x100) &&
      (match asked0.judgedExt { core0 with cpx := [dma0] } .read [p] with
        | .ok ([x], _, _) => decide (x = (p, allBits p.n))
        | _ => false)
  | _ => false

theorem witness_DmaCopiesComplete : asked0.curReq = some ⟨9, 0, 0, 0, 0, 1⟩ ∧
    (match asked0.reqHome ⟨9, 0, 0, 0, 0, 1⟩ with | .live t r => t == { core0 with cpx := [dma0] } && r == dma0 | _ => false) = true ∧
    (let t := { core0 with cpx := [dma0] }
     asked0.cpxBefore t dma0 = false ∧ asked0.reqQueued t dma0 = false ∧ asked0.reqFilling t dma0 = false ∧ asked0.reqAsks t dma0 = [] ∧ ends0 = true ∧
       isOk (asked0.dmaCopy t 1 (natOfBytes dma0.desc)) = true ∧ t.landTrap 0 ((List.range 32).map (0x2000 + ·)) = none) ∧
    cpxFld (natOfBytes dma0.desc) 1 0 21 = 0x2000 ∧ cpxFld (natOfBytes dma0.desc) 4 0 64 = 32 ∧ Memory.wf asked0.host = true := by decide +kernel

theorem witness_RequestsWithNothingBeforeThem : (asking 8).cpxBefore { core0 with cpx := [req0] } req0 = false ∧
    (asking 8).reqQueued { core0 with cpx := [req0] } req0 = false ∧ (asking 8).reqAsks { core0 with cpx := [req0] } req0 = [] := by decide +kernel

theorem witness_StepFindsTheWord : ∀ w ∈ [0x00000104_20C00000, 0x0000_1C00_0000_0000],
    wordOrder = [] ++ Col.ctl :: [.vec, .acs, .cpy, .mat] ∧ ((runner w).col .ctl).head < ((runner w).col .ctl).tail ∧
    ((runner w).col .ctl).word = none ∧ (∀ p ∈ (running w).pcs, (running w).chanAction p .issue = none) := by decide +kernel

/-- A fill of the L2 by an rd, at its beat. -/
def fill0 : Pend := ⟨256, 0, Cur.none, .rdL2Fill 0 (2 ^ 51) 7 false true false⟩

theorem witness_StepFindsWhatIsDue : isHostAccess ⟨0, 0, Cur.none, .xinvComplete⟩ = false ∧ isHostAccess ⟨0, 0, Cur.none, .hostMemoryAccess 0 8 none⟩ = true ∧
    (let p : Pend := ⟨256, 0, Cur.none, .registerWriteLands (.csr .write 0x801 0 false)⟩
     (on .ctl { core0 with pend := [p] }).pickFill { core0 with pend := [p] } = none) ∧
    (let s := on .ctl { core0 with pend := [fill0] }
     s.pickPackage = none ∧ s.stretched = false ∧ s.halted = false ∧ s.pickFill { core0 with pend := [fill0] } ≠ none) ∧
    (let s := { State.reset with kensia := { State.reset.kensia with step := 6 } }
     (∀ p ∈ s.agenda, p.due ≤ s.now → isEngineRequest p = false) ∧ s.choose = none ∧ s.needsDrained ++ s.inReserved = [] ∧
       (∀ p ∈ s.inputs, p.due ≤ s.now → isHostAccess p = false)) := by decide +kernel

/-- The next word of a running module keeps its memories canonical: it is in canonical form and steps. -/
theorem witness_EveryStepKeepsMemoriesCanonical : State.reset.wf = true ∧ ∃ s', step State.reset = .next s' := by
  have h : (match step State.reset with | .next _ => true | _ => false) = true := by decide
  refine ⟨by decide, ?_⟩
  cases hs : step State.reset with
  | next s' => exact ⟨s', rfl⟩
  | fault f => simp [hs] at h
  | refused r => simp [hs] at h

/-- An answer that is a next state has one. -/
def answers (x : Host.Outcome State Fault Refusal) : Bool :=
  match x with
  | .next _ => true
  | _ => false

theorem answers_some {x : Host.Outcome State Fault Refusal} (h : answers x = true) : ∃ s', x = .next s' := by
  cases x with
  | next s' => exact ⟨s', rfl⟩
  | fault f => cases h
  | refused r => cases h

theorem witness_RegisterWordsChangeNothingAtIssue : (on .ctl core0).team (on .ctl core0).cur.cid = some core0 ∧ core0.handler = false ∧
    ∃ s', exec (.add 1 2 3) (on .ctl core0) = .next s' := ⟨on_team rfl, rfl, answers_some (by decide)⟩

theorem witness_VecWordsTouchNoMemory : (on .vec core0).team (on .vec core0).cur.cid = some core0 ∧
    decode .vec 0x0000_4800_0001_0200 = .ok ⟨.none, .none, .vshape 1 2⟩ ∧ ∃ s', exec (.vshape 1 2) (on .vec core0) = .next s' :=
  ⟨on_team rfl, by decide, answers_some (by decide)⟩

theorem witness_UserWordsKeepServiceRegisters : (on .ctl { core0 with svc := false }).team 0 = some { core0 with svc := false } ∧
    csrWritable false 0x801 = false ∧ (∃ s', exec (.csrw 1 0x801 2) (on .ctl { core0 with svc := false }) = .next s') ∧
    ∃ s', exec .eret (on .ctl { core0 with svc := false }) = .next s' :=
  ⟨rfl, by decide, answers_some (by decide), answers_some (by decide)⟩

theorem witness_UnaryWordsHaveNoSecondSource : (0x17 : Nat) ∈ [0x17, 0x18, 0x19, 0x1A] ∧ (63 : Nat) ≠ 0 ∧ (63 : Nat) < 64 := by decide

/-- Two numbers whose division is plain, by 0, and the one whose quotient leaves the range. -/
theorem witness_DivisionNeverTraps : MayIssue (on .ctl core0) core0 { regs := [.s 1, .s 2, .s 3], occ := 24 } ∧
    (core0.getS 7).v = 0 ∧ (let t := { core0 with s := (core0.s.set 1 (plain (BitVec.ofInt 64 (-2 ^ 63)))).set 2 (plain (-1)) }
      (t.getS 1).v.toInt = -2 ^ 63 ∧ (t.getS 2).v.toInt = -1) := ⟨on_may (by decide), by decide, by decide⟩

/-! ## Results of words, from the spec's tables and worked examples -/

/-- The register landings that an answer leaves, with the beats at which they are due. -/
def landings (x : Host.Outcome State Fault Refusal) : List (Nat × RegWrite) :=
  match x with
  | .next s => s.teams.flatMap fun t => t.pend.filterMap fun p => match p.act with
    | .registerWriteLands w => some (p.due, w)
    | _ => none
  | _ => []

/-- A word of ctl lands a value in s40 at its latency. -/
def gives (i : Instr) (lat : Nat) (v : Word) : Bool := landings (exec i (on .ctl core0)) == [(256 + lat, .s 40 v false)]

/-- R118, with s1 = 100, s2 = 7, s3 = -8: 7 - 100, 100 AND NOT 7, a shift by 100 mod 64 = 36, and -8 shifted right three
places with copies of its sign. -/
theorem test_plain_arithmetic : [(Instr.add 40 1 2, (107 : Word)), (.sub 40 2 1, BitVec.ofInt 64 (-93)), (.and 40 1 2, 4), (.or 40 1 2, 103),
    (.xor 40 1 2, 99), (.andn 40 1 2, 96), (.shl 40 2 1, 0x70_0000_0000), (.shr 40 1 2, 0), (.sar 40 3 2, -1)].all
    (fun p => gives p.1 1 p.2) = true := by decide

/-- R118: products of -8 and 100 read signed and unsigned: (2^64 - 8) * 100 = 99 * 2^64 + (2^64 - 800). -/
theorem test_products : [(Instr.mul 40 3 1, BitVec.ofInt 64 (-800)), (.mulh 40 3 1, -1), (.mulhu 40 3 1, 99)].all
    (fun p => gives p.1 3 p.2) = true := by decide

/-- R118, R119: quotients truncate, the remainder has the sign of a; s7 holds 0. -/
theorem test_divisions : [(Instr.div 40 1 3, BitVec.ofInt 64 (-12)), (.rem 40 1 3, 4), (.rem 40 3 2, -1), (.divu 40 3 2, 0x2492_4924_9249_2491),
    (.remu 40 3 2, 1), (.div 40 1 7, -1), (.divu 40 1 7, -1), (.rem 40 3 7, BitVec.ofInt 64 (-8)), (.remu 40 1 7, 100)].all
    (fun p => gives p.1 24 p.2) = true := by decide

/-- R118: comparisons of -8 with 7, signed and unsigned. -/
theorem test_comparisons : [(Instr.min 40 3 2, BitVec.ofInt 64 (-8)), (.max 40 3 2, 7), (.minu 40 3 2, 7), (.maxu 40 3 2, BitVec.ofInt 64 (-8)),
    (.slt 40 3 2, 1), (.sltu 40 3 2, 0), (.seq 40 2 2, 1), (.seq 40 2 1, 0)].all (fun p => gives p.1 1 p.2) = true := by decide

/-- R118: unary words on 7, -8 and 100, and on 0. -/
theorem test_unary_words : [(Instr.clz 40 2, (61 : Word)), (.clz 40 7, 64), (.ctz 40 3, 3), (.ctz 40 7, 64), (.popc 40 1, 3),
    (.bswap 40 2, 0x0700_0000_0000_0000)].all (fun p => gives p.1 1 p.2) = true := by decide

/-- R120: immediates are sign-extended, but for lui, which shifts in 28 bits (the table of the worked constant). -/
theorem test_immediates : [(Instr.addi 40 1 (-1), (99 : Word)), (.andi 40 3 0xF, 8), (.ori 40 1 (-1), -1), (.xori 40 2 (-1), BitVec.ofInt 64 (-8)),
    (.shli 40 2 63, 0x8000_0000_0000_0000), (.shri 40 3 60, 15), (.sari 40 3 63, -1), (.slti 40 3 (-7), 1), (.sltiu 40 2 (-1), 1),
    (.lui 40 2 0xF4A7C15, 0x7F4A_7C15)].all (fun p => gives p.1 1 p.2) = true ∧ gives (.muli 40 1 (-2)) 3 (BitVec.ofInt 64 (-200)) = true := by
  decide

/-- R118: sel gives b while its destination holds 0, and a otherwise. -/
theorem test_select : landings (exec (.sel 40 1 2) (on .ctl core0)) = [(257, .s 40 7 false)] ∧
    landings (exec (.sel 3 1 2) (on .ctl core0)) = [(257, .s 3 100 false)] := by decide

/-- The examples of the formats chapter: 1 + 2^-8 to BF16 under RNE and RUP, 300 and 470 to E4M3. -/
theorem test_float_conversions : deliver (fmtOf .bf16) 0 false (decodeF (fmtOf .f32) 0x3F808000) = (0x3F80, 1) ∧
    deliver (fmtOf .bf16) 3 false (decodeF (fmtOf .f32) 0x3F808000) = (0x3F81, 1) ∧
    (deliver (fmtOf .e4m3) 0 true (.fin false 300 1)).1 = 0x79 ∧ (deliver (fmtOf .e4m3) 0 true (.fin false 470 1)).1 = 0x7E ∧
    (deliver (fmtOf .e4m3) 0 false (.fin false 470 1)).1 = 0x7F ∧ (deliver (fmtOf .e4m3) 0 false (.fin false 464 1)).1 = 0x7E := by decide

/-- The examples of R27: INT32 -1 to unsigned INT64, and 0x80000000 read unsigned to signed INT32. -/
theorem test_int_conversions : intToInt 64 true true (readInt 32 false 0xFFFFFFFF) = 0 ∧
    intToInt 64 true false (readInt 32 false 0xFFFFFFFF) = 0xFFFF_FFFF_FFFF_FFFF ∧ intToInt 32 false true (readInt 32 true 0x80000000) = 0x7FFF_FFFF ∧
    intToInt 32 false false (readInt 32 true 0x80000000) = 0x8000_0000 := by decide

/-- The example of R49: a step of four products sums exactly and rounds once. -/
theorem test_exact_sum : deliver (fmtOf .f32) 0 false (sumV 0 [.fin false 0 1, .fin false (2 ^ 24) 1, .fin false 1 1, .fin true (2 ^ 24) 1,
    .fin false 3 (2 ^ 25)]) = (0x3F80_0001, 1) := by decide +kernel

/-- The slices that an answer leaves, with their beats. -/
def slices (x : Host.Outcome State Fault Refusal) : List (Nat × Slice) :=
  match x with
  | .next s => s.teams.flatMap fun t => t.pend.filterMap fun p => match p.act with
    | .sliceLands x => some (p.due, x)
    | _ => none
  | _ => []

/-- The beat, first row and low 128 bits of row 0 of each slice. -/
def firstRows (x : Host.Outcome State Fault Refusal) : List (Nat × Nat × Nat) :=
  (slices x).map fun p => (p.1, p.2.row0, p.2.data.toNat % 2 ^ 128)

/-- Four FP32 elements of a row. -/
def four (a b c d : Nat) : Nat := a + b * 2 ^ 32 + c * 2 ^ 64 + d * 2 ^ 96

/-- The team of the vector chapter's worked example: v1 holds 3.0, -0, a quiet NaN and -2.5 in row 0; k1 and k2 as its two
compares leave them; v2 holds 2.0 everywhere in row 0. -/
def compared : Team :=
  { core0 with
    vshape := 0x201, v := (core0.v.set 1 ⟨BitVec.ofNat 16384 (four 0x40400000 0x80000000 0x7FC00001 0xC0200000), 0⟩).set 2
      ⟨BitVec.ofNat 16384 (four 0x40000000 0x40000000 0x40000000 0x40000000), 0⟩,
    k := (core0.k.set 1 ⟨1, 0⟩).set 2 ⟨0xB, 0⟩ }

/-- The worked example of the vector chapter: a compare for order, a sum of the ordered elements and a compaction by sign,
and what each raises; a square root at 20 beats. -/
theorem test_vector_example :
    (firstRows (exec (.vcmp .ord 2 (.v 1) (.v 1) .f32 ⟨0, false⟩) (on .vec compared))).map (fun x => (x.1, x.2.2 % 16)) = [(260, 0xB)] ∧
    ((slices (exec (.vcmp .ord 2 (.v 1) (.v 1) .f32 ⟨0, false⟩) (on .vec compared))).map fun p => p.2.exc) = [0] ∧
    (firstRows (exec (.vcmp .gt 1 (.v 1) (.imm 16) .f32 ⟨0, false⟩) (on .vec compared))).map (fun x => (x.1, x.2.2 % 16)) = [(260, 1)] ∧
    ((slices (exec (.vcmp .gt 1 (.v 1) (.imm 16) .f32 ⟨0, false⟩) (on .vec compared))).map fun p => p.2.exc) = [16] ∧
    (firstRows (exec (.vsum (.v 3) (.v 1) (.imm 16) .f32 ⟨2, false⟩) (on .vec compared))).map (fun x => (x.1, x.2.2 % 2 ^ 32)) = [(264, 0x3F000000)] ∧
    (firstRows (exec (.vcomp (.v 4) (.v 1) .f32 ⟨1, false⟩) (on .vec compared))).map (fun x => (x.1, x.2.2)) = [(260, 0x40400000)] ∧
    (firstRows (exec (.vsqrt (.v 7) (.v 2) .f32 ⟨0, false⟩) (on .vec compared))).map (fun x => (x.1, x.2.2 % 2 ^ 32)) = [(276, 0x3FB504F3)] := by
  decide +kernel

/-- The team of the modular chapter's worked example: m1 as vmset leaves it, with 17 for row 0 and 97 for row 1, and v2, v3
as given. -/
def butterflied : Team :=
  { core0 with
    vshape := 0x202, m := core0.m.set 1 (((Vector.replicate 16 none).set 0 (some ⟨17, false, 2 ^ 64 / 17, false⟩)).set 1
      (some ⟨97, false, 2 ^ 64 / 97, false⟩)),
    v := ((core0.v.set 1 ⟨BitVec.ofNat 16384 (17 + 97 * 2 ^ 1024), 0⟩).set 2 ⟨BitVec.ofNat 16384 (four 3 5 16 9 + four 50 96 60 2 * 2 ^ 1024), 0⟩).set 3
      ⟨BitVec.ofNat 16384 (four 2 4 200 0 + four 10 96 0 0 * 2 ^ 1024), 0⟩ }

/-- The worked example of the modular chapter: the moduli of m1 land four beats after vmset, the butterflies of both rows
eight after vbfly, and a butterfly under a set that is not loaded takes the trap with TVAL 0x80000 plus the set's number. -/
theorem test_modular_example :
    (landings (exec (.vmset 1 (.v 1) .r32 ⟨0, false⟩) (on .vec butterflied))).map (fun x => (x.1, match x.2 with
      | .modset m l => (m.toNat, l.map fun e => (e.1, e.2.q)) | _ => (0, []))) = [(260, 1, [(0, 17), (1, 97)])] ∧
    ((slices (exec (.vbfly (.v 4) (.v 2) (.v 3) 1 1 .r32 ⟨0, false⟩) (on .vec butterflied))).map fun p =>
      (p.1, p.2.data.toNat % 2 ^ 128, p.2.data.toNat / 2 ^ 1024 % 2 ^ 128)) = [(264, four 1 7 5 3, four 68 94 32 1)] ∧
    (match exec (.vbfly (.v 4) (.v 2) (.v 3) 1 1 .r32 ⟨0, false⟩) (on .vec { butterflied with m := core0.m }) with
      | .next s => s.teams.flatMap fun t => t.traps.map (·.tval) | _ => []) = [0x80001] := by decide +kernel

/-! ## Whole words with WAIT and SIGNAL, from the spec's worked examples -/

/-- The lines of the examples of the encoding, control, access, vector, modular, channel and team chapters. -/
def workedWords : List (Col × Nat × Code) :=
  [(.vec, 0x8983_0306_0405_0620, ⟨.tok .acs 1, .tok .mat 0, .vfma (.v 6) (.v 4) (.v 5) (.v 6) .bf16 ⟨0, false⟩⟩),
   (.ctl, 0x0000_3010_303F_FFFB, ⟨.none, .none, .b .ne 3 0 (-5)⟩),
   (.acs, 0x0200_3814_0100_0300, ⟨.idle 2, .none, .loopf (.reg 5) 16 3⟩),
   (.ctl, 0x0000_2904_1F4A_7C15, ⟨.none, .none, .lui 1 1 0xF4A7C15⟩),
   (.ctl, 0x0500_0018_4140_0000, ⟨.idle 5, .none, .add 6 4 5⟩),
   (.vec, 0x0200_1003_01D0_0014, ⟨.idle 2, .none, .vsum (.v 3) (.v 1) (.imm 16) .f32 ⟨2, false⟩⟩),
   (.vec, 0x0300_4005_5000_0010, ⟨.idle 3, .none, .vmov (.v 5) .lat .f32 ⟨0, false⟩⟩),
   (.vec, 0x0300_3504_0203_09E0, ⟨.idle 3, .none, .vbfly (.v 4) (.v 2) (.v 3) 1 1 .r32 ⟨0, false⟩⟩),
   (.chn, 0x2700_0118_3000_0100, ⟨.idle 39, .none, .rd 1 2 3 0 0x100⟩),
   (.ctl, 0x0040_3F00_0000_0000, ⟨.none, .link 0, .nop⟩), (.ctl, 0x00E0_3F00_0000_0000, ⟨.none, .bar 0, .nop⟩),
   (.ctl, 0xC000_2018_0000_0001, ⟨.cnt 0, .none, .addi 6 0 1⟩), (.acs, 0xE000_3B00_0000_0000, ⟨.bar 0, .none, .rdv⟩)]

theorem test_decode_worked_words : (workedWords.all fun x => decide (decode x.1 x.2.1 = .ok x.2.2)) = true := by decide

/-- R89, R91: WAIT and SIGNAL codes at the ends of their ranges, and the codes that stand for nothing. -/
theorem test_wait_and_signal_codes :
    [Wait.ofCode 0, Wait.ofCode 1, Wait.ofCode 0x7F, Wait.ofCode 0xA0, Wait.ofCode 0xBF, Wait.ofCode 0xDF, Wait.ofCode 0xE7, Wait.ofCode 0xED,
      Wait.ofCode 0xEE, Wait.ofCode 0xEF, Wait.ofCode 0xFF] =
      [some .none, some (.idle 1), some (.idle 127), some (.flag 0), some (.flag 31), some (.cnt 31), some (.bar 7), some .plait, some .landed,
        none, none] ∧
    [Signal.ofCode 0, Signal.ofCode 0x1F, Signal.ofCode 0x20, Signal.ofCode 0x5F, Signal.ofCode 0xA0, Signal.ofCode 0xDF, Signal.ofCode 0xE7,
      Signal.ofCode 0xFF] =
      [some .none, none, some (.clr 0), some (.link 31), some (.flag 0), some (.cnt 31), some (.bar 7), none] := by decide

/-! ## Memory, traps and folds -/

/-- R6: the byte of a dword at the lowest address is its least significant one, and what nothing has written reads as 0. -/
theorem test_byte_order : readBytes (writeNat [] 0x1000 0x0102030405060708 8) 0x0FFF 10 = [0, 8, 7, 6, 5, 4, 3, 2, 1, 0] := by decide

/-- Writing 0 over a byte leaves nothing listed. -/
theorem test_zero_is_not_listed : writeNat (writeNat [] 5 7 1) 5 0 1 = [] := by decide

/-- R378: of two pending traps the earlier beat comes first, then the lower column. -/
theorem test_trap_order : firstTrap [⟨.vec, 3, 0x200, 0, 9, 0, 3⟩, ⟨.acs, 4, 0x106, 0, 8, 0, 4⟩, ⟨.ctl, 5, 0x007, 0, 8, 0, 5⟩] =
    some ⟨.ctl, 5, 0x007, 0, 8, 0, 5⟩ := by decide

/-- R57, R58: an image of zeros folds to 0 in its first word, and a fold is the sum of its words' mixes. -/
theorem test_plait : mix64 0 = 0 ∧ plaitWords 0 [0] = 0 ∧ plaitWords 0 [1, 2] = mix64 1 + mix64 (2 ^^^ 0x9E3779B97F4A7C15) := by decide

/-- R149: TRAP is complete when its trap is taken, so the position kept is P + 1, and TVAL is its code. -/
theorem test_trap_word_pends : (match exec (.trap 9) (on .ctl core0) with
    | .next s => s.teams.flatMap fun t => t.traps.map fun x => (x.col, x.epc, x.tval)
    | _ => []) = [(.ctl, 5, 9)] := by decide +kernel

/-! ## Witnesses: units that ECC finds, the TLBs, and the scrubs -/

/-- A team with an uncorrectable word of scratchpad at 0x1000 and a correctable one after it. -/
def sick0 : Team := { core0 with sick := [(0x200, 2), (0x201, 1)] }

theorem witness_UnsoundUnitsAreFound :
    (let x := spanOf .d (effAddr sick0 4 0)
     sick0.unsealed (sick0.col .ctl).timed x.a x.n = false ∧ x.misaligned = false ∧ sick0.spBad x.a x.n = none ∧ (x.a / 8, 2) ∈ sick0.sick) ∧
    MayIssue (on .ctl sick0) sick0 { regs := [.s 1, .s 4] } ∧ [3, 5].Pairwise (· < ·) ∧
    (on .ctl { core0 with found := [(0x09, 0)] }).teams = [{ core0 with found := [(0x09, 0)] }] :=
  ⟨by decide, on_may (by decide), by decide, rfl⟩

/-- What is sound is read without a trap. -/
theorem witness_SoundUnitsAreRead : core0.sick = [] ∧ core0.accSick = [] ∧ core0.accEccTrap 0 65536 = none ∧ tiled0.eccTrap 48 [0x1080] = none ∧
    sick0.eccTrap 48 [0x1000] = some (.eccFound 0x09 0, 0x1000) ∧ (core0.seen (on .acs core0).cur).readsTrap 1 16 [0x1000] = none ∧
    (copying0.seen (on .cpy copying0).cur).readsTrap 2 64 [0x1100] = none ∧
    (let t := { trapped0 with depth := 2, handler := true }
     frameTrap ((on .ctl t).atIssue t) (t.seen (on .ctl t).cur) = none) ∧
    ((on .mat (engaged (.mgo 23))).nextStep (engaged (.mgo 23)) (jobFor (.mgo 23))).bind
      (fun p => (on .mat (engaged (.mgo 23))).stepEcc (engaged (.mgo 23)) p cfg0) = none := by decide +kernel

/-- The wall clock passes an hour with this beat. -/
theorem witness_ScrubsAreAskedFor : let s := { on .ctl core0 with nsThirds := 10799999999999 }
    s.kensia.step = 6 ∧ s.nsThirds / 10800000000000 ≠ (s.nsThirds + s.perBeat) / 10800000000000 := by decide

/-- The walk of address 0x1000 in that module finds a leaf at level 2 that a read may use. -/
theorem witness_WalksFillTheTlb : (mapped .ctl core0).walkTables 0 0x1000 = .ok (2 ^ 51 + 0xF, 2) ∧
    (mapped .ctl core0).leafOk ⟨0, true, false, false⟩ (leafOf (2 ^ 51 + 0xF) 2 0x1000) 1 = true := by decide

/-- A request that the I/O die can reach. -/
theorem witness_EnginesAreReached : asked0.engineLost ⟨9, 0, 0, 0, 0, 1⟩ = false ∧ (asking 8).engineLost ⟨9, 8, 0, 0, 0, 1⟩ = true := by
  decide +kernel

/-- R438: a write of a whole word of 8 bytes makes it sound, and a partial one does not. -/
theorem test_whole_write_is_sound : (sick0.writeEcc 8 [0x1000]).sick = [(0x201, 1)] ∧ (sick0.writeEcc 4 [0x1000]).sick = sick0.sick ∧
    (sick0.readEcc 8 [0x1008]).found = [(0x08, 0)] := by decide

/-- A byte that ctl has written from 1 to 7, seen by acs and not yet by cpy. -/
def unseen0 : Team := { core0 with spad := [(0x1000, 7)], unseen := [⟨0, 2, 3, 1, 0x1000, 1, false, 2 ^ 40⟩, ⟨0, 1, 3, 1, 0x1000, 1, false, 0⟩] }

theorem witness_PathsSeeWrites : core0.unseen = [] ∧ Memory.wf unseen0.spad = true ∧ 0x1000 ∈ [0x1000] ∧ Memory.wf core0.spad = true ∧
    core0.clk = unseen0.clk ∧ Scope.team ≠ .stream ∧ (1 : BitVec 4).getLsbD 0 = true := by decide

/-- R332: cpy reads the old byte and the others the new one, until a fence of class 3 names ctl and cpy. -/
theorem test_fence_shows_writes : [0, 1, 2, 3].map (fun p => readByte (unseen0.view p).spad 0x1000) = [7, 7, 1, 7] ∧
    readByte ((unseen0.fenced .team 1 8 0b000101).view 2).spad 0x1000 = 7 ∧
    readByte ((unseen0.fenced .team 1 4 0b000101).view 2).spad 0x1000 = 1 ∧
    readByte ((unseen0.fenced .team 1 8 0b000110).view 2).spad 0x1000 = 1 := by decide

end Sys2Proof.Tests
end

section
/-! Rounding (O22): a format's magnitude codes in the order of their values, and the one rounding as a choice between two neighbours. -/

namespace Sys2Proof.Machine

/-! ## The magnitudes of a format -/

/-- The exponent of the least subnormal, the unit of a format's lowest binade. -/
def Fmt.low (x : Fmt) : ℤ := 1 - x.bias - x.f

/-- How many binades the unit of a magnitude code lies above the lowest: subnormals and the first binade share it. -/
def Fmt.rank (x : Fmt) (m : ℕ) : ℕ := m / 2 ^ x.f - 1

/-- The significand of a magnitude code, in its unit. -/
def Fmt.sig (x : Fmt) (m : ℕ) : ℕ := m - x.rank m * 2 ^ x.f

/-- The value of a magnitude code. -/
def Fmt.value (x : Fmt) (m : ℕ) : ℚ := x.sig m * 2 ^ (x.low + x.rank m)

/-- The largest finite code ends where the codes of infinity and NaN begin, or where the codes do (R16). -/
def Fmt.Tight (x : Fmt) : Prop :=
  x.maxCode + 1 = if x.hasInf then (2 ^ x.e - 1) * 2 ^ x.f else if x.hasNan then 2 ^ (x.e + x.f) - 1 else 2 ^ (x.e + x.f)

/-- Every format of R16 is such a one. -/
theorem tight_fmtOf (ty : ElemTy) : (fmtOf ty).Tight := by
  cases ty <;> unfold Fmt.Tight <;> decide

/-- A magnitude code is its significand in its unit. -/
theorem rank_sig (x : Fmt) (m : ℕ) : x.rank m * 2 ^ x.f + x.sig m = m := by
  have : x.rank m * 2 ^ x.f ≤ m := (Nat.mul_le_mul_right _ (Nat.sub_le ..)).trans (Nat.div_mul_le_self ..)
  unfold Fmt.sig
  omega

/-- A code has one significand that leads its unit. -/
theorem rank_sig_of (x : Fmt) {k q : ℕ} (hk : k = 0 ∨ 2 ^ x.f ≤ q) (hq : q < 2 * 2 ^ x.f) :
    x.rank (k * 2 ^ x.f + q) = k ∧ x.sig (k * 2 ^ x.f + q) = q := by
  have hP : 0 < 2 ^ x.f := by positivity
  have hr : x.rank (k * 2 ^ x.f + q) = k := by
    unfold Fmt.rank
    rw [Nat.mul_comm, Nat.mul_add_div hP]
    have := Nat.div_add_mod q (2 ^ x.f)
    have := Nat.mod_lt q hP
    rcases Nat.lt_or_ge q (2 ^ x.f) with h | h
    · have := Nat.div_eq_of_lt h
      omega
    · have : q / 2 ^ x.f = 1 := Nat.div_eq_of_lt_le (by omega) (by omega)
      omega
  exact ⟨hr, by unfold Fmt.sig; rw [hr]; omega⟩

/-- A significand above the lowest unit has a leading one, and none has a higher bit. -/
theorem sig_bounds (x : Fmt) (m : ℕ) : (x.rank m = 0 ∨ 2 ^ x.f ≤ x.sig m) ∧ x.sig m < 2 * 2 ^ x.f := by
  have hP : 0 < 2 ^ x.f := by positivity
  have hsum := rank_sig x m
  have hlt := Nat.lt_mul_div_succ m hP
  have hle := Nat.mul_div_le m (2 ^ x.f)
  rcases hk : m / 2 ^ x.f with _ | k
  · have hr : x.rank m = 0 := by simp [Fmt.rank, hk]
    rw [hk, Nat.mul_one] at hlt
    omega
  · have hr : x.rank m = k := by simp [Fmt.rank, hk]
    rw [hr, Nat.mul_comm] at hsum
    rw [hk] at hle hlt
    constructor
    · right; nlinarith
    · nlinarith

/-- A significand up to the first of the next binade has its value in its own unit. -/
theorem value_of (x : Fmt) {k q : ℕ} (hk : k = 0 ∨ 2 ^ x.f ≤ q) (hq : q ≤ 2 * 2 ^ x.f) :
    x.value (k * 2 ^ x.f + q) = q * 2 ^ (x.low + k) := by
  rcases hq.lt_or_eq with h | rfl
  · obtain ⟨hr, hs⟩ := rank_sig_of x hk h
    rw [Fmt.value, hr, hs]
  · have hP : 0 < 2 ^ x.f := by positivity
    obtain ⟨hr, hs⟩ := rank_sig_of x (k := k + 1) (q := 2 ^ x.f) (.inr le_rfl) (by omega)
    rw [show k * 2 ^ x.f + 2 * 2 ^ x.f = (k + 1) * 2 ^ x.f + 2 ^ x.f by ring, Fmt.value, hr, hs]
    push_cast
    rw [show x.low + (k + 1) = (x.low + k) + 1 by ring, zpow_add_one₀ two_ne_zero]
    ring

/-- Magnitude codes are in the order of their values. -/
theorem value_strictMono (x : Fmt) : StrictMono x.value := by
  refine strictMono_nat_of_lt_succ fun m => ?_
  obtain ⟨hk, hq⟩ := sig_bounds x m
  have hs : x.value (m + 1) = (x.sig m + 1 : ℕ) * 2 ^ (x.low + x.rank m) := by
    rw [← value_of x (hk.imp_right Nat.le_succ_of_le) hq, Nat.succ_eq_add_one, ← Nat.add_assoc, rank_sig]
  rw [hs, Fmt.value]
  push_cast
  gcongr
  linarith

/-! ## Decoding -/

/-- A scaled integer, as a fraction. -/
theorem scale2_fin {neg neg' : Bool} {a n d : ℕ} {k : ℤ} (h : scale2 neg a 1 k = .fin neg' n d) :
    neg' = neg ∧ 0 < d ∧ (n : ℚ) / d = a * 2 ^ k := by
  unfold scale2 at h
  split at h <;> rename_i hk <;> simp only [Val.fin.injEq, Nat.one_mul] at h <;> obtain ⟨rfl, rfl, rfl⟩ := h
  · obtain ⟨j, rfl⟩ := Int.eq_ofNat_of_zero_le hk
    simp
  · obtain ⟨j, rfl⟩ := Int.exists_eq_neg_ofNat (le_of_not_ge hk)
    simp [div_eq_mul_inv]

/-- A zero exponent field: a subnormal or zero. -/
theorem rank_sig_of_subnormal (x : Fmt) {m : ℕ} (h : m / 2 ^ x.f = 0) : x.rank m = 0 ∧ x.sig m = m % 2 ^ x.f := by
  have hr : x.rank m = 0 := by simp [Fmt.rank, h]
  refine ⟨hr, ?_⟩
  rw [Nat.mod_eq_of_lt (Nat.lt_of_div_eq_zero (by positivity) h), Fmt.sig, hr, Nat.zero_mul, Nat.sub_zero]

/-- Another exponent field: the fraction after a leading one. -/
theorem rank_sig_of_normal (x : Fmt) {m : ℕ} (h : m / 2 ^ x.f ≠ 0) :
    (x.rank m : ℤ) = (m / 2 ^ x.f : ℕ) - 1 ∧ x.sig m = 2 ^ x.f + m % 2 ^ x.f := by
  obtain ⟨k, hk⟩ := Nat.exists_eq_succ_of_ne_zero h
  have hr : x.rank m = k := by simp [Fmt.rank, hk]
  have hsum := rank_sig x m
  have hdiv := Nat.div_add_mod m (2 ^ x.f)
  rw [hr] at hsum
  rw [hk, Nat.mul_succ, Nat.mul_comm] at hdiv
  exact ⟨by rw [hr, hk]; push_cast; ring, by omega⟩

/-- A magnitude that is neither an infinity nor a NaN is at most the largest finite code. -/
theorem le_maxCode {x : Fmt} (hx : x.Tight) {m : ℕ} (hm : m < 2 ^ (x.e + x.f)) (hlim : m / 2 ^ x.f ≤ 2 ^ x.e - 1)
    (hinf : x.hasInf = true → m / 2 ^ x.f ≠ 2 ^ x.e - 1) (hnan : x.hasInf = false → x.hasNan = true → m ≠ x.maxCode + 1) :
    m ≤ x.maxCode := by
  unfold Fmt.Tight at hx
  cases hi : x.hasInf
  · cases hn : x.hasNan <;> simp only [hi, hn, Bool.false_eq_true, if_false, if_true] at hx
    · omega
    · have := hnan hi hn
      omega
  · rw [hi, if_pos rfl] at hx
    have : m < (2 ^ x.e - 1) * 2 ^ x.f := (Nat.div_lt_iff_lt_mul (by positivity)).1 (lt_of_le_of_ne hlim (hinf hi))
    omega

/-- The exponent and fraction fields give a magnitude its significand and unit (R17). -/
theorem scale2_fields (x : Fmt) (neg : Bool) (m : ℕ) :
    (if m / 2 ^ x.f = 0 then scale2 neg (m % 2 ^ x.f) 1 (1 - x.bias - x.f)
      else scale2 neg (2 ^ x.f + m % 2 ^ x.f) 1 ((m / 2 ^ x.f : ℕ) - x.bias - x.f)) = scale2 neg (x.sig m) 1 (x.low + x.rank m) := by
  rw [Fmt.low]
  split
  · obtain ⟨hr, hg⟩ := rank_sig_of_subnormal x ‹_›
    simp [hr, hg]
  · obtain ⟨hr, hg⟩ := rank_sig_of_normal x ‹_›
    rw [hr, hg, show (1 - x.bias - x.f + ((m / 2 ^ x.f : ℕ) - 1) : ℤ) = (m / 2 ^ x.f : ℕ) - x.bias - x.f by ring]

/-- A code is its sign bit and its magnitude. -/
theorem signed_mod (x : Fmt) {c : ℕ} (hc : c < 2 ^ x.width) :
    x.signed (decide (c / 2 ^ (x.e + x.f) % 2 = 1)) (c % 2 ^ (x.e + x.f)) = c := by
  have hb : c / 2 ^ (x.e + x.f) < 2 := Nat.div_lt_of_lt_mul (by rwa [← Nat.pow_succ, Nat.succ_eq_add_one, Nat.add_comm, ← Nat.add_assoc])
  have hdiv := Nat.mod_add_div c (2 ^ (x.e + x.f))
  unfold Fmt.signed
  generalize c / 2 ^ (x.e + x.f) = b at hb hdiv
  interval_cases b <;> simpa using hdiv

/-- WHAT A FINITE CODE HOLDS: a sign, and a magnitude code with its value (R17). -/
theorem decodeF_fin {x : Fmt} (hx : x.Tight) {c n d : ℕ} {neg : Bool} (hc : c < 2 ^ x.width) (h : decodeF x c = .fin neg n d) :
    ∃ m, m ≤ x.maxCode ∧ c = x.signed neg m ∧ 0 < d ∧ (n : ℚ) / d = x.value m := by
  have hpow : 2 ^ (x.e + x.f) = 2 ^ x.f * 2 ^ x.e := by rw [Nat.pow_add, Nat.mul_comm]
  have hm : c % 2 ^ (x.e + x.f) < 2 ^ (x.e + x.f) := Nat.mod_lt _ (by positivity)
  have hcode := (signed_mod x hc).symm
  have hex : c / 2 ^ x.f % 2 ^ x.e = c % 2 ^ (x.e + x.f) / 2 ^ x.f := by rw [hpow, Nat.mod_mul_right_div_self]
  have hfr : c % 2 ^ x.f = c % 2 ^ (x.e + x.f) % 2 ^ x.f := by rw [hpow, Nat.mod_mul_right_mod]
  unfold decodeF at h
  dsimp only at h
  rw [hex, hfr, scale2_fields] at h
  generalize c % 2 ^ (x.e + x.f) = m at h hm hcode
  have hlim : m / 2 ^ x.f ≤ 2 ^ x.e - 1 := Nat.le_sub_one_of_lt (Nat.div_lt_of_lt_mul (hpow ▸ hm))
  split at h
  case isTrue => split at h <;> cases h
  case isFalse hinf =>
    split at h
    case isTrue => cases h
    case isFalse hnan =>
      obtain ⟨rfl, hd, hv⟩ := scale2_fin h
      exact ⟨m, le_maxCode hx hm hlim (by simpa using hinf) (by simpa using hnan), hcode, hd, hv⟩

/-! ## Rounding -/

/-- The leading bits of numerator and denominator fix the binade of a fraction but for one. -/
theorem log2_sub_bounds {n d : ℕ} (hn : 0 < n) (hd : 0 < d) :
    (2 : ℚ) ^ ((n.log2 : ℤ) - d.log2 - 1) ≤ n / d ∧ (n : ℚ) / d < 2 ^ ((n.log2 : ℤ) - d.log2 + 1) := by
  have hd' : (0 : ℚ) < d := by exact_mod_cast hd
  have hn1 : (2 : ℚ) ^ (n.log2 : ℤ) ≤ n := by exact_mod_cast Nat.log2_self_le hn.ne'
  have hn2 : (n : ℚ) < 2 ^ ((n.log2 : ℤ) + 1) := by exact_mod_cast Nat.lt_log2_self
  have hd1 : (2 : ℚ) ^ (d.log2 : ℤ) ≤ d := by exact_mod_cast Nat.log2_self_le hd.ne'
  have hd2 : (d : ℚ) < 2 ^ ((d.log2 : ℤ) + 1) := by exact_mod_cast Nat.lt_log2_self
  constructor
  · rw [le_div_iff₀ hd']
    calc (2 : ℚ) ^ ((n.log2 : ℤ) - d.log2 - 1) * d ≤ 2 ^ ((n.log2 : ℤ) - d.log2 - 1) * 2 ^ ((d.log2 : ℤ) + 1) := by gcongr
      _ = 2 ^ (n.log2 : ℤ) := by rw [← zpow_add₀ two_ne_zero]; ring_nf
      _ ≤ n := hn1
  · rw [div_lt_iff₀ hd']
    calc (n : ℚ) < 2 ^ ((n.log2 : ℤ) + 1) := hn2
      _ = 2 ^ ((n.log2 : ℤ) - d.log2 + 1) * 2 ^ (d.log2 : ℤ) := by rw [← zpow_add₀ two_ne_zero]; ring_nf
      _ ≤ 2 ^ ((n.log2 : ℤ) - d.log2 + 1) * d := by gcongr

/-- The test by which `log2Q` picks one of the two binades compares the fraction with a power of two. -/
theorem pow_le_frac (n : ℕ) {d : ℕ} (hd : 0 < d) (k : ℤ) :
    (if 0 ≤ k then decide (d * 2 ^ k.toNat ≤ n) else decide (d ≤ n * 2 ^ (-k).toNat)) = decide ((2 : ℚ) ^ k ≤ n / d) := by
  rw [Bool.eq_iff_iff, decide_eq_true_iff, le_div_iff₀ (by exact_mod_cast hd)]
  split
  case isTrue hk =>
    obtain ⟨j, rfl⟩ := Int.eq_ofNat_of_zero_le hk
    rw [decide_eq_true_iff, mul_comm, ← Nat.cast_le (α := ℚ)]
    simp
  case isFalse hk =>
    obtain ⟨j, rfl⟩ := Int.exists_eq_neg_ofNat (le_of_not_ge hk)
    rw [decide_eq_true_iff, ← Nat.cast_le (α := ℚ), zpow_neg, inv_mul_le_iff₀ (by positivity), mul_comm]
    simp

/-- The binade of a positive fraction. -/
theorem log2Q_bounds {n d : ℕ} (hn : 0 < n) (hd : 0 < d) :
    (2 : ℚ) ^ log2Q n d ≤ n / d ∧ (n : ℚ) / d < 2 ^ (log2Q n d + 1) := by
  obtain ⟨hlow, hhigh⟩ := log2_sub_bounds hn hd
  unfold log2Q
  dsimp only
  rw [pow_le_frac n hd]
  by_cases h : (2 : ℚ) ^ ((n.log2 : ℤ) - d.log2) ≤ n / d
  · simpa [h] using hhigh
  · simpa [h] using ⟨hlow, lt_of_not_ge h⟩

/-- A fraction over a power of two, as quotient, remainder and divisor. -/
theorem divUnit_spec (n : ℕ) {d : ℕ} (hd : 0 < d) (u : ℤ) {q r D : ℕ} (h : divUnit n d u = (q, r, D)) :
    r < D ∧ (n : ℚ) / d = (q + r / D) * 2 ^ u := by
  have hdiv (a : ℕ) {b : ℕ} (hb : 0 < b) : (a : ℚ) / b = (a / b : ℕ) + (a % b : ℕ) / b := by
    have : (a : ℚ) = b * (a / b : ℕ) + (a % b : ℕ) := by exact_mod_cast (Nat.div_add_mod a b).symm
    field_simp
    linarith
  unfold divUnit at h
  split at h <;> simp only [Prod.mk.injEq] at h <;> obtain ⟨rfl, rfl, rfl⟩ := h
  case isTrue hu =>
    obtain ⟨j, rfl⟩ := Int.eq_ofNat_of_zero_le hu
    refine ⟨Nat.mod_lt _ (by positivity), ?_⟩
    rw [← hdiv _ (by positivity)]
    simp [div_mul_eq_div_div]
  case isFalse hu =>
    obtain ⟨j, rfl⟩ := Int.exists_eq_neg_ofNat (le_of_not_ge hu)
    refine ⟨Nat.mod_lt _ hd, ?_⟩
    rw [← hdiv _ hd]
    simp [mul_div_right_comm]

/-- A value lies at a magnitude code or between it and the next; the flag says which. -/
structure Fmt.Brackets (x : Fmt) (m : ℕ) (v : ℚ) (nx : Bool) : Prop where
  lower : x.value m ≤ v
  upper : v < x.value (m + 1)
  exact_iff : nx = false ↔ x.value m = v

/-- The quotient of a value by the unit of its binade is a significand of that unit. -/
theorem unit_quotient (x : Fmt) {k q : ℕ} {v : ℚ} {b : ℤ} (hlo : q * 2 ^ (x.low + k) ≤ v) (hhi : v < (q + 1) * 2 ^ (x.low + k))
    (hb : 2 ^ b ≤ v) (hb' : v < 2 ^ (b + 1)) (hk : x.low + k = max (b - x.f) x.low) : (k = 0 ∨ 2 ^ x.f ≤ q) ∧ q < 2 * 2 ^ x.f := by
  have hu : (0 : ℚ) < 2 ^ (x.low + k) := by positivity
  constructor
  · rcases Nat.eq_zero_or_pos k with h0 | h0
    · exact .inl h0
    · have : (2 : ℚ) ^ x.f * 2 ^ (x.low + k) < (q + 1) * 2 ^ (x.low + k) := by
        calc (2 : ℚ) ^ x.f * 2 ^ (x.low + k) = 2 ^ ((x.f : ℤ) + (x.low + k)) := by rw [zpow_add₀ two_ne_zero (x.f : ℤ), zpow_natCast]
          _ = 2 ^ b := by congr 1; omega
          _ ≤ v := hb
          _ < (q + 1) * 2 ^ (x.low + k) := hhi
      exact .inr (Nat.lt_succ_iff.1 (by exact_mod_cast lt_of_mul_lt_mul_right this hu.le))
  · have : (q : ℚ) * 2 ^ (x.low + k) < (2 * 2 ^ x.f) * 2 ^ (x.low + k) := by
      calc (q : ℚ) * 2 ^ (x.low + k) ≤ v := hlo
        _ < 2 ^ (b + 1) := hb'
        _ ≤ 2 ^ (1 + x.f + (x.low + k)) := zpow_le_zpow_right₀ one_le_two (by omega)
        _ = (2 * 2 ^ x.f) * 2 ^ (x.low + k) := by rw [zpow_add₀ two_ne_zero, zpow_add₀ two_ne_zero]; simp
    exact_mod_cast lt_of_mul_lt_mul_right this hu.le

/-- A whole number of units and a rest below one more, in the unit of the value's binade, bracket the value. -/
theorem brackets_of_unit (x : Fmt) {k q r D : ℕ} {v : ℚ} {b : ℤ} (hr : r < D) (hv : v = (q + r / D) * 2 ^ (x.low + k))
    (hb : 2 ^ b ≤ v) (hb' : v < 2 ^ (b + 1)) (hk : x.low + k = max (b - x.f) x.low) : x.Brackets (k * 2 ^ x.f + q) v (r != 0) := by
  have hD : (0 : ℚ) < D := by exact_mod_cast Nat.zero_lt_of_lt hr
  have hrest : (r : ℚ) / D < 1 := (div_lt_one hD).2 (by exact_mod_cast hr)
  have hlo : q * 2 ^ (x.low + k) ≤ v := by
    rw [hv]
    gcongr
    exact le_add_of_nonneg_right (by positivity)
  have hhi : v < (q + 1) * 2 ^ (x.low + k) := by rw [hv]; gcongr
  obtain ⟨hlead, htop⟩ := unit_quotient x hlo hhi hb hb' hk
  have h0 := value_of x hlead htop.le
  have h1 := value_of x (hlead.imp_right Nat.le_succ_of_le) htop
  refine ⟨h0 ▸ hlo, ?_, ?_⟩
  · rw [Nat.add_assoc, h1]
    exact_mod_cast hhi
  · rw [h0, hv, mul_left_inj' (by positivity)]
    simp [hD.ne']

/-- THE ONE ROUNDING: a value between two neighbouring magnitudes is delivered as one of them, or has overflowed (R44, R45). -/
theorem roundQ_spec (x : Fmt) (mode : Mode) (sat neg : Bool) {n d : ℕ} (hn : 0 < n) (hd : 0 < d) :
    ∃ m q r D : ℕ, 0 < D ∧ x.Brackets m (n / d) (r != 0) ∧ ∃ tiny : Bool, roundQ x mode sat neg n d =
      if x.maxCode < m + (roundsUp mode neg q r D).toNat then (overflowCode x mode sat neg, 5)
      else (x.signed neg (m + (roundsUp mode neg q r D).toNat), (if r != 0 && tiny then 2 else 0) ||| if r != 0 then 1 else 0) := by
  obtain ⟨hb, hb'⟩ := log2Q_bounds hn hd
  have hk : x.low + ((max (log2Q n d - x.f) x.low - x.low).toNat : ℕ) = max (log2Q n d - x.f) x.low := by omega
  obtain ⟨⟨q, r, D⟩, hdiv⟩ : ∃ p, divUnit n d (max (log2Q n d - x.f) x.low) = p := ⟨_, rfl⟩
  obtain ⟨hr, hv⟩ := divUnit_spec n hd _ hdiv
  rw [← hk] at hv
  refine ⟨_, q, r, D, Nat.zero_lt_of_lt hr, brackets_of_unit x hr hv hb hb' hk, ?_⟩
  unfold roundQ
  rw [if_neg hn.ne']
  simp only [show (1 - x.bias - x.f : ℤ) = x.low from rfl, hdiv]
  cases roundsUp mode neg q r D <;> exact ⟨_, rfl⟩

/-- Nothing is rounded away from a value that is exact. -/
theorem roundsUp_exact (mode : Mode) (neg : Bool) (q : ℕ) {D : ℕ} (hD : 0 < D) : roundsUp mode neg q 0 D = false := by
  unfold roundsUp
  split <;> simp <;> omega

/-- A code lies where its value brackets. -/
theorem Fmt.Brackets.eq_of_value {x : Fmt} {m m' : ℕ} {nx : Bool} (h : x.Brackets m (x.value m') nx) : m = m' ∧ nx = false := by
  have h0 := (value_strictMono x).le_iff_le.1 h.lower
  have h1 := (value_strictMono x).lt_iff_lt.1 h.upper
  obtain rfl : m = m' := by omega
  exact ⟨rfl, h.exact_iff.2 rfl⟩

/-- R44: between its own code and the next nothing rounds a representable value away. -/
theorem representableValuesRoundToThemselves : RepresentableValuesRoundToThemselves := by
  intro ty _ mode sat c hc neg n d hdec
  obtain ⟨m, hm, rfl, hd, hv⟩ := decodeF_fin (tight_fmtOf ty) hc hdec
  rw [hdec]
  change roundQ (fmtOf ty) mode sat neg n d = _
  rcases Nat.eq_zero_or_pos n with rfl | hn
  · have : (fmtOf ty).value m = (fmtOf ty).value 0 := by rw [← hv]; simp [Fmt.value, Fmt.sig]
    rw [(value_strictMono _).injective this]
    rfl
  · obtain ⟨m', q, r, D, hD, hbr, tiny, hround⟩ := roundQ_spec (fmtOf ty) mode sat neg hn hd
    rw [hv] at hbr
    obtain ⟨rfl, hr⟩ := hbr.eq_of_value
    obtain rfl : r = 0 := by simpa using hr
    rw [hround, roundsUp_exact mode neg q hD, if_neg (by simpa using hm)]
    simp

/-! ## Directed rounding -/

/-- Every magnitude up to the code after the largest finite one is a code of the format. -/
theorem maxCode_succ_lt {x : Fmt} (hx : x.Tight) : x.maxCode + 1 < 2 ^ x.width := by
  have hle : x.maxCode + 1 ≤ 2 ^ (x.e + x.f) := by
    rw [hx, Nat.pow_add]
    split
    · exact Nat.mul_le_mul_right _ (Nat.sub_le ..)
    · split <;> omega
  exact hle.trans_lt (Nat.pow_lt_pow_right one_lt_two (by unfold Fmt.width; omega))

/-- A code without a sign that decodes to a value is its magnitude. -/
theorem decodeF_pos {x : Fmt} (hx : x.Tight) {m n d : ℕ} (hm : m ≤ x.maxCode + 1) (h : decodeF x (x.signed false m) = .fin false n d) :
    m ≤ x.maxCode ∧ 0 < d ∧ (n : ℚ) / d = x.value m := by
  obtain ⟨m', hm', hc, hd, hv⟩ := decodeF_fin hx (by simpa [Fmt.signed] using hm.trans_lt (maxCode_succ_lt hx)) h
  obtain rfl : m = m' := by simpa [Fmt.signed] using hc
  exact ⟨hm', hd, hv⟩

/-- Where a positive overflow delivers a number, it is the largest one, under a mode that does not round up (R22). -/
theorem overflow_pos {x : Fmt} (hx : x.Tight) (hinf : x.hasInf = true) {mode : Mode} {n d : ℕ}
    (h : decodeF x (overflowCode x mode false false) = .fin false n d) : (mode = 1 ∨ mode = 2) ∧ 0 < d ∧ (n : ℚ) / d = x.value x.maxCode := by
  unfold overflowCode at h
  dsimp only at h
  split at h
  case isTrue hmode => exact ⟨by simpa [hinf] using hmode, (decodeF_pos hx (Nat.le_succ _) h).2⟩
  case isFalse =>
    have htop : (2 ^ x.e - 1) * 2 ^ x.f = x.maxCode + 1 := by rw [hx, if_pos hinf]
    rw [htop] at h
    exact absurd (decodeF_pos hx le_rfl h).1 (Nat.not_succ_le_self _)

/-- The inexact flag of R45 is bit 0, whether or not the underflow flag stands beside it. -/
theorem exc_inexact (nx tiny : Bool) : ((if nx && tiny then 2 else 0) ||| (if nx then 1 else 0) : Exc).getLsbD 0 = nx := by
  revert nx tiny
  decide

/-- The neighbour that a mode chooses lies on the side that the mode asks for, and is the value itself only where that is exact (R42). -/
theorem Fmt.Brackets.directed {x : Fmt} {m r : ℕ} {v : ℚ} (h : x.Brackets m v (r != 0)) (mode : Mode) (q : ℕ) {D : ℕ} (hD : 0 < D) :
    (mode = 1 ∨ mode = 2 → x.value (m + (roundsUp mode false q r D).toNat) ≤ v) ∧
    (mode = 3 → v ≤ x.value (m + (roundsUp mode false q r D).toNat)) ∧
    ((r != 0) = true ↔ x.value (m + (roundsUp mode false q r D).toNat) ≠ v) := by
  obtain ⟨hlo, hhi, hex⟩ := h
  rcases Nat.eq_zero_or_pos r with rfl | hr
  · have hv : x.value m = v := hex.1 rfl
    simp [roundsUp_exact mode false q hD, hv]
  · have hnx : (r != 0) = true := by simpa using hr.ne'
    have hne : x.value m ≠ v := fun he => by simpa [hnx] using hex.2 he
    refine ⟨?_, ?_, ?_⟩
    · rintro (rfl | rfl) <;> simpa [roundsUp] using hlo
    · rintro rfl
      simpa [roundsUp, hnx] using hhi.le
    · cases roundsUp mode false q r D
      · simpa [hnx] using hne
      · simpa [hnx] using hhi.ne'

/-- WHAT A POSITIVE VALUE IS DELIVERED AS, where that is a number (R22, R42, R44). -/
theorem deliver_directed {x : Fmt} (hx : x.Tight) (hinf : x.hasInf = true) (mode : Mode) {n d rn rd : ℕ} (hn : 0 < n) (hd : 0 < d)
    (h : decodeF x (deliver x mode false (.fin false n d)).1 = .fin false rn rd) :
    0 < rd ∧ (mode = 1 ∨ mode = 2 → (rn : ℚ) / rd ≤ n / d) ∧ (mode = 3 → (n : ℚ) / d ≤ rn / rd) ∧
      ((deliver x mode false (.fin false n d)).2.getLsbD 0 = true ↔ (rn : ℚ) / rd ≠ n / d) := by
  obtain ⟨m, q, r, D, hD, hbr, tiny, hround⟩ := roundQ_spec x mode false false hn hd
  rw [deliver, hround] at h ⊢
  split at h
  case isTrue hover =>
    rw [if_pos hover]
    obtain ⟨hmode, hrd, hv⟩ := overflow_pos hx hinf h
    have hlt : (rn : ℚ) / rd < n / d := by
      have hm : x.maxCode < m := by rcases hmode with rfl | rfl <;> simpa [roundsUp] using hover
      exact hv ▸ (value_strictMono x hm).trans_le hbr.lower
    exact ⟨hrd, fun _ => hlt.le, by rintro rfl; simp at hmode, fun _ => hlt.ne, fun _ => by simp⟩
  case isFalse hfit =>
    rw [if_neg hfit, exc_inexact]
    obtain ⟨-, hrd, hv⟩ := decodeF_pos hx (by omega) h
    rw [hv]
    exact ⟨hrd, hbr.directed mode q hD⟩

/-- FP64, FP32, BF16 and FP16 have infinities (R16). -/
theorem hasInf_of_wide : ∀ ty ∈ [ElemTy.f64, .f32, .bf16, .f16], (fmtOf ty).hasInf = true := by decide

/-- R42, R44: the bounds of `deliver_directed`, with the denominators cleared. -/
theorem directedRoundingBoundsTheValue : DirectedRoundingBoundsTheValue := by
  intro ty hty n d mode hn hd x r rn rd hdec
  obtain ⟨hrd, hdown, hup, hflag⟩ := deliver_directed (tight_fmtOf ty) (hasInf_of_wide ty hty) mode hn hd hdec
  have hd' : (0 : ℚ) < d := by exact_mod_cast hd
  have hrd' : (0 : ℚ) < rd := by exact_mod_cast hrd
  rw [div_le_div_iff₀ hrd' hd'] at hdown
  rw [div_le_div_iff₀ hd' hrd'] at hup
  rw [ne_eq, div_eq_div_iff hrd'.ne' hd'.ne'] at hflag
  exact_mod_cast And.intro hdown (And.intro hup hflag)

/-- Settles O22, from the order of a format's magnitude codes: a value lies at a code or between two neighbours. -/
theorem roundingIsExactAndDirected : Obligations.RoundingIsExactAndDirected :=
  ⟨representableValuesRoundToThemselves, directedRoundingBoundsTheValue⟩

end Sys2Proof.Machine
end

section
/-! Copy checks and requests (O32): what a word of cpy sees while it is judged, and what CPCHK and the CPX words do with it. -/

namespace Sys2Proof.Machine

/-! ## What the acquire of a WAIT leaves as it is -/

@[simp] theorem seen_unsealed (t : Team) (cx : Cur) (timed : Bool) (lo n : Nat) :
    (t.seen cx).unsealed timed lo n = t.unsealed timed lo n := by simp [Team.unsealed]

@[simp] theorem seen_copyInto (t : Team) (cx : Cur) (a n : Nat) : (t.seen cx).copyInto a n = t.copyInto a n := by
  simp [Team.copyInto]

@[simp] theorem seen_spBad (t : Team) (cx : Cur) (lo n : Nat) : (t.seen cx).spBad lo n = t.spBad lo n := by
  simp [Team.spBad, Team.bankOk]

@[simp] theorem seen_dwordTrap (t : Team) (cx : Cur) (a n : Nat) : dwordTrap (t.seen cx) a n = dwordTrap t a n := by
  simp [dwordTrap]

@[simp] theorem seen_cpxBad (s : State) (t : Team) (cx : Cur) (e d : Nat) : s.cpxBad (t.seen cx) e d = s.cpxBad t e d := by
  unfold State.cpxBad
  dsimp only
  rw [seen_spBad]

/-! ## The issue of a word of cpy -/

/-- What a path sees of the scratchpad stays as a word issues. -/
@[simp] theorem past_view_spad (s : State) (t : Team) (occ path : Nat) : ((s.past t occ).view path).spad = (t.view path).spad := by
  unfold Team.view
  rw [past_unseen]
  split <;> simp

/-- A word that may issue takes its effect on the team past it: `runWord_issues` in the words of `Completes`. -/
theorem runWord_completes {s : State} {t : Team} {g : Gate} {gate : State → Team → Gate} {eff : State → Team → State}
    (h : MayIssue s t g) (hg : gate (s.atIssue t) (t.seen s.cur) = g) :
    runWord s gate eff = .next (eff (s.atIssue t) (s.past t g.occ)) := runWord_issues h hg

/-! ## CPCHK (R58, R265) -/

theorem exec_cpchk (a k : SReg) (s : State) : exec (.cpchk a k) s = execCpchk a k s := rfl

/-- A timed word waits for no earlier copy, and an elastic one waits for those of class 0 (R330). -/
theorem no_earlier_copy {t : Team} {timed : Bool} (h : timed = false → ∀ x ∈ t.copies, x.cls ≠ 0) :
    (!timed && t.copies.any fun x => x.cls = 0) = false := by
  cases timed
  · simpa using h rfl
  · rfl

theorem copyCheckFoldsItsImage : CopyCheckFoldsItsImage := by
  intro s t a k _
  constructor
  · intro hrecord hexpected hcopies l hseen hpast hbytes hearly hmay
    rw [exec_cpchk, execCpchk, if_neg hmay.first.2, runWord_completes hmay]
    · simp only [past_getS, hpast, past_view_spad, past_clk]
    · have hclass := no_earlier_copy hcopies
      simpa [hseen, hrecord, hexpected, hclass, hearly, trapOf] using hbytes
  · intro v hlive hphase hargs
    rw [exec_cpchk, execCpchk, if_pos hphase, onTeam_live hlive, hargs]
    rfl

/-! ## CPX (R266, R417) -/

theorem exec_cpx (a : SReg) (cls : BitVec 4) (s : State) :
    ∀ p ∈ [(Instr.cpxHost a cls, 0), (.cpxPeer a cls, 1), (.cpxColl a cls, 2)], exec p.1 s = cpxWord s p.2 a cls := by
  simp only [List.forall_mem_cons, List.not_mem_nil, false_implies, implies_true, and_true]
  exact ⟨rfl, rfl, rfl⟩

theorem engineRequestsAreHandedOver : EngineRequestsAreHandedOver := by
  intro s t a cls _ hroom d hdword hreads hsealed hcopy hearly p hp hlegal hmay
  rw [exec_cpx a cls s p hp, cpxWord, runWord_completes hmay]
  · simp only [past_getS, past_cid, past_launch]
    rfl
  · subst d
    simp [hroom, hdword, hreads, hsealed, hcopy, hearly, hlegal]

/-- Settles O32: the gate of each word lets it issue, and its effect on the team past it is the one stated. -/
theorem copyChecksAndRequestsComplete : Obligations.CopyChecksAndRequestsComplete :=
  ⟨copyCheckFoldsItsImage, engineRequestsAreHandedOver⟩

end Sys2Proof.Machine
end

section
/-! Frames of words (O58, O59): what the issue of a word of a column leaves of its team, and that it changes no other part of the module. -/

namespace Sys2Proof.Machine

/-! ## What a word leaves of its team -/

/-- The registers that words read and programs see, the level and the core of a team are those of another. -/
def Kept (t u : Team) : Prop := sameRegisters t u ∧ u.svc = t.svc ∧ u.cid = t.cid

theorem Kept.refl (t : Team) : Kept t t := by simp [Kept, sameRegisters]

@[simp] theorem kept_modCol {t u : Team} (c : Col) (f : Column → Column) : Kept t (u.modCol c f) ↔ Kept t u := by
  simp [Kept, sameRegisters]

@[simp] theorem kept_later {t u : Team} (c : Col) (p : Pend) : Kept t (u.later c p) ↔ Kept t u := by
  simp [Kept, sameRegisters]

@[simp] theorem kept_land {t u : Team} (cx : Cur) (n : Nat) (w : RegWrite) : Kept t (u.land cx n w) ↔ Kept t u := kept_later ..

@[simp] theorem kept_signalAt {t u : Team} (cx : Cur) (n : Nat) : Kept t (u.signalAt cx n) ↔ Kept t u := kept_later ..

@[simp] theorem kept_await {t u : Team} (cx : Cur) (l : List Nat) (i : Instr) : Kept t (u.await cx l i) ↔ Kept t u := Iff.rfl

@[simp] theorem kept_hold {t u : Team} (cx : Cur) : Kept t (u.hold cx) ↔ Kept t u := kept_modCol ..

@[simp] theorem kept_pendTrap {t u : Team} (c : Col) (pos : Nat) (k : Cause) (v aux : Word) (n : Nat) :
    Kept t (u.pendTrap c pos k v aux n) ↔ Kept t u := by simp [Kept, sameRegisters]

@[simp] theorem kept_unissue {t u : Team} (cx : Cur) : Kept t (u.unissue cx) ↔ Kept t u := kept_modCol ..

@[simp] theorem kept_jump {t u : Team} (cx : Cur) (p : Nat) (l : List LoopRec) (call : Bool) :
    Kept t (u.jump cx p l call) ↔ Kept t u := kept_modCol ..

@[simp] theorem kept_commit {t u : Team} (cx : Cur) (n : Nat) : Kept t (u.commit cx n) ↔ Kept t u := by
  simp [Kept, sameRegisters]

@[simp] theorem kept_setQ {t u : Team} (q : BitVec 2) (l : List QEntry) : Kept t (u.setQ q l) ↔ Kept t u := Iff.rfl

/-! ## Words of a parse -/

theorem forall_mem_bind {α β : Type} {o : Option α} {f : α → Option β} {P : β → Prop} (h : ∀ a, ∀ b ∈ f a, P b) : ∀ b ∈ o.bind f, P b := by
  intro b hb
  obtain ⟨a, -, ha⟩ := Option.bind_eq_some_iff.1 hb
  exact h a b ha

theorem forall_mem_some {β : Type} {x : β} {P : β → Prop} (h : P x) : ∀ b ∈ some x, P b := by
  rintro _ ⟨⟩
  exact h

/-! ## Words that change one team -/

/-- A state is another but for the context of a word and one team, which has a property. -/
def ChangesTeam (s : State) (R : Team → Prop) (s' : State) : Prop :=
  ∃ (cx : Cur) (u : Team), s' = ({ s with cur := cx } : State).setTeam u ∧ R u

/-- Whenever a step answers a next state, that has changed one team only. -/
def StepChangesTeam (s : State) (R : Team → Prop) (x : Host.Outcome State Fault Refusal) : Prop :=
  ∀ s', x = .next s' → ChangesTeam s R s'

theorem ChangesTeam.setTeam {s : State} {R : Team → Prop} {u : Team} (cx : Cur) (h : R u) :
    ChangesTeam s R (({ s with cur := cx } : State).setTeam u) := ⟨cx, u, rfl, h⟩

theorem StepChangesTeam.mono {s : State} {R R' : Team → Prop} {x : Host.Outcome State Fault Refusal} (h : StepChangesTeam s R x)
    (hR : ∀ u, R u → R' u) : StepChangesTeam s R' x := fun s' hx => by
  obtain ⟨cx, u, hs, hu⟩ := h s' hx
  exact ⟨cx, u, hs, hR u hu⟩

theorem StepChangesTeam.next {s s' : State} {R : Team → Prop} (h : ChangesTeam s R s') : StepChangesTeam s R (.next s') := by
  rintro _ ⟨rfl⟩
  exact h

/-- The other teams of a state are teams of the state with one replaced. -/
theorem mem_setTeam_other {s : State} {u x : Team} (h : x ∈ s.teams) (hne : x.cid ≠ u.cid) : x ∈ (s.setTeam u).teams :=
  List.mem_map.2 ⟨x, h, if_neg hne⟩

/-- WHAT A WORD THAT CHANGES ITS TEAM LEAVES ALONE: memory, the host, pseudo-channels, launches, Kensia and every other team. -/
theorem ChangesTeam.frame {s s' : State} {t : Team} {R : Team → Prop} (h : ChangesTeam s R s') (live : s.team s.cur.cid = some t)
    (hcid : ∀ u, R u → u.cid = t.cid) :
    s'.mem = s.mem ∧ s'.host = s.host ∧ s'.pcs = s.pcs ∧ s'.launches = s.launches ∧ s'.kensia = s.kensia ∧
      (∀ u ∈ s.teams, u.cid ≠ t.cid → u ∈ s'.teams) ∧ ∃ t', s'.team t.cid = some t' ∧ R t' := by
  obtain ⟨cx, u, rfl, hu⟩ := h
  have hc := hcid u hu
  have hteam : ({ s with cur := cx } : State).team u.cid = some t := by rw [hc, team_cid live]; exact live
  exact ⟨rfl, rfl, rfl, rfl, rfl, fun x hx hne => mem_setTeam_other (s := { s with cur := cx }) hx (hc ▸ hne), u, hc ▸ team_setTeam hteam, hu⟩

/-- A trap of a word that no handler runs pends: it leaves the registers as they are. -/
theorem raise_changesTeam {s : State} {t : Team} (cx : Cur) (x : Trap) (hsvc : t.inSvc cx.col = false) :
    ChangesTeam s (Kept t) (s.raise t cx x) := by
  have hun : (t.unissue cx).inSvc cx.col = false := hsvc
  unfold State.raise State.raiseAt
  cases cx.phase <;> simp only [hsvc, hun, Bool.false_eq_true, if_false] <;>
    exact ⟨s.cur, _, rfl, by simp [Kept.refl]⟩

/-- A word that makes no demand request stalls only for one made before. -/
theorem stalls_nil {s s' : State} {t : Team} {cx : Cur} (h : s.stalls t cx [] = some s') : s' = s.setTeam (t.hold cx) := by
  unfold State.stalls at h
  split at h
  · split at h <;> simp_all
  · simp at h

/-- THE ISSUE OF A WORD, outside a handler and without demand requests, changes one team only if its effects do: a trap and a stall
leave the registers as they are. -/
theorem runWordN_changesTeam {s : State} {t : Team} {R : Team → Prop} {gate : State → Team → Gate} {nul eff : State → Team → State}
    (live : s.team s.cur.cid = some t) (hsvc : t.inSvc s.cur.col = false) (hasks : (gate (s.atIssue t) (t.seen s.cur)).asks = [])
    (hR : ∀ u, Kept t u → R u) (hnul : ∀ u, Kept t u → ChangesTeam s R (nul (s.atIssue t) u))
    (heff : ∀ u, Kept t u → ChangesTeam s R (eff (s.atIssue t) u)) : StepChangesTeam s R (runWordN s gate nul eff) := by
  have hcommit : ∀ n, Kept t (t.commit (s.curAt t) n) := fun n => by simp [Kept.refl]
  have hhold : ChangesTeam s R ((s.atIssue t).setTeam (t.hold (s.curAt t))) :=
    .setTeam (s.curAt t) (hR _ (by simp [Kept.refl]))
  unfold runWordN
  simp only [live]
  split
  · obtain ⟨cx, u, hs, hu⟩ := raise_changesTeam (s := s.atIssue t) (t := t) (s.curAt t) ‹_› hsvc
    exact .next ⟨cx, u, hs, hR u hu⟩
  · exact .next hhold
  · split
    · exact .next (hnul _ (hcommit 1))
    · split
      next hst =>
        rw [hasks] at hst
        exact .next (stalls_nil hst ▸ hhold)
      next => exact .next (heff _ (hcommit _))

/-- The issue of a word that has only its SIGNAL when it is nullified. -/
theorem runWord_changesTeam {s : State} {t : Team} {R : Team → Prop} {gate : State → Team → Gate} {eff : State → Team → State}
    (live : s.team s.cur.cid = some t) (hsvc : t.inSvc s.cur.col = false) (hasks : (gate (s.atIssue t) (t.seen s.cur)).asks = [])
    (hR : ∀ u, Kept t u → R u) (heff : ∀ u, Kept t u → ∃ v, eff (s.atIssue t) u = (s.atIssue t).setTeam v ∧ R v) :
    StepChangesTeam s R (runWord s gate eff) :=
  runWordN_changesTeam live hsvc hasks hR (fun u h => .setTeam (s.curAt t) (hR _ (by simpa using h))) fun u h => by
    obtain ⟨v, hv, hk⟩ := heff u h
    exact hv ▸ .setTeam (s.curAt t) hk

/-- The issue of a word whose effect keeps the registers. -/
theorem runWord_keeps {s : State} {t : Team} {gate : State → Team → Gate} {eff : State → Team → State}
    (live : s.team s.cur.cid = some t) (hsvc : t.inSvc s.cur.col = false) (hasks : (gate (s.atIssue t) (t.seen s.cur)).asks = [])
    (heff : ∀ u, Kept t u → ∃ v, eff (s.atIssue t) u = (s.atIssue t).setTeam v ∧ Kept t v) :
    StepChangesTeam s (Kept t) (runWord s gate eff) := runWord_changesTeam live hsvc hasks (fun _ h => h) heff

/-! ## The words of ctl that compute, test or move the head (O58) -/

section Ctl

variable {s : State} {t : Team} (live : s.team s.cur.cid = some t) (hsvc : t.inSvc s.cur.col = false)
include live hsvc

theorem caWord_keeps (d a b : SReg) (lat occ : Nat) (f : Word → Word → Word) : StepChangesTeam s (Kept t) (caWord s d a b lat occ f) :=
  runWord_keeps live hsvc rfl fun _ h => ⟨_, rfl, by simpa using h⟩

theorem caUnary_keeps (d a : SReg) (f : Word → Word) : StepChangesTeam s (Kept t) (caUnary s d a f) :=
  runWord_keeps live hsvc rfl fun _ h => ⟨_, rfl, by simpa using h⟩

theorem ciWord_keeps (d a : SReg) (i : BitVec 28) (lat : Nat) (f : Word → Word → Word) :
    StepChangesTeam s (Kept t) (ciWord s d a i lat f) :=
  runWord_keeps live hsvc rfl fun _ h => ⟨_, rfl, by simpa using h⟩

theorem arithmeticWord_keeps (d a b : SReg) : ∀ p ∈ arithmeticWords, StepChangesTeam s (Kept t) (exec (p.1 d a b) s) := by
  simp only [arithmeticWords, List.forall_mem_cons, List.not_mem_nil, false_implies, implies_true, and_true]
  refine ⟨?_, ?_, ?_, ?_, ?_, ?_, ?_, ?_, ?_, ?_, ?_, ?_, ?_, ?_, ?_, ?_, ?_, ?_, ?_, ?_, ?_, ?_, ?_⟩ <;>
    · dsimp only [exec]
      exact caWord_keeps live hsvc d a b _ _ _

theorem unaryWord_keeps (d a : SReg) : ∀ p ∈ unaryWords, StepChangesTeam s (Kept t) (exec (p.1 d a) s) := by
  simp only [unaryWords, List.forall_mem_cons, List.not_mem_nil, false_implies, implies_true, and_true]
  refine ⟨?_, ?_, ?_, ?_⟩ <;>
    · dsimp only [exec]
      exact caUnary_keeps live hsvc d a _

theorem immediateWord_keeps (d a : SReg) (i : BitVec 28) : ∀ p ∈ immediateWords, StepChangesTeam s (Kept t) (exec (p.1 d a i) s) := by
  simp only [immediateWords, List.forall_mem_cons, List.not_mem_nil, false_implies, implies_true, and_true]
  refine ⟨?_, ?_, ?_, ?_, ?_, ?_, ?_, ?_, ?_, ?_, ?_⟩ <;>
    · dsimp only [exec]
      exact ciWord_keeps live hsvc d a i _ _

theorem sel_keeps (d a b : SReg) : StepChangesTeam s (Kept t) (execSel d a b s) :=
  runWord_keeps live hsvc rfl fun _ h => ⟨_, rfl, by simpa using h⟩

theorem b_keeps (k : Cond) (a b : SReg) (off : BitVec 22) : StepChangesTeam s (Kept t) (execB k a b off s) :=
  runWord_keeps live hsvc rfl fun _ h => by
    split
    · exact ⟨_, rfl, by simpa using h⟩
    · exact ⟨_, rfl, by simpa using h⟩

theorem jmp_keeps (off : BitVec 40) : StepChangesTeam s (Kept t) (execJmp off s) :=
  runWord_keeps live hsvc rfl fun _ h => ⟨_, rfl, by simpa using h⟩

theorem jr_keeps (a : SReg) : StepChangesTeam s (Kept t) (execJr a s) :=
  runWord_keeps live hsvc rfl fun _ h => ⟨_, rfl, by simpa using h⟩

theorem tchk_keeps (a : SReg) : StepChangesTeam s (Kept t) (execTchk a s) :=
  runWord_keeps live hsvc rfl fun _ h => ⟨_, rfl, by simpa using h⟩

theorem csrr_keeps (d : SReg) (n : BitVec 12) : StepChangesTeam s (Kept t) (execCsrr d n s) :=
  runWord_keeps live hsvc rfl fun _ h => ⟨_, rfl, by simpa [readCsrInto] using h⟩

theorem csrWord_keeps (op : CsrOp) (d : SReg) (n : BitVec 12) (a : SReg) : StepChangesTeam s (Kept t) (csrWord s op d n a) :=
  runWord_keeps live hsvc rfl fun _ h => by
    refine ⟨_, rfl, ?_⟩
    split <;> simpa [readCsrInto] using h

theorem cntrd_keeps (d : SReg) (src : CntSrc) : StepChangesTeam s (Kept t) (execCntrd d src s) :=
  runWord_keeps live hsvc rfl fun _ h => ⟨_, rfl, by simpa using h⟩

theorem nop_keeps (hcol : s.cur.col ≠ .chn) : StepChangesTeam s (Kept t) (execNop s) := by
  rw [execNop, if_neg hcol]
  exact runWord_keeps live hsvc rfl fun _ h => ⟨_, rfl, by simpa using h⟩

theorem elas_keeps : StepChangesTeam s (Kept t) (execElas s) :=
  runWord_keeps live hsvc rfl fun _ h => ⟨_, rfl, by simpa using h⟩

theorem hoop_keeps (hcol : s.cur.col ≠ .chn) (x : SReg) (u : BitVec 34) : StepChangesTeam s (Kept t) (execHoop x u s) := by
  rw [execHoop, if_neg hcol]
  exact runWord_keeps live hsvc rfl fun _ h => ⟨_, rfl, by simpa using h⟩

theorem rdv_keeps (hcol : s.cur.col ≠ .chn) : StepChangesTeam s (Kept t) (execRdv s) := by
  rw [execRdv, if_neg hcol]
  split
  · rw [onTeam_live live]
    exact .next (.setTeam s.cur (by simp [Kept.refl]))
  · exact runWord_keeps live hsvc rfl fun _ h => ⟨_, rfl, by simpa using h⟩

theorem loopWord_keeps (hcol : s.cur.col ≠ .chn) (fixed : Bool) (src : LoopSrc) (bound len : BitVec 12) :
    StepChangesTeam s (Kept t) (loopWord s fixed src bound len) := by
  unfold loopWord
  rw [if_neg hcol]
  exact runWordN_changesTeam live hsvc rfl (fun _ h => h) (fun _ h => .setTeam (s.curAt t) (by simpa using h))
    fun _ h => .setTeam (s.curAt t) (by simpa using h)

/-- R173: the words of the common group keep the registers, in every column of a team. -/
theorem parseAny_keeps (hcol : s.cur.col ≠ .chn) (opc w : Nat) : ∀ i ∈ parseAny opc w, StepChangesTeam s (Kept t) (exec i s) := by
  unfold parseAny
  split
  · exact forall_mem_bind fun src => forall_mem_some (loopWord_keeps live hsvc hcol true src _ _)
  · exact forall_mem_bind fun src => forall_mem_some (loopWord_keeps live hsvc hcol false src _ _)
  · exact forall_mem_some (rdv_keeps live hsvc hcol)
  · exact forall_mem_some (elas_keeps live hsvc)
  · exact forall_mem_some (hoop_keeps live hsvc hcol _ _)
  · exact forall_mem_some (nop_keeps live hsvc hcol)
  · exact fun _ h => absurd h (Option.not_mem_none _)

end Ctl

/-- Settles O58: each of the words answers a state with its own team changed, and a trap, a stall and a landing on its way are no
register of that team. -/
theorem registerWordsChangeNothingAtIssue : Obligations.RegisterWordsChangeNothingAtIssue := by
  intro s s' t d a b x i28 n off off40 k live hcol hhandler i hi hexec
  have hsvc : t.inSvc s.cur.col = false := by simp [Team.inSvc, hhandler]
  have hkeeps : StepChangesTeam s (Kept t) (exec i s) := by
    rcases hi with ⟨p, hp, rfl⟩ | ⟨p, hp, rfl⟩ | ⟨p, hp, rfl⟩ | hi
    · exact arithmeticWord_keeps live hsvc d a b p hp
    · exact unaryWord_keeps live hsvc d a p hp
    · exact immediateWord_keeps live hsvc d a i28 p hp
    · simp only [List.mem_cons, List.not_mem_nil, or_false] at hi
      rcases hi with rfl | rfl | rfl | rfl | rfl | rfl | rfl | rfl | rfl | rfl | rfl
      · exact sel_keeps live hsvc d a b
      · exact b_keeps live hsvc k a x off
      · exact jmp_keeps live hsvc off40
      · exact jr_keeps live hsvc a
      · exact tchk_keeps live hsvc a
      · exact csrr_keeps live hsvc d n
      · exact csrWord_keeps live hsvc .write d n a
      · exact csrWord_keeps live hsvc .set d n a
      · exact csrWord_keeps live hsvc .clear d n a
      · exact cntrd_keeps live hsvc d .job
      · exact nop_keeps live hsvc (by simp [hcol])
  obtain ⟨hmem, hhost, hpcs, hlaunches, hkensia, hothers, t', ht', hregs, -, -⟩ :=
    (hkeeps s' hexec).frame live fun _ h => h.2.2
  exact ⟨hmem, hhost, hpcs, hlaunches, hkensia, hothers, t', ht', hregs⟩

/-! ## The words of vec (O59) -/

/-- What a word of vec leaves of its team: as `Kept`, but for the w queues. -/
def KeptButW (t u : Team) : Prop := Kept { t with w := u.w } u

theorem Kept.butW {t u : Team} (h : Kept t u) : KeptButW t u := by
  obtain ⟨⟨-, -, -, -, -, -, hw, -⟩, -⟩ := id h
  rw [KeptButW, hw]
  exact h

@[simp] theorem keptButW_later {t u : Team} (c : Col) (p : Pend) : KeptButW t (u.later c p) ↔ KeptButW t u := by
  simp [KeptButW]

@[simp] theorem keptButW_land {t u : Team} (cx : Cur) (n : Nat) (w : RegWrite) : KeptButW t (u.land cx n w) ↔ KeptButW t u :=
  keptButW_later ..

@[simp] theorem keptButW_signalAt {t u : Team} (cx : Cur) (n : Nat) : KeptButW t (u.signalAt cx n) ↔ KeptButW t u := keptButW_later ..

@[simp] theorem keptButW_setW {t u : Team} (q : BitVec 2) (l : List QEntry) : KeptButW t (u.setW q l) ↔ KeptButW t u := by
  simp [KeptButW, Kept, sameRegisters, Team.setW]

@[simp] theorem keptButW_popQs {t u : Team} (l : List (BitVec 2)) : KeptButW t (u.popQs l) ↔ KeptButW t u := by
  induction l generalizing u with
  | nil => rfl
  | cons q l ih => exact ih

@[simp] theorem keptButW_reserveW {t u : Team} (id : Nat) (d : SliceDst) : KeptButW t (u.reserveW id d) ↔ KeptButW t u := by
  unfold Team.reserveW
  split <;> simp

@[simp] theorem keptButW_sendSlices {t u : Team} (cx : Cur) (lat occ : Nat) (f : Nat → Slice) (n : Nat) :
    KeptButW t (u.sendSlices cx lat occ f n) ↔ KeptButW t u := by
  induction n with
  | zero => rfl
  | succ n ih => simpa [Team.sendSlices] using ih

/-- A word of vec with a result, or one that writes another register of vec: the two ways in which the words of the column run. -/
inductive RunsInVec (s : State) : Host.Outcome State Fault Refusal → Prop where
  | out (x : VSpec) (d : SliceDst) (rows : Team → Nat) (lm : Team → LatMode) (out : Team → VOut) :
      RunsInVec s (vecOut s x d rows lm out)
  | write (x : VSpec) (w : Team → RegWrite) : RunsInVec s (vecWrite s x w)

/-- Every word of vec's own opcodes runs in one of the two ways: vmset, vshape, vbnld and vtabld write another register, and each
other word has a result. -/
theorem parseVec_runsInVec (s : State) (opc w : Nat) : ∀ i ∈ parseVec opc w, RunsInVec s (exec i s) := by
  unfold parseVec
  split
  case h_67 => exact fun _ h => absurd h (Option.not_mem_none _)
  all_goals
    repeat refine forall_mem_bind fun _ => ?_
    refine forall_mem_some ?_
    dsimp only [exec]
  case h_42 | h_51 | h_55 | h_61 => exact .write ..
  all_goals exact .out ..

/-- The instruction of a word that decodes is the one that its opcode and body name. -/
theorem parse_of_decode {c : Col} {w : Nat} {k : Code} (h : decode c w = .ok k) : k.instr ∈ parse c (fld w 40 8) (fld w 0 40) := by
  unfold decode at h
  split at h
  · cases h
  · split at h
    · cases h
    · split at h
      · cases h
      next i hi =>
        dsimp only at h
        split at h
        · cases h
        · split at h
          · cases h
          · cases h
            exact hi

theorem runsInVec_keeps {s : State} {t : Team} (live : s.team s.cur.cid = some t) (hcol : s.cur.col = .vec)
    {x : Host.Outcome State Fault Refusal} (h : RunsInVec s x) : StepChangesTeam s (KeptButW t) x := by
  have hsvc : t.inSvc s.cur.col = false := by simp [Team.inSvc, hcol]
  cases h with
  | out x d rows lm out =>
    unfold vecOut
    exact runWord_changesTeam live hsvc rfl (fun _ h => h.butW) fun _ h => ⟨_, rfl, by simpa using h.butW⟩
  | write x w =>
    unfold vecWrite
    exact runWord_changesTeam live hsvc rfl (fun _ h => h.butW) fun _ h => ⟨_, rfl, by simpa using h.butW⟩

/-- Settles O59: a word that decodes in vec is of the common group or runs in one of the two ways of vec. -/
theorem vecWordsTouchNoMemory : Obligations.VecWordsTouchNoMemory := by
  intro s s' t w k live hcol hdecode hexec
  have hkeeps : StepChangesTeam s (KeptButW t) (exec k.instr s) := by
    have hparse := parse_of_decode hdecode
    unfold parse at hparse
    split at hparse
    · exact (parseAny_keeps live (by simp [Team.inSvc, hcol]) (by simp [hcol]) _ _ _ hparse).mono fun _ h => h.butW
    · exact runsInVec_keeps live hcol (parseVec_runsInVec s _ _ _ hparse)
  obtain ⟨hmem, hhost, hpcs, hlaunches, -, hothers, t', ht', hregs, hsvc, -⟩ := (hkeeps s' hexec).frame live fun _ h => h.2.2
  obtain ⟨hs, ha, -, -, -, -, -, -, -, -, -, -, -, -, -, -, -, -, -, -, -, -, hcause, hval, hepc, hstat, -, -, -, hspad, hacc⟩ := hregs
  exact ⟨hmem, hhost, hpcs, hlaunches, hothers, t', ht', hspad, hacc, hs, ha, hsvc, hcause, hval, hepc, hstat⟩

end Sys2Proof.Machine
end

section
/-! Control registers (O6): what CSRR, CSRW, CSRS, CSRC and POPX leave to land, and what a landed write leaves of its value. -/

namespace Sys2Proof.Machine

/-! ## The words (R81, R142, R148) -/

@[simp] theorem past_beatOf (s : State) (t : Team) (n : Nat) : s.beatOf (s.past t n) = s.beatOf t := by simp [State.beatOf]

@[simp] theorem land_csrTainted (t : Team) (cx : Cur) (due n : Nat) (w : RegWrite) : (t.land cx due w).csrTainted n = t.csrTainted n := by
  simp [Team.csrTainted, Team.col]

@[simp] theorem land_clock (t : Team) (cx : Cur) (n : Nat) (w : RegWrite) (c : Col) : (t.land cx n w).clock c = t.clock c := by
  simp [Team.clock, Team.inSvc]

@[simp] theorem atIssue_csr (s : State) (t u : Team) (n : Nat) : (s.atIssue t).csr u n = s.csr u n := rfl

/-- A level that may read a register takes no privilege trap (R81). -/
theorem csrPriv_readable {t : Team} {n : Nat} (h : csrAccess n = .sro → t.svc = true) : csrPriv t n = false := by
  simpa [csrPriv] using h

theorem csrr_completes {s : State} {t : Team} (d : SReg) (n : BitVec 12) (hread : csrAccess n.toNat = .sro → t.svc = true) :
    Completes s t { regs := [.s d, .csr n.toNat] } (.csrr d n) fun s' t' =>
      s'.setTeam ((t'.land s'.cur (t.clock .ctl + 2) (.s d (s'.csr t' n.toNat) (t'.csrTainted n.toNat))).signalAt s'.cur
        (t.clock .ctl + 2)) := by
  intro hmay
  dsimp only [exec]
  rw [execCsrr, runWord_completes hmay]
  · simp [readCsrInto]
  · simp [csrPriv_readable (t := t.seen s.cur) (by simpa using hread)]

/-- CSRW, CSRS and CSRC, each with its operation on the register. -/
theorem csrWord_completes {s : State} {t : Team} (op : CsrOp) (d : SReg) (n : BitVec 12) (a : SReg) (i : Instr)
    (hi : exec i s = csrWord s op d n a) (hread : csrAccess n.toNat = .sro → t.svc = true)
    (hlink : csrWritable t.svc n.toNat = true →
      linkTrap (s.atIssue t) (t.seen s.cur) n.toNat (csrNew op (s.csr (t.seen s.cur) n.toNat) (t.getS a).v) = none) :
    Completes s t { regs := [.s a, .s d, .csr n.toNat] } i fun s' t' =>
      let u := if csrWritable t.svc n.toNat && (op = .write || (t.getS a).v != 0) then
          t'.land s'.cur (t.clock .ctl + 1) (.csr op n.toNat (t.getS a).v (t.getS a).t)
        else t'
      s'.setTeam ((u.land s'.cur (t.clock .ctl + 2) (.s d (s'.csr u n.toNat) (t'.csrTainted n.toNat))).signalAt s'.cur
        (t.clock .ctl + 2)) := by
  intro hmay
  rw [hi, csrWord, runWord_completes hmay]
  · simp only [past_getS, past_svc, past_clock, readCsrInto]
    split <;> simp
  · simpa [csrPriv_readable (t := t.seen s.cur) (by simpa using hread)] using hlink

theorem popx_completes {s : State} {t : Team} (d : SReg) (r : ExcReg) :
    Completes s t { regs := [.s d, .csr (excCsr r)] } (.popx d r) fun s' t' =>
      let u := (t'.land s'.cur (t.clock .ctl + 2) (.s d (s'.csr t' (excCsr r)) (t'.csrTainted (excCsr r)))).writeCsr (s.beatOf t) (excCsr r) 0
      s'.setTeam (({ u with csrTaint := setUnit u.csrTaint (excCsr r) false } : Team).signalAt s'.cur (t.clock .ctl + 2)) := by
  intro hmay
  dsimp only [exec]
  rw [execPopx, runWord_completes hmay rfl]
  simp [readCsrInto]

theorem csrWordsReadAndWrite : CsrWordsReadAndWrite := by
  intro s t _
  refine ⟨fun d n hread => ⟨csrr_completes d n hread, ?_⟩, ?_⟩
  · simp only [List.forall_mem_cons, List.not_mem_nil, false_implies, implies_true, and_true]
    exact ⟨fun a => csrWord_completes .write d n a _ rfl hread, fun a => csrWord_completes .set d n a _ rfl hread,
      fun a => csrWord_completes .clear d n a _ rfl hread⟩
  · simp only [List.forall_mem_cons, List.not_mem_nil, false_implies, implies_true, and_true]
    exact ⟨fun d => popx_completes d .vexc, fun d => popx_completes d .mexc, fun d => popx_completes d .cexc⟩

/-! ## A write that lands (R43, R63, R82) -/

/-- An interrupt that becomes takeable requests a freeze, and nothing else changes. -/
theorem requestInt_eq (t : Team) : ∃ f, t.requestInt = { t with freezeReq := f } := by
  unfold Team.requestInt
  split
  · exact ⟨_, rfl⟩
  · exact ⟨t.freezeReq, rfl⟩

/-- What a landed CSRW leaves of its team: the register written, its taint, and a freeze where an interrupt becomes takeable. -/
theorem landCsr_write (t : Team) (beat old : Word) (n : Nat) (v : Word) (k : Bool) :
    ∃ tn f, t.landCsr beat old .write n v k = { t.writeCsr beat n v with csrTaint := tn, freezeReq := f } :=
  (requestInt_eq _).elim fun f hf => ⟨_, f, hf⟩

theorem exec_csrWriteLands {s : State} {t : Team} (live : s.team s.cur.cid = some t) (n : Nat) (v : Word) (k : Bool) :
    exec (.registerWriteLands (.csr .write n v k)) s = .next (s.setTeam (t.landCsr (s.beatOf t) (s.csr t n) .write n v k)) :=
  onTeam_live live _

/-- The low half of a value, as a register of 32 bits holds it. -/
theorem setWidth_low (v : Word) : (v.setWidth 32).setWidth 64 = v &&& 0xFFFFFFFF := by
  apply BitVec.eq_of_toNat_eq
  have hlt : v.toNat % 4294967296 < 18446744073709551616 := (Nat.mod_le ..).trans_lt v.isLt
  simp [Nat.and_two_pow_sub_one_eq_mod v.toNat 32, hlt]

/-- What a write leaves of a value in a register (R82). -/
theorem csr_writeCsr (s : State) (t : Team) (beat v : Word) :
    ∀ p ∈ [(0x11, (1 : Word)), (0x13, 31), (0x14, 31), (0x15, 31), (0x20, BitVec.allOnes 64), (0x21, BitVec.allOnes 64),
      (0x22, BitVec.allOnes 64), (0x30, 0xFFFFFFFF), (0x50, 1), (0x800, BitVec.allOnes 64), (0x804, 3), (0x805, 7),
      (0x807, BitVec.allOnes 64), (0x810, BitVec.allOnes 64)], s.csr (t.writeCsr beat p.1 v) p.1 = v &&& p.2 := by
  simp [State.csr, Team.writeCsr, setWidth_low, -BitVec.reduceAllOnes]

/-- The s registers, VRM, the registers of a trap, the level and the scratchpad of a team are those of another. -/
def SameButCsr (t u : Team) : Prop :=
  u.s = t.s ∧ u.vrm = t.vrm ∧ u.tcause = t.tcause ∧ u.tval = t.tval ∧ u.tepc = t.tepc ∧ u.svc = t.svc ∧ u.spad = t.spad

/-- A write to a register other than VRM changes that register alone. -/
theorem writeCsr_frame (t : Team) (beat : Word) (n : Nat) (v : Word) (hn : n ≠ 0x10) : SameButCsr t (t.writeCsr beat n v) := by
  have hrefl : SameButCsr t t := ⟨rfl, rfl, rfl, rfl, rfl, rfl, rfl⟩
  unfold Team.writeCsr
  rw [if_neg hn]
  repeat refine iteInduction (fun _ => hrefl) fun _ => ?_
  exact hrefl

theorem csrWriteKeepsFields : CsrWriteKeepsFields := by
  intro s t v k live
  constructor
  · intro p hp
    obtain ⟨tn, f, hland⟩ := landCsr_write t (s.beatOf t) (s.csr t p.1) p.1 v k
    have hn : p.1 ≠ 0x10 := by rintro h; simp [Prod.ext_iff, h] at hp
    obtain ⟨hs, hvrm, hcause, hval, hepc, hsvc, hspad⟩ := writeCsr_frame t (s.beatOf t) p.1 v hn
    refine ⟨_, exec_csrWriteLands live p.1 v k, ?_⟩
    rw [hland]
    refine ⟨csr_writeCsr s t (s.beatOf t) v p hp, fun r => ?_, hvrm, hcause, hval, hepc, hsvc, hspad⟩
    simp only [Team.getS, hs]
  · obtain ⟨tn, f, hland⟩ := landCsr_write t (s.beatOf t) (s.csr t 0x10) 0x10 v k
    refine ⟨_, exec_csrWriteLands live 0x10 v k, ?_⟩
    rw [hland]
    simp only [Team.writeCsr, if_true]
    split <;> rfl

/-- Settles O6: the words leave their writes to land, and a landed write leaves the fields of its register. -/
theorem controlRegisterWordsComplete : Obligations.ControlRegisterWordsComplete := ⟨csrWordsReadAndWrite, csrWriteKeepsFields⟩

end Sys2Proof.Machine
end

section
/-! Slices (O20): the slices that a word of vec leaves on their way, what a slice that lands writes, and the bits, taint and exceptions
of an elementwise result. -/

namespace Sys2Proof.Machine

/-! ## Slices on their way (R78, R80) -/

/-- An effect of vec is due on the team's own clock, in a handler too. -/
theorem later_vec (t : Team) (p : Pend) : t.later .vec p = { t with pend := insertPend p t.pend } := by
  simp [Team.later, Team.inSvc]

theorem mem_insertPend {p x : Pend} {l : List Pend} : x ∈ insertPend p l ↔ x = p ∨ x ∈ l := by
  induction l with
  | nil => simp [insertPend]
  | cons y l ih =>
    unfold insertPend
    split
    · simp
    · simp only [List.mem_cons, ih]
      tauto

/-- The slices of a result go among the effects on their way, and change nothing else. -/
theorem sendSlices_eq (t : Team) (cx : Cur) (lat occ : Nat) (f : Nat → Slice) (n : Nat) :
    ∃ l, t.sendSlices cx lat occ f n = { t with pend := l } ∧
      ∀ p, p ∈ l ↔ p ∈ t.pend ∨ ∃ k < n, p = ⟨t.clk + lat + k * occ, rankLand, cx, .sliceLands (f k)⟩ := by
  induction n with
  | zero => exact ⟨t.pend, rfl, by simp⟩
  | succ n ih =>
    obtain ⟨l, hl, hmem⟩ := ih
    refine ⟨insertPend ⟨t.clk + lat + n * occ, rankLand, cx, .sliceLands (f n)⟩ l, ?_, fun p => ?_⟩
    · rw [Team.sendSlices, hl, later_vec]
    · rw [mem_insertPend, hmem, Nat.exists_lt_succ_right, or_comm, or_assoc]

/-- The slice that a word sends as its k-th of n. -/
theorem slicesOf_eq {rows sr k : Nat} (dst : SliceDst) (o : VOut) (lm : LatMode) (hk : k < (rows + sr - 1) / sr) :
    slicesOf dst o lm rows sr k =
      { dst := dst, row0 := k * sr, rows := min sr (rows - k * sr), data := BitVec.ofNat 16384 o.data, en := BitVec.ofNat 16384 o.en,
        taint := BitVec.ofNat 512 o.taint, lat := lm, exc := if k + 1 = (rows + sr - 1) / sr then o.exc else 0,
        last := k + 1 = (rows + sr - 1) / sr } := by
  have hlast : (sliceCount rows sr ≤ k + 1) = (k + 1 = (rows + sr - 1) / sr) := by
    rw [sliceCount]
    exact propext ⟨fun h => by omega, fun h => h.ge⟩
  simp only [slicesOf, hlast]

/-! ### The queues that a word pops (R68) -/

/-- A queue operand adds its queue to those that the operands after it pop. -/
theorem mem_popsOf_q {q r : BitVec 2} {l : List VSrc} : q ∈ popsOf (.q r :: l) ↔ q = r ∨ q ∈ popsOf l := by
  rw [popsOf]
  split
  next h => exact (or_iff_right_of_imp (by rintro rfl; simpa using h)).symm
  next => exact List.mem_cons

theorem mem_popsOf {q : BitVec 2} {l : List VSrc} : q ∈ popsOf l ↔ .q q ∈ l := by
  induction l with
  | nil => simp [popsOf]
  | cons x l ih =>
    cases x with
    | q r => rw [mem_popsOf_q, ih, List.mem_cons, VSrc.q.injEq]
    | v r | o r | lat | s r | imm k => simpa [popsOf] using ih

theorem nodup_popsOf (l : List VSrc) : (popsOf l).Nodup := by
  induction l with
  | nil => exact .nil
  | cons x l ih =>
    cases x with
    | q r =>
      rw [popsOf]
      split
      next => exact ih
      next h => exact List.nodup_cons.2 ⟨by simpa using h, ih⟩
    | v r | o r | lat | s r | imm k => exact ih

/-- A register of a file after a write to one. -/
theorem get_set_file {α : Type} {w : Nat} (v : Vector α (2 ^ w)) (r q : BitVec w) (x : α) :
    (v.set r.toNat x r.isLt).get q.toFin = if q = r then x else v.get q.toFin := by
  have hiff : r.toNat = q.toNat ↔ q = r := by rw [eq_comm, BitVec.toNat_inj]
  exact (Vector.getElem_set r.isLt q.isLt).trans (if_congr hiff rfl rfl)

theorem setQ_qAt (t : Team) (q r : BitVec 2) (l : List QEntry) : (t.setQ q l).qAt r = if r = q then l else t.qAt r :=
  get_set_file (w := 2) t.q q r l

theorem setW_wAt (t : Team) (q r : BitVec 2) (l : List QEntry) : (t.setW q l).wAt r = if r = q then l else t.wAt r :=
  get_set_file (w := 2) t.w q r l

/-- Each queue of a list is popped once, and nothing else changes. -/
theorem popQs_eq (t : Team) {l : List (BitVec 2)} (hl : l.Nodup) :
    ∃ q', t.popQs l = { t with q := q' } ∧ ∀ r, (t.popQs l).qAt r = if r ∈ l then (t.qAt r).tail else t.qAt r := by
  induction l generalizing t with
  | nil => exact ⟨t.q, rfl, by simp [Team.popQs]⟩
  | cons q l ih =>
    obtain ⟨hq, hl⟩ := List.nodup_cons.1 hl
    obtain ⟨q', hpop, hqs⟩ := ih (t.setQ q (t.qAt q).tail) hl
    refine ⟨q', hpop, fun r => (hqs r).trans ?_⟩
    rw [setQ_qAt]
    by_cases hr : r = q
    · simp [hr, hq]
    · simp [hr]

/-- A destination in a w queue reserves its entry, and nothing else changes. -/
theorem reserveW_eq (t : Team) (id : Nat) (d : SliceDst) :
    ∃ w', t.reserveW id d = { t with w := w' } ∧ ∀ q, d = .reg (.w q) 0 → (t.reserveW id d).wAt q = t.wAt q ++ [⟨id, false, ⟨0, 0⟩⟩] := by
  unfold Team.reserveW
  split
  next q e =>
    refine ⟨_, rfl, ?_⟩
    rintro r ⟨⟩
    simp [setW_wAt]
  next h => exact ⟨t.w, rfl, fun q hd => (h q 0 hd).elim⟩

/-! ### The result of a word (R78, R80) -/

/-- The slices of an operation's result as the effects on their way that they are. -/
theorem exists_slice_iff {t : Team} {x : VSpec} {cx : Cur} {d : SliceDst} {o : VOut} {lm : LatMode} {p : Pend} :
    let n := (t.rows + x.sr - 1) / x.sr
    (∃ k < n, p = ⟨t.clk + x.lat + k * x.occ, rankLand, cx, .sliceLands (slicesOf d o lm t.rows x.sr k)⟩) ↔
      ∃ k < n, p.due = t.clk + x.lat + k * x.occ ∧ p.rank = rankLand ∧ p.cx = cx ∧ p.act = .sliceLands
        { dst := d, row0 := k * x.sr, rows := min x.sr (t.rows - k * x.sr), data := BitVec.ofNat 16384 o.data,
          en := BitVec.ofNat 16384 o.en, taint := BitVec.ofNat 512 o.taint, lat := lm,
          exc := if k + 1 = n then o.exc else 0, last := k + 1 = n } := by
  intro n
  refine exists_congr fun k => and_congr_right fun hk => ?_
  rw [slicesOf_eq d o lm hk, Pend.mk.injEq]

theorem vecResultSlices : VecResultSlices := by
  intro s t x d lm out hcol _ _ n
  obtain ⟨q', hpop, hqs⟩ := popQs_eq t (nodup_popsOf x.ins)
  obtain ⟨w', hres, hws⟩ := reserveW_eq (t.popQs (popsOf x.ins)) s.cur.id d
  obtain ⟨l, hsend, hl⟩ := sendSlices_eq ((t.popQs (popsOf x.ins)).reserveW s.cur.id d) s.cur x.lat x.occ
    (slicesOf (dstOf s.cur.id d) (out t) (lm t) t.rows x.sr) n
  have hteam : (((t.popQs (popsOf x.ins)).reserveW s.cur.id d).sendSlices s.cur x.lat x.occ
      (slicesOf (dstOf s.cur.id d) (out t) (lm t) t.rows x.sr) n).signalAt s.cur (t.clk + x.lat + (n - 1) * x.occ) =
      { t with
        q := q', w := w'
        pend := insertPend ⟨t.clk + x.lat + (n - 1) * x.occ, rankSignal s.cur.signal, s.cur, .signalFire (.code s.cur.signal)⟩ l } := by
    rw [Team.signalAt, hcol, later_vec, hsend, hres, hpop]
  rw [hres] at hws hl
  rw [hpop] at hqs hws hl
  refine ⟨_, congrArg s.setTeam hteam, fun p => ?_, fun q => ?_, fun q hd => hws q hd, rfl, rfl, rfl, rfl, rfl, rfl, rfl, rfl⟩
  · exact (mem_insertPend.trans (or_congr_right ((hl p).trans (or_congr_right exists_slice_iff)))).trans (or_comm.trans or_assoc)
  · exact (hqs q).trans (if_congr mem_popsOf rfl rfl)

/-! ## The landing of a slice (R46, R177, R180) -/

theorem getLsbD_blend {n : Nat} (old new en : BitVec n) (b : Nat) :
    (blend old new en).getLsbD b = if en.getLsbD b then new.getLsbD b else old.getLsbD b := by
  by_cases hb : b < n
  · simp only [blend, BitVec.getLsbD_or, BitVec.getLsbD_and, BitVec.getLsbD_not, hb, decide_true, Bool.true_and]
    cases en.getLsbD b <;> simp
  · simp only [BitVec.getLsbD_of_ge _ _ (Nat.le_of_not_lt hb), ite_self]

/-- The bits of some rows are those between the first bit of the first and the last bit of the last. -/
theorem testBit_rowsMask (w row0 rows b : Nat) :
    (rowsMask w row0 rows).testBit b = decide (w * row0 ≤ b ∧ b < w * (row0 + rows)) := by
  rw [rowsMask, Nat.testBit_mul_two_pow, Nat.testBit_two_pow_sub_one, ← Bool.decide_and, Nat.mul_add]
  exact decide_eq_decide.2 ⟨fun h => by omega, fun h => by omega⟩

/-- What a slice writes of a register: in its rows the bits that it enables. -/
theorem getLsbD_writeSlice (v : VVal) (x : Slice) {b : Nat} (hb : b < 16384) :
    (writeSlice v x).bits.getLsbD b =
      if (1024 * x.row0 ≤ b ∧ b < 1024 * (x.row0 + x.rows)) ∧ x.en.getLsbD b then x.data.getLsbD b else v.bits.getLsbD b := by
  simp only [writeSlice, getLsbD_blend, BitVec.getLsbD_and, BitVec.getLsbD_ofNat, hb, testBit_rowsMask, decide_true, Bool.true_and,
    Bool.and_eq_true, decide_eq_true_eq]
  exact if_congr and_comm rfl rfl

/-- lat takes the rows of a slice from the value written. -/
theorem getLsbD_copyRows (v w : VVal) (row0 rows : Nat) {b : Nat} (hb : b < 16384) (hrow : 1024 * row0 ≤ b ∧ b < 1024 * (row0 + rows)) :
    (copyRows v w row0 rows).bits.getLsbD b = w.bits.getLsbD b := by
  rw [copyRows, getLsbD_blend, BitVec.getLsbD_ofNat, testBit_rowsMask, if_pos (by simp [hb, hrow])]

/-- What a slice writes of a mask register. -/
def maskAfter (old : KReg) (x : Slice) : KReg :=
  ⟨blend old.bits (BitVec.ofNat 2048 x.data.toNat) (BitVec.ofNat 2048 x.en.toNat &&& BitVec.ofNat 2048 (rowsMask 128 x.row0 x.rows)),
   blend old.taint (BitVec.ofNat 16 x.taint.toNat) (BitVec.ofNat 16 (rowsMask 1 x.row0 x.rows))⟩

theorem getLsbD_maskAfter (old : KReg) (x : Slice) {b : Nat} (hb : b < 2048) :
    (maskAfter old x).bits.getLsbD b =
      if (128 * x.row0 ≤ b ∧ b < 128 * (x.row0 + x.rows)) ∧ x.en.getLsbD b then x.data.getLsbD b else old.bits.getLsbD b := by
  simp only [maskAfter, getLsbD_blend, BitVec.getLsbD_and, BitVec.getLsbD_ofNat, hb, testBit_rowsMask, decide_true, Bool.true_and,
    BitVec.testBit_toNat, Bool.and_eq_true, decide_eq_true_eq]
  exact if_congr and_comm rfl rfl

theorem getK_setK (t : Team) {r : BitVec 3} (hr : r ≠ 0) (q : BitVec 3) (x : KReg) :
    (t.setK r x).getK q = if q = r then x else t.getK q := by
  unfold Team.getK Team.setK
  rw [if_neg hr]
  by_cases hq : q = 0
  · rw [if_pos hq, if_pos hq, if_neg (by rintro rfl; exact hr hq)]
  · rw [if_neg hq, if_neg hq]
    exact get_set_file (w := 3) t.k r q x

/-- lat after a slice of a register has landed with a value (R177). -/
def Team.latAfter (t : Team) (x : Slice) (v : VVal) : VVal :=
  match x.lat with
  | .same => copyRows t.lat v x.row0 x.rows
  | .value l => l
  | .keep => t.lat

/-- A slice of a register writes its destination, lat and VEXC. -/
theorem landSlice_reg (t : Team) {x : Slice} {d : VDst} {e : Nat} (h : x.dst = .reg d e) :
    let v := writeSlice (t.dstOld d e) x
    let u := t.setDst d e x.last v
    t.landSlice x = { u with lat := u.latAfter x v, vexc := t.vexc ||| x.exc.setWidth 64 } := by
  unfold Team.landSlice Team.latAfter
  rw [h]
  cases d <;> cases x.lat <;> rfl

/-- A slice of a mask writes its register and VEXC. -/
theorem landSlice_mask (t : Team) {x : Slice} {k : BitVec 3} (h : x.dst = .mask k) :
    t.landSlice x = { t.setK k (maskAfter (t.getK k) x) with vexc := t.vexc ||| x.exc.setWidth 64 } := by
  unfold Team.landSlice
  rw [h]
  simp only [setK_vexc]
  rfl

/-- Nothing outside the files of vec changes. -/
theorem landSlice_frame (t : Team) (x : Slice) : (t.landSlice x).vexc = t.vexc ||| x.exc.setWidth 64 ∧ t.landSlice x =
    { t with v := (t.landSlice x).v, o := (t.landSlice x).o, k := (t.landSlice x).k, w := (t.landSlice x).w, lat := (t.landSlice x).lat,
             vexc := (t.landSlice x).vexc } := by
  cases h : x.dst with
  | reg d e =>
    rw [landSlice_reg t h]
    cases d <;> exact ⟨rfl, rfl⟩
  | mask k =>
    rw [landSlice_mask t h]
    unfold Team.setK
    split <;> exact ⟨rfl, rfl⟩

theorem exec_sliceLands {s : State} {t : Team} (live : s.team s.cur.cid = some t) (x : Slice) (hup : s.upset t.cid s.cur.id 3 = 0) :
    exec (.sliceLands x) s = .next (s.setTeam (t.landSlice x)) := by
  dsimp only [exec]
  rw [execSliceLands, onTeam_live live, if_pos hup]

theorem sliceLandsInItsRows : SliceLandsInItsRows := by
  intro s t x live hup _
  obtain ⟨hexc, hframe⟩ := landSlice_frame t x
  refine ⟨_, exec_sliceLands live x hup, hexc, hframe, ?_⟩
  intro here
  refine ⟨fun r e h => ?_, fun r e h => ?_, fun q e h => ?_, fun r h => ?_⟩
  · rw [landSlice_reg t h]
    refine ⟨fun b hb => ?_, fun q hq => ?_, rfl, rfl, rfl, fun hlat b hb hrow => ?_, fun hlat => ?_⟩
    · simp only [Team.setDst, get_set_file (w := 6), if_true]
      exact getLsbD_writeSlice _ x hb
    · simp only [Team.setDst, get_set_file (w := 6), if_neg hq]
    · simp only [Team.setDst, get_set_file (w := 6), if_true, Team.latAfter, hlat]
      exact getLsbD_copyRows _ _ _ _ hb hrow
    · simp only [Team.latAfter, hlat, Team.setDst]
  · rw [landSlice_reg t h]
    refine ⟨fun b hb => ?_, fun q hq => ?_, rfl, rfl, rfl⟩
    · simp only [Team.setDst, get_set_file (w := 3), if_true]
      exact getLsbD_writeSlice _ x hb
    · simp only [Team.setDst, get_set_file (w := 3), if_neg hq]
  · rw [landSlice_reg t h]
    refine ⟨rfl, rfl, rfl, fun z hz hid => ?_, fun z hz hid => ?_, fun r hr => (setW_wAt t q r _).trans (if_neg hr)⟩
    · obtain ⟨y, -, rfl⟩ := List.mem_map.1 ((setW_wAt t q q _).trans (if_pos rfl) ▸ hz)
      by_cases hy : y.id = e
      · rw [if_pos hy]
      · rw [if_neg hy] at hid
        exact absurd hid hy
    · exact (setW_wAt t q q _).trans (if_pos rfl) ▸ List.mem_map.2 ⟨z, hz, if_neg hid⟩
  · rw [landSlice_mask t h]
    refine ⟨setK_v .., setK_o .., setK_w .., setK_lat .., ?_, fun hr b hb => ?_, fun q hq => ?_⟩
    · rintro rfl
      rfl
    · exact (congrArg (fun k => k.bits.getLsbD b) ((getK_setK t hr r _).trans (if_pos rfl))).trans (getLsbD_maskAfter _ x hb)
    · by_cases hr : r = 0
      · subst hr
        rfl
      · exact (getK_setK t hr q _).trans (if_neg hq)

end Sys2Proof.Machine
end

section
/-! The elements of a result (O20): fields packed side by side, the bits, taint and exceptions of a row and of the rows, and what an
elementwise word writes. -/

namespace Sys2Proof.Machine

/-! ## Fields packed side by side -/

/-- A field that lies within a wider one. -/
theorem fld_fld (x lo n k w : Nat) (h : k + w ≤ n) : fld x (lo + k) w = fld (fld x lo n) k w := by
  apply Nat.eq_of_testBit_eq
  intro i
  simp only [fld, Nat.testBit_mod_two_pow, Nat.testBit_div_two_pow]
  by_cases hi : i < w
  · have hn : i + k < n := by omega
    simp only [hi, hn, decide_true, Bool.true_and]
    congr 1
    omega
  · simp [hi]

/-- A field is below what is added above it. -/
theorem fld_add_above (a c lo w k : Nat) (h : lo + w ≤ k) : fld (a + c * 2 ^ k) lo w = fld a lo w := by
  obtain ⟨j, rfl⟩ := Nat.exists_eq_add_of_le h
  have hsplit : c * 2 ^ (lo + w + j) = 2 ^ lo * (c * 2 ^ j * 2 ^ w) := by rw [Nat.pow_add, Nat.pow_add]; ring
  rw [fld, fld, hsplit, Nat.add_mul_div_left _ _ (Nat.two_pow_pos lo), Nat.add_mul_mod_self_right]

/-- FIELDS OF ONE WIDTH, ADDED ONE ABOVE THE OTHER: each keeps its value, and nothing lies above the last. -/
theorem packed_fields {w : Nat} {acc c : Nat → Nat} (h0 : acc 0 = 0) (hs : ∀ k, acc (k + 1) = acc k + c k * 2 ^ (w * k))
    (hc : ∀ k, c k < 2 ^ w) (n : Nat) : acc n < 2 ^ (w * n) ∧ ∀ k, fld (acc n) (w * k) w = if k < n then c k else 0 := by
  induction n with
  | zero => simp [h0, fld]
  | succ n ih =>
    obtain ⟨hlt, hfld⟩ := ih
    have htop : acc n + c n * 2 ^ (w * n) < 2 ^ (w * (n + 1)) := by
      calc acc n + c n * 2 ^ (w * n) < (c n + 1) * 2 ^ (w * n) := by rw [Nat.add_one_mul]; omega
        _ ≤ 2 ^ w * 2 ^ (w * n) := Nat.mul_le_mul_right _ (hc n)
        _ = 2 ^ (w * (n + 1)) := by rw [← Nat.pow_add]; ring_nf
    rw [hs]
    refine ⟨htop, fun k => ?_⟩
    rcases lt_trichotomy k n with hk | rfl | hk
    · rw [fld_add_above _ _ _ _ _ (by rw [← Nat.mul_succ]; exact Nat.mul_le_mul_left w hk), hfld, if_pos hk, if_pos (Nat.lt_succ_of_lt hk)]
    · rw [fld, Nat.add_mul_div_right _ _ (Nat.two_pow_pos _), Nat.div_eq_of_lt hlt, Nat.zero_add, Nat.mod_eq_of_lt (hc k),
        if_pos (Nat.lt_succ_self k)]
    · rw [fld, Nat.div_eq_of_lt (htop.trans_le (Nat.pow_le_pow_right two_pos (Nat.mul_le_mul_left w hk))), Nat.zero_mod, if_neg (by omega)]

/-- A bit of a number as a bit of the field that holds it. -/
theorem testBit_fld (x w u : Nat) (hw : 0 < w) : (fld x (w * (u / w)) w).testBit (u % w) = x.testBit u := by
  simp [fld, Nat.testBit_mod_two_pow, Nat.testBit_div_two_pow, Nat.mod_lt _ hw, Nat.mod_add_div]

/-! ## A row -/

section Row

variable (w : Nat) (f : Nat → Option Elem)

theorem rowOut_data (n : Nat) : (rowOut w f n).data < 2 ^ (w * n) ∧
    ∀ e, fld (rowOut w f n).data (w * e) w = if e < n then (f e).elim 0 (·.v % 2 ^ w) else 0 :=
  packed_fields (acc := fun k => (rowOut w f k).data) rfl (fun k => by rw [rowOut]; cases f k <;> simp [VOut.put])
    (fun k => by cases f k <;> simp [Nat.mod_lt]) n

theorem rowOut_en (n : Nat) : (rowOut w f n).en < 2 ^ (w * n) ∧
    ∀ e, fld (rowOut w f n).en (w * e) w = if e < n then (f e).elim 0 (fun _ => 2 ^ w - 1) else 0 :=
  packed_fields (acc := fun k => (rowOut w f k).en) rfl (fun k => by rw [rowOut]; cases f k <;> simp [VOut.put])
    (fun k => by cases f k <;> simp) n

theorem rowOut_exc (n b : Nat) : (rowOut w f n).exc.getLsbD b = true ↔ ∃ e < n, ∃ x, f e = some x ∧ x.exc.getLsbD b = true := by
  induction n with
  | zero => simp [rowOut, VOut.none]
  | succ n ih =>
    rw [Nat.exists_lt_succ_right, ← ih, rowOut]
    cases f n <;> simp [VOut.put]

variable {w}

/-- The 32-bit words of a row that an element covers. -/
theorem testBit_wordBits (hw : w ∈ [8, 16, 32, 64]) (e u : Nat) :
    (wordBits (w * e) w).testBit u = decide (w * e / 32 ≤ u ∧ u ≤ (w * e + w - 1) / 32) := by
  simp only [List.mem_cons, List.not_mem_nil, or_false] at hw
  unfold wordBits
  rcases hw with rfl | rfl | rfl | rfl
  case inr.inr.inr =>
    rw [if_pos rfl, show 3 = 2 ^ 2 - 1 from rfl, Nat.testBit_mul_two_pow, Nat.testBit_two_pow_sub_one, ← Bool.decide_and]
    exact decide_eq_decide.2 ⟨fun h => by omega, fun h => by omega⟩
  all_goals
    rw [if_neg (by decide), Nat.testBit_two_pow]
    exact decide_eq_decide.2 ⟨fun h => by omega, fun h => by omega⟩

theorem rowOut_taint (hw : w ∈ [8, 16, 32, 64]) (n u : Nat) : (rowOut w f n).taint.testBit u = true ↔
    ∃ e < n, ∃ x, f e = some x ∧ x.t = true ∧ w * e / 32 ≤ u ∧ u ≤ (w * e + w - 1) / 32 := by
  induction n with
  | zero => simp [rowOut, VOut.none]
  | succ n ih =>
    rw [Nat.exists_lt_succ_right, ← ih, rowOut]
    cases f n with
    | none => simp
    | some x =>
      by_cases hx : x.t = true
      · simp [VOut.put, hx, testBit_wordBits hw]
      · simp [VOut.put, hx]

/-- An element within n of a row ends in the row's 32 words. -/
theorem lastWord_lt {n e : Nat} (hn : n * w ≤ 1024) (he : e < n) : (w * e + w - 1) / 32 < 32 := by
  have : w * e + w ≤ 1024 := by
    calc w * e + w = w * (e + 1) := rfl
      _ ≤ w * n := Nat.mul_le_mul_left w he
      _ ≤ 1024 := by rwa [Nat.mul_comm]
  omega

theorem rowOut_taint_lt (hw : w ∈ [8, 16, 32, 64]) {n : Nat} (hn : n * w ≤ 1024) : (rowOut w f n).taint < 2 ^ 32 := by
  refine Nat.lt_pow_two_of_testBit _ fun u hu => Bool.eq_false_iff.2 fun h => ?_
  obtain ⟨e, he, -, -, -, -, hlast⟩ := (rowOut_taint f hw n u).1 h
  have := lastWord_lt hn he
  omega

end Row

/-! ## The rows -/

theorem rowsOut_data {g : Nat → VOut} (hg : ∀ y, (g y).data < 2 ^ 1024) (n : Nat) : (rowsOut g n).data < 2 ^ (1024 * n) ∧
    ∀ y, fld (rowsOut g n).data (1024 * y) 1024 = if y < n then (g y).data else 0 :=
  packed_fields (acc := fun k => (rowsOut g k).data) rfl (fun _ => rfl) hg n

theorem rowsOut_en {g : Nat → VOut} (hg : ∀ y, (g y).en < 2 ^ 1024) (n : Nat) : (rowsOut g n).en < 2 ^ (1024 * n) ∧
    ∀ y, fld (rowsOut g n).en (1024 * y) 1024 = if y < n then (g y).en else 0 :=
  packed_fields (acc := fun k => (rowsOut g k).en) rfl (fun _ => rfl) hg n

theorem rowsOut_taint {g : Nat → VOut} (hg : ∀ y, (g y).taint < 2 ^ 32) (n u : Nat) :
    (rowsOut g n).taint.testBit u = true ↔ u / 32 < n ∧ (g (u / 32)).taint.testBit (u % 32) = true := by
  obtain ⟨-, hfld⟩ := packed_fields (acc := fun k => (rowsOut g k).taint) rfl (fun _ => rfl) hg n
  rw [← testBit_fld _ 32 u (by decide), hfld]
  split <;> simp_all

theorem rowsOut_exc (g : Nat → VOut) (n b : Nat) : (rowsOut g n).exc.getLsbD b = true ↔ ∃ y < n, (g y).exc.getLsbD b = true := by
  induction n with
  | zero => simp [rowsOut, VOut.none]
  | succ n ih => rw [Nat.exists_lt_succ_right, ← ih, rowsOut, BitVec.getLsbD_or, Bool.or_eq_true]

/-! ## An elementwise word (R69, R176, R180) -/

/-- Element e of row y of what an elementwise word writes: an enabled one with its value, taint and exceptions. -/
def Team.cell (t : Team) (m : Mask) (taint : Nat → Nat → Bool) (f : Nat → Nat → Nat × Exc) (y e : Nat) : Option Elem :=
  if t.enabled m y e then some ⟨(f y e).1, taint y e || t.maskTaint m y, (f y e).2⟩ else none

theorem elemOut_eq (t : Team) (w n : Nat) (m : Mask) (taint : Nat → Nat → Bool) (f : Nat → Nat → Nat × Exc) :
    elemOut t w n m taint f = rowsOut (fun y => rowOut w (t.cell m taint f y) n) t.rows := rfl

/-- The elements of which something holds are enabled ones. -/
theorem exists_cell_iff {t : Team} {m : Mask} {taint : Nat → Nat → Bool} {f : Nat → Nat → Nat × Exc} {y e : Nat} {P : Elem → Prop} :
    (∃ x, t.cell m taint f y e = some x ∧ P x) ↔
      t.enabled m y e = true ∧ P ⟨(f y e).1, taint y e || t.maskTaint m y, (f y e).2⟩ := by
  unfold Team.cell
  split <;> simp_all

/-- A number for each enabled element, and 0 for the others. -/
theorem elim_cell (t : Team) (m : Mask) (taint : Nat → Nat → Bool) (f : Nat → Nat → Nat × Exc) (y e : Nat) (g : Elem → Nat) :
    (t.cell m taint f y e).elim 0 g =
      if t.enabled m y e = true then g ⟨(f y e).1, taint y e || t.maskTaint m y, (f y e).2⟩ else 0 := by
  unfold Team.cell
  split <;> rfl

section Elements

variable (t : Team) {w n : Nat} (m : Mask) (taint : Nat → Nat → Bool) (f : Nat → Nat → Nat × Exc) (hn : n * w ≤ 1024)
include hn

theorem row_lt {x : Nat} (h : x < 2 ^ (w * n)) : x < 2 ^ 1024 :=
  h.trans_le (Nat.pow_le_pow_right two_pos (by rwa [Nat.mul_comm]))

theorem elemOut_data {y e : Nat} (he : w * e + w ≤ 1024) : fld (elemOut t w n m taint f).data (1024 * y + w * e) w =
    if y < t.rows ∧ e < n ∧ t.enabled m y e = true then (f y e).1 % 2 ^ w else 0 := by
  rw [elemOut_eq, fld_fld _ _ 1024 _ _ he, (rowsOut_data (fun y => row_lt hn (rowOut_data w _ n).1) _).2]
  by_cases hy : y < t.rows
  · rw [if_pos hy, (rowOut_data w _ n).2, elim_cell]
    simp only [hy, true_and, ite_and]
  · simp [hy, fld]

theorem elemOut_en {y e : Nat} (he : w * e + w ≤ 1024) : fld (elemOut t w n m taint f).en (1024 * y + w * e) w =
    if y < t.rows ∧ e < n ∧ t.enabled m y e = true then 2 ^ w - 1 else 0 := by
  rw [elemOut_eq, fld_fld _ _ 1024 _ _ he, (rowsOut_en (fun y => row_lt hn (rowOut_en w _ n).1) _).2]
  by_cases hy : y < t.rows
  · rw [if_pos hy, (rowOut_en w _ n).2, elim_cell]
    simp only [hy, true_and, ite_and]
  · simp [hy, fld]

theorem elemOut_en_lt (hrows : t.rows ≤ 16) : (elemOut t w n m taint f).en < 2 ^ 16384 :=
  (rowsOut_en (fun y => row_lt hn (rowOut_en w (t.cell m taint f y) n).1) t.rows).1.trans_le
    (Nat.pow_le_pow_right two_pos (by omega))

theorem elemOut_taint (hw : w ∈ [8, 16, 32, 64]) (u : Nat) : (elemOut t w n m taint f).taint.testBit u = true ↔
    ∃ y < t.rows, ∃ e < n, t.enabled m y e = true ∧ (taint y e || t.maskTaint m y) = true ∧
      32 * y + w * e / 32 ≤ u ∧ u ≤ 32 * y + (w * e + w - 1) / 32 := by
  rw [elemOut_eq, rowsOut_taint (fun y => rowOut_taint_lt _ hw hn)]
  simp only [rowOut_taint _ hw, exists_cell_iff]
  constructor
  · rintro ⟨hy, e, he, hon, htaint, hlo, hhi⟩
    exact ⟨u / 32, hy, e, he, hon, htaint, by omega, by omega⟩
  · rintro ⟨y, hy, e, he, hon, htaint, hlo, hhi⟩
    have hlast := lastWord_lt hn he
    obtain rfl : y = u / 32 := by omega
    exact ⟨hy, e, he, hon, htaint, by omega, by omega⟩

end Elements

theorem elementsOfAResult : ElementsOfAResult := by
  intro t w n m taint f hw hn hrows o
  refine ⟨fun y _ e he => ?_, elemOut_en_lt t m taint f hn hrows, fun u _ => elemOut_taint t m taint f hn hw u, fun b _ => ?_⟩
  · have hin : w * e + w ≤ 1024 := by
      calc w * e + w = (e + 1) * w := by ring
        _ ≤ 1024 / w * w := Nat.mul_le_mul_right w he
        _ ≤ 1024 := Nat.div_mul_le_self ..
    exact ⟨elemOut_en t m taint f hn hin, elemOut_data t m taint f hn hin⟩
  · simp only [o, elemOut_eq, rowsOut_exc, rowOut_exc, exists_cell_iff]

/-- Settles O20: the slices that a word sends, what one of them writes where it lands, and the fields that an elementwise result
packs. -/
theorem vecResultsLandAsSlices : Obligations.VecResultsLandAsSlices :=
  ⟨vecResultSlices, sliceLandsInItsRows, elementsOfAResult⟩

end Sys2Proof.Machine
end

section
/-! Decode and encode agree (O53): the fields of a word stand side by side, so each reads back, its code decodes to what it stands for,
and with them so does the whole word. -/

namespace Sys2Proof

/-! ## Fields side by side -/

/-- A field of n bits at bit k and the number in it. -/
structure Slot where
  k : Nat
  n : Nat
  x : Nat
  lt : x < 2 ^ n

/-- The number made of fields, the last of the list first. -/
def bodyOf : List Slot → Nat
  | [] => 0
  | [s] => sh s.x s.k
  | s :: l => bodyOf l + sh s.x s.k

theorem bodyOf_cons (s : Slot) (l : List Slot) : bodyOf (s :: l) = bodyOf l + s.x * 2 ^ s.k := by
  cases l with
  | nil => exact (Nat.zero_add _).symm
  | cons r l => rfl

/-- A field at the right of others is the first of their list. -/
theorem bodyOf_add (s r : Slot) (l : List Slot) : bodyOf (r :: l) + bodyOf [s] = bodyOf (s :: r :: l) := rfl

/-- The field lies outside the n bits at k. -/
def Slot.off (k n : Nat) (s : Slot) : Bool := (s.k + s.n).ble k || (k + n).ble s.k

/-- No two of the fields share a bit. -/
def apart : List Slot → Bool
  | [] => true
  | s :: l => l.all (Slot.off s.k s.n) && apart l

/-- The fields lie apart, and each is outside the n bits at k or at their low end. -/
def readable (l : List Slot) (k n : Nat) : Bool :=
  apart l && l.all fun s => bif s.k == k then s.n.ble n && (0).blt s.n else s.off k n

/-- The number in the field at bit k; 0 where there is none. -/
def look : List Slot → Nat → Nat
  | [], _ => 0
  | s :: l, k => bif s.k == k then s.x else look l k

theorem add_shift_lt {r x k m : Nat} (hr : r < 2 ^ k) (hx : x < 2 ^ m) : r + x * 2 ^ k < 2 ^ (k + m) := by
  calc r + x * 2 ^ k < 2 ^ k + x * 2 ^ k := Nat.add_lt_add_right hr _
    _ = (x + 1) * 2 ^ k := by ring
    _ ≤ 2 ^ m * 2 ^ k := Nat.mul_le_mul_right _ hx
    _ = 2 ^ (k + m) := by ring

section

variable {a k n N : Nat} {s : Slot} {l : List Slot}

/-- A free field that is filled leaves the bits above it. -/
theorem add_slot_div (h : s.k + s.n ≤ N) (ha : fld a s.k s.n = 0) : (a + s.x * 2 ^ s.k) / 2 ^ N = a / 2 ^ N := by
  obtain ⟨d, rfl⟩ := Nat.exists_eq_add_of_le h
  have hlow : a % 2 ^ (s.k + s.n) = a % 2 ^ s.k := by
    rw [Nat.pow_add, Nat.mod_mul, show a / 2 ^ s.k % 2 ^ s.n = 0 from ha, Nat.mul_zero, Nat.add_zero]
  have hdiv : (a + s.x * 2 ^ s.k) / 2 ^ (s.k + s.n) = a / 2 ^ (s.k + s.n) := by
    conv_lhs => rw [← Nat.div_add_mod a (2 ^ (s.k + s.n)), hlow, Nat.add_assoc, Nat.mul_add_div (Nat.two_pow_pos _)]
    rw [Nat.div_eq_of_lt (add_shift_lt (Nat.mod_lt _ (Nat.two_pow_pos _)) s.lt), Nat.add_zero]
  simp only [Nat.pow_add 2 (s.k + s.n) d, ← Nat.div_div_eq_div_mul, hdiv]

/-- A free field that is filled leaves the bits outside it. -/
theorem fld_add_off (h : s.off k n = true) (ha : fld a s.k s.n = 0) : fld (a + s.x * 2 ^ s.k) k n = fld a k n := by
  simp only [Slot.off, Bool.or_eq_true, Nat.ble_eq] at h
  obtain h | h := h
  · rw [fld, add_slot_div h ha]
    rfl
  · obtain ⟨d, hd⟩ := Nat.exists_eq_add_of_le h
    rw [fld, hd, show s.x * 2 ^ (k + n + d) = 2 ^ k * (2 ^ n * (2 ^ d * s.x)) by ring, Nat.add_mul_div_left _ _ (Nat.two_pow_pos k),
      Nat.add_mul_mod_self_left]
    rfl

/-- A field that is filled reads back, with free bits above it too. -/
theorem fld_add_same (h : s.n ≤ n) (ha : fld a s.k n = 0) : fld (a + s.x * 2 ^ s.k) s.k n = s.x := by
  unfold fld at ha ⊢
  rw [Nat.add_mul_div_right _ _ (Nat.two_pow_pos s.k), Nat.add_mod, ha, Nat.zero_add, Nat.mod_mod,
    Nat.mod_eq_of_lt (s.lt.trans_le (Nat.pow_le_pow_right two_pos h))]

/-- Bits outside all fields are 0. -/
theorem fld_bodyOf_off (ha : apart l = true) (h : l.all (Slot.off k n) = true) : fld (bodyOf l) k n = 0 := by
  induction l generalizing k n with
  | nil => simp [bodyOf, fld]
  | cons s l ih =>
    simp only [apart, List.all_cons, Bool.and_eq_true] at ha h
    rw [bodyOf_cons, fld_add_off h.1 (ih ha.2 ha.1), ih ha.2 h.2]

/-- Fields that lie apart from one at bit k are outside the n bits at k. -/
theorem off_of_readable (hs : 0 < s.n) (ha : l.all (Slot.off s.k s.n) = true)
    (hl : (l.all fun r => bif r.k == s.k then r.n.ble n && (0).blt r.n else r.off s.k n) = true) : l.all (Slot.off s.k n) = true := by
  rw [List.all_eq_true] at *
  intro r hr
  have hr_read := hl r hr
  cases hk : r.k == s.k with
  | false => rwa [hk, cond_false] at hr_read
  | true =>
    have hr_apart := ha r hr
    have hrk : r.k = s.k := by simpa using hk
    simp only [Slot.off, hk, cond_true, Bool.and_eq_true, Bool.or_eq_true, Nat.ble_eq, Nat.blt_eq] at hr_apart hr_read
    omega

/-- A field reads back. -/
theorem fld_bodyOf (h : readable l k n = true) : fld (bodyOf l) k n = look l k := by
  simp only [readable, Bool.and_eq_true] at h
  obtain ⟨ha, hl⟩ := h
  induction l with
  | nil => simp [bodyOf, fld, look]
  | cons s l ih =>
    simp only [apart, Bool.and_eq_true, List.all_cons] at ha hl
    obtain ⟨hs, hl⟩ := hl
    rw [bodyOf_cons, look]
    cases hk : s.k == k with
    | false =>
      rw [hk, cond_false] at hs
      rw [cond_false, fld_add_off hs (fld_bodyOf_off ha.2 ha.1), ih ha.2 hl]
    | true =>
      rw [hk, cond_true, Bool.and_eq_true, Nat.ble_eq, Nat.blt_eq] at hs
      obtain rfl : s.k = k := by simpa using hk
      rw [cond_true, fld_add_same hs.1 (fld_bodyOf_off ha.2 (off_of_readable hs.2 ha.1 hl))]

/-- Fields below bit N leave no bit from N upwards. -/
theorem bodyOf_div (h : (apart l && l.all fun s => (s.k + s.n).ble N) = true) : bodyOf l / 2 ^ N = 0 := by
  simp only [Bool.and_eq_true] at h
  obtain ⟨ha, hl⟩ := h
  induction l with
  | nil => simp [bodyOf]
  | cons s l ih =>
    simp only [apart, List.all_cons, Bool.and_eq_true, Nat.ble_eq] at ha hl
    rw [bodyOf_cons, add_slot_div hl.1 (fld_bodyOf_off ha.2 ha.1), ih ha.2 hl.2]

end

/-! ## Codes of the enumerated fields -/

theorem fb_eq_fld (w lo n : Nat) : fb w lo n = BitVec.ofNat n (fld w lo n) := BitVec.eq_of_toNat_eq (by simp [fb, fld])

theorem fb_of_fld {w lo n : Nat} {x : BitVec n} (h : fld w lo n = x.toNat) : fb w lo n = x := by
  rw [fb_eq_fld, h, BitVec.ofNat_toNat, BitVec.setWidth_eq]

theorem fb_base_add {n c : Nat} (h : c % 2 ^ n = 0) (x : BitVec n) : fb (c + x.toNat) 0 n = x :=
  fb_of_fld (by rw [fld, Nat.pow_zero, Nat.div_one, Nat.add_mod, h, Nat.zero_add, Nat.mod_mod, Nat.mod_eq_of_lt x.isLt])

theorem fb_toNat {n : Nat} (x : BitVec n) : fb x.toNat 0 n = x := by simp [fb]

/-! ### What may stand in a field

Of each: the field that it makes wherever it is shifted, and that it decodes to what it stands for. -/

theorem toNat_field {n : Nat} (x : BitVec n) : (∀ k, sh x.toNat k = bodyOf [⟨k, n, x.toNat, x.isLt⟩]) ∧
    BitVec.ofNat n x.toNat = x :=
  ⟨fun _ => rfl, by simp⟩

theorem boolCode_lt (b : Bool) : boolCode b < 2 ^ 1 := by cases b <;> decide

theorem boolCode_field (b : Bool) : (∀ k, sh (boolCode b) k = bodyOf [⟨k, 1, boolCode b, boolCode_lt b⟩]) ∧
    (∀ a, a + boolCode b = a + bodyOf [⟨0, 1, boolCode b, boolCode_lt b⟩]) ∧ decide (boolCode b = 1) = b := by
  refine ⟨fun _ => rfl, fun _ => by simp [bodyOf, sh], ?_⟩
  cases b <;> decide

theorem one_field (k : Nat) : sh 1 k = bodyOf [⟨k, 1, 1, by decide⟩] := rfl
theorem two_field (k : Nat) : sh 2 k = bodyOf [⟨k, 2, 2, by decide⟩] := rfl
theorem three_field (k : Nat) : sh 3 k = bodyOf [⟨k, 2, 3, by decide⟩] := rfl

/-- The two codes of a type that stand as numbers in the words that fix their type. -/
theorem fixedType_field : (∀ k, sh 12 k = bodyOf [⟨k, 4, 12, by decide⟩]) ∧ ∀ k, sh 11 k = bodyOf [⟨k, 4, 11, by decide⟩] :=
  ⟨fun _ => rfl, fun _ => rfl⟩

theorem maskField_eq (w : Nat) : maskField w = ⟨fb w 1 3, fld w 0 1 = 1⟩ := by simp [maskField, fld]

theorem Cond.code_lt (x : Cond) : x.code < 2 ^ 4 := by cases x <;> decide

theorem Cond.field (x : Cond) : (∀ k, sh x.code k = bodyOf [⟨k, 4, x.code, x.code_lt⟩]) ∧ Cond.ofCode x.code = some x :=
  ⟨fun _ => rfl, by cases x <;> rfl⟩

theorem Space.code_lt (x : Space) : x.code < 2 ^ 2 := by cases x <;> decide

theorem Space.field (x : Space) : (∀ k, sh x.code k = bodyOf [⟨k, 2, x.code, x.code_lt⟩]) ∧ Space.ofCode x.code = some x :=
  ⟨fun _ => rfl, by cases x <;> rfl⟩

theorem Order.code_lt (x : Order) : x.code < 2 ^ 2 := by cases x <;> decide

theorem Order.field (x : Order) : (∀ k, sh x.code k = bodyOf [⟨k, 2, x.code, x.code_lt⟩]) ∧ Order.ofCode x.code = some x :=
  ⟨fun _ => rfl, by cases x <;> rfl⟩

theorem Size.code_lt (x : Size) : x.code < 2 ^ 3 := by cases x <;> decide

theorem Size.field (x : Size) : (∀ k, sh x.code k = bodyOf [⟨k, 3, x.code, x.code_lt⟩]) ∧ Size.ofCode x.code = some x :=
  ⟨fun _ => rfl, by cases x <;> rfl⟩

theorem AmoOp.code_lt (x : AmoOp) : x.code < 2 ^ 4 := by cases x <;> decide

theorem AmoOp.field (x : AmoOp) : (∀ k, sh x.code k = bodyOf [⟨k, 4, x.code, x.code_lt⟩]) ∧ AmoOp.ofCode x.code = some x :=
  ⟨fun _ => rfl, by cases x <;> rfl⟩

theorem Scope.code_lt (x : Scope) : x.code < 2 ^ 3 := by cases x <;> decide

theorem Scope.field (x : Scope) : (∀ k, sh x.code k = bodyOf [⟨k, 3, x.code, x.code_lt⟩]) ∧ Scope.ofCode x.code = some x :=
  ⟨fun _ => rfl, by cases x <;> rfl⟩

theorem FenceKind.code_lt (x : FenceKind) : x.code < 2 ^ 2 := by cases x <;> decide

theorem FenceKind.field (x : FenceKind) : (∀ k, sh x.code k = bodyOf [⟨k, 2, x.code, x.code_lt⟩]) ∧
    FenceKind.ofCode x.code = some x :=
  ⟨fun _ => rfl, by cases x <;> rfl⟩

theorem ExcReg.code_lt (x : ExcReg) : x.code < 2 ^ 2 := by cases x <;> decide

theorem ExcReg.field (x : ExcReg) : (∀ k, sh x.code k = bodyOf [⟨k, 2, x.code, x.code_lt⟩]) ∧ ExcReg.ofCode x.code = some x :=
  ⟨fun _ => rfl, by cases x <;> rfl⟩

theorem Col.code_lt (x : Col) : x.code < 2 ^ 3 := by cases x <;> decide

theorem Col.field (x : Col) : (∀ k, sh x.code k = bodyOf [⟨k, 3, x.code, x.code_lt⟩]) ∧ Col.ofCode x.code = some x :=
  ⟨fun _ => rfl, by cases x <;> rfl⟩

theorem ElemTy.code_lt (x : ElemTy) : x.code < 2 ^ 4 := by cases x <;> decide

theorem ElemTy.field (x : ElemTy) : (∀ k, sh x.code k = bodyOf [⟨k, 4, x.code, x.code_lt⟩]) ∧ ElemTy.ofCode x.code = some x :=
  ⟨fun _ => rfl, by cases x <;> rfl⟩

theorem IOpt.code_lt (x : IOpt) : x.code < 2 ^ 2 := by cases x <;> decide

theorem IOpt.field (x : IOpt) : (∀ k, sh x.code k = bodyOf [⟨k, 2, x.code, x.code_lt⟩]) ∧ IOpt.ofCode x.code = some x :=
  ⟨fun _ => rfl, by cases x <;> rfl⟩

theorem FPred.code_lt (x : FPred) : x.code < 2 ^ 3 := by cases x <;> decide

theorem FPred.field (x : FPred) : (∀ k, sh x.code k = bodyOf [⟨k, 3, x.code, x.code_lt⟩]) ∧ FPred.ofCode x.code = some x :=
  ⟨fun _ => rfl, by cases x <;> rfl⟩

theorem IPred.code_lt (x : IPred) : x.code < 2 ^ 4 := by cases x <;> decide

theorem IPred.field (x : IPred) : (∀ k, sh x.code k = bodyOf [⟨k, 4, x.code, x.code_lt⟩]) ∧ IPred.ofCode x.code = some x :=
  ⟨fun _ => rfl, by cases x <;> rfl⟩

theorem TabFn.code_lt (x : TabFn) : x.code < 2 ^ 4 := by cases x <;> decide

theorem TabFn.field (x : TabFn) : (∀ k, sh x.code k = bodyOf [⟨k, 4, x.code, x.code_lt⟩]) ∧ TabFn.ofCode x.code = some x :=
  ⟨fun _ => rfl, by cases x <;> rfl⟩

theorem Ring.code_lt (x : Ring) : x.code < 2 ^ 1 := by cases x <;> decide

theorem Ring.field (x : Ring) : (∀ k, sh x.code k = bodyOf [⟨k, 1, x.code, x.code_lt⟩]) ∧ Ring.ofCode x.code = some x :=
  ⟨fun _ => rfl, by cases x <;> rfl⟩

theorem PlaitSel.code_lt (x : PlaitSel) : x.code < 2 ^ 2 := by cases x <;> decide

theorem PlaitSel.field (x : PlaitSel) : (∀ k, sh x.code k = bodyOf [⟨k, 2, x.code, x.code_lt⟩]) ∧ PlaitSel.ofCode x.code = some x :=
  ⟨fun _ => rfl, by cases x <;> rfl⟩

theorem Col.ofToken_code {c : Col} (h : c ≠ .chn) : Col.ofToken c.code = some c := by
  cases c with
  | chn => exact absurd rfl h
  | _ => rfl

theorem Col.code_lt_five {c : Col} (h : c ≠ .chn) : c.code < 5 := by
  cases c with
  | chn => exact absurd rfl h
  | _ => decide

theorem VSrc.code_lt (x : VSrc) : x.code < 2 ^ 8 := by
  cases x <;> simp only [VSrc.code] <;> omega

theorem VSrc.ofCode_code (x : VSrc) : VSrc.ofCode x.code = some x := by
  cases x with
  | lat => rfl
  | _ => simp (disch := omega) only [VSrc.code, VSrc.ofCode, if_pos, if_neg, fb_base_add, fb_toNat]

theorem VSrc.field (x : VSrc) : (∀ k, sh x.code k = bodyOf [⟨k, 8, x.code, x.code_lt⟩]) ∧ VSrc.ofCode x.code = some x :=
  ⟨fun _ => rfl, x.ofCode_code⟩

theorem VDst.code_lt (x : VDst) : x.code < 2 ^ 8 := by
  cases x <;> simp only [VDst.code] <;> omega

theorem VDst.ofCode_code (x : VDst) : VDst.ofCode x.code = some x := by
  cases x with
  | lat => rfl
  | _ => simp (disch := omega) only [VDst.code, VDst.ofCode, if_pos, if_neg, fb_base_add, fb_toNat]

theorem VDst.field (x : VDst) : (∀ k, sh x.code k = bodyOf [⟨k, 8, x.code, x.code_lt⟩]) ∧ VDst.ofCode x.code = some x :=
  ⟨fun _ => rfl, x.ofCode_code⟩

theorem maskOf_toNat (k : BitVec 3) : maskOf k.toNat = some k := by
  simp (disch := omega) only [maskOf, if_pos, fb_toNat]

theorem slotOf_toNat (n : BitVec 2) : slotOf n.toNat = some n := by
  simp (disch := omega) only [slotOf, if_pos, fb_toNat]

theorem fb_tok_count {c : Col} (hc : c ≠ .chn) (n : BitVec 2) : fb (0x80 + n.toNat * 8 + c.code) 3 2 = n := by
  have := Col.code_lt_five hc
  apply BitVec.eq_of_toNat_eq
  simp only [fb, BitVec.toNat_ofNat]
  omega

theorem tok_code_mod {c : Col} (hc : c ≠ .chn) (n : Nat) : (0x80 + n * 8 + c.code) % 8 = c.code := by
  have := Col.code_lt_five hc
  omega

theorem Wait.code_lt (x : Wait) : x.code < 2 ^ 8 := by
  cases x with
  | tok c n => have := c.code_lt; simp only [Wait.code]; omega
  | colIdle c => have := c.code_lt; simp only [Wait.code]; omega
  | _ => simp only [Wait.code]; omega

theorem Wait.ofCode_code {c : Col} {x : Wait} (h : x.wf c = true) : Wait.ofCode x.code = some x := by
  cases x with
  | none | plait | landed => rfl
  | idle n =>
    have : n.toNat ≠ 0 := by simpa [Wait.wf, ← BitVec.toNat_inj] using h
    simp (disch := omega) only [Wait.code, Wait.ofCode, if_pos, if_neg, fb_toNat]
  | tok d n =>
    have hd : d ≠ .chn := by simp_all [Wait.wf]
    have := Col.code_lt_five hd
    simp (disch := omega) only [Wait.code, Wait.ofCode, if_pos, if_neg, tok_code_mod hd, Col.ofToken_code hd, fb_tok_count hd,
      Option.map_some]
  | colIdle d =>
    have hd : d ≠ .chn := by simp_all [Wait.wf]
    have := Col.code_lt_five hd
    simp (disch := omega) only [Wait.code, Wait.ofCode, if_pos, if_neg, Nat.add_sub_cancel_left, Col.ofToken_code hd, Option.map_some]
  | _ => simp (disch := omega) only [Wait.code, Wait.ofCode, if_pos, if_neg, fb_base_add]

theorem Signal.code_lt (x : Signal) : x.code < 2 ^ 8 := by
  cases x with
  | tok c n => have := c.code_lt; simp only [Signal.code]; omega
  | _ => simp only [Signal.code]; omega

theorem Signal.ofCode_code {c : Col} {x : Signal} (h : x.wf c = true) : Signal.ofCode x.code = some x := by
  cases x with
  | none => rfl
  | tok d n =>
    have hd : d ≠ .chn := by simp_all [Signal.wf]
    have := Col.code_lt_five hd
    simp (disch := omega) only [Signal.code, Signal.ofCode, if_pos, if_neg, tok_code_mod hd, Col.ofToken_code hd, fb_tok_count hd,
      Option.map_some]
  | _ => simp (disch := omega) only [Signal.code, Signal.ofCode, if_pos, if_neg, fb_base_add]

theorem CsigCode.code_lt (x : CsigCode) : x.code < 2 ^ 8 := by
  cases x <;> simp only [CsigCode.code] <;> omega

theorem CsigCode.ofCode_code (x : CsigCode) : CsigCode.ofCode x.code = some x := by
  cases x <;> simp (disch := omega) only [CsigCode.code, CsigCode.ofCode, if_pos, if_neg, fb_base_add]

theorem CsigCode.field (x : CsigCode) : (∀ k, sh x.code k = bodyOf [⟨k, 8, x.code, x.code_lt⟩]) ∧ CsigCode.ofCode x.code = some x :=
  ⟨fun _ => rfl, x.ofCode_code⟩

theorem CwaitCode.code_lt (x : CwaitCode) : x.code < 2 ^ 8 := by
  cases x with
  | colIdle c => have := c.code_lt; simp only [CwaitCode.code]; omega
  | _ => simp only [CwaitCode.code]; omega

theorem CwaitCode.ofCode_code {x : CwaitCode} {a : SReg} {c : Col} (h : (Instr.cwait x a).wf c = true) :
    CwaitCode.ofCode x.code = some x := by
  cases x with
  | plait | landed => rfl
  | colIdle d =>
    have hd : d ≠ .chn := by
      have hwf : (a == 0 && d != .chn) = true := h
      simpa using (Bool.and_eq_true_iff.1 hwf).2
    have := Col.code_lt_five hd
    simp (disch := omega) only [CwaitCode.code, CwaitCode.ofCode, if_pos, if_neg, Nat.add_sub_cancel_left, Col.ofToken_code hd,
      Option.map_some]
  | _ => simp (disch := omega) only [CwaitCode.code, CwaitCode.ofCode, if_pos, if_neg, fb_base_add]

theorem LoopSrc.code_lt (x : LoopSrc) : x.code < 2 ^ 8 := by
  cases x <;> simp only [LoopSrc.code, sh] <;> omega

theorem LoopSrc.ofCode_code (x : LoopSrc) : LoopSrc.ofCode x.code = some x := by
  cases x with
  | imm => rfl
  | reg r =>
    have hr : fb (sh r.toNat 2) 2 6 = r := fb_of_fld (by simp only [fld, sh]; omega)
    simp only [LoopSrc.code, LoopSrc.ofCode, hr]
    rw [if_pos (by simp only [sh]; omega)]
  | mbx m =>
    have hm : fb (sh m.toNat 2 + 1) 2 4 = m := fb_of_fld (by simp only [fld, sh]; omega)
    simp only [LoopSrc.code, LoopSrc.ofCode, hm]
    rw [if_neg (by simp only [sh]; omega), if_pos (by simp only [sh]; omega), if_pos (by simp only [sh]; omega)]

theorem LoopSrc.field (x : LoopSrc) : (∀ k, sh x.code k = bodyOf [⟨k, 8, x.code, x.code_lt⟩]) ∧ LoopSrc.ofCode x.code = some x :=
  ⟨fun _ => rfl, x.ofCode_code⟩

theorem CwaitCode.field {x : CwaitCode} {a : SReg} {c : Col} (h : (Instr.cwait x a).wf c = true) :
    (∀ k, sh x.code k = bodyOf [⟨k, 8, x.code, x.code_lt⟩]) ∧ CwaitCode.ofCode x.code = some x :=
  ⟨fun _ => rfl, CwaitCode.ofCode_code h⟩

theorem CntSrc.code_lt (x : CntSrc) : x.code < 2 ^ 32 := by
  cases x with
  | head c | tail c | put c => have := c.code_lt; simp only [CntSrc.code, sh]; omega
  | _ => simp only [CntSrc.code, sh]; omega

/-- The two fields of a cntrd source that names a column. -/
theorem fld_cntrd_col {c : Col} (hc : c ≠ .chn) {k : Nat} (hk : k < 16) :
    fld (sh k 28 + c.code) 28 4 = k ∧ Col.ofToken (fld (sh k 28 + c.code) 0 3) = some c := by
  have := Col.code_lt_five hc
  have hcol : fld (sh k 28 + c.code) 0 3 = c.code := by simp only [fld, sh]; omega
  exact ⟨by simp only [fld, sh]; omega, by rw [hcol, Col.ofToken_code hc]⟩

theorem Col.ne_chn_of_isFed {c : Col} (h : c.isFed = true) : c ≠ .chn := by
  rintro rfl
  cases h

theorem CntSrc.ofCode_code {x : CntSrc} {d : SReg} {c : Col} (h : (Instr.cntrd d x).wf c = true) : CntSrc.ofCode x.code = some x := by
  cases x with
  | head c =>
    obtain ⟨hsel, hcol⟩ := fld_cntrd_col (Col.ne_chn_of_isFed h) (k := 0) (by decide)
    simp only [CntSrc.code, CntSrc.ofCode, sh, Nat.zero_mul, Nat.zero_add] at hsel hcol ⊢
    simp only [hsel, hcol, Option.map_some]
  | tail c =>
    obtain ⟨hsel, hcol⟩ := fld_cntrd_col (Col.ne_chn_of_isFed h) (k := 1) (by decide)
    simp only [CntSrc.code, CntSrc.ofCode, hsel, hcol, Option.map_some]
  | put c =>
    obtain ⟨hsel, hcol⟩ := fld_cntrd_col (Col.ne_chn_of_isFed h) (k := 2) (by decide)
    simp only [CntSrc.code, CntSrc.ofCode, hsel, hcol, Option.map_some]
  | handle a =>
    have ha : fb (sh 7 28 + sh a.toNat 22) 22 6 = a := fb_of_fld (by simp only [fld, sh]; omega)
    have hsel : fld (sh 7 28 + sh a.toNat 22) 28 4 = 7 := by simp only [fld, sh]; omega
    simp only [CntSrc.code, CntSrc.ofCode, hsel, ha]
  | _ => rfl

theorem CntSrc.field {x : CntSrc} {d : SReg} {c : Col} (h : (Instr.cntrd d x).wf c = true) :
    (∀ k, sh x.code k = bodyOf [⟨k, 32, x.code, x.code_lt⟩]) ∧ CntSrc.ofCode x.code = some x :=
  ⟨fun _ => rfl, CntSrc.ofCode_code h⟩

theorem RedMode.code_lt (x : RedMode) : x.code < 2 ^ 2 := by cases x <;> simp [RedMode.code]
theorem RedMode.bField_lt (x : RedMode) : x.bField < 2 ^ 8 := by
  cases x with
  | u | s => decide
  | w b | sw b => exact b.code_lt

theorem RedMode.ofCode_code (x : RedMode) : RedMode.ofCode x.code x.bField = some x := by
  cases x with
  | u | s => rfl
  | w b | sw b => simp [RedMode.ofCode, RedMode.code, RedMode.bField, b.ofCode_code]

theorem RedMode.field (x : RedMode) : ((∀ k, sh x.code k = bodyOf [⟨k, 2, x.code, x.code_lt⟩]) ∧
    ∀ k, sh x.bField k = bodyOf [⟨k, 8, x.bField, x.bField_lt⟩]) ∧ RedMode.ofCode x.code x.bField = some x :=
  ⟨⟨fun _ => rfl, fun _ => rfl⟩, x.ofCode_code⟩

theorem PermMode.code_lt (x : PermMode) : x.code < 2 ^ 16 := by
  cases x with
  | idx b => have := b.code_lt; simp only [PermMode.code, sh]; omega
  | _ => simp only [PermMode.code, sh]; omega

theorem PermMode.ofCode_code (x : PermMode) : PermMode.ofCode x.code = some x := by
  cases x with
  | brev => rfl
  | idx b =>
    have := b.code_lt
    have hsel : fld (sh b.code 8) 4 4 = 0 := by simp only [fld, sh]; omega
    have hb : fld (sh b.code 8) 8 8 = b.code := by simp only [fld, sh]; omega
    simp only [PermMode.code, PermMode.ofCode, hsel, hb, b.ofCode_code, Option.map_some]
  | stride k =>
    have hsel : fld (sh 1 4 + k.toNat) 4 4 = 1 := by simp only [fld, sh]; omega
    simp only [PermMode.code, PermMode.ofCode, hsel, fb_base_add (show sh 1 4 % 2 ^ 3 = 0 by decide)]
  | unstride k =>
    have hsel : fld (sh 2 4 + k.toNat) 4 4 = 2 := by simp only [fld, sh]; omega
    simp only [PermMode.code, PermMode.ofCode, hsel, fb_base_add (show sh 2 4 % 2 ^ 3 = 0 by decide)]

theorem PermMode.field (x : PermMode) : (∀ k, sh x.code k = bodyOf [⟨k, 16, x.code, x.code_lt⟩]) ∧
    PermMode.ofCode x.code = some x :=
  ⟨fun _ => rfl, x.ofCode_code⟩

theorem TabSel.code_lt (x : TabSel) : x.code < 2 ^ 8 := by
  cases x with
  | fn f => have := f.code_lt; simp only [TabSel.code]; omega
  | slot n => simp only [TabSel.code, sh]; omega

theorem TabSel.ofCode_code (x : TabSel) : TabSel.ofCode x.code = some x := by
  cases x with
  | fn f => cases f <;> rfl
  | slot n =>
    have hn : fb (sh n.toNat 6 + sh 1 5) 6 2 = n := fb_of_fld (by simp only [fld, sh]; omega)
    simp only [TabSel.code, TabSel.ofCode, hn]
    rw [if_pos (by simp only [sh]; omega)]

theorem TabSel.field (x : TabSel) : (∀ k, sh x.code k = bodyOf [⟨k, 8, x.code, x.code_lt⟩]) ∧ TabSel.ofCode x.code = some x :=
  ⟨fun _ => rfl, x.ofCode_code⟩

/-! ## The body of every word -/

/-- The parse of a column's own opcodes, or of the common group. -/
def parseOf : WordCol → Nat → Nat → Option Instr
  | .any => parseAny
  | .one .ctl => parseCtl
  | .one .acs => parseAcs
  | .one .vec => parseVec
  | .one .mat => parseMat
  | .one .cpy => parseCpy
  | .one .chn => parseChn

theorem parse_eq_parseOf {c : Col} {k : WordCol} {opc : Nat} (w : Nat) (hk : k = .any ∨ k = .one c)
    (hopc : k = .any ↔ 0x38 ≤ opc ∧ opc ≤ 0x3F) : parse c opc w = parseOf k opc w := by
  unfold parse
  simp only [Bool.and_eq_true, decide_eq_true_eq]
  obtain rfl | rfl := hk
  · rw [if_pos (hopc.1 rfl)]
    rfl
  · rw [if_neg fun h => WordCol.noConfusion (hopc.2 h)]
    cases c <;> rfl

/-- The column of a word, or the common group; an event has none. -/
def Instr.wordCol (i : Instr) : Option WordCol := i.fields.map (·.1)

/-- The opcode of a word is one of its group, and its body reads back as the word. -/
def Instr.ReadsBack (i : Instr) : Prop :=
  match i.fields with
  | none => True
  | some (k, opc, body) =>
    ((k = .any ↔ 0x38 ≤ opc ∧ opc ≤ 0x3F) ∧ opc < 2 ^ 8) ∧ body / 2 ^ 40 = 0 ∧ parseOf k opc body = some i

theorem Instr.ReadsBack.of_fields {i : Instr} {k : WordCol} {opc body : Nat} (hf : i.fields = some (k, opc, body))
    (hopc : decide ((k = .any ↔ 0x38 ≤ opc ∧ opc ≤ 0x3F) ∧ opc < 2 ^ 8) = true)
    (hbody : body / 2 ^ 40 = 0 ∧ parseOf k opc body = some i) : i.ReadsBack := by
  unfold ReadsBack
  rw [hf]
  exact ⟨of_decide_eq_true hopc, hbody⟩

/-! ### The forms that many words share

A body is brought into the form of a list of fields, of which each field that the parse reads is looked up; the side conditions, that the
fields lie apart and where they lie, have only numerals in them and are decided by evaluation. -/

section

variable {body : Nat}

theorem reads_three_regs {f : SReg → SReg → SReg → Instr} {d a b : SReg} (h : body = sh d.toNat 34 + sh a.toNat 28 + sh b.toNat 22) :
    body / 2 ^ 40 = 0 ∧ some (f (fb body 34 6) (fb body 28 6) (fb body 22 6)) = some (f d a b) := by
  simp (disch := with_unfolding_all exact of_decide_eq_true rfl) only [h, bodyOf_add, bodyOf_div, fld_bodyOf, look, Nat.reduceBEq,
    cond_true, cond_false, fb_eq_fld, toNat_field, and_self]

theorem reads_regs_imm {f : SReg → SReg → BitVec 28 → Instr} {d a : SReg} {x : BitVec 28}
    (h : body = sh d.toNat 34 + sh a.toNat 28 + sh x.toNat 0) :
    body / 2 ^ 40 = 0 ∧ some (f (fb body 34 6) (fb body 28 6) (fb body 0 28)) = some (f d a x) := by
  simp (disch := with_unfolding_all exact of_decide_eq_true rfl) only [h, bodyOf_add, bodyOf_div, fld_bodyOf, look, Nat.reduceBEq,
    cond_true, cond_false, fb_eq_fld, toNat_field, and_self]

theorem reads_one_source {f : VDst → VSrc → ElemTy → Mask → Instr} {d : VDst} {a : VSrc} {t : ElemTy} {m : Mask}
    (h : body = sh d.code 32 + sh a.code 24 + sh t.code 4 + sh m.k.toNat 1 + boolCode m.inv) :
    body / 2 ^ 40 = 0 ∧ ((VDst.ofCode (fld body 32 8)).bind fun d => (VSrc.ofCode (fld body 24 8)).bind fun a =>
      (ElemTy.ofCode (fld body 4 4)).bind fun t => some (f d a t (maskField body))) = some (f d a t m) := by
  simp (disch := with_unfolding_all exact of_decide_eq_true rfl) only [h, bodyOf_add, bodyOf_div, fld_bodyOf, look, Nat.reduceBEq,
    cond_true, cond_false, fb_eq_fld, toNat_field, and_self, boolCode_field, VDst.field, VSrc.field, ElemTy.field, maskField_eq,
    Option.bind_some]

theorem reads_two_sources {f : VDst → VSrc → VSrc → ElemTy → Mask → Instr} {d : VDst} {a b : VSrc} {t : ElemTy} {m : Mask}
    (h : body = sh d.code 32 + sh a.code 24 + sh b.code 16 + sh t.code 4 + sh m.k.toNat 1 + boolCode m.inv) :
    body / 2 ^ 40 = 0 ∧ ((VDst.ofCode (fld body 32 8)).bind fun d => (VSrc.ofCode (fld body 24 8)).bind fun a =>
      (VSrc.ofCode (fld body 16 8)).bind fun b => (ElemTy.ofCode (fld body 4 4)).bind fun t => some (f d a b t (maskField body))) =
        some (f d a b t m) := by
  simp (disch := with_unfolding_all exact of_decide_eq_true rfl) only [h, bodyOf_add, bodyOf_div, fld_bodyOf, look, Nat.reduceBEq,
    cond_true, cond_false, fb_eq_fld, toNat_field, and_self, boolCode_field, VDst.field, VSrc.field, ElemTy.field, maskField_eq,
    Option.bind_some]

end

/-! ### The opcodes that a field of their body refines

Their equations are `(rfl)`, so that `simp` rewrites with them: unfolding in their place would have the kernel evaluate the field. -/

theorem parse_cbo (w : Nat) : parseOf (.one .ctl) 0x45 w = match fld w 34 6 with
    | 0 => some (.cboClean (fb w 28 6) (fb w 24 4) (fb w 0 17))
    | 1 => some (.cboFlush (fb w 28 6) (fb w 24 4) (fb w 0 17))
    | _ => none := (rfl)

theorem parse_tchk (w : Nat) : parseOf (.one .ctl) 0x54 w = match fld w 32 8 with
    | 0 => some (.tchk (fb w 26 6))
    | 1 => some (.tchkSp (fb w 26 6) (fb w 20 6))
    | 2 => some (.tchkGl (fb w 26 6) (fb w 20 6))
    | _ => none := (rfl)

theorem parse_cancel (w : Nat) : parseOf (.one .ctl) 0x63 w = match fld w 32 2 with
    | 0 => some (.cancelLaunch (fb w 26 6))
    | 1 => some (.cancelGraph (fb w 26 6))
    | 2 => some (.cancelPhase (fb w 26 6))
    | _ => some (.cancelJob (fb w 26 6)) := (rfl)

theorem parse_mgo (w : Nat) : parseOf (.one .mat) 0x03 w = match fld w 22 1 with
    | 0 => some (.mgo (fb w 23 5))
    | _ => some (.mgoQuad (fb w 23 5)) := (rfl)

theorem parse_mdrain (w : Nat) : parseOf (.one .mat) 0x06 w = match fld w 21 2 with
    | 0 => some (.mdrain (fb w 23 5) (fb w 34 6) (fb w 16 5) (fb w 12 4))
    | 1 => some (.mdrainT (fb w 23 5) (fb w 34 6) (fb w 28 6) (fb w 16 5) (fb w 12 4))
    | 2 => some (.mdrainPeer (fb w 23 5) (fb w 34 6) (fb w 16 5) (fb w 12 4) (fb w 0 12))
    | _ => none := (rfl)

theorem parse_cp (w : Nat) : parseOf (.one .cpy) 0x00 w = match fld w 22 2 with
    | 0 => some (.cp (fb w 34 6) (fb w 28 6) (fb w 24 4))
    | 1 => some (.cpWs (fb w 34 6) (fb w 28 6) (fb w 24 4))
    | 2 => some (.cpCb (fb w 34 6) (fb w 19 3) (fb w 24 4))
    | _ => none := (rfl)

theorem parse_cpx (w : Nat) : parseOf (.one .cpy) 0x05 w = match fld w 22 2 with
    | 0 => some (.cpxHost (fb w 34 6) (fb w 24 4))
    | 1 => some (.cpxPeer (fb w 34 6) (fb w 24 4))
    | 2 => some (.cpxColl (fb w 34 6) (fb w 24 4))
    | _ => none := (rfl)

theorem parse_rd (w : Nat) : parseOf (.one .chn) 0x01 w = match fld w 27 1 with
    | 0 => some (.rd (fb w 36 2) (fb w 34 2) (fb w 28 6) (fb w 16 11) (fb w 0 16))
    | _ => some (.rdL2 (fb w 36 2) (fb w 34 2) (fb w 28 6) (fld w 25 1 = 1)) := (rfl)

/-! ### The words of each column -/

section

variable {i : Instr}

/-- Words of ctl. -/
theorem readsBack_ctl {c : Col} (h : decide (i.wordCol = some (.one .ctl)) = true) (hwf : i.wf c = true) : i.ReadsBack := by
  cases i <;> try contradiction
  case add | sub | and | or | xor | andn | shl | shr | sar | mul | mulh | mulhu | div | divu | rem | remu | min | max | minu | maxu |
      slt | sltu | seq | sel =>
    all_goals exact .of_fields rfl rfl (reads_three_regs rfl)
  case addi | andi | ori | xori | slti | sltiu | lui | muli | shli | shri | sari =>
    all_goals exact .of_fields rfl rfl (reads_regs_imm rfl)
  all_goals refine .of_fields rfl rfl ?_
  case cwait =>
    rw [show parseOf _ _ _ = Option.bind _ _ from rfl]
    simp (disch := with_unfolding_all exact of_decide_eq_true rfl) only [bodyOf_add, bodyOf_div, fld_bodyOf, look, Nat.reduceBEq,
      cond_true, cond_false, fb_eq_fld, toNat_field, and_self, CwaitCode.field hwf, Option.bind_some]
  case cntrd =>
    rw [show parseOf _ _ _ = Option.bind _ _ from rfl]
    simp (disch := with_unfolding_all exact of_decide_eq_true rfl) only [bodyOf_add, bodyOf_div, fld_bodyOf, look, Nat.reduceBEq,
      cond_true, cond_false, fb_eq_fld, toNat_field, and_self, CntSrc.field hwf, Option.bind_some]
  case cboClean | cboFlush | tchk | tchkSp | tchkGl | cancelLaunch | cancelGraph | cancelPhase | cancelJob =>
    all_goals
      simp (disch := with_unfolding_all exact of_decide_eq_true rfl) only [bodyOf_add, bodyOf_div, fld_bodyOf, look, Nat.reduceBEq,
        cond_true, cond_false, fb_eq_fld, toNat_field, and_self, parse_cbo, parse_tchk, parse_cancel, one_field, two_field, three_field]
  case b | ld | st | amo | cas | fence | csig | popx | qput | qpub | launch =>
    all_goals
      rw [show parseOf _ _ _ = Option.bind _ _ from rfl]
      simp (disch := with_unfolding_all exact of_decide_eq_true rfl) only [bodyOf_add, bodyOf_div, fld_bodyOf, look, Nat.reduceBEq,
        cond_true, cond_false, fb_eq_fld, toNat_field, and_self, Cond.field, Space.field, Order.field, Size.field, AmoOp.field,
        Scope.field, FenceKind.field, CsigCode.field, ExcReg.field, Col.field, Option.bind_some]
  all_goals
    rw [show parseOf _ _ _ = some _ from rfl]
    simp (disch := with_unfolding_all exact of_decide_eq_true rfl) only [bodyOf_add, bodyOf_div, fld_bodyOf, look, Nat.reduceBEq,
      cond_true, cond_false, fb_eq_fld, toNat_field, and_self, one_field, Nat.zero_div]

/-- Words of vec. -/
theorem readsBack_vec (h : decide (i.wordCol = some (.one .vec)) = true) : i.ReadsBack := by
  cases i <;> try contradiction
  case vsqrt | vabs | vneg | vrnd | vmov | vbcast | vtr | vcomp | vexp | vpopc | vclz | vpack | vunpk =>
    all_goals exact .of_fields rfl rfl (reads_one_source rfl)
  case vadd | vsub | vmul | vdiv | vmin | vmax | vsum | vmaxr | vminr | vimul | vand | vor | vxor | vshl | vshr | vsar | vsel =>
    all_goals exact .of_fields rfl rfl (reads_two_sources rfl)
  all_goals refine .of_fields rfl rfl ?_
  case vshape =>
    rw [show parseOf _ _ _ = some _ from rfl]
    simp (disch := with_unfolding_all exact of_decide_eq_true rfl) only [bodyOf_add, bodyOf_div, fld_bodyOf, look, Nat.reduceBEq,
      cond_true, cond_false, fb_eq_fld, toNat_field, and_self]
  all_goals
    rw [show parseOf _ _ _ = Option.bind _ _ from rfl]
    simp (disch := with_unfolding_all exact of_decide_eq_true rfl) only [bodyOf_add, bodyOf_div, fld_bodyOf, look, Nat.reduceBEq,
      cond_true, cond_false, fb_eq_fld, toNat_field, and_self, one_field, boolCode_field, fixedType_field, VSrc.field, VDst.field,
      ElemTy.field, FPred.field, IPred.field, IOpt.field, RedMode.field, PermMode.field, TabSel.field, TabFn.field, maskField_eq,
      maskOf_toNat, slotOf_toNat, Option.bind_some]

/-- Words of acs, mat, cpy or chn, or of the common group. -/
theorem readsBack_other (h : decide (i.wordCol ≠ some (.one .ctl) ∧ i.wordCol ≠ some (.one .vec)) = true) : i.ReadsBack := by
  cases i <;> try contradiction
  all_goals try exact trivial
  all_goals refine .of_fields rfl rfl ?_
  case mgo | mgoQuad | mdrain | mdrainT | mdrainPeer | cp | cpWs | cpCb | cpxHost | cpxPeer | cpxColl | rd | rdL2 =>
    all_goals
      simp (disch := with_unfolding_all exact of_decide_eq_true rfl) only [bodyOf_add, bodyOf_div, fld_bodyOf, look, Nat.reduceBEq,
        cond_true, cond_false, fb_eq_fld, toNat_field, and_self, parse_mgo, parse_mdrain, parse_cp, parse_cpx, parse_rd, one_field,
        two_field, boolCode_field]
  case mplait | mpop | loopf | loope | radv =>
    all_goals
      rw [show parseOf _ _ _ = Option.bind _ _ from rfl]
      simp (disch := with_unfolding_all exact of_decide_eq_true rfl) only [bodyOf_add, bodyOf_div, fld_bodyOf, look, Nat.reduceBEq,
        cond_true, cond_false, fb_eq_fld, toNat_field, and_self, Ring.field, PlaitSel.field, LoopSrc.field, Option.bind_some]
  all_goals
    rw [show parseOf _ _ _ = some _ from rfl]
    simp (disch := with_unfolding_all exact of_decide_eq_true rfl) only [bodyOf_add, bodyOf_div, fld_bodyOf, look, Nat.reduceBEq,
      cond_true, cond_false, fb_eq_fld, toNat_field, and_self, Nat.zero_div, boolCode_field]

theorem readsBack {c : Col} (hwf : i.wf c = true) : i.ReadsBack := by
  by_cases hctl : i.wordCol = some (.one .ctl)
  · exact readsBack_ctl (decide_eq_true hctl) hwf
  · by_cases hvec : i.wordCol = some (.one .vec)
    · exact readsBack_vec (decide_eq_true hvec)
    · exact readsBack_other (decide_eq_true ⟨hctl, hvec⟩)

/-- The opcode and the body of every word of a column read back. -/
theorem parse_fields {c : Col} {k : WordCol} {opc body : Nat} (h : i.fields = some (k, opc, body)) (hk : k = .any ∨ k = .one c)
    (hwf : i.wf c = true) : opc < 2 ^ 8 ∧ body < 2 ^ 40 ∧ parse c opc body = some i := by
  have hreads := readsBack hwf
  rw [Instr.ReadsBack, h] at hreads
  obtain ⟨⟨hopc, hlt⟩, hbody, hparse⟩ := hreads
  exact ⟨hlt, (Nat.div_eq_zero_iff_lt (Nat.two_pow_pos 40)).1 hbody, (parse_eq_parseOf body hk hopc).trans hparse⟩

end

/-! ## Whole words -/

theorem encode_eq_some {c : Col} {x : Code} {w : Nat} : encode c x = some w ↔ ∃ k opc body, x.instr.fields = some (k, opc, body) ∧
    (k = .any ∨ k = .one c) ∧ w = sh x.wait.code 56 + sh x.signal.code 48 + sh opc 40 + body := by
  unfold encode
  constructor
  · intro h
    split at h
    next k opc body hfields =>
      split at h
      next hk =>
        cases h
        exact ⟨k, opc, body, hfields, by simpa using hk, rfl⟩
      · cases h
    · cases h
  · rintro ⟨k, opc, body, hfields, hk, rfl⟩
    simp only [hfields]
    rw [if_pos (by simpa using hk)]

/-- The four fields of a word. -/
theorem fld_word {wt sg opc body w : Nat} (hw : w = sh wt 56 + sh sg 48 + sh opc 40 + body) (hwt : wt < 2 ^ 8) (hsg : sg < 2 ^ 8)
    (hopc : opc < 2 ^ 8) (hbody : body < 2 ^ 40) :
    w < 2 ^ 64 ∧ fld w 56 8 = wt ∧ fld w 48 8 = sg ∧ fld w 40 8 = opc ∧ fld w 0 40 = body := by
  simp only [sh] at hw
  simp only [fld]
  omega

theorem decode_encode {c : Col} {x : Code} {w : Nat} (hwf : x.wf c = true) (h : encode c x = some w) :
    w < 2 ^ 64 ∧ decode c w = .ok x := by
  obtain ⟨k, opc, body, hfields, hk, hw⟩ := encode_eq_some.1 h
  obtain ⟨hwait, hsignal, hinstr⟩ : x.wait.wf c = true ∧ x.signal.wf c = true ∧ x.instr.wf c = true := by
    obtain ⟨hfields_wf, -⟩ := Bool.and_eq_true_iff.1 hwf
    obtain ⟨hwait_signal, hinstr⟩ := Bool.and_eq_true_iff.1 hfields_wf
    obtain ⟨hwait, hsignal⟩ := Bool.and_eq_true_iff.1 hwait_signal
    exact ⟨hwait, hsignal, hinstr⟩
  obtain ⟨hopc, hbody, hparse⟩ := parse_fields hfields hk hinstr
  obtain ⟨hlt, hw56, hw48, hw40, hw0⟩ := fld_word hw x.wait.code_lt x.signal.code_lt hopc hbody
  refine ⟨hlt, ?_⟩
  unfold decode
  simp only [hw56, hw48, hw40, hw0, Wait.ofCode_code hwait, Signal.ofCode_code hsignal, hparse, hwf, h]
  simp

theorem encode_decode {c : Col} {x : Code} {w : Nat} (h : decode c w = .ok x) : x.wf c = true ∧ encode c x = some w := by
  unfold decode at h
  split at h
  · cases h
  · split at h
    · cases h
    · split at h
      · cases h
      · dsimp only at h
        split at h
        · cases h
        next hwf =>
          split at h
          · cases h
          next henc =>
            cases h
            exact ⟨by simpa using hwf, by simpa using henc⟩

/-- Settles O53: the fields of a word's body are placed side by side, so each reads back, and so do the four fields of the word. -/
theorem decodeAndEncodeAgree : Obligations.DecodeAndEncodeAgree := by
  refine ⟨fun c x w hwf h => decode_encode hwf h, fun c x ⟨⟨k, opc, body⟩, hfields, hk⟩ => ?_, fun c x w h => encode_decode h⟩
  exact ⟨_, encode_eq_some.2 ⟨k, opc, body, hfields, hk, rfl⟩⟩

end Sys2Proof
end

section
/-! Words written out from the encoding tables (O54). -/
namespace Sys2Proof

/-- Settles O54: each word is decoded by evaluation. -/
theorem writtenWordsDecode : Obligations.WrittenWordsDecode := by
  unfold Obligations.WrittenWordsDecode
  decide

end Sys2Proof
end

section
/-! What a step does (O55): the choice of the next event or word, stage by stage. -/

namespace Sys2Proof.Machine

/-! ## The first element that meets a condition -/

theorem takeFirst_eq_none {α : Type} {f : α → Bool} {l : List α} : takeFirst f l = none ↔ ∀ x ∈ l, f x = false := by
  induction l with
  | nil => simp [takeFirst]
  | cons x l ih => cases h : f x <;> simp [takeFirst, h, ih]

theorem takeFirst_cons {α : Type} {f : α → Bool} {x : α} (l : List α) (h : f x = true) : takeFirst f (x :: l) = some (x, l) :=
  if_pos h

/-! ## Events of one team -/

section

variable {s : State} {t : Team}

/-- A team with no event has no effect of its beat left. -/
theorem not_due_of_pickTeam (h : s.pickTeam t = none) (ht : t.frozen = false) : ∀ p ∈ t.pend, ¬ p.due ≤ t.clk := by
  have hpend : takeFirst (fun p => decide (p.due ≤ t.clk)) t.pend = none := by
    unfold State.pickTeam at h
    rw [ht] at h
    dsimp only at h
    split at h
    · cases h
    · split at h
      · cases h
      next hnone => exact hnone
  simpa using takeFirst_eq_none.1 hpend

theorem pickFill_of_pickTeam (h : s.pickTeam t = none) : s.pickFill t = none := by
  unfold State.pickFill
  cases ht : t.frozen with
  | true => rfl
  | false =>
    refine (if_neg Bool.false_ne_true).trans (Option.map_eq_none_iff.2 (takeFirst_eq_none.2 fun p hp => ?_))
    exact Bool.and_eq_false_iff.2 (.inl (decide_eq_false (not_due_of_pickTeam h ht p hp)))

theorem pickLanding_of_pickTeam (h : s.pickTeam t = none) : s.pickLanding t = none := by
  unfold State.pickLanding
  cases ht : t.frozen with
  | true => rfl
  | false =>
    refine (if_neg Bool.false_ne_true).trans (Option.map_eq_none_iff.2 (takeFirst_eq_none.2 fun p hp => ?_))
    exact Bool.and_eq_false_iff.2 (.inl (decide_eq_false (not_due_of_pickTeam h ht p hp)))

theorem pickWr_of_chanAction {p : Pc} (h : s.chanAction p .issue = none) : s.pickWr p = none := by
  simp only [State.pickWr, h]

theorem pickTeam_of_pickTeams (h : s.pickTeams = none) : ∀ u ∈ s.teams, s.pickTeam u = none := by
  unfold State.pickTeams at h
  split at h
  · cases h
  next hteams => simpa using hteams

/-- Where no team has an event and no program has a word, nothing of the beat comes before the teams. -/
theorem pickFirst_eq_none (ht : s.pickTeams = none) (hp : ∀ p ∈ s.pcs, s.chanAction p .issue = none) : s.pickFirst = none := by
  have hteam := pickTeam_of_pickTeams ht
  have hfill : s.teams.findSome? s.pickFill = none :=
    List.findSome?_eq_none_iff.2 fun u hu => pickFill_of_pickTeam (hteam u hu)
  have hland : s.teams.findSome? s.pickLanding = none :=
    List.findSome?_eq_none_iff.2 fun u hu => pickLanding_of_pickTeam (hteam u hu)
  have hwr : s.pcs.findSome? s.pickWr = none := List.findSome?_eq_none_iff.2 fun p h => pickWr_of_chanAction (hp p h)
  simp only [State.pickFirst, hfill, hland, hwr]

end

/-! ## The order of the stages -/

section

variable {s : State} {x : Action} (hpkg : s.pickPackage = none) (hs : s.stretched = false) (hh : s.halted = false)
include hpkg hs hh

theorem pick_of_pickFirst (h : s.pickFirst = some x) : s.pick = x := by
  simp [State.pick, hpkg, hs, hh, h]

theorem pick_of_pickTeams (hf : s.pickFirst = none) (h : s.pickTeams = some x) : s.pick = x := by
  simp [State.pick, hpkg, hs, hh, hf, h]

theorem pick_of_pickWord (hf : s.pickFirst = none) (ht : s.pickTeams = none) (h : s.pickWord = some x) : s.pick = x := by
  simp [State.pick, hpkg, hs, hh, hf, ht, h]

end

/-! ## Words -/

/-- The word that the first column in order has to try. -/
theorem pickWord_eq {s : State} {pre post : List Team} {t : Team} {cs ds : List Col} {c : Col} {x : Action}
    (hp : ∀ p ∈ s.pcs, s.chanAction p .issue = none) (hteams : s.teams = pre ++ t :: post) (horder : wordOrder = cs ++ c :: ds)
    (hpre : ∀ u ∈ pre, ∀ d ∈ wordOrder, s.pickColumn u d = none) (hcs : ∀ d ∈ cs, s.pickColumn t d = none)
    (h : s.pickColumn t c = some x) : s.pickWord = some x := by
  have hprog : s.pcs.findSome? (fun p => s.chanAction p .issue) = none := List.findSome?_eq_none_iff.2 hp
  have hcol : wordOrder.findSome? (s.pickColumn t) = some x := List.findSome?_eq_some_iff.2 ⟨cs, c, ds, horder, h, hcs⟩
  simp only [State.pickWord, hprog]
  exact List.findSome?_eq_some_iff.2 ⟨pre, t, post, hteams, hcol, fun u hu => List.findSome?_eq_none_iff.2 (hpre u hu)⟩

theorem eccTrap_of_sick {t : Team} (h : t.sick = []) (n : Nat) (rows : List Nat) : t.eccTrap n rows = none := by
  simp [Team.eccTrap, h]

section

variable {s : State} {t : Team} {c : Col} {ph : Phase}

theorem wordAction_eccTrap {e : Trap} (he : t.eccTrap 8 [(t.col c).base + 8 * ((t.col c).head % (t.col c).size)] = some e)
    (hd : (t.col c).sched .none ≤ t.clock c) :
    s.wordAction t c ph = some (.go (s.raise t (t.wordCur c (t.headWord (t.col c)) ⟨.none, .none, .nop⟩ ph) e)) := by
  simp only [State.wordAction, he, if_pos hd]

theorem wordAction_ok {k : Code} (he : t.eccTrap 8 [(t.col c).base + 8 * ((t.col c).head % (t.col c).size)] = none)
    (hk : decode c (t.headWord (t.col c)) = .ok k) (hd : (t.col c).sched k.wait ≤ t.clock c) :
    s.wordAction t c ph = some (s.doing (t.wordCur c (t.headWord (t.col c)) k ph) (t.resolve k.instr)) := by
  simp only [State.wordAction, he, hk, if_pos hd]

theorem wordAction_error {e : Illegal} (he : t.eccTrap 8 [(t.col c).base + 8 * ((t.col c).head % (t.col c).size)] = none)
    (hk : decode c (t.headWord (t.col c)) = .error e) (hd : (t.col c).sched (illegalWait (t.headWord (t.col c))) ≤ t.clock c) :
    s.wordAction t c ph = some (.go (s.raise t
      (t.wordCur c (t.headWord (t.col c)) ⟨illegalWait (t.headWord (t.col c)), .none, .nop⟩ ph)
      (.illegal, BitVec.ofNat 64 (t.headWord (t.col c))))) := by
  simp only [State.wordAction, he, hk, if_pos hd]

end

theorem stepRunsTheFetchedWord : Sys2Proof.StepRunsTheFetchedWord := by
  intro s pre post t cs ds c hpkg hs hh hevents hp hteams horder hpre hcs htries hstop htried hword x w read
  have hstep : ∀ y, s.wordAction t c .issue = some y → s.pick = y := fun y hy =>
    pick_of_pickWord hpkg hs hh (pickFirst_eq_none hevents hp) hevents
      (pickWord_eq hp hteams horder hpre hcs (by simp [State.pickColumn, htries, hstop, htried, hword, hy]))
  refine ⟨fun h => eccTrap_of_sick h _ _, fun e he hd => ?_, fun k he hk hd => ?_, fun e he hk hd => ?_⟩
  · rw [step, hstep _ (wordAction_eccTrap he hd)]
    rfl
  · rw [step, hstep _ (wordAction_ok he hk hd)]
    rfl
  · rw [step, hstep _ (wordAction_error he hk hd)]
    rfl

/-! ## Events -/

/-- An input of the outside that is due. -/
theorem step_input {s : State} {p : Pend} {l : List Pend} (hk : s.kensia.step = 6) (hi : s.inputs = p :: l) (hd : p.due ≤ s.now)
    (hp : isHostAccess p = false) : step s = exec p.act { s with inputs := l, cur := p.cx } := by
  have hpick : s.pick = ({ s with inputs := l } : State).doing p.cx p.act := by
    simp [State.pick, State.pickPackage, hk, hi, takeFirst, hd, hp]
  rw [step, hpick]
  rfl

section

variable {s : State} {t : Team} {post : List Team} {p : Pend} {l : List Pend} (hteams : s.teams = t :: post)
  (hfrozen : t.frozen = false) (hpend : t.pend = p :: l) (hd : p.due ≤ t.clk)
include hteams hfrozen hpend hd

/-- A fill of the L2 that is due at the first team comes before the other events of the teams. -/
theorem pickFirst_fill {n pa : Nat} {data : BitVec 256} {x y z : Bool} (hact : p.act = .rdL2Fill n pa data x y z) :
    s.pickFirst = some ((s.setTeam { t with pend := l }).doing p.cx p.act) := by
  have hfill : s.teams.findSome? s.pickFill = some ((s.setTeam { t with pend := l }).doing p.cx p.act) := by
    have hfirst : s.pickFill t = some ((s.setTeam { t with pend := l }).doing p.cx p.act) := by
      unfold State.pickFill
      rw [hfrozen, hpend]
      refine Option.map_eq_some_iff.2 ⟨(p, l), takeFirst_cons l (Bool.and_eq_true_iff.2 ⟨decide_eq_true hd, ?_⟩), rfl⟩
      rw [hact]
    rw [hteams, List.findSome?_cons, hfirst]
  simp only [State.pickFirst, hfill]

/-- A landing that is due at the first team comes before the writes of programs. -/
theorem pickFirst_landing (hfill : ∀ u ∈ s.teams, s.pickFill u = none) (hr : p.rank ≤ rankLand) :
    s.pickFirst = some ((s.setTeam { t with pend := l }).doing p.cx p.act) := by
  have hland : s.teams.findSome? s.pickLanding = some ((s.setTeam { t with pend := l }).doing p.cx p.act) := by
    rw [hteams, List.findSome?_cons]
    simp [State.pickLanding, hfrozen, hpend, takeFirst, hd, hr]
  simp only [State.pickFirst, List.findSome?_eq_none_iff.2 hfill, hland]

/-- Another effect that is due at the first team comes next. -/
theorem pickTeams_effect (hh : t.handler = false) (hw : s.takeWaiting t = none) :
    s.pickTeams = some ((s.setTeam { t with pend := l }).doing p.cx p.act) := by
  have hteam : s.teams.findSome? s.pickTeam = some ((s.setTeam { t with pend := l }).doing p.cx p.act) := by
    rw [hteams, List.findSome?_cons]
    simp [State.pickTeam, hfrozen, hpend, takeFirst, hd, hh, hw]
  simp only [State.pickTeams, hteam]

end

/-- With nothing left to do the beat passes. -/
theorem pickLast_headClassification {s : State} (heng : ∀ p ∈ s.agenda, p.due ≤ s.now → isEngineRequest p = false)
    (hplace : s.choose = none) (hdrain : s.needsDrained ++ s.inReserved = [])
    (hrims : (if s.stretched || s.halted then none else s.pickRims) = none)
    (hin : ∀ p ∈ s.inputs, p.due ≤ s.now → isHostAccess p = false) : s.pickLast = s.does [] .headClassification := by
  have heng' : takeFirst (fun p => decide (p.due ≤ s.now) && isEngineRequest p) s.agenda = none :=
    takeFirst_eq_none.2 fun p hp => by simpa using heng p hp
  have hin' : takeFirst (fun p => decide (p.due ≤ s.now) && isHostAccess p) s.inputs = none :=
    takeFirst_eq_none.2 fun p hp => by simpa using hin p hp
  simp only [State.pickLast, heng', hplace, hdrain, hrims, hin']
  rfl

theorem chanAction_of_pickWord {s : State} (h : s.pickWord = none) : ∀ p ∈ s.pcs, s.chanAction p .issue = none := by
  unfold State.pickWord at h
  split at h
  · cases h
  next hprog => simpa using hprog

theorem stepRunsWhatIsDue : Sys2Proof.StepRunsWhatIsDue := by
  refine ⟨fun s p l => step_input, fun s t post p l hpkg hs hh hfill hteams hhand hfrozen hpend hd hnext => ?_,
    fun s t post p l n pa data x y z hpkg hs hh hteams hfrozen hpend hd hact => ?_,
    fun s hpkg hquiet heng hplace hdrain hin => ?_⟩
  · have hpick : s.pick = (s.setTeam { t with pend := l }).doing p.cx p.act := by
      by_cases hr : p.rank ≤ rankLand
      · exact pick_of_pickFirst hpkg hs hh (pickFirst_landing hteams hfrozen hpend hd hfill hr)
      · obtain ⟨hland, hwr, hwait⟩ := hnext.resolve_left hr
        have hfirst : s.pickFirst = none := by
          simp only [State.pickFirst, List.findSome?_eq_none_iff.2 hfill, List.findSome?_eq_none_iff.2 hland,
            List.findSome?_eq_none_iff.2 hwr]
        exact pick_of_pickTeams hpkg hs hh hfirst (pickTeams_effect hteams hfrozen hpend hd hhand hwait)
    rw [step, hpick]
    rfl
  · rw [step, pick_of_pickFirst hpkg hs hh (pickFirst_fill hteams hfrozen hpend hd hact)]
    rfl
  · have hrims : (if s.stretched || s.halted then none else s.pickRims) = none := by
      obtain h | h | ⟨-, -, -, h⟩ := hquiet <;> simp [h]
    have hpick : s.pick = s.pickLast := by
      obtain h | h | ⟨ht, hw, hl, -⟩ := hquiet
      · simp [State.pick, hpkg, h]
      · simp [State.pick, hpkg, h]
      · simp [State.pick, hpkg, pickFirst_eq_none ht (chanAction_of_pickWord hw), ht, hw, hl]
    rw [step, hpick, pickLast_headClassification heng hplace hdrain hrims hin]
    rfl

/-- Settles O55: the stages of a step's choice are taken in order, and the first that has something decides it. -/
theorem stepRunsWhatStands : Obligations.StepRunsWhatStands :=
  ⟨stepRunsTheFetchedWord, stepRunsWhatIsDue⟩

end Sys2Proof.Machine
end

section
/-! Events of a team (O37): what a SIGNAL does when it fires, and what arrives at a team. -/

namespace Sys2Proof.Machine

/-! ## Parts of a team that an event changes -/

theorem tells_eq (t : Team) (c : Col) (id code : Nat) : ∃ l, t.tells c id code = { t with told := l } := by
  unfold Team.tells
  split
  · exact ⟨t.told, rfl⟩
  · exact ⟨_, rfl⟩

theorem hide_eq (t : Team) (cx : Cur) (j : BitVec 5) : ∃ l, t.hide cx j = { t with hidden := l } := by
  unfold Team.hide
  dsimp only
  split
  · exact ⟨_, rfl⟩
  · exact ⟨t.hidden, rfl⟩

/-- An interrupt that is pended sets its bit; it asks for no freeze at level S. -/
theorem pendInt_eq (t : Team) (bit : Word) :
    ∃ f, t.pendInt bit = { t with tip := t.tip ||| bit, freezeReq := f } ∧ (t.svc = true → f = t.freezeReq) := by
  unfold Team.pendInt Team.requestInt
  split
  next htake => exact ⟨_, rfl, fun hsvc => by simp [Team.takeable, hsvc] at htake⟩
  · exact ⟨_, rfl, fun _ => rfl⟩

theorem get_set_fin {α : Type} {w : Nat} (v : Vector α (2 ^ w)) (r : BitVec w) (m : Fin (2 ^ w)) (x : α) :
    (v.set r.toNat x r.isLt).get m = if m = r.toFin then x else v.get m :=
  (get_set_file v r (BitVec.ofFin m) x).trans (if_congr ⟨congrArg BitVec.toFin, congrArg BitVec.ofFin⟩ rfl rfl)

theorem modCnt_eq (t : Team) (j : BitVec 5) (f : Counter → Counter) : ∃ v, t.modCnt j.toNat f = { t with cnt := v } ∧
    ∀ m : Fin 32, v.get m = if m = j.toFin then f (t.cnt.get j.toFin) else t.cnt.get m := by
  refine ⟨_, rfl, fun m => ?_⟩
  simp only [BitVec.ofNat_toNat, BitVec.setWidth_eq]
  exact get_set_fin (w := 5) t.cnt j m _

/-- A counter with room is n more; the others stay. -/
theorem addCnt_room (t : Team) (j : BitVec 5) (n : Nat) (h : (t.cnt.get j.toFin).val.toNat + n < 2 ^ 32) :
    ∃ v, t.addCnt j n = { t with cnt := v } ∧
      ∀ m : Fin 32, (v.get m).val.toNat = (t.cnt.get m).val.toNat + (if m = j.toFin then n else 0) := by
  obtain ⟨v, heq, hget⟩ := modCnt_eq t j fun c => { c with val := BitVec.ofNat 32 ((t.cnt.get j.toFin).val.toNat + n) }
  refine ⟨v, by rw [Team.addCnt, if_pos h, heq], fun m => ?_⟩
  rw [hget]
  split
  next hm => rw [hm, BitVec.toNat_ofNat, Nat.mod_eq_of_lt h]
  · rfl

/-- A counter without room stays at its largest value, and its team traps. -/
theorem addCnt_over (t : Team) (j : BitVec 5) (n : Nat) (h : 2 ^ 32 ≤ (t.cnt.get j.toFin).val.toNat + n) :
    ∃ v, t.addCnt j n = ({ t with cnt := v } : Team).pendTeamTrap .counterOver (j.setWidth 64) ∧
      (v.get j.toFin).val.toNat = 2 ^ 32 - 1 := by
  obtain ⟨v, heq, hget⟩ := modCnt_eq t j fun c => { c with val := BitVec.allOnes 32 }
  refine ⟨v, by rw [Team.addCnt, if_neg (Nat.not_lt.2 h), heq], ?_⟩
  rw [hget, if_pos rfl]
  rfl

/-- A trap stops its column. -/
theorem pendTrap_stopped {t : Team} {c : Col} (hc : c ≠ .chn) {pos n : Nat} {k : Cause} {v aux : Word} :
    ((t.pendTrap c pos k v aux n).col c).stopped = true := by
  have hcols : (t.pendTrap c pos k v aux n).cols = (t.modCol c fun x => { x with stopped := true }).cols := by
    simp only [Team.pendTrap, if_neg hc]
  rw [Team.col, hcols]
  simp [Team.modCol, Team.setCol]

/-! ## Signals -/

theorem getLsbD_one_shift (f : BitVec 5) (i : Nat) : ((1 : BitVec 32) <<< f.toNat).getLsbD i = decide (i = f.toNat) := by
  rw [BitVec.getLsbD_shiftLeft]
  by_cases h : i = f.toNat
  · subst h
    simp [f.isLt]
  · simp [h]
    omega

theorem getLsbD_set_flag (x : BitVec 32) (f : BitVec 5) (i : Nat) :
    (x ||| (1 : BitVec 32) <<< f.toNat).getLsbD i = (decide (i = f.toNat) || x.getLsbD i) := by
  rw [BitVec.getLsbD_or, getLsbD_one_shift, Bool.or_comm]

theorem getLsbD_clear_flag (x : BitVec 32) (f : BitVec 5) (i : Nat) :
    (x &&& ~~~((1 : BitVec 32) <<< f.toNat)).getLsbD i = (decide (i ≠ f.toNat) && x.getLsbD i) := by
  rw [BitVec.getLsbD_and, BitVec.getLsbD_not, getLsbD_one_shift]
  by_cases h : i < 32
  · simp [h, Bool.and_comm]
  · simp [BitVec.getLsbD_of_ge x i (by omega)]

section

variable (s : State) (t : Team) (cx : Cur)

/-- A SIGNAL of a flag sets it. -/
theorem fire_flag {f : BitVec 5} {n : Nat} {e : SigEvent} (he : e = .code (.flag f) ∨ e = .count (.flag f) n) :
    ∃ l, s.fire t cx e = s.setTeam { t with flags := t.flags ||| (1 : BitVec 32) <<< f.toNat, told := l } := by
  obtain ⟨l, hl⟩ := tells_eq t cx.col cx.id (Wait.flag f).code
  refine ⟨l, ?_⟩
  obtain rfl | rfl := he <;> simp only [State.fire, waitCodeOf, hl]

/-- A SIGNAL of a counter adds to it, where there is room. -/
theorem fire_cnt {j : BitVec 5} {n : Nat} {e : SigEvent} (he : e = .count (.cnt j) n ∨ n = 1 ∧ e = .code (.cnt j))
    (h : (t.cnt.get j.toFin).val.toNat + n < 2 ^ 32) : ∃ l m v, s.fire t cx e = s.setTeam { t with cnt := v, told := l, hidden := m } ∧
      ∀ m : Fin 32, (v.get m).val.toNat = (t.cnt.get m).val.toNat + (if m = j.toFin then n else 0) := by
  obtain ⟨l, hl⟩ := tells_eq t cx.col cx.id (Wait.cnt j).code
  obtain rfl | ⟨rfl, rfl⟩ := he
  · obtain ⟨v, hv, hcnt⟩ := addCnt_room { t with told := l } j n h
    exact ⟨l, t.hidden, v, by simp only [State.fire, waitCodeOf, hl, hv], hcnt⟩
  · obtain ⟨m, hm⟩ := hide_eq { t with told := l } cx j
    obtain ⟨v, hv, hcnt⟩ := addCnt_room { t with told := l, hidden := m } j 1 h
    exact ⟨l, m, v, by simp only [State.fire, waitCodeOf, hl, hm, hv], hcnt⟩

/-- A SIGNAL of a link sends its increment to the counter that the link names. -/
theorem fire_link {j : BitVec 5} {n : Nat} {e : SigEvent} (hn : 0 < n) (he : e = .count (.link j) n ∨ n = 1 ∧ e = .code (.link j)) :
    s.fire t cx e = s.fireLink t cx j n := by
  obtain rfl | ⟨rfl, rfl⟩ := he
  · exact if_neg hn.ne'
  · rfl

theorem readyToks_eq (src dst : Col) (id : Nat) (l : List Tok) :
    readyToks src dst id l = l.map fun k => if k.src = src ∧ k.dst = dst ∧ k.id = id then { k with ready := true } else k := by
  simp [readyToks, and_assoc]

end

/-! ## Events -/

section

variable {s : State} {t : Team} (h : s.team s.cur.cid = some t)
include h

/-- A SIGNAL fires once no earlier access of its path is left to perform. -/
theorem signalFire_fires {e : SigEvent} (he : e = .code .none ∨ t.accessBefore s.cur.col s.cur.id = false) :
    exec (.signalFire e) s = .next (s.fire t s.cur e) := by
  refine (onTeam_live h _).trans ?_
  obtain rfl | he := he
  · rfl
  · simp [he]

theorem signalFire_waits (hb : t.accessBefore s.cur.col s.cur.id = true) {e : SigEvent} (he : e ≠ .code .none) :
    exec (.signalFire e) s = .next (s.setTeam { t with waiting := t.waiting ++ [⟨0, rankEvent e, s.cur, .signalFire e⟩] }) := by
  refine (onTeam_live h _).trans ?_
  simp [hb, he]

theorem linkIncrement_room {j : BitVec 5} {n : Nat} (hroom : (t.cnt.get j.toFin).val.toNat + n < 2 ^ 32) :
    ∃ t', exec (.linkIncrementArrives j n) s = .next (s.setTeam t') ∧
      (∀ m : Fin 32, (t'.cnt.get m).val.toNat = (t.cnt.get m).val.toNat + (if m = j.toFin then n else 0)) ∧
      t' = { t with cnt := t'.cnt } := by
  obtain ⟨v, hv, hcnt⟩ := addCnt_room t j n hroom
  exact ⟨_, (onTeam_live h _).trans (by rw [hv]), hcnt, rfl⟩

theorem linkIncrement_over {j : BitVec 5} {n : Nat} (hover : 2 ^ 32 ≤ (t.cnt.get j.toFin).val.toNat + n) :
    ∃ t', exec (.linkIncrementArrives j n) s = .next (s.setTeam t') ∧ (t'.cnt.get j.toFin).val.toNat = 2 ^ 32 - 1 ∧
      t'.traps = t.traps ++ [⟨.chn, 0, 6 * 256 + Cause.counterOver.code, j.setWidth 64, t.clk, 0, 0⟩] ∧
      t' = { t with cnt := t'.cnt, traps := t'.traps, freezeReq := earlier t.freezeReq t.clk } := by
  obtain ⟨v, hv, hcnt⟩ := addCnt_over t j n hover
  exact ⟨_, (onTeam_live h _).trans (by rw [hv]), hcnt, rfl, rfl⟩

theorem barrierObserved (b : BitVec 3) (g : Nat) : ∃ t', exec (.barrierCompletionObserved b g) s = .next (s.setTeam t') ∧
    (∀ m : Fin 8, (t'.bars.get m).seen = if m = b.toFin then max (t.bars.get m).seen g else (t.bars.get m).seen) ∧
    t' = { t with bars := t'.bars } := by
  refine ⟨_, onTeam_live h _, fun m => ?_, rfl⟩
  refine (congrArg Barrier.seen (get_set_fin (w := 3) t.bars b m _)).trans ?_
  split
  next hm => rw [hm]
  · rfl

theorem timerInterrupt_pends : ∃ t', exec .timerInterruptPend s = .next (s.setTeam t') ∧ t'.tip = t.tip ||| 2 ∧
    t' = { t with tip := t'.tip, freezeReq := t'.freezeReq } ∧ (t.svc = true → t'.freezeReq = t.freezeReq) := by
  obtain ⟨f, hf, hsvc⟩ := pendInt_eq t 2
  exact ⟨{ t with tip := t.tip ||| 2, freezeReq := f }, (onTeam_live h _).trans (by rw [← hf]; rfl), rfl, rfl, hsvc⟩

theorem emptyRing_traps (hsvc : t.inSvc s.cur.col = false) (hph : s.cur.phase = .issue ∨ s.cur.phase = .final)
    (hcol : s.cur.col ≠ .chn) :
    ∃ t', exec .emptyRingFault s = .next (s.setTeam t') ∧
      t'.traps = t.traps ++ [⟨s.cur.col, s.cur.pos, tcauseOf s.cur.col .schedule, s.beatOf t,
        (t.col s.cur.col).sched s.cur.wait, 0, s.cur.pos⟩] ∧
      (t'.col s.cur.col).stopped = true := by
  refine ⟨t.pendTrap s.cur.col s.cur.pos .schedule (s.beatOf t) 0 ((t.col s.cur.col).sched s.cur.wait),
    (onTeam_live h _).trans ?_, ?_, ?_⟩
  · obtain hph | hph := hph <;> simp [State.raise, State.raiseAt, hph, hsvc]
  · simp [Team.pendTrap, hcol]
  · exact pendTrap_stopped hcol

end

theorem peerInterrupt_pends {s : State} {u : Team} {job ord core : Nat} (h : s.teamNamed job ord core = some u) :
    ∃ t', exec (.peerInterruptFrame job ord core) s = .next (s.setTeam t') ∧ t'.tip = u.tip ||| 4 ∧
      t' = { u with tip := t'.tip, freezeReq := t'.freezeReq } := by
  obtain ⟨f, hf, -⟩ := pendInt_eq u 4
  have hrun : execPeerInterruptFrame job ord core s = .next (s.setTeam (u.pendInt 4)) := by simp only [execPeerInterruptFrame, h]
  exact ⟨{ u with tip := u.tip ||| 4, freezeReq := f }, hrun.trans (by rw [hf]), rfl, rfl⟩

theorem peerInterrupt_nobody {s : State} {job ord core : Nat} (h : s.teamNamed job ord core = none) :
    exec (.peerInterruptFrame job ord core) s = .next s :=
  show execPeerInterruptFrame job ord core s = .next s by simp only [execPeerInterruptFrame, h]

/-- The overdue hoop of a group traps in its teams, and in no other. -/
theorem hoopOverdue_traps (s : State) (g : Group) : ∃ s' : State, exec (.hoopOverdue g) s = .next s' ∧
    s'.teams.length = s.teams.length ∧ ∀ u ∈ s.teams, (u.inGroup g = false → u ∈ s'.teams) ∧
      (u.inGroup g = true → ∃ v ∈ s'.teams, v.cid = u.cid ∧ v.s = u.s ∧
        v.traps = u.traps ++ [⟨.chn, 0, 6 * 256 + Cause.hoopOverdue.code, u.lastPulse, u.clk, 0, 0⟩]) := by
  refine ⟨_, rfl, List.length_map _, fun u hu => ⟨fun hg => ?_, fun hg => ?_⟩⟩
  · exact List.mem_map.2 ⟨u, hu, by rw [hg]; rfl⟩
  · exact ⟨_, List.mem_map_of_mem hu, by rw [hg]; exact ⟨rfl, rfl, rfl⟩⟩

/-- Settles O37: each event is what it does to the parts of its team. -/
theorem teamEventsComplete : Obligations.TeamEventsComplete := by
  intro s t h
  refine ⟨fun e => signalFire_fires h, rfl, fun f n e he => ?_, fun f n e he => ?_, fun dst n => ?_, fun j n hn e he => ?_,
    fun hb e => signalFire_waits h hb, fun j n hroom r hr => ?_, fun j n => linkIncrement_room h, fun j n => linkIncrement_over h,
    barrierObserved h, timerInterrupt_pends h, fun job ord core u => peerInterrupt_pends, fun job ord core => peerInterrupt_nobody,
    emptyRing_traps h, hoopOverdue_traps s⟩
  · obtain ⟨l, hl⟩ := fire_flag s t s.cur (List.mem_pair.1 he)
    exact ⟨_, hl, getLsbD_set_flag t.flags f, rfl⟩
  · obtain rfl | rfl := List.mem_pair.1 he
    all_goals exact ⟨_, rfl, getLsbD_clear_flag t.flags f, rfl⟩
  · exact ⟨_, rfl, rfl, readyToks_eq _ _ _ _⟩
  · refine fire_link s t s.cur hn ?_
    by_cases hn1 : n = 1 <;> simpa [hn1] using he
  · have hevent : ∃ e, (e = .count (.cnt j) n ∨ n = 1 ∧ e = .code (.cnt j)) ∧ r = s.fire t s.cur e := by
      by_cases hn1 : n = 1 <;> simpa [hn1, or_and_right, exists_or] using hr
    obtain ⟨e, he, rfl⟩ := hevent
    obtain ⟨l, m, v, hfire, hcnt⟩ := fire_cnt s t s.cur he hroom
    exact ⟨_, hfire, hcnt, rfl⟩

end Sys2Proof.Machine
end

section
/-! Modular words (O28): the elementwise ones, VMRED, the butterflies and VMSET, and the trap of a word with a residue out of range. -/

namespace Sys2Proof.Machine

/-! ## Residues (R207) -/

/-- A natural number and an integer of one residue class have one residue. -/
theorem mod_eq_toNat_emod {q n : ℕ} {z : ℤ} (h : (n : ℤ) ≡ z [ZMOD q]) : n % q = (z % q).toNat := by
  rw [← h.eq, ← Int.natCast_emod, Int.toNat_natCast]

theorem mul_mod_eq_toNat (q x y : ℕ) : x * y % q = ((x * y : ℤ) % q).toNat := mod_eq_toNat_emod (by rw [Nat.cast_mul])

theorem add_mod_eq_toNat (q x y : ℕ) : (x + y) % q = ((x + y : ℤ) % q).toNat := mod_eq_toNat_emod (by rw [Nat.cast_add])

section Subtractor

variable {q : ℕ} (hq : 0 < q)
include hq

/-- The subtractor adds q - y mod q, which is in the class of -y. -/
theorem modEq_sub (x y : ℕ) : ((x + (q - y % q) : ℕ) : ℤ) ≡ x - y [ZMOD q] := by
  have hle : y % q ≤ q := (Nat.mod_lt y hq).le
  have hclass : (q : ℤ) - (y % q : ℕ) ≡ 0 - y [ZMOD q] :=
    (Int.modEq_zero_iff_dvd.2 dvd_rfl).sub (by rw [Int.natCast_emod]; exact Int.mod_modEq ..)
  simpa [Nat.cast_sub hle, sub_eq_add_neg] using hclass.add_left (x : ℤ)

theorem sub_mod_eq_toNat (x y : ℕ) : (x + (q - y % q)) % q = ((x - y : ℤ) % q).toNat := mod_eq_toNat_emod (modEq_sub hq x y)

theorem sub_mul_mod_eq_toNat (x y z : ℕ) : (x + (q - y % q)) * z % q = (((x - y) * z : ℤ) % q).toNat :=
  mod_eq_toNat_emod (by rw [Nat.cast_mul]; exact (modEq_sub hq x y).mul_right z)

end Subtractor

/-- The bits of an element read as a signed integer are those of a bit vector of its width. -/
theorem readInt_signed (w x : ℕ) : readInt w false x = sx w x := by
  have hsign : decide (x % 2 ^ w / 2 ^ (w - 1) % 2 = 1) = (BitVec.ofNat w x).msb := by
    rw [BitVec.msb_eq_getLsbD_last, BitVec.getLsbD, BitVec.toNat_ofNat, Nat.testBit_eq_decide_div_mod_eq]
  simp [readInt, sx, BitVec.toInt_eq_msb_cond, hsign]

/-! ## The issue of a word of vec, and the trap of its operands (R176, R181) -/

theorem vecReg_sends {i : Instr} {x : VSpec} {d : VDst} {out : Team → VOut} (hi : ∀ s, exec i s = vecReg s x d out) :
    Sends i x (.reg d 0) (fun _ => .same) out := by
  intro s t _ hmay
  rw [hi]
  exact runWord_completes hmay rfl

theorem sends_congr {i : Instr} {x : VSpec} {d : SliceDst} {lm : Team → LatMode} {out out' : Team → VOut}
    (h : Sends i x d lm out) (hout : ∀ t, out t = out' t) : Sends i x d lm out' := funext hout ▸ h

theorem vecWrite_completes {s : State} {t : Team} {i : Instr} {x : VSpec} {w : Team → RegWrite} (hi : exec i s = vecWrite s x w) :
    Completes s t { x.gate none (s.atIssue t) (t.seen s.cur) with occ := x.occ } i (vecWriteEffect x w) := by
  intro hmay
  rw [hi]
  exact runWord_completes hmay rfl

/-- Two results without exceptions are the same if their elements' values are. -/
theorem elemOut_congr {t : Team} {w n : ℕ} {m : Mask} {taint : ℕ → ℕ → Bool} {f g : ℕ → ℕ → ℕ}
    (h : ∀ y e, f y e = g y e) :
    elemOut t w n m taint (fun y e => (f y e, 0)) = elemOut t w n m taint fun y e => (g y e, 0) := by
  rw [funext₂ h]

/-- A word that could issue but for a check of its operands takes the trap of that check, before its schedule fault. -/
theorem runWord_operandTrap {s : State} {t : Team} {g : Gate} {gate : State → Team → Gate} {eff : State → Team → State} {x : Trap}
    (h : MayIssue s t { g with range := none, late := none }) (hg : gate (s.atIssue t) (t.seen s.cur) = g) (hx : g.range = some x) :
    runWord s gate eff = .next ((s.atIssue t).raise t (s.curAt t) x) := by
  obtain ⟨live, -, hplain, hlevel, hdeny, hsync, hport, hwait, hroom, hregs, hmode, hstall, hunder, hfault, -, -, -⟩ := h
  have hcan : t.canIssue (s.curAt t) g = true := by
    cases hreject : g.reject <;> simp_all [Team.canIssue, State.curAt]
  have hjudge : t.judge (s.beatOf t) (s.curAt t) g = .trap x := by
    unfold Team.judge
    cases hsvc : g.svc <;> simp_all [State.curAt]
  simp only [runWord, runWordN, live, hg, hjudge]

theorem missing_seen (t : Team) (cx : Cur) (l : List VSrc) : missing (t.seen cx) l = missing t l := by
  unfold missing Team.qAt
  rw [seen_q]

/-- A word of vec whose description has no bound, whose queue operands are present and whose w queue has room, takes the trap of its
operands. -/
theorem vecReg_operandTrap {s : State} {t : Team} {i : Instr} {x : VSpec} {d : VDst} {out : Team → VOut} {e : Trap}
    (hi : exec i s = vecReg s x d out) (hmay : MayIssue s t {}) (hin : missing t x.ins = none)
    (hroom : ∀ q, d = .w q → (t.wAt q).length < 4) (hbound : x.bound = fun _ => none) (he : x.range (t.seen s.cur) = some e) :
    exec i s = .next ((s.atIssue t).raise t (s.curAt t) e) := by
  have hgate : MayIssue s t { x.gate (some d) (s.atIssue t) (t.seen s.cur) with range := none, late := none } :=
    { hmay with
      stall := by
        cases d with
        | w q => simpa [VSpec.gate, full, Team.wAt] using hroom q rfl
        | v r | o r | lat => rfl
      under := (missing_seen ..).trans hin
      fault := by simp [VSpec.gate, hbound] }
  rw [hi]
  exact runWord_operandTrap hgate rfl (by simpa [VSpec.gate, hbound] using he)

/-! ## The words (R207 to R216) -/

theorem modularWordsComplete : ModularWordsComplete := by
  intro d a b ms ty m
  refine ⟨?elementwise, ?vmmac, ?vmred⟩
  case elementwise =>
    simp only [modularWords, List.forall_mem_cons, List.not_mem_nil, false_implies, implies_true, and_true]
    exact ⟨⟨_, vecReg_sends fun _ => rfl, fun t hq => elemOut_congr fun y e => mul_mod_eq_toNat ..⟩,
      ⟨_, vecReg_sends fun _ => rfl, fun t hq => elemOut_congr fun y e => add_mod_eq_toNat ..⟩,
      ⟨_, vecReg_sends fun _ => rfl, fun t hq => elemOut_congr fun y e => sub_mod_eq_toNat (hq y) ..⟩⟩
  case vmmac => exact sends_congr (vecReg_sends fun _ => rfl) fun t => elemOut_congr fun y e => add_mod_eq_toNat ..
  case vmred =>
    simp only [List.forall_mem_cons, List.not_mem_nil, false_implies, implies_true, and_true]
    refine ⟨vecReg_sends fun _ => rfl, sends_congr (vecReg_sends fun _ => rfl) fun t => elemOut_congr fun y e => ?_,
      vecReg_sends fun _ => rfl, sends_congr (vecReg_sends fun _ => rfl) fun t => elemOut_congr fun y e => ?_⟩
    all_goals
      dsimp only
      rw [Bool.not_true, readInt_signed]
      rfl

theorem setRows_eq (a : VSrc) (ty : ElemTy) (m : Mask) (t : Team) :
    setRows a ty m t = ((List.range t.rows).filter fun y => t.enabled m y 0).map fun y => (y, t.read ty a y 0) := by
  rw [← List.filterMap_eq_map, List.filterMap_filter]
  rfl

theorem butterflyAndSetWordsComplete : ButterflyAndSetWordsComplete := by
  intro d a b ms k ty m
  constructor
  · simp only [List.forall_mem_cons, List.not_mem_nil, false_implies, implies_true, and_true]
    refine ⟨⟨_, vecReg_sends fun _ => rfl, fun t hq => elemOut_congr fun y e => ?vbfly⟩,
      ⟨_, vecReg_sends fun _ => rfl, fun t hq => elemOut_congr fun y e => ?vibfly⟩⟩
    all_goals rw [apply_ite Int.toNat]
    case vbfly => exact if_congr Iff.rfl (add_mod_eq_toNat ..) (sub_mod_eq_toNat (hq y) ..)
    case vibfly => exact if_congr Iff.rfl (add_mod_eq_toNat ..) (sub_mul_mod_eq_toNat (hq y) ..)
  · intro s t _ x
    have hmodel := vecWrite_completes (s := s) (t := t) (i := .vmset ms a ty m) rfl
    simp only [setRows_eq, List.map_map] at hmodel
    exact hmodel

/-- Both checks of a modular word raise the modular trap (R209). -/
theorem modTrap_modular {ms : BitVec 3} {ty : ElemTy} {fields : List (VSrc × Nat × (Team → Nat → Nat → Bool))} {t : Team} {x : Trap}
    (h : modTrap ms ty fields t = some x) : x.1 = .modular := by
  obtain hentry | ⟨-, hrange⟩ := (Option.orElse_eq_some ..).1 h
  · obtain ⟨y, -, rfl⟩ := Option.map_eq_some_iff.1 hentry
    rfl
  · obtain ⟨f, -, hf⟩ := List.exists_of_findSome?_eq_some hrange
    obtain ⟨i, -, rfl⟩ := Option.map_eq_some_iff.1 hf
    rfl

theorem residueOutOfRangeTraps : ResidueOutOfRangeTraps := by
  intro s t d a b ms ty m x _ hmay hin hroom on hx
  refine ⟨modTrap_modular hx, ?_⟩
  simp only [List.forall_mem_cons, List.not_mem_nil, false_implies, implies_true, and_true]
  refine ⟨?vmmul, ?vmadd, ?vmsub⟩
  all_goals exact vecReg_operandTrap rfl hmay hin hroom rfl hx

/-- Settles O28: a word's result agrees element by element, as the model's arithmetic on natural numbers is that of the residue
classes, and a word whose operand check fails takes the trap of that check. -/
theorem modularAndButterflyComplete : Obligations.ModularAndButterflyComplete :=
  ⟨modularWordsComplete, butterflyAndSetWordsComplete, residueOutOfRangeTraps⟩

end Sys2Proof.Machine
end

section
/-! Words of mat (O30): their issue into the engine queue, the drains with their records, and MZERO at its beats. -/

namespace Sys2Proof.Machine

/-- A WAIT of mat acquires nothing, so that a word of mat sees its team as it stands (R349). -/
theorem seen_mat {t : Team} {cx : Cur} (h : cx.col = .mat) : t.seen cx = t := by
  simp [Team.seen, Team.acquire, h, pathOf]

/-- A word of mat whose gate holds nothing against it takes its effect on the team past it. -/
theorem runWord_mat {s : State} {t : Team} {gate : State → Team → Gate} {eff : State → Team → State} (hmay : MayIssue s t {})
    (hcol : s.cur.col = .mat) (hgate : gate (s.atIssue t) t = {}) : runWord s gate eff = .next (eff (s.atIssue t) (s.past t 1)) := by
  rw [runWord_completes hmay]
  rw [seen_mat hcol, hgate]

/-- The gate of a word for which the queue has room. -/
theorem queueGate_open {t : Team} (h : t.queued < 4) : queueGate t none none = {} := by
  simp [queueGate, Nat.not_le.2 h]

theorem granTrap_of_good {t : Team} {g n : ℕ} (h : t.granulesBad g n = false) : granTrap t g n = none := by
  simp [granTrap, h]

@[simp] theorem past_formatAhead (s : State) (t : Team) (n : ℕ) : (s.past t n).formatAhead = t.formatAhead := by
  simp [Team.formatAhead]

@[simp] theorem past_taken (s : State) (t : Team) (n : ℕ) : (s.past t n).taken = t.taken := by
  simp [Team.taken]

/-- A tile's row groups, 16 rows each. -/
theorem rows_div (m : ℕ) : 16 * (m + 1) / 16 = m + 1 := by omega

section Words

variable {s : State} {t : Team} (hcol : s.cur.col = .mat) (hroom : t.queued < 4)
include hcol hroom

theorem mgo_joins (g : BitVec 5) (hearly : earlyRead (s.atIssue t) t [.shadow 0, .shadow 1, .shadow 2] = none) :
    ∀ i ∈ [Instr.mgo g, .mgoQuad g], Completes s t {} i fun s' t' => s'.setTeam (joins t' s'.cur i t.taken []) := by
  simp only [List.forall_mem_cons, List.not_mem_nil, false_implies, implies_true, and_true]
  constructor
  all_goals
    intro hmay
    dsimp only [exec]
  · rw [execMgo, runWord_mat hmay hcol (by rw [hearly, queueGate_open hroom]), past_taken]
    rfl
  · rw [execMgoQuad, runWord_mat hmay hcol (by rw [hearly, queueGate_open hroom]), past_taken]
    rfl

theorem mop_joins (g : BitVec 5) (z : Bool) (ia ib : BitVec 4) (hactive : t.willBeActive = true) (hgran : t.granulesBad g.toNat 1 = false) :
    Completes s t {} (.mop g z ia ib) fun s' t' =>
      s'.setTeam (joins t' s'.cur (.mop g z ia ib) { t.taken with fmt := t.formatAhead, nest := none } []) := by
  intro hmay
  dsimp only [exec]
  rw [execMop, runWord_mat hmay hcol (by rw [granTrap_of_good hgran, hactive, if_pos rfl, queueGate_open hroom]), past_taken,
    past_formatAhead]
  rfl

theorem mzero_joins (g n : BitVec 5) (hgran : t.granulesBad g.toNat (n.toNat + 1) = false) :
    Completes s t {} (.mzero g n) fun s' t' => s'.setTeam (joins t' s'.cur (.mzero g n) t.taken []) := by
  intro hmay
  dsimp only [exec]
  unfold execMzero
  dsimp only
  split
  next h => exact absurd h hmay.first.1
  next h => exact absurd h hmay.first.2
  next =>
    rw [runWord_mat hmay hcol (by rw [granTrap_of_good hgran, queueGate_open hroom]), past_taken]
    rfl

theorem mchk_joins (a : SReg) (hwrite : writeTrap t (t.getS a).v = none) (hearly : earlyRead (s.atIssue t) t (sReads [a]) = none) :
    Completes s t {} (.mchk a) fun s' t' =>
      s'.setTeam (joins t' { s'.cur with args := [(t.getS a).v.toNat] } (.mchk a) t.taken []) := by
  intro hmay
  dsimp only [exec]
  rw [execMchk, if_neg hmay.first.1, runWord_mat hmay hcol (by rw [hwrite, hearly]; exact queueGate_open hroom), past_taken,
    past_getS]
  rfl

theorem mdrainPeer_joins (g : BitVec 5) (a : SReg) (m : BitVec 5) (n : BitVec 4) (q : BitVec 12)
    (hbase : t.granulesBad g.toNat 1 = false)
    (hgran : t.granulesBad g.toNat (tileGranules (16 * (m.toNat + 1)) (16 * (n.toNat + 1)) (fmtAcc t.formatAhead)) = false)
    (hpeer : (s.atIssue t).peerTrap t (t.col .mat).timed (t.getS a).v
      (tileGranules (16 * (m.toNat + 1)) (16 * (n.toNat + 1)) (fmtAcc t.formatAhead)) = none)
    (hearly : earlyRead (s.atIssue t) t (sReads [a]) = none) :
    Completes s t {} (.mdrainPeer g a m n q) fun s' t' =>
      (s'.setTeam (joins t' { s'.cur with args := [(t.getS a).v.toNat] } (.mdrainPeer g a m n q)
        { t.taken with fmt := t.formatAhead, nest := none } [])).expect t' s'.cur.timed s'.cur.id (m.toNat + 1) (t.getS a).v.toNat := by
  intro hmay
  dsimp only [exec]
  rw [execMdrainPeer, runWord_mat hmay hcol (by
    dsimp only
    rw [granTrap_of_good hbase, granTrap_of_good hgran, hpeer, hearly]
    exact queueGate_open hroom),
    past_taken, past_formatAhead, past_getS, rows_div]
  rfl

end Words

theorem engineWordsJoinTheQueue : EngineWordsJoinTheQueue := by
  intro s t g hcol hroom
  dsimp only
  rw [seen_mat hcol]
  exact ⟨mgo_joins hcol hroom g, mop_joins hcol hroom g, mzero_joins hcol hroom g, mchk_joins hcol hroom,
    mdrainPeer_joins hcol hroom g⟩

/-! ## MDRAIN and MDRAIN.T -/

@[simp] theorem expect_cur (s : State) (t : Team) (timed : Bool) (id count core : ℕ) :
    (s.expect t timed id count core).cur = s.cur := by
  unfold State.expect
  split
  · rfl
  · split <;> rfl

/-- Expecting keeps the context, so a drain's word expects in each of its records what the context at its issue says. -/
theorem foldl_expect_cur (t : Team) (rows : ℕ) (cx : Cur) (l : List (Layout × ℕ)) {s : State} (h : s.cur = cx) :
    l.foldl (fun s x => if x.1.loc = 1 then s.expect t s.cur.timed s.cur.id (if x.2 = 0 then rows else 1) x.1.core else s) s =
      l.foldl (fun s x => if x.1.loc = 1 then s.expect t cx.timed cx.id (if x.2 = 0 then rows else 1) x.1.core else s) s := by
  induction l generalizing s with
  | nil => rfl
  | cons x l ih =>
    rw [List.foldl_cons, List.foldl_cons, h]
    refine ih ?_
    split
    · rw [expect_cur, h]
    · exact h

/-- What a drain's word takes from its records and from the format in force. -/
def drainCfg (t : Team) : MatCfg := ⟨t.formatAhead, t.mringA, t.mringB, 0, 0, [], none, none⟩

theorem drainWord_joins {s : State} {t : Team} (hcol : s.cur.col = .mat) (hroom : t.queued < 4) {g m n : ℕ} (a : SReg) (b : Option SReg)
    (i : Instr) (hi : exec i s = drainWord s g m n a b i) (hbase : t.granulesBad g 1 = false)
    (hearly : ∀ l, drainRecs (s.atIssue t) t g m n a b = .ok l →
      earlyRead (s.atIssue t) t (sReads (a :: b.toList) ++ l.flatMap bankReads) = none)
    (hplan : trapOf (drainRecs (s.atIssue t) t g m n a b) = none)
    (hsealed : ∀ r ∈ a :: b.toList, t.unsealed (t.col .mat).timed (t.getS r).v.toNat 64 = false)
    {l : List Layout} (hl : drainRecs (s.atIssue t) (s.past t 1) g m n a b = .ok l) :
    Completes s t {} i fun s' t' => l.zipIdx.foldl
      (fun s x => if x.1.loc = 1 then s.expect t' s'.cur.timed s'.cur.id (if x.2 = 0 then m / 16 else 1) x.1.core else s)
      (s'.setTeam (joins ((a :: b.toList).foldl (fun u r => u.readEcc 64 [(t.getS r).v.toNat]) t') s'.cur i (drainCfg t) l)) := by
  intro hmay
  have hopen : ((a :: b.toList).any fun r =>
      (dwordTrap t (t.getS r).v.toNat 64).isNone && t.unsealed (t.col .mat).timed (t.getS r).v.toNat 64) = false := by
    rw [List.any_eq_false]
    intro r hr
    simp [hsealed r hr]
  cases hrecs : drainRecs (s.atIssue t) t g m n a b with
  | error e => simp [hrecs, trapOf] at hplan
  | ok recs =>
    rw [hi, drainWord, runWord_mat hmay hcol]
    · dsimp only
      rw [hl]
      dsimp only
      rw [foldl_expect_cur _ _ (s.curAt t) _ rfl]
      simp only [past_getS, past_taken, past_formatAhead]
      rfl
    · dsimp only
      rw [hrecs]
      dsimp only [trapOf]
      rw [hearly recs hrecs, granTrap_of_good hbase, hopen, Bool.or_false]
      exact queueGate_open hroom

theorem drainWordsJoinTheQueue : DrainWordsJoinTheQueue := by
  intro s t g a b m n hcol hroom hbase p hp
  dsimp only
  rw [seen_mat hcol]
  obtain rfl | rfl := List.mem_pair.1 hp
  all_goals
    intro hearly hplan hsealed l hl
    rw [← rows_div]
  · exact drainWord_joins hcol hroom a none (.mdrain g a m n) rfl hbase hearly hplan hsealed hl
  · exact drainWord_joins hcol hroom a (some b) (.mdrainT g a b m n) rfl hbase hearly hplan hsealed hl

/-- The bytes of a cleared range read 0, and every other byte stays. -/
theorem readByte_clearRange {lo hi : ℕ} (a : ℕ) : ∀ {m : List Host.Cell} {b : ℕ}, memFrom b m →
    readByte (clearRange m lo hi) a = if lo ≤ a ∧ a < hi then 0 else readByte m a
  | [], _, _ => by simp [clearRange, readByte]
  | c :: m, b, ⟨_, _, hm⟩ => by
    have ih := readByte_clearRange (lo := lo) (hi := hi) a hm
    unfold clearRange at ih ⊢
    rw [List.filter_cons]
    by_cases hin : lo ≤ a ∧ a < hi
    · rw [if_pos hin] at ih ⊢
      split
      next hkeep =>
        have hne : c.1 ≠ a := by rintro rfl; simp at hkeep; omega
        simp [readByte, ih, hne]
      next => exact ih
    · rw [if_neg hin] at ih ⊢
      split
      next => simp only [readByte, ih]
      next hdrop =>
        have hne : c.1 ≠ a := by rintro rfl; simp at hdrop; omega
        rw [ih, readByte, if_neg hne]
        split
        next hlt => exact readByte_below (by omega) hm
        next => rfl

theorem read_clearRange {m : List Host.Cell} (h : Memory.wf m = true) (lo hi a : ℕ) :
    readByte (clearRange m lo hi) a = if lo ≤ a ∧ a < hi then 0 else readByte m a := readByte_clearRange a ((wf_iff_memFrom m).1 h)

theorem mem_clearTaint {l : List ℕ} {lo hi u : ℕ} : u ∈ clearTaint l lo hi ↔ u ∈ l ∧ (u < lo ∨ hi ≤ u) := by
  simp [clearTaint]

section

variable {s : State} {t : Team} (h : s.team s.cur.cid = some t)
include h

theorem mzero_begins (g n : BitVec 5) (hph : s.cur.phase = .access) (hopen : t.granulesOpen s.cur.timed g.toNat (n.toNat + 1) = false)
    (hidle : t.applying g.toNat (n.toNat + 1) = false) :
    ∃ t' : Team, exec (.mzero g n) s = .next (s.setTeam t') ∧ t'.engineFree = t.clk + n.toNat + 1 ∧ t'.acc = t.acc ∧
      ⟨t.clk + n.toNat + 1, rankOf .mat, { s.cur with phase := .perform }, .mzero g n⟩ ∈ t'.pend := by
  dsimp only [exec]
  unfold execMzero
  rw [hph]
  dsimp only
  rw [onTeam_live h, hopen, hidle]
  exact ⟨_, rfl, rfl, rfl, mem_insertPend.2 (.inl rfl)⟩

theorem mzero_ends (g n : BitVec 5) (hwf : Memory.wf t.acc = true) (hph : s.cur.phase = .perform) (hjob : ∃ j ∈ t.engine, j.id = s.cur.id) :
    ∃ t' : Team, exec (.mzero g n) s = .next (s.setTeam (t'.signalAt s.cur t.clk)) ∧
      (∀ a, readByte t'.acc a = if 65536 * g.toNat ≤ a ∧ a < 65536 * (g.toNat + n.toNat + 1) then 0 else readByte t.acc a) ∧
      (∀ u ∈ t'.accTaint, u ∈ t.accTaint ∧ (4 * u < 65536 * g.toNat ∨ 65536 * (g.toNat + n.toNat + 1) ≤ 4 * u)) ∧
      (∀ j, j ∈ t'.engine ↔ j ∈ t.engine ∧ j.id ≠ s.cur.id) ∧ t'.spad = t.spad ∧ t'.border = t.border := by
  have hany : t.engine.any (·.id = s.cur.id) = true := by simpa using hjob
  have hend : 65536 * g.toNat + 65536 * (n.toNat + 1) = 65536 * (g.toNat + n.toNat + 1) := by ring
  dsimp only [exec]
  unfold execMzero
  rw [hph]
  dsimp only
  rw [onTeam_live h, if_pos hany, hend]
  refine ⟨_, rfl, read_clearRange hwf _ _, fun u hu => ?_, fun j => ?_, rfl, rfl⟩
  · obtain ⟨hmem, hout⟩ := mem_clearTaint.1 hu
    exact ⟨hmem, by omega⟩
  · simp

end

theorem zeroWordClearsItsGranules : ZeroWordClearsItsGranules := fun _ _ g n h hwf =>
  ⟨mzero_begins h g n, mzero_ends h g n hwf⟩

/-- Settles O30: a word of mat whose gate is open joins the queue with what its team holds, and MZERO clears the cells of its granules. -/
theorem engineQueueWordsComplete : Obligations.EngineQueueWordsComplete :=
  ⟨engineWordsJoinTheQueue, drainWordsJoinTheQueue, zeroWordClearsItsGranules⟩

end Sys2Proof.Machine
end

section
/-! The landing of VSHAPE (O29): a field of 0 keeps what stands there, so the clause that it sets the field fails. -/

namespace Sys2Proof.Machine

/-- The team that replaces another is determined by the state that it makes. -/
theorem setTeam_inj {s : State} {t u v : Team} (hs : s.team t.cid = some t) (hu : u.cid = t.cid) (hv : v.cid = t.cid)
    (h : s.setTeam u = s.setTeam v) : u = v := by
  have hu' := team_setTeam (u := u) (hu ▸ hs)
  have hv' := team_setTeam (u := v) (hv ▸ hs)
  rw [h, hu, ← hv, hv'] at hu'
  exact (Option.some.inj hu').symm

/-- The module with one team at its start values, whose VSHAPE has 16 rows of 16 units. -/
def shapedModule : State := { State.reset with teams := [blankTeam] }

theorem shapedModule_team : shapedModule.team shapedModule.cur.cid = some blankTeam := rfl

/-- A landed write of VSHAPE puts what R197 makes of its fields into that register. -/
theorem vshape_lands {s : State} {t : Team} (h : s.team s.cur.cid = some t) (r b : ℕ) :
    exec (.registerWriteLands (.vshape r b)) s = .next (s.setTeam { t with vshape := shapeOf t.vshape r b }) :=
  (onTeam_live h _).trans rfl

/-- A field of 0 leaves VSHAPE as it is (R197). -/
theorem shapeOf_blankTeam : shapeOf blankTeam.vshape 0 0 = blankTeam.vshape := by decide

/-- At the start values ROWS stays 16 where 0 lands. -/
theorem not_configurationWritesLand : ¬ ConfigurationWritesLand := by
  intro h
  obtain ⟨-, -, -, -, -, hshape, -⟩ := h shapedModule blankTeam shapedModule_team
  obtain ⟨t', hlands, hframe, hrows, -⟩ := hshape 0 0 (by decide) (by decide)
  rw [vshape_lands shapedModule_team, shapeOf_blankTeam] at hlands
  have hteam : blankTeam = t' := setTeam_inj shapedModule_team rfl (by rw [hframe]) (Host.Outcome.next.inj hlands)
  rw [← hteam] at hrows
  exact absurd hrows (by decide)

/-- Refutes O29: a word with a field of 0 keeps that field of VSHAPE (R197), so at the module at its start values the landing of
`.vshape 0 0` leaves 16 rows where `ConfigurationWritesLand` asks for 0. -/
theorem not_matSetupWordsComplete : ¬ Obligations.MatSetupWordsComplete := by
  rintro ⟨-, -, hland, -⟩
  exact not_configurationWritesLand hland

end Sys2Proof.Machine
end

section
/-! A team from state to state, and the row groups that enter the Border: shared by the events of the engine and of the Border. -/

namespace Sys2Proof.Machine

/-! ## A team from state to state -/

/-- The team of a core is found again in another state, in a relation to what it was. -/
def CarriesTeam (R : Team → Team → Prop) (cid : ℕ) (s s' : State) : Prop :=
  ∀ u, s.team cid = some u → ∃ v, s'.team cid = some v ∧ R u v

section

variable {R : Team → Team → Prop} {cid : ℕ} (hrefl : ∀ u, R u u)

theorem CarriesTeam.trans (htrans : ∀ ⦃u v w⦄, R u v → R v w → R u w) {s s' s'' : State} (h : CarriesTeam R cid s s')
    (h' : CarriesTeam R cid s' s'') : CarriesTeam R cid s s'' := by
  intro u hu
  obtain ⟨v, hv, huv⟩ := h u hu
  obtain ⟨w, hw, hvw⟩ := h' v hv
  exact ⟨w, hw, htrans huv hvw⟩

include hrefl

theorem CarriesTeam.refl (s : State) : CarriesTeam R cid s s := fun u h => ⟨u, h, hrefl u⟩

/-- A replaced team is in the relation, and every other team stays. -/
theorem CarriesTeam.setTeam {s : State} {w v : Team} (hw : s.team v.cid = some w) (h : R w v) : CarriesTeam R cid s (s.setTeam v) := by
  intro u hu
  by_cases hcid : cid = v.cid
  · subst hcid
    obtain rfl : w = u := Option.some.inj (hw.symm.trans hu)
    exact ⟨v, team_setTeam hw, h⟩
  · exact ⟨u, (team_setTeam_other s v hcid).trans hu, hrefl u⟩

theorem CarriesTeam.foldl (htrans : ∀ ⦃u v w⦄, R u v → R v w → R u w) {α : Type} {f : State → α → State}
    (hf : ∀ s x, CarriesTeam R cid s (f s x)) : ∀ (l : List α) (s : State), CarriesTeam R cid s (l.foldl f s)
  | [], s => .refl hrefl s
  | x :: l, s => .trans htrans (hf s x) (CarriesTeam.foldl htrans hf l (f s x))

end

/-- Two teams that differ at most in the landings that they expect. -/
def SameButInbound (u v : Team) : Prop := v = { u with inbound := v.inbound }

theorem SameButInbound.refl (u : Team) : SameButInbound u u := rfl

theorem SameButInbound.trans ⦃u v w : Team⦄ (h : SameButInbound u v) (h' : SameButInbound v w) : SameButInbound u w := by
  unfold SameButInbound at *
  rw [h', h]

theorem expect_carries (cid : ℕ) (s : State) (t : Team) (timed : Bool) (id count core : ℕ) :
    CarriesTeam SameButInbound cid s (s.expect t timed id count core) := by
  unfold State.expect
  split
  · exact .refl .refl s
  · split
    next => exact .refl .refl s
    next v hv =>
      obtain rfl := team_cid hv
      exact .setTeam (v := { v with inbound := _ }) .refl hv rfl

/-! ## Row groups that enter the Border (R232) -/

theorem readEccOf_eq (t own : Team) (n : ℕ) (rows : List ℕ) : ∃ l, t.readEccOf own n rows = { t with found := l } := by
  unfold Team.readEccOf
  split
  · exact ⟨t.found, rfl⟩
  · exact ⟨_, rfl⟩

theorem readAccEcc_eq (t : Team) (lo n : ℕ) : ∃ l, t.readAccEcc lo n = { t with found := l } := by
  unfold Team.readAccEcc
  split
  · exact ⟨t.found, rfl⟩
  · exact ⟨_, rfl⟩

/-- A row group's completion, as the effect on its way that it is. -/
def RowGroup.completion (r : RowGroup) : Pend := ⟨r.complete, rankOf .mat, { r.cx with args := [r.id] }, .rowGroupComplete⟩

/-- Row groups enter the Border in order, each with its completion on its way, and nothing else of the team changes. -/
theorem addGroups_eq (l : List RowGroup) (t : Team) : ∃ p n, t.addGroups l = { t with border := t.border ++ l, pend := p, nextId := n } ∧
    ∀ r ∈ l, r.completion ∈ p := by
  suffices h : ∃ p n, t.addGroups l = { t with border := t.border ++ l, pend := p, nextId := n } ∧
      (∀ x ∈ t.pend, x ∈ p) ∧ ∀ r ∈ l, r.completion ∈ p by
    obtain ⟨p, n, heq, -, hmem⟩ := h
    exact ⟨p, n, heq, hmem⟩
  induction l generalizing t with
  | nil => exact ⟨t.pend, t.nextId, by simp [Team.addGroups], fun _ h => h, by simp⟩
  | cons r l ih =>
    obtain ⟨p, n, heq, hold, hnew⟩ := ih { t with border := t.border ++ [r], nextId := t.nextId + 1, pend := insertPend r.completion t.pend }
    refine ⟨p, n, heq.trans (by simp), fun x hx => hold x (mem_insertPend.2 (.inr hx)), ?_⟩
    rw [List.forall_mem_cons]
    exact ⟨hold _ (mem_insertPend.2 (.inl rfl)), hnew⟩

/-- What a step's start leaves of its team: its row groups are the last of the Border, the engine is held for their time, and the
accumulators, the scratchpad and the s registers stay. -/
def StepBegun (t : Team) (c : MatCfg) (u : Team) : Prop :=
  u.border.map (fun r => (r.id, r.row, r.complete)) = t.border.map (fun r => (r.id, r.row, r.complete)) ++
    (List.range (fmtM c.fmt / 16)).map (fun i => (t.nextId + i, i, t.clk + (i + 1) * c.gt + 24)) ∧
  u.engineFree = t.clk + fmtM c.fmt / 16 * c.gt ∧ u.acc = t.acc ∧ u.spad = t.spad ∧ u.s = t.s

theorem StepBegun.border_length {t u : Team} {c : MatCfg} (h : StepBegun t c u) :
    u.border.length = t.border.length + fmtM c.fmt / 16 := by
  simpa using congrArg List.length h.1

theorem beginStep_begun (s : State) (t : Team) (j : MatJob) (p : StepPlan) (c : MatCfg) :
    ∃ u, s.beginStep t j p c = s.setTeam u ∧ StepBegun t c u := by
  unfold State.beginStep
  dsimp only
  generalize hl : (List.range (fmtM c.fmt / 16)).map _ = l
  obtain ⟨q, n, hadd, -⟩ := addGroups_eq l t
  refine ⟨_, rfl, ?_⟩
  rw [hadd]
  subst hl
  cases p.ckpt <;> exact ⟨by simp [Team.setJob], rfl, rfl, rfl, rfl⟩

theorem startStep_begun {s : State} {t : Team} {j : MatJob} {p : StepPlan} {c : MatCfg} (h : s.stepEcc t p c = none) :
    ∃ u, s.startStep t j p c = s.setTeam u ∧ StepBegun t c u := by
  unfold State.startStep
  rw [h]
  dsimp only
  obtain ⟨l1, h1⟩ := readEccOf_eq t t (p.reads c).1.2 [(p.reads c).1.1]
  obtain ⟨l2, h2⟩ := readEccOf_eq { t with found := l1 } (s.ringOwner t c) (p.reads c).2.1.2 [(p.reads c).2.1.1]
  obtain ⟨l3, h3⟩ := readAccEcc_eq { t with found := l2 } (p.reads c).2.2.1 (p.reads c).2.2.2
  rw [Team.readEcc, h1, h2, h3]
  exact beginStep_begun s { t with found := l3 } j p c

end Sys2Proof.Machine
end

section
/-! Events of the engine (O40): an activation, a step, and a drain. -/

namespace Sys2Proof.Machine

/-! ## Activation and steps (R225, R226, R228, R229) -/

section Engine

variable {s : State} {t : Team} {j : MatJob} (h : s.team s.cur.cid = some t) (hj : t.jobOf s.cur.id = some j)
include h hj

/-- An activation goes by the job that the engine has reached. -/
theorem exec_mgo_activation {g : BitVec 5} (hact : j.act = .mgo g) : exec .mgoActivation s = .next (s.activate t j) := by
  refine (onTeam_live h _).trans ?_
  simp only [hj, hact]

theorem mgo_activates {g : BitVec 5} {c : MatCfg} (hact : j.act = .mgo g)
    (hdue : j.cx.timed = true → t.clk ≤ j.cx.issued + 1 ∧ t.engineIdle j = true) (hc : s.activation t j t = .ok c) :
    exec .mgoActivation s = .next (s.setTeam (t.activated j c none)) := by
  have htime : (j.cx.timed && (j.cx.issued + 1 < t.clk || !t.engineIdle j)) = false := by
    cases htimed : j.cx.timed with
    | false => rfl
    | true =>
      obtain ⟨hclk, hidle⟩ := hdue htimed
      simp [hidle, hclk]
  rw [exec_mgo_activation h hj hact, State.activate, htime, hc]
  rfl

theorem mgoQuad_reached {g : BitVec 5} (hact : j.act = .mgoQuad g) (hq : j.quadAt = none)
    (hdue : j.cx.timed = true → t.engineIdle j = true) :
    let s1 := s.setTeam (t.setJob { j with reach := some t.clk })
    let at_ := fun (u : Team) => match u.quadJob with
      | some i => u.setJob { i with quadAt := some (u.clk + 96) }
      | none => u
    exec .mgoActivation s = .next (if (s1.quad (t.setJob { j with reach := some t.clk })).all fun u => u.quadJob.any fun i => i.reach.isSome
      then (s1.quad (t.setJob { j with reach := some t.clk })).foldl (fun (s : State) u => s.setTeam (at_ u)) s1 else s1) := by
  have htime : (j.cx.timed && !t.engineIdle j) = false := by
    cases htimed : j.cx.timed with
    | false => rfl
    | true => simp [hdue htimed]
  have hany : (fun u : Team => match u.quadJob with | some i => i.reach.isSome | none => false) =
      fun u => u.quadJob.any fun i => i.reach.isSome := by
    funext u
    cases u.quadJob <;> rfl
  refine (onTeam_live h _).trans ?_
  simp only [hj, hact, hq, htime, Option.isSome_none, Bool.false_eq_true, if_false, ← hany] <;> rfl

theorem mgoQuad_activates {g : BitVec 5} {q : ℕ} (hact : j.act = .mgoQuad g) (hq : j.quadAt = some q) :
    exec .mgoActivation s = .next (s.quadGo t) := by
  refine (onTeam_live h _).trans ?_
  simp only [hj, hact, hq, Option.isSome_some, if_true]

theorem mgo_starved {g : BitVec 5} {p : StepPlan} (hp : s.nextStep t j = some p) (hready : s.stepReady t j p = false)
    (hact : j.act = .mgo g) : exec .stepStart s = .next (s.failJob t j (.schedule, s.beatOf t)) := by
  refine (onTeam_live h _).trans ?_
  simp only [hj, hp, hact, hready, Bool.not_false, if_true]

theorem mgo_steps {g : BitVec 5} {p : StepPlan} (hp : s.nextStep t j = some p) (hready : s.stepReady t j p = true)
    (hact : j.act = .mgo g) : exec .stepStart s = .next (s.startStep t j p j.cfg) := by
  refine (onTeam_live h _).trans ?_
  simp only [hj, hp, hact, hready, Bool.not_true, Bool.false_eq_true, if_false]

theorem mop_steps {g : BitVec 5} {z : Bool} {ia ib : BitVec 4} {c c' : MatCfg} {p : StepPlan} (hact : j.act = .mop g z ia ib)
    (hc : t.active = some c) (hp : s.nextStep t j = some p) (hready : s.stepReady t j p = true)
    (hgran : t.granulesBad g.toNat (tileGranules (fmtM c.fmt) (fmtN c.fmt) (fmtAcc c.fmt)) = false) (hcfg : s.mopCfg t c = .ok c') :
    exec .stepStart s = .next (s.startStep t j p c') := by
  refine (onTeam_live h _).trans ?_
  simp only [hj, hp, hact, hc, hgran, hready, hcfg, Bool.not_true, Bool.false_eq_true, if_false]

end Engine

/-! ## The start of a drain (R240) -/

/-- What a drain's start leaves of its team: its row groups are the last of the Border, the engine is held for their time, and the
accumulators, the scratchpad and the s registers stay. -/
def DrainBegun (t : Team) (d : DrainPlan) (dst : List Layout) (u : Team) : Prop :=
  u.border.length = t.border.length + d.m / 16 + (if d.mode = 1 then 1 else 0) ∧
  u.engineFree = t.clk + d.m / 16 * drainBeats d.m d.n d.acc dst ∧ u.acc = t.acc ∧ u.spad = t.spad ∧ u.s = t.s

theorem drain_starts {s : State} {t : Team} {j : MatJob} (h : s.team s.cur.cid = some t) (hj : t.jobOf s.cur.id = some j)
    (hidle : t.applying (t.nextDrain j).g (tileGranules (t.nextDrain j).m (t.nextDrain j).n (t.nextDrain j).acc) = false)
    (hsealed : t.recordsSealed j (t.nextDrain j) = true)
    (hecc : t.accEccTrap (t.nextDrain j).span.1 (t.nextDrain j).span.2 = none) {dst : List Layout}
    (hdst : s.drainTargets t j (t.nextDrain j) = .ok dst) :
    ∃ (s' : State) (u : Team), exec .drainStart s = .next s' ∧ DrainBegun t (t.nextDrain j) dst u ∧
      CarriesTeam SameButInbound s.cur.cid (s.setTeam u) s' ∧ u.cid = t.cid ∧ (j.exit = false → s' = s.setTeam u) := by
  generalize hd : t.nextDrain j = d at *
  obtain ⟨f, hf⟩ := readAccEcc_eq t d.span.1 d.span.2
  dsimp only [exec]
  unfold execDrainStart
  rw [onTeam_live h]
  simp only [hj, hd, hidle, hsealed, hdst, hecc, Bool.not_true, Bool.or_false, Bool.false_eq_true, if_false, hf]
  generalize hplain : (List.range (d.m / 16)).map _ = plain
  generalize htrans : (if d.mode = 1 then _ else []) = trans
  obtain ⟨p, n, hadd, -⟩ := addGroups_eq (plain ++ trans) { t with found := f }
  rw [hadd]
  refine ⟨_, _, rfl, ?_, ?_, ?_, fun hexit => if_pos (by rw [hexit]; rfl)⟩
  · subst hplain htrans
    exact ⟨by simp [Team.setJob, apply_ite List.length, Nat.add_assoc], rfl, rfl, rfl, rfl⟩
  · refine iteInduction (fun _ => .refl SameButInbound.refl _) fun _ => ?_
    refine .foldl SameButInbound.refl SameButInbound.trans (fun s r => ?_) _ _
    exact iteInduction (fun _ => expect_carries _ _ _ _ _ _ _) fun _ => .refl SameButInbound.refl s
  · rfl

/-- A drain of its own takes the endpoints that its word has read, in sectors that are sealed. -/
theorem mdrain_plan (s : State) {t : Team} {j : MatJob} {g m : BitVec 5} {n : BitVec 4} {r : SReg} (hact : j.act = .mdrain g r m n)
    (hexit : j.exit = false) : s.drainTargets t j (t.nextDrain j) = .ok j.recs ∧ t.recordsSealed j (t.nextDrain j) = true ∧
      (t.nextDrain j).g = g.toNat ∧ (t.nextDrain j).m = 16 * (m.toNat + 1) ∧ (t.nextDrain j).n = 16 * (n.toNat + 1) ∧
      (t.nextDrain j).mode = 0 := by
  have hplan : t.nextDrain j = ⟨g.toNat, 16 * (m.toNat + 1), 16 * (n.toNat + 1), fmtAcc j.cfg.fmt, 0, 0, 0, 0⟩ := by
    simp only [Team.nextDrain, hact]
  rw [hplan]
  exact ⟨by simp [State.drainTargets, hexit], by simp [Team.recordsSealed, hexit], rfl, rfl, rfl, rfl⟩

/-- Settles O40, event by event: what an event adds to the Border and to the engine's time stands in `StepBegun` and `DrainBegun`, and
a drain's landings change no more of the team than what it expects. -/
theorem engineEventsStartTheirWork : Obligations.EngineEventsStartTheirWork := by
  intro s t j h hj
  refine ⟨fun g c hact hdue hc => ?_, fun g hact hq hdue => mgoQuad_reached h hj hact hq hdue,
    fun g q hact hq => mgoQuad_activates h hj hact hq, fun p g hp hready hact => mgo_starved h hj hp hready hact,
    fun p g hp hready hact hecc => ?_, fun g z ia ib c p c' hact hc hp hready hgran hcfg hecc => ?_, ?_,
    fun g m n r hact hexit => mdrain_plan s hact hexit⟩
  · exact ⟨_, mgo_activates h hj hact hdue hc, rfl, rfl, rfl, rfl, rfl⟩
  · obtain ⟨u, hu, hbegun⟩ := startStep_begun (j := j) hecc
    exact ⟨u, (mgo_steps h hj hp hready hact).trans (congrArg _ hu), hbegun⟩
  · obtain ⟨u, hu, hbegun⟩ := startStep_begun (j := j) hecc
    exact ⟨u, (mop_steps h hj hact hc hp hready hgran hcfg).trans (congrArg _ hu), hbegun.border_length, hbegun.2⟩
  · intro d hidle hsealed hecc dst hdst
    obtain ⟨s', u, hexec, hbegun, hstays, hcid, hexit⟩ := drain_starts h hj hidle hsealed hecc hdst
    have hteam : s.team u.cid = some t := by rw [hcid, team_cid h, h]
    have hu : (s.setTeam u).team s.cur.cid = some u := by rw [← team_cid h, ← hcid]; exact team_setTeam hteam
    obtain ⟨v, hv, hsame⟩ := hstays u hu
    obtain ⟨hborder, hfree, hacc, hspad, hs⟩ := hbegun
    refine ⟨s', v, hexec, hv, ?_, ?_, ?_, ?_, ?_, fun he => ?_⟩
    case refine_6 =>
      rw [hexit he, hu] at hv
      rw [← Option.some.inj hv, hexit he]
    all_goals
      rw [hsame]
      assumption

end Sys2Proof.Machine
end

section
/-! Commits of row groups (O41): what follows one leaves what it has stored. -/

namespace Sys2Proof.Machine

/-! ## What follows a commit (R227, R233, R245) -/

/-- The s registers, MEXC, the accumulators and the scratchpad of a team are those of another, and every effect on its way in the one is
on its way in the other. -/
structure KeepsStores (u v : Team) : Prop where
  cid : v.cid = u.cid
  s : v.s = u.s
  mexc : v.mexc = u.mexc
  acc : v.acc = u.acc
  spad : v.spad = u.spad
  pend : ∀ p ∈ u.pend, p ∈ v.pend

theorem KeepsStores.refl (u : Team) : KeepsStores u u := ⟨rfl, rfl, rfl, rfl, rfl, fun _ h => h⟩

theorem KeepsStores.trans ⦃u v w : Team⦄ (h : KeepsStores u v) (h' : KeepsStores v w) : KeepsStores u w :=
  ⟨h'.cid.trans h.cid, h'.s.trans h.s, h'.mexc.trans h.mexc, h'.acc.trans h.acc, h'.spad.trans h.spad,
    fun p hp => h'.pend p (h.pend p hp)⟩

theorem KeepsStores.foldl {α : Type} {f : Team → α → Team} (hf : ∀ t x, KeepsStores t (f t x)) :
    ∀ (l : List α) (t : Team), KeepsStores t (l.foldl f t)
  | [], t => .refl t
  | x :: l, t => .trans (hf t x) (KeepsStores.foldl hf l (f t x))

theorem signalAt_keepsStores (t : Team) (cx : Cur) (due : ℕ) : KeepsStores t (t.signalAt cx due) := by
  unfold Team.signalAt Team.later
  split
  · exact ⟨rfl, rfl, rfl, rfl, rfl, fun _ h => h⟩
  · exact ⟨rfl, rfl, rfl, rfl, rfl, fun _ h => mem_insertPend.2 (.inr h)⟩

theorem finishJobs_keepsStores (t : Team) : KeepsStores t t.finishJobs :=
  .trans (v := { t with engine := t.engine.filter fun j => !t.jobDone j }) ⟨rfl, rfl, rfl, rfl, rfl, fun _ h => h⟩
    (.foldl (fun t _ => signalAt_keepsStores t _ _) _ _)

theorem prune_keepsStores (t : Team) : KeepsStores t t.prune := ⟨rfl, rfl, rfl, rfl, rfl, fun _ h => h⟩

theorem resolvePlaits_keepsStores (t : Team) : KeepsStores t t.resolvePlaits := ⟨rfl, rfl, rfl, rfl, rfl, fun _ h => h⟩

theorem setGroup_keepsStores (t : Team) (r : RowGroup) : KeepsStores t (t.setGroup r) := ⟨rfl, rfl, rfl, rfl, rfl, fun _ h => h⟩

theorem addCnt_keepsStores (t : Team) (j : BitVec 5) (n : ℕ) : KeepsStores t (t.addCnt j n) := by
  unfold Team.addCnt
  dsimp only
  split <;> exact ⟨rfl, rfl, rfl, rfl, rfl, fun _ h => h⟩

theorem orderFault_keepsStores (t : Team) (c : Contribution) : KeepsStores t (t.orderFault c) :=
  ⟨pendTrap_cid .., pendTrap_s .., pendTrap_mexc .., pendTrap_acc .., pendTrap_spad .., fun p h => by rwa [Team.orderFault, pendTrap_pend]⟩

theorem takeEarly_keepsStores (t : Team) : KeepsStores t t.takeEarly := by
  unfold Team.takeEarly
  split
  · exact .refl t
  · split
    · exact .refl t
    · split
      · exact .trans (v := { t with inbox := { t.inbox with early := [] } }) ⟨rfl, rfl, rfl, rfl, rfl, fun _ h => h⟩
          (orderFault_keepsStores _ _)
      · exact ⟨rfl, rfl, rfl, rfl, rfl, fun _ h => h⟩

theorem applied_keepsStores (t : Team) (r : RowGroup) : KeepsStores t (t.applied r) := by
  unfold Team.applied
  dsimp only
  have hearly : ∀ u, KeepsStores t u → ∀ c : Bool, KeepsStores t (if c then u else u.takeEarly) := fun u h c =>
    iteInduction (fun _ => h) fun _ => h.trans (takeEarly_keepsStores u)
  split
  · exact .refl t
  · refine hearly _ ?_ _
    split
    · refine .trans ?_ (addCnt_keepsStores ..)
      exact ⟨rfl, rfl, rfl, rfl, rfl, fun _ h => h⟩
    · exact ⟨rfl, rfl, rfl, rfl, rfl, fun _ h => h⟩

/-- The team whose scratchpad holds ring B of a configuration of a live team is live. -/
theorem ringOwner_live {s : State} {u : Team} (hu : s.team u.cid = some u) (c : MatCfg) :
    s.team (s.ringOwner u c).cid = some (s.ringOwner u c) := by
  unfold State.ringOwner
  split
  next cid _ =>
    cases hv : s.team cid with
    | none => exact hu
    | some v =>
      obtain rfl := team_cid hv
      exact hv
  · exact hu

theorem setRingB_carries {s : State} {v : Team} (hv : s.team v.cid = some v) {cid : ℕ} (x : RingSt) :
    CarriesTeam KeepsStores cid s (s.setTeam { v with rB := x }) :=
  .setTeam (v := { v with rB := x }) .refl hv ⟨rfl, rfl, rfl, rfl, rfl, fun _ h => h⟩

/-- Slots that retire change the rings of teams alone. -/
theorem retireSlots_carries (s : State) (cid obs : ℕ) : CarriesTeam KeepsStores cid s (s.retireSlots cid obs) := by
  unfold State.retireSlots
  split
  · exact .refl .refl s
  next t ht =>
    obtain rfl := team_cid ht
    have hA : KeepsStores t (t.engine.foldl (fun (t : Team) j => match j.cfg.nest with
        | some n => if j.begun && t.rA.cfg = j.cfg.ringA then { t with rA := t.rA.retire t.clk obs (t.nestHead j n .a) } else t
        | none => t) t) := by
      refine .foldl (fun t j => ?_) _ _
      split
      · exact iteInduction (fun _ => ⟨rfl, rfl, rfl, rfl, rfl, fun _ h => h⟩) fun _ => .refl t
      · exact .refl t
    refine .trans .trans (.setTeam .refl (by rw [hA.cid]; exact ht) hA) ?_
    refine .foldl .refl .trans (fun s j => ?_) _ _
    split
    · exact .refl .refl s
    next n hn =>
      dsimp only
      refine iteInduction (fun _ => ?_) fun _ => .refl .refl s
      intro u hu
      have hown := ringOwner_live (s := s) (u := u) (by rw [team_cid hu]; exact hu) j.cfg
      rw [hu, Option.getD_some]
      exact setRingB_carries hown _ u hu

theorem afterCommit_carries (s : State) (cid obs : ℕ) : CarriesTeam KeepsStores cid s (s.afterCommit cid obs) := by
  refine .trans .trans (retireSlots_carries s cid obs) ?_
  unfold State.afterCommit
  dsimp only
  split
  · exact .refl .refl _
  next t ht =>
    obtain rfl := team_cid ht
    have hkeeps : KeepsStores t t.resolvePlaits.finishJobs.prune := .trans (resolvePlaits_keepsStores t)
      (.trans (finishJobs_keepsStores _) (prune_keepsStores _))
    exact .setTeam .refl (by rw [hkeeps.cid]; exact ht) hkeeps

/-! ## Bytes written in a row, and cells written one by one (R6) -/

theorem read_writeBytes_outside {b : ℕ} : ∀ (l : List Byte) {m : List Host.Cell} {a : ℕ}, Memory.wf m = true → b < a ∨ a + l.length ≤ b →
    readByte (writeBytes m a (l.map some)) b = readByte m b
  | [], _, _, _, _ => rfl
  | x :: l, m, a, hwf, hb => by
    rw [List.length_cons] at hb
    rw [List.map_cons, writeBytes, read_writeBytes_outside l (wf_writeByte hwf a x) (by omega), read_writeByte hwf, if_neg (by omega)]

theorem readBytes_writeBytes : ∀ (l : List Byte) {m : List Host.Cell} {a : ℕ}, Memory.wf m = true →
    readBytes (writeBytes m a (l.map some)) a l.length = l
  | [], _, _, _ => rfl
  | x :: l, m, a, hwf => by
    have hwf' := wf_writeByte hwf a x
    rw [List.map_cons, writeBytes, List.length_cons, readBytes, readBytes_writeBytes l hwf',
      read_writeBytes_outside l hwf' (.inl a.lt_succ_self), read_writeByte hwf, if_pos rfl]

theorem read_cells_outside {a : ℕ} : ∀ (l : Cells) {m : List Host.Cell}, Memory.wf m = true → (∀ c ∈ l, c.1 ≠ a) →
    readByte (l.foldl (fun m c => writeByte m c.1 c.2.1) m) a = readByte m a
  | [], _, _, _ => rfl
  | c :: l, m, hwf, ha => by
    rw [List.forall_mem_cons] at ha
    rw [List.foldl_cons, read_cells_outside l (wf_writeByte hwf _ _) ha.2, read_writeByte hwf, if_neg ha.1.symm]

theorem read_cells_of_mem {c : ℕ × BitVec 8 × Bool} : ∀ (l : Cells) {m : List Host.Cell}, Memory.wf m = true → (l.map (·.1)).Nodup →
    c ∈ l → readByte (l.foldl (fun m c => writeByte m c.1 c.2.1) m) c.1 = c.2.1
  | d :: l, m, hwf, hnodup, hc => by
    have hwf' := wf_writeByte hwf d.1 d.2.1
    rw [List.map_cons, List.nodup_cons, List.mem_map] at hnodup
    rw [List.foldl_cons]
    rcases List.mem_cons.1 hc with rfl | hc
    · rw [read_cells_outside l hwf' fun e he heq => hnodup.1 ⟨e, he, heq⟩, read_writeByte hwf, if_pos rfl]
    · exact read_cells_of_mem l hwf' hnodup.2 hc

/-! ## Commits (R233) -/

/-- The cells of a drain's row group with the bytes of an image. -/
def RowGroup.cellsOf (r : RowGroup) (img : List Byte) : Cells := (r.bytes.zip img).map fun x => (x.1.1, x.2, x.1.2.2)

theorem RowGroup.cellsOf_sublist (r : RowGroup) (img : List Byte) : ((r.cellsOf img).map (·.1)).Sublist (r.bytes.map (·.1)) := by
  have h : (r.cellsOf img).map (·.1) = ((r.bytes.zip img).map Prod.fst).map (·.1) := by simp [RowGroup.cellsOf, Function.comp_def]
  rw [h, List.zip_eq_zip_take_min, List.map_fst_zip (by simp)]
  exact (List.take_sublist _ _).map _

/-- What a commit of a row group with an image leaves of its team: the image's bytes in the accumulator, or in own scratchpad, or
on their way to where they are bound, and the row group's exceptions in MEXC. -/
structure GroupStored (t : Team) (r : RowGroup) (img : List Byte) (u : Team) : Prop where
  cid : u.cid = t.cid
  s : u.s = t.s
  mexc : u.mexc = t.mexc ||| r.exc.setWidth 64
  values : r.kind ≠ 1 → u.acc = writeBytes t.acc r.span.1 (img.map some) ∧ u.spad = t.spad
  drained : r.kind = 1 → u.acc = t.acc
  own : r.kind = 1 → r.loc = 0 → u.spad = (r.cellsOf img).foldl (fun m c => writeByte m c.1 c.2.1) t.spad
  elsewhere : r.kind = 1 → r.loc ≠ 0 → u.spad = t.spad ∧ ∃ e ∈ u.pend, e.act = .borderRelease ∧ e.due = max (r.complete + 560) t.clk

theorem GroupStored.keeps {t u v : Team} {r : RowGroup} {img : List Byte} (h : GroupStored t r img u) (hk : KeepsStores u v) :
    GroupStored t r img v where
  cid := hk.cid.trans h.cid
  s := hk.s.trans h.s
  mexc := hk.mexc.trans h.mexc
  values hkind := by rw [hk.acc, hk.spad]; exact h.values hkind
  drained hkind := by rw [hk.acc]; exact h.drained hkind
  own hkind hloc := by rw [hk.spad]; exact h.own hkind hloc
  elsewhere hkind hloc := by
    obtain ⟨hspad, e, he, hact⟩ := h.elsewhere hkind hloc
    exact ⟨hk.spad.trans hspad, e, hk.pend e he, hact⟩

/-- A commit's team, when all that follows the commit is done. -/
theorem landed_group_keepsStores {s : State} {t w : Team} (ht : s.team t.cid = some t) (hw : w.cid = t.cid) (r : RowGroup) (seen : ℕ) :
    ∃ v, ((s.setTeam ((w.setGroup r).applied r)).afterCommit t.cid seen).team t.cid = some v ∧ KeepsStores w v := by
  have hkeeps : KeepsStores w ((w.setGroup r).applied r) := .trans (setGroup_keepsStores w r) (applied_keepsStores _ r)
  have hcid := hkeeps.cid.trans hw
  obtain ⟨v, hv, hcommit⟩ := afterCommit_carries _ t.cid seen _ (by rw [← hcid]; exact team_setTeam (by rw [hcid]; exact ht))
  exact ⟨v, hv, hkeeps.trans hcommit⟩

theorem commitGroup_stored {s : State} {cid : ℕ} {t : Team} (ht : s.team cid = some t) (r : RowGroup) (img : List Byte) (seen : ℕ) :
    ∃ u, (s.commitGroup cid r img seen).team cid = some u ∧ GroupStored t r img u := by
  obtain rfl := team_cid ht
  unfold State.commitGroup
  rw [ht]
  dsimp only
  generalize hw : (if r.kind = 1 then _ else _ : Team) = w
  have hstored : GroupStored t r img w := by
    subst hw
    by_cases hkind : r.kind = 1
    · by_cases hloc : r.loc = 0
      · simp only [hkind, hloc, if_true]
        exact ⟨rfl, rfl, rfl, fun h => absurd hkind h, fun _ => rfl, fun _ _ => rfl, fun _ h => absurd hloc h⟩
      · simp only [hkind, hloc, if_true, if_false]
        exact ⟨rfl, rfl, rfl, fun h => absurd hkind h, fun _ => rfl, fun _ h => absurd h hloc,
          fun _ _ => ⟨rfl, _, mem_insertPend.2 (.inl rfl), rfl, rfl⟩⟩
    · simp only [hkind, if_false]
      exact ⟨rfl, rfl, rfl, fun _ => ⟨rfl, rfl⟩, fun h => absurd h hkind, fun h => absurd h hkind, fun h => absurd h hkind⟩
  obtain ⟨v, hv, hkeeps⟩ := landed_group_keepsStores ht hstored.cid _ seen
  exact ⟨v, hv, hstored.keeps hkeeps⟩

/-- A team whose commit has stored an image in the accumulator reads it there, and every other byte as before. -/
theorem GroupStored.reads_values {t u : Team} {r : RowGroup} {img : List Byte} (h : GroupStored t r img u) (hkind : r.kind ≠ 1)
    (hwf : Memory.wf t.acc = true) : readBytes u.acc r.span.1 img.length = img ∧
      (∀ a, a < r.span.1 ∨ r.span.1 + img.length ≤ a → readByte u.acc a = readByte t.acc a) ∧ u.spad = t.spad := by
  obtain ⟨hacc, hspad⟩ := h.values hkind
  rw [hacc]
  exact ⟨readBytes_writeBytes img hwf, fun a ha => read_writeBytes_outside img hwf ha, hspad⟩

/-- A team whose commit has stored a drain's image in its scratchpad reads it there, and every other byte as before. -/
theorem GroupStored.reads_own {t u : Team} {r : RowGroup} {img : List Byte} (h : GroupStored t r img u) (hkind : r.kind = 1)
    (hloc : r.loc = 0) (hwf : Memory.wf t.spad = true) (hnodup : (r.bytes.map (·.1)).Nodup) :
    (∀ x ∈ r.bytes.zip img, readByte u.spad x.1.1 = x.2) ∧ ∀ a, (∀ c ∈ r.bytes, c.1 ≠ a) → readByte u.spad a = readByte t.spad a := by
  rw [h.own hkind hloc]
  have hsub := r.cellsOf_sublist img
  constructor
  · intro x hx
    exact read_cells_of_mem (c := (x.1.1, x.2, x.1.2.2)) _ hwf (hnodup.sublist hsub) (List.mem_map_of_mem hx)
  · intro a ha
    refine read_cells_outside _ hwf fun c hc heq => ?_
    obtain ⟨d, hd, hdc⟩ := List.mem_map.1 (hsub.subset (List.mem_map_of_mem (f := (·.1)) hc))
    exact ha d hd (hdc.trans heq)

/-! ## The events of a row group (R233, R236) -/

/-- What both engines compute of a row group is its values, their taint, its exceptions and its bytes. -/
theorem computeGroup_eq (s : State) (t : Team) (r : RowGroup) :
    ∃ v τ x b, s.computeGroup t r = { r with vals := v, taint := τ, exc := x, bytes := b } := by
  have hput : ∀ x : List Word × List Bool × Exc, ∃ v τ e b, ({ r with vals := x.1, taint := x.2.1, exc := x.2.2 } : RowGroup) =
      { r with vals := v, taint := τ, exc := e, bytes := b } := fun x => ⟨_, _, _, r.bytes, rfl⟩
  have hsame : ∃ v τ e b, r = { r with vals := v, taint := τ, exc := e, bytes := b } := ⟨_, _, _, _, rfl⟩
  unfold State.computeGroup
  dsimp only
  split
  · split
    · exact hput _
    · exact hsame
  · split
    · exact ⟨_, _, r.exc, r.bytes, rfl⟩
    · split
      · exact hsame
      · split
        · exact hsame
        · exact ⟨r.vals, r.taint, _, _, rfl⟩
  · exact hput _

section

variable {s : State} {t : Team} {r : RowGroup} {id : ℕ} (h : s.team s.cur.cid = some t) (hargs : s.cur.args = [id])
  (hr : t.rowGroup id = some r)
include h hargs hr

theorem rowGroupCommit_agreed (hdone : r.done = true) (hcommitted : r.committed = false) (hfailed : r.failed = false)
    (hagree : r.stake = s.upset t.cid r.id 1 ∨ plait (wrong r.stake r.image) = plait (wrong (s.upset t.cid r.id 1) r.image)) :
    exec .rowGroupCommit s = .next (s.commitGroup t.cid r (wrong r.stake r.image) (r.complete + 560)) := by
  dsimp only [exec]
  unfold execRowGroupCommit
  rw [onTeam_live h, hargs]
  simp only [List.headD_cons, hr, hdone, hcommitted, hfailed, Bool.not_true, Bool.or_false, Bool.false_eq_true, if_false]
  rw [if_pos (by simpa using hagree)]

theorem rowGroupCommit_differs (hdone : r.done = true) (hcommitted : r.committed = false) (hfailed : r.failed = false)
    (hstake : r.stake ≠ s.upset t.cid r.id 1) (hplait : plait (wrong r.stake r.image) ≠ plait (wrong (s.upset t.cid r.id 1) r.image)) :
    exec .rowGroupCommit s = .next (s.setTeam { t.setGroup { r with failed := true, found := s.beatOf t } with
      freezeReq := earlier t.freezeReq t.clk }) := by
  dsimp only [exec]
  unfold execRowGroupCommit
  rw [onTeam_live h, hargs]
  simp only [List.headD_cons, hr, hdone, hcommitted, hfailed, Bool.not_true, Bool.or_false, Bool.false_eq_true, if_false]
  rw [if_neg (by simp [hstake, hplait])]

theorem rowGroupComplete_once (hdone : r.done = true) : exec .rowGroupComplete s = .next s := by
  dsimp only [exec]
  unfold execRowGroupComplete
  rw [onTeam_live h, hargs]
  simp only [List.headD_cons, hr, hdone, if_true]

/-- A row group completes: with its values it is done, and a drain's bytes stand in own scratchpad. -/
theorem rowGroupComplete_computes (hdone : r.done = false) :
    let r' := { s.computeGroup t r with done := true, stake := s.upset t.cid r.id 0 }
    exec .rowGroupComplete s = .next (if r.kind = 1 ∧ r.loc = 0
      then s.setTeam ((t.putCells (r'.cellsOf (wrong r'.stake r'.image))).setGroup { r' with saved := t.getCells (r'.bytes.map (·.1)) })
      else s.setTeam (t.setGroup r')) := by
  obtain ⟨v, τ, x, b, hcompute⟩ := computeGroup_eq s t r
  dsimp only [exec]
  unfold execRowGroupComplete
  rw [onTeam_live h, hargs]
  simp only [List.headD_cons, hr, hdone, hcompute, Bool.false_eq_true, if_false, Bool.and_eq_true, decide_eq_true_eq]
  rfl

end

/-- Settles O41: a commit stores its image by `commitGroup_stored`, whatever follows it, and a completion computes only a row
group's values and bytes. -/
theorem rowGroupsCommitOrFreeze : Obligations.RowGroupsCommitOrFreeze := by
  intro s t r id h hargs hr img
  refine ⟨fun hdone hcommitted hfailed hagree => ⟨rowGroupCommit_agreed h hargs hr hdone hcommitted hfailed hagree, ?_⟩,
    fun hdone hcommitted hfailed hstake hplait => ⟨_, rowGroupCommit_differs h hargs hr hdone hcommitted hfailed hstake hplait,
      rfl, rfl, rfl, rfl, rfl⟩,
    rowGroupComplete_once h hargs hr, fun hdone => ?_⟩
  · have hteam : s.team t.cid = some t := by rw [team_cid h, h]
    obtain ⟨u, hu, hstored⟩ := commitGroup_stored hteam r img (r.complete + 560)
    exact ⟨u, by rw [← team_cid h]; exact hu, hstored.s, hstored.mexc, hstored.reads_values,
      fun hkind => ⟨hstored.drained hkind, hstored.reads_own hkind, hstored.elsewhere hkind⟩⟩
  · have hcomplete := rowGroupComplete_computes h hargs hr hdone
    have hcommitted : (s.computeGroup t r).committed = r.committed := by
      obtain ⟨v, τ, x, b, hcompute⟩ := computeGroup_eq s t r
      rw [hcompute]
    exact ⟨fun hown => hcomplete.trans (congrArg _ (if_pos hown)), fun hown => hcomplete.trans (congrArg _ (if_neg hown)),
      hcommitted, rfl⟩

end Sys2Proof.Machine
end

section
/-! Events of the Border (O42): releases, contributions, applications and Bodkin. -/

namespace Sys2Proof.Machine

/-! ## A release from the Border (R234, R243, R286) -/

theorem rowGroup_id {t : Team} {id : ℕ} {r : RowGroup} (h : t.rowGroup id = some r) : r.id = id := by
  simpa using List.find?_some h

theorem finishJobs_border (t : Team) : t.finishJobs.border = t.border := by
  unfold Team.finishJobs
  exact List.foldlRecOn (motive := fun u : Team => u.border = t.border) _ _ rfl fun u hu j _ => (signalAt_border u _ _).trans hu

/-- A row group that a team's Border holds after it has been replaced is the one that replaced it. -/
theorem setGroup_rowGroup {t : Team} {r x : RowGroup} (hx : x ∈ (t.setGroup r).border) (hid : x.id = r.id) : x = r := by
  obtain ⟨y, -, rfl⟩ := List.mem_map.1 hx
  by_cases hy : y.id = r.id
  · exact if_pos hy
  · rw [if_neg hy] at hid
    exact absurd hid hy

/-- The state in which the word of a release performs some beats from now. -/
def State.performsLater (s : State) (u : Team) (n : ℕ) : State :=
  s.setTeam { u with pend := insertPend ⟨u.clk + n, rankOf .mat, { s.cur with phase := .perform }, .borderRelease⟩ u.pend }

theorem releaseDone_eq {s : State} {t : Team} (h : s.team t.cid = some t) {id : ℕ} {r : RowGroup} (hr : t.rowGroup id = some r) :
    s.releaseDone t.cid id = s.setTeam ((t.setGroup { r with released := true }).finishJobs.prune) := by
  unfold State.releaseDone
  rw [h]
  dsimp only
  rw [hr]

theorem released_rowGroup {t : Team} {id : ℕ} {r x : RowGroup} (hr : t.rowGroup id = some r)
    (hx : ((t.setGroup { r with released := true }).finishJobs.prune).rowGroup id = some x) : x.released = true := by
  have hmem : x ∈ (t.setGroup { r with released := true }).border := by
    rw [← finishJobs_border]
    exact List.mem_of_mem_filter (List.mem_of_find?_eq_some hx)
  rw [setGroup_rowGroup hmem ((rowGroup_id hx).trans (rowGroup_id hr).symm)]

theorem released_keepsStores (t : Team) (r : RowGroup) : KeepsStores t (t.setGroup r).finishJobs.prune :=
  .trans (setGroup_keepsStores t r) (.trans (finishJobs_keepsStores _) (prune_keepsStores _))

theorem arrived_inbound (t : Team) (x y : ℕ) : t.arrived x y = { t with inbound := (t.arrived x y).inbound } := by
  unfold Team.arrived
  split <;> rfl

theorem arrived_inbox (t : Team) (x y : ℕ) : (t.arrived x y).inbox = t.inbox := by
  rw [arrived_inbound]

section

variable {s : State} {t : Team} (h : s.team s.cur.cid = some t)
include h

section

variable {r : RowGroup} (hr : t.rowGroup (s.cur.args.headD 0) = some r)
include hr

section

variable (hphase : s.cur.phase ≠ .perform)
include hphase

theorem borderRelease_stores (hloc : r.loc = 2) : exec .borderRelease s = .next (match s.storeMapped t .mat r.bytes r.pages with
    | .error e => (s.releaseDone t.cid (s.cur.args.headD 0)).raiseAt t r.cx e.1 e.2 r.cx.pos
    | .ok s1 => s1.releaseDone t.cid (s.cur.args.headD 0)) := by
  dsimp only [exec]
  unfold execBorderRelease
  rw [onTeam_live h]
  simp only [if_neg hphase, hr, if_pos hloc] <;> rfl

theorem borderRelease_sendsSector (hloc : r.loc = 1) :
    let delay := crossDelay t.cid r.core
    let s1 := s.sendSector r.core delay r.cx
      ⟨r.bytes, s.cur.args.getD 1 r.complete, t.cid, r.step, .mat, 0, true, r.cx.timed, [], []⟩
    ∀ u, s1.team t.cid = some u → exec .borderRelease s = .next (s1.performsLater u (delay + 4 * ((r.bytes.length + 255) / 256 - 1))) := by
  intro delay s1 u hu
  dsimp only [exec]
  unfold execBorderRelease
  rw [onTeam_live h]
  simp only [if_neg hphase, hr, hloc, if_false, if_true, OfNat.one_ne_ofNat]
  rw [hu]
  rfl

theorem borderRelease_sendsContribution (hown : r.loc ≠ 1) (hglobal : r.loc ≠ 2) :
    let delay := crossDelay t.cid r.core
    let s1 := s.sendTo r.core delay rankLand { r.cx with cid := r.core, args := [t.cid, r.step] }
      (.peerAddArrival ⟨t.cid, r.seq, r.acc, r.m, r.n, r.row, r.vals, r.taint⟩)
    ∀ u, s1.team t.cid = some u → exec .borderRelease s = .next (s1.performsLater u delay) := by
  intro delay s1 u hu
  dsimp only [exec]
  unfold execBorderRelease
  rw [onTeam_live h]
  simp only [if_neg hphase, hr, if_neg hown, if_neg hglobal]
  rw [hu]
  rfl

end

theorem borderRelease_performs (hphase : s.cur.phase = .perform) :
    exec .borderRelease s = .next (s.setTeam ((t.setGroup { r with released := true }).finishJobs.prune)) := by
  dsimp only [exec]
  unfold execBorderRelease
  rw [onTeam_live h, if_pos hphase, releaseDone_eq (by rw [team_cid h, h]) hr]

end

/-! ## Contributions (R245, R246) -/

variable {x y : ℕ} (hargs : s.cur.args = [x, y]) {c : Contribution}
include hargs

theorem contribution_taken (hactive : t.inbox.active = true) (hshape : (c.acc, c.m, c.n) = t.inbox.shape) (hseq : c.seq = t.inbox.seq)
    (hturn : t.inbox.busy = false ∨ (t.inbox.row ≤ c.row ∧ ∀ e ∈ t.inbox.rows, e.row ≠ c.row)) : exec (.peerAddArrival c) s =
      .next (s.setTeam { t.arrived x y with inbox := { t.inbox with rows := t.inbox.rows ++ [c], busy := true } }) := by
  dsimp only [exec]
  unfold execPeerAddArrival
  rw [onTeam_live h, hargs]
  have hagain : (t.inbox.busy && (decide (c.row < t.inbox.row) || t.inbox.rows.any (·.row = c.row))) = false := by
    rcases hturn with hbusy | ⟨hrow, hrows⟩
    · rw [hbusy, Bool.false_and]
    · simpa using fun _ => ⟨hrow, hrows⟩
  simp only [List.headD_cons, List.getD_cons_succ, List.getD_cons_zero, arrived_inbox, hactive, hshape, hseq, Bool.true_and, decide_true, hagain]
  simp

theorem contribution_held (hturn : t.inbox.active = false ∨ ((c.acc, c.m, c.n) = t.inbox.shape ∧ c.seq ≠ t.inbox.seq))
    (hnew : c.seq ∉ t.inbox.applied) (hfits : ∀ e l, t.inbox.early = e :: l → e.seq = c.seq ∧ e.sender = c.sender) :
    exec (.peerAddArrival c) s = .next (s.setTeam { t.arrived x y with inbox := { t.inbox with early := t.inbox.early ++ [c] } }) := by
  dsimp only [exec]
  unfold execPeerAddArrival
  rw [onTeam_live h, hargs]
  have hlater : (t.inbox.active && decide (c.seq = t.inbox.seq)) = false := by
    rcases hturn with hidle | ⟨-, hseq⟩
    · rw [hidle, Bool.false_and]
    · simp [hseq]
  have hsame : (t.inbox.active && decide ((c.acc, c.m, c.n) ≠ t.inbox.shape)) = false := by
    rcases hturn with hidle | ⟨hshape, -⟩
    · rw [hidle, Bool.false_and]
    · simp [hshape]
  simp only [List.headD_cons, List.getD_cons_succ, List.getD_cons_zero, arrived_inbox, hlater, hsame]
  cases hearly : t.inbox.early with
  | nil => simp [hnew]
  | cons e l =>
    obtain ⟨hseq, hsender⟩ := hfits e l hearly
    simp [hnew, hseq, hsender]

theorem contribution_ofAnotherShape (hactive : t.inbox.active = true) (hshape : (c.acc, c.m, c.n) ≠ t.inbox.shape) :
    exec (.peerAddArrival c) s = .next (s.setTeam ((t.arrived x y).orderFault c)) := by
  dsimp only [exec]
  unfold execPeerAddArrival
  rw [onTeam_live h, hargs]
  simp only [List.headD_cons, List.getD_cons_succ, List.getD_cons_zero, arrived_inbox, hactive]
  simp [hshape]

end

/-- The application of a contribution's row group enters the Border, and completes 24 beats later (R245). -/
theorem application_starts {s : State} {t : Team} (h : s.team s.cur.cid = some t) {c : Contribution} (hdue : t.applyDue = some c)
    (hecc : t.accEccTrap (65536 * t.inbox.g + 16 * c.row * c.n * accBytes c.acc) (16 * c.n * accBytes c.acc) = none) :
    ∃ u, exec .peerAddApply s = .next (s.setTeam u) ∧ u.border.length = t.border.length + 1 ∧
      (∃ e ∈ u.pend, e.act = .rowGroupComplete ∧ e.due = t.clk + 24) ∧ u.inbox.row = t.inbox.row + 1 ∧ u.acc = t.acc ∧ u.s = t.s := by
  dsimp only [exec]
  unfold execPeerAddApply
  rw [onTeam_live h]
  simp only [hdue, RowGroup.span, hecc]
  obtain ⟨f, hf⟩ := readAccEcc_eq t (65536 * t.inbox.g + 16 * c.row * c.n * accBytes c.acc) (16 * c.n * accBytes c.acc)
  rw [hf]
  generalize hr : ({ id := t.nextId, job := 0, kind := 2, .. } : RowGroup) = r
  generalize hx : ({ t.inbox with row := _, rows := _ } : Inbox) = x
  obtain ⟨p, n, hadd, hcompletes⟩ := addGroups_eq [r] { t with found := f, inbox := x }
  refine ⟨_, rfl, ?_⟩
  rw [hadd]
  refine ⟨by simp, ⟨_, hcompletes r (by simp), rfl, ?_⟩, ?_, rfl, rfl⟩
  · rw [← hr]; rfl
  · rw [← hx]

/-! ## Bodkin (R236, R237) -/

theorem bodkin_idle {s : State} {t : Team} (h : s.team s.cur.cid = some t) (hr : t.failedGroup = none) :
    exec .bodkinArbitration s = .next s := by
  dsimp only [exec]
  unfold execBodkinArbitration
  rw [onTeam_live h]
  simp only [hr]

/-- Bodkin arbitrates a failed row group and has those that depend on it computed again; where one of them differs, it goes on. -/
theorem bodkin_arbitrates {s : State} {t : Team} (h : s.team s.cur.cid = some t) {r : RowGroup} (hr : t.failedGroup = some r) :
    let s1 := (s.arbitrate t.cid r.id).redo t.cid ((t.dependents r.id).filter (· != r.id))
    ∀ u, s1.team t.cid = some u → exec .bodkinArbitration s = .next (if u.failedGroup = none then s1 else
      { s1 with agenda := insertPend ⟨s1.now + u.bodkinBeats, 0, { Cur.none with cid := u.cid }, .bodkinArbitration⟩ s1.agenda }) := by
  intro s1 u hu
  dsimp only [exec]
  unfold execBodkinArbitration
  rw [onTeam_live h]
  simp only [hr, s1] at hu ⊢
  rw [hu]
  dsimp only
  cases u.failedGroup <;> rfl

theorem bodkinVerdict_weaver {stake : Word} {img : List Byte} (h : wrong stake img ≠ img) : bodkinVerdict stake 0 0 img = some (1, img) := by
  have hsound : wrong 0 img = img := if_pos rfl
  unfold bodkinVerdict
  rw [hsound]
  simp [h.symm]

/-- A row group alone in the Border has no dependents but itself. -/
theorem dependents_alone {t : Team} {r : RowGroup} (h : t.border = [r]) : (t.dependents r.id).filter (· != r.id) = [] := by
  simp [Team.dependents, h]

theorem computeGroup_noJob (s : State) {t : Team} {r : RowGroup} (hkind : r.kind = 0) (hjob : t.jobOf r.job = none) :
    s.computeGroup t r = r := by
  simp [State.computeGroup, hkind, hjob]

/-- Where Bodkin agrees with the weaver engine alone, the arbitration commits their image. -/
theorem arbitrate_commits {s : State} {t : Team} (h : s.team t.cid = some t) {r : RowGroup} (hr : t.rowGroup r.id = some r)
    (hclean : s.computeGroup t r = r) (hweaver : s.upset t.cid r.id 1 = 0) (hbodkin : s.upset t.cid r.id 2 = 0)
    (hwrong : wrong r.stake r.image ≠ r.image) :
    ∃ u, (s.arbitrate t.cid r.id).team t.cid = some u ∧ GroupStored t r r.image u := by
  unfold State.arbitrate
  simp only [h, hr, hclean, hweaver, hbodkin, bodkinVerdict_weaver hwrong]
  refine commitGroup_stored ?_ r r.image _
  obtain ⟨-, hteams, -⟩ := checkEvent_same s ⟨0, s.physCore t.cid⟩ 1 (some (t.backdated (s.beatOf t) r.found)) r.g r.row
  unfold State.team at h ⊢
  rw [hteams, h]

/-- Settles O42: the release, the contribution, the application and the arbitration each by the lemma on its event. -/
theorem borderEventsComplete : Obligations.BorderEventsComplete := by
  intro s t h
  have hteam : s.team t.cid = some t := by rw [team_cid h, h]
  refine ⟨?_, ?_, ?_, fun c => application_starts h, bodkin_idle h, fun r => bodkin_arbitrates h, ?_⟩
  · rintro _ r rfl hr hphase
    refine ⟨fun hloc s1 hs1 => ?_, fun hloc e he => ?_, borderRelease_sendsSector h hr hphase, borderRelease_sendsContribution h hr hphase⟩
    · rw [borderRelease_stores h hr hphase hloc, hs1]
    · rw [borderRelease_stores h hr hphase hloc, he]
  · rintro _ r rfl hr hphase
    have hkeeps := released_keepsStores t { r with released := true }
    exact ⟨_, borderRelease_performs h hr hphase, fun x => released_rowGroup hr, hkeeps.acc, hkeeps.spad, hkeeps.s⟩
  · intro c x y hargs
    exact ⟨contribution_taken h hargs, contribution_held h hargs, fun ⟨hactive, hshape⟩ => contribution_ofAnotherShape h hargs hactive hshape,
      arrived_inbound t x y⟩
  · intro r hfailed hr hborder hkind hjob hweaver hbodkin hwrong hwf
    obtain ⟨u, hu, hstored⟩ := arbitrate_commits hteam hr (computeGroup_noJob s hkind hjob) hweaver hbodkin hwrong
    have hexec := bodkin_arbitrates h hfailed u
    rw [dependents_alone hborder, State.redo] at hexec
    obtain ⟨hread, hother, hspad⟩ := hstored.reads_values (by rw [hkind]; decide) hwf
    refine ⟨_, u, hexec hu, ?_, hread, hother, hspad, hstored.s⟩
    rw [apply_ite (State.team · t.cid)]
    exact (ite_id _).trans hu

end Sys2Proof.Machine
end
